-- ==== Sys2Proof/Word.lean ====
section
/-! DEFINITION. The word types of the FC-3400 and the two small containers the model is built on: a value for each of
the two lanes, and a value for each of the two sides (paths, heads) of a lane. -/

namespace Sys2Proof

/-- One byte of host memory. -/
abbrev Byte := BitVec 8

/-- A lane position: a value of the 24-bit position counter (R1). -/
abbrev Pos := BitVec 24

/-- A millisecond time since the last device reset, which wraps (00_scope.md, Units and conventions). -/
abbrev Ms := BitVec 32

/-- The two lanes. -/
inductive LaneId where
  | lane0 | lane1
  deriving DecidableEq, Repr

/-- The near and the far side of a lane: its paths, banks, heads, cancel eyes and verify eyes. -/
inductive Side where
  | near | far
  deriving DecidableEq, Repr

/-- One value for each lane. -/
structure PerLane (α : Type) where
  lane0 : α
  lane1 : α
  deriving DecidableEq, Repr

/-- One value for each side of a lane. -/
structure PerSide (α : Type) where
  near : α
  far : α
  deriving DecidableEq, Repr

def PerLane.get {α : Type} (p : PerLane α) : LaneId → α
  | .lane0 => p.lane0
  | .lane1 => p.lane1

def PerLane.upd {α : Type} (p : PerLane α) (l : LaneId) (f : α → α) : PerLane α :=
  match l with
  | .lane0 => { p with lane0 := f p.lane0 }
  | .lane1 => { p with lane1 := f p.lane1 }

def PerSide.get {α : Type} (p : PerSide α) : Side → α
  | .near => p.near
  | .far => p.far

def PerSide.upd {α : Type} (p : PerSide α) (h : Side) (f : α → α) : PerSide α :=
  match h with
  | .near => { p with near := f p.near }
  | .far => { p with far := f p.far }

/-- The entry of a fixed table at an index. -/
def vget {α : Type} {n : Nat} (v : Vector α n) (i : Fin n) : α := v[i.val]

/-- A fixed table with one entry changed. -/
def vupd {α : Type} {n : Nat} (v : Vector α n) (i : Fin n) (f : α → α) : Vector α n :=
  v.set i.val (f v[i.val]) i.isLt

end Sys2Proof
end

