-- ==== Sys2Proof/Syntax.lean ====
section
/-! DEFINITION. The commands of the FC-3400: one constructor for each row of spec/opcode_table.json. The part has no
encoding of its commands (the table gives no bits); an order row takes its fields from the order block that the chain
has taken (R180), so it carries no operand here. -/

namespace Sys2Proof

/-- The fourteen eyes of a lane, in eye code order (11_record_and_order_formats.md, 11.6). -/
inductive Eye where
  | e | t | cn | cf | vn | vf | n1 | n2 | n3 | f1 | f2 | f3 | ne | fe
  deriving DecidableEq, Repr

/-- The eight gates of a lane, in gate code order (11.6). -/
inductive Gate where
  | flip | bank | n1 | n2 | n3 | f1 | f2 | f3
  deriving DecidableEq, Repr

/-- The eight pockets of a lane, in pocket index order (R107). -/
inductive Pocket where
  | n1 | n2 | n3 | f1 | f2 | f3 | ne | fe
  deriving DecidableEq, Repr

/-- The bytes of a register word that a read asks for (R193): `count` bytes from byte `first`. -/
structure ByteSel where
  first : Nat
  count : Nat
  deriving DecidableEq, Repr

/-- The commands. Operands: `l` the lane; `serial` the serial of the track entry the event belongs to; `held` the number
of consecutive equal readings of an input up to the one at which the command stands, which the edge filters of R5, R114
and R126 count; `readings` raw 12-bit readings in channel order. -/
inductive Instr where
  | deviceReset
  | encoderCount (l : LaneId) (forward : Bool)
  | speedInterval (l : LaneId)
  | eLeadingEdge (l : LaneId) (held : Nat)
  | eTrailingEdge (l : LaneId) (held : Nat)
  | longTimeout (l : LaneId) (serial : Nat)
  | blockedEye (l : LaneId) (eye : Eye)
  | nearPointReached (l : LaneId)
  | clearPointReached (l : LaneId)
  | sampleTaken (l : LaneId) (serial : Nat) (readings : List (BitVec 12))
  | scoringComplete
  | forcedDelivery (l : LaneId) (serial : Nat)
  | bankPositionReached (l : LaneId) (serial : Nat)
  | arrivalT (l : LaneId) (held : Nat)
  | tWindowPassed (l : LaneId) (serial : Nat)
  | arrivalCancelEye (l : LaneId) (side : Side) (held : Nat)
  | cancelWindowPassed (l : LaneId) (serial : Nat) (side : Side)
  | lostAtCancelEye (l : LaneId) (serial : Nat)
  | lostAtEndEye (l : LaneId) (serial : Nat)
  | arrivalPocketEye (l : LaneId) (pocket : Pocket) (held : Nat)
  | verifyEdge (l : LaneId) (side : Side) (held : Nat)
  | verifyEntryExpiry (l : LaneId) (side : Side)
  | gateOnEvent (l : LaneId) (gate : Gate)
  | gateWindowClose (l : LaneId) (gate : Gate)
  | gateHoldExpiry (l : LaneId) (gate : Gate)
  | printStart (l : LaneId) (side : Side)
  | printEnd (l : LaneId) (side : Side)
  | rasterLoadStart (l : LaneId) (side : Side)
  | rasterLoadComplete (l : LaneId) (side : Side)
  | spitTimerExpiry (l : LaneId) (side : Side)
  | spitGapTimeout (l : LaneId) (side : Side)
  | spitStart (l : LaneId) (side : Side)
  | spitComplete (l : LaneId) (side : Side)
  | headTempReading (l : LaneId) (side : Side) (temp : Nat)
  | lampWarmComplete (l : LaneId)
  | lampRiseComplete (l : LaneId)
  | idleTimerExpiry (l : LaneId)
  | feedReqChange (l : LaneId) (level : Bool) (held : Nat)
  | longCalStart (l : LaneId)
  | longCalComplete (l : LaneId) (dark : List (List (BitVec 12))) (reference : List (List (BitVec 12)))
  | calIntervalExpiry (l : LaneId)
  | gapCalHoldExpiry (l : LaneId)
  | shortCalStart (l : LaneId)
  | shortCalComplete (l : LaneId) (dark : List (List (BitVec 12))) (reference : List (List (BitVec 12)))
  | clockSecond
  | compositionComplete
  | stagedTableApply
  | idleWorkStart
  | auditEvalComplete
  | refCalCheckComplete (l : LaneId) (readings : List (List (BitVec 12)))
  | syntheticTraceDone (l : LaneId)
  | syntheticItemScored (l : LaneId)
  | swapRequest (l : LaneId) (pocket : Pocket) (pressed : Bool) (held : Nat)
  | trayOut (l : LaneId) (pocket : Pocket) (held : Nat)
  | trayIn (l : LaneId) (pocket : Pocket) (held : Nat)
  | pollTimerExpiry
  | chainLinkRead
  | statusWrite
  | pageWriteOut
  | runChainStart
  | runChainStop
  | irqEnable
  | irqDisable
  | look
  | reset
  | chainLoWrite (value : BitVec 32)
  | chainHiWrite (value : BitVec 32)
  | chainLoRead (bytes : ByteSel)
  | chainHiRead (bytes : ByteSel)
  | attnWrite (value : BitVec 32)
  | registerWriteIgnored (offset : Nat) (width : Nat) (value : BitVec 32)
  | configurePort
  | setWindows
  | identify
  | loadClasses
  | loadGeometry
  | loadStyles
  | setClock
  | loadThresholds
  | givePages
  | flushJournal
  | laneControlRun
  | laneControlDrain
  | laneControlStandby
  | laneControlOff
  | laneControlClear
  | laneControlAbort
  | laneControlHold
  | laneControlRelease
  | pocketControlDisable
  | pocketControlEnable
  | pocketControlSwap
  | pocketControlSetCapacity
  | tallySnapshot
  | healthSnapshot
  | selfTestReference
  | selfTestCalibrate
  | selfTestClassAudit
  | selfTestAbort
  | eyeTrailingEdge (l : LaneId) (eye : Eye) (held : Nat)
  deriving DecidableEq, Repr

end Sys2Proof
end

