-- ==== Sys2Proof/Config.lean ====
section
/-! DEFINITION. What the manual leaves to the implementation or states no value for. Every constant here has no body:
nothing in Lean can evaluate it, and a statement that holds, holds whatever it is (log entries 2 and 3). -/

namespace Sys2Proof

/-- The revision field of IDENT, bits 16..23 (11.2): the manual gives the field and no value (log entry 3). -/
opaque Config.revision : BitVec 8

/-- The free values: the `n`-th value the manual leaves unstated since the model began to run (log entry 2). The step
reads `Config.freeValue s.freeCount` and advances `freeCount`. -/
opaque Config.freeValue : Nat → BitVec 64

/-- When within a long calibration's 4,000 ticks and a short one's 160 the dark part ends and the reference part begins,
in ticks of 50 µs (R31, R35): the manual states only the whole (log entry 26). -/
opaque Config.longDarkTicks : Nat
opaque Config.shortDarkTicks : Nat

/-- What the two-byte field of an item record holds for an N of 65,536 or more, which only reverse travel of the belt can
bring about (11.5, R12, R153): the manual states no value (log entry 92). -/
opaque Config.wideLength : Nat → BitVec 16

end Sys2Proof
end

