-- ==== Sys2Proof/Machine/State.lean ====
section
/-! DEFINITION. The state of the FC-3400 as plain data, block by block, and the state after a device reset. Every
type's docstring names the rules of spec/ that give its fields. -/

namespace Sys2Proof.Machine

/-! ### Names of fixed sets -/

/-- The nine verdict kinds (3.4, R59). -/
inductive VerdictKind where
  | faced | noMark | ambiguous | offCorner | late | short | long | shingled | notScanned
  deriving DecidableEq, Repr

/-- The presentations of a faced letter (R55). -/
inductive Presentation where
  | a | b | c | d
  deriving DecidableEq, Repr

/-- The stages of a track entry (R9, R13, R14). -/
inductive Stage where
  | entering | scanning | queued | planned | onPath | final
  deriving DecidableEq, Repr

/-- The causes a plan may carry (R65). -/
inductive PlanCause where
  | verdict (k : VerdictKind)
  | headDry | headRetired | headCold | printListFull | gateRetired | gateBusy | pocketFull
  deriving DecidableEq, Repr

/-- The reroute causes (R9). -/
inductive RerouteCause where
  | misflip | misbank | mispocket | gateSuppressed | gateMissed
  deriving DecidableEq, Repr

/-- The outcomes of an item (R23). -/
inductive ItemOutcome where
  | sorted | ended | lost | purged
  deriving DecidableEq, Repr

/-- Why a print was not made (R94, R96). -/
inductive UncancelledCause where
  | headDry | styleUndefined | spitBusy | rasterLate
  deriving DecidableEq, Repr

/-- Why a FULL print was printed with bars (R90). -/
inductive DowngradeCause where
  | clockUnset | genDropped
  deriving DecidableEq, Repr

/-- How a made print is counted (R90). -/
inductive PrintCount where
  | bars | full
  | fullDowngraded (c : DowngradeCause)
  deriving DecidableEq, Repr

/-- The lane states (R121). -/
inductive LaneMode where
  | off | warming | ready | running | draining | standby | stopped | testing
  deriving DecidableEq, Repr

/-- The lamp power levels (7.2). -/
inductive LampPower where
  | dark | dim | on
  deriving DecidableEq, Repr

/-- The hold reasons of a lane (R133). -/
inductive HoldReason where
  | gapCal | gapSpit | endFull | queueFull | health | host | wake | test
  deriving DecidableEq, Repr

/-- The ten attention reasons, in ATTN bit order (R177, 11.2). -/
inductive Attn where
  | orderNotify | pageFilled | pagesLow | laneState | holdChange | pocket | health | fault | jam | testDone
  deriving DecidableEq, Repr

/-- The states of a pocket (R107). -/
inductive PocketState where
  | opened | full | draining | readyToSwap | out | disabled
  deriving DecidableEq, Repr

/-- The wet condition of a head (R91). -/
inductive Wet where
  | cold | ready | dry
  deriving DecidableEq, Repr

/-- The state of a window in a gate's list (R72). -/
inductive WindowState where
  | queued | armed | active
  deriving DecidableEq, Repr

/-- The kinds of a print style (R84); `none` is the undefined style. -/
inductive StyleKind where
  | none | bars | full
  deriving DecidableEq, Repr

/-- The state of a posted print (R93). -/
inductive PrintState where
  | posted | released | printing
  deriving DecidableEq, Repr

/-- The causes of a generation roll (R89). -/
inductive RollCause where
  | period | clock | styles
  deriving DecidableEq, Repr

/-- The fill reasons of a closed page (R149). -/
inductive FillReason where
  | full | flush | laneEnd
  deriving DecidableEq, Repr

/-- The codes of event records, in code order from 1 (R154, 11.6). -/
inductive EventCode where
  | jam | lost | phantom | misflip | misbank | mispocket | gateSuppressed | gateBusy | gateMissed | pocketFull
  | endFull | trayOut | trayIn | pocketOutArrival | calDone | calClamped | calAbandoned | spitDeferred | headDry
  | headReady | genRoll | genDropped | attrFailing | attrRetired | laneState | windowFault | untracked | testEnd
  deriving DecidableEq, Repr

/-- The causes of a lane state change (R122). -/
inductive LaneCause where
  | order | warmDone | drainDone | jam | retire | test | abort | clear
  deriving DecidableEq, Repr

/-- The eleven health measures of a lane, in id order from 1 (R159, R160). -/
inductive AttrId where
  | lampReserve | flipAccuracy | bankAccuracy | pocketAccuracy | tracking | nearHeadAlign | farHeadAlign | nearHeadWet
  | farHeadWet | timeliness | calCurrency
  deriving DecidableEq, Repr

/-- What the Health Monitor Unit does when a record enters FAILING (R157). -/
inductive AttrAction where
  | report | hold | retire
  deriving DecidableEq, Repr

/-- The state of a health record (R161). -/
inductive AttrState where
  | passing | failing | retired
  deriving DecidableEq, Repr

/-- The self-test kinds of a lane (9.5). -/
inductive LaneTestKind where
  | reference | calibrate
  deriving DecidableEq, Repr

/-- The self-test kinds, the class audit among them (R173). -/
inductive TestKind where
  | reference | calibrate | classAudit
  deriving DecidableEq, Repr

/-- The results of a self-test (R172). -/
inductive TestResult where
  | pass | failFrontEnd | failScorer | abortedByHost | abortedByItem | abortedByFault | tableChanged
  deriving DecidableEq, Repr

/-- The result codes of an order (11.6). -/
inductive ResultCode where
  | ok | badKind | badField | badChecksum | badPage | noWindows | windowFault | busy | notConfigured | conflict
  | capacity | aborted | jammed | retired
  deriving DecidableEq, Repr

/-- The states of an order block (R179). -/
inductive BlockState where
  | empty | posted | taken | done | refused
  deriving DecidableEq, Repr

/-- The access kinds of the Memory Window Unit, in code order (R185, 11.6). -/
inductive Access where
  | orderRead | orderStateWrite | tableRead | journalWrite | statusWrite | snapshotWrite
  deriving DecidableEq, Repr

/-- The chain states shown in the status block (R176, R183). -/
inductive ChainState where
  | stopped | running | faulted
  deriving DecidableEq, Repr

/-- The chain fault causes (R183); `none` after a device reset (R186). -/
inductive FaultCause where
  | none | staleLink | badState | badAddress | windowFault
  deriving DecidableEq, Repr

/-- The chain phase (R176). -/
inductive Phase where
  | take | link
  deriving DecidableEq, Repr

/-- The eight actions of LANE_CONTROL (R129). -/
inductive LaneAction where
  | run | drain | standby | off | clear | abort | hold | release
  deriving DecidableEq, Repr

/-- The four actions of POCKET_CONTROL (6.5). -/
inductive PocketAction where
  | disable | enable | swap | setCapacity
  deriving DecidableEq, Repr

/-! ### The Lane Tracking Unit -/

/-- One recorded sample instant of the eyes: the counter at it (R5), the forward counts received up to it, which the gap
of R10 is measured from, and those of them made while edges were delivered, which the dark accumulation of R7 is measured
from (log entry 12). -/
structure BeltSample where
  pos : Pos
  fwd : Nat
  live : Nat
  deriving DecidableEq, Repr

/-- The belt of a lane: the position counter (R1), the speed intervals and S (R3), and the last four sample records,
oldest first (R5). `fwd` is the model's own running total of forward counts, and `live` that of the forward counts made
while the lane delivered edges (log entry 12). -/
structure Belt where
  counter : Pos
  fwd : Nat
  live : Nat
  intervals : List Nat
  intervalCount : Nat
  intervalTicks : Nat
  speed : Nat
  samples : List BeltSample
  deriving DecidableEq, Repr

/-- One eye: its accepted level (R5) and its blocked-eye measurement (R7). `restart` is the model's own: the `Belt.live`
of the last restart of the measurements, before which no count is added (log entry 85). -/
structure EyeState where
  dark : Bool
  darkCount : Nat
  declared : Bool
  restart : Nat
  deriving DecidableEq, Repr

/-- Lead, tail, minimal release and longest hold of one gate (R190). -/
structure GateGeometry where
  lead : Nat
  tail : Nat
  minRelease : Nat
  maxHold : Nat
  deriving DecidableEq, Repr

/-- The geometry record of a lane (R190). Capacities are in pocket order, gates in gate order. -/
structure Geometry where
  scanPos : Nat
  flipGatePos : Nat
  twistEyePos : Nat
  bankGatePos : Nat
  eyePos : PerSide Nat
  headOffset : PerSide Nat
  verifyOffset : Nat
  gatePos : List Nat
  chuteOffset : Nat
  endPos : PerSide Nat
  eyeTolerance : Nat
  minGap : Nat
  decisionGuard : Nat
  jamThreshold : Nat
  eyeFilter : Bool
  idleTime : Nat
  calInterval : Nat
  edgeMargin : Nat
  maxFires : Nat
  fireWindow : Nat
  warnPercent : Nat
  journalDetail : Bool
  capacities : List Nat
  gates : Vector GateGeometry 8
  deriving DecidableEq, Repr

/-- What a FACED verdict carries (R59). -/
structure FacedInfo where
  presentation : Presentation
  classIndex : Nat
  label : Nat
  score : Nat
  markCentre : Nat
  generation : Nat
  style : Nat
  pocketPrimary : Nat
  pocketAlternate : Nat
  deriving DecidableEq, Repr

/-- One strip's figures of the verdict detail (R60); the band is 0 PH, 1 FL, 2 CT. -/
structure StripDetail where
  strength : Nat
  band : Nat
  centre : Nat
  deriving DecidableEq, Repr

/-- A verdict (R9, R59, R60). -/
structure Verdict where
  kind : VerdictKind
  faced : Option FacedInfo
  detail : Option (List StripDetail)
  deriving DecidableEq, Repr

/-- The print of a plan (R65). -/
structure PlanPrint where
  head : Side
  style : Nat
  generation : Option Nat
  deriving DecidableEq, Repr

/-- A window the item owns on a gate, with the item's own span (R65, R68). -/
structure PlanWindow where
  gate : Gate
  onPos : Pos
  offPos : Pos
  deriving DecidableEq, Repr

/-- A plan (R65). -/
structure Plan where
  reject : Bool
  cause : Option PlanCause
  flip : Bool
  bank : Side
  print : Option PlanPrint
  pocket : Pocket
  windows : List PlanWindow
  deriving DecidableEq, Repr

/-- The print result of an entry (R9, R96, R97). -/
inductive PrintResult where
  | printed (startMm : Nat) (clipped : Bool) (count : PrintCount)
  | uncancelled (cause : UncancelledCause)
  deriving DecidableEq, Repr

/-- A track entry (R9), with the scan start recorded at creation (R26) and the position events already taken. -/
structure Entry where
  serial : Nat
  leadE : Pos
  scanStart : Pos
  trailE : Option Pos
  length : Option Nat
  gapBefore : Nat
  stage : Stage
  verdict : Option Verdict
  delivered : Bool
  plan : Option Plan
  seenAtT : Bool
  cancelEye : Option (Side × Pos)
  misflipSuspect : Bool
  printResult : Option PrintResult
  pocketSeen : Option Pocket
  reroute : Option RerouteCause
  outcome : Option ItemOutcome
  flipReached : Bool
  cancelPassed : PerSide Bool
  deriving DecidableEq, Repr

/-- The track queue of a lane and the Lane Tracking Unit's counts (R8, R10, R22). `lastTrail` is the forward total at
the last trailing edge delivered at E. -/
structure Track where
  queue : List Entry
  lastSerial : Nat
  lastTrail : Option Nat
  cancelJam : PerSide Nat
  endJam : PerSide Nat
  deriving DecidableEq, Repr

/-! ### The Scan Front End -/

/-- A calibration pair (R25). -/
structure CalPair where
  offset : Nat
  gain : Nat
  deriving DecidableEq, Repr

/-- Dark mean and reference mean of a channel's last completed long calibration (R168). -/
structure CalMeans where
  dark : Nat
  reference : Nat
  deriving DecidableEq, Repr

/-- The trace of an entry being sampled: for each sample, the twelve calibrated values in channel order (R25). -/
structure Trace where
  serial : Nat
  samples : List (List Nat)
  deriving DecidableEq, Repr

/-- A recorded edge at E with its reached flag (R30). -/
structure EdgeMark where
  pos : Pos
  reached : Bool
  deriving DecidableEq, Repr

/-- Who asked for a long calibration (R31). -/
inductive CalRequester where
  | warming | selfTest
  deriving DecidableEq, Repr

/-- The request a Scan Front End in reference mode is serving (R38), with its elapsed ticks of 50 µs. -/
inductive RefRequest where
  | calCheck (ticks : Nat)
  | trace (item : Nat) (ticks : Nat)
  deriving DecidableEq, Repr

/-- The Scan Front End of a lane (R25, R30, R31, R34, R37, R38). Timers count ticks of 50 µs. -/
structure Sfe where
  pairs : List CalPair
  lastLong : Option (List CalMeans)
  traces : List Trace
  lastLead : Option EdgeMark
  lastTrail : Option EdgeMark
  longRequest : Option CalRequester
  longRun : Option Nat
  shortRun : Option Nat
  calTicks : Nat
  calPeriod : Nat
  due : Bool
  dueAge : Nat
  wakeMark : Bool
  gapHold : Option Nat
  refMode : Bool
  refRequest : Option RefRequest
  deriving DecidableEq, Repr

/-! ### The Gate Sequencer -/

/-- A window of a gate's list (R72). -/
structure Window where
  onPos : Pos
  offPos : Pos
  items : List Nat
  state : WindowState
  deriving DecidableEq, Repr

/-- The last closed record of a gate (R72). -/
structure LastClosed where
  offPos : Pos
  newest : Nat
  deriving DecidableEq, Repr

/-- A running hold timer (R77): elapsed ticks of 50 µs and its limit in µs. -/
structure HoldTimer where
  ticks : Nat
  limit : Nat
  deriving DecidableEq, Repr

/-- A gate channel (R72, R76, R77). -/
structure Channel where
  windows : List Window
  lastClosed : Option LastClosed
  history : List Ms
  output : Bool
  hold : Option HoldTimer
  deriving DecidableEq, Repr

/-- The Gate Sequencer of a lane: eight channels and the two retired flags (R67, R72). -/
structure Gsq where
  channels : Vector Channel 8
  flipRetired : Bool
  bankRetired : Bool
  deriving DecidableEq, Repr

/-! ### The Cancel Unit and the Postmark Composer -/

/-- The key of a raster image (R98). -/
inductive RasterKey where
  | full (style : Nat) (generation : Nat)
  | bars (style : Nat)
  | fallback (style : Nat) (width : Nat) (anchor : Nat)
  deriving DecidableEq, Repr

/-- An image of a style (R84): width, anchor, the columns (or template) and, for FULL, the four field placings of
three bytes each: start column, first row and rows (11.4; the pad bytes are not kept). -/
structure StyleImage where
  width : Nat
  anchor : Nat
  body : List Byte
  placings : List Byte
  deriving DecidableEq, Repr

/-- The text a composition fixes (R88); the period start is in seconds-of-day. -/
structure PostmarkText where
  office : List Byte
  lane : LaneId
  year : Nat
  month : Nat
  day : Nat
  periodStart : Nat
  deriving DecidableEq, Repr

/-- A raster image: bars as given, a FULL template with its text, or the fixed pattern of fallback bars (R90). -/
inductive Raster where
  | bars (image : StyleImage)
  | full (template : StyleImage) (text : PostmarkText)
  | fallback (width : Nat) (anchor : Nat)
  deriving DecidableEq, Repr

/-- A raster slot (R98). `ready` is clear while it is being loaded; `emptyAfter` marks an emptying that waits for the
end of the print being printed from it (R99). -/
structure Slot where
  key : Option RasterKey
  ready : Bool
  image : Option Raster
  emptyAfter : Bool
  deriving DecidableEq, Repr

/-- A load in progress (R98): slot 0 or 1, elapsed ticks, and whether it is to end with the slot empty. -/
structure Load where
  slot : Fin 2
  ticks : Nat
  void : Bool
  deriving DecidableEq, Repr

/-- A posted print (R93). `image` is the slot and count chosen at its start (R96). -/
structure Print where
  serial : Nat
  style : Nat
  kind : StyleKind
  generation : Option Nat
  unsetGen : Bool
  width : Nat
  anchor : Nat
  startMm : Nat
  columns : Nat
  clipped : Bool
  state : PrintState
  start : Pos
  image : Option (Fin 2 × PrintCount)
  deriving DecidableEq, Repr

/-- A head (R91, R92, R93, R98, R100 to R105). Timers count ticks of 50 µs; `verify` holds expected positions. -/
structure Head where
  wet : Wet
  retired : Bool
  fast : Bool
  lastTemp : Nat
  tempTicks : Nat
  prints : List Print
  slots : Vector Slot 2
  load : Option Load
  trim : Int
  sum : Int
  kept : Nat
  verify : List Pos
  spitTicks : Nat
  spitPeriod : Nat
  pendingSpit : Bool
  age : Nat
  gapRequest : Option Nat
  spitRun : Option Nat
  warmRequest : Bool
  deriving DecidableEq, Repr

/-- A style 1..7 of the style set (R84). -/
structure Style where
  kind : StyleKind
  images : PerSide StyleImage
  deriving DecidableEq, Repr

/-- The spit settings of a head (R84). -/
structure SpitSetting where
  interval : Nat
  autoFast : Bool
  forceFast : Bool
  deriving DecidableEq, Repr

/-- A raster generation (R88, R89): its number, text, cause and the FULL styles composed in it. -/
structure Generation where
  number : Nat
  unset : Bool
  office : List Byte
  year : Nat
  month : Nat
  day : Nat
  periodStart : Nat
  cause : RollCause
  styles : List (Nat × Style)
  deriving DecidableEq, Repr

/-- A composition in progress (R88): elapsed and needed ticks of 50 µs. -/
structure Composition where
  generation : Generation
  ticks : Nat
  need : Nat
  deriving DecidableEq, Repr

/-- The Postmark Composer (R84, R86, R88). `period` is P in minutes. -/
structure Pmc where
  styles : List Style
  office : List Byte
  settings : PerLane (PerSide SpitSetting)
  year : Nat
  month : Nat
  day : Nat
  seconds : Nat
  period : Nat
  clockSet : Bool
  clockTicks : Nat
  lastGen : Nat
  current : Option Generation
  previous : Option Generation
  composing : Option Composition
  deriving DecidableEq, Repr

/-! ### The Pocket Router -/

/-- A pocket record (R107), with the accepted levels of its tray switch and swap button (R114). -/
structure PocketRec where
  capacity : Nat
  fill : Nat
  reservations : List Nat
  state : PocketState
  staysDisabled : Bool
  warn : Bool
  tray : Bool
  button : Bool
  deriving DecidableEq, Repr

/-! ### The Lane Sequencer -/

/-- The pending lane order of a lane (R121). -/
inductive PendingLane where
  | run | drain
  deriving DecidableEq, Repr

/-- A rise in progress (R123): elapsed ticks of 50 µs, and whether it began outside WARMING (log entry 90). -/
structure Rise where
  ticks : Nat
  outside : Bool
  deriving DecidableEq, Repr

/-- The step of WARMING (R127). -/
inductive WarmStep where
  | lamps | calibration | heads
  deriving DecidableEq, Repr

/-- The Lane Sequencer (R121, R123, R125, R126, R133). Hold reasons are in bit order of the status block. -/
structure Lsq where
  mode : LaneMode
  lamp : LampPower
  warmed : Bool
  pendingOrder : Option PendingLane
  retired : Bool
  holds : Vector Bool 8
  lampWarm : Option Nat
  rise : Option Rise
  idle : Nat
  feedReq : Bool
  warmStep : Option WarmStep
  deriving DecidableEq, Repr

/-! ### The Mark Scorer -/

/-- Bounds on the strength of one band (R46). -/
structure Bounds where
  lo : Nat
  hi : Nat
  deriving DecidableEq, Repr

/-- A class entry (R46); `bands` holds PH, FL and CT in this order. -/
structure ClassEntry where
  enabled : Bool
  label : Nat
  bands : List Bounds
  tolerance : Nat
  priority : Nat
  style : Nat
  pocketPrimary : Nat
  pocketAlternate : Nat
  deriving DecidableEq, Repr

/-- A class table with its generation (R46, R48). -/
structure ClassTable where
  generation : Nat
  window : Nat
  margin : Nat
  entries : List ClassEntry
  deriving DecidableEq, Repr

/-- A scan job (R40). -/
structure Job where
  lane : LaneId
  serial : Nat
  length : Nat
  trace : List (List Nat)
  deadline : Pos
  detail : Bool
  deriving DecidableEq, Repr

/-- A request for idle work (R167): the item in hand of a lane's REFERENCE test, or the next class of the audit. -/
inductive IdleRequest where
  | laneItem (l : LaneId)
  | audit
  deriving DecidableEq, Repr

/-- The Mark Scorer (R40, R43, R48, R50, R167). `scoring` holds the table of the job while the oldest job is scored;
`idleRunning` says that the oldest idle request is being worked. -/
structure Msc where
  jobs : List Job
  scoring : Option ClassTable
  current : Option ClassTable
  staged : Option ClassTable
  lastGen : Nat
  idleRequests : List IdleRequest
  idleRunning : Bool
  deriving DecidableEq, Repr

/-! ### The Tally and Journal Unit -/

/-- An event record (R154); `lane` is none for the device, `subject` 255 for none, `serial` 0 for none. -/
structure EventRec where
  code : EventCode
  lane : Option LaneId
  subject : Nat
  time : Ms
  serial : Nat
  arg1 : Nat
  arg2 : Nat
  deriving DecidableEq, Repr

/-- A record of the journal: an item record made from the entry at its finalisation (R153), or an event record. -/
inductive Rec where
  | item (l : LaneId) (time : Ms) (e : Entry)
  | event (e : EventRec)
  deriving DecidableEq, Repr

/-- A journal page being filled (R147, R148). -/
structure Page where
  addr : Nat
  seq : Nat
  recs : List Rec
  room : Nat
  deriving DecidableEq, Repr

/-- A closed page being written out, with its fill reason (R149). -/
structure ClosedPage where
  page : Page
  reason : FillReason
  deriving DecidableEq, Repr

/-- The journal half of the Tally and Journal Unit (R145, R147, R156). -/
structure Journal where
  fifo : List Nat
  lowWater : Nat
  page : Option Page
  closing : List ClosedPage
  given : Nat
  filled : Nat
  held : Nat
  nextSeq : Nat
  holding : List EventRec
  dropped : Nat
  unjournalled : Nat
  deriving DecidableEq, Repr

/-! ### The Health Monitor Unit -/

/-- A health record (R157). Lane, id and kind follow from its place in the table. -/
structure AttrRec where
  normalized : Nat
  worst : Nat
  raw : Int
  threshold : Nat
  action : AttrAction
  state : AttrState
  blockCount : Nat
  blockEvents : Nat
  deriving DecidableEq, Repr

/-- An entry of the test log (R173); `lane` is none for the device. -/
structure LogEntry where
  kind : TestKind
  lane : Option LaneId
  result : TestResult
  tens : Nat
  time : Ms
  checkpoint : Nat
  deriving DecidableEq, Repr

/-- A running lane self-test and the step being run, 1..10 (R168, R170). -/
structure LaneTest where
  kind : LaneTestKind
  step : Nat
  deriving DecidableEq, Repr

/-- A running class audit (R61): table generation, classes left (the first is the one under evaluation), classes
total, next result address, last class written, tens remaining, and whether an evaluation was ever begun. -/
structure Audit where
  generation : Nat
  left : List Nat
  total : Nat
  nextAddr : Nat
  lastWritten : Nat
  tens : Nat
  begun : Bool
  deriving DecidableEq, Repr

/-- The Health Monitor Unit (R157, R166, R173). Records stand in id order for each lane. -/
structure Hmu where
  attrs : PerLane (Vector AttrRec 11)
  log : Vector (Option LogEntry) 16
  pointer : Nat
  tests : PerLane (Option LaneTest)
  audit : Option Audit
  deriving DecidableEq, Repr

/-! ### Orders, windows, status and registers -/

/-- A memory window descriptor as an order carries it (R184): base / 4,096, size exponent, flags. -/
structure WindowDesc where
  base : Nat
  exponent : Nat
  flags : Byte
  deriving DecidableEq, Repr

/-- The body of an order block, by kind (11.3). The last four name bodies that no row of the table owns: a kind outside
the fifteen, and an action or self-test kind code outside those listed. -/
inductive OrderBody where
  | configurePort (statusAddr : Nat) (mask : BitVec 16) (poll : Nat) (lowWater : Nat)
  | setWindows (descs : List WindowDesc)
  | identify
  | loadClasses (addr : Nat) (count : Nat) (mode : Nat)
  | loadGeometry (addr : Nat) (lane : Nat)
  | loadStyles (addr : Nat)
  | setClock (year month day seconds period : Nat)
  | loadThresholds (addr : Nat)
  | givePages (addr : Nat) (count : Nat)
  | flushJournal
  | laneControl (lane : Nat) (action : LaneAction)
  | pocketControl (lane : Nat) (pocket : Nat) (action : PocketAction) (capacity : Nat)
  | tallySnapshot (addr : Nat) (lane : Nat) (zero : Nat)
  | healthSnapshot (addr : Nat)
  | selfTest (kind : TestKind) (lane : Nat) (spanCount : Nat) (spans : List (Nat × Nat)) (area : Nat)
  | selfTestAbort (kind : TestKind) (lane : Nat)
  | badAction
  | badKind
  deriving DecidableEq, Repr

/-- An order block the chain has taken (R179, R180). -/
structure OrderBlock where
  addr : Nat
  kind : Nat
  notify : Bool
  body : OrderBody
  deriving DecidableEq, Repr

/-- What ends a long order (R182). -/
inductive LongKey where
  | laneOrder (l : LaneId)
  | laneTest (l : LaneId)
  | audit
  | staged
  deriving DecidableEq, Repr

/-- An entry of the long-order list (R182). -/
structure LongOrder where
  key : LongKey
  addr : Nat
  kind : Nat
  notify : Bool
  deriving DecidableEq, Repr

/-- The Order Chain Unit (R176, R180, R182, R183, R186). `current` is the block taken and not yet finished; `flushing`
the page sequence number whose write-out ends a FLUSH_JOURNAL in progress (R151). -/
structure Ocu where
  position : BitVec 64
  phase : Phase
  waiting : Bool
  pollTicks : Nat
  pollLimit : Nat
  pollInterval : Nat
  current : Option OrderBlock
  flushing : Option Nat
  longList : List LongOrder
  completed : Nat
  lastOrder : Nat
  chain : ChainState
  faultCause : FaultCause
  faultAddr : Nat
  deriving DecidableEq, Repr

/-- The status block machinery of the Order Chain Unit (R177, R186, R187): `due` a rewrite is due, `again` one further
after it (R188), `sinceWrite` ticks since the last write began, `waiting` the reasons raised and waiting for a write. -/
structure StatusUnit where
  addr : Option Nat
  due : Bool
  again : Bool
  suspended : Bool
  sinceWrite : Option Nat
  updateCount : BitVec 32
  waiting : BitVec 10
  deriving DecidableEq, Repr

/-- A memory window in use (R184). -/
structure MemWindow where
  base : Nat
  size : Nat
  order : Bool
  table : Bool
  journal : Bool
  status : Bool
  snapshot : Bool
  writeProtect : Bool
  deriving DecidableEq, Repr

/-- The Memory Window Unit (R184). -/
structure Mwu where
  windows : List (Option MemWindow)
  windowsSet : Bool
  deriving DecidableEq, Repr

/-- The PCIe interface: the registers that are not the chain position (R175, R177, R178, R193), the word the last read
returned, the message settings of the configuration space, and the messages sent. -/
structure Pif where
  runChain : Bool
  irqEnable : Bool
  attn : BitVec 10
  mask : BitVec 10
  latch : Option (BitVec 32)
  readData : BitVec 32
  msiEnable : Bool
  msiAddress : BitVec 64
  msiData : BitVec 32
  msiSent : Nat
  msiLast : Option (BitVec 64 × BitVec 32)
  deriving DecidableEq, Repr

/-- The millisecond time since device reset (00_scope.md), the ticks of 50 µs within the millisecond, and whether a
whole millisecond has passed since the device reset: until then an input's reading is its first (R114, log entry 54). -/
structure Clock where
  ms : Ms
  sub : Nat
  started : Bool
  deriving DecidableEq, Repr

/-- The machine. `raised` collects the attention reasons raised within one event (empty between events); `freeCount`
counts the free values drawn; both are the model's own fields (log entries 2 and 5). -/
structure State where
  pending : List Instr
  clock : Clock
  belt : PerLane Belt
  eyes : PerLane (Vector EyeState 14)
  track : PerLane Track
  geom : PerLane Geometry
  sfe : PerLane Sfe
  gsq : PerLane Gsq
  cnu : PerLane (PerSide Head)
  pkr : PerLane (Vector PocketRec 8)
  lsq : PerLane Lsq
  msc : Msc
  pmc : Pmc
  tally : PerLane (List Nat)
  jrn : Journal
  hmu : Hmu
  ocu : Ocu
  stat : StatusUnit
  mwu : Mwu
  pif : Pif
  mem : List Host.Cell
  raised : BitVec 10
  freeCount : Nat
  deriving DecidableEq, Repr

/-- The part has no machine-stopping fault: a jam, a chain fault and a window fault are states, records and attention
reasons of it (R22, R183, R185). This type has no constructor, so no step answers a fault. -/
inductive Fault where
  deriving DecidableEq, Repr

/-- Why a command is refused. -/
inductive Refusal where
  /-- Raised by `exec` for a row that has no meaning yet. Safe: the machine stops where the part goes on. -/
  | notModelled (mnemonic : String)
  /-- Raised by the meanings of commands with operands outside the ranges the manual gives their inputs (a temperature
  above 100 °C, a reading list of the wrong length, a register access that is not of the row). Safe: such a command is
  no command of the part. -/
  | operandOutOfRange
  deriving DecidableEq, Repr

/-! ### The state after a device reset -/

/-- The default geometry (R190). -/
def Geometry.default : Geometry :=
  { scanPos := 400, flipGatePos := 4000, twistEyePos := 5200, bankGatePos := 6400, eyePos := ⟨7600, 7600⟩,
    headOffset := ⟨320, 320⟩, verifyOffset := 160, gatePos := [9600, 10800, 12000, 9600, 10800, 12000],
    chuteOffset := 200, endPos := ⟨13200, 13200⟩, eyeTolerance := 80, minGap := 120, decisionGuard := 100,
    jamThreshold := 2, eyeFilter := true, idleTime := 30, calInterval := 60, edgeMargin := 3, maxFires := 4,
    fireWindow := 200, warnPercent := 90, journalDetail := false,
    capacities := [1000, 1000, 1000, 1000, 1000, 1000, 500, 500],
    gates := #v[⟨12000, 40, 8000, 400000⟩, ⟨12000, 40, 8000, 400000⟩, ⟨8000, 40, 8000, 400000⟩,
      ⟨8000, 40, 8000, 400000⟩, ⟨8000, 40, 8000, 400000⟩, ⟨8000, 40, 8000, 400000⟩, ⟨8000, 40, 8000, 400000⟩,
      ⟨8000, 40, 8000, 400000⟩] }

/-- R1, R3, R5: counter 0, eight interval counts of 0, S 0. -/
def Belt.reset : Belt :=
  { counter := 0, fwd := 0, live := 0, intervals := [0, 0, 0, 0, 0, 0, 0, 0], intervalCount := 0, intervalTicks := 0,
    speed := 0, samples := List.replicate 4 ⟨0, 0, 0⟩ }

/-- R8, R22: an empty queue, no serial given, all jam counts 0. -/
def Track.reset : Track :=
  { queue := [], lastSerial := 0, lastTrail := none, cancelJam := ⟨0, 0⟩, endJam := ⟨0, 0⟩ }

/-- R25, R30, R34, R39: offsets 0, gains 256, no trace, no edge record, the timer at zero with the default interval. -/
def Sfe.reset : Sfe :=
  { pairs := List.replicate 12 ⟨0, 256⟩, lastLong := none, traces := [], lastLead := none, lastTrail := none,
    longRequest := none, longRun := none, shortRun := none, calTicks := 0, calPeriod := 60, due := false, dueAge := 0,
    wakeMark := false, gapHold := none, refMode := false, refRequest := none }

/-- R72, R82: an empty list, output off, no record, an empty history. -/
def Channel.reset : Channel :=
  { windows := [], lastClosed := none, history := [], output := false, hold := none }

def Gsq.reset : Gsq :=
  { channels := Vector.replicate 8 Channel.reset, flipRetired := false, bankRetired := false }

def Slot.emptied : Slot := { key := none, ready := false, image := none, emptyAfter := false }

/-- R91 to R105: COLD, trim 0, empty lists and slots, the timer at zero with the default interval of 10 s. -/
def Head.reset : Head :=
  { wet := .cold, retired := false, fast := false, lastTemp := 0, tempTicks := 0, prints := [],
    slots := Vector.replicate 2 Slot.emptied, load := none, trim := 0, sum := 0, kept := 0, verify := [],
    spitTicks := 0, spitPeriod := 10000, pendingSpit := false, age := 0, gapRequest := none, spitRun := none,
    warmRequest := false }

def StyleImage.empty : StyleImage := { width := 0, anchor := 0, body := [], placings := [] }

/-- R84: a style of kind NONE. -/
def Style.undefined : Style := { kind := .none, images := ⟨StyleImage.empty, StyleImage.empty⟩ }

/-- R84: interval 10 s, autoFast on, forceFast off. -/
def SpitSetting.reset : SpitSetting := { interval := 10, autoFast := true, forceFast := false }

/-- R84, R86, R88: undefined styles, six spaces, the clock unset, no generation. -/
def Pmc.reset : Pmc :=
  { styles := List.replicate 7 Style.undefined, office := List.replicate 6 0x20,
    settings := ⟨⟨SpitSetting.reset, SpitSetting.reset⟩, ⟨SpitSetting.reset, SpitSetting.reset⟩⟩,
    year := 2000, month := 1, day := 1, seconds := 0, period := 1, clockSet := false, clockTicks := 0, lastGen := 0,
    current := none, previous := none, composing := none }

/-- R107, R114: OPEN, fill 0, no reservation, its tray present. -/
def PocketRec.reset (capacity : Nat) : PocketRec :=
  { capacity := capacity, fill := 0, reservations := [], state := .opened, staysDisabled := false, warn := false,
    tray := true, button := false }

def pocketsReset : Vector PocketRec 8 :=
  #v[PocketRec.reset 1000, PocketRec.reset 1000, PocketRec.reset 1000, PocketRec.reset 1000, PocketRec.reset 1000,
    PocketRec.reset 1000, PocketRec.reset 500, PocketRec.reset 500]

/-- R121, R123, R126, R133: OFF, DARK, not warmed, no hold reason, FEED_REQ low. -/
def Lsq.reset : Lsq :=
  { mode := .off, lamp := .dark, warmed := false, pendingOrder := none, retired := false,
    holds := Vector.replicate 8 false, lampWarm := none, rise := none, idle := 0, feedReq := false, warmStep := none }

/-- R40, R48, R51: an empty queue, no table, last number 0. -/
def Msc.reset : Msc :=
  { jobs := [], scoring := none, current := none, staged := none, lastGen := 0, idleRequests := [],
    idleRunning := false }

/-- R145, R147, R156: no page, counts 0, sequence number 1, low-water mark 4. -/
def Journal.reset : Journal :=
  { fifo := [], lowWater := 4, page := none, closing := [], given := 0, filled := 0, held := 0, nextSeq := 1,
    holding := [], dropped := 0, unjournalled := 0 }

/-- R157: normalized 100, worst 100, raw 0, threshold 0, REPORT, PASSING. -/
def AttrRec.reset : AttrRec :=
  { normalized := 100, worst := 100, raw := 0, threshold := 0, action := .report, state := .passing, blockCount := 0,
    blockEvents := 0 }

/-- R157, R166, R173: every record at its reset value, the log empty, no test running. -/
def Hmu.reset : Hmu :=
  { attrs := ⟨Vector.replicate 11 AttrRec.reset, Vector.replicate 11 AttrRec.reset⟩, log := Vector.replicate 16 none,
    pointer := 0, tests := ⟨none, none⟩, audit := none }

/-- R176, R180, R182, R186: position 0, phase TAKE, poll interval 5, no order, chain STOPPED, no fault. -/
def Ocu.reset : Ocu :=
  { position := 0, phase := .take, waiting := false, pollTicks := 0, pollLimit := 5, pollInterval := 5,
    current := none, flushing := none, longList := [], completed := 0, lastOrder := 0, chain := .stopped,
    faultCause := .none, faultAddr := 0 }

/-- R186: no status block address, update count 0. -/
def StatusUnit.reset : StatusUnit :=
  { addr := none, due := false, again := false, suspended := false, sinceWrite := none, updateCount := 0,
    waiting := 0 }

/-- R175, R177, R178: RUN_CHAIN and IRQ_ENABLE 0, every flag clear, an empty mask. -/
def Pif.reset : Pif :=
  { runChain := false, irqEnable := false, attn := 0, mask := 0, latch := none, readData := 0, msiEnable := false,
    msiAddress := 0, msiData := 0, msiSent := 0, msiLast := none }

/-- A lane's eyes after reset: every eye light (R5). -/
def eyesReset : Vector EyeState 14 := 
  Vector.replicate 14 { dark := false, darkCount := 0, declared := false, restart := 0 }

/-- The machine right after a device reset (R175 and the reset sentence of each block's rules). -/
def State.reset : State :=
  { pending := [], clock := ⟨0, 0, false⟩, belt := ⟨Belt.reset, Belt.reset⟩, eyes := ⟨eyesReset, eyesReset⟩,
    track := ⟨Track.reset, Track.reset⟩, geom := ⟨Geometry.default, Geometry.default⟩, sfe := ⟨Sfe.reset, Sfe.reset⟩,
    gsq := ⟨Gsq.reset, Gsq.reset⟩, cnu := ⟨⟨Head.reset, Head.reset⟩, ⟨Head.reset, Head.reset⟩⟩,
    pkr := ⟨pocketsReset, pocketsReset⟩, lsq := ⟨Lsq.reset, Lsq.reset⟩, msc := Msc.reset, pmc := Pmc.reset,
    tally := ⟨List.replicate 106 0, List.replicate 106 0⟩, jrn := Journal.reset, hmu := Hmu.reset, ocu := Ocu.reset,
    stat := StatusUnit.reset, mwu := { windows := [none, none, none, none], windowsSet := false }, pif := Pif.reset,
    mem := [], raised := 0, freeCount := 0 }

end Sys2Proof.Machine
end

