-- ==== Sys2Proof/WellFormed.lean ====
section
/-! DEFINITION. Which operands a command may carry: the ranges the manual gives the inputs behind them. A meaning
refuses a command that is not well formed (`Refusal.operandOutOfRange`). -/

namespace Sys2Proof

/-- A raw reading list of one sample: one reading for each of the twelve channels (2.1, R26). -/
def readingsOk (r : List (BitVec 12)) : Bool := r.length == 12

/-- The readings of a measuring part: 64 for each of the twelve channels (R31, R35, R38). -/
def measureOk (r : List (List (BitVec 12))) : Bool := r.length == 12 && r.all (fun c => c.length == 64)

/-- The gated pockets; the end pockets have no swap button (6.4). -/
def Pocket.gated : Pocket → Bool
  | .ne | .fe => false
  | _ => true

/-- A read of at least one byte inside the four bytes of a register word (R193). -/
def ByteSel.ok (b : ByteSel) : Bool := 1 ≤ b.count && b.first + b.count ≤ 4

/-- A register write that the part ignores: to IDENT, to an offset that is no register, or of fewer than four bytes
(R175, R193). The register window is 4 KiB. -/
def ignoredWrite (offset width : Nat) : Bool :=
  offset < 4096 && 1 ≤ width && width ≤ 4 &&
    (width < 4 || offset == 0 || (offset != 4 && offset != 8 && offset != 12 && offset != 16))

/-- A head temperature, 0..100 °C (R92). -/
def tempOk (t : Nat) : Bool := t ≤ 100

/-- The well-formed commands. -/
def Instr.wellFormed : Instr → Bool
  | .sampleTaken _ _ r => readingsOk r
  | .longCalComplete _ d r => measureOk d && measureOk r
  | .shortCalComplete _ d r => measureOk d && measureOk r
  | .refCalCheckComplete _ r => measureOk r
  | .headTempReading _ _ t => tempOk t
  | .swapRequest _ p _ _ => p.gated
  | .eyeTrailingEdge _ e _ => e != .e
  | .chainLoRead b => b.ok
  | .chainHiRead b => b.ok
  | .registerWriteIgnored o w _ => ignoredWrite o w
  | _ => true

end Sys2Proof
end

