-- ==== Sys2Proof/Machine/Codes.lean ====
section
/-! DEFINITION. The code numbers and table places of the enumerated sets (11_record_and_order_formats.md, 11.6), and the
relations between eyes, gates, pockets and sides (00_scope.md, The machine around the part). -/

namespace Sys2Proof.Machine

def eyeCode : Eye → Fin 14
  | .e => 0 | .t => 1 | .cn => 2 | .cf => 3 | .vn => 4 | .vf => 5 | .n1 => 6 | .n2 => 7 | .n3 => 8
  | .f1 => 9 | .f2 => 10 | .f3 => 11 | .ne => 12 | .fe => 13

def gateCode : Gate → Fin 8
  | .flip => 0 | .bank => 1 | .n1 => 2 | .n2 => 3 | .n3 => 4 | .f1 => 5 | .f2 => 6 | .f3 => 7

def pocketCode : Pocket → Fin 8
  | .n1 => 0 | .n2 => 1 | .n3 => 2 | .f1 => 3 | .f2 => 4 | .f3 => 5 | .ne => 6 | .fe => 7

def allGates : List Gate := [.flip, .bank, .n1, .n2, .n3, .f1, .f2, .f3]

def allPockets : List Pocket := [.n1, .n2, .n3, .f1, .f2, .f3, .ne, .fe]

def gatedPockets : List Pocket := [.n1, .n2, .n3, .f1, .f2, .f3]

/-- The pocket of a POCKET_CONTROL index (6.5). -/
def pocketOfIndex (n : Nat) : Option Pocket := allPockets[n]?

/-- The lane of a lane index field (R129, R143, R190). -/
def laneOfIndex : Nat → Option LaneId
  | 0 => some .lane0
  | 1 => some .lane1
  | _ => none

def laneCode : LaneId → Nat
  | .lane0 => 0
  | .lane1 => 1

/-- The path a pocket stands on. -/
def pocketSide : Pocket → Side
  | .n1 | .n2 | .n3 | .ne => .near
  | .f1 | .f2 | .f3 | .fe => .far

/-- The end pocket of a path: NE or FE. -/
def endPocket : Side → Pocket
  | .near => .ne
  | .far => .fe

/-- The gate of a gated pocket; an end pocket has none (R70). -/
def pocketGate : Pocket → Option Gate
  | .n1 => some .n1 | .n2 => some .n2 | .n3 => some .n3
  | .f1 => some .f1 | .f2 => some .f2 | .f3 => some .f3
  | .ne | .fe => none

/-- The pocket of a pocket gate; the flip and bank gates have none. -/
def gatePocket : Gate → Option Pocket
  | .n1 => some .n1 | .n2 => some .n2 | .n3 => some .n3
  | .f1 => some .f1 | .f2 => some .f2 | .f3 => some .f3
  | .flip | .bank => none

/-- Pocket Nk or Fk of a bank, k = 1..3 (R70). -/
def bankPocket : Side → Nat → Pocket
  | .near, 1 => .n1 | .near, 2 => .n2 | .near, _ => .n3
  | .far, 1 => .f1 | .far, 2 => .f2 | .far, _ => .f3

/-- The eye of a pocket. -/
def pocketEye : Pocket → Eye
  | .n1 => .n1 | .n2 => .n2 | .n3 => .n3 | .f1 => .f1 | .f2 => .f2 | .f3 => .f3 | .ne => .ne | .fe => .fe

def cancelEyeOf : Side → Eye
  | .near => .cn
  | .far => .cf

def verifyEyeOf : Side → Eye
  | .near => .vn
  | .far => .vf

def endEyeOf : Side → Eye
  | .near => .ne
  | .far => .fe

/-- The code of a head as the subject of an event, which no table lists (log entry 63). -/
def sideCode : Side → Nat
  | .near => 0
  | .far => 1

def verdictCode : VerdictKind → Nat
  | .faced => 1 | .noMark => 2 | .ambiguous => 3 | .offCorner => 4 | .late => 5 | .short => 6 | .long => 7
  | .shingled => 8 | .notScanned => 9

def presentationCode : Presentation → Nat
  | .a => 1 | .b => 2 | .c => 3 | .d => 4

def planCauseCode : PlanCause → Nat
  | .verdict k => verdictCode k
  | .headDry => 16 | .headRetired => 17 | .headCold => 18 | .printListFull => 19 | .gateRetired => 20
  | .gateBusy => 21 | .pocketFull => 22

def rerouteCode : RerouteCause → Nat
  | .misflip => 1 | .misbank => 2 | .mispocket => 3 | .gateSuppressed => 4 | .gateMissed => 5

def outcomeCode : ItemOutcome → Nat
  | .sorted => 1 | .ended => 2 | .lost => 3 | .purged => 4

def uncancelledCode : UncancelledCause → Nat
  | .headDry => 1 | .styleUndefined => 2 | .spitBusy => 3 | .rasterLate => 4

def modeCode : LaneMode → Nat
  | .off => 0 | .warming => 1 | .ready => 2 | .running => 3 | .draining => 4 | .standby => 5 | .stopped => 6
  | .testing => 7

def lampCode : LampPower → Nat
  | .dark => 0 | .dim => 1 | .on => 2

def holdBit : HoldReason → Fin 8
  | .gapCal => 0 | .gapSpit => 1 | .endFull => 2 | .queueFull => 3 | .health => 4 | .host => 5 | .wake => 6
  | .test => 7

def attnIndex : Attn → Nat
  | .orderNotify => 0 | .pageFilled => 1 | .pagesLow => 2 | .laneState => 3 | .holdChange => 4 | .pocket => 5
  | .health => 6 | .fault => 7 | .jam => 8 | .testDone => 9

/-- The ATTN bit of a reason (11.2). -/
def attnBit (a : Attn) : BitVec 10 := 1#10 <<< attnIndex a

def pocketStateCode : PocketState → Nat
  | .opened => 0 | .full => 1 | .draining => 2 | .readyToSwap => 3 | .out => 4 | .disabled => 5

/-- The state of a head as the planner and the status block see it: RETIRED under the flag, else the wet condition
(R91). -/
def headStateCode (h : Head) : Nat :=
  if h.retired then 3 else match h.wet with
    | .cold => 0
    | .ready => 1
    | .dry => 2

def eventCode : EventCode → Nat
  | .jam => 1 | .lost => 2 | .phantom => 3 | .misflip => 4 | .misbank => 5 | .mispocket => 6 | .gateSuppressed => 7
  | .gateBusy => 8 | .gateMissed => 9 | .pocketFull => 10 | .endFull => 11 | .trayOut => 12 | .trayIn => 13
  | .pocketOutArrival => 14 | .calDone => 15 | .calClamped => 16 | .calAbandoned => 17 | .spitDeferred => 18
  | .headDry => 19 | .headReady => 20 | .genRoll => 21 | .genDropped => 22 | .attrFailing => 23 | .attrRetired => 24
  | .laneState => 25 | .windowFault => 26 | .untracked => 27 | .testEnd => 28

def laneCauseCode : LaneCause → Nat
  | .order => 0 | .warmDone => 1 | .drainDone => 2 | .jam => 3 | .retire => 4 | .test => 5 | .abort => 6 | .clear => 7

def rollCauseCode : RollCause → Nat
  | .period => 0 | .clock => 1 | .styles => 2

def attrIdx : AttrId → Fin 11
  | .lampReserve => 0 | .flipAccuracy => 1 | .bankAccuracy => 2 | .pocketAccuracy => 3 | .tracking => 4
  | .nearHeadAlign => 5 | .farHeadAlign => 6 | .nearHeadWet => 7 | .farHeadWet => 8 | .timeliness => 9
  | .calCurrency => 10

/-- The id 1..11 of a health measure (R159, R160). -/
def attrCode (a : AttrId) : Nat := (attrIdx a).val + 1

def allAttrs : List AttrId :=
  [.lampReserve, .flipAccuracy, .bankAccuracy, .pocketAccuracy, .tracking, .nearHeadAlign, .farHeadAlign, .nearHeadWet,
    .farHeadWet, .timeliness, .calCurrency]

/-- The measure of an id field 1..11 (R164). -/
def attrOfCode (n : Nat) : Option AttrId := if n = 0 then none else allAttrs[n - 1]?

/-- Whether a measure is of kind PREFAIL; the others are ADVISORY (R159, R160). -/
def isPrefail : AttrId → Bool
  | .lampReserve | .flipAccuracy | .bankAccuracy | .tracking | .nearHeadWet | .farHeadWet => true
  | .pocketAccuracy | .nearHeadAlign | .farHeadAlign | .timeliness | .calCurrency => false

def attrActionCode : AttrAction → Nat
  | .report => 0 | .hold => 1 | .retire => 2

def attrStateCode : AttrState → Nat
  | .passing => 0 | .failing => 1 | .retired => 2

def testKindCode : TestKind → Nat
  | .reference => 1 | .calibrate => 2 | .classAudit => 3

def laneTestKind : LaneTestKind → TestKind
  | .reference => .reference
  | .calibrate => .calibrate

def testResultCode : TestResult → Nat
  | .pass => 0 | .failFrontEnd => 1 | .failScorer => 2 | .abortedByHost => 3 | .abortedByItem => 4
  | .abortedByFault => 5 | .tableChanged => 6

def resultCode : ResultCode → Nat
  | .ok => 0 | .badKind => 1 | .badField => 2 | .badChecksum => 3 | .badPage => 4 | .noWindows => 5 | .windowFault => 6
  | .busy => 7 | .notConfigured => 8 | .conflict => 9 | .capacity => 10 | .aborted => 11 | .jammed => 12
  | .retired => 13

def blockStateCode : BlockState → Nat
  | .empty => 0 | .posted => 1 | .taken => 2 | .done => 3 | .refused => 4

def accessCode : Access → Nat
  | .orderRead => 0 | .orderStateWrite => 1 | .tableRead => 2 | .journalWrite => 3 | .statusWrite => 4
  | .snapshotWrite => 5

def chainStateCode : ChainState → Nat
  | .stopped => 0 | .running => 1 | .faulted => 2

def faultCauseCode : FaultCause → Nat
  | .none => 0 | .staleLink => 1 | .badState => 2 | .badAddress => 3 | .windowFault => 4

def fillReasonCode : FillReason → Nat
  | .full => 1 | .flush => 2 | .laneEnd => 3

/-- The detail NOTHING (R192). -/
def nothingDetail : Nat := 0xFFFF

/-- The subject byte of an event without a subject (11.5). -/
def noSubject : Nat := 0xFF

end Sys2Proof.Machine
end

