-- ==== Sys2Proof/Machine/Ops.lean ====
section
/-! DEFINITION. The named operations over the state that every block uses: bytes and host memory (R191), positions and
their comparison (R2), the conversion of times (R4), changes of one block's part of the state, attention reasons
(R177), the hold-reason set (R133) and the window test of the Memory Window Unit (R185). -/

namespace Sys2Proof.Machine

/-! ### Bytes and host memory -/

/-- A number as `n` bytes, least significant first (00_scope.md, Memory format). -/
def le : Nat → Nat → List Byte
  | 0, _ => []
  | n + 1, x => BitVec.ofNat 8 x :: le n (x / 256)

/-- The number that bytes spell, least significant first. -/
def fromLe : List Byte → Nat
  | [] => 0
  | b :: bs => b.toNat + 256 * fromLe bs

/-- The field of `n` bytes at an offset of a record. -/
def field (bs : List Byte) (off n : Nat) : Nat := fromLe ((bs.drop off).take n)

/-- A signed number in two's complement of `n` bytes (11.4, raw). -/
def signedField (bs : List Byte) (off n : Nat) : Int :=
  let x := field bs off n
  if x < 2 ^ (8 * n - 1) then (x : Int) else (x : Int) - (2 ^ (8 * n) : Nat)

/-- The byte of host memory at an address. A byte that nothing has written reads 0 (log entry 4). -/
def memRead : List Host.Cell → Nat → Byte
  | [], _ => 0
  | (k, b) :: r, a => if k = a then b else memRead r a

/-- Host memory with one byte written, in the canonical form: addresses rising, no byte 0 listed. -/
def memWrite : List Host.Cell → Nat → Byte → List Host.Cell
  | [], a, b => if b = 0 then [] else [(a, b)]
  | (k, c) :: r, a, b =>
    if a < k then (if b = 0 then (k, c) :: r else (a, b) :: (k, c) :: r)
    else if a = k then (if b = 0 then r else (a, b) :: r)
    else (k, c) :: memWrite r a b

/-- The canonical form of host memory: addresses strictly rising and no listed byte equal to what an unlisted address
reads as. -/
def memWf : List Host.Cell → Bool
  | [] => true
  | (k, b) :: r => b != 0 && r.all (fun c => k < c.1) && memWf r

def memReadN (m : List Host.Cell) (a : Nat) : Nat → List Byte
  | 0 => []
  | n + 1 => memRead m a :: memReadN m (a + 1) n

def memWriteN (m : List Host.Cell) (a : Nat) : List Byte → List Host.Cell
  | [] => m
  | b :: bs => memWriteN (memWrite m a b) (a + 1) bs

/-- The bytes of host memory from an address. -/
def readBytes (a n : Nat) (s : State) : List Byte := memReadN s.mem a n

/-- Host memory with bytes written from an address. -/
def writeBytes (a : Nat) (bs : List Byte) (s : State) : State := { s with mem := memWriteN s.mem a bs }

/-- The sum of a record's 16-bit words, read little-endian from even offsets (R191). A last odd byte counts as the low
byte of a word (log entry 31). -/
def wordSum : List Byte → Nat
  | [] => 0
  | [b] => b.toNat
  | b :: c :: bs => b.toNat + 256 * c.toNat + wordSum bs

/-- A record with a checksum is valid when its words sum to 0 modulo 65,536 (R191). -/
def checksumOk (bs : List Byte) : Bool := wordSum bs % 65536 == 0

/-- The checksum word that makes a record valid whose checksum word is still 0 (R191). -/
def checksumFor (bs : List Byte) : Nat := (65536 - wordSum bs % 65536) % 65536

/-- A record with its checksum word written at an even offset (R191). -/
def sealRecord (off : Nat) (bs : List Byte) : List Byte :=
  bs.take off ++ le 2 (checksumFor bs) ++ bs.drop (off + 2)

/-! ### Counts, positions and times -/

/-- A 32-bit count that saturates (00_scope.md, Counts). -/
def satAdd32 (a b : Nat) : Nat := min (a + b) 4294967295

/-- Positions add modulo 2^24 (R2). -/
def posAdd (p : Pos) (n : Nat) : Pos := p + BitVec.ofNat 24 n

/-- A position less a number of counts (R2). -/
def posSub (p : Pos) (n : Nat) : Pos := p - BitVec.ofNat 24 n

/-- A position plus a signed number of counts (R94). -/
def posAddInt (p : Pos) (i : Int) : Pos := p + BitVec.ofInt 24 i

/-- (a − b) mod 16,777,216 (R2). -/
def dist (a b : Pos) : Nat := (a - b).toNat

/-- R2: a target is ahead of the counter. -/
def ahead (target counter : Pos) : Bool := 1 ≤ dist target counter && dist target counter ≤ 65535

/-- R2: a target is now. -/
def isNow (target counter : Pos) : Bool := target == counter

/-- R2: a target is behind the counter. -/
def behind (target counter : Pos) : Bool := 65536 ≤ dist target counter

/-- R2: the window lo..hi contains a position. -/
def inWindow (lo hi p : Pos) : Bool := dist p lo ≤ dist hi lo

/-- The signed difference of R73 and R100: (a − b) mod 2^24 when that is 0..65,535, else minus (b − a) mod 2^24. -/
def signedDist (a b : Pos) : Int := if dist a b ≤ 65535 then (dist a b : Int) else -(dist b a : Int)

/-- R4: leadCounts(t) = ceil(t × S / 64,000), at most 4,095. -/
def leadCounts (t speed : Nat) : Nat := min ((t * speed + 63999) / 64000) 4095

/-- Ticks of 50 µs in a millisecond and in a second. -/
def ticksPerMs : Nat := 20
def ticksPerSecond : Nat := 20000

/-! ### Changing one block's part of the state -/

def updBelt (l : LaneId) (f : Belt → Belt) (s : State) : State := { s with belt := s.belt.upd l f }
def updEye (l : LaneId) (e : Eye) (f : EyeState → EyeState) (s : State) : State :=
  { s with eyes := s.eyes.upd l (fun v => vupd v (eyeCode e) f) }
def updTrack (l : LaneId) (f : Track → Track) (s : State) : State := { s with track := s.track.upd l f }
def updSfe (l : LaneId) (f : Sfe → Sfe) (s : State) : State := { s with sfe := s.sfe.upd l f }
def updGsq (l : LaneId) (f : Gsq → Gsq) (s : State) : State := { s with gsq := s.gsq.upd l f }
def updChannel (l : LaneId) (g : Gate) (f : Channel → Channel) (s : State) : State :=
  updGsq l (fun q => { q with channels := vupd q.channels (gateCode g) f }) s
def updHead (l : LaneId) (h : Side) (f : Head → Head) (s : State) : State :=
  { s with cnu := s.cnu.upd l (fun p => p.upd h f) }
def updPocket (l : LaneId) (p : Pocket) (f : PocketRec → PocketRec) (s : State) : State :=
  { s with pkr := s.pkr.upd l (fun v => vupd v (pocketCode p) f) }
def updLsq (l : LaneId) (f : Lsq → Lsq) (s : State) : State := { s with lsq := s.lsq.upd l f }
def updMsc (f : Msc → Msc) (s : State) : State := { s with msc := f s.msc }
def updPmc (f : Pmc → Pmc) (s : State) : State := { s with pmc := f s.pmc }
def updJrn (f : Journal → Journal) (s : State) : State := { s with jrn := f s.jrn }
def updHmu (f : Hmu → Hmu) (s : State) : State := { s with hmu := f s.hmu }
def updOcu (f : Ocu → Ocu) (s : State) : State := { s with ocu := f s.ocu }
def updStat (f : StatusUnit → StatusUnit) (s : State) : State := { s with stat := f s.stat }
def updPif (f : Pif → Pif) (s : State) : State := { s with pif := f s.pif }

def eyeState (l : LaneId) (e : Eye) (s : State) : EyeState := vget (s.eyes.get l) (eyeCode e)
def channel (l : LaneId) (g : Gate) (s : State) : Channel := vget (s.gsq.get l).channels (gateCode g)
def head (l : LaneId) (h : Side) (s : State) : Head := (s.cnu.get l).get h
def pocketRec (l : LaneId) (p : Pocket) (s : State) : PocketRec := vget (s.pkr.get l) (pocketCode p)
def counter (l : LaneId) (s : State) : Pos := (s.belt.get l).counter
def laneMode (l : LaneId) (s : State) : LaneMode := (s.lsq.get l).mode
def geometry (l : LaneId) (s : State) : Geometry := s.geom.get l

/-- The next free value, and the state with it drawn (log entry 2). -/
def drawFree (s : State) : BitVec 64 × State := (Config.freeValue s.freeCount, { s with freeCount := s.freeCount + 1 })

/-! ### Lane states -/

/-- The lane states in which edges are delivered (R6, R121). -/
def delivers : LaneMode → Bool
  | .warming | .ready | .running | .draining | .testing => true
  | .off | .stopped | .standby => false

/-- Position events of entries are taken in every lane state but STOPPED (R22). -/
def moves (l : LaneId) (s : State) : Bool := laneMode l s != .stopped

/-! ### Attention reasons and hold reasons -/

/-- A block raises an attention reason within the running event; the end of the event sets or delays it (R177). -/
def raise (a : Attn) (s : State) : State := { s with raised := s.raised ||| attnBit a }

def holdSet (l : LaneId) (r : HoldReason) (s : State) : Bool := vget (s.lsq.get l).holds (holdBit r)

/-- Putting in or taking out a hold reason; a change raises HOLD_CHANGE (R133). -/
def setHold (l : LaneId) (r : HoldReason) (on : Bool) (s : State) : State :=
  if holdSet l r s = on then s
  else raise .holdChange (updLsq l (fun q => { q with holds := vupd q.holds (holdBit r) (fun _ => on) }) s)

/-- FEED_PERMIT (R134): the lane is RUNNING and its hold-reason set is empty. -/
def feedPermit (l : LaneId) (s : State) : Bool :=
  laneMode l s == .running && !(holdSet l .gapCal s || holdSet l .gapSpit s || holdSet l .endFull s ||
    holdSet l .queueFull s || holdSet l .health s || holdSet l .host s || holdSet l .wake s || holdSet l .test s)

/-- BELT_STOP (R134): on while the lane is STOPPED. -/
def beltStop (l : LaneId) (s : State) : Bool := laneMode l s == .stopped

/-- GATE_DRV (R83): a gate drive is active while the channel's output is on. -/
def gateDrive (l : LaneId) (g : Gate) (s : State) : Bool := (channel l g s).output

/-- POCKET_LAMP (R114, R116). A tray-out turns the lamp off, an end pocket's too although its fill still stands at
capacity until the tray-in (log entry 56). -/
def pocketLamp (l : LaneId) (p : Pocket) (s : State) : Bool :=
  let r := pocketRec l p s
  if p.gated then r.state == .readyToSwap else r.state != .out && r.capacity ≤ r.fill

/-- LAMP_PWR (11.7): the lamp level code. The blanking of a calibration's dark part leaves the level (R31). -/
def lampLine (l : LaneId) (s : State) : LampPower := (s.lsq.get l).lamp

/-- The length in ticks of 50 µs of a long calibration, a short one and a calibration check (R31, R35, R38). -/
def longCalTicks : Nat := 4000
def shortCalTicks : Nat := 160
def calCheckTicks : Nat := 320

/-- A timer that runs stands in a span of ticks. -/
def runsWithin (lo hi : Nat) (t : Option Nat) : Bool :=
  match t with
  | none => false
  | some n => lo ≤ n && n < hi

/-- R31, R35: a calibration of the lane is in its dark part; when that part ends within the whole is not stated (log
entry 26). -/
def lampBlanked (l : LaneId) (s : State) : Bool :=
  runsWithin 0 (min Config.longDarkTicks longCalTicks) (s.sfe.get l).longRun ||
    runsWithin 0 (min Config.shortDarkTicks shortCalTicks) (s.sfe.get l).shortRun

/-- The lamp drive: the lamp level, blanked in the dark part of a calibration (R31). -/
def lampDrive (l : LaneId) (s : State) : LampPower := if lampBlanked l s then .dark else lampLine l s

/-- The reference emitter is lit in the reference part of a running calibration (R31, R35) and in a calibration check
(R38), and is dark at the end of each. -/
def emitterInUse (l : LaneId) (s : State) : Bool :=
  let f := s.sfe.get l
  runsWithin (min Config.longDarkTicks longCalTicks) longCalTicks f.longRun ||
    runsWithin (min Config.shortDarkTicks shortCalTicks) shortCalTicks f.shortRun || (match f.refRequest with
    | some (.calCheck t) => t < calCheckTicks
    | _ => false)

/-! ### The window test -/

def accessUse (w : MemWindow) : Access → Bool
  | .orderRead | .orderStateWrite => w.order
  | .tableRead => w.table
  | .journalWrite => w.journal
  | .statusWrite => w.status
  | .snapshotWrite => w.snapshot

def accessWrites : Access → Bool
  | .orderRead | .tableRead => false
  | .orderStateWrite | .journalWrite | .statusWrite | .snapshotWrite => true

/-- A window allows an access (R185): it contains every byte, has the use, and is not write-protected for a write. -/
def windowAllows (k : Access) (a n : Nat) (w : MemWindow) : Bool :=
  w.base ≤ a && a + n ≤ w.base + w.size && accessUse w k && !(accessWrites k && w.writeProtect)

/-- The Memory Window Unit allows an access of `n` bytes at an address (R185). -/
def allowed (k : Access) (a n : Nat) (s : State) : Bool :=
  if s.mwu.windowsSet then
    s.mwu.windows.any (fun w => match w with
      | none => false
      | some w => windowAllows k a n w)
  else k == .orderRead || k == .orderStateWrite

end Sys2Proof.Machine
end

