-- ==== Sys2Proof/Machine/Flags.lean ====
section
/-! DEFINITION. The status block's contents (R186, 11.5), the end of an event (which reasons are set in ATTN or wait for
a status write, R177; whether the interrupt is sent, R178; whether the idle timer restarts, R125), and the shape of
every meaning: an event that comes about and is closed, or does not come about. -/

namespace Sys2Proof.Machine

/-! ### The status block -/

def boolByte (b : Bool) : Byte := if b then 1 else 0

/-- One place of the test progress: kind and tens remaining (R172, 11.5). -/
def testProgress (l : LaneId) (s : State) : List Byte :=
  match s.hmu.tests.get l with
  | none => [0, 0]
  | some t => match t.kind with
    | .reference => [1, BitVec.ofNat 8 (11 - t.step)]
    | .calibrate => [2, 10]

def auditProgress (s : State) : List Byte :=
  match s.hmu.audit with
  | none => [0, 0]
  | some a => [3, BitVec.ofNat 8 a.tens]

/-- The hold reasons as the status block shows them, bit 0 GAP_CAL to bit 7 TEST. -/
def holdByte (l : LaneId) (s : State) : Byte :=
  let h := (s.lsq.get l).holds
  (boolByte (vget h 0)) ||| (boolByte (vget h 1) <<< 1) ||| (boolByte (vget h 2) <<< 2) |||
    (boolByte (vget h 3) <<< 3) ||| (boolByte (vget h 4) <<< 4) ||| (boolByte (vget h 5) <<< 5) |||
    (boolByte (vget h 6) <<< 6) ||| (boolByte (vget h 7) <<< 7)

/-- One pocket's four bytes: state, warn, fill (11.5). -/
def pocketBytes (r : PocketRec) : List Byte :=
  [BitVec.ofNat 8 (pocketStateCode r.state), boolByte r.warn] ++ le 2 r.fill

/-- One lane's 40 bytes of the status block (11.5); byte 39, which it does not list, is 0 (log entry 86). -/
def laneStatus (l : LaneId) (s : State) : List Byte :=
  [BitVec.ofNat 8 (modeCode (laneMode l s)), BitVec.ofNat 8 (lampCode (s.lsq.get l).lamp), holdByte l s,
    BitVec.ofNat 8 (s.track.get l).queue.length] ++
  (allPockets.flatMap (fun p => pocketBytes (pocketRec l p s))) ++
  [BitVec.ofNat 8 (headStateCode (head l .near s)), BitVec.ofNat 8 (headStateCode (head l .far s)),
    (boolByte (s.gsq.get l).flipRetired) ||| (boolByte (s.gsq.get l).bankRetired <<< 1), 0]

/-- Bytes 8..155 of the status block: its contents but the update counts and the time (R186, 11.5). The bytes it does not
list are 0 (log entry 86). -/
def statusContents (s : State) : List Byte :=
  [BitVec.ofNat 8 (chainStateCode s.ocu.chain), BitVec.ofNat 8 (faultCauseCode s.ocu.faultCause),
    boolByte s.pmc.clockSet, 0] ++
  le 2 (match s.pmc.current with
    | none => 0
    | some g => g.number) ++ [0, 0] ++
  le 8 s.ocu.faultAddr ++ le 4 s.ocu.completed ++ [0, 0, 0, 0] ++ le 8 s.ocu.lastOrder ++
  le 4 s.jrn.given ++ le 4 s.jrn.filled ++ le 4 s.jrn.held ++ le 4 s.jrn.unjournalled ++ le 4 s.jrn.dropped ++
  testProgress .lane0 s ++ testProgress .lane1 s ++ auditProgress s ++ [0, 0, 0, 0, 0, 0] ++
  laneStatus .lane0 s ++ laneStatus .lane1 s ++ [0, 0, 0, 0]

/-- The whole status block, 160 bytes, with an update count and a time (R186, 11.5). -/
def statusBlock (count : BitVec 32) (s : State) : List Byte :=
  le 4 count.toNat ++ le 4 s.clock.ms.toNat ++ statusContents s ++ le 4 count.toNat

/-- Status writing is on: an address is named and writing is not suspended (R187). -/
def statusActive (s : State) : Bool := s.stat.addr.isSome && !s.stat.suspended

/-! ### The end of an event -/

/-- The flags that ask for an interrupt: flags of masked reasons, while IRQ_ENABLE is 1 (R178). -/
def irqLines (s : State) : BitVec 10 := if s.pif.irqEnable then s.pif.attn &&& s.pif.mask else 0

/-- R177, R186, R187: a change of contents makes a rewrite due while status writing is on; the reasons raised in the
event then wait for the write, and are set at once otherwise, with any that waited for a write no longer due. -/
def settleStatus (old s : State) : State :=
  let due := statusActive s && (s.stat.due || statusContents s != statusContents old)
  if due then
    { s with stat := { s.stat with due := true, waiting := s.stat.waiting ||| s.raised }, raised := 0 }
  else
    { s with
      stat := { s.stat with due := false, waiting := 0 },
      pif := { s.pif with attn := s.pif.attn ||| s.stat.waiting ||| s.raised }, raised := 0 }

/-- R178: one message in an event that brings up a line of `irqLines`, when the configuration space enables it. -/
def settleMsi (old s : State) : State :=
  if irqLines s &&& ~~~(irqLines old) ≠ 0 ∧ s.pif.msiEnable = true then
    { s with pif := { s.pif with
        msiSent := s.pif.msiSent + 1, msiLast := some (s.pif.msiAddress, s.pif.msiData) } }
  else s

/-- R125: the conditions under which the idle timer counts. -/
def idleCounts (l : LaneId) (s : State) : Bool :=
  let q := s.lsq.get l
  q.mode == .running && q.lamp == .on && (s.track.get l).queue.isEmpty && !q.feedReq && (geometry l s).idleTime != 0

/-- R125: whenever a condition of the idle timer stops holding, the timer goes back to zero. -/
def settleIdle (l : LaneId) (s : State) : State :=
  if idleCounts l s then s else updLsq l (fun q => { q with idle := 0 }) s

/-- The end of an event that began in state `old`. -/
def settle (old s : State) : State :=
  settleMsi old (settleStatus old (settleIdle .lane1 (settleIdle .lane0 s)))

/-- The shape of a meaning: when the event comes about, its body and the end of the event; otherwise nothing changes
(log entry 5). -/
def event (comes : Bool) (body : State → State) (s : State) : Host.Outcome State Fault Refusal :=
  if comes then .next (settle s (body s)) else .next s

/-- A meaning whose command carries operands that must be in range. -/
def eventWithin (ok comes : Bool) (body : State → State) (s : State) : Host.Outcome State Fault Refusal :=
  if ok then event comes body s else .refused .operandOutOfRange

end Sys2Proof.Machine
end

