-- ==== Sys2Proof/Machine/Journal.lean ====
section
/-! DEFINITION. The Tally and Journal Unit: counts (R140, R141), records and their placing (R148, R153 to R156), page
taking and closing (R147, R149), and the event of a refused access (R185). -/

namespace Sys2Proof.Machine

/-! ### Tallies -/

/-- The counts of a tally set (R140). -/
inductive Tally where
  | entered
  | verdict (k : VerdictKind)
  | presentation (p : Presentation)
  | cls (index : Nat)
  | print (c : PrintCount)
  | uncancelled (c : UncancelledCause)
  | pocket (p : Pocket)
  | outcome (o : ItemOutcome)
  | rerouted (c : RerouteCause)
  | phantoms
  | untracked
  | verifyMisses
  | unjournalled
  deriving DecidableEq, Repr

/-- The place of a count in the tally set, 0..105, in the order of the table of R140; none for a class index outside
1..64. -/
def tallyPlace : Tally → Option Nat
  | .entered => some 0
  | .verdict k => some (match k with
    | .faced => 1 | .noMark => 2 | .ambiguous => 3 | .offCorner => 4 | .late => 5 | .short => 6 | .long => 7
    | .shingled => 8 | .notScanned => 9)
  | .presentation p => some (9 + presentationCode p)
  | .cls i => if 1 ≤ i ∧ i ≤ 64 then some (13 + i) else none
  | .print c => some (match c with
    | .bars => 78
    | .full => 79
    | .fullDowngraded _ => 80)
  | .uncancelled c => some (80 + uncancelledCode c)
  | .pocket p => some (85 + (pocketCode p).val)
  | .outcome o => some (92 + outcomeCode o)
  | .rerouted c => some (96 + rerouteCode c)
  | .phantoms => some 102
  | .untracked => some 103
  | .verifyMisses => some 104
  | .unjournalled => some 105

/-- A count of a lane's tally set. -/
def tallyOf (l : LaneId) (t : Tally) (s : State) : Nat :=
  match tallyPlace t with
  | none => 0
  | some i => (s.tally.get l).getD i 0

/-- R141: a hand-off raises one count by one, saturating. -/
def countUp (l : LaneId) (t : Tally) (s : State) : State :=
  match tallyPlace t with
  | none => s
  | some i => { s with tally := s.tally.upd l (fun v => v.set i (satAdd32 (v.getD i 0) 1)) }

/-! ### Records and pages -/

/-- The length of a record (R148): 48 bytes for an item record, 72 with verdict detail, 24 for an event record. -/
def recLength : Rec → Nat
  | .item _ _ e => match e.verdict with
    | some v => if v.detail.isSome then 72 else 48
    | none => 48
  | .event _ => 24

/-- R147: the next page sequence number after one. -/
def nextSequence (n : Nat) : Nat := if n = 4294967295 then 1 else n + 1

/-- R147 and the last paragraphs of R156: the page at the head of the free page FIFO becomes current, taking the held
events, in the first event after which its conditions hold. -/
def takePage (s : State) : State :=
  match s.jrn.page, s.jrn.fifo with
  | none, a :: rest =>
    if s.jrn.closing.isEmpty || (a :: rest).length < 64 then
      let s' := updJrn (fun j =>
        { j with
          fifo := rest, nextSeq := nextSequence j.nextSeq, holding := [],
          page := some { addr := a, seq := j.nextSeq, recs := j.holding.map Rec.event,
                         room := 4064 - 24 * j.holding.length } }) s
      if rest.length ≤ s.jrn.lowWater then raise .pagesLow s' else s'
    else s
  | _, _ => s

/-- R149, first step: the current page is closed with a fill reason and the next page is taken; PAGES_LOW when the FIFO
leaves the part without a page (R147). -/
def closePage (why : FillReason) (s : State) : State :=
  match s.jrn.page with
  | none => s
  | some p =>
    let s' := takePage (updJrn (fun j => { j with page := none, closing := j.closing ++ [⟨p, why⟩] }) s)
    if s'.jrn.page.isNone && s'.jrn.fifo.isEmpty then raise .pagesLow s' else s'

/-- R156: a record with no page is counted unjournalled, or joins the event holding list of at most 16. -/
def recordWithoutPage (r : Rec) (s : State) : State :=
  match r with
  | .item l _ _ =>
    countUp l .unjournalled (updJrn (fun j => { j with unjournalled := satAdd32 j.unjournalled 1 }) s)
  | .event e =>
    updJrn (fun j =>
      if j.holding.length < 16 then { j with holding := j.holding ++ [e] }
      else { j with holding := j.holding.drop 1 ++ [e], dropped := satAdd32 j.dropped 1 }) s

/-- Appending a record that fits to the current page (R148). -/
def appendRecord (r : Rec) (s : State) : State :=
  updJrn (fun j => { j with page := j.page.map (fun p =>
    { p with recs := p.recs ++ [r], room := p.room - recLength r }) }) s

/-- R148: a record is placed in the current page; one that does not fit closes it with reason FULL and goes to the next
page, or is handled as a record with no page. -/
def placeRecord (r : Rec) (s : State) : State :=
  match s.jrn.page with
  | none => recordWithoutPage r s
  | some p =>
    if recLength r ≤ p.room then appendRecord r s
    else
      let s' := closePage .full s
      match s'.jrn.page with
      | none => recordWithoutPage r s'
      | some _ => appendRecord r s'

/-- R154: an event record of a lane is made with the time of the event and placed. -/
def emit (code : EventCode) (lane : Option LaneId) (subject serial arg1 arg2 : Nat) (s : State) : State :=
  placeRecord (.event { code := code, lane := lane, subject := subject, time := s.clock.ms, serial := serial,
                        arg1 := arg1, arg2 := arg2 }) s

/-- R185: a refused access writes a WINDOW_FAULT event with the access kind and the address, and raises FAULT. -/
def windowFault (lane : Option LaneId) (k : Access) (a : Nat) (s : State) : State :=
  raise .fault (emit .windowFault lane (accessCode k) 0 (a % 4294967296) (a / 4294967296) s)

end Sys2Proof.Machine
end

