-- ==== Sys2Proof/Machine/Chain.lean ====
section
/-! DEFINITION. Order state writes, the final states of short and long orders, and chain faults (R179, R180, R182,
R183). -/

namespace Sys2Proof.Machine

/-- R183: a chain fault clears RUN_CHAIN, makes the chain state FAULTED with the cause and address, and raises FAULT.
The chain position and the phase stand. -/
def chainFault (cause : FaultCause) (addr : Nat) (s : State) : State :=
  raise .fault (updPif (fun p => { p with runChain := false })
    (updOcu (fun o => { o with chain := .faulted, faultCause := cause, faultAddr := addr, waiting := false }) s))

/-- The eight bytes of an order state write, offsets 12..19 of a block (R179, 11.3). -/
def orderStateBytes (st : BlockState) (code detail time : Nat) : List Byte :=
  [BitVec.ofNat 8 (blockStateCode st), BitVec.ofNat 8 code] ++ le 2 detail ++ le 4 time

/-- The result detail that is written: the one a rule states, else a free value (log entry 2). -/
def detailValue (detail : Option Nat) (s : State) : Nat × State :=
  match detail with
  | some d => (d, s)
  | none => ((drawFree s).1.toNat % 65536, (drawFree s).2)

/-- What follows the final state write of an order (R180): orders completed rises, the last order address is this
block's, and ORDER_NOTIFY is raised when the notify flag is set. -/
def orderCompleted (addr : Nat) (notify : Bool) (s : State) : State :=
  let s' := updOcu (fun o => { o with completed := satAdd32 o.completed 1, lastOrder := addr }) s
  if notify then raise .orderNotify s' else s'

/-- The lane that an order names (11.3): the lane whose work its accesses are (R154, R185). A block whose action or kind is
not listed is the device's, although its body may name a lane (log entries 57 and 69). -/
def orderLaneOf (b : OrderBody) : Option LaneId :=
  match b with
  | .loadGeometry _ i | .laneControl i _ | .pocketControl i _ _ _ | .tallySnapshot _ i _ | .selfTest .reference i _ _ _
  | .selfTest .calibrate i _ _ _ | .selfTestAbort .reference i | .selfTestAbort .calibrate i => laneOfIndex i
  | _ => none

/-- The lane whose order a long order is (R154, R182). -/
def longLane : LongKey → Option LaneId
  | .laneOrder l | .laneTest l => some l
  | .audit | .staged => none

/-- The lane of the order in progress. -/
def currentLane (s : State) : Option LaneId := s.ocu.current.bind (fun b => orderLaneOf b.body)

/-- An order state write refused by the window checks (R183, R185): the WINDOW_FAULT event, FAULT, and a chain fault whose
address is that of the access (log entry 58). -/
def orderWriteRefused (lane : Option LaneId) (addr : Nat) (s : State) : State :=
  chainFault .windowFault addr (windowFault lane .orderStateWrite addr s)

/-- The final state write of a block of a lane's order or the device's; `extra` is what an IDENTIFY writes into the body
(R189). -/
def finalWrite (lane : Option LaneId) (addr : Nat) (notify : Bool) (st : BlockState) (code : ResultCode)
    (detail : Option Nat) (extra : List Byte) (s : State) : State :=
  let n := if extra.isEmpty then 8 else 52
  if allowed .orderStateWrite (addr + 12) n s then
    let (d, s1) := detailValue detail s
    let s2 := writeBytes (addr + 12) (orderStateBytes st (resultCode code) d s.clock.ms.toNat) s1
    let s3 := if extra.isEmpty then s2 else writeBytes (addr + 24) extra s2
    orderCompleted addr notify s3
  else orderWriteRefused lane (addr + 12) s

/-- R183: the chain stopped by RUN_CHAIN 0 during a short order shows STOPPED once that order is final. -/
def stopIfHalted (s : State) : State :=
  if s.pif.runChain = false ∧ s.ocu.chain = .running then updOcu (fun o => { o with chain := .stopped }) s else s

/-- Whether the order state write of the block just finished was allowed moves the phase to LINK (R181); a refused one
leaves it (R183). -/
def leaveBlock (written : Bool) (s : State) : State :=
  updOcu (fun o =>
    { o with current := none, flushing := none, phase := if written then .link else o.phase }) s

/-- A taken order reaches its final state in the event that ends it (R180, R181). -/
def finishWith (st : BlockState) (code : ResultCode) (detail : Option Nat) (extra : List Byte) (s : State) : State :=
  match s.ocu.current with
  | none => s
  | some b =>
    let n := if extra.isEmpty then 8 else 52
    let ok := allowed .orderStateWrite (b.addr + 12) n s
    stopIfHalted (leaveBlock ok (finalWrite (orderLaneOf b.body) b.addr b.notify st code detail extra s))

/-- The order is DONE with result OK. -/
def orderDone (detail : Option Nat) (s : State) : State := finishWith .done .ok detail [] s

/-- The order is REFUSED with a code. -/
def orderRefused (code : ResultCode) (detail : Option Nat) (s : State) : State := finishWith .refused code detail [] s

/-- A long order is given TAKEN and joins the long-order list (R182). The result code, detail and time that the TAKEN
write carries are not stated; they are free values (log entry 2). -/
def orderTaken (key : LongKey) (s : State) : State :=
  match s.ocu.current with
  | none => s
  | some b =>
    let ok := allowed .orderStateWrite (b.addr + 12) 8 s
    let s1 :=
      if ok then
        let (v, s0) := drawFree s
        writeBytes (b.addr + 12)
          (orderStateBytes .taken (v.toNat % 256) (v.toNat / 256 % 65536) (v.toNat / 16777216 % 4294967296)) s0
      else orderWriteRefused (orderLaneOf b.body) (b.addr + 12) s
    stopIfHalted (leaveBlock ok (updOcu (fun o =>
      { o with longList := o.longList ++ [{ key := key, addr := b.addr, kind := b.kind, notify := b.notify }] }) s1))

/-- The owning block ends a long order: its final state is written and it leaves the list (R182). -/
def endLong (key : LongKey) (st : BlockState) (code : ResultCode) (detail : Option Nat) (s : State) : State :=
  match s.ocu.longList.find? (fun o => o.key == key) with
  | none => s
  | some o =>
    finalWrite (longLane o.key) o.addr o.notify st code detail []
      (updOcu (fun u => { u with longList := u.longList.filter (fun o => o.key != key) }) s)

/-- The pending RUN or DRAIN of a lane reaches its final state (R121, R182). -/
def endPending (l : LaneId) (st : BlockState) (code : ResultCode) (detail : Option Nat) (s : State) : State :=
  if (s.lsq.get l).pendingOrder.isSome then
    endLong (.laneOrder l) st code detail (updLsq l (fun q => { q with pendingOrder := none }) s)
  else s

end Sys2Proof.Machine
end

