-- ==== Sys2Proof/Machine/Lane.lean ====
section
/-! DEFINITION. The Lane Sequencer's shared operations: lane state changes (R121, R122), lamp power (R123), draining
(R131, R152), retirement of a lane (R139) and the steps of WARMING (R127, R128). -/

namespace Sys2Proof.Machine

def allEyes : List Eye := [.e, .t, .cn, .cf, .vn, .vf, .n1, .n2, .n3, .f1, .f2, .f3, .ne, .fe]

/-- R7: the accumulation of each eye that is dark restarts at 0. An eye that something stands before, with its leading
edge not yet accepted, is among them (log entry 85): no count made before this moment is added when the edge is accepted. -/
def restartDark (l : LaneId) (s : State) : State :=
  let now := (s.belt.get l).live
  allEyes.foldl (fun s e =>
    updEye l e (fun y => { y with darkCount := if y.dark then 0 else y.darkCount, restart := now }) s) s

/-- R123: a rise begins when the lamps are DIM and no rise is in progress. Whether it is made outside WARMING is decided
here, where it begins (log entry 90). -/
def beginRise (l : LaneId) (outside : Bool) (s : State) : State :=
  let q := s.lsq.get l
  if q.lamp = .dim ∧ q.rise = none then updLsq l (fun q => { q with rise := some ⟨0, outside⟩ }) s else s

/-- The states that aim for lamps ON by a rise (R123). -/
def aimsOn : LaneMode → Bool
  | .warming | .ready | .running | .draining | .testing => true
  | .off | .standby | .stopped => false

/-- The lane enters a state: the state itself, LANE_STATE raised (R122), WAKE out when it leaves RUNNING (R133), a rise
begun where the state aims for ON (R123), and the dark measurements restarted on entering WARMING (R7). -/
def setLane (l : LaneId) (new : LaneMode) (s : State) : State :=
  let old := laneMode l s
  let s1 := raise .laneState (updLsq l (fun q => { q with mode := new }) s)
  let s2 := if old = .running ∧ new ≠ .running then setHold l .wake false s1 else s1
  let s3 := if aimsOn new then beginRise l (new != .warming) s2 else s2
  if new = .warming then restartDark l s3 else s3

/-- R122: the LANE_STATE event record of a change. -/
def laneEvent (l : LaneId) (old new : LaneMode) (cause : LaneCause) (s : State) : State :=
  emit .laneState (some l) noSubject 0 (modeCode old + 256 * modeCode new) (laneCauseCode cause) s

/-- A change of lane state with its event record (R121, R122). -/
def changeLane (l : LaneId) (new : LaneMode) (cause : LaneCause) (s : State) : State :=
  laneEvent l (laneMode l s) new cause (setLane l new s)

/-- The lamp power takes a level below ON at once and any rise is cancelled (R123). When it leaves ON, a short
calibration in progress is abandoned (R36) and the wake mark is removed (R34). -/
def lampTo (l : LaneId) (level : LampPower) (s : State) : State :=
  let s1 := updLsq l (fun q => { q with lamp := level, rise := none }) s
  if (s.lsq.get l).lamp = .on then
    let running := (s.sfe.get l).shortRun.isSome
    let s2 := updSfe l (fun f => { f with shortRun := none, wakeMark := false }) s1
    if running then emit .calAbandoned (some l) noSubject 0 1 0 s2 else s2
  else s1

/-- R152: a drained lane closes a current page that holds a record, with reason LANE_END. -/
def laneEndClose (s : State) : State :=
  match s.jrn.page with
  | some p => if p.recs.isEmpty then s else closePage .laneEnd s
  | none => s

/-- R131: a DRAINING lane whose queue is empty enters READY, the page is closed, and a pending DRAIN is done. -/
def drainTest (l : LaneId) (s : State) : State :=
  if laneMode l s = .draining ∧ (s.track.get l).queue = [] then
    endPending l .done .ok none (laneEndClose (changeLane l .ready .drainDone s))
  else s

/-- R139: the lane retired flag is set. A RUNNING lane drains without a pending order; a RUN pending in WARMING ends
REFUSED with RETIRED. -/
def retireLane (l : LaneId) (s : State) : State :=
  if (s.lsq.get l).retired then s
  else
    let s1 := updLsq l (fun q => { q with retired := true }) s
    match laneMode l s with
    | .running => drainTest l (changeLane l .draining .retire s1)
    | .warming => endPending l .refused .retired none s1
    | _ => s1

/-- The lane becomes RUNNING; with the lamps not yet ON, WAKE is raised (R130). -/
def startRunning (l : LaneId) (s : State) : State :=
  let s1 := setLane l .running s
  if (s1.lsq.get l).lamp = .on then s1 else setHold l .wake true s1

/-- The lane enters RUNNING with its LANE_STATE event (R122, R130). -/
def enterRunning (l : LaneId) (cause : LaneCause) (s : State) : State :=
  laneEvent l (laneMode l s) .running cause (startRunning l s)

/-- R127, R128: WARMING is complete when every warming spit requested has completed. The lane enters RUNNING, the pending
RUN is done, and the LANE_STATE event is written, in the order in which R127 lists them (R155); a lane retired at that
moment enters READY with cause RETIRE (log entry 62). -/
def warmTest (l : LaneId) (s : State) : State :=
  if laneMode l s = .warming ∧ (s.lsq.get l).warmStep = some .heads ∧
      (head l .near s).warmRequest = false ∧ (head l .far s).warmRequest = false then
    let s1 := updLsq l (fun q => { q with warmed := true, warmStep := none }) s
    if (s.lsq.get l).retired then changeLane l .ready .retire s1
    else laneEvent l .warming .running .warmDone (endPending l .done .ok none (startRunning l s1))
  else s

/-- R127, step 3: the warming spit of each COLD head is requested; with none COLD the step is done at once. -/
def warmHeads (l : LaneId) (s : State) : State :=
  let ask := fun h => updHead l h (fun d => { d with warmRequest := d.wet == .cold })
  warmTest l (ask .far (ask .near (updLsq l (fun q => { q with warmStep := some .heads }) s)))

/-- R127, step 2: the long calibration is requested. -/
def warmCalibration (l : LaneId) (s : State) : State :=
  updSfe l (fun f => { f with longRequest := some .warming })
    (updLsq l (fun q => { q with warmStep := some .calibration }) s)

/-- R127, step 1, on entering WARMING: lamps DARK become ON and the lamp warm begins; DIM waits for the rise; ON is done
at once. -/
def startWarming (l : LaneId) (s : State) : State :=
  let s1 := updLsq l (fun q => { q with warmStep := some .lamps }) (changeLane l .warming .order s)
  match (s.lsq.get l).lamp with
  | .dark => updLsq l (fun q => { q with lamp := .on, lampWarm := some 0 }) s1
  | .dim => s1
  | .on => warmCalibration l s1

end Sys2Proof.Machine
end

