-- ==== Sys2Proof/Machine/Health.lean ====
section
/-! DEFINITION. The Health Monitor Unit's records: evaluation (R158 to R160), the failing test and its actions (R161 to
R163), and the blocks of 1,024 (R160). -/

namespace Sys2Proof.Machine

def attr (l : LaneId) (a : AttrId) (s : State) : AttrRec := vget (s.hmu.attrs.get l) (attrIdx a)

def updAttr (l : LaneId) (a : AttrId) (f : AttrRec → AttrRec) (s : State) : State :=
  updHmu (fun h => { h with attrs := h.attrs.upd l (fun v => vupd v (attrIdx a) f) }) s

/-- R158: a normalized value is clamped to 1..253. -/
def clampNormal (x : Int) : Nat := if x < 1 then 1 else if 253 < x then 253 else x.toNat

/-- R162: HEALTH stands in the set while a record of the lane has action HOLD and state FAILING. -/
def healthHold (l : LaneId) (s : State) : State :=
  setHold l .health (allAttrs.any (fun a => (attr l a s).action == .hold && (attr l a s).state == .failing)) s

/-- R163: the retired flag of the element that a measure retires. -/
def retireElement (l : LaneId) (a : AttrId) (s : State) : State :=
  match a with
  | .lampReserve | .tracking => retireLane l s
  | .flipAccuracy => updGsq l (fun q => { q with flipRetired := true }) s
  | .bankAccuracy => updGsq l (fun q => { q with bankRetired := true }) s
  | .nearHeadWet => updHead l .near (fun h => { h with retired := true }) s
  | .farHeadWet => updHead l .far (fun h => { h with retired := true }) s
  | .pocketAccuracy | .nearHeadAlign | .farHeadAlign | .timeliness | .calCurrency => s

/-- R163: a FAILING record with action RETIRE goes on to RETIRED. -/
def retireRecord (l : LaneId) (a : AttrId) (s : State) : State :=
  let s1 := raise .health (updAttr l a (fun r => { r with state := .retired }) s)
  retireElement l a (emit .attrRetired (some l) (attrCode a) 0 (attr l a s).normalized 0 s1)

/-- R161: what a record does on entering FAILING, in order: HEALTH, the ATTR_FAILING event, the action. -/
def enterFailing (l : LaneId) (a : AttrId) (s : State) : State :=
  let s1 := raise .health (updAttr l a (fun r => { r with state := .failing }) s)
  let s2 := emit .attrFailing (some l) (attrCode a) 0 (attr l a s).normalized 0 s1
  match (attr l a s).action with
  | .report => s2
  | .hold => healthHold l s2
  | .retire => retireRecord l a s2

/-- R161: a record is failing when its normalized value is below its threshold. -/
def isFailing (r : AttrRec) : Bool := r.normalized < r.threshold

/-- R161: the failing test. -/
def failingTest (l : LaneId) (a : AttrId) (s : State) : State :=
  match (attr l a s).state, isFailing (attr l a s) with
  | .passing, true => enterFailing l a s
  | .failing, false => healthHold l (raise .health (updAttr l a (fun r => { r with state := .passing }) s))
  | _, _ => s

/-- R158: an evaluation stores the normalized value and the raw value, lowers worst, and makes the failing test. -/
def evaluate (l : LaneId) (a : AttrId) (raw normal : Int) (s : State) : State :=
  let n := clampNormal normal
  failingTest l a (updAttr l a (fun r => { r with normalized := n, worst := min r.worst n, raw := raw }) s)

/-- R159: LAMP_RESERVE from the highest new gain. -/
def lampReserveValue (g : Nat) : Int := 100 + ((512 - (g : Int)) * 100).tdiv 512

/-- R159: HEAD_ALIGN from a trim. -/
def headAlignValue (t : Int) : Int := 100 - 2 * (t.natAbs : Int)

/-- R159: HEAD_WET from a pending age. -/
def headWetValue (a : Nat) : Int := 100 - 12 * (a : Int)

/-- R159: CAL_CURRENCY from a due age. -/
def calCurrencyValue (a : Nat) : Int := 100 - 10 * (a : Int)

def headWetId : Side → AttrId
  | .near => .nearHeadWet
  | .far => .farHeadWet

def headAlignId : Side → AttrId
  | .near => .nearHeadAlign
  | .far => .farHeadAlign

/-- R160: what one block event costs a block measure. -/
def blockWeight : AttrId → Nat
  | .flipAccuracy | .bankAccuracy | .pocketAccuracy => 3
  | .tracking => 5
  | .timeliness => 4
  | .lampReserve | .nearHeadAlign | .farHeadAlign | .nearHeadWet | .farHeadWet | .calCurrency => 0

/-- R160: one counted thing of a block measure; the 1,024th evaluates it and starts a fresh block. -/
def countBlock (l : LaneId) (a : AttrId) (s : State) : State :=
  let r := attr l a s
  if r.blockCount + 1 < 1024 then updAttr l a (fun r => { r with blockCount := r.blockCount + 1 }) s
  else
    updAttr l a (fun r => { r with blockCount := 0, blockEvents := 0 })
      (evaluate l a r.raw (100 - (blockWeight a : Int) * (r.blockEvents : Int)) s)

/-- R160: one block event; it raises the block events and the raw total, both saturating (R157). -/
def blockEvent (l : LaneId) (a : AttrId) (s : State) : State :=
  updAttr l a (fun r =>
    { r with blockEvents := min (r.blockEvents + 1) 65535, raw := min (r.raw + 1) 281474976710655 }) s

end Sys2Proof.Machine
end

