-- ==== Sys2Proof/Machine/TestEnd.lean ====
section
/-! DEFINITION. The end of a self-test (R172) and its log entry (R173). -/

namespace Sys2Proof.Machine

/-- How a lane test ends (R138, R172): by its own course, by a jam, or by lane ABORT. -/
inductive TestExit where
  | ownCourse | jam | abort
  deriving DecidableEq, Repr

/-- R173: the place after the pointer, 1 after 16. -/
def nextLogPlace (p : Nat) : Nat := if p < 16 then p + 1 else 1

/-- R173: one entry at the place after the pointer, and the pointer moves to it. -/
def writeLog (entry : LogEntry) (s : State) : State :=
  updHmu (fun h =>
    let p := nextLogPlace h.pointer
    { h with log := vupd h.log (Fin.ofNat 16 (p - 1)) (fun _ => some entry), pointer := p }) s

/-- R167: the idle requests of an ended test are withdrawn, and one running is ended without result. -/
def withdrawIdle (r : IdleRequest) (s : State) : State :=
  updMsc (fun m =>
    { m with
      idleRunning := m.idleRunning && m.idleRequests.head? != some r,
      idleRequests := m.idleRequests.filter (fun q => q != r) }) s

/-- R172: the tens remaining of a lane test at its end. -/
def laneTestTens (t : LaneTest) (r : TestResult) : Nat :=
  match t.kind with
  | .reference => if r = .pass then 0 else 11 - t.step
  | .calibrate => if r = .pass ∨ r = .failFrontEnd then 0 else 10

/-- R172: the checkpoint of a lane test: the step being run, or 1 for CALIBRATE. -/
def laneTestCheckpoint (t : LaneTest) : Nat :=
  match t.kind with
  | .reference => t.step
  | .calibrate => 1

/-- R172: the end of a lane self-test, in its seven steps. -/
def endLaneTest (l : LaneId) (r : TestResult) (how : TestExit) (s : State) : State :=
  match s.hmu.tests.get l with
  | none => s
  | some t =>
    let s1 := updSfe l (fun f =>
      { f with
        refMode := false, refRequest := none,
        longRequest := if t.kind = .calibrate then none else f.longRequest,
        longRun := if t.kind = .calibrate then none else f.longRun }) s
    let s2 := writeLog
      { kind := laneTestKind t.kind, lane := some l, result := r, tens := laneTestTens t r, time := s.clock.ms,
        checkpoint := laneTestCheckpoint t } (withdrawIdle (.laneItem l) s1)
    let s3 := emit .testEnd (some l) (testKindCode (laneTestKind t.kind)) 0 (testResultCode r)
      (laneTestCheckpoint t) s2
    let s4 := if how = .ownCourse ∧ laneMode l s3 = .testing then changeLane l .ready .test s3 else s3
    let s5 := setHold l .test false s4
    let s6 := updHmu (fun h => { h with tests := h.tests.upd l (fun _ => none) }) s5
    let s7 := if how = .abort then endLong (.laneTest l) .refused .aborted none s6
      else endLong (.laneTest l) .done .ok (some (testResultCode r)) s6
    raise .testDone s7

/-- R172: the checkpoint of an audit: the class last written, or the class under evaluation when it ended early (R64),
or 0 when none had been evaluated; an audit whose first result write is refused has written none, and gives 0 (log entry
60). Once an evaluation has begun, the class that only waits for its own counts as the one under evaluation (log entry
72). -/
def auditCheckpoint (a : Audit) (r : TestResult) : Nat :=
  match r with
  | .tableChanged | .abortedByHost => if a.begun then a.left.headD 0 else 0
  | _ => a.lastWritten

/-- The records of an audit's end, R172 steps 2, 3 and 5. -/
def auditRecords (a : Audit) (r : TestResult) (s : State) : State :=
  let s1 := writeLog
    { kind := .classAudit, lane := none, result := r, tens := a.tens, time := s.clock.ms,
      checkpoint := auditCheckpoint a r } (withdrawIdle .audit s)
  updHmu (fun h => { h with audit := none })
    (emit .testEnd none (testKindCode .classAudit) 0 (testResultCode r) (auditCheckpoint a r) s1)

/-- R171, R172: the end of a class audit. -/
def endAudit (r : TestResult) (s : State) : State :=
  match s.hmu.audit with
  | none => s
  | some a =>
    let s1 := auditRecords a r s
    raise .testDone
      (if r = .abortedByFault then endLong .audit .refused .windowFault none s1
       else endLong .audit .done .ok (some (testResultCode r)) s1)

end Sys2Proof.Machine
end

