-- ==== Sys2Proof/Machine/Pockets.lean ====
section
/-! DEFINITION. The Pocket Router's operations: reservation and release (R108, R110), arrivals (R109, R113), FULL and
warn (R111, R112), swap requests (R115) and capacities (R119). The command rows of the pockets stand at the end of
Machine/PocketRows.lean. -/

namespace Sys2Proof.Machine

/-- R112: the warn level, ceil(capacity × warn percent / 100). -/
def warnLevel (capacity percent : Nat) : Nat := (capacity * percent + 99) / 100

/-- A pocket enters a state; a change raises POCKET (R107). -/
def setPocketState (l : LaneId) (p : Pocket) (st : PocketState) (s : State) : State :=
  if (pocketRec l p s).state = st then s
  else raise .pocket (updPocket l p (fun r => { r with state := st }) s)

/-- R112: the warn flag follows fill against the warn level; a change raises POCKET. -/
def followWarn (l : LaneId) (p : Pocket) (s : State) : State :=
  let r := pocketRec l p s
  let w := decide (warnLevel r.capacity (geometry l s).warnPercent ≤ r.fill)
  if r.warn = w then s else raise .pocket (updPocket l p (fun r => { r with warn := w }) s)

/-- R111: an OPEN gated pocket whose fill + reserved reaches capacity becomes FULL. -/
def fullTest (l : LaneId) (p : Pocket) (s : State) : State :=
  let r := pocketRec l p s
  if r.state = .opened ∧ r.capacity ≤ r.fill + r.reservations.length then setPocketState l p .full s else s

/-- R110, R115: a DRAINING pocket with nothing reserved becomes READY_TO_SWAP. -/
def drainedTest (l : LaneId) (p : Pocket) (s : State) : State :=
  let r := pocketRec l p s
  if r.state = .draining ∧ r.reservations = [] then setPocketState l p .readyToSwap s else s

/-- A serial joins a reservation list at its place in track order, which is the order of serials (R8, R108). -/
def insertSerial (n : Nat) : List Nat → List Nat
  | [] => [n]
  | m :: r => if n < m then n :: m :: r else m :: insertSerial n r

/-- R108: a gated pocket is reserved for an item, and may become FULL. -/
def reserve (l : LaneId) (p : Pocket) (serial : Nat) (s : State) : State :=
  fullTest l p (updPocket l p (fun r => { r with reservations := insertSerial serial r.reservations }) s)

/-- R110: the release of a serial's reservation at one pocket, if it holds one there. -/
def releaseAt (l : LaneId) (p : Pocket) (serial : Nat) (s : State) : State :=
  if serial ∈ (pocketRec l p s).reservations then
    drainedTest l p (updPocket l p (fun r => { r with reservations := r.reservations.filter (· != serial) }) s)
  else s

/-- R110: the release of an item's reservation. -/
def releaseReservation (l : LaneId) (serial : Nat) (s : State) : State :=
  gatedPockets.foldl (fun s p => releaseAt l p serial s) s

/-- R113: END_FULL is raised, with its event, when an OPEN end pocket's fill comes to stand at or above its capacity
and did not before. -/
def endReached (l : LaneId) (p : Pocket) (was : Bool) (s : State) : State :=
  let r := pocketRec l p s
  if r.state = .opened ∧ r.capacity ≤ r.fill ∧ was = false then
    emit .endFull (some l) (pocketCode p).val 0 r.fill 0 (setHold l .endFull true s)
  else s

/-- R113: END_FULL leaves the set when neither end pocket of the lane has fill at or above capacity. -/
def endReleased (l : LaneId) (s : State) : State :=
  let n := pocketRec l .ne s
  let f := pocketRec l .fe s
  if n.fill < n.capacity ∧ f.fill < f.capacity then setHold l .endFull false s else s

/-- R109: an arrival at a gated pocket's eye. -/
def gatedArrival (l : LaneId) (p : Pocket) (serial : Nat) (s : State) : State :=
  let r := pocketRec l p s
  let reserved := decide (serial ∈ r.reservations)
  let counts := r.state != .out && (reserved || r.fill + r.reservations.length < r.capacity)
  let s1 := updPocket l p (fun r =>
    { r with
      reservations := r.reservations.filter (· != serial),
      fill := if counts then r.fill + 1 else r.fill }) s
  let s2 := if r.state = .out then emit .pocketOutArrival (some l) (pocketCode p).val serial 0 0 s1 else s1
  drainedTest l p (followWarn l p (fullTest l p (countUp l (.pocket p) s2)))

/-- R113: an arrival at an end pocket's eye. -/
def endArrival (l : LaneId) (p : Pocket) (serial : Nat) (s : State) : State :=
  let r := pocketRec l p s
  if r.state = .out then
    countUp l (.pocket p) (emit .pocketOutArrival (some l) (pocketCode p).val serial 0 0 s)
  else
    let s1 := updPocket l p (fun r => { r with fill := min (r.fill + 1) 65535 }) s
    endReached l p (decide (r.capacity ≤ r.fill)) (followWarn l p (countUp l (.pocket p) s1))

/-- The Pocket Router is told of an arrival (R20, R109, R113). -/
def pocketArrival (l : LaneId) (p : Pocket) (serial : Nat) (s : State) : State :=
  if p.gated then gatedArrival l p serial s else endArrival l p serial s

/-- R115: whether a swap request changes a pocket in this state. -/
def swapActs : PocketState → Bool
  | .opened | .full | .disabled => true
  | .draining | .readyToSwap | .out => false

/-- R115: a swap request on a gated pocket. -/
def swapPocket (l : LaneId) (p : Pocket) (s : State) : State :=
  match (pocketRec l p s).state with
  | .opened | .full => drainedTest l p (setPocketState l p .draining s)
  | .disabled =>
    drainedTest l p (setPocketState l p .draining (updPocket l p (fun r => { r with staysDisabled := true }) s))
  | .draining | .readyToSwap | .out => s

/-- R113: a pocket's fill stands at or above its capacity. -/
def atCapacity (l : LaneId) (p : Pocket) (s : State) : Bool := (pocketRec l p s).capacity ≤ (pocketRec l p s).fill

/-- R119: a pocket takes a new capacity. -/
def setCapacity (l : LaneId) (p : Pocket) (capacity : Nat) (s : State) : State :=
  updPocket l p (fun r => { r with capacity := capacity }) s

/-- R119: what follows a new capacity (and, at LOAD_GEOMETRY, a new warn percent): the warn flag, FULL and OPEN, and an
end pocket's part in END_FULL; `was` says whether the fill stood at the capacity before. -/
def followCapacity (l : LaneId) (p : Pocket) (was : Bool) (s : State) : State :=
  let r := pocketRec l p s
  let s1 := followWarn l p s
  if p.gated then
    if r.state = .full ∧ r.fill + r.reservations.length < r.capacity then setPocketState l p .opened s1
    else fullTest l p s1
  else endReleased l (endReached l p was s1)

/-- R119: one pocket takes a new capacity, and its flags follow. -/
def applyCapacity (l : LaneId) (p : Pocket) (capacity : Nat) (s : State) : State :=
  followCapacity l p (atCapacity l p s) (setCapacity l p capacity s)

end Sys2Proof.Machine
end

