-- ==== Sys2Proof/Machine/Gates.lean ====
section
/-! DEFINITION. The Gate Sequencer's channels: loading (R75), on-events and the fire budget (R76), closing (R77), reroutes
(R78) and the removal rule (R79). One event may load, fire, drop and remove several windows in turn; `runWork` takes
that work item by item. -/

namespace Sys2Proof.Machine

/-! ### Track entries -/

def findEntry (l : LaneId) (serial : Nat) (s : State) : Option Entry :=
  (s.track.get l).queue.find? (fun e => e.serial == serial)

/-- A change of one entry of the track queue. -/
def updEntry (l : LaneId) (serial : Nat) (f : Entry → Entry) (s : State) : State :=
  updTrack l (fun t => { t with queue := t.queue.map (fun e => if e.serial = serial then f e else e) }) s

/-- The plan of an entry with a window struck from it (R79). -/
def strikeWindow (g : Gate) (e : Entry) : Entry :=
  { e with plan := e.plan.map (fun p => { p with windows := p.windows.filter (fun w => w.gate != g) }) }

/-- Whether an entry's plan holds a window at a gate. -/
def holdsWindow (e : Entry) (g : Gate) : Bool :=
  match e.plan with
  | none => false
  | some p => p.windows.any (fun w => w.gate == g)

/-- The gates at which an entry's plan holds a window. -/
def heldGates (e : Entry) : List Gate := allGates.filter (holdsWindow e)

/-! ### Withdrawal of prints -/

/-- A head's list holds a RELEASED print of an item. -/
def hasReleased (l : LaneId) (h : Side) (serial : Nat) (s : State) : Bool :=
  (head l h s).prints.any (fun p => p.serial == serial && p.state == .released)

/-- R95: a POSTED or RELEASED print of an item leaves a head's list; a PRINTING one is not withdrawn. The result that a
RELEASED one has had since its release (R9) is taken back, so that none stands written (log entry 70). -/
def withdrawAt (l : LaneId) (h : Side) (serial : Nat) (s : State) : State :=
  let s1 := updHead l h (fun d =>
    { d with prints := d.prints.filter (fun p => p.serial != serial || p.state == .printing) }) s
  if hasReleased l h serial s then updEntry l serial (fun e => { e with printResult := none }) s1 else s1

/-- R95, at both heads. -/
def withdrawPrint (l : LaneId) (serial : Nat) (s : State) : State :=
  withdrawAt l .far serial (withdrawAt l .near serial s)

/-! ### The work of an event -/

/-- One piece of gate work: load the head of a gate's list; reroute an item with a cause seen at a gate or eye; apply
the removal rule to an item at one gate; withdraw an item's print and reservation. -/
inductive GateWork where
  | load (g : Gate)
  | reroute (serial : Nat) (cause : RerouteCause) (subject : Nat)
  | remove (serial : Nat) (g : Gate)
  | release (serial : Nat)
  deriving DecidableEq, Repr

def rerouteEvent : RerouteCause → EventCode
  | .misflip => .misflip
  | .misbank => .misbank
  | .mispocket => .mispocket
  | .gateSuppressed => .gateSuppressed
  | .gateMissed => .gateMissed

/-- R15, R78: a reroute of an eye rule, which writes its event whether or not the item already has a cause. -/
def atEye : RerouteCause → Bool
  | .misflip | .misbank | .mispocket => true
  | .gateSuppressed | .gateMissed => false

/-- R15, R16, R78: the event of a reroute found at an eye for an item that keeps the cause it has. -/
def secondCause (l : LaneId) (serial : Nat) (cause : RerouteCause) (subject : Nat) (s : State) : State :=
  if atEye cause then emit (rerouteEvent cause) (some l) subject serial 0 0 s else s

/-- R160: the block measure that a reroute cause counts against. -/
def rerouteMeasure : RerouteCause → Option AttrId
  | .misflip => some .flipAccuracy
  | .misbank => some .bankAccuracy
  | .mispocket => some .pocketAccuracy
  | .gateSuppressed | .gateMissed => none

/-- R78, step 1: the cause is written, its event record made, and the reroute counted (R141, R160). -/
def writeCause (l : LaneId) (serial : Nat) (cause : RerouteCause) (subject : Nat) (s : State) : State :=
  let s1 := updEntry l serial (fun e => { e with reroute := some cause }) s
  let s2 := countUp l (.rerouted cause) (emit (rerouteEvent cause) (some l) subject serial 0 0 s1)
  match rerouteMeasure cause with
  | none => s2
  | some a => blockEvent l a s2

/-- R75, R76: a dropped or suppressed head window leaves its list; it is struck from its items' plans as a removed one is
(log entry 76). -/
def dropHead (l : LaneId) (g : Gate) (items : List Nat) (s : State) : State :=
  items.foldl (fun s n => updEntry l n (strikeWindow g) s)
    (updChannel l g (fun c => { c with windows := c.windows.drop 1 }) s)

/-- R76: the on-event times of a history that lie within the fire window. -/
def firesWithin (history : List Ms) (now : Ms) (window : Nat) : Nat :=
  (history.filter (fun t => (now - t).toNat < window)).length

/-- R76: the fire budget is spent: the history holds maxFires times that all lie within the fire window. -/
def budgetSpent (g : Geometry) (history : List Ms) (now : Ms) : Bool :=
  g.maxFires ≤ history.length && firesWithin history now g.fireWindow == history.length

/-- R76: the history with one more on-event, at most maxFires times. -/
def addFire (maxFires : Nat) (history : List Ms) (now : Ms) : List Ms :=
  (history ++ [now]).drop (history.length + 1 - maxFires)

def setHeadState (st : WindowState) (ws : List Window) : List Window :=
  match ws with
  | [] => []
  | w :: r => { w with state := st } :: r

/-- R76: the output turns on, the time joins the history, and the hold timer starts (R77). -/
def fireHead (l : LaneId) (g : Gate) (s : State) : State :=
  let geo := geometry l s
  updChannel l g (fun c =>
    { c with
      windows := setHeadState .active c.windows, output := true,
      history := addFire geo.maxFires c.history s.clock.ms,
      hold := some ⟨0, (vget geo.gates (gateCode g)).maxHold⟩ }) s

/-- The reroutes of a window that left its list without firing, then the load of the next window (R75, R76). -/
def afterLoss (g : Gate) (cause : RerouteCause) (items : List Nat) : List GateWork :=
  items.map (fun n => GateWork.reroute n cause (gateCode g).val) ++ [.load g]

/-- R76: an on-event of the head window: it fires, or it is suppressed when the budget is spent. -/
def onEvent (l : LaneId) (g : Gate) (w : Window) (s : State) : State × List GateWork :=
  if budgetSpent (geometry l s) (channel l g s).history s.clock.ms then
    (dropHead l g w.items s, afterLoss g .gateSuppressed w.items)
  else (fireHead l g s, [])

/-- R75, R80: the loading of the window that became the head of a gate's list. -/
def loadHead (l : LaneId) (g : Gate) (s : State) : State × List GateWork :=
  match (channel l g s).windows with
  | [] => (s, [])
  | w :: _ =>
    let arm := updChannel l g (fun c => { c with windows := setHeadState .armed c.windows }) s
    let now := counter l s
    if w.state ≠ .queued then (s, [])
    else if laneMode l s = .stopped ∨ ahead w.onPos now then (arm, [])
    else if isNow w.onPos now ∨ ahead w.offPos now then onEvent l g w s
    else (dropHead l g w.items s, afterLoss g .gateMissed w.items)

/-- R79: the removal rule for one item and its window at one gate. A window that stands changes nothing. -/
def removeWindow (l : LaneId) (serial : Nat) (g : Gate) (s : State) : State × List GateWork :=
  match (channel l g s).windows.find? (fun w => w.items.contains serial) with
  | none => (s, [])
  | some w =>
    if w.state = .active ∨ w.items.length ≠ 1 then (s, [])
    else
      (updEntry l serial (strikeWindow g)
        (updChannel l g (fun c => { c with windows := c.windows.filter (fun w => !w.items.contains serial) }) s),
       if w.state = .armed then [.load g] else [])

/-- R78: the reroute of one item. An item that already has a cause keeps it, and the removal rule is applied; an eye rule
still writes its event (R15, R16). -/
def rerouteItem (l : LaneId) (serial : Nat) (cause : RerouteCause) (subject : Nat) (s : State) :
    State × List GateWork :=
  match findEntry l serial s with
  | none => (s, [])
  | some e =>
    let removals := (heldGates e).map (fun g => GateWork.remove serial g)
    if e.reroute.isSome then (secondCause l serial cause subject s, removals)
    else (writeCause l serial cause subject s, removals ++ [.release serial])

/-- One piece of gate work, and the work it brings on. -/
def oneWork (l : LaneId) (w : GateWork) (s : State) : State × List GateWork :=
  match w with
  | .load g => loadHead l g s
  | .reroute serial cause subject => rerouteItem l serial cause subject s
  | .remove serial g => removeWindow l serial g s
  | .release serial => (releaseReservation l serial (withdrawPrint l serial s), [])

/-- The work of an event, oldest first, the work a piece brings on taken before the rest. -/
def runWork (l : LaneId) : Nat → List GateWork → State → State
  | 0, _, s => s
  | _ + 1, [], s => s
  | n + 1, w :: ws, s => runWork l n ((oneWork l w s).2 ++ ws) (oneWork l w s).1

/-- Enough steps for every piece of work of one event: eight lists of at most eight windows of at most eight items,
each dropped, rerouted, removed and followed by a load at most once (log entry 13). -/
def workBound : Nat := 2000

def gateWork (l : LaneId) (ws : List GateWork) (s : State) : State := runWork l workBound ws s

/-- The reroute of an item by an eye rule (R15, R78). -/
def rerouteAtEye (l : LaneId) (serial : Nat) (cause : RerouteCause) (eye : Eye) (s : State) : State :=
  gateWork l [.reroute serial cause (eyeCode eye).val] s

/-- The removal rule applied to every window an item holds, its print withdrawn and its reservation released: what an
entry lost leaves behind (R23). -/
def dropItem (l : LaneId) (e : Entry) (s : State) : State :=
  gateWork l ((heldGates e).map (fun g => GateWork.remove e.serial g) ++ [.release e.serial]) s

/-- The removal rule at a purge: the windows are struck without loading the next, since the lists are emptied in the
same event (R24, R81). -/
def purgeWindows (l : LaneId) (e : Entry) (s : State) : State :=
  (heldGates e).foldl (fun s g => (removeWindow l e.serial g s).1) s

/-- R77: the output turns off and the head window closes, with the off position that the last closed record takes; the
next window is loaded. -/
def closeHead (l : LaneId) (g : Gate) (w : Window) (off : Pos) (s : State) : State :=
  gateWork l [.load g]
    (updChannel l g (fun c =>
      { c with
        windows := c.windows.drop 1, lastClosed := some ⟨off, w.items.getLastD 0⟩, output := false,
        hold := none }) s)

/-- R80: every gate output of the lane turns off and every hold timer is discarded. -/
def gatesOff (l : LaneId) (s : State) : State :=
  allGates.foldl (fun s g => updChannel l g (fun c => { c with output := false, hold := none }) s) s

/-- R81: CLEAR and ABORT empty the lists and forget the last closed records; histories and retired flags stand. -/
def gatesClear (l : LaneId) (s : State) : State :=
  allGates.foldl (fun s g =>
    updChannel l g (fun c => { c with windows := [], lastClosed := none, output := false, hold := none }) s) s

/-! ### The rows of the gate channels -/

/-- R76: GATE_ON_EVENT. The counter reaches the on position of the ARMED head. -/
def execGateOnEvent (l : LaneId) (g : Gate) (s : State) : Host.Outcome State Fault Refusal :=
  match (channel l g s).windows with
  | [] => .next s
  | w :: _ =>
    event (moves l s && w.state == .armed && isNow w.onPos (counter l s))
      (fun s => gateWork l (onEvent l g w s).2 (onEvent l g w s).1) s

/-- R77: GATE_WINDOW_CLOSE. The counter reaches the off position of the ACTIVE window. -/
def execGateWindowClose (l : LaneId) (g : Gate) (s : State) : Host.Outcome State Fault Refusal :=
  match (channel l g s).windows with
  | [] => .next s
  | w :: _ =>
    event (moves l s && w.state == .active && isNow w.offPos (counter l s)) (closeHead l g w w.offPos) s

/-- R77: GATE_HOLD_EXPIRY. The hold timer expires while a window is ACTIVE; the last closed record takes the counter. -/
def execGateHoldExpiry (l : LaneId) (g : Gate) (s : State) : Host.Outcome State Fault Refusal :=
  match (channel l g s).windows, (channel l g s).hold with
  | w :: _, some t =>
    event (w.state == .active && t.limit ≤ 50 * t.ticks) (closeHead l g w (counter l s)) s
  | _, _ => .next s

end Sys2Proof.Machine
end

