-- ==== Sys2Proof/Machine/Eyes.lean ====
section
/-! DEFINITION. The eyes: acceptance and capture of edges (R5, R6), the start and end of a blocked-eye measurement (R7),
expected positions and windows at the eyes (R15), and phantoms (R16). -/

namespace Sys2Proof.Machine

/-- R5: a change of level comes about at the sample at which the command stands. With eyeFilter on that is the fourth
of four equal samples; with eyeFilter off any differing sample, which may close a run begun before the setting
changed. -/
def edgeComes (l : LaneId) (y : Eye) (toDark : Bool) (held : Nat) (s : State) : Bool :=
  (eyeState l y s).dark != toDark &&
    (if (geometry l s).eyeFilter then held == 4 else decide (1 ≤ held) && decide (held ≤ 4))

/-- R5: the sample an accepted edge is captured at: the first of the four, or the one accepted at once. -/
def capturedSample (l : LaneId) (s : State) : BeltSample :=
  let b := s.belt.get l
  b.samples.getD (if (geometry l s).eyeFilter then 0 else 3) ⟨b.counter, b.fwd, b.live⟩

def captured (l : LaneId) (s : State) : Pos := (capturedSample l s).pos

/-- R7: the forward counts of an eye from the sample an edge is captured at. Those made while edges are not delivered are
held out, and so are those made before the last restart (log entry 85). -/
def countsSinceCapture (l : LaneId) (y : Eye) (s : State) : Nat :=
  (s.belt.get l).live - max (capturedSample l s).live (eyeState l y s).restart

/-- R5, R7: the accepted level follows; a leading edge begins the accumulation at its captured position. -/
def acceptEdge (l : LaneId) (y : Eye) (toDark : Bool) (s : State) : State :=
  let since := if toDark then countsSinceCapture l y s else 0
  updEye l y (fun q => { q with dark := toDark, darkCount := since, declared := false }) s

/-- R15: the station position of an eye an entry is matched at. -/
def stationOf (g : Geometry) : Eye → Nat
  | .t => g.twistEyePos
  | .cn => g.eyePos.near
  | .cf => g.eyePos.far
  | .n1 => g.gatePos.getD 0 0 + g.chuteOffset
  | .n2 => g.gatePos.getD 1 0 + g.chuteOffset
  | .n3 => g.gatePos.getD 2 0 + g.chuteOffset
  | .f1 => g.gatePos.getD 3 0 + g.chuteOffset
  | .f2 => g.gatePos.getD 4 0 + g.chuteOffset
  | .f3 => g.gatePos.getD 5 0 + g.chuteOffset
  | .ne => g.endPos.near
  | .fe => g.endPos.far
  | .e | .vn | .vf => 0

/-- R15: an entry's window at an eye contains a position. -/
def eyeWindowHas (l : LaneId) (y : Eye) (e : Entry) (p : Pos) (s : State) : Bool :=
  let g := geometry l s
  let x := posAdd e.leadE (stationOf g y)
  inWindow (posSub x g.eyeTolerance) (posAdd x g.eyeTolerance) p

/-- R2: an entry's window at an eye passes when the counter reaches its hi + 1. -/
def eyeWindowPasses (l : LaneId) (y : Eye) (e : Entry) (s : State) : Bool :=
  let g := geometry l s
  isNow (posAdd e.leadE (stationOf g y + g.eyeTolerance + 1)) (counter l s)

/-- R15: the oldest of the entries that may match an arrival. -/
def matchEntry (l : LaneId) (y : Eye) (p : Pos) (may : Entry → Bool) (s : State) : Option Entry :=
  (s.track.get l).queue.find? (fun e => may e && eyeWindowHas l y e p s)

/-- R16, R141, R160: an arrival with no candidate is a phantom. -/
def phantom (l : LaneId) (y : Eye) (p : Pos) (s : State) : State :=
  blockEvent l .tracking
    (countUp l .phantoms (emit .phantom (some l) (eyeCode y).val 0 p.toNat 0 s))

end Sys2Proof.Machine
end

