-- ==== Sys2Proof/Machine/Planning.lean ====
section
/-! DEFINITION. The facing planner: plans from verdicts (R65 to R71), the appending and merging of gate windows (R68,
R73, R74), the posting of prints (R93), and the delivery of verdicts in track order (R14). -/

namespace Sys2Proof.Machine

/-! ### Geometry of a gate -/

/-- The position G of a gate (R68). -/
def gatePosition (g : Geometry) : Gate → Nat
  | .flip => g.flipGatePos
  | .bank => g.bankGatePos
  | .n1 => g.gatePos.getD 0 0 | .n2 => g.gatePos.getD 1 0 | .n3 => g.gatePos.getD 2 0
  | .f1 => g.gatePos.getD 3 0 | .f2 => g.gatePos.getD 4 0 | .f3 => g.gatePos.getD 5 0

def gateTimes (l : LaneId) (g : Gate) (s : State) : GateGeometry := vget (geometry l s).gates (gateCode g)

/-- R4: a time converted with the lane's speed estimate at this moment. -/
def toCounts (l : LaneId) (t : Nat) (s : State) : Nat := leadCounts t (s.belt.get l).speed

/-- R68: a letter's window at a gate. -/
def windowFor (l : LaneId) (g : Gate) (e : Entry) (s : State) : PlanWindow :=
  let base := posAdd e.leadE (gatePosition (geometry l s) g)
  { gate := g, onPos := posSub base (toCounts l (gateTimes l g s).lead s),
    offPos := posAdd base (4 * e.length.getD 0 + (gateTimes l g s).tail) }

/-! ### Entries that lie between -/

/-- The place of a pocket along its path. -/
def pocketDepth : Pocket → Nat
  | .n1 | .f1 => 1
  | .n2 | .f2 => 2
  | .n3 | .f3 => 3
  | .ne | .fe => 4

/-- R73: a planned entry passes a gate with the gate off. A rerouted entry counts as planned for the end pocket of its
plan's bank. -/
def passesOff (e : Entry) (g : Gate) : Bool :=
  match e.plan with
  | none => false
  | some p =>
    !holdsWindow e g &&
      (match gatePocket g with
      | none => true
      | some q =>
        p.bank == pocketSide q &&
          pocketDepth q ≤ pocketDepth (if e.reroute.isSome then endPocket p.bank else p.pocket))

/-- R73: the entries that lie between a previous window's newest item and a new item, oldest first. -/
def liesBetween (l : LaneId) (g : Gate) (newest serial : Nat) (s : State) : List Entry :=
  (s.track.get l).queue.filter (fun x => newest < x.serial && x.serial < serial && passesOff x g)

/-- R73: the clear position of an entry at a gate. -/
def clearPosition (l : LaneId) (g : Gate) (x : Entry) (s : State) : Pos :=
  let len := match x.trailE with
    | some t => dist t x.leadE
    | none => 1169
  posAdd x.leadE (gatePosition (geometry l s) g + len)

/-! ### Appending -/

/-- What a new window is compared with (R73): an off position, a newest item, and whether it may be merged into. -/
structure Previous where
  off : Pos
  newest : Nat
  mergeable : Bool
  deriving DecidableEq, Repr

/-- R73: the previous window of a list, or the last closed record when the list is empty and the record bears on the
new on position. -/
def previousOf (c : Channel) (on : Pos) : Option Previous :=
  match c.windows.getLast? with
  | some w => some { off := w.offPos, newest := w.items.getLastD 0, mergeable := w.state != .active }
  | none => match c.lastClosed with
    | none => none
    | some r =>
      if dist on r.offPos ≤ 65535 ∨ dist r.offPos on ≤ 65535 then
        some { off := r.offPos, newest := r.newest, mergeable := false }
      else none

/-- A new window at the tail of a list of fewer than eight (R72, R73). -/
def pushWindow (l : LaneId) (w : PlanWindow) (serial : Nat) (s : State) : Option State :=
  if (channel l w.gate s).windows.length < 8 then
    some (updChannel l w.gate (fun c =>
      { c with windows := c.windows ++ [{ onPos := w.onPos, offPos := w.offPos, items := [serial],
                                           state := .queued }] }) s)
  else none

/-- The last window of a list changed. -/
def changeLast (f : Window → Window) : List Window → List Window
  | [] => []
  | [w] => [f w]
  | w :: v :: r => w :: changeLast f (v :: r)

/-- R74: the merge of a new item into the last window. -/
def mergeWindow (l : LaneId) (w : PlanWindow) (serial maxHold : Nat) (s : State) : Option State :=
  match (channel l w.gate s).windows.getLast? with
  | none => none
  | some last =>
    if dist w.offPos last.onPos ≤ maxHold ∧ last.items.length < 8 then
      some (updChannel l w.gate (fun c =>
        { c with windows := changeLast (fun v =>
            { v with offPos := w.offPos, items := v.items ++ [serial] }) c.windows }) s)
    else none

/-- R73: the append of a letter's window at a gate, or none where it fails. -/
def appendWindow (l : LaneId) (g : Gate) (e : Entry) (s : State) : Option (State × PlanWindow) :=
  let w := windowFor l g e s
  let minRelease := toCounts l (gateTimes l g s).minRelease s
  let maxHold := toCounts l (gateTimes l g s).maxHold s
  let done := match previousOf (channel l g s) w.onPos with
    | none => pushWindow l w e.serial s
    | some p =>
      let between := liesBetween l g p.newest e.serial s
      if (minRelease : Int) ≤ signedDist w.onPos p.off then
        match between.getLast? with
        | none => pushWindow l w e.serial s
        | some x => if ahead (clearPosition l g x s) w.onPos then none else pushWindow l w e.serial s
      else if between.isEmpty && p.mergeable then mergeWindow l w e.serial maxHold s
      else none
  done.map (fun t => (t, w))

/-- An append that a plan may not need (R69). -/
def appendWhen (need : Bool) (l : LaneId) (g : Gate) (e : Entry) (s : State) : Option (State × List PlanWindow) :=
  if need then (appendWindow l g e s).map (fun r => (r.1, [r.2])) else some (s, [])

/-! ### The six steps -/

/-- R65: the REJECT plan. -/
def rejectPlan (c : PlanCause) : Plan :=
  { reject := true, cause := some c, flip := false, bank := .near, print := none, pocket := .ne, windows := [] }

/-- R66: flip and bank of a presentation. -/
def facing : Presentation → Bool × Side
  | .a => (false, .near)
  | .b => (true, .far)
  | .c => (false, .far)
  | .d => (true, .near)

/-- R66, step 1: the test of the head. -/
def headStep (l : LaneId) (style : Nat) (bank : Side) (s : State) : Option PlanCause :=
  let h := head l bank s
  if style = 0 then none
  else if h.retired then some .headRetired
  else match h.wet with
    | .cold => some .headCold
    | .dry => some .headDry
    | .ready => if h.prints.length < 16 then none else some .printListFull

/-- R67, step 2: the test of the retired gates. -/
def gateStep (l : LaneId) (flip : Bool) (bank : Side) (s : State) : Option PlanCause :=
  let q := s.gsq.get l
  if (flip && q.flipRetired) || (bank == .far && q.bankRetired) then some .gateRetired else none

/-- A style 1..7 of the style set; style 0 and a number outside have no image (R84). -/
def styleOf (n : Nat) (s : State) : Style := if n = 0 then Style.undefined else s.pmc.styles.getD (n - 1) Style.undefined

/-- R93: the number of image columns below N − edgeMargin. -/
def printColumns (width n margin startMm : Nat) : Nat := min width (n - margin - startMm)

/-- R93: the print that planning step 5 posts. -/
def printFor (l : LaneId) (bank : Side) (e : Entry) (info : FacedInfo) (s : State) : Print :=
  let st := styleOf info.style s
  let image := st.images.get bank
  let width := if st.kind = .none then 16 else image.width
  let anchor := if st.kind = .none then 0 else image.anchor
  let margin := (geometry l s).edgeMargin
  let startMm := max (info.markCentre - anchor) margin
  let columns := printColumns width (e.length.getD 0) margin startMm
  { serial := e.serial, style := info.style, kind := st.kind,
    generation := if st.kind = .full then s.pmc.current.map (fun g => g.number) else none,
    unsetGen := st.kind == .full && (match s.pmc.current with
      | none => true
      | some g => g.unset),
    width := width, anchor := anchor, startMm := startMm, columns := columns,
    clipped := decide (columns < width), state := .posted, start := 0, image := none }

/-- R69, step 5. -/
def postPrint (l : LaneId) (bank : Side) (e : Entry) (info : FacedInfo) (s : State) : State :=
  if info.style = 0 then s
  else updHead l bank (fun h => { h with prints := h.prints ++ [printFor l bank e info s] }) s

/-- The head, style and generation that the plan carries (R65). -/
def planPrint (l : LaneId) (bank : Side) (e : Entry) (info : FacedInfo) (s : State) : Option PlanPrint :=
  if info.style = 0 then none
  else some { head := bank, style := info.style, generation := (printFor l bank e info s).generation }

/-- R70: a pocket is OPEN with fill + reserved below its capacity. -/
def pocketRoom (l : LaneId) (p : Pocket) (s : State) : Bool :=
  let r := pocketRec l p s
  r.state == .opened && decide (r.fill + r.reservations.length < r.capacity)

/-- R70: the primary, else the alternate, else none for the end pocket. -/
def choosePocket (l : LaneId) (bank : Side) (info : FacedInfo) (s : State) : Option Pocket :=
  if pocketRoom l (bankPocket bank info.pocketPrimary) s then some (bankPocket bank info.pocketPrimary)
  else if info.pocketAlternate ≠ 0 ∧ pocketRoom l (bankPocket bank info.pocketAlternate) s = true then
    some (bankPocket bank info.pocketAlternate)
  else none

/-- What step 6 decides: the pocket planned, the plan's cause and the pocket gate's window. -/
structure PocketChoice where
  pocket : Pocket
  cause : Option PlanCause
  windows : List PlanWindow
  deriving DecidableEq, Repr

/-- R70, R108, step 6: the choice of a pocket, its reservation and its window. -/
def pocketStep (l : LaneId) (bank : Side) (e : Entry) (info : FacedInfo) (s : State) : State × PocketChoice :=
  let toEnd := fun c => { pocket := endPocket bank, cause := some c, windows := [] : PocketChoice }
  match choosePocket l bank info s with
  | none =>
    (emit .pocketFull (some l) (pocketCode (bankPocket bank info.pocketPrimary)).val e.serial 0 0 s,
     toEnd .pocketFull)
  | some p => match pocketGate p with
    | none => (s, toEnd .pocketFull)
    | some g => match appendWindow l g e s with
      | none => (emit .gateBusy (some l) (gateCode g).val e.serial 0 0 s, toEnd .gateBusy)
      | some (t, w) => (reserve l p e.serial t, { pocket := p, cause := none, windows := [w] })

/-- A plan turned REJECT by a failed append: GATE_BUSY is written, and nothing posted before remains (R69). -/
def gateBusyReject (l : LaneId) (g : Gate) (e : Entry) (s : State) : State × Plan :=
  (emit .gateBusy (some l) (gateCode g).val e.serial 0 0 s, rejectPlan .gateBusy)

/-- R66 to R70: the plan of a FACED verdict. What a plan withdraws is dropped with the copy of the state it was posted
in (R69). -/
def planFaced (l : LaneId) (e : Entry) (info : FacedInfo) (s : State) : State × Plan :=
  let flip := (facing info.presentation).1
  let bank := (facing info.presentation).2
  match headStep l info.style bank s, gateStep l flip bank s with
  | some c, _ => (s, rejectPlan c)
  | none, some c => (s, rejectPlan c)
  | none, none => match appendWhen flip l .flip e s with
    | none => gateBusyReject l .flip e s
    | some (s1, w1) => match appendWhen (bank == .far) l .bank e s1 with
      | none => gateBusyReject l .bank e s
      | some (s2, w2) =>
        let r := pocketStep l bank e info (postPrint l bank e info s2)
        (r.1, { reject := false, cause := r.2.cause, flip := flip, bank := bank,
                print := planPrint l bank e info s2, pocket := r.2.pocket,
                windows := w1 ++ w2 ++ r.2.windows })

/-- R65: the plan of a verdict. -/
def planVerdict (l : LaneId) (e : Entry) (v : Verdict) (s : State) : State × Plan :=
  match v.kind, v.faced with
  | .faced, some info => planFaced l e info s
  | k, _ => (s, rejectPlan (.verdict k))

/-! ### Delivery -/

/-- R14, R141: the verdict, presentation and class tallies of a delivered verdict. -/
def countVerdict (l : LaneId) (v : Verdict) (s : State) : State :=
  let s1 := countUp l (.verdict v.kind) s
  match v.faced with
  | none => s1
  | some i => countUp l (.cls i.classIndex) (countUp l (.presentation i.presentation) s1)

/-- R14, R65, R71: the delivery of one entry's verdict: its plan is written and the entry becomes PLANNED, the verdict
is counted, the two passages are reported, and the gate channels see the plan's windows: the passages before the windows
(log entry 74), and the windows flip first, then bank, then pocket (log entry 73). -/
def deliver (l : LaneId) (e : Entry) (v : Verdict) (s : State) : State :=
  let r := planVerdict l e v s
  let s1 := updEntry l e.serial (fun x =>
    { x with delivered := true, plan := some r.2, stage := .planned }) r.1
  let s2 := countBlock l .bankAccuracy (countBlock l .flipAccuracy (countVerdict l v s1))
  gateWork l (r.2.windows.map (fun w => GateWork.load w.gate)) s2

/-- R14: the run of waiting entries, oldest first, that a delivery or a verdict releases. -/
def deliverRun (l : LaneId) : Nat → State → State
  | 0, s => s
  | n + 1, s =>
    match (s.track.get l).queue.find? (fun e => !e.delivered) with
    | none => s
    | some e => match e.verdict with
      | none => s
      | some v => deliverRun l n (deliver l e v s)

/-- R14: every entry that may be delivered is delivered. -/
def deliverAll (l : LaneId) (s : State) : State := deliverRun l (s.track.get l).queue.length s

/-- A verdict that carries its kind alone (R59). -/
def plainVerdict (k : VerdictKind) : Verdict := { kind := k, faced := none, detail := none }

/-- R25: the Scan Front End discards an entry's trace. -/
def discardTrace (l : LaneId) (serial : Nat) (s : State) : State :=
  updSfe l (fun f => { f with traces := f.traces.filter (fun t => t.serial != serial) }) s

/-- R13: an entry's verdict is set once; one given before the scan job is posted stops the sampling and moves the entry
to QUEUED. -/
def giveVerdict (l : LaneId) (serial : Nat) (v : Verdict) (s : State) : State :=
  match findEntry l serial s with
  | none => s
  | some e =>
    if e.verdict.isSome then s
    else if e.stage = .entering ∨ e.stage = .scanning then
      discardTrace l serial (updEntry l serial (fun x => { x with verdict := some v, stage := .queued }) s)
    else updEntry l serial (fun x => { x with verdict := some v }) s

end Sys2Proof.Machine
end

