-- ==== Sys2Proof/Machine/Prints.lean ====
section
/-! DEFINITION. Prints and raster slots of the heads: image choice (R90), release (R94), starts and ends (R96), prints not
made (R97), the look-ahead and the load engine (R98, R99), and the verify eye and trim (R100, R101). -/

namespace Sys2Proof.Machine

/-! ### Image choice -/

/-- R89: a generation held in the store, by its number, current or previous. -/
def storedGeneration (n : Nat) (s : State) : Option Generation :=
  match s.pmc.current with
  | some g => if g.number = n then some g else
    (match s.pmc.previous with
     | some p => if p.number = n then some p else none
     | none => none)
  | none => none

/-- What R90 chooses for a print: its key, how it is counted, and the image, none where the manual states none (a style
that became FULL after the generation was composed, log entry 33). -/
structure ImageChoice where
  key : RasterKey
  count : PrintCount
  raster : Option Raster
  deriving DecidableEq, Repr

/-- R88: the text of a generation's images for a lane. -/
def generationText (g : Generation) (l : LaneId) : PostmarkText :=
  { office := g.office, lane := l, year := g.year, month := g.month, day := g.day, periodStart := g.periodStart }

/-- R90: fallback bars, counted with a cause. -/
def fallbackChoice (p : Print) (c : PrintCount) : ImageChoice :=
  { key := .fallback p.style p.width p.anchor, count := c, raster := some (.fallback p.width p.anchor) }

/-- R90: the image of a generation for a style, lane and head. -/
def generationRaster (g : Generation) (l : LaneId) (h : Side) (style : Nat) : Option Raster :=
  (g.styles.find? (fun q => q.1 == style)).map (fun q => Raster.full (q.2.images.get h) (generationText g l))

/-- R90: the image of a print at this moment; none for a print of undefined kind. A generation composed while the clock was
unset counts as CLOCK_UNSET although it has also been dropped (log entry 61). -/
def chooseImage (l : LaneId) (h : Side) (p : Print) (s : State) : Option ImageChoice :=
  match p.kind with
  | .none => none
  | .bars =>
    let st := styleOf p.style s
    if st.kind = .bars then
      some { key := .bars p.style, count := .bars, raster := some (.bars (st.images.get h)) }
    else some (fallbackChoice p .bars)
  | .full => match p.generation with
    | none => some (fallbackChoice p (.fullDowngraded .clockUnset))
    | some n =>
      if p.unsetGen then some (fallbackChoice p (.fullDowngraded .clockUnset))
      else match storedGeneration n s with
        | none => some (fallbackChoice p (.fullDowngraded .genDropped))
        | some g => some { key := .full p.style n, count := .full, raster := generationRaster g l h p.style }

/-! ### Slots -/

def slotOf (d : Head) (i : Fin 2) : Slot := vget d.slots i

/-- The slot a head prints from, while a print is PRINTING. -/
def printingSlot (d : Head) : Option (Fin 2) :=
  (d.prints.find? (fun p => p.state == .printing)).bind (fun p => p.image.map (fun q => q.1))

/-- The key of a look-ahead print: that of the slot it prints from while PRINTING (log entry 75), else the key chosen now
(R98). -/
def lookKey (l : LaneId) (h : Side) (p : Print) (s : State) : Option RasterKey :=
  match p.state, p.image with
  | .printing, some q => (slotOf (head l h s) q.1).key
  | _, _ => (chooseImage l h p s).map (fun c => c.key)

/-- R98: the first two prints of the list. -/
def lookAhead (l : LaneId) (h : Side) (s : State) : List Print := (head l h s).prints.take 2

/-- R98: the keys of the look-ahead. -/
def lookKeys (l : LaneId) (h : Side) (s : State) : List RasterKey :=
  (lookAhead l h s).filterMap (fun p => lookKey l h p s)

/-- A key stands in one of the head's slots, one being loaded included (R98). -/
def keyHeld (d : Head) (k : RasterKey) : Bool :=
  (slotOf d 0).key == some k || (slotOf d 1).key == some k

/-- R98: the first look-ahead print whose key is in neither slot, with its image. A PRINTING print keeps the key of the
slot it prints from, and nothing is loaded for it (log entry 75). -/
def missingImage (l : LaneId) (h : Side) (s : State) : Option ImageChoice :=
  ((lookAhead l h s).filter (fun p => p.state != .printing)).findSome? (fun p =>
    match chooseImage l h p s with
    | none => none
    | some c => if keyHeld (head l h s) c.key then none else some c)

/-- R98: a slot may take a load: it holds neither look-ahead key and is not printed from. -/
def slotFree (l : LaneId) (h : Side) (i : Fin 2) (s : State) : Bool :=
  let d := head l h s
  printingSlot d != some i && (match (slotOf d i).key with
    | none => true
    | some k => !(lookKeys l h s).contains k)

/-- The slot a load goes into: the first that may take it (log entry 34). -/
def loadSlot (l : LaneId) (h : Side) (s : State) : Option (Fin 2) :=
  if slotFree l h 0 s then some 0 else if slotFree l h 1 s then some 1 else none

def setSlot (i : Fin 2) (v : Slot) (d : Head) : Head := { d with slots := vupd d.slots i (fun _ => v) }

/-- R99: a slot is emptied; while it is printed from the emptying waits, and a load running into it ends empty. -/
def emptySlot (i : Fin 2) (d : Head) : Head :=
  if printingSlot d = some i then { d with slots := vupd d.slots i (fun t => { t with emptyAfter := true }) }
  else match d.load with
    | some q => if q.slot = i then { d with load := some { q with void := true } } else setSlot i Slot.emptied d
    | none => setSlot i Slot.emptied d

/-- R99: the emptying that waited for the end of the print. -/
def emptyWaiting (i : Fin 2) (d : Head) : Head := if (slotOf d i).emptyAfter then setSlot i Slot.emptied d else d

/-- R98: RASTER_LOAD_START. The idle load engine empties a slot and begins to load the first missing key. -/
def startLoad (l : LaneId) (h : Side) (s : State) : State :=
  match missingImage l h s, loadSlot l h s with
  | some c, some i =>
    updHead l h (fun d =>
      setSlot i { key := some c.key, ready := false, image := c.raster, emptyAfter := false }
        { d with load := some { slot := i, ticks := 0, void := false } }) s
  | _, _ => s

def execRasterLoadStart (l : LaneId) (h : Side) (s : State) : Host.Outcome State Fault Refusal :=
  event ((head l h s).load.isNone && (missingImage l h s).isSome && (loadSlot l h s).isSome) (startLoad l h) s

/-- R98: RASTER_LOAD_COMPLETE, 1.5 ms after the load began. -/
def finishLoad (l : LaneId) (h : Side) (s : State) : State :=
  match (head l h s).load with
  | none => s
  | some q => updHead l h (fun d =>
      (if q.void then setSlot q.slot Slot.emptied else fun d =>
        { d with slots := vupd d.slots q.slot (fun t => { t with ready := true }) }) { d with load := none }) s

def execRasterLoadComplete (l : LaneId) (h : Side) (s : State) : Host.Outcome State Fault Refusal :=
  event (match (head l h s).load with
    | none => false
    | some q => 30 ≤ q.ticks) (finishLoad l h) s

/-! ### Ends of prints -/

/-- R100, R141: a verify miss. -/
def verifyMiss (l : LaneId) (s : State) : State := countUp l .verifyMisses s

/-- R100: an ended print enters the verify list; the oldest leaves a full one as a verify miss. -/
def enterVerify (l : LaneId) (h : Side) (expected : Pos) (s : State) : State :=
  if (head l h s).verify.length < 8 then updHead l h (fun d => { d with verify := d.verify ++ [expected] }) s
  else verifyMiss l (updHead l h (fun d => { d with verify := d.verify.drop 1 ++ [expected] }) s)

def removePrint (serial : Nat) (d : Head) : Head :=
  { d with prints := d.prints.filter (fun p => p.serial != serial) }

/-- R9, R96: the print result *printed* of an item, present from the release of its print; it is written again at the
print's start, with the image taken, and at its end, with the flag it ends with (log entry 70). -/
def writePrinted (l : LaneId) (p : Print) (clipped : Bool) (c : PrintCount) (s : State) : State :=
  updEntry l p.serial (fun e => { e with printResult := some (.printed p.startMm clipped c) }) s

/-- R96: the end of a print: it leaves the list, enters the verify list, its result is written and it is counted. -/
def endPrint (l : LaneId) (h : Side) (p : Print) (clipped : Bool) (s : State) : State :=
  let s1 := updHead l h (removePrint p.serial) s
  match p.image with
  | none => s1
  | some q =>
    let s2 := updHead l h (emptyWaiting q.1) s1
    let s3 := if p.columns = 0 then s2 else enterVerify l h (posAdd p.start (geometry l s2).verifyOffset) s2
    countUp l (.print q.2) (writePrinted l p clipped q.2 s3)

def printingOf (d : Head) : Option Print := d.prints.find? (fun p => p.state == .printing)

/-- R96: the position at which a print ends. -/
def printEndPos (p : Print) : Pos := posAdd p.start (4 * p.columns)

/-- HEAD_DATA (R96, 11.7): the column of a PRINTING print that stands at the head, column k at start + 4k, with the
image it is taken from (log entry 46). -/
def headColumn (l : LaneId) (h : Side) (s : State) : Option (Nat × Option Raster) :=
  match printingOf (head l h s) with
  | none => none
  | some p =>
    let away := dist (counter l s) p.start
    if away % 4 = 0 ∧ away / 4 < p.columns then
      some (away / 4, p.image.bind (fun q => (slotOf (head l h s) q.1).image))
    else none

/-- R106, R135: a PRINTING print ends at the stop with the columns printed so far, clipped. -/
def clipPrint (l : LaneId) (h : Side) (s : State) : State :=
  match printingOf (head l h s) with
  | none => s
  | some p => endPrint l h p true s

/-- R96: PRINT_END. -/
def execPrintEnd (l : LaneId) (h : Side) (s : State) : Host.Outcome State Fault Refusal :=
  match printingOf (head l h s) with
  | none => .next s
  | some p => event (moves l s && isNow (printEndPos p) (counter l s)) (endPrint l h p p.clipped) s

/-! ### Prints not made -/

/-- R97: the item is sent to the end pocket of its bank: the removal rule at its planned pocket's gate, and the release
of its reservation when the window is removed. -/
def sendToEnd (l : LaneId) (serial : Nat) (s : State) : State :=
  match findEntry l serial s with
  | none => s
  | some e => match e.plan with
    | none => s
    | some p => match pocketGate p.pocket with
      | none => s
      | some g =>
        if holdsWindow e g then
          let s1 := gateWork l [.remove serial g] s
          match findEntry l serial s1 with
          | none => s1
          | some x => if holdsWindow x g then s1 else releaseAt l p.pocket serial s1
        else s

/-- R94, R96, R97: a print not made leaves the list, its item is uncancelled with a cause, counted, and sent on. -/
def refusePrint (l : LaneId) (h : Side) (serial : Nat) (c : UncancelledCause) (s : State) : State :=
  sendToEnd l serial (countUp l (.uncancelled c)
    (updEntry l serial (fun e => { e with printResult := some (.uncancelled c) })
      (updHead l h (removePrint serial) s)))

/-! ### Release and start -/

/-- R94: the start position of a released print. -/
def releaseStart (l : LaneId) (h : Side) (eyeAt : Pos) (p : Print) (s : State) : Pos :=
  posAddInt eyeAt (((geometry l s).headOffset.get h : Int) + (head l h s).trim + 4 * (p.startMm : Int))

/-- R9, R94: the match at a head's cancel eye releases the item's print, with a print result from then on, or refuses
it. -/
def releasePrint (l : LaneId) (h : Side) (serial : Nat) (eyeAt : Pos) (s : State) : State :=
  match (head l h s).prints.find? (fun p => p.serial == serial && p.state == .posted) with
  | none => s
  | some p =>
    if (head l h s).wet = .dry then refusePrint l h serial .headDry s
    else match chooseImage l h p s with
      | none => refusePrint l h serial .styleUndefined s
      | some c =>
        let at_ := releaseStart l h eyeAt p s
        writePrinted l p p.clipped c.count (updHead l h (fun d =>
          { d with prints := d.prints.map (fun q =>
              if q.serial = serial then { q with state := .released, start := at_ } else q) }) s)

/-- The RELEASED print whose start the counter reaches (R96). -/
def startingPrint (l : LaneId) (h : Side) (s : State) : Option Print :=
  (head l h s).prints.find? (fun p => p.state == .released && isNow p.start (counter l s))

/-- R96: an earlier print of this head ends where the next one starts; it is clipped unless it ends there anyway. -/
def endEarlier (l : LaneId) (h : Side) (s : State) : State :=
  match printingOf (head l h s) with
  | none => s
  | some q => endPrint l h q (q.clipped || !isNow (printEndPos q) (counter l s)) s

/-- R96, R98: the slot from which a print of a key may be printed. -/
def readySlot (d : Head) (k : RasterKey) : Option (Fin 2) :=
  if (slotOf d 0).key = some k ∧ (slotOf d 0).ready = true then some 0
  else if (slotOf d 1).key = some k ∧ (slotOf d 1).ready = true then some 1
  else none

/-- R96: the print becomes PRINTING, its result naming the image it has taken; one of 0 columns ends at its start. -/
def beginPrint (l : LaneId) (h : Side) (p : Print) (i : Fin 2) (c : PrintCount) (s : State) : State :=
  let q := { p with state := PrintState.printing, image := some (i, c) }
  let s1 := writePrinted l p p.clipped c (updHead l h (fun d =>
    { d with prints := d.prints.map (fun x => if x.serial = p.serial then q else x) }) s)
  if p.columns = 0 then endPrint l h q p.clipped s1 else s1

/-- R96: the three cases of a print start. The image is chosen anew here, whatever was chosen when a slot was loaded for
the print (log entry 81). -/
def startPrint (l : LaneId) (h : Side) (p : Print) (s0 : State) : State :=
  let s := endEarlier l h s0
  if (head l h s).spitRun.isSome then refusePrint l h p.serial .spitBusy s
  else match chooseImage l h p s with
    | none => refusePrint l h p.serial .styleUndefined s
    | some c => match readySlot (head l h s) c.key with
      | none => refusePrint l h p.serial .rasterLate s
      | some i => beginPrint l h p i c.count s

/-- R96: PRINT_START. -/
def execPrintStart (l : LaneId) (h : Side) (s : State) : Host.Outcome State Fault Refusal :=
  match startingPrint l h s with
  | none => .next s
  | some p => event (moves l s) (startPrint l h p) s

/-! ### The verify eye -/

/-- R101: the trim after sixteen kept samples. -/
def newTrim (trim sum : Int) : Int := max (-48) (min 48 (trim - sum.tdiv 32))

/-- R101: the update of the trim when the count of kept samples reaches 16. -/
def trimTest (l : LaneId) (h : Side) (s : State) : State :=
  let d := head l h s
  if d.kept < 16 then s
  else
    let t := newTrim d.trim d.sum
    evaluate l (headAlignId h) t (headAlignValue t) (updHead l h (fun d => { d with trim := t, sum := 0, kept := 0 }) s)

/-- R100: a leading edge at a verify eye compared with the oldest verify entry. -/
def compareVerify (l : LaneId) (h : Side) (seen : Pos) (s : State) : State :=
  match (head l h s).verify with
  | [] => verifyMiss l s
  | expected :: rest =>
    let e := signedDist seen expected
    if e.natAbs ≤ 64 then
      trimTest l h (updHead l h (fun d => { d with sum := d.sum + e, kept := d.kept + 1, verify := rest }) s)
    else verifyMiss l s

/-- R100: VERIFY_EDGE. -/
def execVerifyEdge (l : LaneId) (h : Side) (held : Nat) (s : State) : Host.Outcome State Fault Refusal :=
  event (edgeComes l (verifyEyeOf h) true held s) (fun s =>
    let p := captured l s
    let s1 := acceptEdge l (verifyEyeOf h) true s
    if delivers (laneMode l s1) then compareVerify l h p s1 else s1) s

/-- R100: VERIFY_ENTRY_EXPIRY. The counter reaches the oldest entry's expected position + 65. -/
def execVerifyEntryExpiry (l : LaneId) (h : Side) (s : State) : Host.Outcome State Fault Refusal :=
  match (head l h s).verify with
  | [] => .next s
  | expected :: rest =>
    event (moves l s && isNow (posAdd expected 65) (counter l s)) (fun s =>
      verifyMiss l (updHead l h (fun d => { d with verify := rest }) s)) s

end Sys2Proof.Machine
end

