-- ==== Sys2Proof/Machine/Heads.lean ====
section
/-! DEFINITION. The keep-wet schedule of the heads: spit timer, pending age and gap requests (R102, R104), spits and wet
conditions (R103, R105), fast mode (R92), and the lane going OFF (R102, R106). -/

namespace Sys2Proof.Machine

def spitSetting (l : LaneId) (h : Side) (s : State) : SpitSetting := (s.pmc.settings.get l).get h

/-- R92: the effective interval in ms. -/
def effectiveInterval (l : LaneId) (h : Side) (s : State) : Nat :=
  (spitSetting l h s).interval * (if (head l h s).fast then 500 else 1000)

/-- R92: fast mode at a reading. -/
def fastMode (c : SpitSetting) (fast : Bool) (temp : Nat) : Bool :=
  if c.forceFast then true
  else if c.autoFast then (if 40 < temp then true else if temp < 38 then false else fast)
  else false

/-- R104: GAP_SPIT stands while either head of the lane has a standing gap request. -/
def followGapSpit (l : LaneId) (s : State) : State :=
  setHold l .gapSpit ((head l .near s).gapRequest.isSome || (head l .far s).gapRequest.isSome) s

/-- The spit timer restarts from zero and takes the effective interval of this moment (R102). -/
def restartSpitTimer (l : LaneId) (h : Side) (s : State) : State :=
  let period := effectiveInterval l h s
  updHead l h (fun d => { d with spitTicks := 0, spitPeriod := period }) s

/-- R104: an expiry that leaves pending set with an age of 4 or more raises a gap request. -/
def gapRequestTest (l : LaneId) (h : Side) (s : State) : State :=
  let d := head l h s
  if 4 ≤ d.age ∧ d.gapRequest = none then
    emit .spitDeferred (some l) (sideCode h) 0 d.age 0
      (followGapSpit l (updHead l h (fun d => { d with gapRequest := some 0 }) s))
  else s

/-- R105: an age of 8 makes a READY head DRY. -/
def dryTest (l : LaneId) (h : Side) (s : State) : State :=
  if (head l h s).age = 8 ∧ (head l h s).wet = .ready then
    emit .headDry (some l) (sideCode h) 0 0 0 (updHead l h (fun d => { d with wet := .dry }) s)
  else s

/-- R102, R104, R105: an expiry of the spit timer, its records in the order of these rules (log entry 80). -/
def spitExpiry (l : LaneId) (h : Side) (s : State) : State :=
  let s1 := updHead l h (fun d =>
    { d with pendingSpit := true, age := if d.pendingSpit then min (d.age + 1) 255 else d.age })
    (restartSpitTimer l h s)
  let a := (head l h s1).age
  dryTest l h (gapRequestTest l h (evaluate l (headWetId h) a (headWetValue a) s1))

/-- R102: SPIT_TIMER_EXPIRY. -/
def execSpitTimerExpiry (l : LaneId) (h : Side) (s : State) : Host.Outcome State Fault Refusal :=
  let d := head l h s
  event (d.wet != .cold && decide (ticksPerMs * d.spitPeriod ≤ d.spitTicks)) (spitExpiry l h) s

/-- R104: SPIT_GAP_TIMEOUT, 250 ms after the gap request. -/
def execSpitGapTimeout (l : LaneId) (h : Side) (s : State) : Host.Outcome State Fault Refusal :=
  event (match (head l h s).gapRequest with
    | none => false
    | some t => 5000 ≤ t)
    (fun s => followGapSpit l (updHead l h (fun d => { d with gapRequest := none }) s)) s

/-- R103: a head has a spit request. -/
def spitRequest (d : Head) : Bool :=
  match d.wet with
  | .cold => d.warmRequest
  | .ready | .dry => d.pendingSpit

/-- R103: a head's next start at a print, in counts ahead; none for a print that has no part in it. -/
def nextStart (l : LaneId) (h : Side) (p : Print) (s : State) : Option Nat :=
  let away := fun (x : Pos) => if ahead x (counter l s) then dist x (counter l s) else 0
  let g := geometry l s
  match p.state with
  | .printing => none
  | .released => some (away p.start)
  | .posted => match findEntry l p.serial s with
    | none => none
    | some e =>
      some (away (posAddInt e.leadE ((g.eyePos.get h : Int) - (g.eyeTolerance : Int) + (g.headOffset.get h : Int) +
        (head l h s).trim + 4 * (p.startMm : Int))))

/-- R103: the time to the next print start is 4 ms or more: d × 1,000 / (S × 15.625) ≥ 4, that is 16 d ≥ S. -/
def spitTime (l : LaneId) (h : Side) (s : State) : Bool :=
  (head l h s).prints.all (fun p => match nextStart l h p s with
    | none => true
    | some d => (s.belt.get l).speed ≤ 16 * d)

/-- R103: the conditions under which a spit starts. -/
def spitMayStart (l : LaneId) (h : Side) (s : State) : Bool :=
  let d := head l h s
  d.spitRun.isNone && spitRequest d && laneMode l s != .stopped && laneMode l s != .off &&
    d.prints.all (fun p => p.state != .printing) && spitTime l h s

/-- R103: SPIT_START. -/
def execSpitStart (l : LaneId) (h : Side) (s : State) : Host.Outcome State Fault Refusal :=
  event (spitMayStart l h s) (updHead l h (fun d => { d with spitRun := some 0 })) s

/-- R105: a COLD head in its warming spit or a DRY head becomes READY. -/
def wetTest (l : LaneId) (h : Side) (s : State) : State :=
  let d := head l h s
  if d.wet = .dry ∨ (d.wet = .cold ∧ d.warmRequest = true) then
    emit .headReady (some l) (sideCode h) 0 0 0
      (updHead l h (fun d => { d with wet := .ready, warmRequest := false }) s)
  else s

/-- R102 to R105: a spit completes; HEAD_WET is evaluated before HEAD_READY is written (log entry 80). -/
def completeSpit (l : LaneId) (h : Side) (s : State) : State :=
  let s1 := restartSpitTimer l h (updHead l h (fun d =>
    { d with spitRun := none, pendingSpit := false, age := 0, gapRequest := none }) s)
  warmTest l (wetTest l h (evaluate l (headWetId h) 0 (headWetValue 0) (followGapSpit l s1)))

/-- R103: SPIT_COMPLETE, 3 ms after the spit began. -/
def execSpitComplete (l : LaneId) (h : Side) (s : State) : Host.Outcome State Fault Refusal :=
  event (match (head l h s).spitRun with
    | none => false
    | some t => 60 ≤ t) (completeSpit l h) s

/-- R92: HEAD_TEMP_READING, once a second. -/
def execHeadTempReading (l : LaneId) (h : Side) (temp : Nat) (s : State) : Host.Outcome State Fault Refusal :=
  eventWithin (tempOk temp) (decide (ticksPerSecond ≤ (head l h s).tempTicks))
    (updHead l h (fun d =>
      { d with lastTemp := temp, tempTicks := 0, fast := fastMode (spitSetting l h s) d.fast temp })) s

/-- R102, R104, R105: the lane going OFF makes a head COLD. -/
def coldHead (l : LaneId) (h : Side) (s : State) : State :=
  followGapSpit l (updHead l h (fun d =>
    { d with wet := .cold, spitTicks := 0, pendingSpit := false, age := 0, gapRequest := none,
             warmRequest := false }) s)

/-- R102, R106: both heads of the lane become COLD. -/
def coldHeads (l : LaneId) (s : State) : State := coldHead l .far (coldHead l .near s)

/-- R106: CLEAR and ABORT empty both print lists and both verify lists, without verify misses. An emptying that waited
for the end of a print is made (R99). A print that is PRINTING at an ABORT goes with its list, against R95: it leaves no
count and no verify entry, and its item's record keeps the result of its start (log entry 82). -/
def clearPrints (l : LaneId) (s : State) : State :=
  let clear := fun h => updHead l h (fun d => emptyWaiting 1 (emptyWaiting 0 { d with prints := [], verify := [] }))
  clear .far (clear .near s)

/-- R101: ABORT sets the trims, sums and counts to 0. -/
def clearTrims (l : LaneId) (s : State) : State :=
  let clear := fun h => updHead l h (fun d => { d with trim := 0, sum := 0, kept := 0 })
  clear .far (clear .near s)

end Sys2Proof.Machine
end

