-- ==== Sys2Proof/Machine/Scoring.lean ====
section
/-! DEFINITION. The computation for one item (R52 to R60), the figures of the class audit (R62), and the built-in set, items
and judgements of the REFERENCE test (R168, R169). Everything here is a function of figures and a class table. -/

namespace Sys2Proof.Machine

/-- Strength and peak centre of one strip and band (R53). -/
structure Figure where
  strength : Nat
  centre : Nat
  deriving DecidableEq, Repr

/-- R52: the windowed sums S(0..N − W) of one channel's trace. -/
def windowSums (w : Nat) (xs : List Nat) : List Nat :=
  (List.range (xs.length + 1 - w)).map (fun j => ((xs.drop j).take w).sum)

/-- The first index at which a list holds a value. -/
def firstIndex (v : Nat) : List Nat → Nat
  | [] => 0
  | x :: r => if x = v then 0 else firstIndex v r + 1

/-- R53: the figures of one strip and band. -/
def figureOf (w : Nat) (xs : List Nat) : Figure :=
  let sums := windowSums w xs
  let p := sums.foldl max 0
  let b := sums.foldl min p
  { strength := (p - b) / w, centre := firstIndex p sums + w / 2 }

/-- A channel of a trace: the values of its samples, in sample order. -/
def channelTrace (trace : List (List Nat)) (c : Nat) : List Nat := trace.map (fun row => row.getD c 0)

/-- The figures of the four strips, FT, FB, BT, BB, each with its bands PH, FL, CT (2.1, R53). -/
def traceFigures (w : Nat) (trace : List (List Nat)) : List (List Figure) :=
  (List.range 4).map (fun strip => (List.range 3).map (fun band => figureOf w (channelTrace trace (3 * strip + band))))

/-- R46: the bands of a class with the figures of a strip. -/
def bandPairs (k : ClassEntry) (fs : List Figure) : List (Bounds × Figure) := k.bands.zip fs

/-- R54: the required bands' figures. -/
def requiredFigures (k : ClassEntry) (fs : List Figure) : List Figure :=
  ((bandPairs k fs).filter (fun q => 0 < q.1.lo)).map (fun q => q.2)

/-- R54: a class is a candidate on a strip. -/
def isCandidate (k : ClassEntry) (fs : List Figure) : Bool :=
  let cs := (requiredFigures k fs).map (fun f => f.centre)
  k.enabled && (bandPairs k fs).all (fun q => q.1.lo ≤ q.2.strength && q.2.strength ≤ q.1.hi) &&
    decide (cs.foldl max 0 - cs.foldl min (cs.foldl max 0) ≤ k.tolerance)

/-- R55: the figure with the highest strength, the first of equals. -/
def strongest : List Figure → Option Figure
  | [] => none
  | f :: r => match strongest r with
    | none => some f
    | some g => if g.strength ≤ f.strength then some f else some g

/-- R55: the mark centre of a candidate. -/
def candidateCentre (k : ClassEntry) (fs : List Figure) : Nat :=
  match strongest (requiredFigures k fs) with
  | none => 0
  | some f => f.centre

/-- R55: strip and end give the presentation; none for an off-corner candidate. -/
def presentationOf (n strip centre : Nat) : Option Presentation :=
  if 2 * centre < n then (match strip with
    | 0 => some .a
    | 3 => some .d
    | _ => none)
  else match strip with
    | 1 => some .b
    | 2 => some .c
    | _ => none

/-- R56: the margins of a bounded band that apply. -/
def bandMargins (b : Bounds) (m : Nat) : List Nat :=
  (if 0 < b.lo then [m - b.lo] else []) ++ (if b.hi < 1023 then [b.hi - m] else [])

/-- R56: the score of a candidate. -/
def candidateScore (k : ClassEntry) (fs : List Figure) : Nat :=
  ((bandPairs k fs).flatMap (fun q => bandMargins q.1 q.2.strength)).foldl min 1023

/-- A candidate (R54 to R56). -/
structure Candidate where
  index : Nat
  entry : ClassEntry
  strip : Nat
  score : Nat
  centre : Nat
  presentation : Option Presentation
  deriving DecidableEq, Repr

/-- R54: the candidates of a table, class by class. -/
def candidates (n : Nat) (entries : List ClassEntry) (figs : List (List Figure)) : List Candidate :=
  (entries.zipIdx 1).flatMap (fun k =>
    (figs.zipIdx).filterMap (fun q =>
      if isCandidate k.1 q.1 then
        let c := candidateCentre k.1 q.1
        some { index := k.2, entry := k.1, strip := q.2, score := candidateScore k.1 q.1, centre := c,
               presentation := presentationOf n q.2 c }
      else none))

/-- R57: one ranked candidate stands before another. -/
def standsBefore (a b : Candidate) : Bool :=
  if a.entry.priority ≠ b.entry.priority then b.entry.priority < a.entry.priority
  else if a.score ≠ b.score then b.score < a.score
  else if a.index ≠ b.index then a.index < b.index
  else a.strip < b.strip

/-- R57: the best candidate. -/
def bestCandidate : List Candidate → Option Candidate
  | [] => none
  | c :: r => match bestCandidate r with
    | none => some c
    | some d => if standsBefore d c then some d else some c

/-- R58: a rival of the best candidate. -/
def isRival (margin : Nat) (best c : Candidate) : Bool :=
  c.presentation != best.presentation && c.entry.priority == best.entry.priority &&
    decide (best.score ≤ c.score + margin)

/-- R60: the strip detail. -/
def stripDetail (fs : List Figure) : StripDetail :=
  let top := (fs.map (fun f => f.strength)).foldl max 0
  let band := firstIndex top (fs.map (fun f => f.strength))
  { strength := top, band := band, centre := (fs.map (fun f => f.centre)).getD band 0 }

def detailOf (figs : List (List Figure)) : List StripDetail := figs.map stripDetail

/-- R59: what a FACED verdict carries. -/
def facedInfo (generation : Nat) (c : Candidate) (p : Presentation) : FacedInfo :=
  { presentation := p, classIndex := c.index, label := c.entry.label, score := c.score, markCentre := c.centre,
    generation := generation, style := c.entry.style, pocketPrimary := c.entry.pocketPrimary,
    pocketAlternate := c.entry.pocketAlternate }

/-- R57 to R59: the verdict of figures against a table, without detail. -/
def judge (t : ClassTable) (n : Nat) (figs : List (List Figure)) : Verdict :=
  let cs := candidates n t.entries figs
  let ranked := cs.filter (fun c => c.presentation.isSome)
  match bestCandidate ranked with
  | none => { kind := if cs.isEmpty then .noMark else .offCorner, faced := none, detail := none }
  | some b =>
    if ranked.any (isRival t.margin b) then { kind := .ambiguous, faced := none, detail := none }
    else { kind := .faced, faced := b.presentation.map (facedInfo t.generation b), detail := none }

/-- R60: a verdict with the job's detail when its setting is on. -/
def withDetail (on : Bool) (figs : List (List Figure)) (v : Verdict) : Verdict :=
  if on then { v with detail := some (detailOf figs) } else v

/-! ### The class audit -/

/-- R62: the figures of the ideal letter of a class. -/
def auditFigures (k : ClassEntry) : List (List Figure) :=
  let blank := [⟨0, 20⟩, ⟨0, 20⟩, ⟨0, 20⟩]
  [k.bands.map (fun b => ⟨(b.lo + b.hi) / 2, 20⟩), blank, blank, blank]

/-- R62: the class that the verdict of the synthetic letter names, none where it is not FACED. -/
def auditWinner (t : ClassTable) (k : ClassEntry) : Option Nat :=
  (judge t 240 (auditFigures k)).faced.map (fun i => i.classIndex)

/-! ### The REFERENCE test -/

def builtInClass (ph fl ct : Bounds) (d priority : Nat) : ClassEntry :=
  { enabled := true, label := 0, bands := [ph, fl, ct], tolerance := d, priority := priority, style := 0,
    pocketPrimary := 1, pocketAlternate := 0 }

/-- R168: the built-in class set. -/
def builtInTable : ClassTable :=
  { generation := 0, window := 24, margin := 32, entries :=
    [builtInClass ⟨300, 1023⟩ ⟨0, 200⟩ ⟨150, 1023⟩ 6 8, builtInClass ⟨0, 150⟩ ⟨300, 1023⟩ ⟨100, 1023⟩ 8 6,
     builtInClass ⟨0, 100⟩ ⟨0, 100⟩ ⟨400, 1023⟩ 0 4, builtInClass ⟨0, 100⟩ ⟨0, 100⟩ ⟨200, 399⟩ 0 2] }

/-- R168: the marks of an item: for each strip, where its mark begins and the band strengths, none for no mark. -/
def itemMarks : Nat → List (Option (Nat × List Nat))
  | 1 => [some (20, [500, 50, 350]), none, none, none]
  | 2 => [none, some (190, [500, 50, 350]), none, none]
  | 3 => [none, none, some (190, [500, 50, 350]), none]
  | 4 => [none, none, none, some (20, [500, 50, 350])]
  | 6 => [some (190, [500, 50, 350]), none, none, none]
  | 7 => [some (20, [500, 50, 350]), none, some (190, [500, 50, 350]), none]
  | 8 => [some (20, [60, 600, 300]), none, none, none]
  | _ => [none, none, none, none]

/-- R168: the level of one strip and band of an item at a sample index. -/
def itemLevel (item strip band i : Nat) : Nat :=
  match (itemMarks item).getD strip none with
  | none => 40
  | some (start, ms) => if start ≤ i ∧ i < start + 24 then 40 + ms.getD band 0 else 40

/-- R168: the nominal figures of an item. -/
def nominalFigures (item : Nat) : List (List Figure) :=
  (itemMarks item).map (fun m => match m with
    | none => [⟨0, 12⟩, ⟨0, 12⟩, ⟨0, 12⟩]
    | some (start, ms) => ms.map (fun x => ⟨x, start + 12⟩))

/-- R168: the expected verdict of an item: its kind and, for FACED, presentation, class and score. -/
def expectedVerdict : Nat → VerdictKind × Option (Presentation × Nat × Nat)
  | 1 => (.faced, some (.a, 1, 150))
  | 2 => (.faced, some (.b, 1, 150))
  | 3 => (.faced, some (.c, 1, 150))
  | 4 => (.faced, some (.d, 1, 150))
  | 5 => (.noMark, none)
  | 6 => (.offCorner, none)
  | 7 => (.ambiguous, none)
  | _ => (.faced, some (.a, 2, 90))

/-- Two numbers lie within a distance of one another. -/
def within (d a b : Nat) : Bool := a ≤ b + d && b ≤ a + d

/-- R169, R168: a verdict is the expected one, its score within a distance. -/
def verdictExpected (d item : Nat) (v : Verdict) : Bool :=
  let x := expectedVerdict item
  v.kind == x.1 && (match x.2, v.faced with
    | none, _ => true
    | some _, none => false
    | some (p, k, score), some i => i.presentation == p && i.classIndex == k && within d i.score score)

/-- R169: the strengths of every strip are those of the item, within 24. -/
def strengthsExpected (item : Nat) (figs : List (List Figure)) : Bool :=
  (figs.zip (itemMarks item)).all (fun q => match q.2 with
    | none => q.1.all (fun f => f.strength ≤ 24)
    | some (_, ms) => (q.1.zip ms).all (fun r => within 24 r.1.strength r.2))

/-- R169: step 10 scores the nominal figures exactly. -/
def consistencyPasses : Bool :=
  (List.range 8).all (fun i => verdictExpected 0 (i + 1) (judge builtInTable 240 (nominalFigures (i + 1))))

end Sys2Proof.Machine
end

