-- ==== Sys2Proof/Machine/Tracking.lean ====
section
/-! DEFINITION. The end of an entry (R23), purges (R24), jams and the jam stop (R22, R135), and the scorer queue: posting,
taking and returning of jobs (R41 to R44). -/

namespace Sys2Proof.Machine

/-! ### The end of an entry -/

/-- R23, R24: QUEUE_FULL leaves the set when 28 or fewer entries are left. -/
def queueFullTest (l : LaneId) (s : State) : State :=
  if (s.track.get l).queue.length ≤ 28 then setHold l .queueFull false s else s

/-- R23: the entry with its outcome and stage FINAL, as its item record takes it. -/
def finalEntry (e : Entry) (o : ItemOutcome) : Entry := { e with outcome := some o, stage := .final }

/-- R23: the entry leaves the queue with its outcome, is counted, and its item record is made (R141, R153). -/
def leaveQueue (l : LaneId) (serial : Nat) (o : ItemOutcome) (s : State) : State :=
  match findEntry l serial s with
  | none => s
  | some e =>
    let s1 := discardTrace l serial
      (updTrack l (fun t => { t with queue := t.queue.filter (fun x => x.serial != serial) }) s)
    queueFullTest l (placeRecord (.item l s.clock.ms (finalEntry e o)) (countUp l (.outcome o) s1))

/-- R23, R131: a finalisation SORTED, ENDED or LOST, and the drain test. -/
def finalise (l : LaneId) (serial : Nat) (o : ItemOutcome) (s : State) : State :=
  match findEntry l serial s with
  | none => s
  | some e => drainTest l (leaveQueue l serial o (if o = .lost then dropItem l e s else s))

/-- R23, R24: one entry is purged. -/
def purgeEntry (l : LaneId) (e : Entry) (s : State) : State :=
  leaveQueue l e.serial .purged
    (releaseReservation l e.serial (withdrawPrint l e.serial (purgeWindows l e s)))

/-- R24: every entry is purged, oldest first; the jam counts go to 0, QUEUE_FULL is cleared and the last trailing edge
is forgotten. -/
def purge (l : LaneId) (s : State) : State :=
  let s1 := (s.track.get l).queue.foldl (fun s e => purgeEntry l e s) s
  setHold l .queueFull false
    (updTrack l (fun t => { t with lastTrail := none, cancelJam := ⟨0, 0⟩, endJam := ⟨0, 0⟩ }) s1)

/-- R45: the waiting jobs of a lane leave the scorer queue; the job being scored stays. -/
def removeJobs (l : LaneId) (s : State) : State :=
  updMsc (fun m =>
    { m with jobs := if m.scoring.isSome then m.jobs.take 1 ++ (m.jobs.drop 1).filter (fun j => j.lane != l)
                     else m.jobs.filter (fun j => j.lane != l) }) s

/-- What CLEAR and ABORT have in common (R24, R45, R81, R106, R120, R22). -/
def purgeLane (l : LaneId) (s : State) : State := clearPrints l (gatesClear l (removeJobs l (purge l s)))

/-! ### Jams -/

/-- R33, R128: the lane leaves the state in which a long calibration was requested; warming steps and warming requests
end. -/
def dropWarming (l : LaneId) (s : State) : State :=
  let drop := fun h => updHead l h (fun d => { d with warmRequest := false })
  drop .far (drop .near (updSfe l (fun f => { f with longRequest := none, longRun := none })
    (updLsq l (fun q => { q with lampWarm := none, warmStep := none, idle := 0 }) s)))

/-- R135: the lane enters STOPPED. -/
def stopLane (l : LaneId) (s : State) : State :=
  let old := laneMode l s
  let s1 := clipPrint l .far (clipPrint l .near (gatesOff l (setLane l .stopped s)))
  let s2 := dropWarming l (endPending l .refused .jammed none s1)
  let s3 := endLaneTest l .abortedByItem .jam s2
  laneEvent l old .stopped .jam (raise .jam s3)

/-- R22: a jam is declared at an eye: cause 0 BLOCKED, 1 LOSSES. -/
def jam (l : LaneId) (y : Eye) (cause : Nat) (s : State) : State :=
  let s1 := emit .jam (some l) (eyeCode y).val 0 cause 0 s
  if delivers (laneMode l s1) then stopLane l s1 else s1

/-- R22: the jam count of a cancel eye or an end eye. -/
inductive JamEye where
  | cancel (h : Side)
  | pathEnd (h : Side)
  deriving DecidableEq, Repr

def jamEyeOf : JamEye → Eye
  | .cancel h => cancelEyeOf h
  | .pathEnd h => endEyeOf h

def jamCount (l : LaneId) (j : JamEye) (s : State) : Nat :=
  match j with
  | .cancel h => (s.track.get l).cancelJam.get h
  | .pathEnd h => (s.track.get l).endJam.get h

def updJam (l : LaneId) (j : JamEye) (f : Nat → Nat) (s : State) : State :=
  updTrack l (fun t => match j with
    | .cancel h => { t with cancelJam := t.cancelJam.upd h f }
    | .pathEnd h => { t with endJam := t.endJam.upd h f }) s

/-- R22: a loss at an eye; the count reaching jamThreshold declares a jam. -/
def countLoss (l : LaneId) (j : JamEye) (s : State) : State :=
  let s1 := updJam l j (fun n => min (n + 1) 7) s
  if (geometry l s1).jamThreshold ≤ jamCount l j s1 then jam l (jamEyeOf j) 1 s1 else s1

/-- R19, R21: an entry is LOST at an eye. -/
def loseEntry (l : LaneId) (serial : Nat) (j : JamEye) (s : State) : State :=
  let s1 := finalise l serial .lost s
  countLoss l j (blockEvent l .tracking (emit .lost (some l) (eyeCode (jamEyeOf j)).val serial 0 0 s1))

/-! ### The scorer queue -/

/-- R44, R160: a verdict the scorer returns is reported for TIMELINESS. -/
def reportVerdict (l : LaneId) (k : VerdictKind) (s : State) : State :=
  countBlock l .timeliness (if k = .late then blockEvent l .timeliness s else s)

/-- R44: a verdict is returned to the Lane Tracking Unit, which records and delivers it (R13, R14), and is then reported
(log entry 80). -/
def returnVerdict (l : LaneId) (serial : Nat) (v : Verdict) (s : State) : State :=
  reportVerdict l v.kind (deliverAll l (giveVerdict l serial v s))

/-- R42: the deadline of a job. -/
def jobDeadline (l : LaneId) (e : Entry) (s : State) : Pos :=
  let g := geometry l s
  posSub (posAdd e.leadE g.flipGatePos) (toCounts l (gateTimes l .flip s).lead s + g.decisionGuard)

/-- R43: jobs are taken, oldest first, until one begins scoring: a job whose deadline is behind is returned LATE. -/
def takeJobs : Nat → State → State
  | 0, s => s
  | n + 1, s =>
    match s.msc.jobs, s.msc.scoring, s.msc.current with
    | j :: rest, none, some t =>
      if behind j.deadline (counter j.lane s) then
        takeJobs n (returnVerdict j.lane j.serial (plainVerdict .late)
          (updMsc (fun m => { m with jobs := rest }) s))
      else updMsc (fun m => { m with scoring := some t }) s
    | _, _, _ => s

/-- R43: the scorer takes a job when it has none in progress. -/
def takeJob (s : State) : State := takeJobs (s.msc.jobs.length) s

/-- R41, R63: the posting of a job: LATE at once when the queue holds eight; else it joins the tail, idle work is
suspended and the scorer takes a job. -/
def postJob (l : LaneId) (e : Entry) (trace : List (List Nat)) (s : State) : State :=
  if s.msc.jobs.length < 8 then
    takeJob (updMsc (fun m =>
      { m with
        jobs := m.jobs ++ [{ lane := l, serial := e.serial, length := e.length.getD 0, trace := trace,
                             deadline := jobDeadline l e s, detail := (geometry l s).journalDetail }],
        idleRunning := false }) s)
  else returnVerdict l e.serial (plainVerdict .late) s

/-- R44, R59, R60: the verdict of a completed job. -/
def jobVerdict (j : Job) (t : ClassTable) (s : State) : Verdict :=
  let figs := traceFigures t.window j.trace
  withDetail j.detail figs
    (if behind j.deadline (counter j.lane s) then plainVerdict .late else judge t j.length figs)

/-- R44: SCORING_COMPLETE. -/
def completeJob (s : State) : State :=
  match s.msc.jobs, s.msc.scoring with
  | j :: rest, some t =>
    takeJob (returnVerdict j.lane j.serial (jobVerdict j t s)
      (updMsc (fun m => { m with jobs := rest, scoring := none }) s))
  | _, _ => s

def execScoringComplete (s : State) : Host.Outcome State Fault Refusal :=
  event (s.msc.scoring.isSome && !s.msc.jobs.isEmpty) completeJob s

end Sys2Proof.Machine
end

