-- ==== Sys2Proof/Machine/Scan.lean ====
section
/-! DEFINITION. The Scan Front End: calibrated values (R27), the quiet aperture (R30), samples (R26, R28), long and short
calibrations (R29, R31 to R36), the calibration timer and the gap hold (R34, R37). -/

namespace Sys2Proof.Machine

/-- R27: the calibrated value of a raw reading. -/
def calibrated (p : CalPair) (r : Nat) : Nat :=
  (max 0 (min 1023 ((((r : Int) - (p.offset : Int)) * (p.gain : Int)).tdiv 256))).toNat

/-- The twelve calibrated values of one sample, in channel order. -/
def calibrateAll (pairs : List CalPair) (readings : List (BitVec 12)) : List Nat :=
  (pairs.zip readings).map (fun q => calibrated q.1 q.2.toNat)

/-! ### The quiet aperture -/

/-- R30: the near point of the last lead and the clear point of the last trail, by the scanPos of the geometry that is
current at the comparison (log entry 89). -/
def nearPoint (l : LaneId) (m : EdgeMark) (s : State) : Pos := posSub (posAdd m.pos (geometry l s).scanPos) 16
def clearPoint (l : LaneId) (m : EdgeMark) (s : State) : Pos := posAdd m.pos (geometry l s).scanPos

/-- R30: a point that stands in no way: reached, or of no record. -/
def markPassed (m : Option EdgeMark) : Bool :=
  match m with
  | none => true
  | some k => k.reached

/-- R30: the aperture is quiet. -/
def quiet (l : LaneId) (s : State) : Bool :=
  !(eyeState l .e s).dark && markPassed (s.sfe.get l).lastTrail && markPassed (s.sfe.get l).lastLead

def calAbandoned (l : LaneId) (kind : Nat) (s : State) : State := emit .calAbandoned (some l) noSubject 0 kind 0 s

/-- R33, R36: a letter comes near: a running long calibration is abandoned with its request kept, a running short one
with due set. -/
def comeNear (l : LaneId) (s : State) : State :=
  let f := s.sfe.get l
  let s1 := if f.longRun.isSome then calAbandoned l 0 (updSfe l (fun f => { f with longRun := none }) s) else s
  if f.shortRun.isSome then calAbandoned l 1 (updSfe l (fun f => { f with shortRun := none }) s1) else s1

/-- R30: NEAR_POINT_REACHED. A leading edge whose record a later one has replaced has no near point any more: it is the
last lead that comes near (log entry 66). -/
def execNearPointReached (l : LaneId) (s : State) : Host.Outcome State Fault Refusal :=
  match (s.sfe.get l).lastLead with
  | none => .next s
  | some m =>
    event (!m.reached && isNow (nearPoint l m s) (counter l s)) (fun s =>
      comeNear l (updSfe l (fun f => { f with lastLead := some { m with reached := true } }) s)) s

/-- R30: CLEAR_POINT_REACHED. -/
def execClearPointReached (l : LaneId) (s : State) : Host.Outcome State Fault Refusal :=
  match (s.sfe.get l).lastTrail with
  | none => .next s
  | some m =>
    event (!m.reached && isNow (clearPoint l m s) (counter l s))
      (updSfe l (fun f => { f with lastTrail := some { m with reached := true } })) s

/-! ### Samples -/

def traceOf (l : LaneId) (serial : Nat) (s : State) : List (List Nat) :=
  match (s.sfe.get l).traces.find? (fun t => t.serial == serial) with
  | none => []
  | some t => t.samples

/-- R28: the sample an entry waits for is one of those that are taken: 0 to N − 1, and up to 291 while N is not known. -/
def sampleWanted (length : Option Nat) (i : Nat) : Bool :=
  match length with
  | none => i ≤ 291
  | some n => i < n && i ≤ 291

/-- R26, R28: the target of the sample an entry waits for is reached. -/
def sampleDue (l : LaneId) (e : Entry) (s : State) : Bool :=
  let i := (traceOf l e.serial s).length
  (e.stage == .entering || e.stage == .scanning) && moves l s && sampleWanted e.length i &&
    isNow (posAdd e.scanStart (4 * i)) (counter l s)

/-- R26: a sample is appended to the entry's trace, which the first one opens (R25). -/
def addSample (l : LaneId) (serial : Nat) (row : List Nat) (s : State) : State :=
  updSfe l (fun f =>
    { f with traces :=
        if f.traces.any (fun t => t.serial == serial) then
          f.traces.map (fun t => if t.serial = serial then { t with samples := t.samples ++ [row] } else t)
        else f.traces ++ [{ serial := serial, samples := [row] }] }) s

/-- Twelve free values in the range of a calibrated sample. -/
def freeRow (n : Nat) : List Nat := (List.range 12).map (fun i => (Config.freeValue (n + i)).toNat % 1024)

/-- R13, R38: the target of a sample is passed in reference mode, in which none can be taken: the entry's stage moves, and
the trace holds free values at the sample's place (log entry 55). -/
def missSample (l : LaneId) (e : Entry) (s : State) : State :=
  addSample l e.serial (freeRow s.freeCount)
    (updEntry l e.serial (fun x => { x with stage := .scanning }) { s with freeCount := s.freeCount + 12 })

/-- R13, R26, R28, R41: SAMPLE_TAKEN. Sample 0 moves the entry to SCANNING; the last one hands the trace on. -/
def keepSample (l : LaneId) (e : Entry) (readings : List (BitVec 12)) (s : State) : State :=
  let s1 := addSample l e.serial (calibrateAll (s.sfe.get l).pairs readings)
    (updEntry l e.serial (fun x => { x with stage := .scanning }) s)
  let t := traceOf l e.serial s1
  if e.length = some t.length then
    postJob l e t (discardTrace l e.serial (updEntry l e.serial (fun x => { x with stage := .queued }) s1))
  else s1

/-- The reaching of a sample's target (R26, R38). -/
def takeSample (l : LaneId) (e : Entry) (readings : List (BitVec 12)) (s : State) : State :=
  if (s.sfe.get l).refMode then missSample l e s else keepSample l e readings s

def execSampleTaken (l : LaneId) (serial : Nat) (readings : List (BitVec 12)) (s : State) :
    Host.Outcome State Fault Refusal :=
  if readingsOk readings then
    match findEntry l serial s with
    | none => .next s
    | some e => event (sampleDue l e s) (takeSample l e readings) s
  else .refused .operandOutOfRange

/-! ### Calibration values -/

/-- R31: the mean of 64 readings, rounded down. -/
def meanOf (xs : List (BitVec 12)) : Nat := (xs.map (fun x => x.toNat)).sum / 64

/-- R32: a gain is clamped for these differences. -/
def gainClamped (d : Int) : Bool := d ≤ 200 || 3200 < d

/-- R32: the new gain from d. -/
def gainOf (d : Int) : Nat := if d ≤ 200 then 1023 else if 3200 < d then 64 else 204800 / d.toNat

/-- R31, R32: the target pair of a channel from its dark and reference means. -/
def targetPair (m : CalMeans) : CalPair :=
  { offset := m.dark, gain := gainOf ((m.reference : Int) - (m.dark : Int)) }

def meansOf (dark reference : List (List (BitVec 12))) : List CalMeans :=
  (dark.zip reference).map (fun q => { dark := meanOf q.1, reference := meanOf q.2 })

/-- R35: a step of at most a limit toward a target. -/
def stepToward (limit old target : Nat) : Nat := min (max target (old - limit)) (old + limit)

/-- R35: the new pair of a channel of a short calibration. -/
def steppedPair (old target : CalPair) : CalPair :=
  { offset := stepToward 16 old.offset target.offset, gain := stepToward 32 old.gain target.gain }

def clampedCount (ms : List CalMeans) : Nat :=
  (ms.filter (fun m => gainClamped ((m.reference : Int) - (m.dark : Int)))).length

/-- R34: a completed calibration restarts the timer, clears due and the age (and, with due, a wake mark). -/
def calFinished (l : LaneId) (s : State) : State :=
  let period := (geometry l s).calInterval
  updSfe l (fun f =>
    { f with calTicks := 0, calPeriod := period, due := false, dueAge := 0, wakeMark := false, gapHold := none }) s

/-- R29, R34, R37, R124: the completion of a calibration: the new pairs, CAL_DONE, CAL_CLAMPED, LAMP_RESERVE and
CAL_CURRENCY, GAP_CAL out, and WAKE out when it was the wake calibration. -/
def finishCalibration (l : LaneId) (kind : Nat) (pairs : List CalPair) (clamped : Nat) (s : State) : State :=
  let wake := (s.sfe.get l).wakeMark
  let s1 := emit .calDone (some l) noSubject 0 kind 0 (updSfe l (fun f => { f with pairs := pairs }) s)
  let s2 := if clamped = 0 then s1 else emit .calClamped (some l) noSubject 0 clamped 0 s1
  let g : Nat := (pairs.map (fun p => p.gain)).foldl max 0
  let s3 := evaluate l .lampReserve g (lampReserveValue g) s2
  let s4 := setHold l .gapCal false (evaluate l .calCurrency 0 (calCurrencyValue 0) (calFinished l s3))
  if wake then setHold l .wake false s4 else s4

/-! ### Long calibration -/

/-- R31: LONG_CAL_START. -/
def execLongCalStart (l : LaneId) (s : State) : Host.Outcome State Fault Refusal :=
  let f := s.sfe.get l
  event (f.longRequest.isSome && f.longRun.isNone && f.shortRun.isNone && quiet l s)
    (updSfe l (fun f => { f with longRun := some 0 })) s

/-- R31: the requester of a long calibration is told that it has completed (R127, R170). -/
def tellRequester (l : LaneId) (r : Option CalRequester) (clamped : Nat) (s : State) : State :=
  match r with
  | none => s
  | some .warming => if laneMode l s = .warming then warmHeads l s else s
  | some .selfTest => endLaneTest l (if clamped = 0 then .pass else .failFrontEnd) .ownCourse s

/-- R29, R31, R32: LONG_CAL_COMPLETE, 200 ms after the start. -/
def completeLongCal (l : LaneId) (dark reference : List (List (BitVec 12))) (s : State) : State :=
  let ms := meansOf dark reference
  let r := (s.sfe.get l).longRequest
  let s1 := updSfe l (fun f => { f with longRequest := none, longRun := none, lastLong := some ms }) s
  tellRequester l r (clampedCount ms) (finishCalibration l 0 (ms.map targetPair) (clampedCount ms) s1)

def execLongCalComplete (l : LaneId) (dark reference : List (List (BitVec 12))) (s : State) :
    Host.Outcome State Fault Refusal :=
  eventWithin (measureOk dark && measureOk reference) (match (s.sfe.get l).longRun with
    | none => false
    | some t => longCalTicks ≤ t) (completeLongCal l dark reference) s

/-! ### Short calibration -/

/-- R35: the conditions under which a short calibration starts. -/
def shortMayStart (l : LaneId) (s : State) : Bool :=
  let f := s.sfe.get l
  f.due && (s.lsq.get l).lamp == .on && laneMode l s != .warming && laneMode l s != .testing && f.longRun.isNone &&
    f.shortRun.isNone && quiet l s

/-- R35: SHORT_CAL_START. -/
def execShortCalStart (l : LaneId) (s : State) : Host.Outcome State Fault Refusal :=
  event (shortMayStart l s) (updSfe l (fun f => { f with shortRun := some 0 })) s

/-- R35: SHORT_CAL_COMPLETE, 8 ms after the start. -/
def completeShortCal (l : LaneId) (dark reference : List (List (BitVec 12))) (s : State) : State :=
  let ms := meansOf dark reference
  let pairs := ((s.sfe.get l).pairs.zip ms).map (fun q => steppedPair q.1 (targetPair q.2))
  finishCalibration l 1 pairs (clampedCount ms) (updSfe l (fun f => { f with shortRun := none }) s)

def execShortCalComplete (l : LaneId) (dark reference : List (List (BitVec 12))) (s : State) :
    Host.Outcome State Fault Refusal :=
  eventWithin (measureOk dark && measureOk reference) (match (s.sfe.get l).shortRun with
    | none => false
    | some t => shortCalTicks ≤ t) (completeShortCal l dark reference) s

/-! ### The calibration timer -/

/-- R34: the calibration timer counts. -/
def calCounts (l : LaneId) (s : State) : Bool := laneMode l s == .running && (s.lsq.get l).lamp == .on

/-- R37: an age of 4 or more raises GAP_CAL, unless it is in the set. -/
def gapCalTest (l : LaneId) (s : State) : State :=
  if 4 ≤ (s.sfe.get l).dueAge ∧ holdSet l .gapCal s = false then
    setHold l .gapCal true (updSfe l (fun f => { f with gapHold := some 0 }) s)
  else s

/-- R34: an expiry of the calibration timer. -/
def calExpiry (l : LaneId) (s : State) : State :=
  let period := (geometry l s).calInterval
  let s1 := updSfe l (fun f =>
    { f with calTicks := 0, calPeriod := period, due := true,
             dueAge := if f.due then min (f.dueAge + 1) 255 else f.dueAge }) s
  let a := (s1.sfe.get l).dueAge
  gapCalTest l (evaluate l .calCurrency a (calCurrencyValue a) s1)

/-- R34: CAL_INTERVAL_EXPIRY. -/
def execCalIntervalExpiry (l : LaneId) (s : State) : Host.Outcome State Fault Refusal :=
  let f := s.sfe.get l
  event (calCounts l s && decide (ticksPerSecond * f.calPeriod ≤ f.calTicks)) (calExpiry l) s

/-- R37: GAP_CAL_HOLD_EXPIRY, 250 ms after GAP_CAL was raised. -/
def execGapCalHoldExpiry (l : LaneId) (s : State) : Host.Outcome State Fault Refusal :=
  event (match (s.sfe.get l).gapHold with
    | none => false
    | some t => 5000 ≤ t)
    (fun s => setHold l .gapCal false (updSfe l (fun f => { f with gapHold := none }) s)) s

/-- R34, R36, R39, R137: what lane ABORT does to the Scan Front End. -/
def abortScan (l : LaneId) (s : State) : State :=
  let period := (geometry l s).calInterval
  setHold l .gapCal false (updSfe l (fun f =>
    { f with
      longRequest := none, longRun := none, shortRun := none, calTicks := 0, calPeriod := period, due := false,
      dueAge := 0, wakeMark := false, gapHold := none, refMode := false, refRequest := none }) s)

end Sys2Proof.Machine
end

