-- ==== Sys2Proof/Machine/Belt.lean ====
section
/-! DEFINITION. The rows of the Lane Tracking Unit: the belt (R1, R3), the eyes' edges (R6, R7, R10 to R12, R16, R18, R20)
and the position events of entries (R14, R17, R19, R21, R95). -/

namespace Sys2Proof.Machine

/-! ### The belt -/

/-- R1, R3, R7, R16: one encoder count: the counter, the interval count, the dark accumulations, which are held where
edges are not delivered, and the entries whose flip position the counter reaches. -/
def countBelt (l : LaneId) (forward : Bool) (s : State) : State :=
  let live := forward && delivers (laneMode l s)
  let s1 := updBelt l (fun b =>
    if forward then
      { b with
        counter := b.counter + 1, fwd := b.fwd + 1, live := if live then b.live + 1 else b.live,
        intervalCount := b.intervalCount + 1 }
    else { b with counter := b.counter - 1 }) s
  let s2 := if live then
      allEyes.foldl (fun s y => updEye l y (fun q => if q.dark then { q with darkCount := q.darkCount + 1 } else q) s) s1
    else s1
  if moves l s2 then
    let now := counter l s2
    let flipAt := (geometry l s2).flipGatePos
    updTrack l (fun t => { t with queue := t.queue.map (fun e =>
      if isNow (posAdd e.leadE flipAt) now then { e with flipReached := true } else e) }) s2
  else s2

/-- R1: ENCODER_COUNT. -/
def execEncoderCount (l : LaneId) (forward : Bool) (s : State) : Host.Outcome State Fault Refusal :=
  event true (countBelt l forward) s

/-- R3: SPEED_INTERVAL, at each 8 ms interval end. -/
def execSpeedInterval (l : LaneId) (s : State) : Host.Outcome State Fault Refusal :=
  event (160 ≤ (s.belt.get l).intervalTicks) (updBelt l (fun b =>
    let v := b.intervals.drop 1 ++ [b.intervalCount]
    { b with intervals := v, intervalCount := 0, intervalTicks := b.intervalTicks - 160, speed := min v.sum 4095 })) s

/-! ### The entry eye -/

/-- R10: the gap in counts, none when no trailing edge has been delivered since the last reset, CLEAR or ABORT. -/
def gapCounts (l : LaneId) (fwdAt : Nat) (s : State) : Option Nat :=
  (s.track.get l).lastTrail.map (fun t => min (fwdAt - t) 262140)

/-- R9, R10: a new entry. -/
def newEntry (serial : Nat) (lead scanStart : Pos) (gapBefore : Nat) : Entry :=
  { serial := serial, leadE := lead, scanStart := scanStart, trailE := none, length := none, gapBefore := gapBefore,
    stage := .entering, verdict := none, delivered := false, plan := none, seenAtT := false, cancelEye := none,
    misflipSuspect := false, printResult := none, pocketSeen := none, reroute := none, outcome := none,
    flipReached := false, cancelPassed := ⟨false, false⟩ }

/-- R10: SHINGLED for the previous newest entry and the new one when the gap is below minGap, then NOT_SCANNED when the
lamps are not ON; the first verdict given stands (R13). -/
def creationVerdicts (l : LaneId) (serial : Nat) (previous : Option Nat) (gap : Option Nat) (s : State) : State :=
  let shingled := match gap with
    | none => false
    | some g => g < (geometry l s).minGap
  let s1 := if shingled then
      giveVerdict l serial (plainVerdict .shingled) (match previous with
        | none => s
        | some p => giveVerdict l p (plainVerdict .shingled) s)
    else s
  if (s.lsq.get l).lamp = .on then s1 else giveVerdict l serial (plainVerdict .notScanned) s1

/-- R10: ENTRY_CREATION. TRACKING's block is counted before the verdicts of the creation (log entry 78). -/
def createEntry (l : LaneId) (lead : BeltSample) (s : State) : State :=
  let t := s.track.get l
  let serial := t.lastSerial + 1
  let gap := gapCounts l lead.fwd s
  let e := newEntry serial lead.pos (posAdd lead.pos (geometry l s).scanPos) (match gap with
    | none => 65535
    | some g => g / 4)
  let s1 := updTrack l (fun t => { t with queue := t.queue ++ [e], lastSerial := serial }) s
  let s2 := countBlock l .tracking (countUp l .entered s1)
  deliverAll l (creationVerdicts l serial (t.queue.getLast?.map (fun x => x.serial)) gap s2)

/-- R11: UNTRACKED_ARRIVAL. -/
def untrackedArrival (l : LaneId) (p : Pos) (s : State) : State :=
  setHold l .queueFull true
    (emit .untracked (some l) (eyeCode .e).val 0 p.toNat 0 (countUp l .untracked s))

/-- R8, R10, R11, R39: a leading edge delivered at E. The records of the arrival stand before those of the test it ends
(log entry 78). -/
def entryArrival (l : LaneId) (c : BeltSample) (s : State) : State :=
  let t := s.track.get l
  let s1 := if t.queue.length < 32 ∧ t.lastSerial < 4294967295 then createEntry l c s else untrackedArrival l c.pos s
  if (s1.sfe.get l).refMode then endLaneTest l .abortedByItem .ownCourse s1 else s1

/-- R10: E_LEADING_EDGE. The Scan Front End's record is made in every lane state (R30). -/
def execELeadingEdge (l : LaneId) (held : Nat) (s : State) : Host.Outcome State Fault Refusal :=
  event (edgeComes l .e true held s) (fun s =>
    let c := capturedSample l s
    let s1 := updSfe l (fun f => { f with lastLead := some ⟨c.pos, false⟩ }) (acceptEdge l .e true s)
    if delivers (laneMode l s1) then entryArrival l c s1 else s1) s

/-- R12: the length check of the newest entry at its trailing edge. -/
def lengthCheck (l : LaneId) (e : Entry) (p : Pos) (s : State) : State :=
  let len := dist p e.leadE
  let s1 := updEntry l e.serial (fun x => { x with trailE := some p, length := some (len / 4) }) s
  if len < 508 then giveVerdict l e.serial (plainVerdict .short) s1
  else if 1168 < len then giveVerdict l e.serial (plainVerdict .long) s1
  else s1

/-- R12: a trailing edge delivered at E. -/
def entryDeparture (l : LaneId) (c : BeltSample) (s : State) : State :=
  let s1 := match (s.track.get l).queue.getLast? with
    | none => s
    | some e => if e.trailE.isSome then s else lengthCheck l e c.pos s
  deliverAll l (updTrack l (fun t => { t with lastTrail := some c.fwd }) s1)

/-- R12: E_TRAILING_EDGE. -/
def execETrailingEdge (l : LaneId) (held : Nat) (s : State) : Host.Outcome State Fault Refusal :=
  event (edgeComes l .e false held s) (fun s =>
    let c := capturedSample l s
    let s1 := updSfe l (fun f => { f with lastTrail := some ⟨c.pos, false⟩ }) (acceptEdge l .e false s)
    if delivers (laneMode l s1) then entryDeparture l c s1 else s1) s

/-- R5, R7: EYE_TRAILING_EDGE at any other eye: the accepted level follows and the measurement ends. -/
def execEyeTrailingEdge (l : LaneId) (y : Eye) (held : Nat) (s : State) : Host.Outcome State Fault Refusal :=
  eventWithin (y != .e) (edgeComes l y false held s) (acceptEdge l y false) s

/-- R7, R22: BLOCKED_EYE. -/
def execBlockedEye (l : LaneId) (y : Eye) (s : State) : Host.Outcome State Fault Refusal :=
  let q := eyeState l y s
  event (q.dark && decide (1753 ≤ q.darkCount) && delivers (laneMode l s) && !q.declared)
    (fun s => jam l y 0 (updEye l y (fun q => { q with declared := true }) s)) s

/-! ### Position events of entries -/

/-- The meaning of a position event of one entry: nothing when the entry has left the queue. -/
def entryEvent (l : LaneId) (serial : Nat) (comes : Entry → Bool) (body : Entry → State → State) (s : State) :
    Host.Outcome State Fault Refusal :=
  match findEntry l serial s with
  | none => .next s
  | some e => event (moves l s && comes e) (body e) s

/-- R12: LONG_TIMEOUT. -/
def execLongTimeout (l : LaneId) (serial : Nat) (s : State) : Host.Outcome State Fault Refusal :=
  entryEvent l serial (fun e => e.trailE.isNone && isNow (posAdd e.leadE 1169) (counter l s))
    (fun e s => deliverAll l (giveVerdict l e.serial (plainVerdict .long) s)) s

/-- R14: the forced delivery of one entry, and of those that waited behind it. -/
def forceDelivery (l : LaneId) (e : Entry) (s : State) : State :=
  let s1 := giveVerdict l e.serial (plainVerdict .late) s
  match findEntry l e.serial s1 with
  | none => s1
  | some x => match x.verdict with
    | none => s1
    | some v => deliverAll l (deliver l x v s1)

/-- R14: FORCED_DELIVERY. -/
def execForcedDelivery (l : LaneId) (serial : Nat) (s : State) : Host.Outcome State Fault Refusal :=
  entryEvent l serial (fun e => !e.delivered && isNow (posAdd e.leadE (geometry l s).flipGatePos) (counter l s))
    (forceDelivery l) s

/-- R14: BANK_POSITION_REACHED. -/
def execBankPositionReached (l : LaneId) (serial : Nat) (s : State) : Host.Outcome State Fault Refusal :=
  entryEvent l serial
    (fun e => e.stage == .planned && isNow (posAdd e.leadE (geometry l s).bankGatePos) (counter l s))
    (fun e => updEntry l e.serial (fun x => { x with stage := .onPath })) s

/-- R17: the plan of an entry has flip. -/
def planFlips (e : Entry) : Bool :=
  match e.plan with
  | none => false
  | some p => p.flip

/-- R17: T_WINDOW_PASSED. -/
def execTWindowPassed (l : LaneId) (serial : Nat) (s : State) : Host.Outcome State Fault Refusal :=
  entryEvent l serial (fun e => planFlips e && !e.seenAtT && eyeWindowPasses l .t e s)
    (fun e => updEntry l e.serial (fun x => { x with misflipSuspect := true })) s

/-- R2, R19, R95: CANCEL_WINDOW_PASSED. The print at this head of an item not matched at this eye is withdrawn. -/
def passCancelWindow (l : LaneId) (h : Side) (e : Entry) (s : State) : State :=
  let s1 := updEntry l e.serial (fun x => { x with cancelPassed := x.cancelPassed.upd h (fun _ => true) }) s
  if e.cancelEye.map (fun c => c.1) = some h then s1 else withdrawAt l h e.serial s1

def execCancelWindowPassed (l : LaneId) (serial : Nat) (h : Side) (s : State) : Host.Outcome State Fault Refusal :=
  entryEvent l serial (fun e => !e.cancelPassed.get h && eyeWindowPasses l (cancelEyeOf h) e s)
    (passCancelWindow l h) s

/-- R19: the bank of an entry's plan, whose eye a loss at the cancel eyes is counted at. -/
def planBank (e : Entry) : Side :=
  match e.plan with
  | none => .near
  | some p => p.bank

/-- R19: LOST_AT_CANCEL_EYE. -/
def execLostAtCancelEye (l : LaneId) (serial : Nat) (s : State) : Host.Outcome State Fault Refusal :=
  entryEvent l serial
    (fun e => e.delivered && e.cancelEye.isNone && e.cancelPassed.near && e.cancelPassed.far)
    (fun e => loseEntry l e.serial (.cancel (planBank e))) s

/-- R21: LOST_AT_END_EYE. -/
def execLostAtEndEye (l : LaneId) (serial : Nat) (s : State) : Host.Outcome State Fault Refusal :=
  entryEvent l serial (fun e => match e.cancelEye with
      | none => false
      | some c => e.pocketSeen.isNone && eyeWindowPasses l (endEyeOf c.1) e s)
    (fun e => loseEntry l e.serial (.pathEnd (match e.cancelEye with
      | none => .near
      | some c => c.1))) s

/-! ### Arrivals -/

/-- The meaning of an arrival: the edge is accepted, and delivered where the lane delivers (R6). -/
def arrivalEvent (l : LaneId) (y : Eye) (held : Nat) (body : Pos → State → State) (s : State) :
    Host.Outcome State Fault Refusal :=
  event (edgeComes l y true held s) (fun s =>
    let p := captured l s
    let s1 := acceptEdge l y true s
    if delivers (laneMode l s1) then body p s1 else s1) s

/-- R16: an arrival delivered at T. -/
def arriveT (l : LaneId) (p : Pos) (s : State) : State :=
  match matchEntry l .t p (fun e => e.flipReached && !e.seenAtT) s with
  | none => phantom l .t p s
  | some e =>
    let s1 := updEntry l e.serial (fun x => { x with seenAtT := true }) s
    if planFlips e then s1 else rerouteAtEye l e.serial .misflip .t s1

/-- R16: ARRIVAL_T. -/
def execArrivalT (l : LaneId) (held : Nat) (s : State) : Host.Outcome State Fault Refusal :=
  arrivalEvent l .t held (arriveT l) s

/-- R18: a MISBANK event written beside another cause. -/
def misbankEvent (l : LaneId) (y : Eye) (serial : Nat) (s : State) : State :=
  emit .misbank (some l) (eyeCode y).val serial 0 0 s

/-- R18: the checks of an entry matched at a cancel eye. -/
def checkBank (l : LaneId) (h : Side) (e : Entry) (s : State) : State :=
  let y := cancelEyeOf h
  let wrong := planBank e != h
  if e.misflipSuspect && e.reroute.isNone then
    let s1 := rerouteAtEye l e.serial .misflip y s
    if wrong then misbankEvent l y e.serial s1 else s1
  else if wrong then
    if e.reroute.isSome then misbankEvent l y e.serial s else rerouteAtEye l e.serial .misbank y s
  else s

/-- R18, R22: an arrival delivered at CN or CF. -/
def arriveCancel (l : LaneId) (h : Side) (p : Pos) (s : State) : State :=
  match matchEntry l (cancelEyeOf h) p (fun e => e.stage == .onPath && e.cancelEye.isNone) s with
  | none => phantom l (cancelEyeOf h) p s
  | some e =>
    let s1 := updJam l (.cancel h) (fun _ => 0) (updEntry l e.serial (fun x => { x with cancelEye := some (h, p) }) s)
    releasePrint l h e.serial p (checkBank l h e s1)

/-- R18: ARRIVAL_CANCEL_EYE. -/
def execArrivalCancelEye (l : LaneId) (h : Side) (held : Nat) (s : State) : Host.Outcome State Fault Refusal :=
  arrivalEvent l (cancelEyeOf h) held (arriveCancel l h) s

/-- R20: the expected pocket of an entry matched on a path. -/
def expectedPocket (e : Entry) (path : Side) : Pocket :=
  match e.plan with
  | none => endPocket path
  | some p =>
    let held := match pocketGate p.pocket with
      | none => false
      | some g => holdsWindow e g
    if held || p.pocket == endPocket path then p.pocket else endPocket path

/-- R22: a matched arrival at an end eye sets its jam count to 0. -/
def clearEndJam (l : LaneId) (q : Pocket) (s : State) : State :=
  if q.gated then s else updJam l (.pathEnd (pocketSide q)) (fun _ => 0) s

/-- R20: an arrival delivered at a pocket eye. -/
def arrivePocket (l : LaneId) (q : Pocket) (p : Pos) (s : State) : State :=
  let path := pocketSide q
  match matchEntry l (pocketEye q) p
      (fun e => e.cancelEye.map (fun c => c.1) == some path && e.pocketSeen.isNone) s with
  | none => phantom l (pocketEye q) p s
  | some e =>
    let s1 := clearEndJam l q (updEntry l e.serial (fun x => { x with pocketSeen := some q }) s)
    let s2 := countBlock l .pocketAccuracy s1
    let s3 := if e.reroute.isNone && expectedPocket e path != q then
        rerouteAtEye l e.serial .mispocket (pocketEye q) s2
      else s2
    finalise l e.serial (if q.gated then .sorted else .ended) (pocketArrival l q e.serial s3)

/-- R20: ARRIVAL_POCKET_EYE. -/
def execArrivalPocketEye (l : LaneId) (q : Pocket) (held : Nat) (s : State) : Host.Outcome State Fault Refusal :=
  arrivalEvent l (pocketEye q) held (arrivePocket l q) s

end Sys2Proof.Machine
end

