-- ==== Sys2Proof/Machine/Postmark.lean ====
section
/-! DEFINITION. The Postmark Composer: the date clock and cancel periods (R86), rolls and compositions (R88), generations
becoming current and dropped (R89). -/

namespace Sys2Proof.Machine

/-- R86: the length of a month in 2000..2099. -/
def monthLength (year month : Nat) : Nat :=
  match month with
  | 4 | 6 | 9 | 11 => 30
  | 2 => if year % 4 = 0 then 29 else 28
  | _ => 31

/-- R86: the period start of a seconds-of-day value, for P minutes. -/
def periodStartOf (p seconds : Nat) : Nat := seconds / (60 * p) * (60 * p)

/-- R86: the date one day on; after 2099-12-31 it is 2000-01-01. -/
def nextDay (year month day : Nat) : Nat × Nat × Nat :=
  if day < monthLength year month then (year, month, day + 1)
  else if month < 12 then (year, month + 1, 1)
  else if year < 2099 then (year + 1, 1, 1)
  else (2000, 1, 1)

/-- R88: the next generation number; 1 after 65,535. -/
def nextGeneration (n : Nat) : Nat := if n = 65535 then 1 else n + 1

/-- The FULL styles of the style set with their numbers (R88). -/
def fullStyles (s : State) : List (Nat × Style) :=
  ((s.pmc.styles.zipIdx 1).map (fun q => (q.2, q.1))).filter (fun q => q.2.kind == .full)

/-- Both slots of all four heads changed. -/
def allSlots (f : Fin 2 → Head → Head) (s : State) : State :=
  let one := fun l h => updHead l h (fun d => f 1 (f 0 d))
  one .lane1 .far (one .lane1 .near (one .lane0 .far (one .lane0 .near s)))

/-- R89, R99: each slot holding an image of a dropped generation is emptied. -/
def dropImages (n : Nat) (s : State) : State :=
  allSlots (fun i d => match (slotOf d i).key with
    | some (.full _ g) => if g = n then emptySlot i d else d
    | _ => d) s

/-- 11.5: the arguments of GEN_ROLL. The second one of an unset-clock generation is not stated: a free value. -/
def genRollEvent (g : Generation) (s : State) : State :=
  let a := g.number + 65536 * rollCauseCode g.cause + (if g.unset then 16777216 else 0)
  if g.unset then
    emit .genRoll none noSubject 0 a ((drawFree s).1.toNat % 4294967296) (drawFree s).2
  else
    emit .genRoll none noSubject 0 a
      ((g.year - 2000) + 128 * g.month + 2048 * g.day + 65536 * (g.periodStart / 60)) s

/-- R89: a generation becomes current. -/
def becomeCurrent (g : Generation) (s : State) : State :=
  let dropped := s.pmc.previous
  let s1 := updPmc (fun p => { p with current := some g, previous := p.current }) s
  let s2 := match dropped with
    | none => s1
    | some d => dropImages d.number s1
  let s3 := genRollEvent g s2
  match dropped with
  | none => s3
  | some d => emit .genDropped none noSubject 0 d.number 0 s3

/-- R88: a roll. A composition running is stopped and its generation discarded. -/
def roll (c : RollCause) (s : State) : State :=
  let p := s.pmc
  let full := if p.clockSet then fullStyles s else []
  let g : Generation :=
    { number := nextGeneration p.lastGen, unset := !p.clockSet, office := p.office, year := p.year, month := p.month,
      day := p.day, periodStart := periodStartOf p.period p.seconds, cause := c, styles := full }
  let s1 := updPmc (fun p => { p with lastGen := g.number, composing := none }) s
  if full.isEmpty then becomeCurrent g s1
  else updPmc (fun p => { p with composing := some { generation := g, ticks := 0, need := 40 * full.length } }) s1

/-- R86: one second of the date clock, and the roll at a period boundary. -/
def clockSecond (s : State) : State :=
  let p := s.pmc
  let s1 :=
    if p.seconds + 1 < 86400 then updPmc (fun p => { p with seconds := p.seconds + 1 }) s
    else
      let d := nextDay p.year p.month p.day
      updPmc (fun p => { p with seconds := 0, year := d.1, month := d.2.1, day := d.2.2 }) s
  let s2 := updPmc (fun p => { p with clockTicks := p.clockTicks - ticksPerSecond }) s1
  if periodStartOf p.period s2.pmc.seconds ≠ periodStartOf p.period p.seconds then roll .period s2 else s2

/-- R86: CLOCK_SECOND. -/
def execClockSecond (s : State) : Host.Outcome State Fault Refusal :=
  event (s.pmc.clockSet && decide (ticksPerSecond ≤ s.pmc.clockTicks)) clockSecond s

/-- R88, R89: COMPOSITION_COMPLETE. -/
def finishComposition (s : State) : State :=
  match s.pmc.composing with
  | none => s
  | some c => becomeCurrent c.generation (updPmc (fun p => { p with composing := none }) s)

def execCompositionComplete (s : State) : Host.Outcome State Fault Refusal :=
  event (match s.pmc.composing with
    | none => false
    | some c => c.need ≤ c.ticks) finishComposition s

end Sys2Proof.Machine
end

