-- ==== Sys2Proof/Machine/PocketRows.lean ====
section
/-! DEFINITION. The tray switches and swap buttons (R114 to R117). -/

namespace Sys2Proof.Machine

/-- R114: a change of a tray switch or swap button is accepted when it has held for 20 readings, one each ms. -/
def inputHeld (held : Nat) : Bool := 20 ≤ held

/-- R114: a reading of a swap button is accepted when it has held for 20 readings; the first after a device reset is
accepted as it is read (log entry 54). -/
def buttonAccepted (held : Nat) (s : State) : Bool := inputHeld held || (!s.clock.started && 1 ≤ held)

/-- R114, R115: SWAP_REQUEST. A press is a swap request, but for the level of the first reading after a device reset; a
release has no effect but on the accepted level. -/
def execSwapRequest (l : LaneId) (p : Pocket) (pressed : Bool) (held : Nat) (s : State) :
    Host.Outcome State Fault Refusal :=
  eventWithin p.gated ((pocketRec l p s).button != pressed && buttonAccepted held s) (fun s =>
    let s1 := updPocket l p (fun r => { r with button := pressed }) s
    if pressed && s.clock.started then swapPocket l p s1 else s1) s

/-- R116: one reserved item of a pocket whose tray is out: its window at the gate goes by the removal rule, and where it
is removed the reservation is released and a TRAY_OUT event written with the cause POCKET_OUT. -/
def sendOn (l : LaneId) (p : Pocket) (g : Gate) (serial : Nat) (s : State) : State :=
  match findEntry l serial s with
  | none => s
  | some e =>
    if (pocketRec l p s).reservations.contains serial && holdsWindow e g then
      let s1 := gateWork l [.remove serial g] s
      match findEntry l serial s1 with
      | none => s1
      | some x =>
        if holdsWindow x g then s1
        else emit .trayOut (some l) (pocketCode p).val serial 6 0 (releaseAt l p serial s1)
    else s

/-- R116: a tray-out. -/
def trayOut (l : LaneId) (p : Pocket) (s : State) : State :=
  let r := pocketRec l p s
  let s1 := updPocket l p (fun q =>
    { q with tray := false, staysDisabled := q.staysDisabled || q.state == .disabled }) s
  let s2 := emit .trayOut (some l) (pocketCode p).val 0 (pocketStateCode r.state) 0 (setPocketState l p .out s1)
  match pocketGate p with
  | none => s2
  | some g => if r.state = .readyToSwap then s2 else r.reservations.foldl (fun s n => sendOn l p g n s) s2

/-- R116: TRAY_OUT. -/
def execTrayOut (l : LaneId) (p : Pocket) (held : Nat) (s : State) : Host.Outcome State Fault Refusal :=
  event ((pocketRec l p s).tray && inputHeld held) (trayOut l p) s

/-- R117: a tray-in on an OUT pocket. -/
def trayIn (l : LaneId) (p : Pocket) (s : State) : State :=
  let r := pocketRec l p s
  let s1 := updPocket l p (fun q => { q with tray := true }) s
  if r.state ≠ .out then s1
  else
    let back := if p.gated && r.staysDisabled then PocketState.disabled else .opened
    let s2 := setPocketState l p back
      (updPocket l p (fun q => { q with fill := 0, warn := false, staysDisabled := false }) s1)
    emit .trayIn (some l) (pocketCode p).val 0 0 0 (if p.gated then s2 else endReleased l s2)

/-- R117: TRAY_IN. -/
def execTrayIn (l : LaneId) (p : Pocket) (held : Nat) (s : State) : Host.Outcome State Fault Refusal :=
  event (!(pocketRec l p s).tray && inputHeld held) (trayIn l p) s

end Sys2Proof.Machine
end

