-- ==== Sys2Proof/Machine/LaneRows.lean ====
section
/-! DEFINITION. The rows of the lamps and the feeder request (R123 to R127), and the effects of the lane actions (R129 to
R137) before their orders' results are written. -/

namespace Sys2Proof.Machine

/-- R127: LAMP_WARM_COMPLETE, 2 s after the lamps came on. -/
def execLampWarmComplete (l : LaneId) (s : State) : Host.Outcome State Fault Refusal :=
  event (match (s.lsq.get l).lampWarm with
    | none => false
    | some t => 2 * ticksPerSecond ≤ t)
    (fun s => warmCalibration l (updLsq l (fun q => { q with lampWarm := none }) s)) s

/-- R34: a wake calibration is asked for. -/
def askWake (l : LaneId) (s : State) : State := updSfe l (fun f => { f with due := true, wakeMark := true }) s

/-- R123, R127: the end of a rise. -/
def finishRise (l : LaneId) (r : Rise) (s : State) : State :=
  let s1 := updLsq l (fun q => { q with lamp := .on, rise := none }) s
  let s2 := if r.outside then askWake l s1 else s1
  if laneMode l s = .warming ∧ (s.lsq.get l).warmStep = some .lamps then warmCalibration l s2 else s2

/-- R123: LAMP_RISE_COMPLETE, 50 ms after the rise began. -/
def execLampRiseComplete (l : LaneId) (s : State) : Host.Outcome State Fault Refusal :=
  match (s.lsq.get l).rise with
  | none => .next s
  | some r => event (1000 ≤ r.ticks) (finishRise l r) s

/-- R28: lamp power leaves ON: each entry in SCANNING receives NOT_SCANNED. -/
def loseScanning (l : LaneId) (s : State) : State :=
  if (s.lsq.get l).lamp = .on then
    deliverAll l (((s.track.get l).queue.filter (fun e => e.stage == .scanning)).foldl
      (fun s e => giveVerdict l e.serial (plainVerdict .notScanned) s) s)
  else s

/-- R125: IDLE_TIMER_EXPIRY. The lamps go DIM and WAKE enters the set. -/
def execIdleTimerExpiry (l : LaneId) (s : State) : Host.Outcome State Fault Refusal :=
  event (idleCounts l s && decide (ticksPerSecond * (geometry l s).idleTime ≤ (s.lsq.get l).idle))
    (fun s => setHold l .wake true (lampTo l .dim (loseScanning l s))) s

/-- R126: FEED_REQ_CHANGE. A rise of FEED_REQ wakes a RUNNING lane with DIM lamps. -/
def execFeedReqChange (l : LaneId) (level : Bool) (held : Nat) (s : State) : Host.Outcome State Fault Refusal :=
  event ((s.lsq.get l).feedReq != level && decide (5 ≤ held)) (fun s =>
    let s1 := updLsq l (fun q => { q with feedReq := level }) s
    if level ∧ laneMode l s = .running then beginRise l true s1 else s1) s

/-- R132: the lane goes OFF by order. -/
def offLane (l : LaneId) (s : State) : State :=
  coldHeads l (updLsq l (fun q => { q with warmed := false }) (lampTo l .dark (changeLane l .off .order
    (loseScanning l s))))

/-- R132: the lane enters STANDBY. -/
def standbyLane (l : LaneId) (s : State) : State := lampTo l .dim (changeLane l .standby .order (loseScanning l s))

/-- R136: CLEAR of a STOPPED lane. -/
def clearLane (l : LaneId) (s : State) : State := changeLane l .ready .clear (restartDark l (purgeLane l s))

/-- R137: ABORT. -/
def abortLane (l : LaneId) (s : State) : State :=
  let old := laneMode l s
  let s1 := purgeLane l (setLane l .off s)
  let s2 := abortScan l (coldHeads l (clearTrims l s1))
  let s3 := dropWarming l (endLaneTest l .abortedByHost .abort s2)
  let s4 := updLsq l (fun q => { q with lamp := .dark, rise := none, warmed := false }) s3
  let s5 := endPending l .refused .aborted none (setHold l .wake false s4)
  laneEvent l old .off .abort s5

end Sys2Proof.Machine
end

