-- ==== Sys2Proof/Machine/Records.lean ====
section
/-! DEFINITION. The bytes of the records the part writes (11.5): item and event records, the page header, the tally and
health snapshots; and the writing out of closed pages (R149 to R151) and of the status block (R186, R187). -/

namespace Sys2Proof.Machine

def byteOf (n : Nat) : Byte := BitVec.ofNat 8 n

/-- One bit of a flags byte. -/
def flagAt (b : Bool) (i : Nat) : Nat := if b then 2 ^ i else 0

/-- A signed number as `n` bytes in two's complement. -/
def leInt (n : Nat) (x : Int) : List Byte := le n (x % (2 ^ (8 * n) : Nat)).toNat

/-! ### Journal records -/

/-- 11.5, byte 23: the flags of an item record. -/
def itemFlags (e : Entry) : Nat :=
  flagAt e.seenAtT 0 + flagAt e.misflipSuspect 1 + (match e.cancelEye with
    | none => 0
    | some (.near, _) => 4
    | some (.far, _) => 8) +
  (match e.plan with
    | none => 0
    | some p => 16 + flagAt p.reject 5 + flagAt p.flip 6 + flagAt (p.bank == .far) 7)

/-- 11.5, byte 38: the windows the plan still holds, a bit per gate in gate order. -/
def windowsHeld (e : Entry) : Nat := (allGates.map (fun g => flagAt (holdsWindow e g) (gateCode g).val)).sum

/-- 11.5, byte 45: how a print was made, or the cause of one not made. -/
def printByte : Option PrintResult → Nat
  | none => 0
  | some (.uncancelled c) => uncancelledCode c
  | some (.printed _ clipped c) => flagAt clipped 2 + (match c with
    | .bars => 0
    | .full => 1
    | .fullDowngraded .clockUnset => 2 + 8
    | .fullDowngraded .genDropped => 2 + 16)

/-- 11.5, bytes 20..31: the verdict fields. -/
def verdictBytes (v : Option Verdict) : List Byte × List Byte :=
  match v with
  | none => ([0, 0, 0], le 8 0)
  | some v => match v.faced with
    | none => ([byteOf (verdictCode v.kind), 0, 0], le 8 0)
    | some i =>
      ([byteOf (verdictCode v.kind), byteOf (presentationCode i.presentation), byteOf i.classIndex],
       le 2 i.label ++ le 2 i.score ++ le 2 i.markCentre ++ le 2 i.generation)

/-- 11.5, bytes 32..37: plan cause, pocket planned, style, head, raster generation. -/
def planBytes (p : Option Plan) : List Byte :=
  match p with
  | none => [0, 0xFF, 0, 0] ++ le 2 0
  | some p =>
    [byteOf (match p.cause with
      | none => 0
      | some c => planCauseCode c), byteOf (pocketCode p.pocket).val] ++
    (match p.print with
      | none => [0, 0] ++ le 2 0
      | some q => [byteOf q.style, byteOf (sideCode q.head + 1)] ++ le 2 (q.generation.getD 0))

def detailBytes (d : Option (List StripDetail)) : List Byte :=
  match d with
  | none => []
  | some ds => ds.flatMap (fun x => le 2 x.strength ++ [byteOf x.band, 0] ++ le 2 x.centre)

/-- 11.5, bytes 16 and 17: N, or an open value where it does not fit (log entry 92). -/
def lengthBytes (n : Nat) : List Byte := le 2 (if n < 65536 then n else (Config.wideLength n).toNat)

/-- 11.5: an item record. -/
def itemBytes (l : LaneId) (time : Ms) (e : Entry) : List Byte :=
  let detail := (e.verdict.bind (fun v => v.detail))
  let v := verdictBytes e.verdict
  sealRecord 2
    ([if detail.isSome then 2 else 1, byteOf (laneCode l), 0, 0] ++ le 4 e.serial ++ le 4 time.toNat ++
     le 3 e.leadE.toNat ++ [byteOf (match e.outcome with
      | none => 0
      | some o => outcomeCode o)] ++
     lengthBytes (e.length.getD 0) ++ le 2 e.gapBefore ++ v.1 ++ [byteOf (itemFlags e)] ++ v.2 ++ planBytes e.plan ++
     [byteOf (windowsHeld e), byteOf (match e.pocketSeen with
      | none => 0xFF
      | some p => (pocketCode p).val)] ++
     le 3 (match e.cancelEye with
      | none => 0
      | some c => c.2.toNat) ++
     [byteOf (match e.reroute with
      | none => 0
      | some c => rerouteCode c),
      (match e.printResult with
      | none => 0
      | some (.printed _ _ _) => 1
      | some (.uncancelled _) => 2), byteOf (printByte e.printResult)] ++
     le 2 (match e.printResult with
      | some (.printed m _ _) => m
      | _ => 0) ++ detailBytes detail)

/-- 11.5: an event record. -/
def eventBytes (e : EventRec) : List Byte :=
  sealRecord 2
    ([3, (match e.lane with
      | none => 0xFF
      | some l => byteOf (laneCode l)), 0, 0, byteOf (eventCode e.code), byteOf e.subject, 0, 0] ++
     le 4 e.time.toNat ++ le 4 e.serial ++ le 4 e.arg1 ++ le 4 e.arg2)

def recBytes : Rec → List Byte
  | .item l t e => itemBytes l t e
  | .event e => eventBytes e

/-- The lane and serial of an item record. -/
def itemOf : Rec → Option (LaneId × Nat)
  | .item l _ e => some (l, e.serial)
  | .event _ => none

/-- R148: the item records of a page, in order. -/
def pageItems (p : Page) : List (LaneId × Nat) := p.recs.filterMap itemOf

/-- 11.5: the page header; the bytes it does not list are 0 (log entry 86). -/
def pageHeader (c : ClosedPage) : List Byte :=
  let first := (pageItems c.page).head?
  let last := (pageItems c.page).getLast?
  let laneByte := fun (x : Option (LaneId × Nat)) => match x with
    | none => (0xFF : Byte)
    | some q => byteOf (laneCode q.1)
  let serialOf := fun (x : Option (LaneId × Nat)) => match x with
    | none => 0
    | some q => q.2
  sealRecord 20
    (le 4 c.page.seq ++ le 2 c.page.recs.length ++ [byteOf (fillReasonCode c.reason), 0xF1,
      byteOf (flagAt first.isSome 0 + flagAt last.isSome 1), laneByte first, laneByte last, 0] ++
     le 4 (serialOf first) ++ le 4 (serialOf last) ++ [0, 0] ++ le 10 0)

/-- R149: the bytes of a page's records, from byte 32 on. -/
def pageBody (p : Page) : List Byte := p.recs.flatMap recBytes

/-! ### Writing out pages -/

/-- R150: a faulted page's records are counted lost. -/
def countLost (p : Page) (s : State) : State :=
  p.recs.foldl (fun s r => match r with
    | .item l _ _ =>
      countUp l .unjournalled (updJrn (fun j => { j with unjournalled := satAdd32 j.unjournalled 1 }) s)
    | .event _ => updJrn (fun j => { j with dropped := satAdd32 j.dropped 1 }) s) s

/-- R149, R150: the page leaves the held count as it is counted filled. -/
def countFilled (s : State) : State :=
  updJrn (fun j => { j with closing := j.closing.drop 1, filled := satAdd32 j.filled 1, held := j.held - 1 }) s

/-- R151: a FLUSH_JOURNAL waiting for this page is done. -/
def finishFlush (seq : Nat) (s : State) : State := if s.ocu.flushing = some seq then orderDone none s else s

/-- R149, R150: the oldest closed page is written out, or faulted. The event of a faulted page goes to the page taken in
the same event, if one is. A faulting is no close: PAGES_LOW is raised again only where a page is taken (log entry 91). -/
def writeOutPage (c : ClosedPage) (s : State) : State :=
  let p := c.page
  let s1 :=
    if allowed .journalWrite p.addr 4096 s then
      raise .pageFilled (countFilled (writeBytes p.addr (pageHeader c) (writeBytes (p.addr + 32) (pageBody p) s)))
    else windowFault none .journalWrite p.addr (takePage (countFilled (countLost p s)))
  finishFlush p.seq (takePage s1)

/-- R149: PAGE_WRITE_OUT. -/
def execPageWriteOut (s : State) : Host.Outcome State Fault Refusal :=
  match s.jrn.closing with
  | [] => .next s
  | c :: _ => event true (writeOutPage c) s

/-! ### Writing the status block -/

/-- R186: a due write may begin: none has begun, or the last began 1 ms or more before. -/
def statusPaced (s : State) : Bool :=
  match s.stat.sinceWrite with
  | none => true
  | some t => ticksPerMs ≤ t

/-- R177, R186, R187: the status write, or its refusal, which suspends status writing. -/
def writeStatus (a : Nat) (s : State) : State :=
  if allowed .statusWrite a 160 s then
    let n := s.stat.updateCount + 1
    let s1 := writeBytes a (statusBlock n s) s
    { s1 with
      stat := { s1.stat with updateCount := n, due := s1.stat.again, again := false, sinceWrite := some 0, waiting := 0 },
      pif := { s1.pif with attn := s1.pif.attn ||| s1.stat.waiting } }
  else
    let s1 := windowFault none .statusWrite a s
    { s1 with
      stat := { s1.stat with due := false, again := false, suspended := true, waiting := 0 },
      pif := { s1.pif with attn := s1.pif.attn ||| s1.stat.waiting } }

/-- R186: STATUS_WRITE. -/
def execStatusWrite (s : State) : Host.Outcome State Fault Refusal :=
  match s.stat.addr with
  | none => .next s
  | some a => event (s.stat.due && !s.stat.suspended && statusPaced s) (writeStatus a) s

/-! ### Snapshots -/

/-- 11.5: the tally snapshot, 440 bytes; those it does not list are 0 (log entry 86). -/
def tallyImage (l : LaneId) (zf : Nat) (s : State) : List Byte :=
  [byteOf (laneCode l), byteOf zf, byteOf (s.track.get l).queue.length, 0] ++ le 4 s.clock.ms.toNat ++ le 8 0 ++
  (s.tally.get l).flatMap (le 4)

/-- 11.5: one attribute record of the health snapshot, 24 bytes; those it does not list are 0 (log entry 86). -/
def attrBytes (l : LaneId) (a : AttrId) (s : State) : List Byte :=
  let r := attr l a s
  [byteOf (laneCode l), byteOf (attrCode a), (if isPrefail a then 0 else 1), byteOf r.normalized, byteOf r.worst,
    byteOf r.threshold, byteOf (attrActionCode r.action), byteOf (attrStateCode r.state)] ++
  leInt 6 r.raw ++ le 2 r.blockCount ++ le 2 r.blockEvents ++ le 6 0

/-- 11.5: one log place, 16 bytes; those it does not list are 0 (log entry 86), and so is every field of an empty place,
its lane too (log entry 88). -/
def logBytes : Option LogEntry → List Byte
  | none => le 16 0
  | some e =>
    [byteOf (testKindCode e.kind), (match e.lane with
      | none => 0xFF
      | some l => byteOf (laneCode l)), byteOf (testResultCode e.result), byteOf e.tens] ++
    le 4 e.time.toNat ++ [byteOf e.checkpoint] ++ le 7 0

/-- 11.5: the health snapshot, 792 bytes; those it does not list are 0 (log entry 86). -/
def healthImage (s : State) : List Byte :=
  le 4 s.clock.ms.toNat ++ [byteOf s.hmu.pointer] ++ le 3 0 ++
  (allAttrs.flatMap (fun a => attrBytes .lane0 a s)) ++ (allAttrs.flatMap (fun a => attrBytes .lane1 a s)) ++
  s.hmu.log.toList.flatMap logBytes

end Sys2Proof.Machine
end

