-- ==== Sys2Proof/Machine/Operands.lean ====
section
/-! DEFINITION. The operand forms: order blocks (R179, 11.3) and the images the host leaves (11.4), read from bytes and
checked field by field. A check is a list of field indexes with their faults, in record order (R192). -/

namespace Sys2Proof.Machine

/-! ### Order blocks -/

def laneActionOf : Nat → Option LaneAction
  | 0 => some .run | 1 => some .drain | 2 => some .standby | 3 => some .off | 4 => some .clear | 5 => some .abort
  | 6 => some .hold | 7 => some .release | _ => none

def pocketActionOf : Nat → Option PocketAction
  | 0 => some .disable | 1 => some .enable | 2 => some .swap | 3 => some .setCapacity | _ => none

def testKindOf : Nat → Option TestKind
  | 0 => some .reference | 1 => some .calibrate | 2 => some .classAudit | _ => none

/-- 11.3: a window descriptor of SET_WINDOWS. -/
def descriptorAt (b : List Byte) (i : Nat) : WindowDesc :=
  { base := field b (24 + 9 * i) 7, exponent := field b (31 + 9 * i) 1, flags := BitVec.ofNat 8 (field b (32 + 9 * i) 1) }

/-- 11.3: the body of a SELF_TEST order. An abort order reads only its kind and lane. -/
def selfTestBody (b : List Byte) : OrderBody :=
  match testKindOf (field b 24 1) with
  | none => .badAction
  | some k =>
    if field b 26 1 ≠ 0 then .selfTestAbort k (field b 25 1)
    else .selfTest k (field b 25 1) (field b 27 1)
      ((List.range 4).map (fun i => (field b (28 + 2 * i) 1, field b (29 + 2 * i) 1))) (field b 40 8)

/-- 11.3: the body of an order block, by its kind. -/
def bodyOf (kind : Nat) (b : List Byte) : OrderBody :=
  match kind with
  | 1 => .configurePort (field b 24 8) (BitVec.ofNat 16 (field b 32 2)) (field b 34 1) (field b 35 1)
  | 2 => .setWindows ((List.range 4).map (descriptorAt b))
  | 3 => .identify
  | 4 => .loadClasses (field b 24 8) (field b 32 1) (field b 33 1)
  | 5 => .loadGeometry (field b 24 8) (field b 32 1)
  | 6 => .loadStyles (field b 24 8)
  | 7 => .setClock (field b 24 2) (field b 26 1) (field b 27 1) (field b 28 4) (field b 32 1)
  | 8 => .loadThresholds (field b 24 8)
  | 9 => .givePages (field b 24 8) (field b 32 1)
  | 10 => .flushJournal
  | 11 => match laneActionOf (field b 25 1) with
    | none => .badAction
    | some a => .laneControl (field b 24 1) a
  | 12 => match pocketActionOf (field b 26 1) with
    | none => .badAction
    | some a => .pocketControl (field b 24 1) (field b 25 1) a (field b 28 2)
  | 13 => .tallySnapshot (field b 24 8) (field b 32 1) (field b 33 1)
  | 14 => .healthSnapshot (field b 24 8)
  | 15 => selfTestBody b
  | _ => .badKind

/-- R179: an order block as read at an address. Of its flags only bit 0 is read (log entry 84). -/
def orderBlock (addr : Nat) (b : List Byte) : OrderBlock :=
  { addr := addr, kind := field b 8 1, notify := field b 9 1 % 2 == 1, body := bodyOf (field b 8 1) b }

/-- The state byte of a block (R179). -/
def blockStateOf : Nat → Option BlockState
  | 0 => some .empty | 1 => some .posted | 2 => some .taken | 3 => some .done | 4 => some .refused | _ => none

/-! ### Field checks -/

/-- The first bad field of a list of field indexes with their checks, true where the field is good. -/
def firstBad (fs : List (Nat × Bool)) : Option Nat := (fs.find? (fun q => !q.2)).map (fun q => q.1)

/-- A field lies in a range. -/
def inRange (lo hi x : Nat) : Bool := lo ≤ x && x ≤ hi

/-- R184: a window descriptor is good. -/
def descriptorOk (d : WindowDesc) : Bool :=
  decide (d.base < 2 ^ 52) &&
    (d.exponent == 0 ||
      (inRange 12 32 d.exponent && d.base * 4096 % 2 ^ d.exponent == 0 &&
        decide (d.base * 4096 + 2 ^ d.exponent ≤ 2 ^ 64)))

/-- R184, 11.3: the window of a good descriptor. Bits 5 and 6 of its flags, which no layout lists, are ignored (log
entry 84). -/
def windowOf (d : WindowDesc) : Option MemWindow :=
  if d.exponent = 0 then none
  else some { base := d.base * 4096, size := 2 ^ d.exponent, order := d.flags.getLsbD 0, table := d.flags.getLsbD 1,
              journal := d.flags.getLsbD 2, status := d.flags.getLsbD 3, snapshot := d.flags.getLsbD 4,
              writeProtect := d.flags.getLsbD 7 }

/-- R188: the fields of CONFIGURE_PORT, in the order of its body. -/
def portFields (addr : Nat) (mask : BitVec 16) (poll lowWater : Nat) : List (Nat × Bool) :=
  [(0, addr % 64 == 0), (1, mask.toNat < 1024), (2, inRange 1 255 poll), (3, inRange 0 63 lowWater)]

/-! ### The class table image -/

/-- 11.4: a class entry at its place in the image. -/
def classAt (b : List Byte) (k : Nat) : ClassEntry :=
  let o := 8 + 24 * k
  { enabled := field b o 1 == 1, label := field b (o + 2) 2,
    bands := [⟨field b (o + 4) 2, field b (o + 6) 2⟩, ⟨field b (o + 8) 2, field b (o + 10) 2⟩,
              ⟨field b (o + 12) 2, field b (o + 14) 2⟩],
    tolerance := field b (o + 16) 1, priority := field b (o + 17) 1, style := field b (o + 18) 1,
    pocketPrimary := field b (o + 19) 1, pocketAlternate := field b (o + 20) 1 }

/-- R46: a bound pair: each value at most 1,023, and lo not above hi (given at lo, log entry 35). -/
def boundFields (i : Nat) (b : Bounds) : List (Nat × Bool) :=
  [(i, inRange 0 1023 b.lo && decide (b.lo ≤ b.hi)), (i + 1, inRange 0 1023 b.hi)]

/-- R46, R47, R192: the thirteen fields of entry k. An enabled entry without a required band is given at its first
field. -/
def classFields (b : List Byte) (k : Nat) : List (Nat × Bool) :=
  let c := classAt b k
  let i := 2 + 13 * k
  [(i, inRange 0 1 (field b (8 + 24 * k) 1) && (!c.enabled || c.bands.any (fun q => 0 < q.lo)))] ++
  ((c.bands.zipIdx).flatMap (fun q => boundFields (i + 2 + 2 * q.2) q.1)) ++
  [(i + 8, inRange 0 63 c.tolerance), (i + 9, inRange 0 15 c.priority), (i + 10, inRange 0 7 c.style),
    (i + 11, inRange 1 3 c.pocketPrimary), (i + 12, inRange 0 3 c.pocketAlternate)]

/-- R47: the fields of a class table image of n entries. -/
def classTableFields (n : Nat) (b : List Byte) : List (Nat × Bool) :=
  (0, inRange 8 64 (field b 0 1)) :: (List.range n).flatMap (classFields b)

/-- 11.4: the class table of an image, with its generation. -/
def classTableOf (generation n : Nat) (b : List Byte) : ClassTable :=
  { generation := generation, window := field b 0 1, margin := field b 1 1,
    entries := (List.range n).map (classAt b) }

/-! ### The geometry record -/

/-- A 2-byte field of the geometry record. -/
def word (b : List Byte) (o : Nat) : Nat := field b o 2

def gateGeometryAt (b : List Byte) (g : Nat) : GateGeometry :=
  let o := 72 + 12 * g
  { lead := word b o, tail := word b (o + 2), minRelease := word b (o + 4), maxHold := field b (o + 8) 4 }

/-- 11.4: the geometry of a record. -/
def geometryOf (b : List Byte) : Geometry :=
  { scanPos := word b 0, flipGatePos := word b 2, twistEyePos := word b 4, bankGatePos := word b 6,
    eyePos := ⟨word b 8, word b 10⟩, headOffset := ⟨word b 12, word b 14⟩, verifyOffset := word b 16,
    gatePos := [word b 18, word b 20, word b 22, word b 24, word b 26, word b 28], chuteOffset := word b 30,
    endPos := ⟨word b 32, word b 34⟩, eyeTolerance := word b 36, minGap := word b 38, decisionGuard := word b 40,
    jamThreshold := field b 42 1, eyeFilter := field b 43 1 == 1, idleTime := word b 44, calInterval := word b 46,
    edgeMargin := field b 48 1, maxFires := field b 49 1, fireWindow := word b 50, warnPercent := field b 52 1,
    journalDetail := field b 53 1 == 1,
    capacities := [word b 54, word b 56, word b 58, word b 60, word b 62, word b 64, word b 66, word b 68],
    gates := #v[gateGeometryAt b 0, gateGeometryAt b 1, gateGeometryAt b 2, gateGeometryAt b 3, gateGeometryAt b 4,
      gateGeometryAt b 5, gateGeometryAt b 6, gateGeometryAt b 7] }

/-- R190: the positions of a record and their order, fields 0..17. Of two positions of N1..N3 or F1..F3 that do not
increase the later one is the bad field (log entry 79). -/
def positionFields (g : Geometry) : List (Nat × Bool) :=
  let p := fun i => g.gatePos.getD i 0
  [(0, inRange 200 2000 g.scanPos && decide (g.scanPos < g.flipGatePos)), (1, inRange 2000 16000 g.flipGatePos),
    (2, g.flipGatePos < g.twistEyePos), (3, g.twistEyePos < g.bankGatePos), (4, g.bankGatePos < g.eyePos.near),
    (5, g.bankGatePos < g.eyePos.far), (6, inRange 80 2000 g.headOffset.near), (7, inRange 80 2000 g.headOffset.far),
    (8, inRange 40 400 g.verifyOffset), (9, g.eyePos.near + g.headOffset.near + g.verifyOffset < p 0),
    (10, p 0 < p 1), (11, p 1 < p 2 && p 2 ≤ 60000),
    (12, g.eyePos.far + g.headOffset.far + g.verifyOffset < p 3), (13, p 3 < p 4), (14, p 4 < p 5 && p 5 ≤ 60000),
    (15, inRange 40 800 g.chuteOffset), (16, p 2 + g.chuteOffset < g.endPos.near && g.endPos.near ≤ 64000),
    (17, p 5 + g.chuteOffset < g.endPos.far && g.endPos.far ≤ 64000)]

/-- R190: fields 18..29. The two on-off fields are read from their bytes, 0 off and 1 on (log entry 65). -/
def settingFields (g : Geometry) (b : List Byte) : List (Nat × Bool) :=
  [(18, inRange 8 400 g.eyeTolerance), (19, inRange 40 400 g.minGap), (20, inRange 0 400 g.decisionGuard),
    (21, inRange 1 7 g.jamThreshold), (22, inRange 0 1 (field b 43 1)), (23, inRange 0 600 g.idleTime),
    (24, inRange 1 600 g.calInterval), (25, inRange 0 20 g.edgeMargin), (26, inRange 1 8 g.maxFires),
    (27, inRange 10 1000 g.fireWindow), (28, inRange 50 99 g.warnPercent), (29, inRange 0 1 (field b 53 1))]

/-- R119, R190: the capacities, fields 30..37; a gated one not below its pocket's fill + reserved. -/
def capacityFields (l : LaneId) (g : Geometry) (s : State) : List (Nat × Bool) :=
  (allPockets.zip (g.capacities.zipIdx)).map (fun q =>
    let r := pocketRec l q.1 s
    (30 + q.2.2, inRange 50 5000 q.2.1 && (!q.1.gated || decide (r.fill + r.reservations.length ≤ q.2.1))))

/-- R190: the fields of the gates, four to a gate, from 38. -/
def gateFields (g : Geometry) : List (Nat × Bool) :=
  (g.gates.toList.zipIdx).flatMap (fun q =>
    let i := 38 + 4 * q.2
    [(i, inRange 1000 30000 q.1.lead), (i + 1, inRange 0 400 q.1.tail), (i + 2, inRange 2000 50000 q.1.minRelease),
      (i + 3, inRange 50000 2000000 q.1.maxHold)])

/-- R190: the fields of a geometry record, in record order. -/
def geometryFields (l : LaneId) (b : List Byte) (s : State) : List (Nat × Bool) :=
  let g := geometryOf b
  positionFields g ++ settingFields g b ++ capacityFields l g s ++ gateFields g

/-! ### The style set image -/

/-- R84: a character of the office code: a digit, a capital letter or a space. -/
def officeChar (c : Byte) : Bool :=
  inRange 0x30 0x39 c.toNat || inRange 0x41 0x5A c.toNat || c.toNat == 0x20

/-- 11.4: where a style's fields stand, and its kind code. -/
def styleBase (k : Nat) : Nat := 32 + 16 * k

/-- The number of bytes of an image body, with a FULL style's placings (11.4). -/
def imageBytes (kind width : Nat) : Nat := 16 * width + (if kind = 2 then 16 else 0)

/-- R85: one text placing of a FULL image: its start column below the width, its rows within the 128 dots. -/
def placingOk (width : Nat) (p : List Byte) : Bool :=
  field p 0 1 < width && decide (field p 1 1 + field p 2 1 ≤ 128)

/-- R85: an image body and its placings, given at the offset field of the image. -/
def imageOk (b : List Byte) (len kind width offset : Nat) : Bool :=
  decide (offset + imageBytes kind width ≤ len) &&
    (kind != 2 || (List.range 4).all (fun i => placingOk width (b.drop (offset + 16 * width + 4 * i))))

/-- R85: the seven fields of style k + 1; width, anchor and image are read for BARS and FULL only. -/
def styleFields (b : List Byte) (len k : Nat) : List (Nat × Bool) :=
  let o := styleBase k
  let kind := field b o 1
  let used := kind == 1 || kind == 2
  let nw := field b (o + 2) 1
  let fw := field b (o + 4) 1
  let i := 10 + 7 * k
  [(i, inRange 0 2 kind), (i + 1, !used || inRange 16 96 nw), (i + 2, !used || decide (field b (o + 3) 1 < nw)),
    (i + 3, !used || inRange 16 96 fw), (i + 4, !used || decide (field b (o + 5) 1 < fw)),
    (i + 5, !used || imageOk b len kind nw (field b (o + 8) 4)),
    (i + 6, !used || imageOk b len kind fw (field b (o + 12) 4))]

/-- R85: the fields of a style set image: the office code, each head's interval and flags, the image length, the
styles. A head's flags byte is never bad: its bits 2..7, which no layout lists, are ignored (log entry 84). -/
def styleSetFields (b : List Byte) (len : Nat) : List (Nat × Bool) :=
  [(0, (b.take 6).all officeChar)] ++
  (List.range 4).flatMap (fun h => [(1 + 2 * h, inRange 2 60 (field b (8 + 4 * h) 1)), (2 + 2 * h, true)]) ++
  [(9, decide (144 ≤ len))] ++ (List.range 7).flatMap (styleFields b len)

/-- 11.4: a head's spit settings. -/
def spitAt (b : List Byte) (h : Nat) : SpitSetting :=
  let f := BitVec.ofNat 8 (field b (9 + 4 * h) 1)
  { interval := field b (8 + 4 * h) 1, autoFast := f.getLsbD 0, forceFast := f.getLsbD 1 }

/-- R85: the first head with both autoFast and forceFast on. -/
def spitConflict (b : List Byte) : Option Nat :=
  firstBad ((List.range 4).map (fun h => (h, !((spitAt b h).autoFast && (spitAt b h).forceFast))))

def kindOf : Nat → StyleKind
  | 1 => .bars
  | 2 => .full
  | _ => .none

/-- 11.4: the four field placings at an offset, three bytes of each; the fourth is a pad, which is ignored (R192). -/
def placingsAt (b : List Byte) (o : Nat) : List Byte :=
  (List.range 4).flatMap (fun i => (b.drop (o + 4 * i)).take 3)

/-- 11.4: an image of a style; an undefined style has none. -/
def imageAt (b : List Byte) (kind width anchor offset : Nat) : StyleImage :=
  if kind = 0 then StyleImage.empty
  else { width := width, anchor := anchor, body := (b.drop offset).take (16 * width),
         placings := if kind = 2 then placingsAt b (offset + 16 * width) else [] }

/-- 11.4: style k + 1 of an image. -/
def styleAt (b : List Byte) (k : Nat) : Style :=
  let o := styleBase k
  let kind := field b o 1
  { kind := kindOf kind,
    images := ⟨imageAt b kind (field b (o + 2) 1) (field b (o + 3) 1) (field b (o + 8) 4),
               imageAt b kind (field b (o + 4) 1) (field b (o + 5) 1) (field b (o + 12) 4)⟩ }

/-! ### The threshold image -/

/-- 11.4: an entry of a threshold image as its raw fields. -/
structure ThresholdEntry where
  lane : Nat
  id : Nat
  threshold : Nat
  action : Nat
  restore : Nat
  carry : Nat
  raw : Int
  worst : Nat
  deriving DecidableEq, Repr

/-- 11.4: entry k of a threshold image; raw is signed for ids 6 and 7. -/
def thresholdAt (b : List Byte) (k : Nat) : ThresholdEntry :=
  let o := 4 + 16 * k
  let id := field b (o + 1) 1
  { lane := field b o 1, id := id, threshold := field b (o + 2) 1, action := field b (o + 3) 1,
    restore := field b (o + 4) 1, carry := field b (o + 5) 1,
    raw := if id = 6 ∨ id = 7 then signedField b (o + 6) 6 else (field b (o + 6) 6 : Int), worst := field b (o + 12) 1 }

/-- R159, R160: the id names an ADVISORY measure. -/
def advisory (id : Nat) : Bool :=
  match attrOfCode id with
  | none => false
  | some a => !isPrefail a

/-- R164: the eight fields of an entry, with the entries before it. A check over several fields is given at one of them (log
entry 64), restore and carry are 0 no and 1 yes (log entry 65), and a carried raw value is ranged for the two trims alone
(log entry 77). -/
def thresholdFields (k : Nat) (e : ThresholdEntry) (before : List ThresholdEntry) : List (Nat × Bool) :=
  let i := 1 + 8 * k
  [(i, inRange 0 1 e.lane),
    (i + 1, inRange 1 11 e.id && !before.any (fun x => x.lane == e.lane && x.id == e.id)),
    (i + 2, inRange 0 255 e.threshold && e.threshold != 254), (i + 3, inRange 0 2 e.action && !(e.action == 2 && advisory e.id)),
    (i + 4, inRange 0 1 e.restore), (i + 5, inRange 0 1 e.carry && !(e.carry == 1 && e.restore == 0)),
    (i + 6, e.carry != 1 || !(e.id == 6 || e.id == 7) || decide (e.raw.natAbs ≤ 48)),
    (i + 7, e.carry != 1 || inRange 1 253 e.worst)]

/-- The entries of a threshold image. -/
def thresholdEntries (b : List Byte) (n : Nat) : List ThresholdEntry := (List.range n).map (thresholdAt b)

/-- R164: the entries' fields, in entry order. -/
def thresholdImageFields (b : List Byte) (n : Nat) : List (Nat × Bool) :=
  (List.range n).flatMap (fun k => thresholdFields k (thresholdAt b k) (thresholdEntries b k))

/-! ### Self-test spans -/

/-- R61: a span of class indices lies within a table of n entries. -/
def spanOk (n : Nat) (q : Nat × Nat) : Bool := q.1 ≤ q.2 && 1 ≤ q.1 && q.2 ≤ n

/-- R61: the audit set: every enabled class of a span, each once, in ascending index. -/
def auditSet (t : ClassTable) (spans : List (Nat × Nat)) : List Nat :=
  ((t.entries.zipIdx 1).filter (fun q => q.1.enabled && spans.any (fun r => r.1 ≤ q.2 && q.2 ≤ r.2))).map (fun q => q.2)

end Sys2Proof.Machine
end

