-- ==== Sys2Proof/Machine/Registers.lean ====
section
/-! DEFINITION. The register rows (R175 to R178, R193), the walk of the order chain (R180, R181, R183) and the device
reset. A write to CTRL is given as the rows of the table name its parts: each row is one bit's action (log entry 10). -/

namespace Sys2Proof.Machine

/-! ### Device reset -/

/-- R175: a device reset. What is not the part's own state stands: the commands waiting, host memory and the message
settings of the configuration space (log entry 11). -/
def deviceReset (s : State) : State :=
  { State.reset with
    pending := s.pending, mem := s.mem, freeCount := s.freeCount,
    pif := { Pif.reset with
      msiEnable := s.pif.msiEnable, msiAddress := s.pif.msiAddress, msiData := s.pif.msiData,
      msiSent := s.pif.msiSent, msiLast := s.pif.msiLast } }

/-- DEVICE_RESET: a power-on or a PCIe fundamental or hot reset. -/
def execDeviceReset (s : State) : Host.Outcome State Fault Refusal := event true deviceReset s

/-- R175: RESET, a write of CTRL with RESET 1. -/
def execReset (s : State) : Host.Outcome State Fault Refusal := event true deviceReset s

/-! ### Reading the chain -/

/-- The chain position as an address. -/
def chainAddr (s : State) : Nat := s.ocu.position.toNat

/-- R180, R181: the chain waits, and the poll timer starts. -/
def chainWait (s : State) : State :=
  updOcu (fun o => { o with waiting := true, pollTicks := 0, pollLimit := o.pollInterval }) s

/-- An order read refused by the window checks (R183, R185). -/
def orderReadRefused (s : State) : State :=
  chainFault .windowFault (chainAddr s) (windowFault none .orderRead (chainAddr s) s)

/-- R180: the checks of a taken block. An action or self-test kind outside those listed is refused by the block that
owns the kind, in this event (R129, R166, 6.5). -/
def takeBlock (b : OrderBlock) (s : State) : State :=
  let s1 := updOcu (fun o => { o with current := some b, waiting := false }) s
  match b.body with
  | .badKind => orderRefused .badKind none s1
  | .setWindows _ => s1
  | .identify => s1
  | .badAction => if s.mwu.windowsSet then orderRefused .badField none s1 else orderRefused .noWindows none s1
  | _ => if s.mwu.windowsSet then s1 else orderRefused .noWindows none s1

/-- R180: the block at the chain position is read and acted on. -/
def readBlock (s : State) : State :=
  let a := chainAddr s
  if allowed .orderRead a 64 s then
    let b := readBytes a 64 s
    match blockStateOf (field b 12 1) with
    | some .posted => takeBlock (orderBlock a b) s
    | some .empty => chainWait s
    | some .taken | some .done | some .refused => chainFault .staleLink a s
    | none => chainFault .badState a s
  else orderReadRefused s

/-- R181: the link of the finished block is read. The fault address of a link that is no multiple of 64 is the link itself
(log entry 58). -/
def readLink (s : State) : State :=
  let a := chainAddr s
  if allowed .orderRead a 8 s then
    let link := field (readBytes a 8 s) 0 8
    if link = 0 then chainWait s
    else if link % 64 = 0 then
      readBlock (updOcu (fun o =>
        { o with position := BitVec.ofNat 64 link, phase := .take, waiting := false }) s)
    else chainFault .badAddress link s
  else orderReadRefused s

/-- R180, R181: the read that a waiting chain makes, by its phase. -/
def chainRead (s : State) : State :=
  match s.ocu.phase with
  | .take => readBlock s
  | .link => readLink s

/-- R181: CHAIN_LINK_READ. -/
def execChainLinkRead (s : State) : Host.Outcome State Fault Refusal :=
  event (s.pif.runChain && s.ocu.phase == .link && s.ocu.current.isNone && !s.ocu.waiting) readLink s

/-- R180, R181: POLL_TIMER_EXPIRY. -/
def execPollTimerExpiry (s : State) : Host.Outcome State Fault Refusal :=
  event (s.pif.runChain && s.ocu.waiting && decide (ticksPerMs * s.ocu.pollLimit ≤ s.ocu.pollTicks)) chainRead s

/-- R175, R180: LOOK. A LOOK written while the chain does not wait has no effect. -/
def execLook (s : State) : Host.Outcome State Fault Refusal :=
  event (s.pif.runChain && s.ocu.waiting) chainRead s

/-- R176: RUN_CHAIN passes from 0 to 1. -/
def startChain (s : State) : State :=
  let s1 := updPif (fun p => { p with runChain := true })
    (updOcu (fun o => { o with chain := .running, faultCause := .none, faultAddr := 0 }) s)
  if s.ocu.current.isSome then s1
  else match s.ocu.phase with
    | .link => readLink s1
    | .take => if chainAddr s = 0 ∨ chainAddr s % 64 ≠ 0 then chainFault .badAddress (chainAddr s) s1 else readBlock s1

/-- R176: RUN_CHAIN_START. -/
def execRunChainStart (s : State) : Host.Outcome State Fault Refusal := event (!s.pif.runChain) startChain s

/-- R183: RUN_CHAIN passes from 1 to 0. A short order in progress runs to its final state, and the chain is STOPPED
then. -/
def stopChain (s : State) : State :=
  updPif (fun p => { p with runChain := false })
    (updOcu (fun o => { o with chain := if o.current.isNone then .stopped else o.chain, waiting := false }) s)

/-- R183: RUN_CHAIN_STOP. -/
def execRunChainStop (s : State) : Host.Outcome State Fault Refusal := event s.pif.runChain stopChain s

/-! ### The interrupt enable and ATTN -/

/-- R178: IRQ_ENABLE and IRQ_DISABLE. The message, where one is due, is sent at the end of the event. -/
def execIrqEnable (s : State) : Host.Outcome State Fault Refusal :=
  event (!s.pif.irqEnable) (updPif (fun p => { p with irqEnable := true })) s

def execIrqDisable (s : State) : Host.Outcome State Fault Refusal :=
  event s.pif.irqEnable (updPif (fun p => { p with irqEnable := false })) s

/-- R177: ATTN_WRITE clears each flag written 1. -/
def execAttnWrite (v : BitVec 32) (s : State) : Host.Outcome State Fault Refusal :=
  event true (updPif (fun p => { p with attn := p.attn &&& ~~~(v.setWidth 10) })) s

/-! ### The chain position registers -/

/-- R176: the chain is stopped: RUN_CHAIN is 0 and no short order is in progress. -/
def chainStopped (s : State) : Bool := !s.pif.runChain && s.ocu.current.isNone

/-- R176, R193: a write to a half of the chain position. One that is ignored because the chain is not stopped discards a
pending latch all the same (log entry 68). -/
def writeChain (p : BitVec 64 → BitVec 64) (s : State) : State :=
  let s1 := updPif (fun p => { p with latch := none }) s
  if chainStopped s then updOcu (fun o => { o with position := p o.position, phase := .take }) s1 else s1

def chainLow (p : BitVec 64) : BitVec 32 := p.extractLsb' 0 32
def chainHigh (p : BitVec 64) : BitVec 32 := p.extractLsb' 32 32

/-- R176: CHAIN_LO_WRITE. -/
def execChainLoWrite (v : BitVec 32) (s : State) : Host.Outcome State Fault Refusal :=
  event true (writeChain (fun p => chainHigh p ++ v)) s

/-- R176: CHAIN_HI_WRITE. -/
def execChainHiWrite (v : BitVec 32) (s : State) : Host.Outcome State Fault Refusal :=
  event true (writeChain (fun p => v ++ chainLow p)) s

/-- R193: the bytes of a word that a read asks for. -/
def selectBytes (b : ByteSel) (v : BitVec 32) : BitVec 32 :=
  (v >>> (8 * b.first)) &&& BitVec.ofNat 32 (2 ^ (8 * b.count) - 1)

/-- R175, 11.2: the word that IDENT reads as. -/
def identWord : BitVec 32 := 0x4F#8 ++ Config.revision ++ 0x3400#16

/-- R175, 11.2: the word that CTRL reads as. -/
def ctrlWord (s : State) : BitVec 32 :=
  BitVec.ofNat 32 (flagAt s.pif.runChain 0 + flagAt s.pif.irqEnable 1)

/-- R177, 11.2: the word that ATTN reads as. -/
def attnWord (s : State) : BitVec 32 := s.pif.attn.setWidth 32

/-- R175, R193, 11.2: the word at an offset of the register page. CHAIN_HI reads as the latched half while one is held; any
offset but the five reads as 0. -/
def registerWord (offset : Nat) (s : State) : BitVec 32 :=
  match offset with
  | 0x0 => identWord
  | 0x4 => ctrlWord s
  | 0x8 => chainLow s.ocu.position
  | 0xC => s.pif.latch.getD (chainHigh s.ocu.position)
  | 0x10 => attnWord s
  | _ => 0

/-- R193: what a read of some bytes of the register at an offset returns. The reads of IDENT, CTRL, ATTN and of every other
offset change nothing, and have no row of the table. -/
def registerRead (offset : Nat) (b : ByteSel) (s : State) : BitVec 32 := selectBytes b (registerWord offset s)

/-- R193: CHAIN_LO_READ returns the low half and latches the high half. -/
def execChainLoRead (b : ByteSel) (s : State) : Host.Outcome State Fault Refusal :=
  eventWithin b.ok true (fun s =>
    let q := s.ocu.position
    updPif (fun p => { p with readData := registerRead 0x8 b s, latch := some (chainHigh q) }) s) s

/-- R193: CHAIN_HI_READ returns the latched half, or the high half as it stands. -/
def execChainHiRead (b : ByteSel) (s : State) : Host.Outcome State Fault Refusal :=
  eventWithin b.ok true (fun s => updPif (fun p => { p with readData := registerRead 0xC b s, latch := none }) s) s

/-- R175, R193: REGISTER_WRITE_IGNORED. The write has no effect. -/
def execRegisterWriteIgnored (offset width : Nat) (_v : BitVec 32) (s : State) : Host.Outcome State Fault Refusal :=
  eventWithin (ignoredWrite offset width) true (fun s => s) s

end Sys2Proof.Machine
end

