-- ==== Sys2Proof/Machine/Orders.lean ====
section
/-! DEFINITION. The order rows of the shared blocks: port, windows, tables, pages, snapshots and the clock (R47 to R50, R85,
R87, R143 to R146, R151, R164, R165, R174, R184, R188 to R190). An order row acts on the block the chain has taken (R180)
when that block is of its kind; with no such block it does nothing (log entry 5). -/

namespace Sys2Proof.Machine

/-- The body of the order in progress that waits to be carried out: one already waiting for a page's write-out is not
carried out twice (R151, R180). -/
def currentBody (s : State) : Option OrderBody :=
  match s.ocu.flushing with
  | some _ => none
  | none => s.ocu.current.map (fun b => b.body)

/-- A table read of a whole image (R185): its bytes, or none where the read is refused. -/
def tableRead (a n : Nat) (s : State) : Option (List Byte) :=
  if allowed .tableRead a n s then some (readBytes a n s) else none

/-- An order refused because a read or write it makes is refused by the window checks (R185); the event is of the lane
that the order names (R154). -/
def orderFaulted (k : Access) (a : Nat) (s : State) : State :=
  orderRefused .windowFault none (windowFault (currentLane s) k a s)

/-- R187: a suspension ends, and a full write is due at once. -/
def endSuspension (s : State) : State :=
  updStat (fun t => { t with suspended := false, due := if t.suspended then t.addr.isSome else t.due }) s

/-! ### Port, windows, identity -/

/-- R188: an accepted CONFIGURE_PORT. The write named by the order is due at once, and its own completion makes one
further write due. The first of the two already carries the completion and sets its ORDER_NOTIFY, and the further one
repeats it (log entry 87). -/
def configurePort (addr : Nat) (mask : BitVec 16) (poll lowWater : Nat) (s : State) : State :=
  let s1 := updOcu (fun o => { o with pollInterval := poll }) (updJrn (fun j => { j with lowWater := lowWater }) s)
  let s2 := updPif (fun p => { p with mask := mask.setWidth 10 }) s1
  let on := addr ≠ 0
  orderDone none (updStat (fun t =>
    { t with addr := if on then some addr else none, suspended := false, due := on, again := on }) s2)

def execConfigurePort (s : State) : Host.Outcome State Fault Refusal :=
  match currentBody s with
  | some (.configurePort addr mask poll lowWater) => event true (fun s =>
      match firstBad (portFields addr mask poll lowWater) with
      | some i => orderRefused .badField (some i) s
      | none =>
        if addr ≠ 0 ∧ allowed .statusWrite addr 160 s = false then orderFaulted .statusWrite addr s
        else configurePort addr mask poll lowWater s) s
  | _ => .next s

/-- R184: SET_WINDOWS. Its final state write is the first access checked against the new windows. -/
def execSetWindows (s : State) : Host.Outcome State Fault Refusal :=
  match currentBody s with
  | some (.setWindows ds) => event true (fun s =>
      match firstBad ((ds.zipIdx).map (fun q => (q.2, descriptorOk q.1))) with
      | some i => orderRefused .badField (some i) s
      | none => orderDone none (endSuspension { s with mwu := { windows := ds.map windowOf, windowsSet := true } })) s
  | _ => .next s

/-- R189, 11.3: what IDENTIFY writes into the body. -/
def identifyBody (s : State) : List Byte :=
  le 4 identWord.toNat ++ [2, 32, 8, 64, 8, 16, 64, 16, 16, 4, boolByte s.mwu.windowsSet, 0] ++ le 4 s.clock.ms.toNat ++
  le 20 0

/-- R189: IDENTIFY. -/
def execIdentify (s : State) : Host.Outcome State Fault Refusal :=
  match currentBody s with
  | some .identify => event true (fun s => finishWith .done .ok none (identifyBody s) s) s
  | _ => .next s

/-! ### Class tables -/

/-- R64, R171: a table becomes current, which ends a running audit. The audit's order becomes final before the
LOAD_CLASSES (log entry 59). -/
def tableCurrent (t : ClassTable) (s : State) : State :=
  endAudit .tableChanged (updMsc (fun m => { m with current := some t }) s)

/-- R50: no entry of a lane is in stage ENTERING or SCANNING. -/
def noneScanned (l : LaneId) (s : State) : Bool :=
  (s.track.get l).queue.all (fun e => e.stage != .entering && e.stage != .scanning)

/-- R50: the gap in which a staged table becomes current. -/
def atGap (s : State) : Bool :=
  s.msc.jobs.isEmpty && s.msc.scoring.isNone && noneScanned .lane0 s && noneScanned .lane1 s

/-- R48: the next table generation; 1 after 65,535. -/
def nextTableGeneration (s : State) : Nat := nextGeneration s.msc.lastGen

/-- R48 to R50: an accepted class table. -/
def acceptTable (n mode : Nat) (b : List Byte) (s : State) : State :=
  let g := nextTableGeneration s
  let t := classTableOf g n b
  let s1 := updMsc (fun m => { m with lastGen := g }) s
  if mode = 0 ∨ atGap s = true then orderDone none (tableCurrent t s1)
  else orderTaken .staged (updMsc (fun m => { m with staged := some t }) s1)

/-- R47: LOAD_CLASSES, its checks in order. -/
def loadClasses (addr n mode : Nat) (s : State) : State :=
  match tableRead addr (8 + 24 * n) s with
  | none => orderFaulted .tableRead addr s
  | some b =>
    if !inRange 1 64 n then orderRefused .badField none s
    else if !checksumOk b then orderRefused .badChecksum none s
    else match firstBad (classTableFields n b) with
      | some i => orderRefused .badField (some i) s
      | none =>
        if 1 < mode then orderRefused .badField none s
        else if s.msc.staged.isSome then orderRefused .busy none s
        else acceptTable n mode b s

def execLoadClasses (s : State) : Host.Outcome State Fault Refusal :=
  match currentBody s with
  | some (.loadClasses addr n mode) => event true (loadClasses addr n mode) s
  | _ => .next s

/-- R50: STAGED_TABLE_APPLY. -/
def applyStaged (t : ClassTable) (s : State) : State :=
  endLong .staged .done .ok none (tableCurrent t (updMsc (fun m => { m with staged := none }) s))

def execStagedTableApply (s : State) : Host.Outcome State Fault Refusal :=
  match s.msc.staged with
  | none => .next s
  | some t => event (atGap s) (applyStaged t) s

/-! ### Geometry -/

/-- R119, R190: the lane takes a geometry: fire histories are emptied, the pockets take their capacities together, and
then the flags of each follow, in pocket order (log entry 80). -/
def acceptGeometry (l : LaneId) (g : Geometry) (s : State) : State :=
  let s1 := { s with geom := s.geom.upd l (fun _ => g) }
  let s2 := allGates.foldl (fun s x => updChannel l x (fun c => { c with history := [] }) s) s1
  let s3 := (allPockets.zip g.capacities).foldl (fun s q => setCapacity l q.1 q.2 s) s2
  orderDone none (allPockets.foldl (fun t p => followCapacity l p (atCapacity l p s) t) s3)

/-- R190: a lane in which LOAD_GEOMETRY is accepted. -/
def takesGeometry : LaneMode → Bool
  | .off | .ready | .standby => true
  | .warming | .running | .draining | .stopped | .testing => false

/-- R190: LOAD_GEOMETRY, its checks in order. -/
def loadGeometry (addr lane : Nat) (s : State) : State :=
  match laneOfIndex lane with
  | none => orderRefused .badField none s
  | some l => match tableRead addr 168 s with
    | none => orderFaulted .tableRead addr s
    | some b =>
      if !checksumOk b then orderRefused .badChecksum none s
      else if !takesGeometry (laneMode l s) then orderRefused .busy none s
      else match firstBad (geometryFields l b s) with
        | some i => orderRefused .badField (some i) s
        | none => acceptGeometry l (geometryOf b) s

def execLoadGeometry (s : State) : Host.Outcome State Fault Refusal :=
  match currentBody s with
  | some (.loadGeometry addr lane) => event true (loadGeometry addr lane) s
  | _ => .next s

/-! ### Styles and the clock -/

/-- R92: fast mode is decided again from the last reading. -/
def redecideFast (s : State) : State :=
  let one := fun l h s => updHead l h (fun d => { d with fast := fastMode (spitSetting l h s) d.fast d.lastTemp }) s
  one .lane1 .far (one .lane1 .near (one .lane0 .far (one .lane0 .near s)))

/-- R85, R99: each slot that holds a BARS image is emptied. -/
def emptyBars (s : State) : State :=
  allSlots (fun i d => match (slotOf d i).key with
    | some (.bars _) => emptySlot i d
    | _ => d) s

/-- R85: an accepted style set. -/
def acceptStyles (b : List Byte) (s : State) : State :=
  let s1 := updPmc (fun p =>
    { p with
      styles := (List.range 7).map (styleAt b), office := b.take 6,
      settings := ⟨⟨spitAt b 0, spitAt b 1⟩, ⟨spitAt b 2, spitAt b 3⟩⟩ }) s
  orderDone none (redecideFast (emptyBars (roll .styles s1)))

/-- R85: LOAD_STYLES, its checks in order. The image is read whole, its 144 bytes of tables at least, and its checksum is
taken over all that is read, also where it states a shorter length (log entry 83). -/
def loadStyles (addr : Nat) (s : State) : State :=
  match tableRead addr 144 s with
  | none => orderFaulted .tableRead addr s
  | some h =>
    let len := field h 24 4
    match tableRead addr (max len 144) s with
    | none => orderFaulted .tableRead addr s
    | some b =>
      if !checksumOk b then orderRefused .badChecksum none s
      else match firstBad (styleSetFields b len) with
        | some i => orderRefused .badField (some i) s
        | none => match spitConflict b with
          | some i => orderRefused .conflict (some i) s
          | none => acceptStyles b s

def execLoadStyles (s : State) : Host.Outcome State Fault Refusal :=
  match currentBody s with
  | some (.loadStyles addr) => event true (loadStyles addr) s
  | _ => .next s

/-- R86: a date, a time of day and a period that the clock may take. -/
def clockOk (year month day seconds period : Nat) : Bool :=
  inRange 2000 2099 year && inRange 1 12 month && inRange 1 (monthLength year month) day && inRange 0 86399 seconds &&
    inRange 1 60 period

/-- R87: SET_CLOCK. -/
def setClock (year month day seconds period : Nat) (s : State) : State :=
  if clockOk year month day seconds period then
    orderDone none (roll .clock (updPmc (fun p =>
      { p with year := year, month := month, day := day, seconds := seconds, period := period, clockSet := true,
               clockTicks := 0 }) s))
  else orderRefused .badField none s

def execSetClock (s : State) : Host.Outcome State Fault Refusal :=
  match currentBody s with
  | some (.setClock y m d t p) => event true (setClock y m d t p) s
  | _ => .next s

/-! ### Thresholds -/

def attrActionOf : Nat → AttrAction
  | 0 => .report
  | 1 => .hold
  | _ => .retire

/-- R163, R165: the retired flag of a restored element is cleared; the lane's own flag waits for the whole load. -/
def restoreElement (l : LaneId) (a : AttrId) (s : State) : State :=
  match a with
  | .flipAccuracy => updGsq l (fun q => { q with flipRetired := false }) s
  | .bankAccuracy => updGsq l (fun q => { q with bankRetired := false }) s
  | .nearHeadWet => updHead l .near (fun h => { h with retired := false }) s
  | .farHeadWet => updHead l .far (fun h => { h with retired := false }) s
  | .lampReserve | .tracking | .pocketAccuracy | .nearHeadAlign | .farHeadAlign | .timeliness | .calCurrency => s

/-- R165: the restore of a record. -/
def restoreRecord (l : LaneId) (a : AttrId) (e : ThresholdEntry) (s : State) : State :=
  let r := attr l a s
  let s1 := updAttr l a (fun r =>
    { r with
      normalized := 100, state := .passing, worst := if e.carry = 1 then min e.worst 100 else 100,
      raw := if e.carry = 1 then e.raw else 0, blockCount := 0, blockEvents := 0 }) s
  let s2 := if r.state = .passing then s1 else raise .health s1
  if r.state = .retired then restoreElement l a s2 else s2

/-- R165: one entry of a load applied to its record. -/
def applyThreshold (e : ThresholdEntry) (s : State) : State :=
  match laneOfIndex e.lane, attrOfCode e.id with
  | some l, some a =>
    let s1 := updAttr l a (fun r => { r with threshold := e.threshold, action := attrActionOf e.action }) s
    if e.restore = 1 then restoreRecord l a e s1 else s1
  | _, _ => s

/-- R161, R165: the failing test after a load; a record FAILING under its new threshold whose action became RETIRE is
retired. -/
def testThreshold (e : ThresholdEntry) (s : State) : State :=
  match laneOfIndex e.lane, attrOfCode e.id with
  | some l, some a =>
    let r := attr l a s
    if r.state = .failing ∧ r.action = .retire ∧ isFailing r = true then retireRecord l a s else failingTest l a s
  | _, _ => s

/-- R139, R165: the lane retired flag is cleared when no attribute holds the lane retired. -/
def freeLane (l : LaneId) (s : State) : State :=
  if (attr l .lampReserve s).state = .retired ∨ (attr l .tracking s).state = .retired then s
  else updLsq l (fun q => { q with retired := false }) s

/-- R165: an accepted LOAD_THRESHOLDS. -/
def acceptThresholds (es : List ThresholdEntry) (s : State) : State :=
  let s1 := es.foldl (fun s e => applyThreshold e s) s
  let s2 := es.foldl (fun s e => testThreshold e s) (freeLane .lane1 (freeLane .lane0 s1))
  orderDone none (healthHold .lane1 (healthHold .lane0 s2))

/-- R164: LOAD_THRESHOLDS, its checks in order; the count is field 0 (R192). -/
def loadThresholds (addr : Nat) (s : State) : State :=
  match tableRead addr 4 s with
  | none => orderFaulted .tableRead addr s
  | some h =>
    let n := field h 0 1
    match tableRead addr (4 + 16 * n) s with
    | none => orderFaulted .tableRead addr s
    | some b =>
      if !inRange 1 22 n then orderRefused .badField (some 0) s
      else if !checksumOk b then orderRefused .badChecksum none s
      else match firstBad (thresholdImageFields b n) with
        | some i => orderRefused .badField (some i) s
        | none => acceptThresholds (thresholdEntries b n) s

def execLoadThresholds (s : State) : Host.Outcome State Fault Refusal :=
  match currentBody s with
  | some (.loadThresholds addr) => event true (loadThresholds addr) s
  | _ => .next s

/-! ### Pages -/

/-- R146: the page addresses of a list. -/
def pageList (b : List Byte) (n : Nat) : List Nat := (List.range n).map (fun i => field b (8 * i) 8)

/-- R146: a page address is good. -/
def pageOk (s : State) (a : Nat) : Bool := a % 4096 == 0 && allowed .journalWrite a 4096 s

/-- R146, R185: a page address that the window check refused writes the event of a refused journal write; one that is not
a multiple of 4,096 is refused before that check. -/
def pageChecked (a : Nat) (s : State) : State := if a % 4096 = 0 then windowFault none .journalWrite a s else s

/-- R146: the room left for pages. -/
def pageRoom (s : State) : Nat := 64 - s.jrn.fifo.length - s.jrn.closing.length

/-- R146: the addresses join the FIFO, and a page is taken when there is none. -/
def acceptPages (pages : List Nat) (s : State) : State :=
  orderDone none (takePage (updJrn (fun j =>
    { j with fifo := j.fifo ++ pages, given := satAdd32 j.given pages.length,
             held := satAdd32 j.held pages.length }) s))

/-- R146: GIVE_PAGES, its checks in order. -/
def givePages (addr n : Nat) (s : State) : State :=
  if !inRange 1 64 n then orderRefused .badField none s
  else match tableRead addr (8 * n) s with
    | none => orderFaulted .tableRead addr s
    | some b =>
      let pages := pageList b n
      match firstBad ((pages.zipIdx).map (fun q => (q.2, pageOk s q.1))) with
      | some i => orderRefused .badPage (some i) (pageChecked (pages.getD i 0) s)
      | none => if pageRoom s < n then orderRefused .capacity (some (pageRoom s)) s else acceptPages pages s

def execGivePages (s : State) : Host.Outcome State Fault Refusal :=
  match currentBody s with
  | some (.givePages addr n) => event true (givePages addr n) s
  | _ => .next s

/-- R151: FLUSH_JOURNAL. The order is done when the page it closed has been written out. -/
def flushJournal (s : State) : State :=
  match s.jrn.page with
  | none => orderDone (some nothingDetail) s
  | some p =>
    if p.recs.isEmpty then orderDone (some nothingDetail) s
    else closePage .flush (updOcu (fun o => { o with flushing := some p.seq }) s)

def execFlushJournal (s : State) : Host.Outcome State Fault Refusal :=
  match currentBody s with
  | some .flushJournal => event true flushJournal s
  | _ => .next s

/-! ### Snapshots -/

/-- R144: the zeroing of a tally set; entered becomes the queue occupancy. -/
def zeroTally (l : LaneId) (s : State) : State :=
  { s with tally := s.tally.upd l (fun v => (List.replicate v.length 0).set 0 (s.track.get l).queue.length) }

/-- R143, R144: TALLY_SNAPSHOT. -/
def tallySnapshot (addr lane zf : Nat) (s : State) : State :=
  match laneOfIndex lane with
  | none => orderRefused .badField none s
  | some l =>
    if 1 < zf then orderRefused .badField none s
    else if allowed .snapshotWrite addr 440 s then
      let s1 := writeBytes addr (tallyImage l zf s) s
      orderDone none (if zf = 1 then zeroTally l s1 else s1)
    else orderFaulted .snapshotWrite addr s

def execTallySnapshot (s : State) : Host.Outcome State Fault Refusal :=
  match currentBody s with
  | some (.tallySnapshot addr lane zf) => event true (tallySnapshot addr lane zf) s
  | _ => .next s

/-- R174: HEALTH_SNAPSHOT. -/
def healthSnapshot (addr : Nat) (s : State) : State :=
  if allowed .snapshotWrite addr 792 s then orderDone none (writeBytes addr (healthImage s) s)
  else orderFaulted .snapshotWrite addr s

def execHealthSnapshot (s : State) : Host.Outcome State Fault Refusal :=
  match currentBody s with
  | some (.healthSnapshot addr) => event true (healthSnapshot addr) s
  | _ => .next s

end Sys2Proof.Machine
end

