-- ==== Sys2Proof/Machine/LaneOrders.lean ====
section
/-! DEFINITION. The LANE_CONTROL and POCKET_CONTROL rows (R115, R118, R119, R129 to R137). -/

namespace Sys2Proof.Machine

/-! ### Lane control -/

/-- R129: a LANE_CONTROL row: the order taken is of this action; a bad lane index is refused. -/
def laneControl (a : LaneAction) (act : LaneId → State → State) (s : State) : Host.Outcome State Fault Refusal :=
  match currentBody s with
  | some (.laneControl lane b) =>
    if b = a then
      event true (fun s => match laneOfIndex lane with
        | none => orderRefused .badField none s
        | some l => act l s) s
    else .next s
  | _ => .next s

/-- DONE with result OK and detail NOTHING (R129). -/
def orderNothing (s : State) : State := orderDone (some nothingDetail) s

/-- R121: the order becomes the lane's pending lane order and stays TAKEN. -/
def pendOrder (l : LaneId) (p : PendingLane) (s : State) : State :=
  orderTaken (.laneOrder l) (updLsq l (fun q => { q with pendingOrder := some p }) s)

/-- R130: a RUN that enters WARMING. -/
def runWarming (l : LaneId) (s : State) : State := pendOrder l .run (startWarming l s)

/-- R130: a RUN from READY or STANDBY. -/
def runReady (l : LaneId) (s : State) : State :=
  if (s.lsq.get l).warmed then orderDone none (enterRunning l .order s) else runWarming l s

/-- R129, R130: RUN. -/
def runLane (l : LaneId) (s : State) : State :=
  if s.msc.current.isNone then orderRefused .notConfigured none s
  else if (s.lsq.get l).retired then orderRefused .retired none s
  else match laneMode l s with
    | .off => runWarming l s
    | .ready | .standby => runReady l s
    | .running => orderNothing s
    | .warming | .draining | .stopped | .testing => orderRefused .busy none s

def execLaneControlRun (s : State) : Host.Outcome State Fault Refusal := laneControl .run runLane s

/-- R131: DRAIN from RUNNING. -/
def drainRunning (l : LaneId) (s : State) : State :=
  let s1 := changeLane l .draining .order s
  if (s.track.get l).queue.isEmpty then orderDone none (drainTest l s1) else pendOrder l .drain s1

/-- R129, R131: DRAIN. -/
def drainLane (l : LaneId) (s : State) : State :=
  match laneMode l s with
  | .off | .ready | .standby => orderNothing s
  | .running => drainRunning l s
  | .draining => if (s.lsq.get l).pendingOrder.isNone then pendOrder l .drain s else orderRefused .busy none s
  | .warming | .stopped | .testing => orderRefused .busy none s

def execLaneControlDrain (s : State) : Host.Outcome State Fault Refusal := laneControl .drain drainLane s

/-- R132: STANDBY. -/
def standby (l : LaneId) (s : State) : State :=
  match laneMode l s with
  | .standby => orderNothing s
  | .ready =>
    if (s.track.get l).queue.isEmpty then orderDone none (standbyLane l s) else orderRefused .busy none s
  | .off | .warming | .running | .draining | .stopped | .testing => orderRefused .busy none s

def execLaneControlStandby (s : State) : Host.Outcome State Fault Refusal := laneControl .standby standby s

/-- R132: OFF. -/
def switchOff (l : LaneId) (s : State) : State :=
  match laneMode l s with
  | .off => orderNothing s
  | .ready | .standby =>
    if (s.track.get l).queue.isEmpty then orderDone none (offLane l s) else orderRefused .busy none s
  | .warming | .running | .draining | .stopped | .testing => orderRefused .busy none s

def execLaneControlOff (s : State) : Host.Outcome State Fault Refusal := laneControl .off switchOff s

/-- R136: CLEAR. -/
def clearStopped (l : LaneId) (s : State) : State :=
  match laneMode l s with
  | .stopped => orderDone none (clearLane l s)
  | .off | .warming | .ready | .running | .draining | .standby | .testing => orderRefused .busy none s

def execLaneControlClear (s : State) : Host.Outcome State Fault Refusal := laneControl .clear clearStopped s

/-- R137: ABORT. The order of a test or the pending RUN or DRAIN that it ends becomes final before its own (log entry 67). -/
def execLaneControlAbort (s : State) : Host.Outcome State Fault Refusal :=
  laneControl .abort (fun l s => orderDone none (abortLane l s)) s

/-- R133: HOLD. -/
def execLaneControlHold (s : State) : Host.Outcome State Fault Refusal :=
  laneControl .hold (fun l s =>
    if holdSet l .host s then orderNothing s else orderDone none (setHold l .host true s)) s

/-- R133: RELEASE. -/
def execLaneControlRelease (s : State) : Host.Outcome State Fault Refusal :=
  laneControl .release (fun l s =>
    if holdSet l .host s then orderDone none (setHold l .host false s) else orderNothing s) s

/-! ### Pocket control -/

/-- 6.5: a POCKET_CONTROL row: the order taken is of this action; a bad lane or pocket index is refused, and an end pocket
for every action but SET_CAPACITY. -/
def pocketControl (a : PocketAction) (act : LaneId → Pocket → Nat → State → State) (s : State) :
    Host.Outcome State Fault Refusal :=
  match currentBody s with
  | some (.pocketControl lane pocket b cap) =>
    if b = a then
      event true (fun s => match laneOfIndex lane, pocketOfIndex pocket with
        | some l, some p =>
          if a ≠ .setCapacity ∧ p.gated = false then orderRefused .badField none s else act l p cap s
        | _, _ => orderRefused .badField none s) s
    else .next s
  | _ => .next s

/-- R118: DISABLE. -/
def disablePocket (l : LaneId) (p : Pocket) (s : State) : State :=
  match (pocketRec l p s).state with
  | .opened | .full => orderDone none (setPocketState l p .disabled s)
  | .disabled => orderNothing s
  | .draining | .readyToSwap | .out => orderDone none (updPocket l p (fun r => { r with staysDisabled := true }) s)

def execPocketControlDisable (s : State) : Host.Outcome State Fault Refusal :=
  pocketControl .disable (fun l p _ s => disablePocket l p s) s

/-- R118: ENABLE. -/
def enablePocket (l : LaneId) (p : Pocket) (s : State) : State :=
  match (pocketRec l p s).state with
  | .opened | .full => orderNothing s
  | .disabled => orderDone none (fullTest l p (setPocketState l p .opened s))
  | .draining | .readyToSwap | .out =>
    if (pocketRec l p s).staysDisabled then
      orderDone none (updPocket l p (fun r => { r with staysDisabled := false }) s)
    else orderNothing s

def execPocketControlEnable (s : State) : Host.Outcome State Fault Refusal :=
  pocketControl .enable (fun l p _ s => enablePocket l p s) s

/-- R115, 6.5: SWAP. -/
def execPocketControlSwap (s : State) : Host.Outcome State Fault Refusal :=
  pocketControl .swap (fun l p _ s =>
    if swapActs (pocketRec l p s).state then orderDone none (swapPocket l p s) else orderNothing s) s

/-- R119: a capacity a pocket may take. -/
def capacityOk (l : LaneId) (p : Pocket) (cap : Nat) (s : State) : Bool :=
  let r := pocketRec l p s
  inRange 50 5000 cap && decide ((if p.gated then r.fill + r.reservations.length else r.fill) ≤ cap)

/-- R119: SET_CAPACITY. -/
def execPocketControlSetCapacity (s : State) : Host.Outcome State Fault Refusal :=
  pocketControl .setCapacity (fun l p cap s =>
    if capacityOk l p cap s then orderDone none (applyCapacity l p cap s) else orderRefused .badField none s) s

end Sys2Proof.Machine
end

