-- ==== Sys2Proof/Machine/SelfTest.lean ====
section
/-! DEFINITION. The self-tests: their orders (R166), the REFERENCE steps (R168, R169), idle work (R167), and the class
audit (R61 to R63, R171). -/

namespace Sys2Proof.Machine

/-! ### Starting and aborting -/

/-- R166: the checks of a lane test, then its start. -/
def startLaneTest (lane : Nat) (start : LaneId → State → State) (s : State) : State :=
  match laneOfIndex lane with
  | none => orderRefused .badField none s
  | some l =>
    if (s.hmu.tests.get l).isSome then orderRefused .busy none s
    else if laneMode l s = .ready then orderTaken (.laneTest l) (start l s)
    else orderRefused .busy none s

/-- R138, R166: the lane enters TESTING, TEST enters the set, and the test is running its first step. -/
def enterTesting (l : LaneId) (k : LaneTestKind) (s : State) : State :=
  updHmu (fun h => { h with tests := h.tests.upd l (fun _ => some { kind := k, step := 1 }) })
    (setHold l .test true (changeLane l .testing .test s))

/-- R38, R168: a REFERENCE test begins with a calibration check in reference mode. A short calibration that is running
then runs on (log entry 71). -/
def startReference (l : LaneId) (s : State) : State :=
  updSfe l (fun f => { f with refMode := true, refRequest := some (.calCheck 0) }) (enterTesting l .reference s)

def execSelfTestReference (s : State) : Host.Outcome State Fault Refusal :=
  match currentBody s with
  | some (.selfTest .reference lane _ _ _) => event true (startLaneTest lane startReference) s
  | _ => .next s

/-- R170: a CALIBRATE test requests a long calibration. -/
def startCalibrate (l : LaneId) (s : State) : State :=
  updSfe l (fun f => { f with longRequest := some .selfTest }) (enterTesting l .calibrate s)

def execSelfTestCalibrate (s : State) : Host.Outcome State Fault Refusal :=
  match currentBody s with
  | some (.selfTest .calibrate lane _ _ _) => event true (startLaneTest lane startCalibrate) s
  | _ => .next s

/-- R167: a request for idle work joins the waiting requests. -/
def askIdle (r : IdleRequest) (s : State) : State := updMsc (fun m => { m with idleRequests := m.idleRequests ++ [r] }) s

/-- R61: an audit of a set of classes, whose result area is at an address. -/
def newAudit (generation : Nat) (classes : List Nat) (area : Nat) : Audit :=
  { generation := generation, left := classes, total := classes.length, nextAddr := area, lastWritten := 0, tens := 10,
    begun := false }

/-- R61, R172: an audit of an empty set ends PASS in the event that starts it; its order is DONE at once. -/
def emptyAudit (a : Audit) (s : State) : State := raise .testDone (orderDone (some 0) (auditRecords a .pass s))

/-- R61, R166: the start of a class audit. -/
def startAudit (spanCount : Nat) (spans : List (Nat × Nat)) (area : Nat) (s : State) : State :=
  if 4 < spanCount then orderRefused .badField none s
  else if s.hmu.audit.isSome then orderRefused .busy none s
  else match s.msc.current with
    | none => orderRefused .notConfigured none s
    | some t =>
      let used := spans.take spanCount
      if used.any (fun q => !spanOk t.entries.length q) then orderRefused .badField none s
      else
        let a := newAudit t.generation (auditSet t used) area
        if a.left.isEmpty then emptyAudit a s
        else orderTaken .audit (askIdle .audit (updHmu (fun h => { h with audit := some a }) s))

def execSelfTestClassAudit (s : State) : Host.Outcome State Fault Refusal :=
  match currentBody s with
  | some (.selfTest .classAudit _ n spans area) => event true (startAudit n spans area) s
  | _ => .next s

/-- R166: the abort flag for a lane test. -/
def abortLaneTest (k : LaneTestKind) (lane : Nat) (s : State) : State :=
  match laneOfIndex lane with
  | none => orderRefused .badField none s
  | some l => match s.hmu.tests.get l with
    | none => orderNothing s
    | some t => if t.kind = k then orderDone none (endLaneTest l .abortedByHost .ownCourse s) else orderNothing s

/-- R166: the abort flag of a SELF_TEST order. -/
def abortTest (k : TestKind) (lane : Nat) (s : State) : State :=
  match k with
  | .reference => abortLaneTest .reference lane s
  | .calibrate => abortLaneTest .calibrate lane s
  | .classAudit =>
    if s.hmu.audit.isSome then orderDone none (endAudit .abortedByHost s) else orderNothing s

def execSelfTestAbort (s : State) : Host.Outcome State Fault Refusal :=
  match currentBody s with
  | some (.selfTestAbort k lane) => event true (abortTest k lane) s
  | _ => .next s

/-! ### The REFERENCE steps -/

/-- R172: the test goes on to a step. -/
def toStep (l : LaneId) (n : Nat) (s : State) : State :=
  updHmu (fun h => { h with tests := h.tests.upd l (fun t => t.map (fun q => { q with step := n })) }) s

/-- R38, R168: step 1: the calibrated mean of a channel of the calibration check. -/
def checkMean (p : CalPair) (xs : List (BitVec 12)) : Nat := (xs.map (fun x => calibrated p x.toNat)).sum / 64

/-- R168: step 1 passes. -/
def calCheckPasses (f : Sfe) (readings : List (List (BitVec 12))) : Bool :=
  f.lastLong.isSome && (f.pairs.zip readings).all (fun q => inRange 776 824 (checkMean q.1 q.2))

/-- R168: REF_CAL_CHECK_COMPLETE, 16 ms after the check began. -/
def completeCalCheck (l : LaneId) (readings : List (List (BitVec 12))) (s : State) : State :=
  let s1 := updSfe l (fun f => { f with refRequest := none }) s
  if calCheckPasses (s.sfe.get l) readings then
    toStep l 2 (updSfe l (fun f => { f with refRequest := some (.trace 1 0) }) s1)
  else endLaneTest l .failFrontEnd .ownCourse s1

def execRefCalCheckComplete (l : LaneId) (readings : List (List (BitVec 12))) (s : State) :
    Host.Outcome State Fault Refusal :=
  eventWithin (measureOk readings) (match (s.sfe.get l).refRequest with
    | some (.calCheck t) => calCheckTicks ≤ t
    | _ => false) (completeCalCheck l readings) s

/-- R38, R167: SYNTHETIC_TRACE_DONE, N × 50 µs after the trace began: its scoring is asked for as idle work. -/
def execSyntheticTraceDone (l : LaneId) (s : State) : Host.Outcome State Fault Refusal :=
  event (match (s.sfe.get l).refRequest with
    | some (.trace _ t) => 240 ≤ t
    | _ => false)
    (fun s => askIdle (.laneItem l) (updSfe l (fun f => { f with refRequest := none }) s)) s

/-- R168: the raw reading of a level on a channel. -/
def levelReading (m : CalMeans) (level : Nat) : Nat :=
  ((m.dark : Int) + ((level : Int) * ((m.reference : Int) - (m.dark : Int))) / 800).toNat

/-- R38, R168: one sample of a synthetic item, converted with the lane's pairs. -/
def syntheticSample (f : Sfe) (item i : Nat) : List Nat :=
  ((f.pairs.zip (f.lastLong.getD [])).zipIdx).map (fun q =>
    calibrated q.1.1 (levelReading q.1.2 (itemLevel item (q.2 / 3) (q.2 % 3) i)))

/-- R168: the figures of a synthetic item, N = 240, W = 24. -/
def syntheticFigures (f : Sfe) (item : Nat) : List (List Figure) :=
  traceFigures 24 ((List.range 240).map (syntheticSample f item))

/-- R169: a step 2..9 that passes: the next trace, or step 10. -/
def nextItem (l : LaneId) (step : Nat) (s : State) : State :=
  let s1 := toStep l (step + 1) s
  if step = 9 then askIdle (.laneItem l) s1 else updSfe l (fun f => { f with refRequest := some (.trace step 0) }) s1

/-- R169: a step whose scoring is complete is judged. -/
def judgeStep (l : LaneId) (step : Nat) (s : State) : State :=
  if step = 10 then endLaneTest l (if consistencyPasses then .pass else .failScorer) .ownCourse s
  else
    let figs := syntheticFigures (s.sfe.get l) (step - 1)
    if !strengthsExpected (step - 1) figs then endLaneTest l .failFrontEnd .ownCourse s
    else if !verdictExpected 24 (step - 1) (judge builtInTable 240 figs) then endLaneTest l .failScorer .ownCourse s
    else nextItem l step s

/-- R167: the idle request being worked is done. -/
def idleDone (s : State) : State :=
  updMsc (fun m => { m with idleRequests := m.idleRequests.drop 1, idleRunning := false }) s

/-- R167: the engine works an idle request. -/
def idleOn (r : IdleRequest) (s : State) : Bool := s.msc.idleRunning && s.msc.idleRequests.head? == some r

/-- R169: SYNTHETIC_ITEM_SCORED. -/
def execSyntheticItemScored (l : LaneId) (s : State) : Host.Outcome State Fault Refusal :=
  match s.hmu.tests.get l with
  | none => .next s
  | some t => event (idleOn (.laneItem l) s) (fun s => judgeStep l t.step (idleDone s)) s

/-! ### Idle work and the audit -/

/-- R63, R167: IDLE_WORK_START. Idle work is done only while the scorer queue is empty. -/
def startIdle (s : State) : State :=
  let s1 := updMsc (fun m => { m with idleRunning := true }) s
  match s.msc.idleRequests.head? with
  | some .audit => updHmu (fun h => { h with audit := h.audit.map (fun a => { a with begun := true }) }) s1
  | _ => s1

def execIdleWorkStart (s : State) : Host.Outcome State Fault Refusal :=
  event (s.msc.jobs.isEmpty && s.msc.scoring.isNone && !s.msc.idleRequests.isEmpty && !s.msc.idleRunning) startIdle s

/-- 11.5: an audit result entry: class index, result, selecting index, pad. -/
def auditEntry (k : Nat) (winner : Option Nat) : List Byte :=
  match winner with
  | none => [byteOf k, 0, 0, 0]
  | some w => if w = k then [byteOf k, 0, 0, 0] else [byteOf k, 1, byteOf w, 0]

/-- R63: the audit after one class has been written. -/
def auditStep (a : Audit) : Audit :=
  let left := a.left.drop 1
  { a with left := left, nextAddr := a.nextAddr + 4, lastWritten := a.left.headD 0,
           tens := (10 * left.length + a.total - 1) / a.total }

/-- R62: the winner of the audited class's own letter in the current table. -/
def auditResult (k : Nat) (s : State) : Option Nat :=
  match s.msc.current with
  | none => none
  | some t => match t.entries[k - 1]? with
    | none => none
    | some c => auditWinner t c

/-- R63, R171: the evaluation of a class completes. -/
def completeAudit (a : Audit) (s : State) : State :=
  let k := a.left.headD 0
  let s1 := idleDone s
  if allowed .snapshotWrite a.nextAddr 4 s1 then
    let b := auditStep a
    let s2 := updHmu (fun h => { h with audit := some b }) (writeBytes a.nextAddr (auditEntry k (auditResult k s1)) s1)
    if b.left.isEmpty then endAudit .pass s2 else askIdle .audit s2
  else endAudit .abortedByFault (windowFault none .snapshotWrite a.nextAddr s1)

/-- R63: AUDIT_EVAL_COMPLETE. -/
def execAuditEvalComplete (s : State) : Host.Outcome State Fault Refusal :=
  match s.hmu.audit with
  | none => .next s
  | some a => event (idleOn .audit s) (completeAudit a) s

end Sys2Proof.Machine
end

