-- ==== Sys2Proof/Machine/Tick.lean ====
section
/-! DEFINITION. The passing of time: one tick is 50 µs, the eye sample period (R5). A tick advances every timer that runs
and records the counter of each lane; what a timer brings about is a command of the table (log entries 6 and 7). -/

namespace Sys2Proof.Machine

/-- The millisecond time since device reset (00_scope.md). -/
def tickClock (c : Clock) : Clock :=
  if c.sub + 1 < ticksPerMs then { c with sub := c.sub + 1 } else ⟨c.ms + 1, 0, true⟩

/-- R3, R5: the sample records shift, and the speed interval runs. -/
def tickBelt (b : Belt) : Belt :=
  { b with samples := b.samples.drop 1 ++ [⟨b.counter, b.fwd, b.live⟩], intervalTicks := b.intervalTicks + 1 }

def tickOpt (t : Option Nat) : Option Nat := t.map (fun n => n + 1)

/-- R38: a request in reference mode is paced by time. -/
def tickRef : RefRequest → RefRequest
  | .calCheck t => .calCheck (t + 1)
  | .trace i t => .trace i (t + 1)

/-- R31, R34, R35, R37, R38: the timers of the Scan Front End. -/
def tickSfe (counts : Bool) (f : Sfe) : Sfe :=
  { f with
    longRun := tickOpt f.longRun, shortRun := tickOpt f.shortRun, gapHold := tickOpt f.gapHold,
    calTicks := if counts then f.calTicks + 1 else f.calTicks, refRequest := f.refRequest.map tickRef }

/-- R77: a hold timer. -/
def tickChannel (c : Channel) : Channel :=
  { c with hold := c.hold.map (fun t => { t with ticks := t.ticks + 1 }) }

/-- R92, R98, R102 to R104: the timers of a head. The spit timer is held while the head is COLD. -/
def tickHead (h : Head) : Head :=
  { h with
    tempTicks := h.tempTicks + 1, load := h.load.map (fun q => { q with ticks := q.ticks + 1 }),
    spitTicks := if h.wet = .cold then h.spitTicks else h.spitTicks + 1, gapRequest := tickOpt h.gapRequest,
    spitRun := tickOpt h.spitRun }

/-- R123, R125, R127: the timers of the Lane Sequencer. -/
def tickLsq (idles : Bool) (q : Lsq) : Lsq :=
  { q with
    lampWarm := tickOpt q.lampWarm, rise := q.rise.map (fun r => { r with ticks := r.ticks + 1 }),
    idle := if idles then q.idle + 1 else 0 }

/-- R86, R88: the date clock's second and the composition. -/
def tickPmc (p : Pmc) : Pmc :=
  { p with
    clockTicks := if p.clockSet then p.clockTicks + 1 else p.clockTicks,
    composing := p.composing.map (fun c => { c with ticks := c.ticks + 1 }) }

/-- R180: the poll timer. -/
def tickOcu (o : Ocu) : Ocu := { o with pollTicks := if o.waiting then o.pollTicks + 1 else o.pollTicks }

/-- R186: the pacing of status writes. -/
def tickStat (t : StatusUnit) : StatusUnit := { t with sinceWrite := tickOpt t.sinceWrite }

/-- One tick of 50 µs. -/
def tick (s : State) : State :=
  { s with
    clock := tickClock s.clock, belt := ⟨tickBelt s.belt.lane0, tickBelt s.belt.lane1⟩,
    sfe := ⟨tickSfe (calCounts .lane0 s) s.sfe.lane0, tickSfe (calCounts .lane1 s) s.sfe.lane1⟩,
    gsq := ⟨{ s.gsq.lane0 with channels := s.gsq.lane0.channels.map tickChannel },
            { s.gsq.lane1 with channels := s.gsq.lane1.channels.map tickChannel }⟩,
    cnu := ⟨⟨tickHead s.cnu.lane0.near, tickHead s.cnu.lane0.far⟩,
            ⟨tickHead s.cnu.lane1.near, tickHead s.cnu.lane1.far⟩⟩,
    lsq := ⟨tickLsq (idleCounts .lane0 s) s.lsq.lane0, tickLsq (idleCounts .lane1 s) s.lsq.lane1⟩,
    pmc := tickPmc s.pmc, ocu := tickOcu s.ocu, stat := tickStat s.stat }

end Sys2Proof.Machine
end

