-- ==== Sys2Proof/Machine/Dispatch.lean ====
section
/-! DEFINITION. The dispatch of commands: one arm for each row of spec/opcode_table.json. -/

namespace Sys2Proof.Machine

/-- The effect of a command on everything but the queue of waiting commands. -/
def exec (i : Instr) (s : State) : Host.Outcome State Fault Refusal :=
  match i with
  | .deviceReset => Sys2Proof.Machine.execDeviceReset s
  | .encoderCount l forward => Sys2Proof.Machine.execEncoderCount l forward s
  | .speedInterval l => Sys2Proof.Machine.execSpeedInterval l s
  | .eLeadingEdge l held => Sys2Proof.Machine.execELeadingEdge l held s
  | .eTrailingEdge l held => Sys2Proof.Machine.execETrailingEdge l held s
  | .longTimeout l serial => Sys2Proof.Machine.execLongTimeout l serial s
  | .blockedEye l eye => Sys2Proof.Machine.execBlockedEye l eye s
  | .nearPointReached l => Sys2Proof.Machine.execNearPointReached l s
  | .clearPointReached l => Sys2Proof.Machine.execClearPointReached l s
  | .sampleTaken l serial readings => Sys2Proof.Machine.execSampleTaken l serial readings s
  | .scoringComplete => Sys2Proof.Machine.execScoringComplete s
  | .forcedDelivery l serial => Sys2Proof.Machine.execForcedDelivery l serial s
  | .bankPositionReached l serial => Sys2Proof.Machine.execBankPositionReached l serial s
  | .arrivalT l held => Sys2Proof.Machine.execArrivalT l held s
  | .tWindowPassed l serial => Sys2Proof.Machine.execTWindowPassed l serial s
  | .arrivalCancelEye l side held => Sys2Proof.Machine.execArrivalCancelEye l side held s
  | .cancelWindowPassed l serial side => Sys2Proof.Machine.execCancelWindowPassed l serial side s
  | .lostAtCancelEye l serial => Sys2Proof.Machine.execLostAtCancelEye l serial s
  | .lostAtEndEye l serial => Sys2Proof.Machine.execLostAtEndEye l serial s
  | .arrivalPocketEye l pocket held => Sys2Proof.Machine.execArrivalPocketEye l pocket held s
  | .verifyEdge l side held => Sys2Proof.Machine.execVerifyEdge l side held s
  | .verifyEntryExpiry l side => Sys2Proof.Machine.execVerifyEntryExpiry l side s
  | .gateOnEvent l gate => Sys2Proof.Machine.execGateOnEvent l gate s
  | .gateWindowClose l gate => Sys2Proof.Machine.execGateWindowClose l gate s
  | .gateHoldExpiry l gate => Sys2Proof.Machine.execGateHoldExpiry l gate s
  | .printStart l side => Sys2Proof.Machine.execPrintStart l side s
  | .printEnd l side => Sys2Proof.Machine.execPrintEnd l side s
  | .rasterLoadStart l side => Sys2Proof.Machine.execRasterLoadStart l side s
  | .rasterLoadComplete l side => Sys2Proof.Machine.execRasterLoadComplete l side s
  | .spitTimerExpiry l side => Sys2Proof.Machine.execSpitTimerExpiry l side s
  | .spitGapTimeout l side => Sys2Proof.Machine.execSpitGapTimeout l side s
  | .spitStart l side => Sys2Proof.Machine.execSpitStart l side s
  | .spitComplete l side => Sys2Proof.Machine.execSpitComplete l side s
  | .headTempReading l side temp => Sys2Proof.Machine.execHeadTempReading l side temp s
  | .lampWarmComplete l => Sys2Proof.Machine.execLampWarmComplete l s
  | .lampRiseComplete l => Sys2Proof.Machine.execLampRiseComplete l s
  | .idleTimerExpiry l => Sys2Proof.Machine.execIdleTimerExpiry l s
  | .feedReqChange l level held => Sys2Proof.Machine.execFeedReqChange l level held s
  | .longCalStart l => Sys2Proof.Machine.execLongCalStart l s
  | .longCalComplete l dark reference => Sys2Proof.Machine.execLongCalComplete l dark reference s
  | .calIntervalExpiry l => Sys2Proof.Machine.execCalIntervalExpiry l s
  | .gapCalHoldExpiry l => Sys2Proof.Machine.execGapCalHoldExpiry l s
  | .shortCalStart l => Sys2Proof.Machine.execShortCalStart l s
  | .shortCalComplete l dark reference => Sys2Proof.Machine.execShortCalComplete l dark reference s
  | .clockSecond => Sys2Proof.Machine.execClockSecond s
  | .compositionComplete => Sys2Proof.Machine.execCompositionComplete s
  | .stagedTableApply => Sys2Proof.Machine.execStagedTableApply s
  | .idleWorkStart => Sys2Proof.Machine.execIdleWorkStart s
  | .auditEvalComplete => Sys2Proof.Machine.execAuditEvalComplete s
  | .refCalCheckComplete l readings => Sys2Proof.Machine.execRefCalCheckComplete l readings s
  | .syntheticTraceDone l => Sys2Proof.Machine.execSyntheticTraceDone l s
  | .syntheticItemScored l => Sys2Proof.Machine.execSyntheticItemScored l s
  | .swapRequest l pocket pressed held => Sys2Proof.Machine.execSwapRequest l pocket pressed held s
  | .trayOut l pocket held => Sys2Proof.Machine.execTrayOut l pocket held s
  | .trayIn l pocket held => Sys2Proof.Machine.execTrayIn l pocket held s
  | .pollTimerExpiry => Sys2Proof.Machine.execPollTimerExpiry s
  | .chainLinkRead => Sys2Proof.Machine.execChainLinkRead s
  | .statusWrite => Sys2Proof.Machine.execStatusWrite s
  | .pageWriteOut => Sys2Proof.Machine.execPageWriteOut s
  | .runChainStart => Sys2Proof.Machine.execRunChainStart s
  | .runChainStop => Sys2Proof.Machine.execRunChainStop s
  | .irqEnable => Sys2Proof.Machine.execIrqEnable s
  | .irqDisable => Sys2Proof.Machine.execIrqDisable s
  | .look => Sys2Proof.Machine.execLook s
  | .reset => Sys2Proof.Machine.execReset s
  | .chainLoWrite value => Sys2Proof.Machine.execChainLoWrite value s
  | .chainHiWrite value => Sys2Proof.Machine.execChainHiWrite value s
  | .chainLoRead bytes => Sys2Proof.Machine.execChainLoRead bytes s
  | .chainHiRead bytes => Sys2Proof.Machine.execChainHiRead bytes s
  | .attnWrite value => Sys2Proof.Machine.execAttnWrite value s
  | .registerWriteIgnored offset width value => Sys2Proof.Machine.execRegisterWriteIgnored offset width value s
  | .configurePort => Sys2Proof.Machine.execConfigurePort s
  | .setWindows => Sys2Proof.Machine.execSetWindows s
  | .identify => Sys2Proof.Machine.execIdentify s
  | .loadClasses => Sys2Proof.Machine.execLoadClasses s
  | .loadGeometry => Sys2Proof.Machine.execLoadGeometry s
  | .loadStyles => Sys2Proof.Machine.execLoadStyles s
  | .setClock => Sys2Proof.Machine.execSetClock s
  | .loadThresholds => Sys2Proof.Machine.execLoadThresholds s
  | .givePages => Sys2Proof.Machine.execGivePages s
  | .flushJournal => Sys2Proof.Machine.execFlushJournal s
  | .laneControlRun => Sys2Proof.Machine.execLaneControlRun s
  | .laneControlDrain => Sys2Proof.Machine.execLaneControlDrain s
  | .laneControlStandby => Sys2Proof.Machine.execLaneControlStandby s
  | .laneControlOff => Sys2Proof.Machine.execLaneControlOff s
  | .laneControlClear => Sys2Proof.Machine.execLaneControlClear s
  | .laneControlAbort => Sys2Proof.Machine.execLaneControlAbort s
  | .laneControlHold => Sys2Proof.Machine.execLaneControlHold s
  | .laneControlRelease => Sys2Proof.Machine.execLaneControlRelease s
  | .pocketControlDisable => Sys2Proof.Machine.execPocketControlDisable s
  | .pocketControlEnable => Sys2Proof.Machine.execPocketControlEnable s
  | .pocketControlSwap => Sys2Proof.Machine.execPocketControlSwap s
  | .pocketControlSetCapacity => Sys2Proof.Machine.execPocketControlSetCapacity s
  | .tallySnapshot => Sys2Proof.Machine.execTallySnapshot s
  | .healthSnapshot => Sys2Proof.Machine.execHealthSnapshot s
  | .selfTestReference => Sys2Proof.Machine.execSelfTestReference s
  | .selfTestCalibrate => Sys2Proof.Machine.execSelfTestCalibrate s
  | .selfTestClassAudit => Sys2Proof.Machine.execSelfTestClassAudit s
  | .selfTestAbort => Sys2Proof.Machine.execSelfTestAbort s
  | .eyeTrailingEdge l eye held => Sys2Proof.Machine.execEyeTrailingEdge l eye held s

end Sys2Proof.Machine
end

