-- ==== Sys2Proof/Safety.lean ====
section
/-! DEFINITION. The terms in which claims are stated: the parts of the state and what it is to change only some of them,
the invariants that every step keeps, and what a safe run is. -/

namespace Sys2Proof.Machine

/-! ### Parts of the state -/

/-- The parts of the state that a claim may name as changed. `idle` is the idle timer of a lane (R125), `lane` the rest
of its Lane Sequencer; `statusDue` the due mark and the reasons waiting for a status write, `statusUnit` the rest of the
status machinery; `attn` the ATTN flags, `msi` the messages sent, `registers` the rest of the PCIe interface; `attrs` the
health records of a lane, `tests` the rest of the Health Monitor Unit. -/
inductive Part where
  | queue | clock | mem | raised | free
  | belt (l : LaneId) | eyes (l : LaneId) | track (l : LaneId) | geom (l : LaneId) | sfe (l : LaneId)
  | gates (l : LaneId) | heads (l : LaneId) | pockets (l : LaneId) | lane (l : LaneId) | idle (l : LaneId)
  | tally (l : LaneId) | attrs (l : LaneId)
  | scorer | postmark | journal | tests | orders | statusDue | statusUnit | windows | attn | msi | registers
  deriving DecidableEq, Repr

/-- Two states agree on a part. -/
def agree (p : Part) (s t : State) : Prop :=
  match p with
  | .queue => t.pending = s.pending
  | .clock => t.clock = s.clock
  | .mem => t.mem = s.mem
  | .raised => t.raised = s.raised
  | .free => t.freeCount = s.freeCount
  | .belt l => t.belt.get l = s.belt.get l
  | .eyes l => t.eyes.get l = s.eyes.get l
  | .track l => t.track.get l = s.track.get l
  | .geom l => t.geom.get l = s.geom.get l
  | .sfe l => t.sfe.get l = s.sfe.get l
  | .gates l => t.gsq.get l = s.gsq.get l
  | .heads l => t.cnu.get l = s.cnu.get l
  | .pockets l => t.pkr.get l = s.pkr.get l
  | .lane l => { t.lsq.get l with idle := 0 } = { s.lsq.get l with idle := 0 }
  | .idle l => (t.lsq.get l).idle = (s.lsq.get l).idle
  | .tally l => t.tally.get l = s.tally.get l
  | .attrs l => t.hmu.attrs.get l = s.hmu.attrs.get l
  | .scorer => t.msc = s.msc
  | .postmark => t.pmc = s.pmc
  | .journal => t.jrn = s.jrn
  | .tests => t.hmu.log = s.hmu.log ∧ t.hmu.pointer = s.hmu.pointer ∧ t.hmu.tests = s.hmu.tests ∧ t.hmu.audit = s.hmu.audit
  | .orders => t.ocu = s.ocu
  | .statusDue => t.stat.due = s.stat.due ∧ t.stat.waiting = s.stat.waiting
  | .statusUnit => t.stat.addr = s.stat.addr ∧ t.stat.again = s.stat.again ∧ t.stat.suspended = s.stat.suspended ∧
      t.stat.sinceWrite = s.stat.sinceWrite ∧ t.stat.updateCount = s.stat.updateCount
  | .windows => t.mwu = s.mwu
  | .attn => t.pif.attn = s.pif.attn
  | .msi => t.pif.msiSent = s.pif.msiSent ∧ t.pif.msiLast = s.pif.msiLast
  | .registers => t.pif.runChain = s.pif.runChain ∧ t.pif.irqEnable = s.pif.irqEnable ∧ t.pif.mask = s.pif.mask ∧
      t.pif.latch = s.pif.latch ∧ t.pif.readData = s.pif.readData ∧ t.pif.msiEnable = s.pif.msiEnable ∧
      t.pif.msiAddress = s.pif.msiAddress ∧ t.pif.msiData = s.pif.msiData

/-- Every part outside a set of parts is unchanged. -/
def Only (ps : Part → Prop) (s t : State) : Prop := ∀ p, ¬ ps p → agree p s t

/-- The parts that the end of an event may change whatever the event is (R125, R177, R178, R186). -/
def eventEnd : List Part := [.idle .lane0, .idle .lane1, .statusDue, .attn, .msi, .raised]

/-- From one state to another nothing changes but the listed parts and those the end of an event may change. -/
def changesOnly (ps : List Part) (s t : State) : Prop := Only (fun p => p ∈ eventEnd ∨ p ∈ ps) s t

/-! ### What each command may change -/

/-- What the final state write of an order may change: host memory, the counts and the chain (R180, R183), a free value
drawn for an unstated detail, and the event of a refused access (R185). -/
def orderParts : List Part := [.mem, .free, .journal, .orders, .registers]

/-- What a reroute of an item may change (R78). -/
def itemParts (l : LaneId) : List Part := [.track l, .gates l, .heads l, .pockets l, .tally l, .attrs l, .journal]

/-- What an evaluation of a health record may change: a failing record may retire an element, and a retired lane drains
or ends its pending order (R161 to R163, R139). -/
def healthParts (l : LaneId) : List Part := [.gates l, .heads l, .lane l, .attrs l] ++ orderParts

/-- What the delivery or the end of an entry may change (R14, R23). -/
def entryParts (l : LaneId) : List Part :=
  [.track l, .sfe l, .gates l, .heads l, .pockets l, .lane l, .tally l, .attrs l] ++ orderParts

/-- What the end of a self-test of a lane may change (R172). -/
def testParts (l : LaneId) : List Part := [.sfe l, .lane l, .scorer, .tests] ++ orderParts

/-- The parts of both lanes. -/
def both (f : LaneId → List Part) : List Part := f .lane0 ++ f .lane1

/-- The parts each command may change, beside those that the end of every event may change. -/
def partsOf (c : Instr) : List Part :=
  match c with
  | .deviceReset | .reset =>
    [.clock, .registers, .scorer, .postmark, .journal, .tests, .orders, .statusUnit, .windows] ++
      both (fun l => [.belt l, .eyes l, .track l, .geom l, .sfe l, .gates l, .heads l, .pockets l, .lane l, .tally l,
        .attrs l])
  | .encoderCount l _ => [.belt l, .eyes l, .track l]
  | .speedInterval l => [.belt l]
  | .eLeadingEdge l _ => [.eyes l] ++ entryParts l ++ testParts l
  | .eTrailingEdge l _ => [.eyes l] ++ entryParts l
  | .longTimeout l _ => entryParts l
  | .blockedEye l _ => [.eyes l, .track l, .gates l, .heads l, .tally l] ++ testParts l
  | .nearPointReached l => [.sfe l, .journal]
  | .clearPointReached l => [.sfe l]
  | .sampleTaken _ _ _ => both entryParts ++ [.scorer]
  | .scoringComplete => both entryParts ++ [.scorer]
  | .forcedDelivery l _ => entryParts l
  | .bankPositionReached l _ => [.track l]
  | .arrivalT l _ => [.eyes l] ++ itemParts l
  | .tWindowPassed l _ => [.track l]
  | .arrivalCancelEye l _ _ => [.eyes l] ++ itemParts l
  | .cancelWindowPassed l _ _ => [.track l, .heads l]
  | .lostAtCancelEye l _ => entryParts l ++ testParts l
  | .lostAtEndEye l _ => entryParts l ++ testParts l
  | .arrivalPocketEye l _ _ => [.eyes l] ++ entryParts l
  | .verifyEdge l _ _ => [.eyes l, .tally l] ++ healthParts l
  | .verifyEntryExpiry l _ => [.heads l, .tally l]
  | .gateOnEvent l _ => itemParts l
  | .gateWindowClose l _ => itemParts l
  | .gateHoldExpiry l _ => itemParts l
  | .printStart l _ => itemParts l
  | .printEnd l _ => [.track l, .heads l, .tally l]
  | .rasterLoadStart l _ => [.heads l]
  | .rasterLoadComplete l _ => [.heads l]
  | .spitTimerExpiry l _ => healthParts l
  | .spitGapTimeout l _ => [.heads l, .lane l]
  | .spitStart l _ => [.heads l]
  | .spitComplete l _ => healthParts l
  | .headTempReading l _ _ => [.heads l]
  | .lampWarmComplete l => [.sfe l, .lane l]
  | .lampRiseComplete l => [.sfe l, .lane l]
  | .idleTimerExpiry l => entryParts l
  | .feedReqChange l _ _ => [.lane l]
  | .longCalStart l => [.sfe l]
  | .longCalComplete l _ _ => healthParts l ++ testParts l
  | .calIntervalExpiry l => [.sfe l] ++ healthParts l
  | .gapCalHoldExpiry l => [.sfe l, .lane l]
  | .shortCalStart l => [.sfe l]
  | .shortCalComplete l _ _ => [.sfe l] ++ healthParts l
  | .clockSecond => [.postmark, .journal, .free] ++ both (fun l => [.heads l])
  | .compositionComplete => [.postmark, .journal, .free] ++ both (fun l => [.heads l])
  | .stagedTableApply => [.scorer, .tests] ++ orderParts
  | .idleWorkStart => [.scorer, .tests]
  | .auditEvalComplete => [.scorer, .tests] ++ orderParts
  | .refCalCheckComplete l _ => testParts l
  | .syntheticTraceDone l => [.sfe l, .scorer]
  | .syntheticItemScored l => testParts l
  | .swapRequest l _ _ _ => [.pockets l]
  | .trayOut l _ _ => itemParts l
  | .trayIn l _ _ => [.pockets l, .lane l, .journal]
  | .pollTimerExpiry => orderParts
  | .chainLinkRead => orderParts
  | .statusWrite => [.mem, .journal, .statusUnit]
  | .pageWriteOut => orderParts ++ both (fun l => [.tally l])
  | .runChainStart => orderParts
  | .runChainStop => [.orders, .registers]
  | .irqEnable => [.registers]
  | .irqDisable => [.registers]
  | .look => orderParts
  | .chainLoWrite _ => [.orders, .registers]
  | .chainHiWrite _ => [.orders, .registers]
  | .chainLoRead _ => [.registers]
  | .chainHiRead _ => [.registers]
  | .attnWrite _ => []
  | .registerWriteIgnored _ _ _ => []
  | .configurePort => .statusUnit :: orderParts
  | .setWindows => .windows :: .statusUnit :: orderParts
  | .identify => orderParts
  | .loadClasses => [.scorer, .tests] ++ orderParts
  | .loadGeometry => both (fun l => [.geom l, .gates l, .pockets l, .lane l]) ++ orderParts
  | .loadStyles => .postmark :: both (fun l => [.heads l]) ++ orderParts
  | .setClock => .postmark :: both (fun l => [.heads l]) ++ orderParts
  | .loadThresholds => both healthParts
  | .givePages => orderParts
  | .flushJournal => orderParts
  | .laneControlRun => both (fun l => [.eyes l, .sfe l, .lane l]) ++ orderParts
  | .laneControlDrain => both (fun l => [.lane l]) ++ orderParts
  | .laneControlStandby => both entryParts
  | .laneControlOff => both entryParts
  | .laneControlClear => .scorer :: both (fun l => .eyes l :: entryParts l)
  | .laneControlAbort => both (fun l => entryParts l ++ testParts l)
  | .laneControlHold => both (fun l => [.lane l]) ++ orderParts
  | .laneControlRelease => both (fun l => [.lane l]) ++ orderParts
  | .pocketControlDisable => both (fun l => [.pockets l]) ++ orderParts
  | .pocketControlEnable => both (fun l => [.pockets l]) ++ orderParts
  | .pocketControlSwap => both (fun l => [.pockets l]) ++ orderParts
  | .pocketControlSetCapacity => both (fun l => [.pockets l, .lane l]) ++ orderParts
  | .tallySnapshot => both (fun l => [.tally l]) ++ orderParts
  | .healthSnapshot => orderParts
  | .selfTestReference => both testParts
  | .selfTestCalibrate => both testParts
  | .selfTestClassAudit => [.scorer, .tests] ++ orderParts
  | .selfTestAbort => both testParts
  | .eyeTrailingEdge l _ _ => [.eyes l]

/-! ### Orders and reasons -/

/-- The reasons set in ATTN or waiting for a status write (R177). -/
def reasons (s : State) : BitVec 10 := s.pif.attn ||| s.stat.waiting

/-- A reason is set in ATTN, or waits for the status write that carries its change (R177). -/
def reported (a : Attn) (s : State) : Prop := (reasons s).getLsbD (attnIndex a) = true

/-- The chain has taken a block with this body, and the order is still to be carried out (R180). -/
def Taken (b : OrderBlock) (body : OrderBody) (s : State) : Prop :=
  s.ocu.current = some b ∧ b.body = body ∧ s.ocu.flushing = none

/-- From one state to another a taken order has reached its final state (R179 to R181): into host memory `m`, as the order
left it, go the block's state, result code, detail and completion time; the order counts as completed, the chain goes on
to the block's link, and a notify flag reports ORDER_NOTIFY. With no detail named any detail may stand. -/
def Ended (b : OrderBlock) (st : BlockState) (code : ResultCode) (detail : Option Nat) (m : List Host.Cell) (s t : State) :
    Prop :=
  (∃ d, (∀ x, detail = some x → d = x) ∧
    t.mem = memWriteN m (b.addr + 12) (orderStateBytes st (resultCode code) d s.clock.ms.toNat)) ∧
  t.ocu.current = none ∧ t.ocu.phase = .link ∧ t.ocu.completed = satAdd32 s.ocu.completed 1 ∧
  t.ocu.lastOrder = b.addr ∧ t.ocu.position = s.ocu.position ∧ t.ocu.longList = s.ocu.longList ∧
  (b.notify = true → reported .orderNotify t)

/-- Two orders of a lane have reached their final states in one event, the long order `o` first and then the order in
progress `b`: the two writes, an empty long-order list and two more orders completed (R172, R180, R182). A detail that is
not named may be any. -/
def EndedWithLong (o : LongOrder) (st : BlockState) (code : ResultCode) (detail : Option Nat) (b : OrderBlock)
    (s t : State) : Prop :=
  (∃ x y, (∀ d, detail = some d → x = d) ∧
    t.mem = memWriteN (memWriteN s.mem (o.addr + 12) (orderStateBytes st (resultCode code) x s.clock.ms.toNat))
      (b.addr + 12) (orderStateBytes .done 0 y s.clock.ms.toNat)) ∧
  t.ocu.longList = [] ∧ t.ocu.completed = satAdd32 (satAdd32 s.ocu.completed 1) 1 ∧ t.ocu.lastOrder = b.addr

/-- The newest place of the test log holds a result of a test (R173). -/
def Logged (k : TestKind) (lane : Option LaneId) (r : TestResult) (time : Ms) (t : State) : Prop :=
  ∃ e, vget t.hmu.log (Fin.ofNat 16 (t.hmu.pointer - 1)) = some e ∧ e.kind = k ∧ e.lane = lane ∧ e.result = r ∧
    e.time = time

/-- A lane stopped by a jam (R22, R135): STOPPED, every gate output off, no pending lane order, JAM and LANE_STATE
reported. -/
def StoppedByJam (l : LaneId) (t : State) : Prop :=
  laneMode l t = .stopped ∧ (∀ g, (channel l g t).output = false ∧ (channel l g t).hold = none) ∧
  (t.lsq.get l).pendingOrder = none ∧ reported .jam t ∧ reported .laneState t

/-- A RUN that enters WARMING has been taken (R127, R130): the lane is WARMING, the order waits TAKEN, and the first warming
step stands as the lamp power asks. -/
def WarmingBegun (l : LaneId) (b : OrderBlock) (s t : State) : Prop :=
  laneMode l t = .warming ∧ (t.lsq.get l).pendingOrder = some .run ∧ t.ocu.current = none ∧ t.ocu.phase = .link ∧
  t.ocu.completed = s.ocu.completed ∧ reported .laneState t ∧
  t.ocu.longList = s.ocu.longList ++ [⟨.laneOrder l, b.addr, b.kind, b.notify⟩] ∧
  (∃ c x n, t.mem = memWriteN s.mem (b.addr + 12) (orderStateBytes .taken c x n)) ∧
  ((s.lsq.get l).lamp = .dark → (t.lsq.get l).lamp = .on ∧ (t.lsq.get l).lampWarm = some 0) ∧
  ((s.lsq.get l).lamp = .dim → (t.lsq.get l).rise.isSome = true) ∧
  ((s.lsq.get l).lamp = .on → (t.sfe.get l).longRequest = some .warming)

/-- The retired flag of the element that a measure retires (R163); none for a measure that retires nothing. -/
def retiredFlag (l : LaneId) (a : AttrId) (s : State) : Option Bool :=
  match a with
  | .lampReserve | .tracking => some (s.lsq.get l).retired
  | .flipAccuracy => some (s.gsq.get l).flipRetired
  | .bankAccuracy => some (s.gsq.get l).bankRetired
  | .nearHeadWet => some (head l .near s).retired
  | .farHeadWet => some (head l .far s).retired
  | .pocketAccuracy | .nearHeadAlign | .farHeadAlign | .timeliness | .calCurrency => none

/-- What CLEAR and ABORT leave of a lane's pockets (R110, R120): every reservation of an entry of the queue is released,
a DRAINING pocket whose list this empties is READY_TO_SWAP, and nothing else of any pocket changes. -/
def ReservationsReleased (l : LaneId) (s t : State) : Prop :=
  (∀ p, p.gated = true →
    pocketRec l p t = { pocketRec l p s with
      reservations := (pocketRec l p s).reservations.filter (fun n => (s.track.get l).queue.all (fun e => e.serial != n)),
      state := if (pocketRec l p s).state = .draining ∧ (pocketRec l p s).reservations ≠ [] ∧
          (∀ n ∈ (pocketRec l p s).reservations, ∃ e ∈ (s.track.get l).queue, e.serial = n) then .readyToSwap
        else (pocketRec l p s).state } ∧
    ((∀ n ∈ (pocketRec l p s).reservations, ∃ e ∈ (s.track.get l).queue, e.serial = n) →
      (pocketRec l p t).reservations = [])) ∧
  ∀ p, p.gated = false → pocketRec l p t = pocketRec l p s

/-- What CLEAR and ABORT leave of a lane's letters (R24, R81, R106): an empty queue, no last trailing edge, jam counts 0,
serials and counter kept, empty print, verify and gate lists with every output off. -/
def Purged (l : LaneId) (s t : State) : Prop :=
  (t.track.get l).queue = [] ∧ (t.track.get l).lastTrail = none ∧
  (t.track.get l).lastSerial = (s.track.get l).lastSerial ∧ (t.belt.get l).counter = (s.belt.get l).counter ∧
  (∀ h, (t.track.get l).cancelJam.get h = 0 ∧ (t.track.get l).endJam.get h = 0 ∧ (head l h t).prints = [] ∧
    (head l h t).verify = []) ∧
  (∀ g, (channel l g t).windows = [] ∧ (channel l g t).output = false ∧ (channel l g t).lastClosed = none) ∧
  holdSet l .queueFull t = false ∧ ReservationsReleased l s t

/-! ### What an order, a head's row and a pocket's row keep to -/

/-- The rows that carry out an order. -/
def isOrderRow (c : Instr) : Bool :=
  match c with
  | .configurePort | .setWindows | .identify | .loadClasses | .loadGeometry | .loadStyles | .setClock | .loadThresholds
  | .givePages | .flushJournal | .laneControlRun | .laneControlDrain | .laneControlStandby | .laneControlOff
  | .laneControlClear | .laneControlAbort | .laneControlHold | .laneControlRelease | .pocketControlDisable
  | .pocketControlEnable | .pocketControlSwap | .pocketControlSetCapacity | .tallySnapshot | .healthSnapshot
  | .selfTestReference | .selfTestCalibrate | .selfTestClassAudit | .selfTestAbort => true
  | _ => false

/-- The parts of one lane. -/
def lanePartsOf (l : LaneId) : List Part :=
  [.belt l, .eyes l, .track l, .geom l, .sfe l, .gates l, .heads l, .pockets l, .lane l, .tally l, .attrs l]

/-- The one head that a command of that head may change. -/
def ownHead (c : Instr) : Option (LaneId × Side) :=
  match c with
  | .cancelWindowPassed l _ h | .verifyEdge l h _ | .verifyEntryExpiry l h | .printEnd l h | .rasterLoadStart l h
  | .rasterLoadComplete l h | .spitTimerExpiry l h | .spitGapTimeout l h | .spitStart l h | .spitComplete l h
  | .headTempReading l h _ => some (l, h)
  | _ => none

/-- The one pocket that a command of that pocket may change. -/
def ownPocket (c : Instr) : Option (LaneId × Pocket) :=
  match c with
  | .swapRequest l p _ _ | .trayIn l p _ => some (l, p)
  | _ => none

/-! ### Where a command may store -/

/-- The order blocks whose state bytes an event may write: the order in progress, the long orders, and at a read of the
chain the block it reads, at the chain position or behind the link there (R180 to R182). -/
def blocksOf (c : Instr) (s : State) : List Nat :=
  (match s.ocu.current with
    | none => []
    | some b => [b.addr]) ++ s.ocu.longList.map (fun o => o.addr) ++
  (match c with
    | .runChainStart | .look | .pollTimerExpiry | .chainLinkRead =>
      [chainAddr s, field (readBytes (chainAddr s) 8 s) 0 8]
    | _ => [])

/-- Address and length of what a command may store beside order state bytes: the body of IDENTIFY (R189), the status
block (R186), a page (R149), a snapshot (R143, R174), an audit entry (R63). -/
def recordStores (c : Instr) (s : State) : List (Nat × Nat) :=
  match c with
  | .identify => (match s.ocu.current with
    | none => []
    | some b => [(b.addr + 24, 40)])
  | .statusWrite => (match s.stat.addr with
    | none => []
    | some a => [(a, 160)])
  | .pageWriteOut => (match s.jrn.closing with
    | [] => []
    | q :: _ => [(q.page.addr, 32 + (pageBody q.page).length)])
  | .tallySnapshot => (match currentBody s with
    | some (.tallySnapshot a i _) => (match laneOfIndex i with
      | none => []
      | some l => [(a, 16 + 4 * (s.tally.get l).length)])
    | _ => [])
  | .healthSnapshot => (match currentBody s with
    | some (.healthSnapshot a) => [(a, 792)]
    | _ => [])
  | .auditEvalComplete => (match s.hmu.audit with
    | none => []
    | some a => [(a.nextAddr, 4)])
  | _ => []

/-- Address and length of every record of host memory that a command may store to. -/
def storesOf (c : Instr) (s : State) : List (Nat × Nat) :=
  (blocksOf c s).map (fun a => (a + 12, 8)) ++ recordStores c s

/-! ### Invariants -/

/-- Serials rise along the track queue and none is above a bound (R8). -/
def serialsRise (bound : Nat) : List Entry → Bool
  | [] => true
  | e :: r => e.serial ≤ bound && r.all (fun x => e.serial < x.serial) && serialsRise bound r

/-- R8: a track queue of at most 32 entries, whose serials rise and were all given. -/
def trackOk (t : Track) : Bool := t.queue.length ≤ 32 && serialsRise t.lastSerial t.queue

/-- R142: entered equals the four outcomes and the entries in the track queue, until the count saturates. -/
def conserved (l : LaneId) (s : State) : Prop :=
  4294967295 ≤ tallyOf l .entered s ∨
    tallyOf l .entered s = tallyOf l (.outcome .sorted) s + tallyOf l (.outcome .ended) s +
      tallyOf l (.outcome .lost) s + tallyOf l (.outcome .purged) s + (s.track.get l).queue.length

/-- The memory is in its canonical form, the track queues are well kept, and no reason is left uncollected between
events. -/
def State.safe (s : State) : Prop :=
  memWf s.mem = true ∧ (∀ l, trackOk (s.track.get l) = true) ∧ s.raised = 0

/-- A run is safe when every step answers a next state that is safe. -/
def safeStep (s : State) : Prop := ∃ t, step s = .next t ∧ t.safe

end Sys2Proof.Machine
end

