-- ==== Sys2Proof/Certificates/Slice0/Obligations.lean ====
section
/-! DEFINITION. The statements about the model, for the provers: what every command and every step do (first part), and
what each command of the table does when its event comes about, family by family. -/

open Sys2Proof Sys2Proof.Machine

/-! ### The machine as a whole -/

/-- A step takes the command at the front of the queue and carries it out with the rest of the queue. -/
def Obligations.StepRunsTheFrontCommand : Prop :=
  ∀ (c : Instr) (rest : List Instr) (s : State), s.pending = c :: rest → step s = exec c { s with pending := rest }

/-- With no command waiting a step passes one eye sample period of 50 µs (log entry 6; R5 for the sample records). -/
def Obligations.EmptyQueuePassesOneTick : Prop :=
  ∀ s : State, s.pending = [] → ∃ t, step s = .next t ∧ t.pending = [] ∧
    t.clock = (if s.clock.sub + 1 < 20 then { s.clock with sub := s.clock.sub + 1 } else ⟨s.clock.ms + 1, 0, true⟩) ∧
    (∀ l, (t.belt.get l).samples =
        (s.belt.get l).samples.drop 1 ++ [⟨(s.belt.get l).counter, (s.belt.get l).fwd, (s.belt.get l).live⟩] ∧
      (t.belt.get l).counter = (s.belt.get l).counter ∧ (t.belt.get l).speed = (s.belt.get l).speed ∧
      (t.lsq.get l).mode = (s.lsq.get l).mode ∧ (t.lsq.get l).holds = (s.lsq.get l).holds) ∧
    t.track = s.track ∧ t.eyes = s.eyes ∧ t.pkr = s.pkr ∧ t.msc = s.msc ∧ t.tally = s.tally ∧ t.jrn = s.jrn ∧
    t.hmu = s.hmu ∧ t.geom = s.geom ∧ t.mwu = s.mwu ∧ t.pif = s.pif ∧ t.mem = s.mem ∧ t.raised = s.raised

/-- Every command whose operands lie in the ranges of its inputs completes in every state; every other is refused by
name. This is the model's choice and no rule of the spec: a row whose event does not come about answers next (log entry 5),
operands outside an input's range are refused (log entry 16), and a meaning is total over every state (log entry 52). -/
def Obligations.WellFormedCommandsComplete : Prop :=
  ∀ (c : Instr) (s : State), (c.wellFormed = true → ∃ t, exec c s = .next t) ∧
    (c.wellFormed = false → exec c s = .refused .operandOutOfRange)

/-- The frame of every command: the commands waiting, host memory, the clock and each block's state of each lane are
unchanged but for the parts that `partsOf` names for the command and those that every event's end may change. A
command of one head changes no other head, a command of one pocket no other pocket; an order that names a lane leaves
the other lane's parts, and an order that names a pocket every other pocket of the lane. -/
def Obligations.EveryCommandChangesOnlyItsParts : Prop :=
  ∀ (c : Instr) (s t : State), exec c s = .next t →
    changesOnly (partsOf c) s t ∧
    (∀ q, ownHead c = some q → ∀ l h, (l, h) ≠ q → head l h t = head l h s) ∧
    (∀ q, ownPocket c = some q → ∀ l p, (l, p) ≠ q → pocketRec l p t = pocketRec l p s) ∧
    (isOrderRow c = true → ∀ b, s.ocu.current = some b →
      (∀ l, orderLaneOf b.body = some l → ∀ k, k ≠ l → ∀ p ∈ lanePartsOf k, agree p s t) ∧
      (∀ i j a n p, b.body = .pocketControl i j a n → pocketOfIndex j = some p →
        ∀ l q, q ≠ p → pocketRec l q t = pocketRec l q s))

/-- The frame of host memory: a command stores only to the order state bytes of the blocks it finishes or takes, and
to the record it is to write (`storesOf` computes the addresses); every other byte reads as before. The extent of an
IDENTIFY's write is the model's reading (log entry 19). -/
def Obligations.CommandsStoreOnlyWhereNamed : Prop :=
  ∀ (c : Instr) (s t : State), exec c s = .next t →
    ∀ a, (∀ r ∈ storesOf c s, a < r.1 ∨ r.1 + r.2 ≤ a) → memRead t.mem a = memRead s.mem a

/-- The canonical form of host memory (addresses strictly rising, no byte listed that reads 0) is kept by every step. The
form, and that an unlisted byte reads 0, are the model's choice (log entry 4); the spec says nothing of them. -/
def Obligations.StepKeepsMemoryForm : Prop :=
  ∀ s t : State, memWf s.mem = true → step s = .next t → memWf t.mem = true

/-- R8: a track queue of at most 32 entries with strictly rising serials, all of them given, is kept by every step. R142:
and so is the conservation of a lane's counts: entered equals SORTED, ENDED, LOST and PURGED and the entries in the queue,
until the count saturates, in a tally set of 106 counts. -/
def Obligations.StepKeepsTrackQueues : Prop :=
  (∀ s t : State, (∀ l, trackOk (s.track.get l) = true) → step s = .next t → ∀ l, trackOk (t.track.get l) = true) ∧
  (∀ s t : State, (∀ l, trackOk (s.track.get l) = true ∧ (s.tally.get l).length = 106 ∧ conserved l s) →
     step s = .next t → ∀ l, (t.tally.get l).length = 106 ∧ conserved l t)

/-- The state after a device reset is safe: memory in its form, both track queues empty and well kept, no reason left
uncollected. What a device reset leaves, register by register: the values the rules name. R175: a device reset, by the
link or by a write of RESET: every block's state is that after reset; the commands waiting, host memory and the
message settings of the configuration space, which are not the part's own, stand (log entry 11). -/
def Obligations.WhatADeviceResetLeaves : Prop :=
  (State.reset.safe ∧ (∀ l, (State.reset.track.get l).queue = []) ∧ State.reset.pending = []) ∧
  (∀ l : LaneId, (State.reset.belt.get l).counter = 0 ∧ (State.reset.belt.get l).speed = 0 ∧
     (State.reset.track.get l).lastSerial = 0 ∧
     (∀ h, (State.reset.track.get l).cancelJam.get h = 0 ∧ (State.reset.track.get l).endJam.get h = 0) ∧
     (State.reset.sfe.get l).pairs = List.replicate 12 ⟨0, 256⟩ ∧ (State.reset.sfe.get l).traces = [] ∧
     (State.reset.sfe.get l).due = false ∧ (State.reset.sfe.get l).dueAge = 0 ∧ (State.reset.sfe.get l).refMode = false ∧
     (∀ g, (channel l g State.reset).windows = [] ∧ (channel l g State.reset).output = false ∧
       (channel l g State.reset).history = [] ∧ (channel l g State.reset).lastClosed = none) ∧
     (State.reset.gsq.get l).flipRetired = false ∧ (State.reset.gsq.get l).bankRetired = false ∧
     (∀ h, (head l h State.reset).wet = .cold ∧ (head l h State.reset).retired = false ∧
       (head l h State.reset).fast = false ∧ (head l h State.reset).lastTemp = 0 ∧ (head l h State.reset).trim = 0 ∧
       (head l h State.reset).prints = [] ∧ (head l h State.reset).verify = []) ∧
     (∀ p, (pocketRec l p State.reset).state = .opened ∧ (pocketRec l p State.reset).fill = 0 ∧
       (pocketRec l p State.reset).reservations = []) ∧
     (State.reset.tally.get l).length = 106 ∧ conserved l State.reset ∧ laneMode l State.reset = .off ∧
     (State.reset.lsq.get l).lamp = .dark ∧ (∀ r, holdSet l r State.reset = false) ∧
     (State.reset.lsq.get l).feedReq = false ∧ State.reset.tally.get l = List.replicate 106 0 ∧
     State.reset.ocu.position = 0 ∧ State.reset.ocu.phase = .take ∧ State.reset.ocu.pollInterval = 5 ∧
     State.reset.ocu.chain = .stopped ∧ State.reset.ocu.completed = 0 ∧ State.reset.ocu.faultCause = .none ∧
     State.reset.pif.runChain = false ∧ State.reset.pif.irqEnable = false ∧ State.reset.pif.attn = 0 ∧
     State.reset.pif.mask = 0 ∧ State.reset.mwu.windowsSet = false ∧ State.reset.stat.addr = none ∧
     State.reset.pmc.clockSet = false ∧ State.reset.pmc.current = none ∧ State.reset.msc.current = none) ∧
  (∀ s : State, ∃ t, exec .deviceReset s = .next t ∧ exec .reset s = .next t ∧
     t = { State.reset with
       pending := s.pending, mem := s.mem, freeCount := s.freeCount,
       pif := { State.reset.pif with
         msiEnable := s.pif.msiEnable, msiAddress := s.pif.msiAddress,
         msiData := s.pif.msiData, msiSent := s.pif.msiSent, msiLast := s.pif.msiLast } })

/-- R1: only an encoder count of a lane moves its position counter, by one count either way, modulo 2^24; a device
reset sets it to 0; every other command, lane ABORT, CLEAR and LOAD_GEOMETRY included, leaves it. -/
def Obligations.OnlyEncoderCountsMoveTheCounter : Prop :=
  ∀ (c : Instr) (s t : State) (l : LaneId), exec c s = .next t →
    (t.belt.get l).counter =
      if c = .encoderCount l true then (s.belt.get l).counter + 1
      else if c = .encoderCount l false then (s.belt.get l).counter - 1
      else if c = .deviceReset ∨ c = .reset then 0 else (s.belt.get l).counter

/-- R9, R13, R15: what an entry was created with stands while it is in the queue, the first verdict it receives and
its first reroute cause stand, and a delivered entry stays delivered. -/
def Obligations.EntriesKeepTheirFirstVerdictAndCause : Prop :=
  ∀ (c : Instr) (s t : State), (∀ l, trackOk (s.track.get l) = true) → exec c s = .next t →
    ∀ l, ∀ e ∈ (s.track.get l).queue, ∀ f ∈ (t.track.get l).queue, f.serial = e.serial →
      f.leadE = e.leadE ∧ f.scanStart = e.scanStart ∧ f.gapBefore = e.gapBefore ∧
      (e.verdict.isSome = true → f.verdict = e.verdict) ∧ (e.reroute.isSome = true → f.reroute = e.reroute) ∧
      (e.delivered = true → f.delivered = true) ∧ (e.seenAtT = true → f.seenAtT = true)

/-- R22: while a lane is STOPPED no position event of an entry, a gate window or a print is taken: such a command
changes nothing. R6: an edge accepted while the lane is OFF, STOPPED or STANDBY is not delivered: beside the eye's
accepted level, and for E the Scan Front End's record of the edge (R30), nothing changes. -/
def Obligations.StoppedAndUndelivered : Prop :=
  (∀ (l : LaneId) (s : State), laneMode l s = .stopped → ∀ (n : Nat) (h : Side) (g : Gate) (r : List (BitVec 12)),
     r.length = 12 →
     exec (.longTimeout l n) s = .next s ∧ exec (.forcedDelivery l n) s = .next s ∧
     exec (.bankPositionReached l n) s = .next s ∧ exec (.tWindowPassed l n) s = .next s ∧
     exec (.cancelWindowPassed l n h) s = .next s ∧ exec (.lostAtCancelEye l n) s = .next s ∧
     exec (.lostAtEndEye l n) s = .next s ∧ exec (.sampleTaken l n r) s = .next s ∧
     exec (.gateOnEvent l g) s = .next s ∧ exec (.gateWindowClose l g) s = .next s ∧
     exec (.printStart l h) s = .next s ∧ exec (.printEnd l h) s = .next s ∧
     exec (.verifyEntryExpiry l h) s = .next s) ∧
  (∀ (l : LaneId) (s : State), laneMode l s = .off ∨ laneMode l s = .stopped ∨ laneMode l s = .standby →
     ∀ (held : Nat) (h : Side) (p : Pocket) (t : State),
       (exec (.arrivalT l held) s = .next t ∨ exec (.arrivalCancelEye l h held) s = .next t ∨
         exec (.arrivalPocketEye l p held) s = .next t ∨ exec (.verifyEdge l h held) s = .next t →
           changesOnly [.eyes l] s t) ∧
       (exec (.eLeadingEdge l held) s = .next t ∨ exec (.eTrailingEdge l held) s = .next t →
           changesOnly [.eyes l, .sfe l] s t))

/-- R178: one event sends one message, and only one, when message-signalled interrupts are enabled and the event
brings up a flag that the mask and IRQ_ENABLE let through: a flag set, the enable set, or the mask widened. R177: no
reason that is set in ATTN, or waits for a status write, is lost by any event but a write of ATTN and a device reset,
and a flag that is set stays set. That the
reasons waiting for a status write that ceases to be due are set in ATTN then is the model's reading (log entry 23). -/
def Obligations.MessagesAndReasons : Prop :=
  (∀ (c : Instr) (s t : State), exec c s = .next t →
     t.pif.msiSent = s.pif.msiSent +
       (if s.pif.msiEnable = true ∧ irqLines t &&& ~~~(irqLines s) ≠ 0 then 1 else 0)) ∧
  (∀ (c : Instr) (s t : State), exec c s = .next t → c ≠ .deviceReset → c ≠ .reset → (∀ v, c ≠ .attnWrite v) →
     s.pif.attn &&& ~~~(t.pif.attn) = 0 ∧ reasons s &&& ~~~(reasons t) = 0)

/-! ### Belt, eyes and track entries -/

/-- R1, R3, R7: an encoder count completes in every state. It moves the counter; a forward count is counted in the
current speed interval and, where the lane delivers edges, in the measurement of each dark eye; S and the samples
stand. R3: at an interval end the oldest of the eight counts is dropped, the newest added, and S becomes their sum, at
most 4,095. R4: leadCounts is the least whole number of counts not below t × S / 64,000, cut off at 4,095, and 0 at S
= 0. -/
def Obligations.CountsSpeedAndTimes : Prop :=
  (∀ (l : LaneId) (fwd : Bool) (s : State), ∃ t, exec (.encoderCount l fwd) s = .next t ∧
     (t.belt.get l).counter = (if fwd then (s.belt.get l).counter + 1 else (s.belt.get l).counter - 1) ∧
     (t.belt.get l).intervalCount = (s.belt.get l).intervalCount + (if fwd then 1 else 0) ∧
     (t.belt.get l).intervals = (s.belt.get l).intervals ∧ (t.belt.get l).speed = (s.belt.get l).speed ∧
     (t.belt.get l).samples = (s.belt.get l).samples ∧
     ∀ y, eyeState l y t =
       if fwd = true ∧ delivers (laneMode l s) = true ∧ (eyeState l y s).dark = true then
         { eyeState l y s with darkCount := (eyeState l y s).darkCount + 1 }
       else eyeState l y s) ∧
  (∀ (l : LaneId) (s : State), 160 ≤ (s.belt.get l).intervalTicks → ∃ t, exec (.speedInterval l) s = .next t ∧
     (t.belt.get l).intervals = (s.belt.get l).intervals.drop 1 ++ [(s.belt.get l).intervalCount] ∧
     (t.belt.get l).intervalCount = 0 ∧ (t.belt.get l).speed = min (t.belt.get l).intervals.sum 4095 ∧
     (t.belt.get l).counter = (s.belt.get l).counter ∧ (t.belt.get l).samples = (s.belt.get l).samples) ∧
  (∀ t speed : Nat, leadCounts t 0 = 0 ∧ leadCounts t speed ≤ 4095 ∧
     (t * speed ≤ 64000 * 4095 →
       t * speed ≤ 64000 * leadCounts t speed ∧ 64000 * leadCounts t speed < t * speed + 64000) ∧
     (64000 * 4095 < t * speed → leadCounts t speed = 4095))

/-- R5, R7: a trailing edge accepted at any eye but E makes the eye light and ends its measurement; no other eye
changes. R7, R22, R135: an eye blocked for more than 1,752 counts declares a jam once: the lane enters STOPPED with
every gate output off, JAM and LANE_STATE reported, and a pending RUN or DRAIN no longer pending. -/
def Obligations.EyesGoLightOrStayBlocked : Prop :=
  (∀ (l : LaneId) (y : Eye) (held : Nat) (s : State), y ≠ .e → (eyeState l y s).dark = true →
     (if (geometry l s).eyeFilter = true then held = 4 else 1 ≤ held ∧ held ≤ 4) →
     ∃ t, exec (.eyeTrailingEdge l y held) s = .next t ∧
       eyeState l y t = { eyeState l y s with dark := false, darkCount := 0, declared := false } ∧
       ∀ z, z ≠ y → eyeState l z t = eyeState l z s) ∧
  (∀ (l : LaneId) (y : Eye) (s : State), (eyeState l y s).dark = true → 1753 ≤ (eyeState l y s).darkCount →
     (eyeState l y s).declared = false → delivers (laneMode l s) = true →
     ∃ t, exec (.blockedEye l y) s = .next t ∧ laneMode l t = .stopped ∧
       eyeState l y t = { eyeState l y s with declared := true } ∧
       (∀ g, (channel l g t).output = false ∧ (channel l g t).hold = none) ∧
       (t.lsq.get l).pendingOrder = none ∧ (t.lsq.get l).idle = 0 ∧ (t.lsq.get l).lamp = (s.lsq.get l).lamp ∧
       reported .jam t ∧ reported .laneState t)

/-- R10: a leading edge delivered at E, with room in the queue, the lamps ON and the gap to the letter before not
below minGap, creates one entry at the tail, in the initial state of R9, with the next serial; it is counted as
entered, and the eye's measurement (R7) begins with the forward counts made since the captured sample while edges were
delivered, those before a restart left out (log entry 85). R8, R11: with 32 entries in the queue, or every serial given,
a leading edge delivered at E creates no entry: it is counted untracked, an UNTRACKED event with the captured position is
recorded, and QUEUE_FULL is raised. -/
def Obligations.LeadingEdgesAtE : Prop :=
  (∀ (l : LaneId) (s : State), (eyeState l .e s).dark = false → (geometry l s).eyeFilter = true →
     delivers (laneMode l s) = true → (s.track.get l).queue.length < 32 → (s.track.get l).lastSerial < 4294967295 →
     (s.lsq.get l).lamp = .on → (s.sfe.get l).refMode = false →
     (∀ n, (s.track.get l).lastTrail = some n → (geometry l s).minGap ≤ ((s.belt.get l).samples.getD 0 ⟨0, 0, 0⟩).fwd - n) →
     (geometry l s).minGap ≤ 400 → (s.belt.get l).samples.length = 4 →
     (∀ e ∈ (s.track.get l).queue, e.delivered = true ∨ e.verdict = none) →
     ∃ t e, exec (.eLeadingEdge l 4) s = .next t ∧ (t.track.get l).queue = (s.track.get l).queue ++ [e] ∧
       (t.track.get l).lastSerial = (s.track.get l).lastSerial + 1 ∧
       e.serial = (s.track.get l).lastSerial + 1 ∧ e.leadE = ((s.belt.get l).samples.getD 0 ⟨0, 0, 0⟩).pos ∧
       e.scanStart = posAdd e.leadE (geometry l s).scanPos ∧
       e.gapBefore = (match (s.track.get l).lastTrail with
         | none => 65535
         | some n => min (((s.belt.get l).samples.getD 0 ⟨0, 0, 0⟩).fwd - n) 262140 / 4) ∧
       e.stage = .entering ∧ e.trailE = none ∧ e.length = none ∧ e.verdict = none ∧ e.delivered = false ∧
       e.plan = none ∧ e.seenAtT = false ∧ e.cancelEye = none ∧ e.misflipSuspect = false ∧ e.printResult = none ∧
       e.pocketSeen = none ∧ e.reroute = none ∧ e.outcome = none ∧
       t.tally.get l = (s.tally.get l).set 0 (satAdd32 ((s.tally.get l).getD 0 0) 1) ∧
       (eyeState l .e t).dark = true ∧ (eyeState l .e t).declared = false ∧
       (eyeState l .e t).darkCount = (s.belt.get l).live -
         max ((s.belt.get l).samples.getD 0 ⟨0, 0, 0⟩).live (eyeState l .e s).restart ∧
       (t.sfe.get l).lastLead = some ⟨e.leadE, false⟩) ∧
  (∀ (l : LaneId) (s : State), (eyeState l .e s).dark = false → (geometry l s).eyeFilter = true →
     delivers (laneMode l s) = true → 32 ≤ (s.track.get l).queue.length ∨ 4294967295 ≤ (s.track.get l).lastSerial →
     (s.sfe.get l).refMode = false → (s.belt.get l).samples.length = 4 →
     ∃ t, exec (.eLeadingEdge l 4) s = .next t ∧ t.track.get l = s.track.get l ∧
       t.tally.get l = (s.tally.get l).set 103 (satAdd32 ((s.tally.get l).getD 103 0) 1) ∧
       t.jrn = (emit .untracked (some l) 0 0 ((s.belt.get l).samples.getD 0 ⟨0, 0, 0⟩).pos.toNat 0 s).jrn ∧
       holdSet l .queueFull t = true)

/-- R12: a trailing edge delivered at E gives the newest entry its trailE and N = floor(L / 4); with L in 508..1,168
it receives no verdict, and the edge is the last trailing edge for the next gap. -/
def Obligations.TrailingEdgeGivesTheLength : Prop :=
  ∀ (l : LaneId) (s : State) (e : Entry), (eyeState l .e s).dark = true → (geometry l s).eyeFilter = true →
    delivers (laneMode l s) = true → (s.belt.get l).samples.length = 4 →
    trackOk (s.track.get l) = true → (s.track.get l).queue.getLast? = some e → e.trailE = none →
    (∀ x ∈ (s.track.get l).queue, x.delivered = true ∨ x.verdict = none) →
    508 ≤ dist ((s.belt.get l).samples.getD 0 ⟨0, 0, 0⟩).pos e.leadE →
    dist ((s.belt.get l).samples.getD 0 ⟨0, 0, 0⟩).pos e.leadE ≤ 1168 →
    ∃ t, exec (.eTrailingEdge l 4) s = .next t ∧
      (t.track.get l).queue = (s.track.get l).queue.dropLast ++
        [{ e with trailE := some ((s.belt.get l).samples.getD 0 ⟨0, 0, 0⟩).pos,
                  length := some (dist ((s.belt.get l).samples.getD 0 ⟨0, 0, 0⟩).pos e.leadE / 4) }] ∧
      (t.track.get l).lastTrail = some ((s.belt.get l).samples.getD 0 ⟨0, 0, 0⟩).fwd ∧ (eyeState l .e t).dark = false ∧
      (t.sfe.get l).lastTrail = some ⟨((s.belt.get l).samples.getD 0 ⟨0, 0, 0⟩).pos, false⟩

/-- R12, R14: when the counter reaches leadE + 1,169 an entry without a trailing edge receives LONG; when it reaches
leadE + flipGatePos an entry not yet delivered is delivered with the verdict it holds, or LATE, and is PLANNED with a
plan. A verdict already held stands. -/
def Obligations.LongAndForcedDelivery : Prop :=
  ∀ (l : LaneId) (s : State) (e : Entry), trackOk (s.track.get l) = true → laneMode l s ≠ .stopped →
    findEntry l e.serial s = some e →
    (e.trailE = none → (s.belt.get l).counter = e.leadE + 1169 → ∃ t f, exec (.longTimeout l e.serial) s = .next t ∧
      findEntry l e.serial t = some f ∧ f.verdict = some (e.verdict.getD (plainVerdict .long)) ∧ f.trailE = none) ∧
    (e.delivered = false → (s.belt.get l).counter = posAdd e.leadE (geometry l s).flipGatePos →
      ∃ t f, exec (.forcedDelivery l e.serial) s = .next t ∧ findEntry l e.serial t = some f ∧
        f.verdict = some (e.verdict.getD (plainVerdict .late)) ∧ f.delivered = true ∧ f.stage = .planned ∧
        f.plan.isSome = true)

/-- R14, R17: a PLANNED entry becomes ON_PATH at its bank position; an entry whose plan has flip becomes misflip
suspect when its T window passes unseen. Nothing else of any entry changes. R2, R19, R95: a cancel eye's window passes
when the counter reaches leadE + station + tolerance + 1; the print at this head of an item not matched at this eye is
withdrawn unless it is PRINTING, and the result a RELEASED one has had since its release is taken back (the model's
reading: log entry 70). -/
def Obligations.BankPositionAndWindowsPassed : Prop :=
  (∀ (l : LaneId) (s : State) (e : Entry), laneMode l s ≠ .stopped → findEntry l e.serial s = some e →
     (e.stage = .planned → (s.belt.get l).counter = posAdd e.leadE (geometry l s).bankGatePos →
       ∃ t, exec (.bankPositionReached l e.serial) s = .next t ∧
         t.track.get l = { s.track.get l with queue := (s.track.get l).queue.map (fun x =>
           if x.serial = e.serial then { x with stage := .onPath } else x) }) ∧
     (planFlips e = true → e.seenAtT = false →
       (s.belt.get l).counter = posAdd e.leadE ((geometry l s).twistEyePos + (geometry l s).eyeTolerance + 1) →
       ∃ t, exec (.tWindowPassed l e.serial) s = .next t ∧
         t.track.get l = { s.track.get l with queue := (s.track.get l).queue.map (fun x =>
           if x.serial = e.serial then { x with misflipSuspect := true } else x) })) ∧
  (∀ (l : LaneId) (h : Side) (s : State) (e : Entry), laneMode l s ≠ .stopped → findEntry l e.serial s = some e →
     e.cancelPassed.get h = false →
     (s.belt.get l).counter = posAdd e.leadE ((geometry l s).eyePos.get h + (geometry l s).eyeTolerance + 1) →
     ∃ t, exec (.cancelWindowPassed l e.serial h) s = .next t ∧
       t.track.get l = { s.track.get l with queue := (s.track.get l).queue.map (fun x => if x.serial = e.serial then
         { x with
           cancelPassed := x.cancelPassed.upd h (fun _ => true),
           printResult := if e.cancelEye.map (fun c => c.1) ≠ some h ∧ hasReleased l h e.serial s = true then none
             else x.printResult } else x) } ∧
       (head l h t).prints = (if e.cancelEye.map (fun c => c.1) = some h then (head l h s).prints
         else (head l h s).prints.filter (fun p => p.serial != e.serial || p.state == .printing)) ∧
       ∀ k, k ≠ h → head l k t = head l k s)

/-- R16: an arrival delivered at T. The oldest entry past its flip position, not yet seen and whose window contains
the arrival is seen at T; with flip in its plan nothing more is done, without it and with no cause it is rerouted
MISFLIP; one that already has a cause keeps it, and a MISFLIP event is still written (R15, R78); an arrival with no
candidate is a phantom. -/
def Obligations.ArrivalAtTheTwistEye : Prop :=
  ∀ (l : LaneId) (s : State), trackOk (s.track.get l) = true → (eyeState l .t s).dark = false →
    (geometry l s).eyeFilter = true → delivers (laneMode l s) = true → (s.belt.get l).samples.length = 4 →
    (match (s.track.get l).queue.find? (fun e => e.flipReached && !e.seenAtT &&
        eyeWindowHas l .t e ((s.belt.get l).samples.getD 0 ⟨0, 0, 0⟩).pos s) with
      | some e => ∃ t f, exec (.arrivalT l 4) s = .next t ∧ findEntry l e.serial t = some f ∧ f.seenAtT = true ∧
          (planFlips e = true → t.track.get l = { s.track.get l with queue := (s.track.get l).queue.map (fun x =>
            if x.serial = e.serial then { x with seenAtT := true } else x) }) ∧
          (planFlips e = false → f.reroute = some (e.reroute.getD .misflip)) ∧
          (planFlips e = false → e.reroute.isSome = true → heldGates e = [] →
            t.jrn = (emit .misflip (some l) 1 e.serial 0 0 s).jrn ∧ t.tally = s.tally)
      | none => ∃ t, exec (.arrivalT l 4) s = .next t ∧ t.track.get l = s.track.get l ∧
          t.jrn = (emit .phantom (some l) 1 0 ((s.belt.get l).samples.getD 0 ⟨0, 0, 0⟩).pos.toNat 0 s).jrn ∧
          t.tally.get l = (s.tally.get l).set 102 (satAdd32 ((s.tally.get l).getD 102 0) 1))

/-- R18, R22, R94, R97: an arrival delivered at a cancel eye matches the oldest ON_PATH entry not yet matched whose window
contains it; the eye and captured position are recorded and the eye's jam count goes to 0. On the path of its plan, and
not suspect or rerouted already, the entry is not rerouted, and its POSTED print at this head is RELEASED with start =
captured position + headOffset + trim + 4 × startMm, or refused with HEAD_DRY or STYLE_UNDEFINED; from its release or
refusal on the entry has a print result (R9; what it holds before the print's end is the model's reading, log entry 70,
with its kind as log entry 61 counts a dropped unset-clock generation).
A suspect entry without
a cause is rerouted MISFLIP, with a MISBANK event besides on the wrong path; one on the wrong path without a cause is
rerouted MISBANK, and one with a cause keeps it and gets a MISBANK event. A reroute withdraws the print (R95),
stated for an entry that holds no gate window, and for lists of at most one window. An arrival with no candidate is a
phantom. -/
def Obligations.ArrivalAtACancelEye : Prop :=
  ∀ (l : LaneId) (h : Side) (s : State) (at_ : Pos), trackOk (s.track.get l) = true →
    (eyeState l (cancelEyeOf h) s).dark = false → (geometry l s).eyeFilter = true →
    delivers (laneMode l s) = true → (s.belt.get l).samples.length = 4 →
    at_ = ((s.belt.get l).samples.getD 0 ⟨0, 0, 0⟩).pos →
    (match (s.track.get l).queue.find? (fun e => e.stage == .onPath && e.cancelEye.isNone &&
        eyeWindowHas l (cancelEyeOf h) e at_ s) with
      | none => ∃ t, exec (.arrivalCancelEye l h 4) s = .next t ∧ t.track.get l = s.track.get l ∧ t.cnu = s.cnu ∧
          t.jrn = (emit .phantom (some l) (eyeCode (cancelEyeOf h)).val 0 at_.toNat 0 s).jrn ∧
          t.tally.get l = (s.tally.get l).set 102 (satAdd32 ((s.tally.get l).getD 102 0) 1)
      | some e => ∃ t f, exec (.arrivalCancelEye l h 4) s = .next t ∧ findEntry l e.serial t = some f ∧
          f.cancelEye = some (h, at_) ∧ (t.track.get l).cancelJam.get h = 0 ∧
          (e.misflipSuspect = false ∨ e.reroute.isSome = true → planBank e = h →
            ((∀ p ∈ (head l h s).prints, p.serial = e.serial → p.state ≠ .posted) → f.reroute = e.reroute ∧
              t.cnu = s.cnu ∧ (t.track.get l).queue = (s.track.get l).queue.map (fun x =>
                if x.serial = e.serial then { x with cancelEye := some (h, at_) } else x)) ∧
            (∀ p, (head l h s).prints.find? (fun p => p.serial == e.serial && p.state == .posted) = some p →
              (p.kind ≠ .none → (head l h s).wet ≠ .dry → f.reroute = e.reroute ∧
                (∃ c, chooseImage l h p s = some c ∧
                  (t.track.get l).queue = (s.track.get l).queue.map (fun x => if x.serial = e.serial then
                    { x with
                      cancelEye := some (h, at_), printResult := some (.printed p.startMm p.clipped c.count) }
                    else x)) ∧
                (head l h t).prints = (head l h s).prints.map (fun q => if q.serial = e.serial then
                  { q with
                    state := .released,
                    start := posAddInt at_ (((geometry l s).headOffset.get h : Int) + (head l h s).trim +
                      4 * (p.startMm : Int)) } else q)) ∧
              ((head l h s).wet = .dry → f.printResult = some (.uncancelled .headDry) ∧
                (∀ q ∈ (head l h t).prints, q.serial ≠ e.serial) ∧ ((s.tally.get l).length = 106 →
                  (t.tally.get l).getD 81 0 = satAdd32 ((s.tally.get l).getD 81 0) 1)) ∧
              ((head l h s).wet ≠ .dry → p.kind = .none → f.printResult = some (.uncancelled .styleUndefined) ∧
                (∀ q ∈ (head l h t).prints, q.serial ≠ e.serial) ∧ ((s.tally.get l).length = 106 →
                  (t.tally.get l).getD 82 0 = satAdd32 ((s.tally.get l).getD 82 0) 1)))) ∧
          (e.reroute = none → e.misflipSuspect = true → f.reroute = some .misflip ∧
            (heldGates e = [] ∨ ((heldGates e).length ≤ 8 ∧ ∀ g, (channel l g s).windows.length ≤ 1) →
              ∀ d, ∀ q ∈ (head l d t).prints, q.serial = e.serial → q.state = .printing) ∧
            (heldGates e = [] → t.tally.get l = (s.tally.get l).set 97 (satAdd32 ((s.tally.get l).getD 97 0) 1) ∧
              (planBank e = h →
                t.jrn = (emit .misflip (some l) (eyeCode (cancelEyeOf h)).val e.serial 0 0 s).jrn) ∧
              (planBank e ≠ h → t.jrn = (emit .misbank (some l) (eyeCode (cancelEyeOf h)).val e.serial 0 0
                (emit .misflip (some l) (eyeCode (cancelEyeOf h)).val e.serial 0 0 s)).jrn))) ∧
          (e.reroute = none → e.misflipSuspect = false → planBank e ≠ h → f.reroute = some .misbank ∧
            (heldGates e = [] ∨ ((heldGates e).length ≤ 8 ∧ ∀ g, (channel l g s).windows.length ≤ 1) →
              ∀ d, ∀ q ∈ (head l d t).prints, q.serial = e.serial → q.state = .printing) ∧
            (heldGates e = [] → t.tally.get l = (s.tally.get l).set 98 (satAdd32 ((s.tally.get l).getD 98 0) 1) ∧
              t.jrn = (emit .misbank (some l) (eyeCode (cancelEyeOf h)).val e.serial 0 0 s).jrn)) ∧
          (e.reroute.isSome = true → planBank e ≠ h → f.reroute = e.reroute ∧
            ((∀ p ∈ (head l h s).prints, p.serial = e.serial → p.state ≠ .posted) → t.tally = s.tally ∧
              t.jrn = (emit .misbank (some l) (eyeCode (cancelEyeOf h)).val e.serial 0 0 s).jrn)))

/-- R19, R21, R22, R23: an entry LOST at the cancel eyes or at its end eye leaves the queue and is counted lost, and
the loss adds one to the jam count of the eye; below jamThreshold the lane is not stopped by it. The loss that brings the
count to jamThreshold, or finds it above a threshold lowered since, declares a jam, which stops a lane that delivers edges
(R135); that case, and a count that stays at 7, are the model's reading (log entry 39). -/
def Obligations.LossesLeaveTheQueue : Prop :=
  ∀ (l : LaneId) (h : Side) (s : State) (e : Entry), trackOk (s.track.get l) = true → (s.tally.get l).length = 106 →
    laneMode l s ≠ .stopped → findEntry l e.serial s = some e →
    (e.delivered = true → e.cancelEye = none → e.cancelPassed = ⟨true, true⟩ → planBank e = h →
      (s.track.get l).cancelJam.get h + 1 < (geometry l s).jamThreshold → (geometry l s).jamThreshold ≤ 7 →
      ∃ t, exec (.lostAtCancelEye l e.serial) s = .next t ∧
        (t.track.get l).queue.map (fun x => x.serial) =
          ((s.track.get l).queue.map (fun x => x.serial)).filter (· != e.serial) ∧
        (t.track.get l).cancelJam.get h = (s.track.get l).cancelJam.get h + 1 ∧
        (t.tally.get l).getD 95 0 = satAdd32 ((s.tally.get l).getD 95 0) 1 ∧ laneMode l t ≠ .stopped) ∧
    (e.delivered = true → e.cancelEye = none → e.cancelPassed = ⟨true, true⟩ → planBank e = h →
      (geometry l s).jamThreshold ≤ (s.track.get l).cancelJam.get h + 1 → (geometry l s).jamThreshold ≤ 7 →
      delivers (laneMode l s) = true → ∃ t, exec (.lostAtCancelEye l e.serial) s = .next t ∧
        (t.track.get l).queue.map (fun x => x.serial) =
          ((s.track.get l).queue.map (fun x => x.serial)).filter (· != e.serial) ∧
        (t.track.get l).cancelJam.get h = min ((s.track.get l).cancelJam.get h + 1) 7 ∧
        (t.tally.get l).getD 95 0 = satAdd32 ((s.tally.get l).getD 95 0) 1 ∧ StoppedByJam l t) ∧
    (∀ p, e.cancelEye = some (h, p) → e.pocketSeen = none →
      (s.belt.get l).counter = posAdd e.leadE ((geometry l s).endPos.get h + (geometry l s).eyeTolerance + 1) →
      (s.track.get l).endJam.get h + 1 < (geometry l s).jamThreshold → (geometry l s).jamThreshold ≤ 7 →
      ∃ t, exec (.lostAtEndEye l e.serial) s = .next t ∧
        (t.track.get l).queue.map (fun x => x.serial) =
          ((s.track.get l).queue.map (fun x => x.serial)).filter (· != e.serial) ∧
        (t.track.get l).endJam.get h = (s.track.get l).endJam.get h + 1 ∧
        (t.tally.get l).getD 95 0 = satAdd32 ((s.tally.get l).getD 95 0) 1 ∧ laneMode l t ≠ .stopped) ∧
    (∀ p, e.cancelEye = some (h, p) → e.pocketSeen = none →
      (s.belt.get l).counter = posAdd e.leadE ((geometry l s).endPos.get h + (geometry l s).eyeTolerance + 1) →
      (geometry l s).jamThreshold ≤ (s.track.get l).endJam.get h + 1 → (geometry l s).jamThreshold ≤ 7 →
      delivers (laneMode l s) = true → ∃ t, exec (.lostAtEndEye l e.serial) s = .next t ∧
        (t.track.get l).queue.map (fun x => x.serial) =
          ((s.track.get l).queue.map (fun x => x.serial)).filter (· != e.serial) ∧
        (t.track.get l).endJam.get h = min ((s.track.get l).endJam.get h + 1) 7 ∧
        (t.tally.get l).getD 95 0 = satAdd32 ((s.tally.get l).getD 95 0) 1 ∧ StoppedByJam l t)

/-- R20, R23, R109, R113: an arrival at a pocket eye that matches an entry expected there finalises it, SORTED at a
gated pocket and ENDED at an end pocket: it leaves the queue, the outcome and the pocket's arrival are counted, and
the pocket's fill takes it. -/
def Obligations.ArrivalAtAPocketEye : Prop :=
  ∀ (l : LaneId) (q : Pocket) (s : State) (e : Entry), trackOk (s.track.get l) = true → (s.tally.get l).length = 106 →
    (eyeState l (pocketEye q) s).dark = false → (geometry l s).eyeFilter = true →
    delivers (laneMode l s) = true → (s.belt.get l).samples.length = 4 →
    (s.track.get l).queue.find? (fun e => e.cancelEye.map (fun c => c.1) == some (pocketSide q) &&
        e.pocketSeen.isNone && eyeWindowHas l (pocketEye q) e ((s.belt.get l).samples.getD 0 ⟨0, 0, 0⟩).pos s) = some e →
    expectedPocket e (pocketSide q) = q → (pocketRec l q s).state ≠ .out →
    (q.gated = true → e.serial ∈ (pocketRec l q s).reservations) → (pocketRec l q s).fill < 65535 →
    ∃ t, exec (.arrivalPocketEye l q 4) s = .next t ∧
      (t.track.get l).queue = (s.track.get l).queue.filter (fun x => x.serial != e.serial) ∧
      (t.tally.get l).getD (if q.gated then 93 else 94) 0 =
        satAdd32 ((s.tally.get l).getD (if q.gated then 93 else 94) 0) 1 ∧
      (t.tally.get l).getD (85 + (pocketCode q).val) 0 = satAdd32 ((s.tally.get l).getD (85 + (pocketCode q).val) 0) 1 ∧
      (pocketRec l q t).fill = (pocketRec l q s).fill + 1 ∧
      (q.gated = true →
        (pocketRec l q t).reservations = (pocketRec l q s).reservations.filter (· != e.serial))

/-! ### The Scan Front End -/

/-- R30: the near point of the last lead and the clear point of the last trail are reached once. A running calibration
is abandoned when a letter comes near: a long one keeps its request, a short one stays due (R33, R36). R31, R35: a
calibration starts when it is asked for or due, none is running and the aperture is quiet; a short one also needs the
lamps ON and a lane in neither WARMING nor TESTING. That both points use the scanPos of the geometry current at the
comparison is the model's choice (log entry 89), and so is that only the last leading edge has a near point (log entry
66). -/
def Obligations.ApertureAndCalibrationStarts : Prop :=
  (∀ (l : LaneId) (s : State) (m : EdgeMark), m.reached = false →
     ((s.sfe.get l).lastLead = some m →
       (s.belt.get l).counter = posSub (posAdd m.pos (geometry l s).scanPos) 16 →
       ∃ t, exec (.nearPointReached l) s = .next t ∧
         t.sfe.get l = { s.sfe.get l with lastLead := some { m with reached := true }, longRun := none,
                                          shortRun := none } ∧
         ((s.sfe.get l).longRun = none → (s.sfe.get l).shortRun = none → t.jrn = s.jrn) ∧
         ((s.sfe.get l).longRun.isSome = true → (s.sfe.get l).shortRun = none →
           t.jrn = (emit .calAbandoned (some l) noSubject 0 0 0 s).jrn) ∧
         ((s.sfe.get l).shortRun.isSome = true → (s.sfe.get l).longRun = none →
           t.jrn = (emit .calAbandoned (some l) noSubject 0 1 0 s).jrn)) ∧
     ((s.sfe.get l).lastTrail = some m → (s.belt.get l).counter = posAdd m.pos (geometry l s).scanPos →
       ∃ t, exec (.clearPointReached l) s = .next t ∧
         t.sfe.get l = { s.sfe.get l with lastTrail := some { m with reached := true } } ∧ t.jrn = s.jrn)) ∧
  (∀ (l : LaneId) (s : State), (eyeState l .e s).dark = false →
     (∀ m, (s.sfe.get l).lastTrail = some m → m.reached = true) →
     (∀ m, (s.sfe.get l).lastLead = some m → m.reached = true) → (s.sfe.get l).longRun = none →
     (s.sfe.get l).shortRun = none →
     ((s.sfe.get l).longRequest.isSome = true → ∃ t, exec (.longCalStart l) s = .next t ∧
       t.sfe.get l = { s.sfe.get l with longRun := some 0 }) ∧
     ((s.sfe.get l).due = true → (s.lsq.get l).lamp = .on → laneMode l s ≠ .warming → laneMode l s ≠ .testing →
       ∃ t, exec (.shortCalStart l) s = .next t ∧ t.sfe.get l = { s.sfe.get l with shortRun := some 0 }))

/-- R27: the calibrated value of a reading r with offset o and gain g is ((r − o) × g) / 256 truncated toward zero and
clamped to 0..1,023; letter samples (R26) and calibration checks (R38) use it alike. R32: the gain of a long
calibration from the difference d of the reference mean and the offset target, and which channels are clamped. -/
def Obligations.CalibratedValuesAndGains : Prop :=
  ((∀ (p : CalPair) (r : Nat), calibrated p r ≤ 1023 ∧
     (r ≤ p.offset → calibrated p r = 0) ∧
     (p.offset ≤ r → calibrated p r = min 1023 ((r - p.offset) * p.gain / 256))) ∧
   (∀ (pairs : List CalPair) (readings : List (BitVec 12)) (i : Nat) (p : CalPair) (r : BitVec 12),
     pairs[i]? = some p → readings[i]? = some r → (calibrateAll pairs readings)[i]? = some (calibrated p r.toNat)) ∧
   (∀ (p : CalPair) (xs : List (BitVec 12)), checkMean p xs = (xs.map (fun x => calibrated p x.toNat)).sum / 64)) ∧
  ((∀ d : Int, (1 ≤ d ∧ d ≤ 200 → gainOf d = 1023 ∧ gainClamped d = true) ∧
     (201 ≤ d ∧ d ≤ 3200 → (gainOf d : Int) = 204800 / d ∧ gainClamped d = false) ∧
     (3201 ≤ d → gainOf d = 64 ∧ gainClamped d = true) ∧ (d ≤ 0 → gainOf d = 1023 ∧ gainClamped d = true) ∧
     64 ≤ gainOf d ∧ gainOf d ≤ 1023) ∧
   ∀ m : CalMeans, (targetPair m).offset = m.dark ∧ (targetPair m).gain = gainOf ((m.reference : Int) - (m.dark : Int)))

/-- R26, R28, R41: a sample due, one below N where N is known, is appended to its entry's trace and the entry stands in
SCANNING; sample N − 1 hands the trace on, as a job at the tail of the scorer queue, and the entry is QUEUED. R13, R38: in
reference mode the entry moves to SCANNING at its scan start and no job is posted; that the trace takes free values at the
sample's place is the model's choice (log entry 55). -/
def Obligations.SampleTakenEffect : Prop :=
  ∀ (l : LaneId) (s : State) (e : Entry) (r : List (BitVec 12)), r.length = 12 → laneMode l s ≠ .stopped →
    findEntry l e.serial s = some e → e.stage = .entering ∨ e.stage = .scanning →
    (traceOf l e.serial s).length ≤ 291 → (∀ n, e.length = some n → (traceOf l e.serial s).length < n) →
    (s.belt.get l).counter = posAdd e.scanStart (4 * (traceOf l e.serial s).length) →
    ((s.sfe.get l).refMode = true → ∃ t f row, exec (.sampleTaken l e.serial r) s = .next t ∧
      traceOf l e.serial t = traceOf l e.serial s ++ [row] ∧ row.length = 12 ∧ (∀ x ∈ row, x ≤ 1023) ∧
      findEntry l e.serial t = some f ∧ f = { e with stage := .scanning } ∧ t.msc = s.msc) ∧
    ((s.sfe.get l).refMode = false → e.length ≠ some ((traceOf l e.serial s).length + 1) → ∃ t f, exec (.sampleTaken l e.serial r) s = .next t ∧
      traceOf l e.serial t = traceOf l e.serial s ++ [calibrateAll (s.sfe.get l).pairs r] ∧
      findEntry l e.serial t = some f ∧ f = { e with stage := .scanning } ∧ t.msc = s.msc) ∧
    ((s.sfe.get l).refMode = false → e.length = some ((traceOf l e.serial s).length + 1) → s.msc.jobs.length < 8 → s.msc.scoring.isSome = true →
      ∃ t j f, exec (.sampleTaken l e.serial r) s = .next t ∧ t.msc.jobs = s.msc.jobs ++ [j] ∧ j.lane = l ∧
        j.serial = e.serial ∧ j.length = (traceOf l e.serial s).length + 1 ∧
        j.trace = traceOf l e.serial s ++ [calibrateAll (s.sfe.get l).pairs r] ∧
        j.deadline = posSub (posAdd e.leadE (geometry l s).flipGatePos)
          (leadCounts (vget (geometry l s).gates 0).lead (s.belt.get l).speed + (geometry l s).decisionGuard) ∧
        traceOf l e.serial t = [] ∧ findEntry l e.serial t = some f ∧ f = { e with stage := .queued })

/-- R29, R31, R32, R34, R37: a long calibration completes 200 ms after its start. Every channel takes its offset
target and the gain of R32; due, the age and the timer are cleared, and GAP_CAL is out of the set. R29, R34, R35, R37:
a short calibration completes 8 ms after its start. Every channel's new offset is the old one plus the difference to its
target clamped to −16..+16, and its new gain the old one plus the difference to the gain of R32 from the offset target
clamped to −32..+32. -/
def Obligations.CalibrationsComplete : Prop :=
  (∀ (l : LaneId) (s : State) (dark reference : List (List (BitVec 12))) (n : Nat), measureOk dark = true →
     measureOk reference = true → (s.sfe.get l).longRun = some n → 4000 ≤ n →
     ∃ t, exec (.longCalComplete l dark reference) s = .next t ∧
       (t.sfe.get l).pairs = (dark.zip reference).map (fun q =>
         { offset := (q.1.map (·.toNat)).sum / 64,
           gain := gainOf (((q.2.map (·.toNat)).sum / 64 : Nat) - ((q.1.map (·.toNat)).sum / 64 : Nat) : Int) }) ∧
       (t.sfe.get l).longRun = none ∧ (t.sfe.get l).longRequest = none ∧ (t.sfe.get l).due = false ∧
       (t.sfe.get l).dueAge = 0 ∧ (t.sfe.get l).calTicks = 0 ∧ (t.sfe.get l).gapHold = none ∧
       holdSet l .gapCal t = false) ∧
  (∀ (l : LaneId) (s : State) (dark reference : List (List (BitVec 12))) (n : Nat), measureOk dark = true →
     measureOk reference = true → (s.sfe.get l).shortRun = some n → 160 ≤ n → (s.sfe.get l).pairs.length = 12 →
     ∃ t, exec (.shortCalComplete l dark reference) s = .next t ∧ (t.sfe.get l).pairs.length = 12 ∧
       (∀ (i : Nat) (old : CalPair) (d r : List (BitVec 12)) (target : Nat), (s.sfe.get l).pairs[i]? = some old →
         dark[i]? = some d → reference[i]? = some r → target = (d.map (·.toNat)).sum / 64 →
         ∃ new, (t.sfe.get l).pairs[i]? = some new ∧
           (new.offset : Int) = old.offset + max (-16) (min 16 ((target : Int) - old.offset)) ∧
           (new.gain : Int) = old.gain + max (-32) (min 32
             ((gainOf (((r.map (·.toNat)).sum / 64 : Nat) - (target : Int)) : Int) - old.gain))) ∧
       (t.sfe.get l).shortRun = none ∧ (t.sfe.get l).due = false ∧ (t.sfe.get l).dueAge = 0 ∧
       (t.sfe.get l).calTicks = 0 ∧ holdSet l .gapCal t = false)

/-- R34, R37: an expiry of the calibration timer sets due, or raises the age of a due calibration; an age of 4 or more
raises GAP_CAL with its hold timer of 250 ms, at whose expiry GAP_CAL leaves the set with the calibration still due.
-/
def Obligations.CalibrationTimerAndGapHold : Prop :=
  ∀ (l : LaneId) (s : State),
    (laneMode l s = .running → (s.lsq.get l).lamp = .on →
      20000 * (s.sfe.get l).calPeriod ≤ (s.sfe.get l).calTicks → ∃ t, exec (.calIntervalExpiry l) s = .next t ∧
        (t.sfe.get l).due = true ∧ (t.sfe.get l).calTicks = 0 ∧
        (t.sfe.get l).calPeriod = (geometry l s).calInterval ∧
        (t.sfe.get l).dueAge =
          (if (s.sfe.get l).due = true then min ((s.sfe.get l).dueAge + 1) 255 else (s.sfe.get l).dueAge) ∧
        (4 ≤ (t.sfe.get l).dueAge → holdSet l .gapCal t = true) ∧
        (4 ≤ (t.sfe.get l).dueAge → holdSet l .gapCal s = false → (t.sfe.get l).gapHold = some 0)) ∧
    (∀ n, (s.sfe.get l).gapHold = some n → 5000 ≤ n → ∃ t, exec (.gapCalHoldExpiry l) s = .next t ∧
      t.sfe.get l = { s.sfe.get l with gapHold := none } ∧ holdSet l .gapCal t = false)

/-! ### Scoring and self-test -/

/-- R53: the four figures of one strip and band, from the windowed sums S(j) of R52. -/
def Obligations.FiguresOfATrace : Prop :=
  (∀ (w : Nat) (xs : List Nat), 8 ≤ w → w ≤ xs.length → (∀ x ∈ xs, x ≤ 1023) →
    ∃ p b i, (∀ j, j + w ≤ xs.length → b ≤ ((xs.drop j).take w).sum ∧ ((xs.drop j).take w).sum ≤ p) ∧
      i + w ≤ xs.length ∧ ((xs.drop i).take w).sum = p ∧ (∀ j, j < i → ((xs.drop j).take w).sum ≠ p) ∧
      (∃ j, j + w ≤ xs.length ∧ ((xs.drop j).take w).sum = b) ∧
      (figureOf w xs).strength = (p - b) / w ∧ (figureOf w xs).centre = i + w / 2 ∧
      (figureOf w xs).strength ≤ 1023 ∧ 4 ≤ (figureOf w xs).centre ∧ (figureOf w xs).centre ≤ xs.length - 1) ∧
  ∀ (w : Nat) (trace : List (List Nat)) (strip band : Nat), strip < 4 → band < 3 →
    ((traceFigures w trace)[strip]?.bind (fun fs => fs[band]?)) =
      some (figureOf w (channelTrace trace (3 * strip + band)))

/-- R54 to R56: which classes are candidates on which strips; a candidate's mark centre, its presentation by strip and end,
and its score, the smallest margin over the bounds that apply. R57: the best candidate is one of the ranked candidates,
and each other one stands after it by priority, then score, then class index, then strip. R58, R59: NO_MARK with no
candidate, OFF_CORNER with none that is ranked, AMBIGUOUS when a ranked candidate of another presentation and the same priority comes within the margin of the best,
else FACED with what the best carries: a presentation and a class enabled in the table. The other kinds carry their kind
alone. -/
def Obligations.BestCandidateAndVerdict : Prop :=
  (∀ (n : Nat) (es : List ClassEntry) (figs : List (List Figure)) (k strip : Nat) (e : ClassEntry) (fs : List Figure),
     1 ≤ k → es[k - 1]? = some e → figs[strip]? = some fs →
     ((∃ c ∈ candidates n es figs, c.index = k ∧ c.strip = strip) ↔ e.enabled = true ∧
       (∀ (i : Nat) (b : Bounds) (f : Figure), e.bands[i]? = some b → fs[i]? = some f →
         b.lo ≤ f.strength ∧ f.strength ≤ b.hi) ∧
       (∀ (i j : Nat) (b d : Bounds) (f g : Figure), e.bands[i]? = some b → fs[i]? = some f → e.bands[j]? = some d →
         fs[j]? = some g → 0 < b.lo → 0 < d.lo → f.centre ≤ g.centre + e.tolerance)) ∧
     ∀ c ∈ candidates n es figs, c.index = k → c.strip = strip → c.entry = e ∧
       (∀ (i : Nat) (b : Bounds) (f : Figure), e.bands[i]? = some b → fs[i]? = some f → 0 < b.lo →
         (∀ (j : Nat) (d : Bounds) (g : Figure), e.bands[j]? = some d → fs[j]? = some g → 0 < d.lo →
           g.strength ≤ f.strength ∧ (j < i → g.strength < f.strength)) → c.centre = f.centre) ∧
       c.presentation = (if 2 * c.centre < n then (if strip = 0 then some .a else if strip = 3 then some .d else none)
         else (if strip = 1 then some .b else if strip = 2 then some .c else none)) ∧
       (∀ (i : Nat) (b : Bounds) (f : Figure), e.bands[i]? = some b → fs[i]? = some f →
         (0 < b.lo → c.score ≤ f.strength - b.lo) ∧ (b.hi < 1023 → c.score ≤ b.hi - f.strength)) ∧
       ((∀ f ∈ fs, f.strength ≤ 1023) →
         (∃ (i : Nat) (b : Bounds) (f : Figure), e.bands[i]? = some b ∧ fs[i]? = some f ∧ (0 < b.lo ∨ b.hi < 1023)) →
         ∃ (i : Nat) (b : Bounds) (f : Figure), e.bands[i]? = some b ∧ fs[i]? = some f ∧
           ((0 < b.lo ∧ c.score = f.strength - b.lo) ∨ (b.hi < 1023 ∧ c.score = b.hi - f.strength)))) ∧
  (∀ (cs : List Candidate), (bestCandidate cs = none ↔ cs = []) ∧
     ∀ b, bestCandidate cs = some b → b ∈ cs ∧ ∀ c ∈ cs,
       (c.index ≠ b.index ∨ c.strip ≠ b.strip) →
       c.entry.priority < b.entry.priority ∨ (c.entry.priority = b.entry.priority ∧
         (c.score < b.score ∨ (c.score = b.score ∧
           (b.index < c.index ∨ (b.index = c.index ∧ b.strip < c.strip)))))) ∧
  (∀ (t : ClassTable) (n : Nat) (figs : List (List Figure)),
     ((candidates n t.entries figs = []) → (judge t n figs).kind = .noMark) ∧
     (candidates n t.entries figs ≠ [] → (∀ c ∈ candidates n t.entries figs, c.presentation = none) →
       (judge t n figs).kind = .offCorner) ∧
     ((judge t n figs).kind ≠ .faced → (judge t n figs).faced = none) ∧
     (∀ c ∈ candidates n t.entries figs, c.entry.enabled = true ∧ 1 ≤ c.index ∧
       t.entries[c.index - 1]? = some c.entry) ∧
     ∀ b, bestCandidate ((candidates n t.entries figs).filter (fun c => c.presentation.isSome)) = some b →
       ((∃ c ∈ candidates n t.entries figs, c.presentation.isSome = true ∧ c.presentation ≠ b.presentation ∧
           c.entry.priority = b.entry.priority ∧ b.score ≤ c.score + t.margin) → (judge t n figs).kind = .ambiguous) ∧
       ((∀ c ∈ candidates n t.entries figs, c.presentation.isSome = true → c.presentation ≠ b.presentation →
           c.entry.priority = b.entry.priority → c.score + t.margin < b.score) →
         (judge t n figs).kind = .faced ∧ ∃ p, b.presentation = some p ∧
           (judge t n figs).faced = some {
             presentation := p, classIndex := b.index, label := b.entry.label,
             score := b.score, markCentre := b.centre, generation := t.generation, style := b.entry.style,
             pocketPrimary := b.entry.pocketPrimary, pocketAlternate := b.entry.pocketAlternate }))

/-- R13, R43, R44: a job's scoring completes. Its verdict, LATE when the deadline is behind the counter, is recorded
in its entry unless that holds one; the job leaves the queue, and with no other job waiting the scorer is free. -/
def Obligations.ScoringReturnsTheVerdict : Prop :=
  ∀ (s : State) (j : Job) (rest : List Job) (k : ClassTable) (e : Entry), s.msc.jobs = j :: rest →
    s.msc.scoring = some k → trackOk (s.track.get j.lane) = true → findEntry j.lane j.serial s = some e →
    ∃ t f, exec .scoringComplete s = .next t ∧ findEntry j.lane j.serial t = some f ∧
      f.verdict = some (e.verdict.getD (withDetail j.detail (traceFigures k.window j.trace)
        (if behind j.deadline (s.belt.get j.lane).counter = true then plainVerdict .late
         else judge k j.length (traceFigures k.window j.trace)))) ∧
      (rest = [] → t.msc.jobs = [] ∧ t.msc.scoring = none)

/-- R63, R167: idle work begins only while the scorer has no job, on the oldest request; an audit's class is under
evaluation from then. R61, R166, R171: a class audit needs a class table and no audit running; it is TAKEN with the
audit set as the enabled classes of its spans, and asks for idle work; without a table it is NOT_CONFIGURED, with an
audit running BUSY. R62, R63, R171: a class's evaluation writes its result entry of four bytes at the next place of
the result area: the class, 0 when its own letter selects it (or no class), else 1 and the selecting class. With
classes left the next one is asked for; the last one ends the audit with PASS, its order DONE with that result. -/
def Obligations.IdleWorkAndTheAudit : Prop :=
  (∀ (s : State) (r : IdleRequest) (rest : List IdleRequest), s.msc.jobs = [] → s.msc.scoring = none →
     s.msc.idleRequests = r :: rest → s.msc.idleRunning = false →
     ∃ t, exec .idleWorkStart s = .next t ∧ t.msc = { s.msc with idleRunning := true } ∧ t.hmu.tests = s.hmu.tests ∧
       t.hmu.audit = (if r = .audit then s.hmu.audit.map (fun a => { a with begun := true }) else s.hmu.audit)) ∧
  (∀ (b : OrderBlock) (s : State) (lane n a : Nat) (sp : List (Nat × Nat)),
     Taken b (.selfTest .classAudit lane n sp a) s → allowed .orderStateWrite (b.addr + 12) 8 s = true → n ≤ 4 →
     (∀ c, s.msc.current = some c → s.hmu.audit = none →
       (∀ q ∈ sp.take n, q.1 ≤ q.2 ∧ 1 ≤ q.1 ∧ q.2 ≤ c.entries.length) → auditSet c (sp.take n) ≠ [] →
       ∃ t, exec .selfTestClassAudit s = .next t ∧ t.hmu.audit = some {
           generation := c.generation,
           left := auditSet c (sp.take n), total := (auditSet c (sp.take n)).length, nextAddr := a, lastWritten := 0,
           tens := 10, begun := false } ∧
         t.msc.idleRequests = s.msc.idleRequests ++ [.audit] ∧ t.ocu.current = none ∧
         t.ocu.longList = s.ocu.longList ++ [⟨.audit, b.addr, b.kind, b.notify⟩]) ∧
     (s.hmu.audit = none → s.msc.current = none → ∃ t d, exec .selfTestClassAudit s = .next t ∧
       Ended b .refused .notConfigured d s.mem s t ∧ t.hmu = s.hmu) ∧
     (s.hmu.audit.isSome = true → ∃ t d, exec .selfTestClassAudit s = .next t ∧
       Ended b .refused .busy d s.mem s t ∧ t.hmu = s.hmu)) ∧
  (∀ (s : State) (a : Audit) (k : Nat) (left : List Nat) (c : ClassTable) (x : ClassEntry) (o : LongOrder)
     (entry : List Byte), s.hmu.audit = some a →
     a.left = k :: left → s.msc.idleRunning = true → s.msc.idleRequests = [.audit] → s.msc.current = some c →
     c.entries[k - 1]? = some x → allowed .snapshotWrite a.nextAddr 4 s = true →
     s.ocu.longList = [o] → o.key = .audit → allowed .orderStateWrite (o.addr + 12) 8 s = true →
     entry = (match auditWinner c x with
       | none => [BitVec.ofNat 8 k, 0, 0, 0]
       | some w => if w = k then [BitVec.ofNat 8 k, 0, 0, 0] else [BitVec.ofNat 8 k, 1, BitVec.ofNat 8 w, 0]) →
     ∃ t, exec .auditEvalComplete s = .next t ∧
       (left ≠ [] → t.mem = memWriteN s.mem a.nextAddr entry ∧
         t.hmu.audit = some { a with left := left, nextAddr := a.nextAddr + 4, lastWritten := k,
                                     tens := (10 * left.length + a.total - 1) / a.total } ∧
         t.msc.idleRequests = [.audit] ∧ t.msc.idleRunning = false) ∧
       (left = [] → t.mem = memWriteN (memWriteN s.mem a.nextAddr entry) (o.addr + 12)
           (orderStateBytes .done (resultCode .ok) (testResultCode .pass) s.clock.ms.toNat) ∧
         t.ocu.lastOrder = o.addr ∧ t.hmu.audit = none ∧ t.ocu.longList = [] ∧ t.ocu.completed = satAdd32 s.ocu.completed 1 ∧
         t.msc.idleRequests = [] ∧ reported .testDone t ∧
         ∃ e, vget t.hmu.log (Fin.ofNat 16 (t.hmu.pointer - 1)) = some e ∧ e.kind = .classAudit ∧ e.result = .pass))

/-- R38, R168, R169: the REFERENCE test. A calibration check with every mean in 776..824 goes on to item 1; a
synthetic trace made asks for its scoring; a scored item as expected goes on to the next step, and step 10 ends the
test. A calibration check with a mean outside ends it FAIL_FRONT_END, as do strengths that are not the item's; another
verdict ends it FAIL_SCORER. That a trace is not kept, its figures being those of the pairs and the last long calibration
of the moment its scoring completes, is the model's choice (log entry 44). -/
def Obligations.ReferenceTestSteps : Prop :=
  ∀ (l : LaneId) (s : State) (q : LaneTest), s.hmu.tests.get l = some q → q.kind = .reference →
    (∀ (n : Nat) (r : List (List (BitVec 12))), (s.sfe.get l).refRequest = some (.calCheck n) → 320 ≤ n →
      measureOk r = true →
      ∃ t, exec (.refCalCheckComplete l r) s = .next t ∧
        ((s.sfe.get l).lastLong.isSome = true →
          (∀ x ∈ (s.sfe.get l).pairs.zip r, 776 ≤ checkMean x.1 x.2 ∧ checkMean x.1 x.2 ≤ 824) →
          (t.sfe.get l).refRequest = some (.trace 1 0) ∧ t.hmu.tests.get l = some { q with step := 2 }) ∧
        ((∃ x ∈ (s.sfe.get l).pairs.zip r, checkMean x.1 x.2 < 776 ∨ 824 < checkMean x.1 x.2) →
          t.hmu.tests.get l = none ∧ (t.sfe.get l).refMode = false ∧ reported .testDone t ∧
          Logged .reference (some l) .failFrontEnd s.clock.ms t) ∧
        ((s.sfe.get l).lastLong = none → t.hmu.tests.get l = none ∧ (t.sfe.get l).refMode = false ∧
          reported .testDone t)) ∧
    (∀ (i n : Nat), (s.sfe.get l).refRequest = some (.trace i n) → 240 ≤ n →
      ∃ t, exec (.syntheticTraceDone l) s = .next t ∧
        t.msc.idleRequests = s.msc.idleRequests ++ [.laneItem l] ∧ (t.sfe.get l).refRequest = none) ∧
    (s.msc.idleRunning = true → s.msc.idleRequests.head? = some (.laneItem l) →
      ∃ t, exec (.syntheticItemScored l) s = .next t ∧
        (∀ i, q.step = i + 1 → i < 9 → 0 < i → strengthsExpected i (syntheticFigures (s.sfe.get l) i) = true →
          verdictExpected 24 i (judge builtInTable 240 (syntheticFigures (s.sfe.get l) i)) = true →
          t.hmu.tests.get l = some { q with step := i + 2 } ∧
          (if i = 8 then t.msc.idleRequests = s.msc.idleRequests.drop 1 ++ [.laneItem l]
           else (t.sfe.get l).refRequest = some (.trace (i + 1) 0))) ∧
        (∀ i, q.step = i + 1 → i < 9 → 0 < i → strengthsExpected i (syntheticFigures (s.sfe.get l) i) = false →
          t.hmu.tests.get l = none ∧ reported .testDone t ∧ Logged .reference (some l) .failFrontEnd s.clock.ms t) ∧
        (∀ i, q.step = i + 1 → i < 9 → 0 < i → strengthsExpected i (syntheticFigures (s.sfe.get l) i) = true →
          verdictExpected 24 i (judge builtInTable 240 (syntheticFigures (s.sfe.get l) i)) = false →
          t.hmu.tests.get l = none ∧ reported .testDone t ∧ Logged .reference (some l) .failScorer s.clock.ms t) ∧
        (q.step = 10 → t.hmu.tests.get l = none ∧ reported .testDone t ∧
          ∃ e, vget t.hmu.log (Fin.ofNat 16 (t.hmu.pointer - 1)) = some e ∧ e.kind = .reference ∧ e.result = .pass))

/-! ### Plans, gates, prints and heads -/

/-- R66: flip and bank of each presentation. R65 to R67: which verdicts, heads and retired gates make a plan REJECT,
with the cause of the first test that fails; a REJECT plan moves no gate, prints nothing and goes to NE. R68, R72,
R73: a letter's window appended to an empty list with no last closed record: from leadE + G less the lead to leadE + G
+ its length + the tail, serving the letter alone, QUEUED. R65, R66, R70, R108: a FACED letter of presentation A and
style 0, whose primary pocket N1 is OPEN with room and whose gate's list is empty, is planned to N1 on the near bank
without a flip and without a print, owns one window at N1's gate, and has its reservation there. R66, R69, R93: a FACED
letter of another style whose tests pass has a plan with its flip, bank and pocket windows and its print, posted at the
tail of the bank's head with startMm, columns, clipped and the generation of R93. R73, R74: against the last
window of a list, or the last closed record, a window with release enough is appended unless a letter between would not
be clear of it or the list is full; one with too short a release is merged into a window not ACTIVE, with nothing between,
within maxHold and eight items, and fails otherwise. R69, R70: a failed append at the flip or bank gate makes the plan
REJECT with GATE_BUSY; with no room in the primary pocket the alternate is chosen, and with none there the end pocket,
with POCKET_FULL; a failed append at the pocket's gate sends the letter to the end pocket with GATE_BUSY. -/
def Obligations.PlansAndWindows : Prop :=
  (facing .a = (false, .near) ∧ facing .b = (true, .far) ∧ facing .c = (false, .far) ∧ facing .d = (true, .near)) ∧
  (∀ (l : LaneId) (e : Entry) (v : Verdict) (s : State),
     (v.kind ≠ .faced → planVerdict l e v s = (s, rejectPlan (.verdict v.kind))) ∧
     (∀ info, v.kind = .faced → v.faced = some info → info.style ≠ 0 →
       ((head l (facing info.presentation).2 s).retired = true →
         planVerdict l e v s = (s, rejectPlan .headRetired)) ∧
       ((head l (facing info.presentation).2 s).retired = false →
         ((head l (facing info.presentation).2 s).wet = .cold → planVerdict l e v s = (s, rejectPlan .headCold)) ∧
         ((head l (facing info.presentation).2 s).wet = .dry → planVerdict l e v s = (s, rejectPlan .headDry)) ∧
         ((head l (facing info.presentation).2 s).wet = .ready →
           16 ≤ (head l (facing info.presentation).2 s).prints.length →
           planVerdict l e v s = (s, rejectPlan .printListFull)))) ∧
     (∀ info, v.kind = .faced → v.faced = some info → info.style = 0 →
       ((facing info.presentation).1 = true ∧ (s.gsq.get l).flipRetired = true) ∨
         ((facing info.presentation).2 = .far ∧ (s.gsq.get l).bankRetired = true) →
       planVerdict l e v s = (s, rejectPlan .gateRetired)) ∧
     ∀ c, (rejectPlan c).reject = true ∧ (rejectPlan c).cause = some c ∧ (rejectPlan c).flip = false ∧
       (rejectPlan c).bank = .near ∧ (rejectPlan c).print = none ∧ (rejectPlan c).pocket = .ne ∧
       (rejectPlan c).windows = []) ∧
  (∀ (l : LaneId) (g : Gate) (e : Entry) (s : State), (channel l g s).windows = [] →
     (channel l g s).lastClosed = none → ∃ t w, appendWindow l g e s = some (t, w) ∧ w.gate = g ∧
       w.onPos = posSub (posAdd e.leadE (gatePosition (geometry l s) g))
         (leadCounts (vget (geometry l s).gates (gateCode g)).lead (s.belt.get l).speed) ∧
       w.offPos = posAdd (posAdd e.leadE (gatePosition (geometry l s) g))
         (4 * e.length.getD 0 + (vget (geometry l s).gates (gateCode g)).tail) ∧
       channel l g t = { channel l g s with
         windows := [{ onPos := w.onPos, offPos := w.offPos, items := [e.serial], state := .queued }] } ∧
       ∀ k, k ≠ g → channel l k t = channel l k s) ∧
  (∀ (l : LaneId) (e : Entry) (v : Verdict) (info : FacedInfo) (s : State), v.kind = .faced → v.faced = some info →
     info.presentation = .a → info.style = 0 → info.pocketPrimary = 1 → (pocketRec l .n1 s).state = .opened →
     (pocketRec l .n1 s).fill + (pocketRec l .n1 s).reservations.length < (pocketRec l .n1 s).capacity →
     (channel l .n1 s).windows = [] → (channel l .n1 s).lastClosed = none →
     ∃ t w, planVerdict l e v s = (t, {
         reject := false, cause := none, flip := false, bank := .near, print := none, pocket := .n1, windows := [w] }) ∧
       w.gate = .n1 ∧ (pocketRec l .n1 t).fill = (pocketRec l .n1 s).fill ∧
       (∀ n, n ∈ (pocketRec l .n1 t).reservations ↔ n = e.serial ∨ n ∈ (pocketRec l .n1 s).reservations) ∧
       (channel l .n1 t).windows =
         [{ onPos := w.onPos, offPos := w.offPos, items := [e.serial], state := .queued }] ∧
       t.track = s.track ∧ t.cnu = s.cnu) ∧
  (∀ (l : LaneId) (e : Entry) (v : Verdict) (info : FacedInfo) (s : State) (flip : Bool) (h : Side) (g : Gate)
     (st : Style) (width anchor : Nat), v.kind = .faced → v.faced = some info → info.style ≠ 0 →
     facing info.presentation = (flip, h) → (head l h s).retired = false → (head l h s).wet = .ready →
     (head l h s).prints.length < 16 →
     (flip = true → (s.gsq.get l).flipRetired = false ∧ (channel l .flip s).windows = [] ∧
       (channel l .flip s).lastClosed = none) →
     (h = .far → (s.gsq.get l).bankRetired = false ∧ (channel l .bank s).windows = [] ∧
       (channel l .bank s).lastClosed = none) →
     pocketRoom l (bankPocket h info.pocketPrimary) s = true → pocketGate (bankPocket h info.pocketPrimary) = some g →
     (channel l g s).windows = [] → (channel l g s).lastClosed = none → st = styleOf info.style s →
     (width, anchor) = (if st.kind = .none then (16, 0) else ((st.images.get h).width, (st.images.get h).anchor)) →
     ∃ t p, planVerdict l e v s = (t, {
         reject := false, cause := none, flip := flip, bank := h,
         print := some { head := h, style := info.style, generation := p.generation },
         pocket := bankPocket h info.pocketPrimary,
         windows := (if flip then [windowFor l .flip e s] else []) ++
           (if h = .far then [windowFor l .bank e s] else []) ++ [windowFor l g e s] }) ∧
       (head l h t).prints = (head l h s).prints ++ [p] ∧ p.serial = e.serial ∧ p.style = info.style ∧
       p.kind = st.kind ∧ p.state = .posted ∧ p.width = width ∧ p.anchor = anchor ∧
       p.generation = (if st.kind = .full then s.pmc.current.map (fun x => x.number) else none) ∧
       (p.startMm : Int) = max ((info.markCentre : Int) - anchor) (geometry l s).edgeMargin ∧
       (p.columns : Int) = max 0 (min (width : Int)
         ((e.length.getD 0 : Int) - (geometry l s).edgeMargin - p.startMm)) ∧
       p.clipped = decide (p.columns < width) ∧
       (∀ k, k = g ∨ (k = .flip ∧ flip = true) ∨ (k = .bank ∧ h = .far) → (channel l k t).windows =
         [{ onPos := (windowFor l k e s).onPos, offPos := (windowFor l k e s).offPos, items := [e.serial],
            state := .queued }]) ∧
       (∀ n, n ∈ (pocketRec l (bankPocket h info.pocketPrimary) t).reservations ↔
         n = e.serial ∨ n ∈ (pocketRec l (bankPocket h info.pocketPrimary) s).reservations)) ∧
  (∀ (l : LaneId) (g : Gate) (e : Entry) (s : State) (w : Window) (ws : List Window) (between : List Entry)
     (minRelease maxHold : Nat), (channel l g s).windows = ws ++ [w] →
     between = liesBetween l g (w.items.getLastD 0) e.serial s →
     minRelease = leadCounts (vget (geometry l s).gates (gateCode g)).minRelease (s.belt.get l).speed →
     maxHold = leadCounts (vget (geometry l s).gates (gateCode g)).maxHold (s.belt.get l).speed →
     ((minRelease : Int) ≤ signedDist (windowFor l g e s).onPos w.offPos →
       (∀ x, between.getLast? = some x → ahead (clearPosition l g x s) (windowFor l g e s).onPos = false) →
       ws.length < 7 → ∃ t, appendWindow l g e s = some (t, windowFor l g e s) ∧
         channel l g t = { channel l g s with windows := ws ++ [w, {
           onPos := (windowFor l g e s).onPos, offPos := (windowFor l g e s).offPos, items := [e.serial],
           state := .queued }] }) ∧
     ((minRelease : Int) ≤ signedDist (windowFor l g e s).onPos w.offPos →
       (∃ x, between.getLast? = some x ∧ ahead (clearPosition l g x s) (windowFor l g e s).onPos = true) ∨
         7 ≤ ws.length → appendWindow l g e s = none) ∧
     (signedDist (windowFor l g e s).onPos w.offPos < (minRelease : Int) →
       between = [] → w.state ≠ .active → dist (windowFor l g e s).offPos w.onPos ≤ maxHold → w.items.length < 8 →
       ∃ t, appendWindow l g e s = some (t, windowFor l g e s) ∧
         channel l g t = { channel l g s with windows := ws ++ [{ w with
           offPos := (windowFor l g e s).offPos, items := w.items ++ [e.serial] }] }) ∧
     (signedDist (windowFor l g e s).onPos w.offPos < (minRelease : Int) →
       between ≠ [] ∨ w.state = .active ∨ maxHold < dist (windowFor l g e s).offPos w.onPos ∨ 8 ≤ w.items.length →
       appendWindow l g e s = none)) ∧
  (∀ (l : LaneId) (g : Gate) (e : Entry) (s : State) (r : LastClosed), (channel l g s).windows = [] →
     (channel l g s).lastClosed = some r →
     (65535 < dist (windowFor l g e s).onPos r.offPos → 65535 < dist r.offPos (windowFor l g e s).onPos →
       ∃ t, appendWindow l g e s = some (t, windowFor l g e s)) ∧
     (dist (windowFor l g e s).onPos r.offPos ≤ 65535 ∨ dist r.offPos (windowFor l g e s).onPos ≤ 65535 →
       signedDist (windowFor l g e s).onPos r.offPos <
         (leadCounts (vget (geometry l s).gates (gateCode g)).minRelease (s.belt.get l).speed : Int) →
       appendWindow l g e s = none) ∧
     ((leadCounts (vget (geometry l s).gates (gateCode g)).minRelease (s.belt.get l).speed : Int) ≤
         signedDist (windowFor l g e s).onPos r.offPos → liesBetween l g r.newest e.serial s = [] →
       ∃ t, appendWindow l g e s = some (t, windowFor l g e s))) ∧
  (∀ (l : LaneId) (e : Entry) (v : Verdict) (info : FacedInfo) (s : State), v.kind = .faced → v.faced = some info →
     info.style = 0 → (s.gsq.get l).flipRetired = false → (s.gsq.get l).bankRetired = false →
     ((facing info.presentation).1 = true → appendWindow l .flip e s = none →
       planVerdict l e v s = (emit .gateBusy (some l) 0 e.serial 0 0 s, rejectPlan .gateBusy)) ∧
     ((facing info.presentation) = (false, .far) → appendWindow l .bank e s = none →
       planVerdict l e v s = (emit .gateBusy (some l) 1 e.serial 0 0 s, rejectPlan .gateBusy)) ∧
     ((facing info.presentation) = (false, .near) →
       (pocketRoom l (bankPocket .near info.pocketPrimary) s = false →
         info.pocketAlternate = 0 ∨ pocketRoom l (bankPocket .near info.pocketAlternate) s = false →
         planVerdict l e v s = (emit .pocketFull (some l) (pocketCode (bankPocket .near info.pocketPrimary)).val e.serial
           0 0 s, { reject := false, cause := some .pocketFull, flip := false, bank := .near, print := none,
                    pocket := .ne, windows := [] })) ∧
       (pocketRoom l (bankPocket .near info.pocketPrimary) s = false → info.pocketAlternate ≠ 0 →
         pocketRoom l (bankPocket .near info.pocketAlternate) s = true →
         ∀ g t w, pocketGate (bankPocket .near info.pocketAlternate) = some g → appendWindow l g e s = some (t, w) →
         planVerdict l e v s = (reserve l (bankPocket .near info.pocketAlternate) e.serial t, {
           reject := false, cause := none, flip := false, bank := .near, print := none,
           pocket := bankPocket .near info.pocketAlternate, windows := [w] })) ∧
       (pocketRoom l (bankPocket .near info.pocketPrimary) s = true →
         ∀ g, pocketGate (bankPocket .near info.pocketPrimary) = some g → appendWindow l g e s = none →
         planVerdict l e v s = (emit .gateBusy (some l) (gateCode g).val e.serial 0 0 s, {
           reject := false, cause := some .gateBusy, flip := false, bank := .near, print := none, pocket := .ne,
           windows := [] }))))

/-- R76: at its on position an ARMED head turns its output on, joins the fire history and starts the hold timer of
maxHold; with the fire budget spent it leaves the list and its items without a cause are rerouted GATE_SUPPRESSED. That a
suppressed window is struck from its item's plan is the model's reading (log entry 76). -/
def Obligations.GateOnEventEffect : Prop :=
  ∀ (l : LaneId) (g : Gate) (s : State) (w : Window) (ws : List Window), (channel l g s).windows = w :: ws →
    w.state = .armed → w.onPos = (s.belt.get l).counter → laneMode l s ≠ .stopped →
    ((channel l g s).history.length < (geometry l s).maxFires ∨
        (∃ x ∈ (channel l g s).history, (geometry l s).fireWindow ≤ (s.clock.ms - x).toNat) →
      ∃ t, exec (.gateOnEvent l g) s = .next t ∧
        channel l g t = { channel l g s with
          windows := { w with state := .active } :: ws, output := true,
          history := ((channel l g s).history ++ [s.clock.ms]).drop
            ((channel l g s).history.length + 1 - (geometry l s).maxFires),
          hold := some ⟨0, (vget (geometry l s).gates (gateCode g)).maxHold⟩ } ∧
        t.track = s.track ∧ ∀ k, k ≠ g → channel l k t = channel l k s) ∧
    ((geometry l s).maxFires ≤ (channel l g s).history.length →
      (∀ x ∈ (channel l g s).history, (s.clock.ms - x).toNat < (geometry l s).fireWindow) → ws = [] →
      trackOk (s.track.get l) = true → ∀ e, w.items = [e.serial] → findEntry l e.serial s = some e →
      ∃ t f, exec (.gateOnEvent l g) s = .next t ∧ (channel l g t).windows = [] ∧
        (channel l g t).output = (channel l g s).output ∧ findEntry l e.serial t = some f ∧
        f.reroute = some (e.reroute.getD .gateSuppressed) ∧ holdsWindow f g = false)

/-- R77: at its off position, or when its hold timer expires, an ACTIVE window closes: its output goes off, it leaves
the list, and the last closed record takes the off position (the counter at a hold expiry) and its newest item. -/
def Obligations.GateWindowCloses : Prop :=
  ∀ (l : LaneId) (g : Gate) (s : State) (w : Window) (ws : List Window), (channel l g s).windows = w :: ws →
    w.state = .active → (∀ v, ws.head? = some v → v.state = .queued ∧ ahead v.onPos (s.belt.get l).counter = true) →
    (laneMode l s ≠ .stopped → w.offPos = (s.belt.get l).counter →
      ∃ t, exec (.gateWindowClose l g) s = .next t ∧ channel l g t = { channel l g s with
        windows := setHeadState .armed ws, lastClosed := some ⟨w.offPos, w.items.getLastD 0⟩, output := false,
        hold := none } ∧ t.track = s.track) ∧
    (∀ h : HoldTimer, (channel l g s).hold = some h → h.limit ≤ 50 * h.ticks →
      ∃ t, exec (.gateHoldExpiry l g) s = .next t ∧ channel l g t = { channel l g s with
        windows := setHeadState .armed ws, lastClosed := some ⟨(s.belt.get l).counter, w.items.getLastD 0⟩,
        output := false, hold := none } ∧ t.track = s.track)

/-- R96: a print start. With a spit running the print is not made, cause SPIT_BUSY; with its image in neither slot or
being loaded, cause RASTER_LATE; with its image ready the print of one column or more is PRINTING from that slot, and the
entry's print result names the image taken (the model's reading of R9: log entry 70). That the image is the one chosen anew
at the start, and not one a slot was loaded with before, is the model's choice (log entry 81), and so is the count of a
FULL print of an unset-clock generation that has also been dropped (log entry 61). -/
def Obligations.PrintStartEffect : Prop :=
  ∀ (l : LaneId) (h : Side) (s : State) (p : Print) (e : Entry), laneMode l s ≠ .stopped →
    (head l h s).prints.find? (fun p => p.state == .released && isNow p.start (counter l s)) = some p →
    (∀ x ∈ (head l h s).prints, x.state ≠ .printing) → trackOk (s.track.get l) = true →
    findEntry l p.serial s = some e → (s.tally.get l).length = 106 → (∀ g, (channel l g s).windows.length ≤ 1) →
    ((head l h s).spitRun.isSome = true → ∃ t f, exec (.printStart l h) s = .next t ∧
      findEntry l p.serial t = some f ∧ f.printResult = some (.uncancelled .spitBusy) ∧ f.reroute = e.reroute ∧
      (head l h t).prints = (head l h s).prints.filter (fun x => x.serial != p.serial) ∧
      (t.tally.get l).getD 83 0 = satAdd32 ((s.tally.get l).getD 83 0) 1) ∧
    ((head l h s).spitRun = none → ∀ c, chooseImage l h p s = some c →
      (readySlot (head l h s) c.key = none → ∃ t f, exec (.printStart l h) s = .next t ∧
        findEntry l p.serial t = some f ∧ f.printResult = some (.uncancelled .rasterLate) ∧
        (head l h t).prints = (head l h s).prints.filter (fun x => x.serial != p.serial) ∧
        (t.tally.get l).getD 84 0 = satAdd32 ((s.tally.get l).getD 84 0) 1) ∧
      (∀ i, readySlot (head l h s) c.key = some i → 0 < p.columns → ∃ t, exec (.printStart l h) s = .next t ∧
        (head l h t).prints = (head l h s).prints.map (fun x => if x.serial = p.serial then
          { p with state := .printing, image := some (i, c.count) } else x) ∧
        t.track.get l = { s.track.get l with queue := (s.track.get l).queue.map (fun x => if x.serial = p.serial then
          { x with printResult := some (.printed p.startMm p.clipped c.count) } else x) } ∧
        ∀ m, m ≠ l → t.track.get m = s.track.get m))

/-- R96, R100: at start + 4 × columns a print ends: it leaves the list, its first column is expected at the verify eye
at start + verifyOffset, its result is written and it is counted. -/
def Obligations.PrintEndEffect : Prop :=
  ∀ (l : LaneId) (h : Side) (s : State) (p : Print) (i : Fin 2) (c : PrintCount), laneMode l s ≠ .stopped →
    (head l h s).prints.find? (fun p => p.state == .printing) = some p → p.image = some (i, c) → 0 < p.columns →
    (s.belt.get l).counter = posAdd p.start (4 * p.columns) → (head l h s).verify.length < 8 →
    ∃ t, exec (.printEnd l h) s = .next t ∧
      (head l h t).prints = (head l h s).prints.filter (fun x => x.serial != p.serial) ∧
      (head l h t).verify = (head l h s).verify ++ [posAdd p.start (geometry l s).verifyOffset] ∧
      t.track.get l = { s.track.get l with queue := (s.track.get l).queue.map (fun x => if x.serial = p.serial then
        { x with printResult := some (.printed p.startMm p.clipped c) } else x) } ∧
      t.tally.get l = (s.tally.get l).set (match c with
        | .bars => 78
        | .full => 79
        | .fullDowngraded _ => 80) (satAdd32 ((s.tally.get l).getD (match c with
        | .bars => 78
        | .full => 79
        | .fullDowngraded _ => 80) 0) 1)

/-- R98, R99: the idle load engine takes a slot for the first missing look-ahead image, and the slot is ready 1.5 ms
later; a load that was made void ends with the slot empty. That a PRINTING print asks for no image, and the slot taken
where both are free, are the model's (log entries 75 and 34). So is a slot without an image
for a style that became FULL after the generation was composed (log entry 33). -/
def Obligations.RasterLoads : Prop :=
  ∀ (l : LaneId) (h : Side) (s : State),
    (∀ c i, (head l h s).load = none → missingImage l h s = some c → loadSlot l h s = some i →
      ∃ t, exec (.rasterLoadStart l h) s = .next t ∧ head l h t = { head l h s with
        load := some { slot := i, ticks := 0, void := false },
        slots := vupd (head l h s).slots i (fun _ =>
          { key := some c.key, ready := false, image := c.raster, emptyAfter := false }) }) ∧
    (∀ q, (head l h s).load = some q → 30 ≤ q.ticks → ∃ t, exec (.rasterLoadComplete l h) s = .next t ∧
      head l h t = { head l h s with
        load := none,
        slots := vupd (head l h s).slots q.slot (fun x => if q.void then Slot.emptied else { x with ready := true }) })

/-- R100, R101: an edge at a verify eye within 64 counts of the oldest expected position is a kept sample; the
sixteenth one moves the trim by the sum divided by 32, toward zero, within −48..+48. R100: at its expected position +
65 the oldest verify entry leaves the list as a verify miss. -/
def Obligations.VerifyEyes : Prop :=
  (∀ (l : LaneId) (h : Side) (s : State) (x : Pos) (rest : List Pos), (eyeState l (verifyEyeOf h) s).dark = false →
     (geometry l s).eyeFilter = true → delivers (laneMode l s) = true → (s.belt.get l).samples.length = 4 →
     (head l h s).verify = x :: rest →
     ((signedDist ((s.belt.get l).samples.getD 0 ⟨0, 0, 0⟩).pos x).natAbs ≤ 64 →
       ∃ t, exec (.verifyEdge l h 4) s = .next t ∧ (head l h t).verify = rest ∧
         ((head l h s).kept < 15 → (head l h t).kept = (head l h s).kept + 1 ∧ (head l h t).trim = (head l h s).trim ∧
           (head l h t).sum = (head l h s).sum + signedDist ((s.belt.get l).samples.getD 0 ⟨0, 0, 0⟩).pos x) ∧
         ((head l h s).kept = 15 → (head l h t).kept = 0 ∧ (head l h t).sum = 0 ∧
           (head l h t).trim = max (-48) (min 48 ((head l h s).trim -
             ((head l h s).sum + signedDist ((s.belt.get l).samples.getD 0 ⟨0, 0, 0⟩).pos x).tdiv 32)))) ∧
     (64 < (signedDist ((s.belt.get l).samples.getD 0 ⟨0, 0, 0⟩).pos x).natAbs →
       ∃ t, exec (.verifyEdge l h 4) s = .next t ∧ head l h t = head l h s ∧
         t.tally.get l = (s.tally.get l).set 104 (satAdd32 ((s.tally.get l).getD 104 0) 1))) ∧
  (∀ (l : LaneId) (h : Side) (s : State) (x : Pos) (rest : List Pos), laneMode l s ≠ .stopped →
     (head l h s).verify = x :: rest → (s.belt.get l).counter = x + 65 →
     ∃ t, exec (.verifyEntryExpiry l h) s = .next t ∧ head l h t = { head l h s with verify := rest } ∧
       t.tally.get l = (s.tally.get l).set 104 (satAdd32 ((s.tally.get l).getD 104 0) 1))

/-- R102, R104, R105: an expiry of the spit timer sets pending or raises its age; an age of 4 or more raises a gap
request, and the age of 8 makes a READY head DRY. R92: a temperature reading, once a second. Fast mode stands under
forceFast; with autoFast alone it turns on above 40 °C, off below 38 °C and stands between; with both off it is off.
-/
def Obligations.SpitTimerAndTemperature : Prop :=
  (∀ (l : LaneId) (h : Side) (s : State), (head l h s).wet ≠ .cold →
     20 * (head l h s).spitPeriod ≤ (head l h s).spitTicks → ∃ t, exec (.spitTimerExpiry l h) s = .next t ∧
       (head l h t).pendingSpit = true ∧ (head l h t).spitTicks = 0 ∧
       (head l h t).age =
         (if (head l h s).pendingSpit = true then min ((head l h s).age + 1) 255 else (head l h s).age) ∧
       (4 ≤ (head l h t).age → (head l h t).gapRequest.isSome = true) ∧
       ((head l h t).age = 8 → (head l h t).wet = .dry) ∧
       ((head l h t).age ≠ 8 → (head l h t).wet = (head l h s).wet) ∧
       (4 ≤ (head l h t).age → (head l h s).gapRequest = none → holdSet l .gapSpit t = true) ∧
       (head l h t).spitPeriod = (spitSetting l h s).interval * (if (head l h s).fast then 500 else 1000)) ∧
  (∀ (l : LaneId) (h : Side) (temp : Nat) (s : State), temp ≤ 100 → 20000 ≤ (head l h s).tempTicks →
     ∃ t, exec (.headTempReading l h temp) s = .next t ∧ (head l h t).lastTemp = temp ∧
       (head l h t).fast = (if (spitSetting l h s).forceFast then true
         else if (spitSetting l h s).autoFast then
           (if 40 < temp then true else if temp < 38 then false else (head l h s).fast)
         else false) ∧
       (head l h t).wet = (head l h s).wet ∧ (head l h t).prints = (head l h s).prints ∧
       (head l h t).spitTicks = (head l h s).spitTicks)

/-- R103, R104: a gap request is withdrawn after 250 ms; a spit starts in the gap. R102, R103, R105: 3 ms after it
began a spit completes: pending, age and gap request are cleared and the timer restarts; a DRY head, or a COLD one in
its warming spit, becomes READY; that a COLD head without a warming request stays COLD is the model's reading (log
entry 45). -/
def Obligations.SpitsRun : Prop :=
  (∀ (l : LaneId) (h : Side) (s : State),
     (∀ n, (head l h s).gapRequest = some n → 5000 ≤ n → ∃ t, exec (.spitGapTimeout l h) s = .next t ∧
       head l h t = { head l h s with gapRequest := none } ∧
       ∀ k, k ≠ h → holdSet l .gapSpit t = (head l k s).gapRequest.isSome) ∧
     ((head l h s).spitRun = none → spitRequest (head l h s) = true → laneMode l s ≠ .stopped → laneMode l s ≠ .off →
       (∀ p ∈ (head l h s).prints, p.state ≠ .printing) →
       (∀ p ∈ (head l h s).prints, ∀ d, nextStart l h p s = some d → (s.belt.get l).speed ≤ 16 * d) →
       ∃ t, exec (.spitStart l h) s = .next t ∧ head l h t = { head l h s with spitRun := some 0 })) ∧
  (∀ (l : LaneId) (h : Side) (s : State) (n : Nat), (head l h s).spitRun = some n → 60 ≤ n →
     ∃ t, exec (.spitComplete l h) s = .next t ∧ (head l h t).spitRun = none ∧ (head l h t).pendingSpit = false ∧
       (head l h t).age = 0 ∧ (head l h t).gapRequest = none ∧ (head l h t).spitTicks = 0 ∧
       (head l h t).wet = (if (head l h s).wet = .dry ∨ ((head l h s).wet = .cold ∧ (head l h s).warmRequest = true)
         then .ready else (head l h s).wet) ∧
       (head l h t).prints = (head l h s).prints ∧ (head l h t).trim = (head l h s).trim)

/-! ### Pockets and lane operation -/

/-- R114, R115: an accepted press of a swap button drains an OPEN, FULL or DISABLED pocket (READY_TO_SWAP at once with
nothing reserved; a DISABLED one stays disabled) and leaves one in any other state; a release changes no pocket. The level
of the first reading after a device reset is accepted without a request; that this reading lies within the first
millisecond is the model's choice (log entry 54). R114, R116, R117: a tray-out accepted after 20 readings makes the pocket
OUT with its lamp off (an end pocket's lamp is the model's reading, log entry 56), a tray-in makes an OUT pocket OPEN (or
DISABLED, when it stays disabled) and empty; POCKET is reported. R116, R79: a reserved item whose window serves it alone
and is not ACTIVE loses window and reservation, with a second TRAY_OUT event; where the window stands the reservation
does. -/
def Obligations.TraysAndSwapButtons : Prop :=
  (∀ (l : LaneId) (p : Pocket) (held : Nat) (s : State), p.gated = true → s.clock.started = false → 1 ≤ held →
     ∀ pressed, (pocketRec l p s).button ≠ pressed → ∃ t, exec (.swapRequest l p pressed held) s = .next t ∧
       pocketRec l p t = { pocketRec l p s with button := pressed }) ∧
  (∀ (l : LaneId) (p : Pocket) (held : Nat) (s : State), p.gated = true → 20 ≤ held → s.clock.started = true →
     ((pocketRec l p s).button = false → ∃ t, exec (.swapRequest l p true held) s = .next t ∧
       pocketRec l p t = { pocketRec l p s with
         button := true,
         state := (match (pocketRec l p s).state with
           | .opened | .full | .disabled =>
             if (pocketRec l p s).reservations = [] then .readyToSwap else .draining
           | x => x),
         staysDisabled := (pocketRec l p s).staysDisabled || (pocketRec l p s).state == .disabled } ∧
       ((pocketRec l p t).state ≠ (pocketRec l p s).state → reported .pocket t)) ∧
     ((pocketRec l p s).button = true → ∃ t, exec (.swapRequest l p false held) s = .next t ∧
       pocketRec l p t = { pocketRec l p s with button := false })) ∧
  (∀ (l : LaneId) (p : Pocket) (held : Nat) (s : State), 20 ≤ held →
     ((pocketRec l p s).tray = true → (pocketRec l p s).reservations = [] → (pocketRec l p s).state ≠ .out →
       ∃ t, exec (.trayOut l p held) s = .next t ∧ pocketRec l p t = { pocketRec l p s with
           tray := false, state := .out,
           staysDisabled := (pocketRec l p s).staysDisabled || (pocketRec l p s).state == .disabled } ∧
         t.jrn = (emit .trayOut (some l) (pocketCode p).val 0 (pocketStateCode (pocketRec l p s).state) 0 s).jrn ∧
         pocketLamp l p t = false ∧ reported .pocket t) ∧
     (∀ (g : Gate) (e : Entry) (w : Window), (pocketRec l p s).tray = true → pocketGate p = some g →
       (pocketRec l p s).state ≠ .out → (pocketRec l p s).state ≠ .readyToSwap →
       (pocketRec l p s).reservations = [e.serial] → findEntry l e.serial s = some e → holdsWindow e g = true →
       (channel l g s).windows.find? (fun v => v.items.contains e.serial) = some w →
       (w.items.length = 1 → w.state = .queued ∨ (w.state = .armed ∧ (channel l g s).windows = [w]) →
         ∃ t f, exec (.trayOut l p held) s = .next t ∧ pocketRec l p t = { pocketRec l p s with
             tray := false, state := .out, reservations := [],
             staysDisabled := (pocketRec l p s).staysDisabled || (pocketRec l p s).state == .disabled } ∧
           findEntry l e.serial t = some f ∧ holdsWindow f g = false ∧
           (channel l g t).windows = (channel l g s).windows.filter (fun v => !v.items.contains e.serial) ∧
           t.jrn = (emit .trayOut (some l) (pocketCode p).val e.serial 6 0
             (emit .trayOut (some l) (pocketCode p).val 0 (pocketStateCode (pocketRec l p s).state) 0 s)).jrn) ∧
       (w.state = .active ∨ w.items.length ≠ 1 →
         ∃ t, exec (.trayOut l p held) s = .next t ∧ pocketRec l p t = { pocketRec l p s with
             tray := false, state := .out,
             staysDisabled := (pocketRec l p s).staysDisabled || (pocketRec l p s).state == .disabled } ∧
           t.track = s.track ∧ channel l g t = channel l g s ∧
           t.jrn = (emit .trayOut (some l) (pocketCode p).val 0 (pocketStateCode (pocketRec l p s).state) 0 s).jrn)) ∧
     ((pocketRec l p s).tray = false → (pocketRec l p s).state = .out →
       ∃ t, exec (.trayIn l p held) s = .next t ∧ pocketRec l p t = { pocketRec l p s with
           tray := true, fill := 0, warn := false, staysDisabled := false,
           state := if p.gated = true ∧ (pocketRec l p s).staysDisabled = true then .disabled else .opened } ∧
         t.jrn = (emit .trayIn (some l) (pocketCode p).val 0 0 0 s).jrn ∧ reported .pocket t))

/-- R111, R115, R118, R119, 6.5: the four POCKET_CONTROL actions on a gated pocket, with their results, and NOTHING
where no change is made. -/
def Obligations.PocketControlOrders : Prop :=
  ∀ (l : LaneId) (i cap : Nat) (p : Pocket) (b : OrderBlock) (s : State), pocketOfIndex i = some p → p.gated = true →
    allowed .orderStateWrite (b.addr + 12) 8 s = true →
    (Taken b (.pocketControl (laneCode l) i .disable cap) s → ∃ t d, exec .pocketControlDisable s = .next t ∧
      Ended b .done .ok d s.mem s t ∧ (match (pocketRec l p s).state with
        | .opened | .full => pocketRec l p t = { pocketRec l p s with state := .disabled }
        | .disabled => pocketRec l p t = pocketRec l p s ∧ d = some nothingDetail
        | _ => pocketRec l p t = { pocketRec l p s with staysDisabled := true })) ∧
    (Taken b (.pocketControl (laneCode l) i .enable cap) s → ∃ t d, exec .pocketControlEnable s = .next t ∧
      Ended b .done .ok d s.mem s t ∧ (match (pocketRec l p s).state with
        | .opened | .full => pocketRec l p t = pocketRec l p s ∧ d = some nothingDetail
        | .disabled => pocketRec l p t = { pocketRec l p s with
            state := if (pocketRec l p s).capacity ≤
                (pocketRec l p s).fill + (pocketRec l p s).reservations.length then .full else .opened }
        | _ => pocketRec l p t = { pocketRec l p s with staysDisabled := false } ∧
            ((pocketRec l p s).staysDisabled = false → d = some nothingDetail))) ∧
    (Taken b (.pocketControl (laneCode l) i .swap cap) s → ∃ t d, exec .pocketControlSwap s = .next t ∧
      Ended b .done .ok d s.mem s t ∧ (match (pocketRec l p s).state with
        | .opened | .full | .disabled => (pocketRec l p t).state =
            if (pocketRec l p s).reservations = [] then .readyToSwap else .draining
        | _ => pocketRec l p t = pocketRec l p s ∧ d = some nothingDetail)) ∧
    (Taken b (.pocketControl (laneCode l) i .setCapacity cap) s →
      (50 ≤ cap → cap ≤ 5000 → (pocketRec l p s).fill + (pocketRec l p s).reservations.length ≤ cap →
        ∃ t d, exec .pocketControlSetCapacity s = .next t ∧ Ended b .done .ok d s.mem s t ∧
          (pocketRec l p t).capacity = cap ∧ (pocketRec l p t).fill = (pocketRec l p s).fill ∧
          (pocketRec l p t).warn = decide ((cap * (geometry l s).warnPercent + 99) / 100 ≤ (pocketRec l p s).fill) ∧
          ((pocketRec l p s).state = .full →
            (pocketRec l p s).fill + (pocketRec l p s).reservations.length < cap →
            (pocketRec l p t).state = .opened) ∧
          ((pocketRec l p s).state = .opened →
            (pocketRec l p s).fill + (pocketRec l p s).reservations.length = cap →
            (pocketRec l p t).state = .full)) ∧
      (cap < 50 ∨ 5000 < cap ∨ cap < (pocketRec l p s).fill + (pocketRec l p s).reservations.length →
        ∃ t d, exec .pocketControlSetCapacity s = .next t ∧ Ended b .refused .badField d s.mem s t ∧
          t.pkr = s.pkr))

/-- R123, R127: 2 s after the lamps came on the warm is over and a long calibration is asked for; 50 ms after it began
a rise makes the lamps ON, with a wake calibration asked for when it was made outside WARMING. That the state in which a
rise began decides this is the model's choice (log entry 90). R125, R126: at idleTime without a letter
or a request the lamps of a RUNNING lane go DIM and WAKE enters the set; a rise of FEED_REQ accepted after 5 readings
begins the rise of the lamps. -/
def Obligations.LampsIdleAndFeedRequest : Prop :=
  (∀ (l : LaneId) (s : State),
     (∀ n, (s.lsq.get l).lampWarm = some n → 40000 ≤ n → ∃ t, exec (.lampWarmComplete l) s = .next t ∧
       (t.lsq.get l).lampWarm = none ∧ (t.lsq.get l).warmStep = some .calibration ∧
       t.sfe.get l = { s.sfe.get l with longRequest := some .warming } ∧ laneMode l t = laneMode l s) ∧
     (∀ r : Rise, (s.lsq.get l).rise = some r → 1000 ≤ r.ticks → ∃ t, exec (.lampRiseComplete l) s = .next t ∧
       (t.lsq.get l).lamp = .on ∧ (t.lsq.get l).rise = none ∧ laneMode l t = laneMode l s ∧
       (r.outside = true → (t.sfe.get l).due = true ∧ (t.sfe.get l).wakeMark = true ∧
         (t.sfe.get l).dueAge = (s.sfe.get l).dueAge) ∧
       (r.outside = false → (t.sfe.get l).due = (s.sfe.get l).due))) ∧
  (∀ (l : LaneId) (s : State), laneMode l s = .running →
     ((s.lsq.get l).lamp = .on → (s.track.get l).queue = [] → (s.lsq.get l).feedReq = false →
       (geometry l s).idleTime ≠ 0 → 20000 * (geometry l s).idleTime ≤ (s.lsq.get l).idle →
       ∃ t, exec (.idleTimerExpiry l) s = .next t ∧ (t.lsq.get l).lamp = .dim ∧ holdSet l .wake t = true ∧
         laneMode l t = .running ∧ (t.lsq.get l).idle = 0 ∧ feedPermit l t = false) ∧
     (∀ held, (s.lsq.get l).feedReq = false → 5 ≤ held → ∃ t, exec (.feedReqChange l true held) s = .next t ∧
       (t.lsq.get l).feedReq = true ∧ (t.lsq.get l).lamp = (s.lsq.get l).lamp ∧
       ((s.lsq.get l).lamp = .dim → (s.lsq.get l).rise = none → (t.lsq.get l).rise = some ⟨0, true⟩) ∧
       ((s.lsq.get l).lamp = .on → (t.lsq.get l).rise = (s.lsq.get l).rise)) ∧
     (∀ held, (s.lsq.get l).feedReq = true → 5 ≤ held → ∃ t, exec (.feedReqChange l false held) s = .next t ∧
       (t.lsq.get l).feedReq = false ∧ (t.lsq.get l).rise = (s.lsq.get l).rise))

/-- R129, R130: LANE_CONTROL RUN. Without a class table it is refused NOT_CONFIGURED, on a retired lane RETIRED; from
OFF the lane enters WARMING and the order waits TAKEN; from READY or STANDBY it enters RUNNING, or WARMING where
warmed is clear; RUNNING it is NOTHING; in any other state BUSY. -/
def Obligations.LaneControlRun : Prop :=
  ∀ (l : LaneId) (b : OrderBlock) (s : State), Taken b (.laneControl (laneCode l) .run) s →
    allowed .orderStateWrite (b.addr + 12) 8 s = true →
    (s.msc.current = none → ∃ t d, exec .laneControlRun s = .next t ∧ Ended b .refused .notConfigured d s.mem s t ∧
      laneMode l t = laneMode l s) ∧
    (s.msc.current.isSome = true → (s.lsq.get l).retired = true → ∃ t d, exec .laneControlRun s = .next t ∧
      Ended b .refused .retired d s.mem s t ∧ laneMode l t = laneMode l s) ∧
    (s.msc.current.isSome = true → (s.lsq.get l).retired = false → (match laneMode l s with
      | .off => ∃ t, exec .laneControlRun s = .next t ∧ WarmingBegun l b s t
      | .ready | .standby =>
          ((s.lsq.get l).warmed = true → ∃ t d, exec .laneControlRun s = .next t ∧
            Ended b .done .ok d s.mem s t ∧ laneMode l t = .running ∧ reported .laneState t ∧
            ((s.lsq.get l).lamp ≠ .on → holdSet l .wake t = true)) ∧
          ((s.lsq.get l).warmed = false → ∃ t, exec .laneControlRun s = .next t ∧ WarmingBegun l b s t)
      | .running => ∃ t, exec .laneControlRun s = .next t ∧ Ended b .done .ok (some nothingDetail) s.mem s t ∧
          changesOnly orderParts s t
      | _ => ∃ t d, exec .laneControlRun s = .next t ∧ Ended b .refused .busy d s.mem s t ∧
          laneMode l t = laneMode l s))

/-- R129, R131: LANE_CONTROL DRAIN. RUNNING with letters on the belt the lane enters DRAINING and the order waits
TAKEN; with an empty queue it goes on to READY and the order is DONE; with nothing to drain it is NOTHING; DRAINING
without a pending order it waits TAKEN, and with one it is BUSY, as in any other state. -/
def Obligations.LaneControlDrain : Prop :=
  ∀ (l : LaneId) (b : OrderBlock) (s : State), Taken b (.laneControl (laneCode l) .drain) s →
    allowed .orderStateWrite (b.addr + 12) 8 s = true →
    (match laneMode l s with
      | .running => (s.lsq.get l).pendingOrder = none →
          ((s.track.get l).queue ≠ [] → ∃ t, exec .laneControlDrain s = .next t ∧ laneMode l t = .draining ∧
            (t.lsq.get l).pendingOrder = some .drain ∧ t.ocu.current = none ∧ t.ocu.phase = .link ∧
            t.ocu.longList = s.ocu.longList ++ [⟨.laneOrder l, b.addr, b.kind, b.notify⟩] ∧
            (∃ c x n, t.mem = memWriteN s.mem (b.addr + 12) (orderStateBytes .taken c x n)) ∧
            holdSet l .wake t = false ∧ reported .laneState t) ∧
          ((s.track.get l).queue = [] → ∃ t d, exec .laneControlDrain s = .next t ∧ laneMode l t = .ready ∧
            Ended b .done .ok d s.mem s t ∧ holdSet l .wake t = false ∧ reported .laneState t)
      | .off | .ready | .standby => ∃ t, exec .laneControlDrain s = .next t ∧
          Ended b .done .ok (some nothingDetail) s.mem s t ∧ laneMode l t = laneMode l s
      | .draining =>
          ((s.lsq.get l).pendingOrder = none → ∃ t, exec .laneControlDrain s = .next t ∧
            (t.lsq.get l).pendingOrder = some .drain ∧ laneMode l t = .draining ∧ t.ocu.current = none ∧
            t.ocu.longList = s.ocu.longList ++ [⟨.laneOrder l, b.addr, b.kind, b.notify⟩] ∧
            (∃ c x n, t.mem = memWriteN s.mem (b.addr + 12) (orderStateBytes .taken c x n))) ∧
          ((s.lsq.get l).pendingOrder.isSome = true → ∃ t d, exec .laneControlDrain s = .next t ∧
            Ended b .refused .busy d s.mem s t ∧ laneMode l t = .draining ∧
            (t.lsq.get l).pendingOrder = (s.lsq.get l).pendingOrder)
      | _ => ∃ t d, exec .laneControlDrain s = .next t ∧ Ended b .refused .busy d s.mem s t ∧
          laneMode l t = laneMode l s)

/-- R129, R132: LANE_CONTROL STANDBY and OFF, with an empty track queue: the lane's state, its lamps, and at OFF both
heads COLD and warmed clear; BUSY with an entry in the queue or from a state that does not allow them. R133,
R134: HOLD and RELEASE put HOST into the hold-reason set and take it out, NOTHING where it is so already; a lane permits
feed only RUNNING with an empty set. -/
def Obligations.LaneControlRestAndHolds : Prop :=
  (∀ (l : LaneId) (b : OrderBlock) (s : State), allowed .orderStateWrite (b.addr + 12) 8 s = true →
     (Taken b (.laneControl (laneCode l) .standby) s →
       (laneMode l s = .ready → (s.track.get l).queue = [] → ∃ t d, exec .laneControlStandby s = .next t ∧
         Ended b .done .ok d s.mem s t ∧ laneMode l t = .standby ∧ (t.lsq.get l).lamp = .dim ∧
         (t.lsq.get l).rise = none ∧ (∀ h, head l h t = head l h s) ∧ reported .laneState t) ∧
       (laneMode l s = .standby → ∃ t, exec .laneControlStandby s = .next t ∧
         Ended b .done .ok (some nothingDetail) s.mem s t ∧ changesOnly orderParts s t) ∧
       ((laneMode l s = .ready ∧ (s.track.get l).queue ≠ []) ∨ (laneMode l s ≠ .ready ∧ laneMode l s ≠ .standby) →
         ∃ t d, exec .laneControlStandby s = .next t ∧ Ended b .refused .busy d s.mem s t ∧
           laneMode l t = laneMode l s)) ∧
     (Taken b (.laneControl (laneCode l) .off) s →
       (laneMode l s = .ready ∨ laneMode l s = .standby → (s.track.get l).queue = [] →
         ∃ t d, exec .laneControlOff s = .next t ∧ Ended b .done .ok d s.mem s t ∧ laneMode l t = .off ∧
           (t.lsq.get l).lamp = .dark ∧ (t.lsq.get l).rise = none ∧ (t.lsq.get l).warmed = false ∧
           (∀ h, (head l h t).wet = .cold ∧ (head l h t).gapRequest = none) ∧ reported .laneState t) ∧
       (laneMode l s = .off → ∃ t, exec .laneControlOff s = .next t ∧
         Ended b .done .ok (some nothingDetail) s.mem s t ∧ laneMode l t = .off) ∧
       ((laneMode l s ≠ .off ∧ laneMode l s ≠ .ready ∧ laneMode l s ≠ .standby) ∨
         (laneMode l s ≠ .off ∧ (s.track.get l).queue ≠ []) →
         ∃ t d, exec .laneControlOff s = .next t ∧ Ended b .refused .busy d s.mem s t ∧
           laneMode l t = laneMode l s))) ∧
  (∀ (l : LaneId) (b : OrderBlock) (s : State), allowed .orderStateWrite (b.addr + 12) 8 s = true →
     (Taken b (.laneControl (laneCode l) .hold) s → ∃ t d, exec .laneControlHold s = .next t ∧
       Ended b .done .ok d s.mem s t ∧ holdSet l .host t = true ∧ laneMode l t = laneMode l s ∧
       feedPermit l t = false ∧ (∀ r, r ≠ .host → holdSet l r t = holdSet l r s) ∧
       (holdSet l .host s = true → d = some nothingDetail) ∧ (holdSet l .host s = false → reported .holdChange t)) ∧
     (Taken b (.laneControl (laneCode l) .release) s → ∃ t d, exec .laneControlRelease s = .next t ∧
       Ended b .done .ok d s.mem s t ∧ holdSet l .host t = false ∧ laneMode l t = laneMode l s ∧
       (feedPermit l t = true ↔ laneMode l s = .running ∧ ∀ r, r ≠ .host → holdSet l r s = false) ∧
       (∀ r, r ≠ .host → holdSet l r t = holdSet l r s) ∧
       (holdSet l .host s = false → d = some nothingDetail) ∧ (holdSet l .host s = true → reported .holdChange t)))

/-- R24, R81, R106, R110, R120, R136, R137: CLEAR of a STOPPED lane takes it to READY and ABORT takes any lane to OFF, both
with the queue purged, the gate lists, prints, verify lists and the reservations of the purged letters emptied and the
jam counts 0; CLEAR in another state is BUSY. ABORT also darkens the lamps, cools the heads, clears the trims, ends the
lane's test with ABORTED_BY_HOST, its order REFUSED with ABORTED (R172), and a pending RUN or DRAIN REFUSED with ABORTED.
LANE_STATE at the ABORT of a lane that is OFF already is the model's reading (log entry 21), and that the ended order becomes
final before the ABORT its choice (log entry 67). -/
def Obligations.LaneControlClearAndAbort : Prop :=
  ∀ (l : LaneId) (b : OrderBlock) (s : State), allowed .orderStateWrite (b.addr + 12) 8 s = true →
    trackOk (s.track.get l) = true →
    (Taken b (.laneControl (laneCode l) .clear) s → laneMode l s = .stopped → ∃ t d,
      exec .laneControlClear s = .next t ∧ Ended b .done .ok d s.mem s t ∧ laneMode l t = .ready ∧ Purged l s t ∧
      (∀ h, (head l h t).trim = (head l h s).trim ∧ (head l h t).wet = (head l h s).wet) ∧ reported .laneState t) ∧
    (Taken b (.laneControl (laneCode l) .clear) s → laneMode l s ≠ .stopped → ∃ t d,
      exec .laneControlClear s = .next t ∧ Ended b .refused .busy d s.mem s t ∧ t.track = s.track ∧
      laneMode l t = laneMode l s) ∧
    (Taken b (.laneControl (laneCode l) .abort) s → ∃ t d, exec .laneControlAbort s = .next t ∧ Purged l s t ∧
      laneMode l t = .off ∧ (t.lsq.get l).lamp = .dark ∧ (t.lsq.get l).warmed = false ∧
      (t.lsq.get l).lampWarm = none ∧ (t.lsq.get l).rise = none ∧ (t.lsq.get l).pendingOrder = none ∧
      t.hmu.tests.get l = none ∧ (∀ h, (head l h t).trim = 0 ∧ (head l h t).wet = .cold) ∧
      (t.sfe.get l).longRun = none ∧ (t.sfe.get l).shortRun = none ∧ (t.sfe.get l).due = false ∧
      (t.sfe.get l).refMode = false ∧ (t.sfe.get l).refRequest = none ∧ (t.sfe.get l).pairs = (s.sfe.get l).pairs ∧
      holdSet l .gapCal t = false ∧ holdSet l .wake t = false ∧ reported .laneState t ∧ t.ocu.current = none ∧
      ((s.lsq.get l).pendingOrder = none → s.hmu.tests.get l = none → Ended b .done .ok d s.mem s t) ∧
      (∀ q, s.hmu.tests.get l = some q → holdSet l .test t = false ∧ reported .testDone t ∧
        Logged (laneTestKind q.kind) (some l) .abortedByHost s.clock.ms t) ∧
      (∀ o, s.ocu.longList = [o] → allowed .orderStateWrite (o.addr + 12) 8 s = true →
        (o.key = .laneTest l ∧ (s.hmu.tests.get l).isSome = true ∧ (s.lsq.get l).pendingOrder = none) ∨
          (o.key = .laneOrder l ∧ (s.lsq.get l).pendingOrder.isSome = true ∧ s.hmu.tests.get l = none) →
        EndedWithLong o .refused .aborted none b s t))

/-! ### Clock, journal, status, chain and shared orders -/

/-- R86: one second of the date clock: the time of day rises by one, at midnight the date goes on, and where the
period start does not change no roll is made; at a period boundary a roll gives the next generation number. R88, R89:
a composition that has taken its time makes its generation current, the one before it previous, and drops the one
before that: GEN_ROLL and, of a dropped one, GEN_DROPPED are recorded. -/
def Obligations.ClockAndGenerations : Prop :=
  (∀ s : State, s.pmc.clockSet = true → 20000 ≤ s.pmc.clockTicks → ∃ t, exec .clockSecond s = .next t ∧
     t.pmc.seconds = (if s.pmc.seconds + 1 < 86400 then s.pmc.seconds + 1 else 0) ∧
     (s.pmc.seconds + 1 < 86400 → t.pmc.year = s.pmc.year ∧ t.pmc.month = s.pmc.month ∧ t.pmc.day = s.pmc.day) ∧
     (86400 ≤ s.pmc.seconds + 1 → s.pmc.day < monthLength s.pmc.year s.pmc.month →
       t.pmc.year = s.pmc.year ∧ t.pmc.month = s.pmc.month ∧ t.pmc.day = s.pmc.day + 1) ∧
     (86400 ≤ s.pmc.seconds + 1 → s.pmc.day = monthLength s.pmc.year s.pmc.month → s.pmc.month = 12 →
       s.pmc.year < 2099 → t.pmc.year = s.pmc.year + 1 ∧ t.pmc.month = 1 ∧ t.pmc.day = 1) ∧
     (86400 ≤ s.pmc.seconds + 1 → s.pmc.day = monthLength s.pmc.year s.pmc.month → s.pmc.month < 12 →
       t.pmc.year = s.pmc.year ∧ t.pmc.month = s.pmc.month + 1 ∧ t.pmc.day = 1) ∧
     (86400 ≤ s.pmc.seconds + 1 → s.pmc.year = 2099 → s.pmc.month = 12 → s.pmc.day = 31 →
       t.pmc.year = 2000 ∧ t.pmc.month = 1 ∧ t.pmc.day = 1) ∧
     (t.pmc.seconds / (60 * s.pmc.period) = s.pmc.seconds / (60 * s.pmc.period) →
       t.pmc.lastGen = s.pmc.lastGen ∧ t.pmc.current = s.pmc.current ∧ t.cnu = s.cnu) ∧
     (0 < s.pmc.period → t.pmc.seconds / (60 * s.pmc.period) ≠ s.pmc.seconds / (60 * s.pmc.period) →
       t.pmc.lastGen = (if s.pmc.lastGen = 65535 then 1 else s.pmc.lastGen + 1) ∧
       ((∀ x ∈ s.pmc.styles, x.kind ≠ .full) →
         ∃ g, t.pmc.current = some g ∧ g.number = t.pmc.lastGen ∧ g.unset = false ∧ t.pmc.previous = s.pmc.current) ∧
       ((∃ x ∈ s.pmc.styles, x.kind = .full) → t.pmc.current = s.pmc.current ∧
         ∃ c, t.pmc.composing = some c ∧ c.generation.number = t.pmc.lastGen ∧ c.ticks = 0))) ∧
  (∀ (s : State) (c : Composition), s.pmc.composing = some c → c.need ≤ c.ticks → c.generation.unset = false →
     ∃ t, exec .compositionComplete s = .next t ∧ t.pmc.current = some c.generation ∧
       t.pmc.previous = s.pmc.current ∧ t.pmc.composing = none ∧ t.pmc.lastGen = s.pmc.lastGen ∧
       (s.pmc.previous = none → t.cnu = s.cnu ∧ t.jrn = (emit .genRoll none noSubject 0
         (c.generation.number + 65536 * rollCauseCode c.generation.cause)
         ((c.generation.year - 2000) + 128 * c.generation.month + 2048 * c.generation.day +
           65536 * (c.generation.periodStart / 60)) s).jrn) ∧
       (∀ d, s.pmc.previous = some d → t.jrn = (emit .genDropped none noSubject 0 d.number 0
         (emit .genRoll none noSubject 0 (c.generation.number + 65536 * rollCauseCode c.generation.cause)
           ((c.generation.year - 2000) + 128 * c.generation.month + 2048 * c.generation.day +
             65536 * (c.generation.periodStart / 60)) s)).jrn) ∧
       (∀ d, s.pmc.previous = some d → ∀ l h i st, (head l h s).load = none → printingSlot (head l h s) ≠ some i →
         (slotOf (head l h s) i).key = some (.full st d.number) → (slotOf (head l h t) i).key = none))

/-- R84, R85, R87 to R89, R99: an accepted SET_CLOCK takes the date, time and period and rolls; out of range it is
refused BAD_FIELD with the clock unchanged. R84, R85, R88: a style set that passes its checks replaces the old one
whole and makes a roll; a wrong checksum refuses it and leaves the styles and the generations. -/
def Obligations.ClockAndStyleOrders : Prop :=
  (∀ (b : OrderBlock) (s : State) (y m d sec p : Nat), Taken b (.setClock y m d sec p) s →
     allowed .orderStateWrite (b.addr + 12) 8 s = true →
     (2000 ≤ y → y ≤ 2099 → 1 ≤ m → m ≤ 12 → 1 ≤ d → d ≤ monthLength y m → sec ≤ 86399 → 1 ≤ p → p ≤ 60 →
       ∃ t x, exec .setClock s = .next t ∧ Ended b .done .ok x s.mem s t ∧ t.pmc.year = y ∧ t.pmc.month = m ∧
         t.pmc.day = d ∧ t.pmc.seconds = sec ∧ t.pmc.period = p ∧ t.pmc.clockSet = true ∧ t.pmc.clockTicks = 0 ∧
         t.pmc.lastGen = (if s.pmc.lastGen = 65535 then 1 else s.pmc.lastGen + 1)) ∧
     (y < 2000 ∨ 2099 < y ∨ m < 1 ∨ 12 < m ∨ d < 1 ∨ monthLength y m < d ∨ 86399 < sec ∨ p < 1 ∨ 60 < p →
       ∃ t x, exec .setClock s = .next t ∧ Ended b .refused .badField x s.mem s t ∧ t.pmc = s.pmc)) ∧
  (∀ (b : OrderBlock) (s : State) (a len : Nat), Taken b (.loadStyles a) s →
     allowed .orderStateWrite (b.addr + 12) 8 s = true → allowed .tableRead a 144 s = true →
     field (readBytes a 144 s) 24 4 = len → 144 ≤ len → allowed .tableRead a len s = true →
     (checksumOk (readBytes a len s) = true → firstBad (styleSetFields (readBytes a len s) len) = none →
       spitConflict (readBytes a len s) = none → ∃ t d, exec .loadStyles s = .next t ∧ Ended b .done .ok d s.mem s t ∧
         t.pmc.styles = (List.range 7).map (styleAt (readBytes a len s)) ∧
         t.pmc.office = (readBytes a len s).take 6 ∧
         (∀ l h, spitSetting l h t = spitAt (readBytes a len s) (2 * laneCode l + sideCode h)) ∧
         t.pmc.lastGen = nextGeneration s.pmc.lastGen ∧
         (s.pmc.clockSet = false → ∃ g, t.pmc.current = some g ∧ g.unset = true ∧
           g.number = nextGeneration s.pmc.lastGen)) ∧
     (checksumOk (readBytes a len s) = false → ∃ t d, exec .loadStyles s = .next t ∧
       Ended b .refused .badChecksum d s.mem s t ∧ t.pmc = s.pmc))

/-- R148, R156: a record that fits joins the current page; one that does not closes it with FULL and is the first record
after the held events of the next page, or is handled as one with no page where none can be taken; with no page an event
joins the holding list of 16, of which a seventeenth pushes out the oldest, and an item is counted unjournalled. R149, R150: the oldest closed page is
written out: its records from byte 32, then its header, it is counted filled and leaves the held count, and
PAGE_FILLED is reported; refused by the windows it is faulted, host memory stands, and its records are
counted: items unjournalled for the device and their lane, events dropped. The 0 in the page header's unlisted bytes is the
model's choice (log entry 86). -/
def Obligations.RecordsAndPages : Prop :=
  (∀ (r : Rec) (s : State),
     (∀ p, s.jrn.page = some p → recLength r ≤ p.room → (placeRecord r s).jrn = { s.jrn with
       page := some { p with recs := p.recs ++ [r], room := p.room - recLength r } }) ∧
     (∀ p, s.jrn.page = some p → p.room < recLength r →
       (∀ a rest, s.jrn.fifo = a :: rest → rest.length < 63 → (placeRecord r s).jrn = { s.jrn with
         closing := s.jrn.closing ++ [⟨p, .full⟩], fifo := rest, holding := [],
         nextSeq := if s.jrn.nextSeq = 4294967295 then 1 else s.jrn.nextSeq + 1,
         page := some { addr := a, seq := s.jrn.nextSeq, recs := s.jrn.holding.map Rec.event ++ [r],
                        room := 4064 - 24 * s.jrn.holding.length - recLength r } }) ∧
       (s.jrn.fifo = [] ∨ 64 ≤ s.jrn.fifo.length →
         (∀ e, r = .event e → s.jrn.holding.length < 16 → (placeRecord r s).jrn = { s.jrn with
           closing := s.jrn.closing ++ [⟨p, .full⟩], page := none, holding := s.jrn.holding ++ [e] }) ∧
         (∀ l m e, r = .item l m e → (placeRecord r s).jrn = { s.jrn with
           closing := s.jrn.closing ++ [⟨p, .full⟩], page := none,
           unjournalled := satAdd32 s.jrn.unjournalled 1 }))) ∧
     (s.jrn.page = none → ∀ e, r = .event e →
       (s.jrn.holding.length < 16 → (placeRecord r s).jrn = { s.jrn with holding := s.jrn.holding ++ [e] }) ∧
       (16 ≤ s.jrn.holding.length → (placeRecord r s).jrn = { s.jrn with
         holding := s.jrn.holding.drop 1 ++ [e], dropped := satAdd32 s.jrn.dropped 1 })) ∧
     (s.jrn.page = none → ∀ l m e, r = .item l m e →
       (placeRecord r s).jrn = { s.jrn with unjournalled := satAdd32 s.jrn.unjournalled 1 } ∧
       (placeRecord r s).tally.get l = (s.tally.get l).set 105 (satAdd32 ((s.tally.get l).getD 105 0) 1))) ∧
  (∀ (s : State) (c : ClosedPage) (rest : List ClosedPage), s.jrn.closing = c :: rest → s.ocu.flushing = none →
     (allowed .journalWrite c.page.addr 4096 s = true → ∃ t, exec .pageWriteOut s = .next t ∧
       t.mem = memWriteN (memWriteN s.mem (c.page.addr + 32) (pageBody c.page)) c.page.addr (pageHeader c) ∧
       t.jrn.closing = rest ∧ t.jrn.filled = satAdd32 s.jrn.filled 1 ∧ t.jrn.held = s.jrn.held - 1 ∧
       reported .pageFilled t) ∧
     (allowed .journalWrite c.page.addr 4096 s = false → ∃ t, exec .pageWriteOut s = .next t ∧ t.mem = s.mem ∧
       t.jrn.filled = satAdd32 s.jrn.filled 1 ∧ t.jrn.held = s.jrn.held - 1 ∧ reported .fault t ∧
       (s.jrn.unjournalled ≤ 4294967295 → t.jrn.unjournalled =
         min (s.jrn.unjournalled + c.page.recs.countP (fun r => (itemOf r).isSome)) 4294967295) ∧
       (s.jrn.dropped ≤ 4294967295 →
         (∃ p, s.jrn.page = some p ∧ 24 ≤ p.room) ∨
           (s.jrn.page = none ∧ s.jrn.fifo = [] ∧ s.jrn.holding.length < 16) → t.jrn.dropped =
         min (s.jrn.dropped + c.page.recs.countP (fun r => (itemOf r).isNone)) 4294967295) ∧
       (∀ l, (s.tally.get l).length = 106 → (s.tally.get l).getD 105 0 ≤ 4294967295 → (t.tally.get l).getD 105 0 =
         min ((s.tally.get l).getD 105 0 + c.page.recs.countP (fun r => (itemOf r).map (fun q => q.1) == some l))
           4294967295)))

/-- R146, R147, R151: GIVE_PAGES puts its addresses into the free page FIFO, the first of them becoming the current
page when there is none; FLUSH_JOURNAL closes a page that holds a record and is NOTHING without one. R149 to R151:
it is DONE in the PAGE_WRITE_OUT that writes its page out or faults it, and stands while another page goes out. The 0 in
the page header's unlisted bytes is the model's choice (log entry 86). -/
def Obligations.PageOrders : Prop :=
  ∀ (b : OrderBlock) (s : State), allowed .orderStateWrite (b.addr + 12) 8 s = true →
    (∀ a n, Taken b (.givePages a n) s → 1 ≤ n → n ≤ 64 → allowed .tableRead a (8 * n) s = true →
      (∀ i, i < n → field (readBytes a (8 * n) s) (8 * i) 8 % 4096 = 0 ∧
        allowed .journalWrite (field (readBytes a (8 * n) s) (8 * i) 8) 4096 s = true) →
      (n + s.jrn.fifo.length + s.jrn.closing.length ≤ 64 → ∃ t d, exec .givePages s = .next t ∧
        Ended b .done .ok d s.mem s t ∧ t.jrn.given = satAdd32 s.jrn.given n ∧ t.jrn.held = satAdd32 s.jrn.held n ∧
        (s.jrn.page.isSome = true → t.jrn.fifo = s.jrn.fifo ++
          (List.range n).map (fun i => field (readBytes a (8 * n) s) (8 * i) 8)) ∧
        (s.jrn.page = none → s.jrn.fifo = [] → s.jrn.closing = [] → ∃ p, t.jrn.page = some p ∧
          p.addr = field (readBytes a (8 * n) s) 0 8 ∧ p.seq = s.jrn.nextSeq ∧
          p.recs = s.jrn.holding.map Rec.event ∧ t.jrn.holding = [])) ∧
      (64 < n + s.jrn.fifo.length + s.jrn.closing.length → ∃ t, exec .givePages s = .next t ∧
        Ended b .refused .capacity (some (64 - s.jrn.fifo.length - s.jrn.closing.length)) s.mem s t ∧
        t.jrn = s.jrn)) ∧
    (Taken b .flushJournal s →
      ((s.jrn.page = none ∨ ∃ p, s.jrn.page = some p ∧ p.recs = []) → ∃ t, exec .flushJournal s = .next t ∧
        Ended b .done .ok (some nothingDetail) s.mem s t ∧ t.jrn = s.jrn) ∧
      (∀ p, s.jrn.page = some p → p.recs ≠ [] → ∃ t, exec .flushJournal s = .next t ∧
        t.jrn.closing = s.jrn.closing ++ [⟨p, .flush⟩] ∧ t.ocu.flushing = some p.seq ∧ t.ocu.current = some b ∧
        t.mem = s.mem)) ∧
    (∀ (c : ClosedPage) (rest : List ClosedPage) (n : Nat), s.jrn.closing = c :: rest → s.ocu.current = some b →
      s.ocu.flushing = some n →
      (n = c.page.seq → ∃ t d, exec .pageWriteOut s = .next t ∧ t.ocu.flushing = none ∧
        (allowed .journalWrite c.page.addr 4096 s = true → Ended b .done .ok d
          (memWriteN (memWriteN s.mem (c.page.addr + 32) (pageBody c.page)) c.page.addr (pageHeader c)) s t) ∧
        (allowed .journalWrite c.page.addr 4096 s = false → Ended b .done .ok d s.mem s t)) ∧
      (n ≠ c.page.seq → ∃ t, exec .pageWriteOut s = .next t ∧ t.ocu = s.ocu))

/-- R186, R187: a due status write, paced by 1 ms, writes the whole block with the next update count at both ends, and
the reasons that waited are set; refused by the windows it suspends status writing and sets them too. The 0 in the bytes
that the layout does not list is the model's choice (log entry 86). -/
def Obligations.StatusWriteEffect : Prop :=
  ∀ (s : State) (a : Nat), s.stat.addr = some a → s.stat.due = true → s.stat.suspended = false →
    (∀ n, s.stat.sinceWrite = some n → 20 ≤ n) → s.raised = 0 →
    (allowed .statusWrite a 160 s = true → s.stat.again = false → ∃ t, exec .statusWrite s = .next t ∧
      t.mem = memWriteN s.mem a (le 4 (s.stat.updateCount + 1).toNat ++ le 4 s.clock.ms.toNat ++ statusContents s ++
        le 4 (s.stat.updateCount + 1).toNat) ∧
      t.stat.updateCount = s.stat.updateCount + 1 ∧ t.stat.due = false ∧ t.stat.sinceWrite = some 0 ∧
      t.stat.waiting = 0 ∧ t.pif.attn = s.pif.attn ||| s.stat.waiting) ∧
    (allowed .statusWrite a 160 s = false → ∃ t, exec .statusWrite s = .next t ∧ t.mem = s.mem ∧
      t.stat.suspended = true ∧ t.stat.due = false ∧ t.stat.updateCount = s.stat.updateCount ∧ reported .fault t ∧
      (s.pif.attn ||| s.stat.waiting) &&& ~~~(t.pif.attn) = 0)

/-- R176, R193: a write to a half of the chain position takes effect while the chain is stopped, with the phase TAKE,
and is ignored otherwise; a read of the low half latches the high half, which the next read of the high half returns.
That an ignored whole write discards a pending latch too is the model's choice (log entry 68).
R193: a read of fewer than four bytes returns the bytes asked for, the first of them lowest, of any register; a read of an
offset that is no register returns 0 (R175). R175, R177, R178, R193:
IRQ_ENABLE is set and cleared; a write of ATTN clears the flags written 1 and no other; a write that names no writable
register, or part of a word, changes no register. -/
def Obligations.RegisterReadsAndWrites : Prop :=
  (∀ (v : BitVec 32) (s : State),
     (∃ t, exec (.chainLoWrite v) s = .next t ∧ t.pif.latch = none ∧
       (s.pif.runChain = false → s.ocu.current = none →
         t.ocu = { s.ocu with position := s.ocu.position.extractLsb' 32 32 ++ v, phase := .take }) ∧
       (s.pif.runChain = true ∨ s.ocu.current.isSome = true → t.ocu = s.ocu)) ∧
     (∃ t, exec (.chainHiWrite v) s = .next t ∧ t.pif.latch = none ∧
       (s.pif.runChain = false → s.ocu.current = none →
         t.ocu = { s.ocu with position := v ++ s.ocu.position.extractLsb' 0 32, phase := .take }) ∧
       (s.pif.runChain = true ∨ s.ocu.current.isSome = true → t.ocu = s.ocu)) ∧
     (∃ t, exec (.chainLoRead ⟨0, 4⟩) s = .next t ∧ t.pif.readData = s.ocu.position.extractLsb' 0 32 ∧
       t.pif.latch = some (s.ocu.position.extractLsb' 32 32) ∧ t.ocu = s.ocu) ∧
     (∃ t, exec (.chainHiRead ⟨0, 4⟩) s = .next t ∧
       t.pif.readData = s.pif.latch.getD (s.ocu.position.extractLsb' 32 32) ∧ t.pif.latch = none ∧ t.ocu = s.ocu)) ∧
  (∀ (b : ByteSel) (s : State), b.ok = true → ∃ t u, exec (.chainLoRead b) s = .next t ∧
     exec (.chainHiRead b) s = .next u ∧
     (∀ i, i < 8 * b.count → t.pif.readData.getLsbD i = (s.ocu.position.extractLsb' 0 32).getLsbD (8 * b.first + i) ∧
       u.pif.readData.getLsbD i =
         (s.pif.latch.getD (s.ocu.position.extractLsb' 32 32)).getLsbD (8 * b.first + i)) ∧
     ∀ i, 8 * b.count ≤ i → t.pif.readData.getLsbD i = false ∧ u.pif.readData.getLsbD i = false) ∧
  (∀ (o : Nat) (b : ByteSel) (s : State), b.ok = true →
     (∀ i, i < 8 * b.count → (registerRead o b s).getLsbD i = (registerWord o s).getLsbD (8 * b.first + i)) ∧
     (∀ i, 8 * b.count ≤ i → (registerRead o b s).getLsbD i = false) ∧
     (o ∉ [0x0, 0x4, 0x8, 0xC, 0x10] → registerWord o s = 0)) ∧
  (∀ s : State, registerWord 0x0 s = identWord ∧
     (registerWord 0x4 s).getLsbD 0 = s.pif.runChain ∧ (registerWord 0x4 s).getLsbD 1 = s.pif.irqEnable ∧
     (∀ i, 2 ≤ i → (registerWord 0x4 s).getLsbD i = false) ∧ registerWord 0x10 s = s.pif.attn.setWidth 32) ∧
  (∀ s : State, s.raised = 0 → s.stat.waiting = 0 →
     (s.pif.irqEnable = false → ∃ t, exec .irqEnable s = .next t ∧ t.pif.irqEnable = true ∧ t.pif.attn = s.pif.attn ∧
       t.pif.runChain = s.pif.runChain ∧
       (s.pif.msiEnable = true → s.pif.attn &&& s.pif.mask ≠ 0 → t.pif.msiSent = s.pif.msiSent + 1 ∧
         t.pif.msiLast = some (s.pif.msiAddress, s.pif.msiData))) ∧
     (s.pif.irqEnable = true → ∃ t, exec .irqDisable s = .next t ∧ t.pif.irqEnable = false ∧
       t.pif.attn = s.pif.attn ∧ t.pif.msiSent = s.pif.msiSent) ∧
     (∀ v : BitVec 32, ∃ t, exec (.attnWrite v) s = .next t ∧ t.pif.attn = s.pif.attn &&& ~~~(v.setWidth 10) ∧
       t.pif.msiSent = s.pif.msiSent ∧ t.ocu = s.ocu) ∧
     (∀ (o w : Nat) (v : BitVec 32), ignoredWrite o w = true → ∃ t, exec (.registerWriteIgnored o w v) s = .next t ∧
       t.pif = s.pif ∧ t.ocu = s.ocu ∧ t.mem = s.mem))

/-- R176, R180, R181, R183: RUN_CHAIN. Started at a position that is 0 or not a multiple of 64 the chain faults with
BAD_ADDRESS; at an EMPTY block it waits; a stop between orders makes it STOPPED with position and phase standing.
R180, R181, R183: a read of the chain. A poll timer that expires, and LOOK, read a waiting chain; CHAIN_LINK_READ
reads the link of a finished block. A link of 0 and an EMPTY block wait; a good link leads to its block; a POSTED
block is taken (stated for an IDENTIFY block); a block TAKEN, DONE or REFUSED is a stale link, any other state BAD_STATE.
The model's readings in it: the fault cause and address are cleared at RUN_CHAIN_START (log entry 37), the chain state
stands while a short order is in progress (log entry 22), the poll limit is taken when a wait begins (log entry 51), and
the fault address is the chain position, the address of the block, at BAD_ADDRESS, STALE_LINK and BAD_STATE (log entry 58).
-/
def Obligations.ChainRunsAndReads : Prop :=
  (∀ s : State,
     (s.pif.runChain = false → s.ocu.current = none → s.ocu.phase = .take →
       (s.ocu.position = 0 ∨ s.ocu.position.toNat % 64 ≠ 0 → ∃ t, exec .runChainStart s = .next t ∧
         t.pif.runChain = false ∧ t.ocu.chain = .faulted ∧ t.ocu.faultCause = .badAddress ∧
         t.ocu.faultAddr = s.ocu.position.toNat ∧ t.ocu.position = s.ocu.position ∧ t.ocu.phase = .take ∧
         reported .fault t) ∧
       (s.ocu.position ≠ 0 → s.ocu.position.toNat % 64 = 0 → allowed .orderRead s.ocu.position.toNat 64 s = true →
         field (readBytes s.ocu.position.toNat 64 s) 12 1 = 0 → ∃ t, exec .runChainStart s = .next t ∧
         t.pif.runChain = true ∧ t.ocu = { s.ocu with
           chain := .running, faultCause := .none, faultAddr := 0,
           waiting := true, pollTicks := 0, pollLimit := s.ocu.pollInterval })) ∧
     (s.pif.runChain = true → ∃ t, exec .runChainStop s = .next t ∧ t.pif.runChain = false ∧
       t.ocu.position = s.ocu.position ∧ t.ocu.phase = s.ocu.phase ∧ t.ocu.waiting = false ∧
       t.ocu.longList = s.ocu.longList ∧ (s.ocu.current = none → t.ocu.chain = .stopped) ∧
       (s.ocu.current.isSome = true → t.ocu.chain = s.ocu.chain ∧ t.ocu.current = s.ocu.current))) ∧
  (∀ (c : Instr) (s : State), s.pif.runChain = true → s.ocu.current = none →
     (c = .look ∧ s.ocu.waiting = true) ∨
       (c = .pollTimerExpiry ∧ s.ocu.waiting = true ∧ 20 * s.ocu.pollLimit ≤ s.ocu.pollTicks) ∨
       (c = .chainLinkRead ∧ s.ocu.waiting = false ∧ s.ocu.phase = .link) →
     (s.ocu.phase = .link → allowed .orderRead s.ocu.position.toNat 8 s = true →
       (field (readBytes s.ocu.position.toNat 8 s) 0 8 = 0 → ∃ t, exec c s = .next t ∧
         t.ocu = { s.ocu with waiting := true, pollTicks := 0, pollLimit := s.ocu.pollInterval }) ∧
       (field (readBytes s.ocu.position.toNat 8 s) 0 8 % 64 ≠ 0 → ∃ t, exec c s = .next t ∧
         t.ocu.chain = .faulted ∧ t.ocu.faultCause = .badAddress ∧ t.ocu.position = s.ocu.position ∧
         t.pif.runChain = false ∧ reported .fault t) ∧
       (∀ a, field (readBytes s.ocu.position.toNat 8 s) 0 8 = a → a ≠ 0 → a % 64 = 0 →
         allowed .orderRead a 64 s = true → field (readBytes a 64 s) 12 1 = 0 → ∃ t, exec c s = .next t ∧
         t.ocu = { s.ocu with position := BitVec.ofNat 64 a, phase := .take, waiting := true, pollTicks := 0,
                              pollLimit := s.ocu.pollInterval })) ∧
     (s.ocu.phase = .take → allowed .orderRead s.ocu.position.toNat 64 s = true →
       (field (readBytes s.ocu.position.toNat 64 s) 12 1 = 0 → ∃ t, exec c s = .next t ∧
         t.ocu = { s.ocu with waiting := true, pollTicks := 0, pollLimit := s.ocu.pollInterval }) ∧
       (field (readBytes s.ocu.position.toNat 64 s) 12 1 = 1 → field (readBytes s.ocu.position.toNat 64 s) 8 1 = 3 →
         ∃ t, exec c s = .next t ∧ ∃ b, t.ocu = { s.ocu with current := some b, waiting := false } ∧
           b.addr = s.ocu.position.toNat ∧ b.body = .identify ∧ t.mem = s.mem) ∧
       (2 ≤ field (readBytes s.ocu.position.toNat 64 s) 12 1 → ∃ t, exec c s = .next t ∧ t.ocu.chain = .faulted ∧
         t.ocu.faultCause = (if field (readBytes s.ocu.position.toNat 64 s) 12 1 ≤ 4 then .staleLink else .badState) ∧
         t.ocu.faultAddr = s.ocu.position.toNat ∧ t.ocu.position = s.ocu.position ∧ t.ocu.phase = .take ∧
         t.pif.runChain = false ∧ t.mem = s.mem ∧ reported .fault t)))

/-- R188: an accepted CONFIGURE_PORT takes its poll interval, low-water mark, mask and status block address, ends a
suspension and makes a write due at once; a field out of range is refused, and nothing changes. The index it is refused
with (0 address, 1 mask, 2 poll interval, 3 low-water mark) is the model's reading of the body's order (log entry 27). R184,
R187: SET_WINDOWS with good descriptors replaces all four windows; its own final state write is checked against the
new ones. The first bad descriptor refuses the order and leaves the windows. R185: which accesses are allowed before
and after SET_WINDOWS. -/
def Obligations.PortAndWindows : Prop :=
  (∀ (b : OrderBlock) (s : State) (a : Nat) (m : BitVec 16) (poll low : Nat), Taken b (.configurePort a m poll low) s →
     allowed .orderStateWrite (b.addr + 12) 8 s = true →
     (a % 64 = 0 → m.toNat < 1024 → 1 ≤ poll → poll ≤ 255 → low ≤ 63 →
       (a = 0 ∨ allowed .statusWrite a 160 s = true) → ∃ t d, exec .configurePort s = .next t ∧
         Ended b .done .ok d s.mem s t ∧ t.ocu.pollInterval = poll ∧ t.jrn.lowWater = low ∧
         t.pif.mask = m.setWidth 10 ∧ t.stat.addr = (if a = 0 then none else some a) ∧ t.stat.suspended = false ∧
         (a ≠ 0 → t.stat.due = true) ∧ (a = 0 → t.stat.due = false)) ∧
     (∀ i, firstBad [(0, decide (a % 64 = 0)), (1, decide (m.toNat < 1024)), (2, decide (1 ≤ poll ∧ poll ≤ 255)),
         (3, decide (low ≤ 63))] = some i → ∃ t, exec .configurePort s = .next t ∧
       Ended b .refused .badField (some i) s.mem s t ∧ t.pif.mask = s.pif.mask ∧ t.stat.addr = s.stat.addr ∧
       t.jrn = s.jrn ∧ t.ocu.pollInterval = s.ocu.pollInterval)) ∧
  (∀ (b : OrderBlock) (s : State) (ds : List WindowDesc), Taken b (.setWindows ds) s →
     ((∀ d ∈ ds, descriptorOk d = true) →
       allowed .orderStateWrite (b.addr + 12) 8 { s with mwu := { windows := ds.map windowOf, windowsSet := true } } =
         true → ∃ t x, exec .setWindows s = .next t ∧ Ended b .done .ok x s.mem s t ∧
         t.mwu = { windows := ds.map windowOf, windowsSet := true } ∧ t.stat.suspended = false) ∧
     (∀ i d, ds[i]? = some d → descriptorOk d = false → (∀ j e, j < i → ds[j]? = some e → descriptorOk e = true) →
       allowed .orderStateWrite (b.addr + 12) 8 s = true → ∃ t, exec .setWindows s = .next t ∧
       Ended b .refused .badField (some i) s.mem s t ∧ t.mwu = s.mwu)) ∧
  (∀ (k : Access) (a n : Nat) (s : State),
     (s.mwu.windowsSet = false → (allowed k a n s = true ↔ k = .orderRead ∨ k = .orderStateWrite)) ∧
     (s.mwu.windowsSet = true → (allowed k a n s = true ↔ ∃ w, some w ∈ s.mwu.windows ∧ w.base ≤ a ∧
       a + n ≤ w.base + w.size ∧ accessUse w k = true ∧ (accessWrites k = true → w.writeProtect = false))))

/-- R47 to R49, R64, R190: a class table and a geometry that pass their checks are taken: a NEXT_ITEM table becomes
current with the next generation number, a geometry replaces the lane's whole and empties its fire histories. A wrong
checksum is refused and changes neither. R47, R50: a second table while one is staged is BUSY; an AT_GAP table waits
staged, its order TAKEN, unless the gap stands already. R50, R64: with the scorer empty and no entry being scanned the staged table
becomes current, for every later job. -/
def Obligations.TablesAndGeometry : Prop :=
  (∀ (b : OrderBlock) (s : State), allowed .orderStateWrite (b.addr + 12) 8 s = true →
     (∀ a n, Taken b (.loadClasses a n 0) s → allowed .tableRead a (8 + 24 * n) s = true → 1 ≤ n → n ≤ 64 →
       (checksumOk (readBytes a (8 + 24 * n) s) = true →
         firstBad (classTableFields n (readBytes a (8 + 24 * n) s)) = none → s.msc.staged = none →
         s.hmu.audit = none → ∃ t d, exec .loadClasses s = .next t ∧ Ended b .done .ok d s.mem s t ∧
           t.msc.current = some (classTableOf (nextGeneration s.msc.lastGen) n (readBytes a (8 + 24 * n) s)) ∧
           t.msc.lastGen = nextGeneration s.msc.lastGen ∧ t.msc.scoring = s.msc.scoring ∧ t.msc.jobs = s.msc.jobs) ∧
       (checksumOk (readBytes a (8 + 24 * n) s) = false → ∃ t d, exec .loadClasses s = .next t ∧
         Ended b .refused .badChecksum d s.mem s t ∧ t.msc = s.msc)) ∧
     (∀ a n mode, Taken b (.loadClasses a n mode) s → allowed .tableRead a (8 + 24 * n) s = true → 1 ≤ n → n ≤ 64 →
       checksumOk (readBytes a (8 + 24 * n) s) = true →
       firstBad (classTableFields n (readBytes a (8 + 24 * n) s)) = none →
       (mode ≤ 1 → s.msc.staged.isSome = true → ∃ t d, exec .loadClasses s = .next t ∧
         Ended b .refused .busy d s.mem s t ∧ t.msc = s.msc) ∧
       (mode = 1 → s.msc.staged = none → s.hmu.audit = none → s.msc.jobs = [] → s.msc.scoring = none →
         (∀ l, ∀ e ∈ (s.track.get l).queue, e.stage ≠ .entering ∧ e.stage ≠ .scanning) →
         ∃ t d, exec .loadClasses s = .next t ∧ Ended b .done .ok d s.mem s t ∧ t.msc.staged = none ∧
           t.msc.current = some (classTableOf (nextGeneration s.msc.lastGen) n (readBytes a (8 + 24 * n) s))) ∧
       (mode = 1 → s.msc.staged = none →
         (s.msc.jobs ≠ [] ∨ s.msc.scoring.isSome = true ∨
           ∃ l, ∃ e ∈ (s.track.get l).queue, e.stage = .entering ∨ e.stage = .scanning) →
         ∃ t, exec .loadClasses s = .next t ∧
           t.msc = { s.msc with
             lastGen := nextGeneration s.msc.lastGen,
             staged := some (classTableOf (nextGeneration s.msc.lastGen) n (readBytes a (8 + 24 * n) s)) } ∧
           t.ocu.current = none ∧ t.ocu.phase = .link ∧ t.ocu.completed = s.ocu.completed ∧
           t.ocu.longList = s.ocu.longList ++ [⟨.staged, b.addr, b.kind, b.notify⟩] ∧ t.hmu = s.hmu ∧
           ∃ c x m, t.mem = memWriteN s.mem (b.addr + 12) (orderStateBytes .taken c x m))) ∧
     (∀ a l, Taken b (.loadGeometry a (laneCode l)) s → allowed .tableRead a 168 s = true →
       (checksumOk (readBytes a 168 s) = true → laneMode l s = .off ∨ laneMode l s = .ready ∨ laneMode l s = .standby →
         firstBad (geometryFields l (readBytes a 168 s) s) = none → ∃ t d, exec .loadGeometry s = .next t ∧
           Ended b .done .ok d s.mem s t ∧ geometry l t = geometryOf (readBytes a 168 s) ∧
           (∀ g, (channel l g t).history = []) ∧ t.track = s.track ∧ t.belt = s.belt ∧
           (∀ k, k ≠ l → geometry k t = geometry k s)) ∧
       (checksumOk (readBytes a 168 s) = false → ∃ t d, exec .loadGeometry s = .next t ∧
         Ended b .refused .badChecksum d s.mem s t ∧ t.geom = s.geom ∧ t.pkr = s.pkr))) ∧
  (∀ (s : State) (k : ClassTable), s.msc.staged = some k → s.msc.jobs = [] → s.msc.scoring = none →
     (∀ l, ∀ e ∈ (s.track.get l).queue, e.stage ≠ .entering ∧ e.stage ≠ .scanning) →
     ∃ t, exec .stagedTableApply s = .next t ∧ t.msc.current = some k ∧ t.msc.staged = none ∧ t.msc.jobs = [] ∧
       t.hmu.audit = none ∧
       ∀ o, s.ocu.longList = [o] → o.key = .staged → s.hmu.audit = none →
         allowed .orderStateWrite (o.addr + 12) 8 s = true →
         t.ocu.longList = [] ∧ t.ocu.completed = satAdd32 s.ocu.completed 1 ∧ t.ocu.lastOrder = o.addr ∧
         ∃ x, t.mem = memWriteN s.mem (o.addr + 12) (orderStateBytes .done 0 x s.clock.ms.toNat))

/-- R158, R161 to R165: an accepted LOAD_THRESHOLDS of one entry sets the record's threshold and action, makes its failing
test and leaves every other record; with restore the record, FAILING or RETIRED before too, is PASSING at 100 again before
the test, with the carried worst and raw, and a RETIRED one's element is no longer retired, the lane only when neither of
its two measures is RETIRED. A record that is failing with action RETIRE is RETIRED with its element, one RETIRED without
restore stays so; each change of state raises HEALTH, and the hold reason follows the FAILING records with action HOLD.
That 1 is yes in restore and carry is the model's choice (log entry 65). That a FAILING record given action RETIRE
without restore returns to PASSING where its value is not below the new threshold, and is RETIRED where it is, is the
model's reading of two sentences of R165 (log entry 32). R158, R161, R163:
an evaluation stores the value clamped to 1..253, lowers worst to it, and a record whose normalized value is below its
threshold is FAILING, one that is not is PASSING; a RETIRED record stays so. With action RETIRE a record that begins
to fail is RETIRED and the element of its measure retires with it. -/
def Obligations.HealthRecords : Prop :=
  (∀ (b : OrderBlock) (s : State) (a : Nat) (e : ThresholdEntry) (l : LaneId) (k : AttrId),
     Taken b (.loadThresholds a) s → allowed .orderStateWrite (b.addr + 12) 8 s = true →
     allowed .tableRead a 4 s = true → allowed .tableRead a 20 s = true → field (readBytes a 4 s) 0 1 = 1 →
     checksumOk (readBytes a 20 s) = true → firstBad (thresholdImageFields (readBytes a 20 s) 1) = none →
     thresholdAt (readBytes a 20 s) 0 = e → laneOfIndex e.lane = some l → attrOfCode e.id = some k →
     ∃ t d, exec .loadThresholds s = .next t ∧
       (e.action ≤ 1 ∨ (s.lsq.get l).pendingOrder = none → Ended b .done .ok d s.mem s t) ∧ t.ocu.current = none ∧
       (attr l k t).threshold = e.threshold ∧
       (attr l k t).action = (if e.action = 0 then .report else if e.action = 1 then .hold else .retire) ∧
       (attr l k t).normalized = (if e.restore = 1 then 100 else (attr l k s).normalized) ∧
       (attr l k t).worst = (if e.restore = 1 then (if e.carry = 1 then min e.worst 100 else 100)
         else (attr l k s).worst) ∧
       (attr l k t).raw = (if e.restore = 1 then (if e.carry = 1 then e.raw else 0) else (attr l k s).raw) ∧
       (attr l k t).state = (if e.restore ≠ 1 ∧ (attr l k s).state = .retired then .retired
         else if (attr l k t).normalized < e.threshold then (if e.action = 2 then .retired else .failing)
         else .passing) ∧
       ((attr l k t).state ≠ (attr l k s).state → reported .health t) ∧
       (∀ m, (holdSet m .health t = true ↔ ∃ a, (attr m a t).action = .hold ∧ (attr m a t).state = .failing)) ∧
       ((attr l k t).state = .retired → (attr l k s).state ≠ .retired ∨ e.restore = 1 →
         retiredFlag l k t = some true) ∧
       ((attr l k s).state = .retired → (attr l k t).state ≠ .retired → isPrefail k = true →
         ((k = .lampReserve → (attr l .tracking s).state ≠ .retired) →
          (k = .tracking → (attr l .lampReserve s).state ≠ .retired) → retiredFlag l k t = some false) ∧
         ((k = .lampReserve ∧ (attr l .tracking s).state = .retired) ∨
          (k = .tracking ∧ (attr l .lampReserve s).state = .retired) → retiredFlag l k t = retiredFlag l k s)) ∧
       (∀ m a, m ≠ l ∨ a ≠ k → attr m a t = attr m a s)) ∧
  (∀ (l : LaneId) (a : AttrId) (raw normal : Int) (s : State),
     (attr l a (evaluate l a raw normal s)).normalized = (max 1 (min 253 normal)).toNat ∧
     (attr l a (evaluate l a raw normal s)).raw = raw ∧
     (attr l a (evaluate l a raw normal s)).worst = min (attr l a s).worst (max 1 (min 253 normal)).toNat ∧
     ((attr l a s).state = .retired → (attr l a (evaluate l a raw normal s)).state = .retired) ∧
     ((attr l a s).action ≠ .retire → (attr l a s).state ≠ .retired →
       (attr l a (evaluate l a raw normal s)).state =
         if (max 1 (min 253 normal)).toNat < (attr l a s).threshold then .failing else .passing) ∧
     ((attr l a s).action = .retire → (attr l a s).state = .passing →
       (max 1 (min 253 normal)).toNat < (attr l a s).threshold →
       (attr l a (evaluate l a raw normal s)).state = .retired ∧
       (a = .lampReserve ∨ a = .tracking → ((evaluate l a raw normal s).lsq.get l).retired = true) ∧
       (a = .flipAccuracy → ((evaluate l a raw normal s).gsq.get l).flipRetired = true) ∧
       (a = .bankAccuracy → ((evaluate l a raw normal s).gsq.get l).bankRetired = true) ∧
       (a = .nearHeadWet → (head l .near (evaluate l a raw normal s)).retired = true) ∧
       (a = .farHeadWet → (head l .far (evaluate l a raw normal s)).retired = true)))

/-- R143, R144, R174, R189: snapshots and IDENTIFY: the image is written, with zeroing the tallies go to 0 but for
entered, which takes the queue occupancy; IDENTIFY writes its body into its own block. The extent of that write, one check
of 52 bytes with the pad at 20..23 left, is the model's reading (log entry 19), and so are the bytes of a snapshot that no
layout lists (log entry 86) and the fields of an empty log place (log entry 88). -/
def Obligations.SnapshotsAndIdentify : Prop :=
  ∀ (b : OrderBlock) (s : State),
    (∀ a l z, Taken b (.tallySnapshot a (laneCode l) z) s → z ≤ 1 → allowed .orderStateWrite (b.addr + 12) 8 s = true →
      allowed .snapshotWrite a 440 s = true → ∃ t d, exec .tallySnapshot s = .next t ∧
        Ended b .done .ok d (memWriteN s.mem a (tallyImage l z s)) s t ∧
        t.tally.get l = (if z = 1 then
          (List.replicate (s.tally.get l).length 0).set 0 (s.track.get l).queue.length else s.tally.get l)) ∧
    (∀ a, Taken b (.healthSnapshot a) s → allowed .orderStateWrite (b.addr + 12) 8 s = true →
      allowed .snapshotWrite a 792 s = true → ∃ t d, exec .healthSnapshot s = .next t ∧
        Ended b .done .ok d (memWriteN s.mem a (healthImage s)) s t ∧ t.hmu = s.hmu) ∧
    (Taken b .identify s → allowed .orderStateWrite (b.addr + 12) 52 s = true → ∃ t x,
      exec .identify s = .next t ∧
      t.mem = memWriteN (memWriteN s.mem (b.addr + 12) (orderStateBytes .done 0 x s.clock.ms.toNat)) (b.addr + 24)
        (le 4 identWord.toNat ++ [2, 32, 8, 64, 8, 16, 64, 16, 16, 4, boolByte s.mwu.windowsSet, 0] ++
          le 4 s.clock.ms.toNat ++ le 20 0) ∧
      t.ocu.current = none ∧ t.ocu.phase = .link ∧ t.ocu.completed = satAdd32 s.ocu.completed 1 ∧
      t.ocu.lastOrder = b.addr)

/-- R38, R138, R166, R168, R170, R172: a REFERENCE or CALIBRATE test on a READY lane without one enters TESTING with
TEST in the set and waits TAKEN; a lane in another state, or with a test, is BUSY; the abort flag ends a test of the
kind with ABORTED_BY_HOST, its order DONE with that result, and is NOTHING without one; so does the abort flag of a class
audit. That the ended order becomes final before the aborting one is the model's choice (log entry 67). -/
def Obligations.LaneSelfTestOrders : Prop :=
  (∀ (l : LaneId) (b : OrderBlock) (s : State) (n a : Nat) (sp : List (Nat × Nat)),
    allowed .orderStateWrite (b.addr + 12) 8 s = true →
    (Taken b (.selfTest .reference (laneCode l) n sp a) s → s.hmu.tests.get l = none → laneMode l s = .ready →
      ∃ t, exec .selfTestReference s = .next t ∧ laneMode l t = .testing ∧ holdSet l .test t = true ∧
        t.hmu.tests.get l = some { kind := .reference, step := 1 } ∧ (t.sfe.get l).refMode = true ∧
        (t.sfe.get l).refRequest = some (.calCheck 0) ∧ t.ocu.current = none ∧ reported .laneState t ∧
        t.ocu.longList = s.ocu.longList ++ [⟨.laneTest l, b.addr, b.kind, b.notify⟩]) ∧
    (Taken b (.selfTest .calibrate (laneCode l) n sp a) s → s.hmu.tests.get l = none → laneMode l s = .ready →
      ∃ t, exec .selfTestCalibrate s = .next t ∧ laneMode l t = .testing ∧ holdSet l .test t = true ∧
        t.hmu.tests.get l = some { kind := .calibrate, step := 1 } ∧
        (t.sfe.get l).longRequest = some .selfTest ∧ t.ocu.current = none ∧ reported .laneState t ∧
        t.ocu.longList = s.ocu.longList ++ [⟨.laneTest l, b.addr, b.kind, b.notify⟩]) ∧
    ((s.hmu.tests.get l).isSome = true ∨ laneMode l s ≠ .ready →
      (Taken b (.selfTest .reference (laneCode l) n sp a) s → ∃ t d, exec .selfTestReference s = .next t ∧
        Ended b .refused .busy d s.mem s t ∧ t.hmu = s.hmu ∧ laneMode l t = laneMode l s) ∧
      (Taken b (.selfTest .calibrate (laneCode l) n sp a) s → ∃ t d, exec .selfTestCalibrate s = .next t ∧
        Ended b .refused .busy d s.mem s t ∧ t.hmu = s.hmu ∧ laneMode l t = laneMode l s))) ∧
  (∀ (l : LaneId) (b : OrderBlock) (s : State) (k : LaneTestKind), allowed .orderStateWrite (b.addr + 12) 8 s = true →
    Taken b (.selfTestAbort (laneTestKind k) (laneCode l)) s →
    ((∀ q, s.hmu.tests.get l = some q → q.kind ≠ k) → ∃ t, exec .selfTestAbort s = .next t ∧
      Ended b .done .ok (some nothingDetail) s.mem s t ∧ t.hmu = s.hmu) ∧
    (∀ q, s.hmu.tests.get l = some q → q.kind = k → ∃ t, exec .selfTestAbort s = .next t ∧
      t.hmu.tests.get l = none ∧ (t.sfe.get l).refMode = false ∧ (t.sfe.get l).refRequest = none ∧
      (k = .calibrate → (t.sfe.get l).longRequest = none ∧ (t.sfe.get l).longRun = none) ∧
      holdSet l .test t = false ∧ (laneMode l s = .testing → laneMode l t = .ready) ∧ t.ocu.current = none ∧
      reported .testDone t ∧ Logged (laneTestKind k) (some l) .abortedByHost s.clock.ms t ∧
      ∀ o, s.ocu.longList = [o] → o.key = .laneTest l → allowed .orderStateWrite (o.addr + 12) 8 s = true →
        EndedWithLong o .done .ok (some (testResultCode .abortedByHost)) b s t)) ∧
  (∀ (b : OrderBlock) (s : State) (lane : Nat), allowed .orderStateWrite (b.addr + 12) 8 s = true →
    Taken b (.selfTestAbort .classAudit lane) s →
    (s.hmu.audit = none → ∃ t, exec .selfTestAbort s = .next t ∧
      Ended b .done .ok (some nothingDetail) s.mem s t ∧ t.hmu = s.hmu) ∧
    (s.hmu.audit.isSome = true → ∃ t, exec .selfTestAbort s = .next t ∧ t.hmu.audit = none ∧
      .audit ∉ t.msc.idleRequests ∧ t.ocu.current = none ∧ reported .testDone t ∧
      Logged .classAudit none .abortedByHost s.clock.ms t ∧
      ∀ o, s.ocu.longList = [o] → o.key = .audit → allowed .orderStateWrite (o.addr + 12) 8 s = true →
        EndedWithLong o .done .ok (some (testResultCode .abortedByHost)) b s t))
end

