-- ==== Sys2Proof/Laws/State.lean ====
section
/-! SUPPORT. One lemma per field per update of the state, and the laws of the containers that hold one value for each
lane, side or code. -/

namespace Sys2Proof

@[simp] theorem PerLane.get_upd_self {α : Type} (p : PerLane α) (l : LaneId) (f : α → α) : (p.upd l f).get l = f (p.get l) := by
  cases l <;> rfl

theorem PerLane.get_upd_other {α : Type} (p : PerLane α) {l k : LaneId} (f : α → α) (h : k ≠ l) :
    (p.upd l f).get k = p.get k := by
  cases l <;> cases k <;> first | rfl | exact absurd rfl h

@[simp] theorem PerSide.get_upd_self {α : Type} (p : PerSide α) (h : Side) (f : α → α) : (p.upd h f).get h = f (p.get h) := by
  cases h <;> rfl

theorem PerSide.get_upd_other {α : Type} (p : PerSide α) {h k : Side} (f : α → α) (hk : k ≠ h) :
    (p.upd h f).get k = p.get k := by
  cases h <;> cases k <;> first | rfl | exact absurd rfl hk

@[simp] theorem vget_vupd_self {α : Type} {n : Nat} (v : Vector α n) (i : Fin n) (f : α → α) :
    vget (vupd v i f) i = f (vget v i) := by
  simp [vget, vupd]

theorem vget_vupd_other {α : Type} {n : Nat} (v : Vector α n) {i j : Fin n} (f : α → α) (h : j ≠ i) :
    vget (vupd v i f) j = vget v j := by
  have hij : i.val ≠ j.val := fun e => h (Fin.ext e.symm)
  simp [vget, vupd, Vector.getElem_set_ne, hij]

namespace Machine

@[simp] theorem writeBytes_pending (a : Nat) (bs : List Byte) (s : State) :
    (writeBytes a bs s).pending = s.pending := rfl
@[simp] theorem writeBytes_clock (a : Nat) (bs : List Byte) (s : State) : (writeBytes a bs s).clock = s.clock := rfl
@[simp] theorem writeBytes_belt (a : Nat) (bs : List Byte) (s : State) : (writeBytes a bs s).belt = s.belt := rfl
@[simp] theorem writeBytes_eyes (a : Nat) (bs : List Byte) (s : State) : (writeBytes a bs s).eyes = s.eyes := rfl
@[simp] theorem writeBytes_track (a : Nat) (bs : List Byte) (s : State) : (writeBytes a bs s).track = s.track := rfl
@[simp] theorem writeBytes_geom (a : Nat) (bs : List Byte) (s : State) : (writeBytes a bs s).geom = s.geom := rfl
@[simp] theorem writeBytes_sfe (a : Nat) (bs : List Byte) (s : State) : (writeBytes a bs s).sfe = s.sfe := rfl
@[simp] theorem writeBytes_gsq (a : Nat) (bs : List Byte) (s : State) : (writeBytes a bs s).gsq = s.gsq := rfl
@[simp] theorem writeBytes_cnu (a : Nat) (bs : List Byte) (s : State) : (writeBytes a bs s).cnu = s.cnu := rfl
@[simp] theorem writeBytes_pkr (a : Nat) (bs : List Byte) (s : State) : (writeBytes a bs s).pkr = s.pkr := rfl
@[simp] theorem writeBytes_lsq (a : Nat) (bs : List Byte) (s : State) : (writeBytes a bs s).lsq = s.lsq := rfl
@[simp] theorem writeBytes_msc (a : Nat) (bs : List Byte) (s : State) : (writeBytes a bs s).msc = s.msc := rfl
@[simp] theorem writeBytes_pmc (a : Nat) (bs : List Byte) (s : State) : (writeBytes a bs s).pmc = s.pmc := rfl
@[simp] theorem writeBytes_tally (a : Nat) (bs : List Byte) (s : State) : (writeBytes a bs s).tally = s.tally := rfl
@[simp] theorem writeBytes_jrn (a : Nat) (bs : List Byte) (s : State) : (writeBytes a bs s).jrn = s.jrn := rfl
@[simp] theorem writeBytes_hmu (a : Nat) (bs : List Byte) (s : State) : (writeBytes a bs s).hmu = s.hmu := rfl
@[simp] theorem writeBytes_ocu (a : Nat) (bs : List Byte) (s : State) : (writeBytes a bs s).ocu = s.ocu := rfl
@[simp] theorem writeBytes_stat (a : Nat) (bs : List Byte) (s : State) : (writeBytes a bs s).stat = s.stat := rfl
@[simp] theorem writeBytes_mwu (a : Nat) (bs : List Byte) (s : State) : (writeBytes a bs s).mwu = s.mwu := rfl
@[simp] theorem writeBytes_pif (a : Nat) (bs : List Byte) (s : State) : (writeBytes a bs s).pif = s.pif := rfl
@[simp] theorem writeBytes_mem (a : Nat) (bs : List Byte) (s : State) :
    (writeBytes a bs s).mem = memWriteN s.mem a bs := rfl
@[simp] theorem writeBytes_raised (a : Nat) (bs : List Byte) (s : State) :
    (writeBytes a bs s).raised = s.raised := rfl
@[simp] theorem writeBytes_freeCount (a : Nat) (bs : List Byte) (s : State) :
    (writeBytes a bs s).freeCount = s.freeCount := rfl

@[simp] theorem updBelt_pending (l : LaneId) (f : Belt → Belt) (s : State) :
    (updBelt l f s).pending = s.pending := rfl
@[simp] theorem updBelt_clock (l : LaneId) (f : Belt → Belt) (s : State) : (updBelt l f s).clock = s.clock := rfl
@[simp] theorem updBelt_belt (l : LaneId) (f : Belt → Belt) (s : State) : (updBelt l f s).belt = s.belt.upd l f := rfl
@[simp] theorem updBelt_eyes (l : LaneId) (f : Belt → Belt) (s : State) : (updBelt l f s).eyes = s.eyes := rfl
@[simp] theorem updBelt_track (l : LaneId) (f : Belt → Belt) (s : State) : (updBelt l f s).track = s.track := rfl
@[simp] theorem updBelt_geom (l : LaneId) (f : Belt → Belt) (s : State) : (updBelt l f s).geom = s.geom := rfl
@[simp] theorem updBelt_sfe (l : LaneId) (f : Belt → Belt) (s : State) : (updBelt l f s).sfe = s.sfe := rfl
@[simp] theorem updBelt_gsq (l : LaneId) (f : Belt → Belt) (s : State) : (updBelt l f s).gsq = s.gsq := rfl
@[simp] theorem updBelt_cnu (l : LaneId) (f : Belt → Belt) (s : State) : (updBelt l f s).cnu = s.cnu := rfl
@[simp] theorem updBelt_pkr (l : LaneId) (f : Belt → Belt) (s : State) : (updBelt l f s).pkr = s.pkr := rfl
@[simp] theorem updBelt_lsq (l : LaneId) (f : Belt → Belt) (s : State) : (updBelt l f s).lsq = s.lsq := rfl
@[simp] theorem updBelt_msc (l : LaneId) (f : Belt → Belt) (s : State) : (updBelt l f s).msc = s.msc := rfl
@[simp] theorem updBelt_pmc (l : LaneId) (f : Belt → Belt) (s : State) : (updBelt l f s).pmc = s.pmc := rfl
@[simp] theorem updBelt_tally (l : LaneId) (f : Belt → Belt) (s : State) : (updBelt l f s).tally = s.tally := rfl
@[simp] theorem updBelt_jrn (l : LaneId) (f : Belt → Belt) (s : State) : (updBelt l f s).jrn = s.jrn := rfl
@[simp] theorem updBelt_hmu (l : LaneId) (f : Belt → Belt) (s : State) : (updBelt l f s).hmu = s.hmu := rfl
@[simp] theorem updBelt_ocu (l : LaneId) (f : Belt → Belt) (s : State) : (updBelt l f s).ocu = s.ocu := rfl
@[simp] theorem updBelt_stat (l : LaneId) (f : Belt → Belt) (s : State) : (updBelt l f s).stat = s.stat := rfl
@[simp] theorem updBelt_mwu (l : LaneId) (f : Belt → Belt) (s : State) : (updBelt l f s).mwu = s.mwu := rfl
@[simp] theorem updBelt_pif (l : LaneId) (f : Belt → Belt) (s : State) : (updBelt l f s).pif = s.pif := rfl
@[simp] theorem updBelt_mem (l : LaneId) (f : Belt → Belt) (s : State) : (updBelt l f s).mem = s.mem := rfl
@[simp] theorem updBelt_raised (l : LaneId) (f : Belt → Belt) (s : State) : (updBelt l f s).raised = s.raised := rfl
@[simp] theorem updBelt_freeCount (l : LaneId) (f : Belt → Belt) (s : State) :
    (updBelt l f s).freeCount = s.freeCount := rfl

@[simp] theorem updEye_pending (l : LaneId) (y : Eye) (f : EyeState → EyeState) (s : State) :
    (updEye l y f s).pending = s.pending := rfl
@[simp] theorem updEye_clock (l : LaneId) (y : Eye) (f : EyeState → EyeState) (s : State) :
    (updEye l y f s).clock = s.clock := rfl
@[simp] theorem updEye_belt (l : LaneId) (y : Eye) (f : EyeState → EyeState) (s : State) :
    (updEye l y f s).belt = s.belt := rfl
@[simp] theorem updEye_eyes (l : LaneId) (y : Eye) (f : EyeState → EyeState) (s : State) :
    (updEye l y f s).eyes = s.eyes.upd l (fun v => vupd v (eyeCode y) f) := rfl
@[simp] theorem updEye_track (l : LaneId) (y : Eye) (f : EyeState → EyeState) (s : State) :
    (updEye l y f s).track = s.track := rfl
@[simp] theorem updEye_geom (l : LaneId) (y : Eye) (f : EyeState → EyeState) (s : State) :
    (updEye l y f s).geom = s.geom := rfl
@[simp] theorem updEye_sfe (l : LaneId) (y : Eye) (f : EyeState → EyeState) (s : State) :
    (updEye l y f s).sfe = s.sfe := rfl
@[simp] theorem updEye_gsq (l : LaneId) (y : Eye) (f : EyeState → EyeState) (s : State) :
    (updEye l y f s).gsq = s.gsq := rfl
@[simp] theorem updEye_cnu (l : LaneId) (y : Eye) (f : EyeState → EyeState) (s : State) :
    (updEye l y f s).cnu = s.cnu := rfl
@[simp] theorem updEye_pkr (l : LaneId) (y : Eye) (f : EyeState → EyeState) (s : State) :
    (updEye l y f s).pkr = s.pkr := rfl
@[simp] theorem updEye_lsq (l : LaneId) (y : Eye) (f : EyeState → EyeState) (s : State) :
    (updEye l y f s).lsq = s.lsq := rfl
@[simp] theorem updEye_msc (l : LaneId) (y : Eye) (f : EyeState → EyeState) (s : State) :
    (updEye l y f s).msc = s.msc := rfl
@[simp] theorem updEye_pmc (l : LaneId) (y : Eye) (f : EyeState → EyeState) (s : State) :
    (updEye l y f s).pmc = s.pmc := rfl
@[simp] theorem updEye_tally (l : LaneId) (y : Eye) (f : EyeState → EyeState) (s : State) :
    (updEye l y f s).tally = s.tally := rfl
@[simp] theorem updEye_jrn (l : LaneId) (y : Eye) (f : EyeState → EyeState) (s : State) :
    (updEye l y f s).jrn = s.jrn := rfl
@[simp] theorem updEye_hmu (l : LaneId) (y : Eye) (f : EyeState → EyeState) (s : State) :
    (updEye l y f s).hmu = s.hmu := rfl
@[simp] theorem updEye_ocu (l : LaneId) (y : Eye) (f : EyeState → EyeState) (s : State) :
    (updEye l y f s).ocu = s.ocu := rfl
@[simp] theorem updEye_stat (l : LaneId) (y : Eye) (f : EyeState → EyeState) (s : State) :
    (updEye l y f s).stat = s.stat := rfl
@[simp] theorem updEye_mwu (l : LaneId) (y : Eye) (f : EyeState → EyeState) (s : State) :
    (updEye l y f s).mwu = s.mwu := rfl
@[simp] theorem updEye_pif (l : LaneId) (y : Eye) (f : EyeState → EyeState) (s : State) :
    (updEye l y f s).pif = s.pif := rfl
@[simp] theorem updEye_mem (l : LaneId) (y : Eye) (f : EyeState → EyeState) (s : State) :
    (updEye l y f s).mem = s.mem := rfl
@[simp] theorem updEye_raised (l : LaneId) (y : Eye) (f : EyeState → EyeState) (s : State) :
    (updEye l y f s).raised = s.raised := rfl
@[simp] theorem updEye_freeCount (l : LaneId) (y : Eye) (f : EyeState → EyeState) (s : State) :
    (updEye l y f s).freeCount = s.freeCount := rfl

@[simp] theorem updTrack_pending (l : LaneId) (f : Track → Track) (s : State) :
    (updTrack l f s).pending = s.pending := rfl
@[simp] theorem updTrack_clock (l : LaneId) (f : Track → Track) (s : State) : (updTrack l f s).clock = s.clock := rfl
@[simp] theorem updTrack_belt (l : LaneId) (f : Track → Track) (s : State) : (updTrack l f s).belt = s.belt := rfl
@[simp] theorem updTrack_eyes (l : LaneId) (f : Track → Track) (s : State) : (updTrack l f s).eyes = s.eyes := rfl
@[simp] theorem updTrack_track (l : LaneId) (f : Track → Track) (s : State) :
    (updTrack l f s).track = s.track.upd l f := rfl
@[simp] theorem updTrack_geom (l : LaneId) (f : Track → Track) (s : State) : (updTrack l f s).geom = s.geom := rfl
@[simp] theorem updTrack_sfe (l : LaneId) (f : Track → Track) (s : State) : (updTrack l f s).sfe = s.sfe := rfl
@[simp] theorem updTrack_gsq (l : LaneId) (f : Track → Track) (s : State) : (updTrack l f s).gsq = s.gsq := rfl
@[simp] theorem updTrack_cnu (l : LaneId) (f : Track → Track) (s : State) : (updTrack l f s).cnu = s.cnu := rfl
@[simp] theorem updTrack_pkr (l : LaneId) (f : Track → Track) (s : State) : (updTrack l f s).pkr = s.pkr := rfl
@[simp] theorem updTrack_lsq (l : LaneId) (f : Track → Track) (s : State) : (updTrack l f s).lsq = s.lsq := rfl
@[simp] theorem updTrack_msc (l : LaneId) (f : Track → Track) (s : State) : (updTrack l f s).msc = s.msc := rfl
@[simp] theorem updTrack_pmc (l : LaneId) (f : Track → Track) (s : State) : (updTrack l f s).pmc = s.pmc := rfl
@[simp] theorem updTrack_tally (l : LaneId) (f : Track → Track) (s : State) : (updTrack l f s).tally = s.tally := rfl
@[simp] theorem updTrack_jrn (l : LaneId) (f : Track → Track) (s : State) : (updTrack l f s).jrn = s.jrn := rfl
@[simp] theorem updTrack_hmu (l : LaneId) (f : Track → Track) (s : State) : (updTrack l f s).hmu = s.hmu := rfl
@[simp] theorem updTrack_ocu (l : LaneId) (f : Track → Track) (s : State) : (updTrack l f s).ocu = s.ocu := rfl
@[simp] theorem updTrack_stat (l : LaneId) (f : Track → Track) (s : State) : (updTrack l f s).stat = s.stat := rfl
@[simp] theorem updTrack_mwu (l : LaneId) (f : Track → Track) (s : State) : (updTrack l f s).mwu = s.mwu := rfl
@[simp] theorem updTrack_pif (l : LaneId) (f : Track → Track) (s : State) : (updTrack l f s).pif = s.pif := rfl
@[simp] theorem updTrack_mem (l : LaneId) (f : Track → Track) (s : State) : (updTrack l f s).mem = s.mem := rfl
@[simp] theorem updTrack_raised (l : LaneId) (f : Track → Track) (s : State) :
    (updTrack l f s).raised = s.raised := rfl
@[simp] theorem updTrack_freeCount (l : LaneId) (f : Track → Track) (s : State) :
    (updTrack l f s).freeCount = s.freeCount := rfl

@[simp] theorem updSfe_pending (l : LaneId) (f : Sfe → Sfe) (s : State) : (updSfe l f s).pending = s.pending := rfl
@[simp] theorem updSfe_clock (l : LaneId) (f : Sfe → Sfe) (s : State) : (updSfe l f s).clock = s.clock := rfl
@[simp] theorem updSfe_belt (l : LaneId) (f : Sfe → Sfe) (s : State) : (updSfe l f s).belt = s.belt := rfl
@[simp] theorem updSfe_eyes (l : LaneId) (f : Sfe → Sfe) (s : State) : (updSfe l f s).eyes = s.eyes := rfl
@[simp] theorem updSfe_track (l : LaneId) (f : Sfe → Sfe) (s : State) : (updSfe l f s).track = s.track := rfl
@[simp] theorem updSfe_geom (l : LaneId) (f : Sfe → Sfe) (s : State) : (updSfe l f s).geom = s.geom := rfl
@[simp] theorem updSfe_sfe (l : LaneId) (f : Sfe → Sfe) (s : State) : (updSfe l f s).sfe = s.sfe.upd l f := rfl
@[simp] theorem updSfe_gsq (l : LaneId) (f : Sfe → Sfe) (s : State) : (updSfe l f s).gsq = s.gsq := rfl
@[simp] theorem updSfe_cnu (l : LaneId) (f : Sfe → Sfe) (s : State) : (updSfe l f s).cnu = s.cnu := rfl
@[simp] theorem updSfe_pkr (l : LaneId) (f : Sfe → Sfe) (s : State) : (updSfe l f s).pkr = s.pkr := rfl
@[simp] theorem updSfe_lsq (l : LaneId) (f : Sfe → Sfe) (s : State) : (updSfe l f s).lsq = s.lsq := rfl
@[simp] theorem updSfe_msc (l : LaneId) (f : Sfe → Sfe) (s : State) : (updSfe l f s).msc = s.msc := rfl
@[simp] theorem updSfe_pmc (l : LaneId) (f : Sfe → Sfe) (s : State) : (updSfe l f s).pmc = s.pmc := rfl
@[simp] theorem updSfe_tally (l : LaneId) (f : Sfe → Sfe) (s : State) : (updSfe l f s).tally = s.tally := rfl
@[simp] theorem updSfe_jrn (l : LaneId) (f : Sfe → Sfe) (s : State) : (updSfe l f s).jrn = s.jrn := rfl
@[simp] theorem updSfe_hmu (l : LaneId) (f : Sfe → Sfe) (s : State) : (updSfe l f s).hmu = s.hmu := rfl
@[simp] theorem updSfe_ocu (l : LaneId) (f : Sfe → Sfe) (s : State) : (updSfe l f s).ocu = s.ocu := rfl
@[simp] theorem updSfe_stat (l : LaneId) (f : Sfe → Sfe) (s : State) : (updSfe l f s).stat = s.stat := rfl
@[simp] theorem updSfe_mwu (l : LaneId) (f : Sfe → Sfe) (s : State) : (updSfe l f s).mwu = s.mwu := rfl
@[simp] theorem updSfe_pif (l : LaneId) (f : Sfe → Sfe) (s : State) : (updSfe l f s).pif = s.pif := rfl
@[simp] theorem updSfe_mem (l : LaneId) (f : Sfe → Sfe) (s : State) : (updSfe l f s).mem = s.mem := rfl
@[simp] theorem updSfe_raised (l : LaneId) (f : Sfe → Sfe) (s : State) : (updSfe l f s).raised = s.raised := rfl
@[simp] theorem updSfe_freeCount (l : LaneId) (f : Sfe → Sfe) (s : State) :
    (updSfe l f s).freeCount = s.freeCount := rfl

@[simp] theorem updGsq_pending (l : LaneId) (f : Gsq → Gsq) (s : State) : (updGsq l f s).pending = s.pending := rfl
@[simp] theorem updGsq_clock (l : LaneId) (f : Gsq → Gsq) (s : State) : (updGsq l f s).clock = s.clock := rfl
@[simp] theorem updGsq_belt (l : LaneId) (f : Gsq → Gsq) (s : State) : (updGsq l f s).belt = s.belt := rfl
@[simp] theorem updGsq_eyes (l : LaneId) (f : Gsq → Gsq) (s : State) : (updGsq l f s).eyes = s.eyes := rfl
@[simp] theorem updGsq_track (l : LaneId) (f : Gsq → Gsq) (s : State) : (updGsq l f s).track = s.track := rfl
@[simp] theorem updGsq_geom (l : LaneId) (f : Gsq → Gsq) (s : State) : (updGsq l f s).geom = s.geom := rfl
@[simp] theorem updGsq_sfe (l : LaneId) (f : Gsq → Gsq) (s : State) : (updGsq l f s).sfe = s.sfe := rfl
@[simp] theorem updGsq_gsq (l : LaneId) (f : Gsq → Gsq) (s : State) : (updGsq l f s).gsq = s.gsq.upd l f := rfl
@[simp] theorem updGsq_cnu (l : LaneId) (f : Gsq → Gsq) (s : State) : (updGsq l f s).cnu = s.cnu := rfl
@[simp] theorem updGsq_pkr (l : LaneId) (f : Gsq → Gsq) (s : State) : (updGsq l f s).pkr = s.pkr := rfl
@[simp] theorem updGsq_lsq (l : LaneId) (f : Gsq → Gsq) (s : State) : (updGsq l f s).lsq = s.lsq := rfl
@[simp] theorem updGsq_msc (l : LaneId) (f : Gsq → Gsq) (s : State) : (updGsq l f s).msc = s.msc := rfl
@[simp] theorem updGsq_pmc (l : LaneId) (f : Gsq → Gsq) (s : State) : (updGsq l f s).pmc = s.pmc := rfl
@[simp] theorem updGsq_tally (l : LaneId) (f : Gsq → Gsq) (s : State) : (updGsq l f s).tally = s.tally := rfl
@[simp] theorem updGsq_jrn (l : LaneId) (f : Gsq → Gsq) (s : State) : (updGsq l f s).jrn = s.jrn := rfl
@[simp] theorem updGsq_hmu (l : LaneId) (f : Gsq → Gsq) (s : State) : (updGsq l f s).hmu = s.hmu := rfl
@[simp] theorem updGsq_ocu (l : LaneId) (f : Gsq → Gsq) (s : State) : (updGsq l f s).ocu = s.ocu := rfl
@[simp] theorem updGsq_stat (l : LaneId) (f : Gsq → Gsq) (s : State) : (updGsq l f s).stat = s.stat := rfl
@[simp] theorem updGsq_mwu (l : LaneId) (f : Gsq → Gsq) (s : State) : (updGsq l f s).mwu = s.mwu := rfl
@[simp] theorem updGsq_pif (l : LaneId) (f : Gsq → Gsq) (s : State) : (updGsq l f s).pif = s.pif := rfl
@[simp] theorem updGsq_mem (l : LaneId) (f : Gsq → Gsq) (s : State) : (updGsq l f s).mem = s.mem := rfl
@[simp] theorem updGsq_raised (l : LaneId) (f : Gsq → Gsq) (s : State) : (updGsq l f s).raised = s.raised := rfl
@[simp] theorem updGsq_freeCount (l : LaneId) (f : Gsq → Gsq) (s : State) :
    (updGsq l f s).freeCount = s.freeCount := rfl

@[simp] theorem updChannel_pending (l : LaneId) (g : Gate) (f : Channel → Channel) (s : State) :
    (updChannel l g f s).pending = s.pending := rfl
@[simp] theorem updChannel_clock (l : LaneId) (g : Gate) (f : Channel → Channel) (s : State) :
    (updChannel l g f s).clock = s.clock := rfl
@[simp] theorem updChannel_belt (l : LaneId) (g : Gate) (f : Channel → Channel) (s : State) :
    (updChannel l g f s).belt = s.belt := rfl
@[simp] theorem updChannel_eyes (l : LaneId) (g : Gate) (f : Channel → Channel) (s : State) :
    (updChannel l g f s).eyes = s.eyes := rfl
@[simp] theorem updChannel_track (l : LaneId) (g : Gate) (f : Channel → Channel) (s : State) :
    (updChannel l g f s).track = s.track := rfl
@[simp] theorem updChannel_geom (l : LaneId) (g : Gate) (f : Channel → Channel) (s : State) :
    (updChannel l g f s).geom = s.geom := rfl
@[simp] theorem updChannel_sfe (l : LaneId) (g : Gate) (f : Channel → Channel) (s : State) :
    (updChannel l g f s).sfe = s.sfe := rfl
@[simp] theorem updChannel_gsq (l : LaneId) (g : Gate) (f : Channel → Channel) (s : State) :
    (updChannel l g f s).gsq = s.gsq.upd l (fun q => { q with channels := vupd q.channels (gateCode g) f }) := rfl
@[simp] theorem updChannel_cnu (l : LaneId) (g : Gate) (f : Channel → Channel) (s : State) :
    (updChannel l g f s).cnu = s.cnu := rfl
@[simp] theorem updChannel_pkr (l : LaneId) (g : Gate) (f : Channel → Channel) (s : State) :
    (updChannel l g f s).pkr = s.pkr := rfl
@[simp] theorem updChannel_lsq (l : LaneId) (g : Gate) (f : Channel → Channel) (s : State) :
    (updChannel l g f s).lsq = s.lsq := rfl
@[simp] theorem updChannel_msc (l : LaneId) (g : Gate) (f : Channel → Channel) (s : State) :
    (updChannel l g f s).msc = s.msc := rfl
@[simp] theorem updChannel_pmc (l : LaneId) (g : Gate) (f : Channel → Channel) (s : State) :
    (updChannel l g f s).pmc = s.pmc := rfl
@[simp] theorem updChannel_tally (l : LaneId) (g : Gate) (f : Channel → Channel) (s : State) :
    (updChannel l g f s).tally = s.tally := rfl
@[simp] theorem updChannel_jrn (l : LaneId) (g : Gate) (f : Channel → Channel) (s : State) :
    (updChannel l g f s).jrn = s.jrn := rfl
@[simp] theorem updChannel_hmu (l : LaneId) (g : Gate) (f : Channel → Channel) (s : State) :
    (updChannel l g f s).hmu = s.hmu := rfl
@[simp] theorem updChannel_ocu (l : LaneId) (g : Gate) (f : Channel → Channel) (s : State) :
    (updChannel l g f s).ocu = s.ocu := rfl
@[simp] theorem updChannel_stat (l : LaneId) (g : Gate) (f : Channel → Channel) (s : State) :
    (updChannel l g f s).stat = s.stat := rfl
@[simp] theorem updChannel_mwu (l : LaneId) (g : Gate) (f : Channel → Channel) (s : State) :
    (updChannel l g f s).mwu = s.mwu := rfl
@[simp] theorem updChannel_pif (l : LaneId) (g : Gate) (f : Channel → Channel) (s : State) :
    (updChannel l g f s).pif = s.pif := rfl
@[simp] theorem updChannel_mem (l : LaneId) (g : Gate) (f : Channel → Channel) (s : State) :
    (updChannel l g f s).mem = s.mem := rfl
@[simp] theorem updChannel_raised (l : LaneId) (g : Gate) (f : Channel → Channel) (s : State) :
    (updChannel l g f s).raised = s.raised := rfl
@[simp] theorem updChannel_freeCount (l : LaneId) (g : Gate) (f : Channel → Channel) (s : State) :
    (updChannel l g f s).freeCount = s.freeCount := rfl

@[simp] theorem updHead_pending (l : LaneId) (h : Side) (f : Head → Head) (s : State) :
    (updHead l h f s).pending = s.pending := rfl
@[simp] theorem updHead_clock (l : LaneId) (h : Side) (f : Head → Head) (s : State) :
    (updHead l h f s).clock = s.clock := rfl
@[simp] theorem updHead_belt (l : LaneId) (h : Side) (f : Head → Head) (s : State) :
    (updHead l h f s).belt = s.belt := rfl
@[simp] theorem updHead_eyes (l : LaneId) (h : Side) (f : Head → Head) (s : State) :
    (updHead l h f s).eyes = s.eyes := rfl
@[simp] theorem updHead_track (l : LaneId) (h : Side) (f : Head → Head) (s : State) :
    (updHead l h f s).track = s.track := rfl
@[simp] theorem updHead_geom (l : LaneId) (h : Side) (f : Head → Head) (s : State) :
    (updHead l h f s).geom = s.geom := rfl
@[simp] theorem updHead_sfe (l : LaneId) (h : Side) (f : Head → Head) (s : State) :
    (updHead l h f s).sfe = s.sfe := rfl
@[simp] theorem updHead_gsq (l : LaneId) (h : Side) (f : Head → Head) (s : State) :
    (updHead l h f s).gsq = s.gsq := rfl
@[simp] theorem updHead_cnu (l : LaneId) (h : Side) (f : Head → Head) (s : State) :
    (updHead l h f s).cnu = s.cnu.upd l (fun p => p.upd h f) := rfl
@[simp] theorem updHead_pkr (l : LaneId) (h : Side) (f : Head → Head) (s : State) :
    (updHead l h f s).pkr = s.pkr := rfl
@[simp] theorem updHead_lsq (l : LaneId) (h : Side) (f : Head → Head) (s : State) :
    (updHead l h f s).lsq = s.lsq := rfl
@[simp] theorem updHead_msc (l : LaneId) (h : Side) (f : Head → Head) (s : State) :
    (updHead l h f s).msc = s.msc := rfl
@[simp] theorem updHead_pmc (l : LaneId) (h : Side) (f : Head → Head) (s : State) :
    (updHead l h f s).pmc = s.pmc := rfl
@[simp] theorem updHead_tally (l : LaneId) (h : Side) (f : Head → Head) (s : State) :
    (updHead l h f s).tally = s.tally := rfl
@[simp] theorem updHead_jrn (l : LaneId) (h : Side) (f : Head → Head) (s : State) :
    (updHead l h f s).jrn = s.jrn := rfl
@[simp] theorem updHead_hmu (l : LaneId) (h : Side) (f : Head → Head) (s : State) :
    (updHead l h f s).hmu = s.hmu := rfl
@[simp] theorem updHead_ocu (l : LaneId) (h : Side) (f : Head → Head) (s : State) :
    (updHead l h f s).ocu = s.ocu := rfl
@[simp] theorem updHead_stat (l : LaneId) (h : Side) (f : Head → Head) (s : State) :
    (updHead l h f s).stat = s.stat := rfl
@[simp] theorem updHead_mwu (l : LaneId) (h : Side) (f : Head → Head) (s : State) :
    (updHead l h f s).mwu = s.mwu := rfl
@[simp] theorem updHead_pif (l : LaneId) (h : Side) (f : Head → Head) (s : State) :
    (updHead l h f s).pif = s.pif := rfl
@[simp] theorem updHead_mem (l : LaneId) (h : Side) (f : Head → Head) (s : State) :
    (updHead l h f s).mem = s.mem := rfl
@[simp] theorem updHead_raised (l : LaneId) (h : Side) (f : Head → Head) (s : State) :
    (updHead l h f s).raised = s.raised := rfl
@[simp] theorem updHead_freeCount (l : LaneId) (h : Side) (f : Head → Head) (s : State) :
    (updHead l h f s).freeCount = s.freeCount := rfl

@[simp] theorem updPocket_pending (l : LaneId) (p : Pocket) (f : PocketRec → PocketRec) (s : State) :
    (updPocket l p f s).pending = s.pending := rfl
@[simp] theorem updPocket_clock (l : LaneId) (p : Pocket) (f : PocketRec → PocketRec) (s : State) :
    (updPocket l p f s).clock = s.clock := rfl
@[simp] theorem updPocket_belt (l : LaneId) (p : Pocket) (f : PocketRec → PocketRec) (s : State) :
    (updPocket l p f s).belt = s.belt := rfl
@[simp] theorem updPocket_eyes (l : LaneId) (p : Pocket) (f : PocketRec → PocketRec) (s : State) :
    (updPocket l p f s).eyes = s.eyes := rfl
@[simp] theorem updPocket_track (l : LaneId) (p : Pocket) (f : PocketRec → PocketRec) (s : State) :
    (updPocket l p f s).track = s.track := rfl
@[simp] theorem updPocket_geom (l : LaneId) (p : Pocket) (f : PocketRec → PocketRec) (s : State) :
    (updPocket l p f s).geom = s.geom := rfl
@[simp] theorem updPocket_sfe (l : LaneId) (p : Pocket) (f : PocketRec → PocketRec) (s : State) :
    (updPocket l p f s).sfe = s.sfe := rfl
@[simp] theorem updPocket_gsq (l : LaneId) (p : Pocket) (f : PocketRec → PocketRec) (s : State) :
    (updPocket l p f s).gsq = s.gsq := rfl
@[simp] theorem updPocket_cnu (l : LaneId) (p : Pocket) (f : PocketRec → PocketRec) (s : State) :
    (updPocket l p f s).cnu = s.cnu := rfl
@[simp] theorem updPocket_pkr (l : LaneId) (p : Pocket) (f : PocketRec → PocketRec) (s : State) :
    (updPocket l p f s).pkr = s.pkr.upd l (fun v => vupd v (pocketCode p) f) := rfl
@[simp] theorem updPocket_lsq (l : LaneId) (p : Pocket) (f : PocketRec → PocketRec) (s : State) :
    (updPocket l p f s).lsq = s.lsq := rfl
@[simp] theorem updPocket_msc (l : LaneId) (p : Pocket) (f : PocketRec → PocketRec) (s : State) :
    (updPocket l p f s).msc = s.msc := rfl
@[simp] theorem updPocket_pmc (l : LaneId) (p : Pocket) (f : PocketRec → PocketRec) (s : State) :
    (updPocket l p f s).pmc = s.pmc := rfl
@[simp] theorem updPocket_tally (l : LaneId) (p : Pocket) (f : PocketRec → PocketRec) (s : State) :
    (updPocket l p f s).tally = s.tally := rfl
@[simp] theorem updPocket_jrn (l : LaneId) (p : Pocket) (f : PocketRec → PocketRec) (s : State) :
    (updPocket l p f s).jrn = s.jrn := rfl
@[simp] theorem updPocket_hmu (l : LaneId) (p : Pocket) (f : PocketRec → PocketRec) (s : State) :
    (updPocket l p f s).hmu = s.hmu := rfl
@[simp] theorem updPocket_ocu (l : LaneId) (p : Pocket) (f : PocketRec → PocketRec) (s : State) :
    (updPocket l p f s).ocu = s.ocu := rfl
@[simp] theorem updPocket_stat (l : LaneId) (p : Pocket) (f : PocketRec → PocketRec) (s : State) :
    (updPocket l p f s).stat = s.stat := rfl
@[simp] theorem updPocket_mwu (l : LaneId) (p : Pocket) (f : PocketRec → PocketRec) (s : State) :
    (updPocket l p f s).mwu = s.mwu := rfl
@[simp] theorem updPocket_pif (l : LaneId) (p : Pocket) (f : PocketRec → PocketRec) (s : State) :
    (updPocket l p f s).pif = s.pif := rfl
@[simp] theorem updPocket_mem (l : LaneId) (p : Pocket) (f : PocketRec → PocketRec) (s : State) :
    (updPocket l p f s).mem = s.mem := rfl
@[simp] theorem updPocket_raised (l : LaneId) (p : Pocket) (f : PocketRec → PocketRec) (s : State) :
    (updPocket l p f s).raised = s.raised := rfl
@[simp] theorem updPocket_freeCount (l : LaneId) (p : Pocket) (f : PocketRec → PocketRec) (s : State) :
    (updPocket l p f s).freeCount = s.freeCount := rfl

@[simp] theorem updLsq_pending (l : LaneId) (f : Lsq → Lsq) (s : State) : (updLsq l f s).pending = s.pending := rfl
@[simp] theorem updLsq_clock (l : LaneId) (f : Lsq → Lsq) (s : State) : (updLsq l f s).clock = s.clock := rfl
@[simp] theorem updLsq_belt (l : LaneId) (f : Lsq → Lsq) (s : State) : (updLsq l f s).belt = s.belt := rfl
@[simp] theorem updLsq_eyes (l : LaneId) (f : Lsq → Lsq) (s : State) : (updLsq l f s).eyes = s.eyes := rfl
@[simp] theorem updLsq_track (l : LaneId) (f : Lsq → Lsq) (s : State) : (updLsq l f s).track = s.track := rfl
@[simp] theorem updLsq_geom (l : LaneId) (f : Lsq → Lsq) (s : State) : (updLsq l f s).geom = s.geom := rfl
@[simp] theorem updLsq_sfe (l : LaneId) (f : Lsq → Lsq) (s : State) : (updLsq l f s).sfe = s.sfe := rfl
@[simp] theorem updLsq_gsq (l : LaneId) (f : Lsq → Lsq) (s : State) : (updLsq l f s).gsq = s.gsq := rfl
@[simp] theorem updLsq_cnu (l : LaneId) (f : Lsq → Lsq) (s : State) : (updLsq l f s).cnu = s.cnu := rfl
@[simp] theorem updLsq_pkr (l : LaneId) (f : Lsq → Lsq) (s : State) : (updLsq l f s).pkr = s.pkr := rfl
@[simp] theorem updLsq_lsq (l : LaneId) (f : Lsq → Lsq) (s : State) : (updLsq l f s).lsq = s.lsq.upd l f := rfl
@[simp] theorem updLsq_msc (l : LaneId) (f : Lsq → Lsq) (s : State) : (updLsq l f s).msc = s.msc := rfl
@[simp] theorem updLsq_pmc (l : LaneId) (f : Lsq → Lsq) (s : State) : (updLsq l f s).pmc = s.pmc := rfl
@[simp] theorem updLsq_tally (l : LaneId) (f : Lsq → Lsq) (s : State) : (updLsq l f s).tally = s.tally := rfl
@[simp] theorem updLsq_jrn (l : LaneId) (f : Lsq → Lsq) (s : State) : (updLsq l f s).jrn = s.jrn := rfl
@[simp] theorem updLsq_hmu (l : LaneId) (f : Lsq → Lsq) (s : State) : (updLsq l f s).hmu = s.hmu := rfl
@[simp] theorem updLsq_ocu (l : LaneId) (f : Lsq → Lsq) (s : State) : (updLsq l f s).ocu = s.ocu := rfl
@[simp] theorem updLsq_stat (l : LaneId) (f : Lsq → Lsq) (s : State) : (updLsq l f s).stat = s.stat := rfl
@[simp] theorem updLsq_mwu (l : LaneId) (f : Lsq → Lsq) (s : State) : (updLsq l f s).mwu = s.mwu := rfl
@[simp] theorem updLsq_pif (l : LaneId) (f : Lsq → Lsq) (s : State) : (updLsq l f s).pif = s.pif := rfl
@[simp] theorem updLsq_mem (l : LaneId) (f : Lsq → Lsq) (s : State) : (updLsq l f s).mem = s.mem := rfl
@[simp] theorem updLsq_raised (l : LaneId) (f : Lsq → Lsq) (s : State) : (updLsq l f s).raised = s.raised := rfl
@[simp] theorem updLsq_freeCount (l : LaneId) (f : Lsq → Lsq) (s : State) :
    (updLsq l f s).freeCount = s.freeCount := rfl

@[simp] theorem updMsc_pending (f : Msc → Msc) (s : State) : (updMsc f s).pending = s.pending := rfl
@[simp] theorem updMsc_clock (f : Msc → Msc) (s : State) : (updMsc f s).clock = s.clock := rfl
@[simp] theorem updMsc_belt (f : Msc → Msc) (s : State) : (updMsc f s).belt = s.belt := rfl
@[simp] theorem updMsc_eyes (f : Msc → Msc) (s : State) : (updMsc f s).eyes = s.eyes := rfl
@[simp] theorem updMsc_track (f : Msc → Msc) (s : State) : (updMsc f s).track = s.track := rfl
@[simp] theorem updMsc_geom (f : Msc → Msc) (s : State) : (updMsc f s).geom = s.geom := rfl
@[simp] theorem updMsc_sfe (f : Msc → Msc) (s : State) : (updMsc f s).sfe = s.sfe := rfl
@[simp] theorem updMsc_gsq (f : Msc → Msc) (s : State) : (updMsc f s).gsq = s.gsq := rfl
@[simp] theorem updMsc_cnu (f : Msc → Msc) (s : State) : (updMsc f s).cnu = s.cnu := rfl
@[simp] theorem updMsc_pkr (f : Msc → Msc) (s : State) : (updMsc f s).pkr = s.pkr := rfl
@[simp] theorem updMsc_lsq (f : Msc → Msc) (s : State) : (updMsc f s).lsq = s.lsq := rfl
@[simp] theorem updMsc_msc (f : Msc → Msc) (s : State) : (updMsc f s).msc = f s.msc := rfl
@[simp] theorem updMsc_pmc (f : Msc → Msc) (s : State) : (updMsc f s).pmc = s.pmc := rfl
@[simp] theorem updMsc_tally (f : Msc → Msc) (s : State) : (updMsc f s).tally = s.tally := rfl
@[simp] theorem updMsc_jrn (f : Msc → Msc) (s : State) : (updMsc f s).jrn = s.jrn := rfl
@[simp] theorem updMsc_hmu (f : Msc → Msc) (s : State) : (updMsc f s).hmu = s.hmu := rfl
@[simp] theorem updMsc_ocu (f : Msc → Msc) (s : State) : (updMsc f s).ocu = s.ocu := rfl
@[simp] theorem updMsc_stat (f : Msc → Msc) (s : State) : (updMsc f s).stat = s.stat := rfl
@[simp] theorem updMsc_mwu (f : Msc → Msc) (s : State) : (updMsc f s).mwu = s.mwu := rfl
@[simp] theorem updMsc_pif (f : Msc → Msc) (s : State) : (updMsc f s).pif = s.pif := rfl
@[simp] theorem updMsc_mem (f : Msc → Msc) (s : State) : (updMsc f s).mem = s.mem := rfl
@[simp] theorem updMsc_raised (f : Msc → Msc) (s : State) : (updMsc f s).raised = s.raised := rfl
@[simp] theorem updMsc_freeCount (f : Msc → Msc) (s : State) : (updMsc f s).freeCount = s.freeCount := rfl

@[simp] theorem updPmc_pending (f : Pmc → Pmc) (s : State) : (updPmc f s).pending = s.pending := rfl
@[simp] theorem updPmc_clock (f : Pmc → Pmc) (s : State) : (updPmc f s).clock = s.clock := rfl
@[simp] theorem updPmc_belt (f : Pmc → Pmc) (s : State) : (updPmc f s).belt = s.belt := rfl
@[simp] theorem updPmc_eyes (f : Pmc → Pmc) (s : State) : (updPmc f s).eyes = s.eyes := rfl
@[simp] theorem updPmc_track (f : Pmc → Pmc) (s : State) : (updPmc f s).track = s.track := rfl
@[simp] theorem updPmc_geom (f : Pmc → Pmc) (s : State) : (updPmc f s).geom = s.geom := rfl
@[simp] theorem updPmc_sfe (f : Pmc → Pmc) (s : State) : (updPmc f s).sfe = s.sfe := rfl
@[simp] theorem updPmc_gsq (f : Pmc → Pmc) (s : State) : (updPmc f s).gsq = s.gsq := rfl
@[simp] theorem updPmc_cnu (f : Pmc → Pmc) (s : State) : (updPmc f s).cnu = s.cnu := rfl
@[simp] theorem updPmc_pkr (f : Pmc → Pmc) (s : State) : (updPmc f s).pkr = s.pkr := rfl
@[simp] theorem updPmc_lsq (f : Pmc → Pmc) (s : State) : (updPmc f s).lsq = s.lsq := rfl
@[simp] theorem updPmc_msc (f : Pmc → Pmc) (s : State) : (updPmc f s).msc = s.msc := rfl
@[simp] theorem updPmc_pmc (f : Pmc → Pmc) (s : State) : (updPmc f s).pmc = f s.pmc := rfl
@[simp] theorem updPmc_tally (f : Pmc → Pmc) (s : State) : (updPmc f s).tally = s.tally := rfl
@[simp] theorem updPmc_jrn (f : Pmc → Pmc) (s : State) : (updPmc f s).jrn = s.jrn := rfl
@[simp] theorem updPmc_hmu (f : Pmc → Pmc) (s : State) : (updPmc f s).hmu = s.hmu := rfl
@[simp] theorem updPmc_ocu (f : Pmc → Pmc) (s : State) : (updPmc f s).ocu = s.ocu := rfl
@[simp] theorem updPmc_stat (f : Pmc → Pmc) (s : State) : (updPmc f s).stat = s.stat := rfl
@[simp] theorem updPmc_mwu (f : Pmc → Pmc) (s : State) : (updPmc f s).mwu = s.mwu := rfl
@[simp] theorem updPmc_pif (f : Pmc → Pmc) (s : State) : (updPmc f s).pif = s.pif := rfl
@[simp] theorem updPmc_mem (f : Pmc → Pmc) (s : State) : (updPmc f s).mem = s.mem := rfl
@[simp] theorem updPmc_raised (f : Pmc → Pmc) (s : State) : (updPmc f s).raised = s.raised := rfl
@[simp] theorem updPmc_freeCount (f : Pmc → Pmc) (s : State) : (updPmc f s).freeCount = s.freeCount := rfl

@[simp] theorem updJrn_pending (f : Journal → Journal) (s : State) : (updJrn f s).pending = s.pending := rfl
@[simp] theorem updJrn_clock (f : Journal → Journal) (s : State) : (updJrn f s).clock = s.clock := rfl
@[simp] theorem updJrn_belt (f : Journal → Journal) (s : State) : (updJrn f s).belt = s.belt := rfl
@[simp] theorem updJrn_eyes (f : Journal → Journal) (s : State) : (updJrn f s).eyes = s.eyes := rfl
@[simp] theorem updJrn_track (f : Journal → Journal) (s : State) : (updJrn f s).track = s.track := rfl
@[simp] theorem updJrn_geom (f : Journal → Journal) (s : State) : (updJrn f s).geom = s.geom := rfl
@[simp] theorem updJrn_sfe (f : Journal → Journal) (s : State) : (updJrn f s).sfe = s.sfe := rfl
@[simp] theorem updJrn_gsq (f : Journal → Journal) (s : State) : (updJrn f s).gsq = s.gsq := rfl
@[simp] theorem updJrn_cnu (f : Journal → Journal) (s : State) : (updJrn f s).cnu = s.cnu := rfl
@[simp] theorem updJrn_pkr (f : Journal → Journal) (s : State) : (updJrn f s).pkr = s.pkr := rfl
@[simp] theorem updJrn_lsq (f : Journal → Journal) (s : State) : (updJrn f s).lsq = s.lsq := rfl
@[simp] theorem updJrn_msc (f : Journal → Journal) (s : State) : (updJrn f s).msc = s.msc := rfl
@[simp] theorem updJrn_pmc (f : Journal → Journal) (s : State) : (updJrn f s).pmc = s.pmc := rfl
@[simp] theorem updJrn_tally (f : Journal → Journal) (s : State) : (updJrn f s).tally = s.tally := rfl
@[simp] theorem updJrn_jrn (f : Journal → Journal) (s : State) : (updJrn f s).jrn = f s.jrn := rfl
@[simp] theorem updJrn_hmu (f : Journal → Journal) (s : State) : (updJrn f s).hmu = s.hmu := rfl
@[simp] theorem updJrn_ocu (f : Journal → Journal) (s : State) : (updJrn f s).ocu = s.ocu := rfl
@[simp] theorem updJrn_stat (f : Journal → Journal) (s : State) : (updJrn f s).stat = s.stat := rfl
@[simp] theorem updJrn_mwu (f : Journal → Journal) (s : State) : (updJrn f s).mwu = s.mwu := rfl
@[simp] theorem updJrn_pif (f : Journal → Journal) (s : State) : (updJrn f s).pif = s.pif := rfl
@[simp] theorem updJrn_mem (f : Journal → Journal) (s : State) : (updJrn f s).mem = s.mem := rfl
@[simp] theorem updJrn_raised (f : Journal → Journal) (s : State) : (updJrn f s).raised = s.raised := rfl
@[simp] theorem updJrn_freeCount (f : Journal → Journal) (s : State) : (updJrn f s).freeCount = s.freeCount := rfl

@[simp] theorem updHmu_pending (f : Hmu → Hmu) (s : State) : (updHmu f s).pending = s.pending := rfl
@[simp] theorem updHmu_clock (f : Hmu → Hmu) (s : State) : (updHmu f s).clock = s.clock := rfl
@[simp] theorem updHmu_belt (f : Hmu → Hmu) (s : State) : (updHmu f s).belt = s.belt := rfl
@[simp] theorem updHmu_eyes (f : Hmu → Hmu) (s : State) : (updHmu f s).eyes = s.eyes := rfl
@[simp] theorem updHmu_track (f : Hmu → Hmu) (s : State) : (updHmu f s).track = s.track := rfl
@[simp] theorem updHmu_geom (f : Hmu → Hmu) (s : State) : (updHmu f s).geom = s.geom := rfl
@[simp] theorem updHmu_sfe (f : Hmu → Hmu) (s : State) : (updHmu f s).sfe = s.sfe := rfl
@[simp] theorem updHmu_gsq (f : Hmu → Hmu) (s : State) : (updHmu f s).gsq = s.gsq := rfl
@[simp] theorem updHmu_cnu (f : Hmu → Hmu) (s : State) : (updHmu f s).cnu = s.cnu := rfl
@[simp] theorem updHmu_pkr (f : Hmu → Hmu) (s : State) : (updHmu f s).pkr = s.pkr := rfl
@[simp] theorem updHmu_lsq (f : Hmu → Hmu) (s : State) : (updHmu f s).lsq = s.lsq := rfl
@[simp] theorem updHmu_msc (f : Hmu → Hmu) (s : State) : (updHmu f s).msc = s.msc := rfl
@[simp] theorem updHmu_pmc (f : Hmu → Hmu) (s : State) : (updHmu f s).pmc = s.pmc := rfl
@[simp] theorem updHmu_tally (f : Hmu → Hmu) (s : State) : (updHmu f s).tally = s.tally := rfl
@[simp] theorem updHmu_jrn (f : Hmu → Hmu) (s : State) : (updHmu f s).jrn = s.jrn := rfl
@[simp] theorem updHmu_hmu (f : Hmu → Hmu) (s : State) : (updHmu f s).hmu = f s.hmu := rfl
@[simp] theorem updHmu_ocu (f : Hmu → Hmu) (s : State) : (updHmu f s).ocu = s.ocu := rfl
@[simp] theorem updHmu_stat (f : Hmu → Hmu) (s : State) : (updHmu f s).stat = s.stat := rfl
@[simp] theorem updHmu_mwu (f : Hmu → Hmu) (s : State) : (updHmu f s).mwu = s.mwu := rfl
@[simp] theorem updHmu_pif (f : Hmu → Hmu) (s : State) : (updHmu f s).pif = s.pif := rfl
@[simp] theorem updHmu_mem (f : Hmu → Hmu) (s : State) : (updHmu f s).mem = s.mem := rfl
@[simp] theorem updHmu_raised (f : Hmu → Hmu) (s : State) : (updHmu f s).raised = s.raised := rfl
@[simp] theorem updHmu_freeCount (f : Hmu → Hmu) (s : State) : (updHmu f s).freeCount = s.freeCount := rfl

@[simp] theorem updOcu_pending (f : Ocu → Ocu) (s : State) : (updOcu f s).pending = s.pending := rfl
@[simp] theorem updOcu_clock (f : Ocu → Ocu) (s : State) : (updOcu f s).clock = s.clock := rfl
@[simp] theorem updOcu_belt (f : Ocu → Ocu) (s : State) : (updOcu f s).belt = s.belt := rfl
@[simp] theorem updOcu_eyes (f : Ocu → Ocu) (s : State) : (updOcu f s).eyes = s.eyes := rfl
@[simp] theorem updOcu_track (f : Ocu → Ocu) (s : State) : (updOcu f s).track = s.track := rfl
@[simp] theorem updOcu_geom (f : Ocu → Ocu) (s : State) : (updOcu f s).geom = s.geom := rfl
@[simp] theorem updOcu_sfe (f : Ocu → Ocu) (s : State) : (updOcu f s).sfe = s.sfe := rfl
@[simp] theorem updOcu_gsq (f : Ocu → Ocu) (s : State) : (updOcu f s).gsq = s.gsq := rfl
@[simp] theorem updOcu_cnu (f : Ocu → Ocu) (s : State) : (updOcu f s).cnu = s.cnu := rfl
@[simp] theorem updOcu_pkr (f : Ocu → Ocu) (s : State) : (updOcu f s).pkr = s.pkr := rfl
@[simp] theorem updOcu_lsq (f : Ocu → Ocu) (s : State) : (updOcu f s).lsq = s.lsq := rfl
@[simp] theorem updOcu_msc (f : Ocu → Ocu) (s : State) : (updOcu f s).msc = s.msc := rfl
@[simp] theorem updOcu_pmc (f : Ocu → Ocu) (s : State) : (updOcu f s).pmc = s.pmc := rfl
@[simp] theorem updOcu_tally (f : Ocu → Ocu) (s : State) : (updOcu f s).tally = s.tally := rfl
@[simp] theorem updOcu_jrn (f : Ocu → Ocu) (s : State) : (updOcu f s).jrn = s.jrn := rfl
@[simp] theorem updOcu_hmu (f : Ocu → Ocu) (s : State) : (updOcu f s).hmu = s.hmu := rfl
@[simp] theorem updOcu_ocu (f : Ocu → Ocu) (s : State) : (updOcu f s).ocu = f s.ocu := rfl
@[simp] theorem updOcu_stat (f : Ocu → Ocu) (s : State) : (updOcu f s).stat = s.stat := rfl
@[simp] theorem updOcu_mwu (f : Ocu → Ocu) (s : State) : (updOcu f s).mwu = s.mwu := rfl
@[simp] theorem updOcu_pif (f : Ocu → Ocu) (s : State) : (updOcu f s).pif = s.pif := rfl
@[simp] theorem updOcu_mem (f : Ocu → Ocu) (s : State) : (updOcu f s).mem = s.mem := rfl
@[simp] theorem updOcu_raised (f : Ocu → Ocu) (s : State) : (updOcu f s).raised = s.raised := rfl
@[simp] theorem updOcu_freeCount (f : Ocu → Ocu) (s : State) : (updOcu f s).freeCount = s.freeCount := rfl

@[simp] theorem updStat_pending (f : StatusUnit → StatusUnit) (s : State) : (updStat f s).pending = s.pending := rfl
@[simp] theorem updStat_clock (f : StatusUnit → StatusUnit) (s : State) : (updStat f s).clock = s.clock := rfl
@[simp] theorem updStat_belt (f : StatusUnit → StatusUnit) (s : State) : (updStat f s).belt = s.belt := rfl
@[simp] theorem updStat_eyes (f : StatusUnit → StatusUnit) (s : State) : (updStat f s).eyes = s.eyes := rfl
@[simp] theorem updStat_track (f : StatusUnit → StatusUnit) (s : State) : (updStat f s).track = s.track := rfl
@[simp] theorem updStat_geom (f : StatusUnit → StatusUnit) (s : State) : (updStat f s).geom = s.geom := rfl
@[simp] theorem updStat_sfe (f : StatusUnit → StatusUnit) (s : State) : (updStat f s).sfe = s.sfe := rfl
@[simp] theorem updStat_gsq (f : StatusUnit → StatusUnit) (s : State) : (updStat f s).gsq = s.gsq := rfl
@[simp] theorem updStat_cnu (f : StatusUnit → StatusUnit) (s : State) : (updStat f s).cnu = s.cnu := rfl
@[simp] theorem updStat_pkr (f : StatusUnit → StatusUnit) (s : State) : (updStat f s).pkr = s.pkr := rfl
@[simp] theorem updStat_lsq (f : StatusUnit → StatusUnit) (s : State) : (updStat f s).lsq = s.lsq := rfl
@[simp] theorem updStat_msc (f : StatusUnit → StatusUnit) (s : State) : (updStat f s).msc = s.msc := rfl
@[simp] theorem updStat_pmc (f : StatusUnit → StatusUnit) (s : State) : (updStat f s).pmc = s.pmc := rfl
@[simp] theorem updStat_tally (f : StatusUnit → StatusUnit) (s : State) : (updStat f s).tally = s.tally := rfl
@[simp] theorem updStat_jrn (f : StatusUnit → StatusUnit) (s : State) : (updStat f s).jrn = s.jrn := rfl
@[simp] theorem updStat_hmu (f : StatusUnit → StatusUnit) (s : State) : (updStat f s).hmu = s.hmu := rfl
@[simp] theorem updStat_ocu (f : StatusUnit → StatusUnit) (s : State) : (updStat f s).ocu = s.ocu := rfl
@[simp] theorem updStat_stat (f : StatusUnit → StatusUnit) (s : State) : (updStat f s).stat = f s.stat := rfl
@[simp] theorem updStat_mwu (f : StatusUnit → StatusUnit) (s : State) : (updStat f s).mwu = s.mwu := rfl
@[simp] theorem updStat_pif (f : StatusUnit → StatusUnit) (s : State) : (updStat f s).pif = s.pif := rfl
@[simp] theorem updStat_mem (f : StatusUnit → StatusUnit) (s : State) : (updStat f s).mem = s.mem := rfl
@[simp] theorem updStat_raised (f : StatusUnit → StatusUnit) (s : State) : (updStat f s).raised = s.raised := rfl
@[simp] theorem updStat_freeCount (f : StatusUnit → StatusUnit) (s : State) :
    (updStat f s).freeCount = s.freeCount := rfl

@[simp] theorem updPif_pending (f : Pif → Pif) (s : State) : (updPif f s).pending = s.pending := rfl
@[simp] theorem updPif_clock (f : Pif → Pif) (s : State) : (updPif f s).clock = s.clock := rfl
@[simp] theorem updPif_belt (f : Pif → Pif) (s : State) : (updPif f s).belt = s.belt := rfl
@[simp] theorem updPif_eyes (f : Pif → Pif) (s : State) : (updPif f s).eyes = s.eyes := rfl
@[simp] theorem updPif_track (f : Pif → Pif) (s : State) : (updPif f s).track = s.track := rfl
@[simp] theorem updPif_geom (f : Pif → Pif) (s : State) : (updPif f s).geom = s.geom := rfl
@[simp] theorem updPif_sfe (f : Pif → Pif) (s : State) : (updPif f s).sfe = s.sfe := rfl
@[simp] theorem updPif_gsq (f : Pif → Pif) (s : State) : (updPif f s).gsq = s.gsq := rfl
@[simp] theorem updPif_cnu (f : Pif → Pif) (s : State) : (updPif f s).cnu = s.cnu := rfl
@[simp] theorem updPif_pkr (f : Pif → Pif) (s : State) : (updPif f s).pkr = s.pkr := rfl
@[simp] theorem updPif_lsq (f : Pif → Pif) (s : State) : (updPif f s).lsq = s.lsq := rfl
@[simp] theorem updPif_msc (f : Pif → Pif) (s : State) : (updPif f s).msc = s.msc := rfl
@[simp] theorem updPif_pmc (f : Pif → Pif) (s : State) : (updPif f s).pmc = s.pmc := rfl
@[simp] theorem updPif_tally (f : Pif → Pif) (s : State) : (updPif f s).tally = s.tally := rfl
@[simp] theorem updPif_jrn (f : Pif → Pif) (s : State) : (updPif f s).jrn = s.jrn := rfl
@[simp] theorem updPif_hmu (f : Pif → Pif) (s : State) : (updPif f s).hmu = s.hmu := rfl
@[simp] theorem updPif_ocu (f : Pif → Pif) (s : State) : (updPif f s).ocu = s.ocu := rfl
@[simp] theorem updPif_stat (f : Pif → Pif) (s : State) : (updPif f s).stat = s.stat := rfl
@[simp] theorem updPif_mwu (f : Pif → Pif) (s : State) : (updPif f s).mwu = s.mwu := rfl
@[simp] theorem updPif_pif (f : Pif → Pif) (s : State) : (updPif f s).pif = f s.pif := rfl
@[simp] theorem updPif_mem (f : Pif → Pif) (s : State) : (updPif f s).mem = s.mem := rfl
@[simp] theorem updPif_raised (f : Pif → Pif) (s : State) : (updPif f s).raised = s.raised := rfl
@[simp] theorem updPif_freeCount (f : Pif → Pif) (s : State) : (updPif f s).freeCount = s.freeCount := rfl

@[simp] theorem raise_pending (a : Attn) (s : State) : (raise a s).pending = s.pending := rfl
@[simp] theorem raise_clock (a : Attn) (s : State) : (raise a s).clock = s.clock := rfl
@[simp] theorem raise_belt (a : Attn) (s : State) : (raise a s).belt = s.belt := rfl
@[simp] theorem raise_eyes (a : Attn) (s : State) : (raise a s).eyes = s.eyes := rfl
@[simp] theorem raise_track (a : Attn) (s : State) : (raise a s).track = s.track := rfl
@[simp] theorem raise_geom (a : Attn) (s : State) : (raise a s).geom = s.geom := rfl
@[simp] theorem raise_sfe (a : Attn) (s : State) : (raise a s).sfe = s.sfe := rfl
@[simp] theorem raise_gsq (a : Attn) (s : State) : (raise a s).gsq = s.gsq := rfl
@[simp] theorem raise_cnu (a : Attn) (s : State) : (raise a s).cnu = s.cnu := rfl
@[simp] theorem raise_pkr (a : Attn) (s : State) : (raise a s).pkr = s.pkr := rfl
@[simp] theorem raise_lsq (a : Attn) (s : State) : (raise a s).lsq = s.lsq := rfl
@[simp] theorem raise_msc (a : Attn) (s : State) : (raise a s).msc = s.msc := rfl
@[simp] theorem raise_pmc (a : Attn) (s : State) : (raise a s).pmc = s.pmc := rfl
@[simp] theorem raise_tally (a : Attn) (s : State) : (raise a s).tally = s.tally := rfl
@[simp] theorem raise_jrn (a : Attn) (s : State) : (raise a s).jrn = s.jrn := rfl
@[simp] theorem raise_hmu (a : Attn) (s : State) : (raise a s).hmu = s.hmu := rfl
@[simp] theorem raise_ocu (a : Attn) (s : State) : (raise a s).ocu = s.ocu := rfl
@[simp] theorem raise_stat (a : Attn) (s : State) : (raise a s).stat = s.stat := rfl
@[simp] theorem raise_mwu (a : Attn) (s : State) : (raise a s).mwu = s.mwu := rfl
@[simp] theorem raise_pif (a : Attn) (s : State) : (raise a s).pif = s.pif := rfl
@[simp] theorem raise_mem (a : Attn) (s : State) : (raise a s).mem = s.mem := rfl
@[simp] theorem raise_raised (a : Attn) (s : State) : (raise a s).raised = s.raised ||| attnBit a := rfl
@[simp] theorem raise_freeCount (a : Attn) (s : State) : (raise a s).freeCount = s.freeCount := rfl

end Machine

end Sys2Proof
end

