-- ==== Sys2Proof/Laws/Parts.lean ====
section
/-! SUPPORT. What each update, and the end of an event, changes: the base lemmas from which Laws/Frame.lean derives the
frame of every shared operation. -/

namespace Sys2Proof.Machine

theorem agree_refl (p : Part) (s : State) : agree p s s := by cases p <;> simp [agree]

theorem agree_trans {p : Part} {s t u : State} (h : agree p s t) (k : agree p t u) : agree p s u := by
  cases p <;> simp_all [agree]

theorem only_refl (ps : Part → Prop) (s : State) : Only ps s s := fun p _ => agree_refl p s

theorem only_trans {ps : Part → Prop} {s t u : State} (h : Only ps s t) (k : Only ps t u) : Only ps s u :=
  fun p hp => agree_trans (h p hp) (k p hp)

theorem only_mono {ps qs : Part → Prop} {s t : State} (h : Only ps s t) (hs : ∀ p, ps p → qs p) : Only qs s t :=
  fun p hp => h p (fun hq => hp (hs p hq))

theorem only_ite {ps : Part → Prop} {s a b : State} (c : Prop) [Decidable c] (ha : Only ps s a) (hb : Only ps s b) :
    Only ps s (if c then a else b) := by
  split <;> assumption

theorem only_foldl {α : Type} {ps : Part → Prop} {s t : State} (f : State → α → State) (xs : List α) (h : Only ps s t)
    (step : ∀ u x, Only ps s u → Only ps s (f u x)) : Only ps s (xs.foldl f t) := by
  induction xs generalizing t with
  | nil => exact h
  | cons x xs ih => exact ih (step t x h)

section
variable {ps : Part → Prop} {s t : State}

theorem writeBytes_only (a : Nat) (bs : List Byte) (h : Only ps s t) (h1 : ps .mem) : Only ps s (writeBytes a bs t) := by
  refine only_trans h (fun p hp => ?_)
  cases p <;> simp_all [agree]

theorem updBelt_only (l : LaneId) (f : Belt → Belt) (h : Only ps s t) (h1 : ps (.belt l)) : Only ps s (updBelt l f t) := by
  refine only_trans h (fun p hp => ?_)
  cases p <;> simp_all [agree]
  rename_i k
  exact PerLane.get_upd_other _ _ (fun e => hp (e ▸ h1))

theorem updEye_only (l : LaneId) (y : Eye) (f : EyeState → EyeState) (h : Only ps s t) (h1 : ps (.eyes l)) :
    Only ps s (updEye l y f t) := by
  refine only_trans h (fun p hp => ?_)
  cases p <;> simp_all [agree]
  rename_i k
  exact PerLane.get_upd_other _ _ (fun e => hp (e ▸ h1))

theorem updTrack_only (l : LaneId) (f : Track → Track) (h : Only ps s t) (h1 : ps (.track l)) :
    Only ps s (updTrack l f t) := by
  refine only_trans h (fun p hp => ?_)
  cases p <;> simp_all [agree]
  rename_i k
  exact PerLane.get_upd_other _ _ (fun e => hp (e ▸ h1))

theorem updSfe_only (l : LaneId) (f : Sfe → Sfe) (h : Only ps s t) (h1 : ps (.sfe l)) : Only ps s (updSfe l f t) := by
  refine only_trans h (fun p hp => ?_)
  cases p <;> simp_all [agree]
  rename_i k
  exact PerLane.get_upd_other _ _ (fun e => hp (e ▸ h1))

theorem updGsq_only (l : LaneId) (f : Gsq → Gsq) (h : Only ps s t) (h1 : ps (.gates l)) : Only ps s (updGsq l f t) := by
  refine only_trans h (fun p hp => ?_)
  cases p <;> simp_all [agree]
  rename_i k
  exact PerLane.get_upd_other _ _ (fun e => hp (e ▸ h1))

theorem updChannel_only (l : LaneId) (g : Gate) (f : Channel → Channel) (h : Only ps s t) (h1 : ps (.gates l)) :
    Only ps s (updChannel l g f t) := updGsq_only l _ h h1

theorem updHead_only (l : LaneId) (d : Side) (f : Head → Head) (h : Only ps s t) (h1 : ps (.heads l)) :
    Only ps s (updHead l d f t) := by
  refine only_trans h (fun p hp => ?_)
  cases p <;> simp_all [agree]
  rename_i k
  exact PerLane.get_upd_other _ _ (fun e => hp (e ▸ h1))

theorem updPocket_only (l : LaneId) (q : Pocket) (f : PocketRec → PocketRec) (h : Only ps s t) (h1 : ps (.pockets l)) :
    Only ps s (updPocket l q f t) := by
  refine only_trans h (fun p hp => ?_)
  cases p <;> simp_all [agree]
  rename_i k
  exact PerLane.get_upd_other _ _ (fun e => hp (e ▸ h1))

theorem updLsq_only (l : LaneId) (f : Lsq → Lsq) (h : Only ps s t) (h1 : ps (.lane l)) (h2 : ps (.idle l)) :
    Only ps s (updLsq l f t) := by
  refine only_trans h (fun p hp => ?_)
  cases p <;> simp_all [agree]
  case lane k => rw [PerLane.get_upd_other _ _ (fun e => hp (by subst e; exact h1))]; simp
  case idle k => rw [PerLane.get_upd_other _ _ (fun e => hp (by subst e; exact h2))]

theorem updMsc_only (f : Msc → Msc) (h : Only ps s t) (h1 : ps .scorer) : Only ps s (updMsc f t) := by
  refine only_trans h (fun p hp => ?_)
  cases p <;> simp_all [agree]

theorem updPmc_only (f : Pmc → Pmc) (h : Only ps s t) (h1 : ps .postmark) : Only ps s (updPmc f t) := by
  refine only_trans h (fun p hp => ?_)
  cases p <;> simp_all [agree]

theorem updJrn_only (f : Journal → Journal) (h : Only ps s t) (h1 : ps .journal) : Only ps s (updJrn f t) := by
  refine only_trans h (fun p hp => ?_)
  cases p <;> simp_all [agree]

/-- A change of the Health Monitor Unit that leaves the records. -/
theorem updHmu_only (f : Hmu → Hmu) (h : Only ps s t) (h1 : ps .tests) (hf : ∀ m, (f m).attrs = m.attrs) :
    Only ps s (updHmu f t) := by
  refine only_trans h (fun p hp => ?_)
  cases p <;> simp_all [agree]

theorem updAttr_only (l : LaneId) (a : AttrId) (f : AttrRec → AttrRec) (h : Only ps s t) (h1 : ps (.attrs l)) :
    Only ps s (updAttr l a f t) := by
  refine only_trans h (fun p hp => ?_)
  cases p <;> simp_all [agree, updAttr]
  rename_i k
  exact PerLane.get_upd_other _ _ (fun e => hp (e ▸ h1))

theorem updOcu_only (f : Ocu → Ocu) (h : Only ps s t) (h1 : ps .orders) : Only ps s (updOcu f t) := by
  refine only_trans h (fun p hp => ?_)
  cases p <;> simp_all [agree]

theorem updStat_only (f : StatusUnit → StatusUnit) (h : Only ps s t) (h1 : ps .statusDue) (h2 : ps .statusUnit) :
    Only ps s (updStat f t) := by
  refine only_trans h (fun p hp => ?_)
  cases p <;> simp_all [agree]

theorem updPif_only (f : Pif → Pif) (h : Only ps s t) (h1 : ps .registers)
    (hf : ∀ p, (f p).attn = p.attn ∧ (f p).msiSent = p.msiSent ∧ (f p).msiLast = p.msiLast) :
    Only ps s (updPif f t) := by
  refine only_trans h (fun p hp => ?_)
  cases p <;> simp_all [agree]

theorem raise_only (a : Attn) (h : Only ps s t) (h1 : ps .raised) : Only ps s (raise a t) := by
  refine only_trans h (fun p hp => ?_)
  cases p <;> simp_all [agree]

theorem setHold_only (l : LaneId) (r : HoldReason) (on : Bool) (h : Only ps s t) (h1 : ps (.lane l)) (h2 : ps .raised) :
    Only ps s (setHold l r on t) := by
  unfold setHold
  split
  · exact h
  · refine raise_only _ (only_trans h (fun p hp => ?_)) h2
    cases p <;> simp_all [agree]
    case lane k => rw [PerLane.get_upd_other _ _ (fun e => hp (by subst e; exact h1))]; simp
    case idle k =>
      by_cases hk : k = l
      · subst hk; simp
      · rw [PerLane.get_upd_other _ _ hk]

theorem drawFree_only (h : Only ps s t) (h1 : ps .free) : Only ps s (drawFree t).2 := by
  refine only_trans h (fun p hp => ?_)
  cases p <;> simp_all [agree, drawFree]

theorem countUp_only (l : LaneId) (c : Tally) (h : Only ps s t) (h1 : ps (.tally l)) : Only ps s (countUp l c t) := by
  unfold countUp
  split
  · exact h
  · refine only_trans h (fun p hp => ?_)
    cases p <;> simp_all [agree]
    rename_i k
    exact PerLane.get_upd_other _ _ (fun e => hp (e ▸ h1))

end

/-! ### The end of an event -/

theorem settleIdle_only {ps : Part → Prop} {s t : State} (l : LaneId) (h : Only ps s t) (h1 : ps (.idle l)) :
    Only ps s (settleIdle l t) := by
  unfold settleIdle
  split
  · exact h
  · refine only_trans h (fun p hp => ?_)
    clear * - hp h1
    cases p <;> simp_all [agree]
    case lane k =>
      by_cases hk : k = l
      · subst hk; simp
      · rw [PerLane.get_upd_other _ _ hk]; simp
    case idle k => rw [PerLane.get_upd_other _ _ (fun e => hp (by subst e; exact h1))]

/-- The end of an event changes only the parts of `eventEnd`. -/
theorem settle_only {ps : Part → Prop} {s t : State} (old : State) (h : Only ps s t)
    (he : ∀ p ∈ eventEnd, ps p) : Only ps s (settle old t) := by
  have h0 := he (.idle .lane0) (by decide)
  have h1 := he (.idle .lane1) (by decide)
  have h2 := he .statusDue (by decide)
  have h3 := he .attn (by decide)
  have h4 := he .msi (by decide)
  have h5 := he .raised (by decide)
  unfold settle
  have hs := settleIdle_only .lane1 (settleIdle_only .lane0 h h0) h1
  generalize settleIdle .lane1 (settleIdle .lane0 t) = u at hs
  have hv : Only ps s (settleStatus old u) := by
    refine only_trans hs (fun p hp => ?_)
    unfold settleStatus
    dsimp only
    split <;> cases p <;> simp_all [agree]
  generalize settleStatus old u = v at hv
  refine only_trans hv (fun p hp => ?_)
  unfold settleMsi
  split
  · cases p <;> simp_all [agree]
  · exact agree_refl p v

theorem settle_raised (old s : State) : (settle old s).raised = 0 := by
  unfold settle settleMsi settleStatus
  dsimp only
  split <;> split <;> rfl

/-- What a meaning answers: the event with its end, or nothing changed. -/
theorem event_next {comes : Bool} {body : State → State} {s t : State} (h : event comes body s = .next t) :
    (comes = true ∧ t = settle s (body s)) ∨ (comes = false ∧ t = s) := by
  unfold event at h
  cases comes
  · right; simpa using h.symm
  · left; simpa using h.symm

/-- An event that comes about answers its body with the end of the event. -/
theorem event_comes {body : State → State} (s : State) : event true body s = .next (settle s (body s)) := rfl

end Sys2Proof.Machine
end

