-- ==== Sys2Proof/Laws/Frame.lean ====
section
/-! SUPPORT. The frame of every shared operation: the parts of the state it may change. Each lemma carries a frame along:
where only the parts `ps` changed from `s` to `t`, and `ps` holds the parts the operation may change, only the parts `ps`
changed from `s` to the operation's answer at `t`. -/

namespace Sys2Proof.Machine

variable {ps : Part → Prop} {s t : State}

theorem takePage_only  (h : Only ps s t) (h1 : ps .raised) (h2 : ps .journal) :
    Only ps s (takePage t) := by
  unfold takePage
  dsimp only
  repeat' first
    | with_reducible assumption | with_reducible apply updJrn_only | with_reducible apply raise_only
    | with_reducible apply only_ite | split

theorem closePage_only (why : FillReason) (h : Only ps s t) (h1 : ps .raised) (h2 : ps .journal) :
    Only ps s (closePage why t) := by
  unfold closePage
  dsimp only
  repeat' first
    | with_reducible assumption | with_reducible apply updJrn_only | with_reducible apply raise_only
    | with_reducible apply takePage_only | with_reducible apply only_ite | split

theorem recordWithoutPage_only (r : Rec) (h : Only ps s t) (h1 : ∀ l m e, r = .item l m e → ps (.tally l))
    (h2 : ps .journal) : Only ps s (recordWithoutPage r t) := by
  cases r with
  | item l m e => exact countUp_only l _ (updJrn_only _ h h2) (h1 l m e rfl)
  | event e => exact updJrn_only _ h h2

theorem appendRecord_only (r : Rec) (h : Only ps s t) (h1 : ps .journal) :
    Only ps s (appendRecord r t) := by
  unfold appendRecord
  repeat' first
    | with_reducible assumption | with_reducible apply updJrn_only

theorem placeRecord_only (r : Rec) (h : Only ps s t) (h1 : ps .raised) (h2 : ps .journal)
    (h3 : ∀ l m e, r = .item l m e → ps (.tally l)) : Only ps s (placeRecord r t) := by
  unfold placeRecord
  dsimp only
  have hc := closePage_only .full h h1 h2
  split
  · exact recordWithoutPage_only r h h3 h2
  · split
    · exact appendRecord_only r h h2
    · split
      · exact recordWithoutPage_only r hc h3 h2
      · exact appendRecord_only r hc h2

theorem emit_only (code : EventCode) (lane : Option LaneId) (subject serial arg1 arg2 : Nat) (h : Only ps s t)
    (h1 : ps .raised) (h2 : ps .journal) : Only ps s (emit code lane subject serial arg1 arg2 t) :=
  placeRecord_only _ h h1 h2 (fun _ _ _ e => by cases e)

theorem windowFault_only (lane : Option LaneId) (k : Access) (a : Nat) (h : Only ps s t) (h1 : ps .raised)
    (h2 : ps .journal) :
    Only ps s (windowFault lane k a t) := by
  unfold windowFault
  repeat' first
    | with_reducible assumption | with_reducible apply raise_only | with_reducible apply emit_only

theorem chainFault_only (cause : FaultCause) (addr : Nat) (h : Only ps s t) (h1 : ps .raised) (h2 : ps .orders)
    (h3 : ps .registers) :
    Only ps s (chainFault cause addr t) := by
  unfold chainFault
  repeat' first
    | with_reducible assumption | with_reducible apply updOcu_only | with_reducible apply updPif_only
    | with_reducible apply raise_only | exact fun _ => ⟨rfl, rfl, rfl⟩

theorem orderCompleted_only (addr : Nat) (notify : Bool) (h : Only ps s t) (h1 : ps .raised) (h2 : ps .orders) :
    Only ps s (orderCompleted addr notify t) := by
  unfold orderCompleted
  dsimp only
  repeat' first
    | with_reducible assumption | with_reducible apply updOcu_only | with_reducible apply raise_only
    | with_reducible apply only_ite

theorem orderWriteRefused_only (lane : Option LaneId) (addr : Nat) (h : Only ps s t) (h1 : ps .raised) (h2 : ps .journal)
    (h3 : ps .orders) (h4 : ps .registers) :
    Only ps s (orderWriteRefused lane addr t) := by
  unfold orderWriteRefused
  repeat' first
    | with_reducible assumption | with_reducible apply windowFault_only | with_reducible apply chainFault_only

theorem detailValue_only (detail : Option Nat) (h : Only ps s t) (h1 : ps .free) : Only ps s
    (detailValue detail t).2 := by
  unfold detailValue
  split
  · exact h
  · exact drawFree_only h h1

theorem finalWrite_only (lane : Option LaneId) (addr : Nat) (notify : Bool) (st : BlockState) (code : ResultCode)
    (detail : Option Nat) (extra : List Byte) (h : Only ps s t) (h1 : ps .mem) (h2 : ps .raised) (h3 : ps .free) (h4 : ps .journal)
    (h5 : ps .orders) (h6 : ps .registers) : Only ps s (finalWrite lane addr notify st code detail extra t) := by
  unfold finalWrite
  dsimp only
  have hd := detailValue_only detail h h3
  repeat' first
    | with_reducible assumption | with_reducible apply orderCompleted_only | with_reducible apply orderWriteRefused_only
    | with_reducible apply writeBytes_only | with_reducible apply only_ite

theorem stopIfHalted_only  (h : Only ps s t) (h1 : ps .orders) :
    Only ps s (stopIfHalted t) := by
  unfold stopIfHalted
  repeat' first
    | with_reducible assumption | with_reducible apply updOcu_only | with_reducible apply only_ite

theorem leaveBlock_only (written : Bool) (h : Only ps s t) (h1 : ps .orders) :
    Only ps s (leaveBlock written t) := by
  unfold leaveBlock
  repeat' first
    | with_reducible assumption | with_reducible apply updOcu_only

theorem finishWith_only (st : BlockState) (code : ResultCode) (detail : Option Nat) (extra : List Byte)
    (h : Only ps s t) (h1 : ps .mem) (h2 : ps .raised) (h3 : ps .free) (h4 : ps .journal) (h5 : ps .orders)
    (h6 : ps .registers) :
    Only ps s (finishWith st code detail extra t) := by
  unfold finishWith
  dsimp only
  repeat' first
    | with_reducible assumption | with_reducible apply finalWrite_only | with_reducible apply stopIfHalted_only
    | with_reducible apply leaveBlock_only | with_reducible apply only_ite | split

theorem orderDone_only (detail : Option Nat) (h : Only ps s t) (h1 : ps .mem) (h2 : ps .raised) (h3 : ps .free)
    (h4 : ps .journal) (h5 : ps .orders) (h6 : ps .registers) :
    Only ps s (orderDone detail t) := by
  unfold orderDone
  repeat' first
    | with_reducible assumption | with_reducible apply finishWith_only

theorem orderRefused_only (code : ResultCode) (detail : Option Nat) (h : Only ps s t) (h1 : ps .mem)
    (h2 : ps .raised) (h3 : ps .free) (h4 : ps .journal) (h5 : ps .orders) (h6 : ps .registers) :
    Only ps s (orderRefused code detail t) := by
  unfold orderRefused
  repeat' first
    | with_reducible assumption | with_reducible apply finishWith_only

theorem orderTaken_only (key : LongKey) (h : Only ps s t) (h1 : ps .mem) (h2 : ps .raised) (h3 : ps .free)
    (h4 : ps .journal) (h5 : ps .orders) (h6 : ps .registers) : Only ps s (orderTaken key t) := by
  unfold orderTaken
  dsimp only
  have hd := drawFree_only h h3
  split
  · exact h
  · repeat' first
      | with_reducible assumption | with_reducible apply stopIfHalted_only | with_reducible apply leaveBlock_only
      | with_reducible apply updOcu_only | with_reducible apply orderWriteRefused_only
      | with_reducible apply writeBytes_only | with_reducible apply only_ite

theorem endLong_only (key : LongKey) (st : BlockState) (code : ResultCode) (detail : Option Nat) (h : Only ps s t)
    (h1 : ps .mem) (h2 : ps .raised) (h3 : ps .free) (h4 : ps .journal) (h5 : ps .orders) (h6 : ps .registers) :
    Only ps s (endLong key st code detail t) := by
  unfold endLong
  repeat' first
    | with_reducible assumption | with_reducible apply updOcu_only | with_reducible apply finalWrite_only | split

theorem endPending_only (l : LaneId) (st : BlockState) (code : ResultCode) (detail : Option Nat) (h : Only ps s t)
    (h1 : ps .mem) (h2 : ps .raised) (h3 : ps .free) (h4 : ps (.lane l)) (h5 : ps (.idle l)) (h6 : ps .journal)
    (h7 : ps .orders) (h8 : ps .registers) :
    Only ps s (endPending l st code detail t) := by
  unfold endPending
  repeat' first
    | with_reducible assumption | with_reducible apply updLsq_only | with_reducible apply endLong_only
    | with_reducible apply only_ite

theorem restartDark_only (l : LaneId) (h : Only ps s t) (h1 : ps (.eyes l)) :
    Only ps s (restartDark l t) := by
  unfold restartDark
  repeat' first
    | with_reducible assumption | with_reducible apply updEye_only | with_reducible apply only_foldl
    | with_reducible apply only_ite | intro _ _ _

theorem beginRise_only (l : LaneId) (outside : Bool) (h : Only ps s t) (h1 : ps (.lane l)) (h2 : ps (.idle l)) :
    Only ps s (beginRise l outside t) := by
  unfold beginRise
  dsimp only
  repeat' first
    | with_reducible assumption | with_reducible apply updLsq_only | with_reducible apply only_ite

theorem setLane_only (l : LaneId) (new : LaneMode) (h : Only ps s t) (h1 : ps .raised) (h2 : ps (.lane l))
    (h3 : ps (.idle l)) (h4 : new = .warming → ps (.eyes l)) : Only ps s (setLane l new t) := by
  have body : Only ps s (if aimsOn new then
      beginRise l (new != .warming)
        (if laneMode l t = .running ∧ new ≠ .running then
          setHold l .wake false (raise .laneState (updLsq l (fun q => { q with mode := new }) t))
        else raise .laneState (updLsq l (fun q => { q with mode := new }) t))
      else
        (if laneMode l t = .running ∧ new ≠ .running then
          setHold l .wake false (raise .laneState (updLsq l (fun q => { q with mode := new }) t))
        else raise .laneState (updLsq l (fun q => { q with mode := new }) t))) := by
    repeat' first
      | with_reducible assumption | with_reducible apply only_ite | with_reducible apply beginRise_only
      | with_reducible apply setHold_only | with_reducible apply raise_only | with_reducible apply updLsq_only
  unfold setLane
  dsimp only
  split
  · exact restartDark_only l body (h4 (by assumption))
  · exact body

theorem laneEvent_only (l : LaneId) (old new : LaneMode) (cause : LaneCause) (h : Only ps s t) (h1 : ps .raised)
    (h2 : ps .journal) :
    Only ps s (laneEvent l old new cause t) := by
  unfold laneEvent
  repeat' first
    | with_reducible assumption | with_reducible apply emit_only

theorem changeLane_only (l : LaneId) (new : LaneMode) (cause : LaneCause) (h : Only ps s t) (h1 : ps .raised)
    (h2 : ps (.lane l)) (h3 : ps (.idle l)) (h4 : ps .journal) (h5 : new = .warming → ps (.eyes l)) :
    Only ps s (changeLane l new cause t) :=
  laneEvent_only l _ new cause (setLane_only l new h h1 h2 h3 h5) h1 h4

theorem lampTo_only (l : LaneId) (level : LampPower) (h : Only ps s t) (h1 : ps .raised) (h2 : ps (.sfe l))
    (h3 : ps (.lane l)) (h4 : ps (.idle l)) (h5 : ps .journal) :
    Only ps s (lampTo l level t) := by
  unfold lampTo
  dsimp only
  repeat' first
    | with_reducible assumption | with_reducible apply updSfe_only | with_reducible apply updLsq_only
    | with_reducible apply emit_only | with_reducible apply only_ite

theorem laneEndClose_only  (h : Only ps s t) (h1 : ps .raised) (h2 : ps .journal) :
    Only ps s (laneEndClose t) := by
  unfold laneEndClose
  repeat' first
    | with_reducible assumption | with_reducible apply closePage_only | with_reducible apply only_ite | split

theorem drainTest_only (l : LaneId) (h : Only ps s t) (h1 : ps .mem) (h2 : ps .raised) (h3 : ps .free) (h4 : ps
    (.lane l)) (h5 : ps (.idle l)) (h6 : ps .journal) (h7 : ps .orders) (h8 : ps .registers) :
    Only ps s (drainTest l t) := by
  unfold drainTest
  repeat' first
    | with_reducible assumption | with_reducible apply endPending_only | with_reducible apply changeLane_only
    | with_reducible apply laneEndClose_only | with_reducible apply only_ite | exact fun e => nomatch e

theorem retireLane_only (l : LaneId) (h : Only ps s t) (h1 : ps .mem) (h2 : ps .raised) (h3 : ps .free) (h4 : ps
    (.lane l)) (h5 : ps (.idle l)) (h6 : ps .journal) (h7 : ps .orders) (h8 : ps .registers) :
    Only ps s (retireLane l t) := by
  unfold retireLane
  dsimp only
  repeat' first
    | with_reducible assumption | with_reducible apply updLsq_only | with_reducible apply endPending_only
    | with_reducible apply changeLane_only | with_reducible apply drainTest_only | with_reducible apply only_ite
    | split | exact fun e => nomatch e

theorem startRunning_only (l : LaneId) (h : Only ps s t) (h1 : ps .raised) (h2 : ps (.lane l)) (h3 : ps (.idle l)) :
    Only ps s (startRunning l t) := by
  unfold startRunning
  dsimp only
  repeat' first
    | with_reducible assumption | with_reducible apply setHold_only | with_reducible apply setLane_only
    | with_reducible apply only_ite | exact fun e => nomatch e

theorem enterRunning_only (l : LaneId) (cause : LaneCause) (h : Only ps s t) (h1 : ps .raised) (h2 : ps (.lane l))
    (h3 : ps (.idle l)) (h4 : ps .journal) :
    Only ps s (enterRunning l cause t) := by
  unfold enterRunning
  exact laneEvent_only _ _ _ _ (startRunning_only _ h h1 h2 h3) h1 h4

theorem warmTest_only (l : LaneId) (h : Only ps s t) (h1 : ps .mem) (h2 : ps .raised) (h3 : ps .free) (h4 : ps
    (.lane l)) (h5 : ps (.idle l)) (h6 : ps .journal) (h7 : ps .orders) (h8 : ps .registers) :
    Only ps s (warmTest l t) := by
  unfold warmTest
  dsimp only
  repeat' first
    | with_reducible assumption | with_reducible apply updLsq_only | with_reducible apply endPending_only
    | with_reducible apply changeLane_only | with_reducible apply laneEvent_only | with_reducible apply startRunning_only
    | with_reducible apply only_ite | exact fun e => nomatch e

theorem warmHeads_only (l : LaneId) (h : Only ps s t) (h1 : ps .mem) (h2 : ps .raised) (h3 : ps .free) (h4 : ps
    (.heads l)) (h5 : ps (.lane l)) (h6 : ps (.idle l)) (h7 : ps .journal) (h8 : ps .orders) (h9 : ps .registers) :
    Only ps s (warmHeads l t) := by
  unfold warmHeads
  dsimp only
  repeat' first
    | with_reducible assumption | with_reducible apply updHead_only | with_reducible apply updLsq_only
    | with_reducible apply warmTest_only

theorem warmCalibration_only (l : LaneId) (h : Only ps s t) (h1 : ps (.sfe l)) (h2 : ps (.lane l)) (h3 : ps
    (.idle l)) :
    Only ps s (warmCalibration l t) := by
  unfold warmCalibration
  repeat' first
    | with_reducible assumption | with_reducible apply updSfe_only | with_reducible apply updLsq_only

theorem startWarming_only (l : LaneId) (h : Only ps s t) (h1 : ps .raised) (h2 : ps (.eyes l)) (h3 : ps (.sfe l))
    (h4 : ps (.lane l)) (h5 : ps (.idle l)) (h6 : ps .journal) :
    Only ps s (startWarming l t) := by
  unfold startWarming
  dsimp only
  repeat' first
    | with_reducible assumption | with_reducible apply updLsq_only | with_reducible apply changeLane_only
    | with_reducible apply warmCalibration_only | split | exact fun _ => h2

theorem healthHold_only (l : LaneId) (h : Only ps s t) (h1 : ps .raised) (h2 : ps (.lane l)) :
    Only ps s (healthHold l t) := by
  unfold healthHold
  repeat' first
    | with_reducible assumption | with_reducible apply setHold_only

theorem retireElement_only (l : LaneId) (a : AttrId) (h : Only ps s t) (h1 : ps .mem) (h2 : ps .raised)
    (h3 : ps .free) (h4 : ps (.gates l)) (h5 : ps (.heads l)) (h6 : ps (.lane l)) (h7 : ps (.idle l))
    (h8 : ps .journal) (h9 : ps .orders) (h10 : ps .registers) :
    Only ps s (retireElement l a t) := by
  unfold retireElement
  repeat' first
    | with_reducible assumption | with_reducible apply updGsq_only | with_reducible apply updHead_only
    | with_reducible apply retireLane_only | split

theorem retireRecord_only (l : LaneId) (a : AttrId) (h : Only ps s t) (h1 : ps .mem) (h2 : ps .raised)
    (h3 : ps .free) (h4 : ps (.gates l)) (h5 : ps (.heads l)) (h6 : ps (.lane l)) (h7 : ps (.idle l)) (h8 : ps
    (.attrs l)) (h9 : ps .journal) (h10 : ps .orders) (h11 : ps .registers) :
    Only ps s (retireRecord l a t) := by
  unfold retireRecord
  dsimp only
  repeat' first
    | with_reducible assumption | with_reducible apply updAttr_only | with_reducible apply raise_only
    | with_reducible apply emit_only | with_reducible apply retireElement_only

theorem enterFailing_only (l : LaneId) (a : AttrId) (h : Only ps s t) (h1 : ps .mem) (h2 : ps .raised)
    (h3 : ps .free) (h4 : ps (.gates l)) (h5 : ps (.heads l)) (h6 : ps (.lane l)) (h7 : ps (.idle l)) (h8 : ps
    (.attrs l)) (h9 : ps .journal) (h10 : ps .orders) (h11 : ps .registers) :
    Only ps s (enterFailing l a t) := by
  unfold enterFailing
  dsimp only
  repeat' first
    | with_reducible assumption | with_reducible apply updAttr_only | with_reducible apply raise_only
    | with_reducible apply emit_only | with_reducible apply healthHold_only
    | with_reducible apply retireRecord_only | split

theorem failingTest_only (l : LaneId) (a : AttrId) (h : Only ps s t) (h1 : ps .mem) (h2 : ps .raised)
    (h3 : ps .free) (h4 : ps (.gates l)) (h5 : ps (.heads l)) (h6 : ps (.lane l)) (h7 : ps (.idle l)) (h8 : ps
    (.attrs l)) (h9 : ps .journal) (h10 : ps .orders) (h11 : ps .registers) :
    Only ps s (failingTest l a t) := by
  unfold failingTest
  repeat' first
    | with_reducible assumption | with_reducible apply updAttr_only | with_reducible apply raise_only
    | with_reducible apply healthHold_only | with_reducible apply enterFailing_only | split

theorem evaluate_only (l : LaneId) (a : AttrId) (raw normal : Int) (h : Only ps s t) (h1 : ps .mem)
    (h2 : ps .raised) (h3 : ps .free) (h4 : ps (.gates l)) (h5 : ps (.heads l)) (h6 : ps (.lane l)) (h7 : ps
    (.idle l)) (h8 : ps (.attrs l)) (h9 : ps .journal) (h10 : ps .orders) (h11 : ps .registers) :
    Only ps s (evaluate l a raw normal t) := by
  unfold evaluate
  dsimp only
  repeat' first
    | with_reducible assumption | with_reducible apply updAttr_only | with_reducible apply failingTest_only

theorem countBlock_only (l : LaneId) (a : AttrId) (h : Only ps s t) (h1 : ps .mem) (h2 : ps .raised)
    (h3 : ps .free) (h4 : ps (.gates l)) (h5 : ps (.heads l)) (h6 : ps (.lane l)) (h7 : ps (.idle l)) (h8 : ps
    (.attrs l)) (h9 : ps .journal) (h10 : ps .orders) (h11 : ps .registers) :
    Only ps s (countBlock l a t) := by
  unfold countBlock
  dsimp only
  repeat' first
    | with_reducible assumption | with_reducible apply updAttr_only | with_reducible apply evaluate_only
    | with_reducible apply only_ite

theorem blockEvent_only (l : LaneId) (a : AttrId) (h : Only ps s t) (h1 : ps (.attrs l)) :
    Only ps s (blockEvent l a t) := by
  unfold blockEvent
  repeat' first
    | with_reducible assumption | with_reducible apply updAttr_only

theorem writeLog_only (entry : LogEntry) (h : Only ps s t) (h1 : ps .tests) :
    Only ps s (writeLog entry t) := by
  unfold writeLog
  dsimp only
  repeat' first
    | with_reducible assumption | with_reducible apply updHmu_only | exact fun _ => rfl

theorem withdrawIdle_only (r : IdleRequest) (h : Only ps s t) (h1 : ps .scorer) :
    Only ps s (withdrawIdle r t) := by
  unfold withdrawIdle
  repeat' first
    | with_reducible assumption | with_reducible apply updMsc_only

theorem endLaneTest_only (l : LaneId) (r : TestResult) (how : TestExit) (h : Only ps s t) (h1 : ps .mem)
    (h2 : ps .raised) (h3 : ps .free) (h4 : ps (.sfe l)) (h5 : ps (.lane l)) (h6 : ps (.idle l)) (h7 : ps .scorer)
    (h8 : ps .journal) (h9 : ps .tests) (h10 : ps .orders) (h11 : ps .registers) :
    Only ps s (endLaneTest l r how t) := by
  unfold endLaneTest
  dsimp only
  repeat' first
    | with_reducible assumption | with_reducible apply updSfe_only | with_reducible apply updHmu_only
    | with_reducible apply raise_only | with_reducible apply setHold_only | with_reducible apply emit_only
    | with_reducible apply endLong_only | with_reducible apply changeLane_only | with_reducible apply writeLog_only
    | with_reducible apply withdrawIdle_only | with_reducible apply only_ite | exact fun _ => rfl | split
    | exact fun e => nomatch e

theorem auditRecords_only (a : Audit) (r : TestResult) (h : Only ps s t) (h1 : ps .raised) (h2 : ps .scorer)
    (h3 : ps .journal) (h4 : ps .tests) :
    Only ps s (auditRecords a r t) := by
  unfold auditRecords
  dsimp only
  repeat' first
    | with_reducible assumption | with_reducible apply updHmu_only | with_reducible apply emit_only
    | with_reducible apply writeLog_only | with_reducible apply withdrawIdle_only | exact fun _ => rfl

theorem endAudit_only (r : TestResult) (h : Only ps s t) (h1 : ps .mem) (h2 : ps .raised) (h3 : ps .free)
    (h4 : ps .scorer) (h5 : ps .journal) (h6 : ps .tests) (h7 : ps .orders) (h8 : ps .registers) :
    Only ps s (endAudit r t) := by
  unfold endAudit
  dsimp only
  repeat' first
    | with_reducible assumption | with_reducible apply raise_only | with_reducible apply endLong_only
    | with_reducible apply auditRecords_only | with_reducible apply only_ite | split

theorem setPocketState_only (l : LaneId) (p : Pocket) (st : PocketState) (h : Only ps s t) (h1 : ps .raised)
    (h2 : ps (.pockets l)) :
    Only ps s (setPocketState l p st t) := by
  unfold setPocketState
  repeat' first
    | with_reducible assumption | with_reducible apply updPocket_only | with_reducible apply raise_only
    | with_reducible apply only_ite

theorem followWarn_only (l : LaneId) (p : Pocket) (h : Only ps s t) (h1 : ps .raised) (h2 : ps (.pockets l)) :
    Only ps s (followWarn l p t) := by
  unfold followWarn
  dsimp only
  repeat' first
    | with_reducible assumption | with_reducible apply updPocket_only | with_reducible apply raise_only
    | with_reducible apply only_ite

theorem fullTest_only (l : LaneId) (p : Pocket) (h : Only ps s t) (h1 : ps .raised) (h2 : ps (.pockets l)) :
    Only ps s (fullTest l p t) := by
  unfold fullTest
  dsimp only
  repeat' first
    | with_reducible assumption | with_reducible apply setPocketState_only | with_reducible apply only_ite

theorem drainedTest_only (l : LaneId) (p : Pocket) (h : Only ps s t) (h1 : ps .raised) (h2 : ps (.pockets l)) :
    Only ps s (drainedTest l p t) := by
  unfold drainedTest
  dsimp only
  repeat' first
    | with_reducible assumption | with_reducible apply setPocketState_only | with_reducible apply only_ite

theorem reserve_only (l : LaneId) (p : Pocket) (serial : Nat) (h : Only ps s t) (h1 : ps .raised) (h2 : ps
    (.pockets l)) :
    Only ps s (reserve l p serial t) := by
  unfold reserve
  repeat' first
    | with_reducible assumption | with_reducible apply updPocket_only | with_reducible apply fullTest_only

theorem releaseAt_only (l : LaneId) (p : Pocket) (serial : Nat) (h : Only ps s t) (h1 : ps .raised) (h2 : ps
    (.pockets l)) :
    Only ps s (releaseAt l p serial t) := by
  unfold releaseAt
  repeat' first
    | with_reducible assumption | with_reducible apply updPocket_only | with_reducible apply drainedTest_only
    | with_reducible apply only_ite

theorem releaseReservation_only (l : LaneId) (serial : Nat) (h : Only ps s t) (h1 : ps .raised) (h2 : ps
    (.pockets l)) :
    Only ps s (releaseReservation l serial t) := by
  unfold releaseReservation
  repeat' first
    | with_reducible assumption | with_reducible apply releaseAt_only | with_reducible apply only_foldl
    | intro _ _ _

theorem endReached_only (l : LaneId) (p : Pocket) (was : Bool) (h : Only ps s t) (h1 : ps .raised) (h2 : ps
    (.lane l)) (h3 : ps .journal) :
    Only ps s (endReached l p was t) := by
  unfold endReached
  dsimp only
  repeat' first
    | with_reducible assumption | with_reducible apply setHold_only | with_reducible apply emit_only
    | with_reducible apply only_ite

theorem endReleased_only (l : LaneId) (h : Only ps s t) (h1 : ps .raised) (h2 : ps (.lane l)) :
    Only ps s (endReleased l t) := by
  unfold endReleased
  dsimp only
  repeat' first
    | with_reducible assumption | with_reducible apply setHold_only | with_reducible apply only_ite

theorem gatedArrival_only (l : LaneId) (p : Pocket) (serial : Nat) (h : Only ps s t) (h1 : ps .raised) (h2 : ps
    (.pockets l)) (h3 : ps (.tally l)) (h4 : ps .journal) :
    Only ps s (gatedArrival l p serial t) := by
  unfold gatedArrival
  dsimp only
  repeat' first
    | with_reducible assumption | with_reducible apply updPocket_only | with_reducible apply countUp_only
    | with_reducible apply emit_only | with_reducible apply followWarn_only | with_reducible apply fullTest_only
    | with_reducible apply drainedTest_only | with_reducible apply only_ite

theorem endArrival_only (l : LaneId) (p : Pocket) (serial : Nat) (h : Only ps s t) (h1 : ps .raised) (h2 : ps
    (.pockets l)) (h3 : ps (.lane l)) (h4 : ps (.tally l)) (h5 : ps .journal) :
    Only ps s (endArrival l p serial t) := by
  unfold endArrival
  dsimp only
  repeat' first
    | with_reducible assumption | with_reducible apply updPocket_only | with_reducible apply countUp_only
    | with_reducible apply emit_only | with_reducible apply followWarn_only | with_reducible apply endReached_only
    | with_reducible apply only_ite

theorem pocketArrival_only (l : LaneId) (p : Pocket) (serial : Nat) (h : Only ps s t) (h1 : ps .raised) (h2 : ps
    (.pockets l)) (h3 : ps (.lane l)) (h4 : ps (.tally l)) (h5 : ps .journal) :
    Only ps s (pocketArrival l p serial t) := by
  unfold pocketArrival
  repeat' first
    | with_reducible assumption | with_reducible apply gatedArrival_only | with_reducible apply endArrival_only
    | with_reducible apply only_ite

theorem swapPocket_only (l : LaneId) (p : Pocket) (h : Only ps s t) (h1 : ps .raised) (h2 : ps (.pockets l)) :
    Only ps s (swapPocket l p t) := by
  unfold swapPocket
  repeat' first
    | with_reducible assumption | with_reducible apply updPocket_only | with_reducible apply setPocketState_only
    | with_reducible apply drainedTest_only | split

theorem setCapacity_only (l : LaneId) (p : Pocket) (capacity : Nat) (h : Only ps s t) (h1 : ps (.pockets l)) :
    Only ps s (setCapacity l p capacity t) := by
  unfold setCapacity
  exact updPocket_only l p _ h h1

theorem followCapacity_only (l : LaneId) (p : Pocket) (was : Bool) (h : Only ps s t) (h1 : ps .raised) (h2 : ps
    (.pockets l)) (h3 : ps (.lane l)) (h4 : ps .journal) :
    Only ps s (followCapacity l p was t) := by
  unfold followCapacity
  dsimp only
  repeat' first
    | with_reducible assumption | with_reducible apply setPocketState_only
    | with_reducible apply followWarn_only | with_reducible apply fullTest_only
    | with_reducible apply endReached_only | with_reducible apply endReleased_only | with_reducible apply only_ite

theorem applyCapacity_only (l : LaneId) (p : Pocket) (capacity : Nat) (h : Only ps s t) (h1 : ps .raised) (h2 : ps
    (.pockets l)) (h3 : ps (.lane l)) (h4 : ps .journal) :
    Only ps s (applyCapacity l p capacity t) := by
  unfold applyCapacity
  exact followCapacity_only l p _ (setCapacity_only l p capacity h h2) h1 h2 h3 h4

theorem updEntry_only (l : LaneId) (serial : Nat) (f : Entry → Entry) (h : Only ps s t) (h1 : ps (.track l)) :
    Only ps s (updEntry l serial f t) := by
  unfold updEntry
  repeat' first
    | with_reducible assumption | with_reducible apply updTrack_only

theorem withdrawAt_only (l : LaneId) (d : Side) (serial : Nat) (h : Only ps s t) (h1 : ps (.track l))
    (h2 : ps (.heads l)) : Only ps s (withdrawAt l d serial t) := by
  unfold withdrawAt
  dsimp only
  repeat' first
    | with_reducible assumption | with_reducible apply updHead_only | with_reducible apply updEntry_only
    | with_reducible apply only_ite

theorem withdrawPrint_only (l : LaneId) (serial : Nat) (h : Only ps s t) (h1 : ps (.track l)) (h2 : ps (.heads l)) :
    Only ps s (withdrawPrint l serial t) := by
  unfold withdrawPrint
  repeat' first
    | with_reducible assumption | with_reducible apply withdrawAt_only

theorem writeCause_only (l : LaneId) (serial : Nat) (cause : RerouteCause) (subject : Nat) (h : Only ps s t)
    (h1 : ps .raised) (h2 : ps (.track l)) (h3 : ps (.tally l)) (h4 : ps (.attrs l)) (h5 : ps .journal) :
    Only ps s (writeCause l serial cause subject t) := by
  unfold writeCause
  dsimp only
  repeat' first
    | with_reducible assumption | with_reducible apply countUp_only | with_reducible apply emit_only
    | with_reducible apply blockEvent_only | with_reducible apply updEntry_only | split

theorem dropHead_only (l : LaneId) (g : Gate) (items : List Nat) (h : Only ps s t) (h1 : ps (.track l)) (h2 : ps
    (.gates l)) :
    Only ps s (dropHead l g items t) := by
  unfold dropHead
  repeat' first
    | with_reducible assumption | with_reducible apply updChannel_only | with_reducible apply updEntry_only
    | with_reducible apply only_foldl | intro _ _ _

theorem fireHead_only (l : LaneId) (g : Gate) (h : Only ps s t) (h1 : ps (.gates l)) :
    Only ps s (fireHead l g t) := by
  unfold fireHead
  dsimp only
  repeat' first
    | with_reducible assumption | with_reducible apply updChannel_only

theorem onEvent_only (l : LaneId) (g : Gate) (w : Window) (h : Only ps s t) (h1 : ps (.track l)) (h2 : ps
    (.gates l)) :
    Only ps s (onEvent l g w t).1 := by
  unfold onEvent
  split
  · exact dropHead_only l g _ h h1 h2
  · exact fireHead_only l g h h2

theorem loadHead_only (l : LaneId) (g : Gate) (h : Only ps s t) (h1 : ps (.track l)) (h2 : ps (.gates l)) :
    Only ps s (loadHead l g t).1 := by
  unfold loadHead
  dsimp only
  split
  · exact h
  · split
    · exact h
    · split
      · exact updChannel_only l g _ h h2
      · split
        · exact onEvent_only l g _ h h1 h2
        · exact dropHead_only l g _ h h1 h2

theorem removeWindow_only (l : LaneId) (serial : Nat) (g : Gate) (h : Only ps s t) (h1 : ps (.track l))
    (h2 : ps (.gates l)) : Only ps s (removeWindow l serial g t).1 := by
  unfold removeWindow
  split
  · exact h
  · split
    · exact h
    · exact updEntry_only l serial _ (updChannel_only l g _ h h2) h1

theorem secondCause_only (l : LaneId) (serial : Nat) (cause : RerouteCause) (subject : Nat) (h : Only ps s t)
    (h1 : ps .raised) (h2 : ps .journal) : Only ps s (secondCause l serial cause subject t) := by
  unfold secondCause
  repeat' first
    | with_reducible assumption | with_reducible apply emit_only | with_reducible apply only_ite

theorem rerouteItem_only (l : LaneId) (serial : Nat) (cause : RerouteCause) (subject : Nat) (h : Only ps s t)
    (h1 : ps .raised) (h2 : ps (.track l)) (h3 : ps (.tally l)) (h4 : ps (.attrs l)) (h5 : ps .journal) :
    Only ps s (rerouteItem l serial cause subject t).1 := by
  unfold rerouteItem
  dsimp only
  split
  · exact h
  · split
    · exact secondCause_only l serial cause subject h h1 h5
    · exact writeCause_only l serial cause subject h h1 h2 h3 h4 h5

theorem oneWork_only (l : LaneId) (w : GateWork) (h : Only ps s t) (h1 : ps .raised) (h2 : ps (.track l)) (h3 : ps
    (.gates l)) (h4 : ps (.heads l)) (h5 : ps (.pockets l)) (h6 : ps (.tally l)) (h7 : ps (.attrs l))
    (h8 : ps .journal) :
    Only ps s (oneWork l w t).1 := by
  unfold oneWork
  split
  · exact loadHead_only l _ h h2 h3
  · exact rerouteItem_only l _ _ _ h h1 h2 h6 h7 h8
  · exact removeWindow_only l _ _ h h2 h3
  · exact releaseReservation_only l _ (withdrawPrint_only l _ h h2 h4) h1 h5

theorem runWork_only (l : LaneId) (n : Nat) (ws : List GateWork) (h : Only ps s t) (h1 : ps .raised) (h2 : ps
    (.track l)) (h3 : ps (.gates l)) (h4 : ps (.heads l)) (h5 : ps (.pockets l)) (h6 : ps (.tally l)) (h7 : ps
    (.attrs l)) (h8 : ps .journal) :
    Only ps s (runWork l n ws t) := by
  induction n generalizing ws t with
  | zero => exact h
  | succ n ih =>
    cases ws with
    | nil => exact h
    | cons w ws => exact ih _ (oneWork_only l w h h1 h2 h3 h4 h5 h6 h7 h8)

theorem gateWork_only (l : LaneId) (ws : List GateWork) (h : Only ps s t) (h1 : ps .raised) (h2 : ps (.track l))
    (h3 : ps (.gates l)) (h4 : ps (.heads l)) (h5 : ps (.pockets l)) (h6 : ps (.tally l)) (h7 : ps (.attrs l))
    (h8 : ps .journal) :
    Only ps s (gateWork l ws t) := by
  unfold gateWork
  repeat' first
    | with_reducible assumption | with_reducible apply runWork_only

theorem rerouteAtEye_only (l : LaneId) (serial : Nat) (cause : RerouteCause) (eye : Eye) (h : Only ps s t)
    (h1 : ps .raised) (h2 : ps (.track l)) (h3 : ps (.gates l)) (h4 : ps (.heads l)) (h5 : ps (.pockets l))
    (h6 : ps (.tally l)) (h7 : ps (.attrs l)) (h8 : ps .journal) :
    Only ps s (rerouteAtEye l serial cause eye t) := by
  unfold rerouteAtEye
  repeat' first
    | with_reducible assumption | with_reducible apply gateWork_only

theorem dropItem_only (l : LaneId) (e : Entry) (h : Only ps s t) (h1 : ps .raised) (h2 : ps (.track l)) (h3 : ps
    (.gates l)) (h4 : ps (.heads l)) (h5 : ps (.pockets l)) (h6 : ps (.tally l)) (h7 : ps (.attrs l))
    (h8 : ps .journal) :
    Only ps s (dropItem l e t) := by
  unfold dropItem
  repeat' first
    | with_reducible assumption | with_reducible apply gateWork_only

theorem purgeWindows_only (l : LaneId) (e : Entry) (h : Only ps s t) (h1 : ps (.track l)) (h2 : ps (.gates l)) :
    Only ps s (purgeWindows l e t) :=
  only_foldl _ _ h (fun _ g hu => removeWindow_only l e.serial g hu h1 h2)

theorem closeHead_only (l : LaneId) (g : Gate) (w : Window) (off : Pos) (h : Only ps s t) (h1 : ps .raised)
    (h2 : ps (.track l)) (h3 : ps (.gates l)) (h4 : ps (.heads l)) (h5 : ps (.pockets l)) (h6 : ps (.tally l))
    (h7 : ps (.attrs l)) (h8 : ps .journal) :
    Only ps s (closeHead l g w off t) := by
  unfold closeHead
  repeat' first
    | with_reducible assumption | with_reducible apply updChannel_only | with_reducible apply gateWork_only

theorem gatesOff_only (l : LaneId) (h : Only ps s t) (h1 : ps (.gates l)) :
    Only ps s (gatesOff l t) := by
  unfold gatesOff
  repeat' first
    | with_reducible assumption | with_reducible apply updChannel_only | with_reducible apply only_foldl
    | intro _ _ _

theorem gatesClear_only (l : LaneId) (h : Only ps s t) (h1 : ps (.gates l)) :
    Only ps s (gatesClear l t) := by
  unfold gatesClear
  repeat' first
    | with_reducible assumption | with_reducible apply updChannel_only | with_reducible apply only_foldl
    | intro _ _ _

theorem pushWindow_only (l : LaneId) (w : PlanWindow) (serial : Nat) {u : State} (h : Only ps s t) (h1 : ps
    (.gates l))
    (hu : pushWindow l w serial t = some u) : Only ps s u := by
  unfold pushWindow at hu
  split at hu
  · cases hu; exact updChannel_only l _ _ h h1
  · cases hu

theorem mergeWindow_only (l : LaneId) (w : PlanWindow) (serial maxHold : Nat) {u : State} (h : Only ps s t)
    (h1 : ps (.gates l)) (hu : mergeWindow l w serial maxHold t = some u) : Only ps s u := by
  unfold mergeWindow at hu
  split at hu
  · cases hu
  · split at hu
    · cases hu; exact updChannel_only l _ _ h h1
    · cases hu

theorem appendWindow_only (l : LaneId) (g : Gate) (e : Entry) {r : State × PlanWindow} (h : Only ps s t)
    (h1 : ps (.gates l)) (hr : appendWindow l g e t = some r) : Only ps s r.1 := by
  unfold appendWindow at hr
  dsimp only at hr
  obtain ⟨u, hu, rfl⟩ := Option.map_eq_some_iff.mp hr
  dsimp only
  split at hu
  · exact pushWindow_only l _ _ h h1 hu
  · split at hu
    · split at hu
      · exact pushWindow_only l _ _ h h1 hu
      · split at hu
        · cases hu
        · exact pushWindow_only l _ _ h h1 hu
    · split at hu
      · exact mergeWindow_only l _ _ _ h h1 hu
      · cases hu

theorem appendWhen_only (need : Bool) (l : LaneId) (g : Gate) (e : Entry) {r : State × List PlanWindow}
    (h : Only ps s t) (h1 : ps (.gates l)) (hr : appendWhen need l g e t = some r) : Only ps s r.1 := by
  unfold appendWhen at hr
  split at hr
  · obtain ⟨u, hu, rfl⟩ := Option.map_eq_some_iff.mp hr
    exact appendWindow_only l g e h h1 hu
  · cases hr; exact h

theorem postPrint_only (l : LaneId) (bank : Side) (e : Entry) (info : FacedInfo) (h : Only ps s t) (h1 : ps
    (.heads l)) :
    Only ps s (postPrint l bank e info t) := by
  unfold postPrint
  repeat' first
    | with_reducible assumption | with_reducible apply updHead_only | with_reducible apply only_ite

theorem pocketStep_only (l : LaneId) (bank : Side) (e : Entry) (info : FacedInfo) (h : Only ps s t) (h1 : ps .raised)
    (h2 : ps (.gates l)) (h3 : ps (.pockets l)) (h4 : ps .journal) : Only ps s (pocketStep l bank e info t).1 := by
  unfold pocketStep
  dsimp only
  split
  · exact emit_only _ _ _ _ _ _ h h1 h4
  · split
    · exact h
    · split
      · exact emit_only _ _ _ _ _ _ h h1 h4
      · rename_i hw
        exact reserve_only l _ _ (appendWindow_only l _ e h h2 hw) h1 h3

theorem gateBusyReject_only (l : LaneId) (g : Gate) (e : Entry) (h : Only ps s t) (h1 : ps .raised)
    (h2 : ps .journal) :
    Only ps s (gateBusyReject l g e t).1 := emit_only _ _ _ _ _ _ h h1 h2

theorem planFaced_only (l : LaneId) (e : Entry) (info : FacedInfo) (h : Only ps s t) (h1 : ps .raised)
    (h2 : ps (.gates l)) (h3 : ps (.heads l)) (h4 : ps (.pockets l)) (h5 : ps .journal) :
    Only ps s (planFaced l e info t).1 := by
  unfold planFaced
  dsimp only
  split
  · exact h
  · exact h
  · split
    · exact gateBusyReject_only l _ e h h1 h5
    · rename_i h1'
      have k1 := appendWhen_only _ l _ e h h2 h1'
      split
      · exact gateBusyReject_only l _ e h h1 h5
      · rename_i h2'
        have k2 := appendWhen_only _ l _ e k1 h2 h2'
        exact pocketStep_only l _ e info (postPrint_only l _ e info k2 h3) h1 h2 h4 h5

theorem planVerdict_only (l : LaneId) (e : Entry) (v : Verdict) (h : Only ps s t) (h1 : ps .raised)
    (h2 : ps (.gates l)) (h3 : ps (.heads l)) (h4 : ps (.pockets l)) (h5 : ps .journal) :
    Only ps s (planVerdict l e v t).1 := by
  unfold planVerdict
  split
  · exact planFaced_only l e _ h h1 h2 h3 h4 h5
  · exact h

theorem countVerdict_only (l : LaneId) (v : Verdict) (h : Only ps s t) (h1 : ps (.tally l)) :
    Only ps s (countVerdict l v t) := by
  unfold countVerdict
  dsimp only
  repeat' first
    | with_reducible assumption | with_reducible apply countUp_only | split

theorem deliver_only (l : LaneId) (e : Entry) (v : Verdict) (h : Only ps s t) (h1 : ps .mem) (h2 : ps .raised)
    (h3 : ps .free) (h4 : ps (.track l)) (h5 : ps (.gates l)) (h6 : ps (.heads l)) (h7 : ps (.pockets l)) (h8 : ps
    (.lane l)) (h9 : ps (.idle l)) (h10 : ps (.tally l)) (h11 : ps (.attrs l)) (h12 : ps .journal)
    (h13 : ps .orders) (h14 : ps .registers) :
    Only ps s (deliver l e v t) := by
  unfold deliver
  dsimp only
  repeat' first
    | with_reducible assumption | with_reducible apply countBlock_only | with_reducible apply updEntry_only
    | with_reducible apply gateWork_only | with_reducible apply planVerdict_only
    | with_reducible apply countVerdict_only

theorem deliverRun_only (l : LaneId) (n : Nat) (h : Only ps s t) (h1 : ps .mem) (h2 : ps .raised) (h3 : ps .free)
    (h4 : ps (.track l)) (h5 : ps (.gates l)) (h6 : ps (.heads l)) (h7 : ps (.pockets l)) (h8 : ps (.lane l))
    (h9 : ps (.idle l)) (h10 : ps (.tally l)) (h11 : ps (.attrs l)) (h12 : ps .journal) (h13 : ps .orders)
    (h14 : ps .registers) : Only ps s (deliverRun l n t) := by
  induction n generalizing t with
  | zero => exact h
  | succ n ih =>
    unfold deliverRun
    split
    · exact h
    · split
      · exact h
      · exact ih (deliver_only l _ _ h h1 h2 h3 h4 h5 h6 h7 h8 h9 h10 h11 h12 h13 h14)

theorem deliverAll_only (l : LaneId) (h : Only ps s t) (h1 : ps .mem) (h2 : ps .raised) (h3 : ps .free) (h4 : ps
    (.track l)) (h5 : ps (.gates l)) (h6 : ps (.heads l)) (h7 : ps (.pockets l)) (h8 : ps (.lane l)) (h9 : ps
    (.idle l)) (h10 : ps (.tally l)) (h11 : ps (.attrs l)) (h12 : ps .journal) (h13 : ps .orders)
    (h14 : ps .registers) : Only ps s (deliverAll l t) :=
  deliverRun_only l _ h h1 h2 h3 h4 h5 h6 h7 h8 h9 h10 h11 h12 h13 h14

theorem discardTrace_only (l : LaneId) (serial : Nat) (h : Only ps s t) (h1 : ps (.sfe l)) :
    Only ps s (discardTrace l serial t) := by
  unfold discardTrace
  repeat' first
    | with_reducible assumption | with_reducible apply updSfe_only

theorem giveVerdict_only (l : LaneId) (serial : Nat) (v : Verdict) (h : Only ps s t) (h1 : ps (.track l)) (h2 : ps
    (.sfe l)) :
    Only ps s (giveVerdict l serial v t) := by
  unfold giveVerdict
  repeat' first
    | with_reducible assumption | with_reducible apply updEntry_only | with_reducible apply discardTrace_only
    | with_reducible apply only_ite | split

theorem acceptEdge_only (l : LaneId) (y : Eye) (toDark : Bool) (h : Only ps s t) (h1 : ps (.eyes l)) :
    Only ps s (acceptEdge l y toDark t) := by
  unfold acceptEdge
  dsimp only
  repeat' first
    | with_reducible assumption | with_reducible apply updEye_only

theorem phantom_only (l : LaneId) (y : Eye) (p : Pos) (h : Only ps s t) (h1 : ps .raised) (h2 : ps (.tally l))
    (h3 : ps (.attrs l)) (h4 : ps .journal) :
    Only ps s (phantom l y p t) := by
  unfold phantom
  repeat' first
    | with_reducible assumption | with_reducible apply countUp_only | with_reducible apply emit_only
    | with_reducible apply blockEvent_only

theorem startLoad_only (l : LaneId) (d : Side) (h : Only ps s t) (h1 : ps (.heads l)) :
    Only ps s (startLoad l d t) := by
  unfold startLoad
  repeat' first
    | with_reducible assumption | with_reducible apply updHead_only | split

theorem finishLoad_only (l : LaneId) (d : Side) (h : Only ps s t) (h1 : ps (.heads l)) :
    Only ps s (finishLoad l d t) := by
  unfold finishLoad
  repeat' first
    | with_reducible assumption | with_reducible apply updHead_only | with_reducible apply only_ite | split

theorem verifyMiss_only (l : LaneId) (h : Only ps s t) (h1 : ps (.tally l)) :
    Only ps s (verifyMiss l t) := by
  unfold verifyMiss
  repeat' first
    | with_reducible assumption | with_reducible apply countUp_only

theorem enterVerify_only (l : LaneId) (d : Side) (expected : Pos) (h : Only ps s t) (h1 : ps (.heads l)) (h2 : ps
    (.tally l)) :
    Only ps s (enterVerify l d expected t) := by
  unfold enterVerify
  repeat' first
    | with_reducible assumption | with_reducible apply updHead_only | with_reducible apply verifyMiss_only
    | with_reducible apply only_ite

theorem writePrinted_only (l : LaneId) (p : Print) (clipped : Bool) (c : PrintCount) (h : Only ps s t)
    (h1 : ps (.track l)) : Only ps s (writePrinted l p clipped c t) := by
  unfold writePrinted
  exact updEntry_only l _ _ h h1

theorem endPrint_only (l : LaneId) (d : Side) (p : Print) (clipped : Bool) (h : Only ps s t) (h1 : ps (.track l))
    (h2 : ps (.heads l)) (h3 : ps (.tally l)) :
    Only ps s (endPrint l d p clipped t) := by
  unfold endPrint
  dsimp only
  repeat' first
    | with_reducible assumption | with_reducible apply updHead_only | with_reducible apply countUp_only
    | with_reducible apply writePrinted_only | with_reducible apply enterVerify_only | with_reducible apply only_ite
    | split

theorem clipPrint_only (l : LaneId) (d : Side) (h : Only ps s t) (h1 : ps (.track l)) (h2 : ps (.heads l))
    (h3 : ps (.tally l)) :
    Only ps s (clipPrint l d t) := by
  unfold clipPrint
  repeat' first
    | with_reducible assumption | with_reducible apply endPrint_only | split

theorem sendToEnd_only (l : LaneId) (serial : Nat) (h : Only ps s t) (h1 : ps .raised) (h2 : ps (.track l))
    (h3 : ps (.gates l)) (h4 : ps (.heads l)) (h5 : ps (.pockets l)) (h6 : ps (.tally l)) (h7 : ps (.attrs l))
    (h8 : ps .journal) :
    Only ps s (sendToEnd l serial t) := by
  unfold sendToEnd
  dsimp only
  repeat' first
    | with_reducible assumption | with_reducible apply releaseAt_only | with_reducible apply gateWork_only
    | with_reducible apply only_ite | split

theorem refusePrint_only (l : LaneId) (d : Side) (serial : Nat) (c : UncancelledCause) (h : Only ps s t)
    (h1 : ps .raised) (h2 : ps (.track l)) (h3 : ps (.gates l)) (h4 : ps (.heads l)) (h5 : ps (.pockets l))
    (h6 : ps (.tally l)) (h7 : ps (.attrs l)) (h8 : ps .journal) :
    Only ps s (refusePrint l d serial c t) := by
  unfold refusePrint
  repeat' first
    | with_reducible assumption | with_reducible apply updHead_only | with_reducible apply countUp_only
    | with_reducible apply updEntry_only | with_reducible apply sendToEnd_only

theorem releasePrint_only (l : LaneId) (d : Side) (serial : Nat) (eyeAt : Pos) (h : Only ps s t) (h1 : ps .raised)
    (h2 : ps (.track l)) (h3 : ps (.gates l)) (h4 : ps (.heads l)) (h5 : ps (.pockets l)) (h6 : ps (.tally l))
    (h7 : ps (.attrs l)) (h8 : ps .journal) :
    Only ps s (releasePrint l d serial eyeAt t) := by
  unfold releasePrint
  dsimp only
  repeat' first
    | with_reducible assumption | with_reducible apply updHead_only | with_reducible apply refusePrint_only
    | with_reducible apply writePrinted_only | with_reducible apply only_ite | split

theorem endEarlier_only (l : LaneId) (d : Side) (h : Only ps s t) (h1 : ps (.track l)) (h2 : ps (.heads l))
    (h3 : ps (.tally l)) :
    Only ps s (endEarlier l d t) := by
  unfold endEarlier
  repeat' first
    | with_reducible assumption | with_reducible apply endPrint_only | split

theorem beginPrint_only (l : LaneId) (d : Side) (p : Print) (i : Fin 2) (c : PrintCount) (h : Only ps s t)
    (h1 : ps (.track l)) (h2 : ps (.heads l)) (h3 : ps (.tally l)) :
    Only ps s (beginPrint l d p i c t) := by
  unfold beginPrint
  dsimp only
  repeat' first
    | with_reducible assumption | with_reducible apply updHead_only | with_reducible apply endPrint_only
    | with_reducible apply writePrinted_only | with_reducible apply only_ite

theorem startPrint_only (l : LaneId) (d : Side) (p : Print) (h : Only ps s t) (h1 : ps .raised) (h2 : ps
    (.track l)) (h3 : ps (.gates l)) (h4 : ps (.heads l)) (h5 : ps (.pockets l)) (h6 : ps (.tally l)) (h7 : ps
    (.attrs l)) (h8 : ps .journal) :
    Only ps s (startPrint l d p t) := by
  unfold startPrint
  dsimp only
  repeat' first
    | with_reducible assumption | with_reducible apply refusePrint_only | with_reducible apply endEarlier_only
    | with_reducible apply beginPrint_only | with_reducible apply only_ite | split

theorem trimTest_only (l : LaneId) (d : Side) (h : Only ps s t) (h1 : ps .mem) (h2 : ps .raised) (h3 : ps .free)
    (h4 : ps (.gates l)) (h5 : ps (.heads l)) (h6 : ps (.lane l)) (h7 : ps (.idle l)) (h8 : ps (.attrs l))
    (h9 : ps .journal) (h10 : ps .orders) (h11 : ps .registers) :
    Only ps s (trimTest l d t) := by
  unfold trimTest
  dsimp only
  repeat' first
    | with_reducible assumption | with_reducible apply updHead_only | with_reducible apply evaluate_only
    | with_reducible apply only_ite

theorem compareVerify_only (l : LaneId) (d : Side) (seen : Pos) (h : Only ps s t) (h1 : ps .mem) (h2 : ps .raised)
    (h3 : ps .free) (h4 : ps (.gates l)) (h5 : ps (.heads l)) (h6 : ps (.lane l)) (h7 : ps (.idle l)) (h8 : ps
    (.tally l)) (h9 : ps (.attrs l)) (h10 : ps .journal) (h11 : ps .orders) (h12 : ps .registers) :
    Only ps s (compareVerify l d seen t) := by
  unfold compareVerify
  dsimp only
  repeat' first
    | with_reducible assumption | with_reducible apply updHead_only | with_reducible apply verifyMiss_only
    | with_reducible apply trimTest_only | with_reducible apply only_ite | split

theorem followGapSpit_only (l : LaneId) (h : Only ps s t) (h1 : ps .raised) (h2 : ps (.lane l)) :
    Only ps s (followGapSpit l t) := by
  unfold followGapSpit
  repeat' first
    | with_reducible assumption | with_reducible apply setHold_only

theorem restartSpitTimer_only (l : LaneId) (d : Side) (h : Only ps s t) (h1 : ps (.heads l)) :
    Only ps s (restartSpitTimer l d t) := by
  unfold restartSpitTimer
  dsimp only
  repeat' first
    | with_reducible assumption | with_reducible apply updHead_only

theorem gapRequestTest_only (l : LaneId) (d : Side) (h : Only ps s t) (h1 : ps .raised) (h2 : ps (.heads l))
    (h3 : ps (.lane l)) (h4 : ps .journal) :
    Only ps s (gapRequestTest l d t) := by
  unfold gapRequestTest
  dsimp only
  repeat' first
    | with_reducible assumption | with_reducible apply updHead_only | with_reducible apply emit_only
    | with_reducible apply followGapSpit_only | with_reducible apply only_ite

theorem dryTest_only (l : LaneId) (d : Side) (h : Only ps s t) (h1 : ps .raised) (h2 : ps (.heads l))
    (h3 : ps .journal) :
    Only ps s (dryTest l d t) := by
  unfold dryTest
  repeat' first
    | with_reducible assumption | with_reducible apply updHead_only | with_reducible apply emit_only
    | with_reducible apply only_ite

theorem spitExpiry_only (l : LaneId) (d : Side) (h : Only ps s t) (h1 : ps .mem) (h2 : ps .raised) (h3 : ps .free)
    (h4 : ps (.gates l)) (h5 : ps (.heads l)) (h6 : ps (.lane l)) (h7 : ps (.idle l)) (h8 : ps (.attrs l))
    (h9 : ps .journal) (h10 : ps .orders) (h11 : ps .registers) :
    Only ps s (spitExpiry l d t) := by
  unfold spitExpiry
  dsimp only
  repeat' first
    | with_reducible assumption | with_reducible apply updHead_only | with_reducible apply evaluate_only
    | with_reducible apply restartSpitTimer_only | with_reducible apply gapRequestTest_only
    | with_reducible apply dryTest_only

theorem wetTest_only (l : LaneId) (d : Side) (h : Only ps s t) (h1 : ps .raised) (h2 : ps (.heads l))
    (h3 : ps .journal) :
    Only ps s (wetTest l d t) := by
  unfold wetTest
  dsimp only
  repeat' first
    | with_reducible assumption | with_reducible apply updHead_only | with_reducible apply emit_only
    | with_reducible apply only_ite

theorem completeSpit_only (l : LaneId) (d : Side) (h : Only ps s t) (h1 : ps .mem) (h2 : ps .raised)
    (h3 : ps .free) (h4 : ps (.gates l)) (h5 : ps (.heads l)) (h6 : ps (.lane l)) (h7 : ps (.idle l)) (h8 : ps
    (.attrs l)) (h9 : ps .journal) (h10 : ps .orders) (h11 : ps .registers) :
    Only ps s (completeSpit l d t) := by
  unfold completeSpit
  dsimp only
  repeat' first
    | with_reducible assumption | with_reducible apply updHead_only | with_reducible apply warmTest_only
    | with_reducible apply evaluate_only | with_reducible apply followGapSpit_only
    | with_reducible apply restartSpitTimer_only | with_reducible apply wetTest_only

theorem coldHead_only (l : LaneId) (d : Side) (h : Only ps s t) (h1 : ps .raised) (h2 : ps (.heads l)) (h3 : ps
    (.lane l)) :
    Only ps s (coldHead l d t) := by
  unfold coldHead
  repeat' first
    | with_reducible assumption | with_reducible apply updHead_only | with_reducible apply followGapSpit_only

theorem coldHeads_only (l : LaneId) (h : Only ps s t) (h1 : ps .raised) (h2 : ps (.heads l)) (h3 : ps (.lane l)) :
    Only ps s (coldHeads l t) := by
  unfold coldHeads
  repeat' first
    | with_reducible assumption | with_reducible apply coldHead_only

theorem clearPrints_only (l : LaneId) (h : Only ps s t) (h1 : ps (.heads l)) :
    Only ps s (clearPrints l t) := by
  unfold clearPrints
  dsimp only
  repeat' first
    | with_reducible assumption | with_reducible apply updHead_only

theorem clearTrims_only (l : LaneId) (h : Only ps s t) (h1 : ps (.heads l)) :
    Only ps s (clearTrims l t) := by
  unfold clearTrims
  dsimp only
  repeat' first
    | with_reducible assumption | with_reducible apply updHead_only

theorem queueFullTest_only (l : LaneId) (h : Only ps s t) (h1 : ps .raised) (h2 : ps (.lane l)) :
    Only ps s (queueFullTest l t) := by
  unfold queueFullTest
  repeat' first
    | with_reducible assumption | with_reducible apply setHold_only | with_reducible apply only_ite

theorem leaveQueue_only (l : LaneId) (serial : Nat) (o : ItemOutcome) (h : Only ps s t) (h1 : ps .raised)
    (h2 : ps (.track l)) (h3 : ps (.sfe l)) (h4 : ps (.lane l)) (h5 : ps (.tally l)) (h6 : ps .journal) :
    Only ps s (leaveQueue l serial o t) := by
  unfold leaveQueue
  split
  · exact h
  · exact queueFullTest_only l (placeRecord_only _
      (countUp_only l _ (discardTrace_only l serial (updTrack_only l _ h h2) h3) h5) h1 h6
      (fun _ _ _ e => by cases e; exact h5)) h1 h4

theorem finalise_only (l : LaneId) (serial : Nat) (o : ItemOutcome) (h : Only ps s t) (h1 : ps .mem)
    (h2 : ps .raised) (h3 : ps .free) (h4 : ps (.track l)) (h5 : ps (.sfe l)) (h6 : ps (.gates l)) (h7 : ps
    (.heads l)) (h8 : ps (.pockets l)) (h9 : ps (.lane l)) (h10 : ps (.idle l)) (h11 : ps (.tally l)) (h12 : ps
    (.attrs l)) (h13 : ps .journal) (h14 : ps .orders) (h15 : ps .registers) :
    Only ps s (finalise l serial o t) := by
  unfold finalise
  repeat' first
    | with_reducible assumption | with_reducible apply drainTest_only | with_reducible apply dropItem_only
    | with_reducible apply leaveQueue_only | with_reducible apply only_ite | split

theorem purgeEntry_only (l : LaneId) (e : Entry) (h : Only ps s t) (h1 : ps .raised) (h2 : ps (.track l)) (h3 : ps
    (.sfe l)) (h4 : ps (.gates l)) (h5 : ps (.heads l)) (h6 : ps (.pockets l)) (h7 : ps (.lane l)) (h8 : ps
    (.tally l)) (h9 : ps .journal) :
    Only ps s (purgeEntry l e t) := by
  unfold purgeEntry
  repeat' first
    | with_reducible assumption | with_reducible apply releaseReservation_only
    | with_reducible apply withdrawPrint_only | with_reducible apply purgeWindows_only
    | with_reducible apply leaveQueue_only

theorem purge_only (l : LaneId) (h : Only ps s t) (h1 : ps .raised) (h2 : ps (.track l)) (h3 : ps (.sfe l))
    (h4 : ps (.gates l)) (h5 : ps (.heads l)) (h6 : ps (.pockets l)) (h7 : ps (.lane l)) (h8 : ps (.tally l))
    (h9 : ps .journal) :
    Only ps s (purge l t) := by
  unfold purge
  dsimp only
  repeat' first
    | with_reducible assumption | with_reducible apply updTrack_only | with_reducible apply setHold_only
    | with_reducible apply purgeEntry_only | with_reducible apply only_foldl | intro _ _ _

theorem removeJobs_only (l : LaneId) (h : Only ps s t) (h1 : ps .scorer) :
    Only ps s (removeJobs l t) := by
  unfold removeJobs
  repeat' first
    | with_reducible assumption | with_reducible apply updMsc_only

theorem purgeLane_only (l : LaneId) (h : Only ps s t) (h1 : ps .raised) (h2 : ps (.track l)) (h3 : ps (.sfe l))
    (h4 : ps (.gates l)) (h5 : ps (.heads l)) (h6 : ps (.pockets l)) (h7 : ps (.lane l)) (h8 : ps (.tally l))
    (h9 : ps .scorer) (h10 : ps .journal) :
    Only ps s (purgeLane l t) := by
  unfold purgeLane
  repeat' first
    | with_reducible assumption | with_reducible apply gatesClear_only | with_reducible apply clearPrints_only
    | with_reducible apply purge_only | with_reducible apply removeJobs_only

theorem dropWarming_only (l : LaneId) (h : Only ps s t) (h1 : ps (.sfe l)) (h2 : ps (.heads l)) (h3 : ps
    (.lane l)) (h4 : ps (.idle l)) :
    Only ps s (dropWarming l t) := by
  unfold dropWarming
  dsimp only
  repeat' first
    | with_reducible assumption | with_reducible apply updSfe_only | with_reducible apply updHead_only
    | with_reducible apply updLsq_only

theorem stopLane_only (l : LaneId) (h : Only ps s t) (h1 : ps .mem) (h2 : ps .raised) (h3 : ps .free) (h4 : ps
    (.track l)) (h5 : ps (.sfe l)) (h6 : ps (.gates l)) (h7 : ps (.heads l)) (h8 : ps (.lane l)) (h9 : ps
    (.idle l)) (h10 : ps (.tally l)) (h11 : ps .scorer) (h12 : ps .journal) (h13 : ps .tests) (h14 : ps .orders)
    (h15 : ps .registers) :
    Only ps s (stopLane l t) := by
  unfold stopLane
  dsimp only
  repeat' first
    | with_reducible assumption | with_reducible apply raise_only | with_reducible apply endPending_only
    | with_reducible apply setLane_only | with_reducible apply laneEvent_only
    | with_reducible apply endLaneTest_only | with_reducible apply gatesOff_only
    | with_reducible apply clipPrint_only | with_reducible apply dropWarming_only | exact fun e => nomatch e

theorem jam_only (l : LaneId) (y : Eye) (cause : Nat) (h : Only ps s t) (h1 : ps .mem) (h2 : ps .raised)
    (h3 : ps .free) (h4 : ps (.track l)) (h5 : ps (.sfe l)) (h6 : ps (.gates l)) (h7 : ps (.heads l)) (h8 : ps
    (.lane l)) (h9 : ps (.idle l)) (h10 : ps (.tally l)) (h11 : ps .scorer) (h12 : ps .journal) (h13 : ps .tests)
    (h14 : ps .orders) (h15 : ps .registers) :
    Only ps s (jam l y cause t) := by
  unfold jam
  dsimp only
  repeat' first
    | with_reducible assumption | with_reducible apply emit_only | with_reducible apply stopLane_only
    | with_reducible apply only_ite

theorem updJam_only (l : LaneId) (j : JamEye) (f : Nat → Nat) (h : Only ps s t) (h1 : ps (.track l)) :
    Only ps s (updJam l j f t) := by
  unfold updJam
  repeat' first
    | with_reducible assumption | with_reducible apply updTrack_only

theorem countLoss_only (l : LaneId) (j : JamEye) (h : Only ps s t) (h1 : ps .mem) (h2 : ps .raised)
    (h3 : ps .free) (h4 : ps (.track l)) (h5 : ps (.sfe l)) (h6 : ps (.gates l)) (h7 : ps (.heads l)) (h8 : ps
    (.lane l)) (h9 : ps (.idle l)) (h10 : ps (.tally l)) (h11 : ps .scorer) (h12 : ps .journal) (h13 : ps .tests)
    (h14 : ps .orders) (h15 : ps .registers) :
    Only ps s (countLoss l j t) := by
  unfold countLoss
  dsimp only
  repeat' first
    | with_reducible assumption | with_reducible apply jam_only | with_reducible apply updJam_only
    | with_reducible apply only_ite

theorem loseEntry_only (l : LaneId) (serial : Nat) (j : JamEye) (h : Only ps s t) (h1 : ps .mem) (h2 : ps .raised)
    (h3 : ps .free) (h4 : ps (.track l)) (h5 : ps (.sfe l)) (h6 : ps (.gates l)) (h7 : ps (.heads l)) (h8 : ps
    (.pockets l)) (h9 : ps (.lane l)) (h10 : ps (.idle l)) (h11 : ps (.tally l)) (h12 : ps (.attrs l))
    (h13 : ps .scorer) (h14 : ps .journal) (h15 : ps .tests) (h16 : ps .orders) (h17 : ps .registers) :
    Only ps s (loseEntry l serial j t) := by
  unfold loseEntry
  dsimp only
  repeat' first
    | with_reducible assumption | with_reducible apply emit_only | with_reducible apply blockEvent_only
    | with_reducible apply finalise_only | with_reducible apply countLoss_only

theorem reportVerdict_only (l : LaneId) (k : VerdictKind) (h : Only ps s t) (h1 : ps .mem) (h2 : ps .raised)
    (h3 : ps .free) (h4 : ps (.gates l)) (h5 : ps (.heads l)) (h6 : ps (.lane l)) (h7 : ps (.idle l)) (h8 : ps
    (.attrs l)) (h9 : ps .journal) (h10 : ps .orders) (h11 : ps .registers) :
    Only ps s (reportVerdict l k t) := by
  unfold reportVerdict
  repeat' first
    | with_reducible assumption | with_reducible apply countBlock_only | with_reducible apply blockEvent_only
    | with_reducible apply only_ite

theorem returnVerdict_only (l : LaneId) (serial : Nat) (v : Verdict) (h : Only ps s t) (h1 : ps .mem)
    (h2 : ps .raised) (h3 : ps .free) (h4 : ps (.track l)) (h5 : ps (.sfe l)) (h6 : ps (.gates l)) (h7 : ps
    (.heads l)) (h8 : ps (.pockets l)) (h9 : ps (.lane l)) (h10 : ps (.idle l)) (h11 : ps (.tally l)) (h12 : ps
    (.attrs l)) (h13 : ps .journal) (h14 : ps .orders) (h15 : ps .registers) :
    Only ps s (returnVerdict l serial v t) := by
  unfold returnVerdict
  repeat' first
    | with_reducible assumption | with_reducible apply deliverAll_only | with_reducible apply giveVerdict_only
    | with_reducible apply reportVerdict_only

theorem takeJobs_only (n : Nat) (h : Only ps s t) (h1 : ps .mem) (h2 : ps .raised) (h3 : ps .free) (h4 : ∀ k, ps
    (.track k)) (h5 : ∀ k, ps (.sfe k)) (h6 : ∀ k, ps (.gates k)) (h7 : ∀ k, ps (.heads k)) (h8 : ∀ k, ps
    (.pockets k)) (h9 : ∀ k, ps (.lane k)) (h10 : ∀ k, ps (.idle k)) (h11 : ∀ k, ps (.tally k)) (h12 : ∀ k, ps
    (.attrs k)) (h13 : ps .scorer) (h14 : ps .journal) (h15 : ps .orders) (h16 : ps .registers) : Only ps s
    (takeJobs n t) := by
  induction n generalizing t with
  | zero => exact h
  | succ n ih =>
    unfold takeJobs
    split
    · split
      · exact ih (returnVerdict_only _ _ _ (updMsc_only _ h h13) h1 h2 h3 (h4 _) (h5 _) (h6 _) (h7 _) (h8 _)
    (h9 _) (h10 _) (h11 _) (h12 _) h14 h15 h16)
      · exact updMsc_only _ h h13
    · exact h

theorem takeJob_only (h : Only ps s t) (h1 : ps .mem) (h2 : ps .raised) (h3 : ps .free) (h4 : ∀ k, ps (.track k))
    (h5 : ∀ k, ps (.sfe k)) (h6 : ∀ k, ps (.gates k)) (h7 : ∀ k, ps (.heads k)) (h8 : ∀ k, ps (.pockets k))
    (h9 : ∀ k, ps (.lane k)) (h10 : ∀ k, ps (.idle k)) (h11 : ∀ k, ps (.tally k)) (h12 : ∀ k, ps (.attrs k))
    (h13 : ps .scorer) (h14 : ps .journal) (h15 : ps .orders) (h16 : ps .registers) : Only ps s
    (takeJob t) := takeJobs_only _ h h1 h2 h3 h4 h5 h6 h7 h8 h9 h10 h11 h12 h13 h14 h15 h16

theorem postJob_only (l : LaneId) (e : Entry) (trace : List (List Nat)) (h : Only ps s t) (h1 : ps .mem)
    (h2 : ps .raised) (h3 : ps .free) (h4 : ∀ k, ps (.track k)) (h5 : ∀ k, ps (.sfe k)) (h6 : ∀ k, ps (.gates k))
    (h7 : ∀ k, ps (.heads k)) (h8 : ∀ k, ps (.pockets k)) (h9 : ∀ k, ps (.lane k)) (h10 : ∀ k, ps (.idle k))
    (h11 : ∀ k, ps (.tally k)) (h12 : ∀ k, ps (.attrs k)) (h13 : ps .scorer) (h14 : ps .journal)
    (h15 : ps .orders) (h16 : ps .registers) :
    Only ps s (postJob l e trace t) := by
  unfold postJob
  repeat' first
    | with_reducible assumption | with_reducible exact h4 _ | with_reducible exact h5 _ | with_reducible exact h6 _
    | with_reducible exact h7 _ | with_reducible exact h8 _ | with_reducible exact h9 _
    | with_reducible exact h10 _ | with_reducible exact h11 _ | with_reducible exact h12 _
    | with_reducible apply updMsc_only | with_reducible apply returnVerdict_only
    | with_reducible apply takeJob_only | with_reducible apply only_ite

theorem completeJob_only  (h : Only ps s t) (h1 : ps .mem) (h2 : ps .raised) (h3 : ps .free) (h4 : ∀ k, ps
    (.track k)) (h5 : ∀ k, ps (.sfe k)) (h6 : ∀ k, ps (.gates k)) (h7 : ∀ k, ps (.heads k)) (h8 : ∀ k, ps
    (.pockets k)) (h9 : ∀ k, ps (.lane k)) (h10 : ∀ k, ps (.idle k)) (h11 : ∀ k, ps (.tally k)) (h12 : ∀ k, ps
    (.attrs k)) (h13 : ps .scorer) (h14 : ps .journal) (h15 : ps .orders) (h16 : ps .registers) :
    Only ps s (completeJob t) := by
  unfold completeJob
  repeat' first
    | with_reducible assumption | with_reducible exact h4 _ | with_reducible exact h5 _ | with_reducible exact h6 _
    | with_reducible exact h7 _ | with_reducible exact h8 _ | with_reducible exact h9 _
    | with_reducible exact h10 _ | with_reducible exact h11 _ | with_reducible exact h12 _
    | with_reducible apply updMsc_only | with_reducible apply returnVerdict_only
    | with_reducible apply takeJob_only | split

theorem calAbandoned_only (l : LaneId) (kind : Nat) (h : Only ps s t) (h1 : ps .raised) (h2 : ps .journal) :
    Only ps s (calAbandoned l kind t) := by
  unfold calAbandoned
  repeat' first
    | with_reducible assumption | with_reducible apply emit_only

theorem comeNear_only (l : LaneId) (h : Only ps s t) (h1 : ps .raised) (h2 : ps (.sfe l)) (h3 : ps .journal) :
    Only ps s (comeNear l t) := by
  unfold comeNear
  dsimp only
  repeat' first
    | with_reducible assumption | with_reducible apply updSfe_only | with_reducible apply calAbandoned_only
    | with_reducible apply only_ite

theorem addSample_only (l : LaneId) (serial : Nat) (row : List Nat) (h : Only ps s t) (h1 : ps (.sfe l)) :
    Only ps s (addSample l serial row t) := by
  unfold addSample
  repeat' first
    | with_reducible assumption | with_reducible apply updSfe_only

theorem drawFrees_only (n : Nat) (h : Only ps s t) (h1 : ps .free) : Only ps s { t with freeCount := t.freeCount + n } := by
  refine only_trans h (fun p hp => ?_)
  cases p <;> simp_all [agree]

theorem missSample_only (l : LaneId) (e : Entry) (h : Only ps s t) (h1 : ps .free) (h2 : ps (.track l))
    (h3 : ps (.sfe l)) : Only ps s (missSample l e t) := by
  unfold missSample
  exact addSample_only l _ _ (updEntry_only l _ _ (drawFrees_only 12 h h1) h2) h3

theorem keepSample_only (l : LaneId) (e : Entry) (readings : List (BitVec 12)) (h : Only ps s t) (h1 : ps .mem)
    (h2 : ps .raised) (h3 : ps .free) (h4 : ∀ k, ps (.track k)) (h5 : ∀ k, ps (.sfe k)) (h6 : ∀ k, ps (.gates k))
    (h7 : ∀ k, ps (.heads k)) (h8 : ∀ k, ps (.pockets k)) (h9 : ∀ k, ps (.lane k)) (h10 : ∀ k, ps (.idle k))
    (h11 : ∀ k, ps (.tally k)) (h12 : ∀ k, ps (.attrs k)) (h13 : ps .scorer) (h14 : ps .journal)
    (h15 : ps .orders) (h16 : ps .registers) :
    Only ps s (keepSample l e readings t) := by
  unfold keepSample
  dsimp only
  repeat' first
    | with_reducible assumption | with_reducible exact h4 _ | with_reducible exact h5 _ | with_reducible exact h6 _
    | with_reducible exact h7 _ | with_reducible exact h8 _ | with_reducible exact h9 _
    | with_reducible exact h10 _ | with_reducible exact h11 _ | with_reducible exact h12 _
    | with_reducible apply updEntry_only | with_reducible apply discardTrace_only
    | with_reducible apply postJob_only | with_reducible apply addSample_only | with_reducible apply only_ite

theorem takeSample_only (l : LaneId) (e : Entry) (readings : List (BitVec 12)) (h : Only ps s t) (h1 : ps .mem)
    (h2 : ps .raised) (h3 : ps .free) (h4 : ∀ k, ps (.track k)) (h5 : ∀ k, ps (.sfe k)) (h6 : ∀ k, ps (.gates k))
    (h7 : ∀ k, ps (.heads k)) (h8 : ∀ k, ps (.pockets k)) (h9 : ∀ k, ps (.lane k)) (h10 : ∀ k, ps (.idle k))
    (h11 : ∀ k, ps (.tally k)) (h12 : ∀ k, ps (.attrs k)) (h13 : ps .scorer) (h14 : ps .journal)
    (h15 : ps .orders) (h16 : ps .registers) :
    Only ps s (takeSample l e readings t) := by
  unfold takeSample
  exact only_ite _ (missSample_only l e h h3 (h4 l) (h5 l))
    (keepSample_only l e readings h h1 h2 h3 h4 h5 h6 h7 h8 h9 h10 h11 h12 h13 h14 h15 h16)

theorem calFinished_only (l : LaneId) (h : Only ps s t) (h1 : ps (.sfe l)) :
    Only ps s (calFinished l t) := by
  unfold calFinished
  dsimp only
  repeat' first
    | with_reducible assumption | with_reducible apply updSfe_only

theorem finishCalibration_only (l : LaneId) (kind : Nat) (pairs : List CalPair) (clamped : Nat) (h : Only ps s t)
    (h1 : ps .mem) (h2 : ps .raised) (h3 : ps .free) (h4 : ps (.sfe l)) (h5 : ps (.gates l)) (h6 : ps (.heads l))
    (h7 : ps (.lane l)) (h8 : ps (.idle l)) (h9 : ps (.attrs l)) (h10 : ps .journal) (h11 : ps .orders)
    (h12 : ps .registers) :
    Only ps s (finishCalibration l kind pairs clamped t) := by
  unfold finishCalibration
  dsimp only
  repeat' first
    | with_reducible assumption | with_reducible apply updSfe_only | with_reducible apply setHold_only
    | with_reducible apply emit_only | with_reducible apply evaluate_only | with_reducible apply calFinished_only
    | with_reducible apply only_foldl | with_reducible apply only_ite

theorem tellRequester_only (l : LaneId) (r : Option CalRequester) (clamped : Nat) (h : Only ps s t) (h1 : ps .mem)
    (h2 : ps .raised) (h3 : ps .free) (h4 : ps (.sfe l)) (h5 : ps (.heads l)) (h6 : ps (.lane l)) (h7 : ps
    (.idle l)) (h8 : ps .scorer) (h9 : ps .journal) (h10 : ps .tests) (h11 : ps .orders) (h12 : ps .registers) :
    Only ps s (tellRequester l r clamped t) := by
  unfold tellRequester
  repeat' first
    | with_reducible assumption | with_reducible apply warmHeads_only | with_reducible apply endLaneTest_only
    | with_reducible apply only_ite | split

theorem completeLongCal_only (l : LaneId) (dark reference : List (List (BitVec 12))) (h : Only ps s t)
    (h1 : ps .mem) (h2 : ps .raised) (h3 : ps .free) (h4 : ps (.sfe l)) (h5 : ps (.gates l)) (h6 : ps (.heads l))
    (h7 : ps (.lane l)) (h8 : ps (.idle l)) (h9 : ps (.attrs l)) (h10 : ps .scorer) (h11 : ps .journal)
    (h12 : ps .tests) (h13 : ps .orders) (h14 : ps .registers) :
    Only ps s (completeLongCal l dark reference t) := by
  unfold completeLongCal
  dsimp only
  repeat' first
    | with_reducible assumption | with_reducible apply updSfe_only | with_reducible apply finishCalibration_only
    | with_reducible apply tellRequester_only

theorem completeShortCal_only (l : LaneId) (dark reference : List (List (BitVec 12))) (h : Only ps s t)
    (h1 : ps .mem) (h2 : ps .raised) (h3 : ps .free) (h4 : ps (.sfe l)) (h5 : ps (.gates l)) (h6 : ps (.heads l))
    (h7 : ps (.lane l)) (h8 : ps (.idle l)) (h9 : ps (.attrs l)) (h10 : ps .journal) (h11 : ps .orders)
    (h12 : ps .registers) :
    Only ps s (completeShortCal l dark reference t) := by
  unfold completeShortCal
  dsimp only
  repeat' first
    | with_reducible assumption | with_reducible apply updSfe_only | with_reducible apply finishCalibration_only

theorem gapCalTest_only (l : LaneId) (h : Only ps s t) (h1 : ps .raised) (h2 : ps (.sfe l)) (h3 : ps (.lane l)) :
    Only ps s (gapCalTest l t) := by
  unfold gapCalTest
  repeat' first
    | with_reducible assumption | with_reducible apply updSfe_only | with_reducible apply setHold_only
    | with_reducible apply only_ite

theorem calExpiry_only (l : LaneId) (h : Only ps s t) (h1 : ps .mem) (h2 : ps .raised) (h3 : ps .free) (h4 : ps
    (.sfe l)) (h5 : ps (.gates l)) (h6 : ps (.heads l)) (h7 : ps (.lane l)) (h8 : ps (.idle l)) (h9 : ps
    (.attrs l)) (h10 : ps .journal) (h11 : ps .orders) (h12 : ps .registers) :
    Only ps s (calExpiry l t) := by
  unfold calExpiry
  dsimp only
  repeat' first
    | with_reducible assumption | with_reducible apply updSfe_only | with_reducible apply evaluate_only
    | with_reducible apply gapCalTest_only

theorem abortScan_only (l : LaneId) (h : Only ps s t) (h1 : ps .raised) (h2 : ps (.sfe l)) (h3 : ps (.lane l)) :
    Only ps s (abortScan l t) := by
  unfold abortScan
  dsimp only
  repeat' first
    | with_reducible assumption | with_reducible apply updSfe_only | with_reducible apply setHold_only

theorem countBelt_only (l : LaneId) (forward : Bool) (h : Only ps s t) (h1 : ps (.belt l)) (h2 : ps (.eyes l))
    (h3 : ps (.track l)) :
    Only ps s (countBelt l forward t) := by
  unfold countBelt
  dsimp only
  repeat' first
    | with_reducible assumption | with_reducible apply updBelt_only | with_reducible apply updEye_only
    | with_reducible apply updTrack_only | with_reducible apply only_foldl | with_reducible apply only_ite
    | intro _ _ _

theorem creationVerdicts_only (l : LaneId) (serial : Nat) (previous : Option Nat) (gap : Option Nat)
    (h : Only ps s t) (h1 : ps (.track l)) (h2 : ps (.sfe l)) :
    Only ps s (creationVerdicts l serial previous gap t) := by
  unfold creationVerdicts
  dsimp only
  repeat' first
    | with_reducible assumption | with_reducible apply giveVerdict_only | with_reducible apply only_ite | split

theorem createEntry_only (l : LaneId) (lead : BeltSample) (h : Only ps s t) (h1 : ps .mem) (h2 : ps .raised)
    (h3 : ps .free) (h4 : ps (.track l)) (h5 : ps (.sfe l)) (h6 : ps (.gates l)) (h7 : ps (.heads l)) (h8 : ps
    (.pockets l)) (h9 : ps (.lane l)) (h10 : ps (.idle l)) (h11 : ps (.tally l)) (h12 : ps (.attrs l))
    (h13 : ps .journal) (h14 : ps .orders) (h15 : ps .registers) :
    Only ps s (createEntry l lead t) := by
  unfold createEntry
  dsimp only
  repeat' first
    | with_reducible assumption | with_reducible apply updTrack_only | with_reducible apply countUp_only
    | with_reducible apply countBlock_only | with_reducible apply deliverAll_only
    | with_reducible apply creationVerdicts_only

theorem untrackedArrival_only (l : LaneId) (p : Pos) (h : Only ps s t) (h1 : ps .raised) (h2 : ps (.lane l))
    (h3 : ps (.tally l)) (h4 : ps .journal) :
    Only ps s (untrackedArrival l p t) := by
  unfold untrackedArrival
  repeat' first
    | with_reducible assumption | with_reducible apply setHold_only | with_reducible apply countUp_only
    | with_reducible apply emit_only

theorem entryArrival_only (l : LaneId) (c : BeltSample) (h : Only ps s t) (h1 : ps .mem) (h2 : ps .raised)
    (h3 : ps .free) (h4 : ps (.track l)) (h5 : ps (.sfe l)) (h6 : ps (.gates l)) (h7 : ps (.heads l)) (h8 : ps
    (.pockets l)) (h9 : ps (.lane l)) (h10 : ps (.idle l)) (h11 : ps (.tally l)) (h12 : ps (.attrs l))
    (h13 : ps .scorer) (h14 : ps .journal) (h15 : ps .tests) (h16 : ps .orders) (h17 : ps .registers) :
    Only ps s (entryArrival l c t) := by
  unfold entryArrival
  dsimp only
  repeat' first
    | with_reducible assumption | with_reducible apply endLaneTest_only | with_reducible apply createEntry_only
    | with_reducible apply untrackedArrival_only | with_reducible apply only_ite

theorem lengthCheck_only (l : LaneId) (e : Entry) (p : Pos) (h : Only ps s t) (h1 : ps (.track l)) (h2 : ps
    (.sfe l)) :
    Only ps s (lengthCheck l e p t) := by
  unfold lengthCheck
  dsimp only
  repeat' first
    | with_reducible assumption | with_reducible apply updEntry_only | with_reducible apply giveVerdict_only
    | with_reducible apply only_ite

theorem entryDeparture_only (l : LaneId) (c : BeltSample) (h : Only ps s t) (h1 : ps .mem) (h2 : ps .raised)
    (h3 : ps .free) (h4 : ps (.track l)) (h5 : ps (.sfe l)) (h6 : ps (.gates l)) (h7 : ps (.heads l)) (h8 : ps
    (.pockets l)) (h9 : ps (.lane l)) (h10 : ps (.idle l)) (h11 : ps (.tally l)) (h12 : ps (.attrs l))
    (h13 : ps .journal) (h14 : ps .orders) (h15 : ps .registers) :
    Only ps s (entryDeparture l c t) := by
  unfold entryDeparture
  dsimp only
  repeat' first
    | with_reducible assumption | with_reducible apply updTrack_only | with_reducible apply deliverAll_only
    | with_reducible apply lengthCheck_only | with_reducible apply only_ite | split

theorem forceDelivery_only (l : LaneId) (e : Entry) (h : Only ps s t) (h1 : ps .mem) (h2 : ps .raised)
    (h3 : ps .free) (h4 : ps (.track l)) (h5 : ps (.sfe l)) (h6 : ps (.gates l)) (h7 : ps (.heads l)) (h8 : ps
    (.pockets l)) (h9 : ps (.lane l)) (h10 : ps (.idle l)) (h11 : ps (.tally l)) (h12 : ps (.attrs l))
    (h13 : ps .journal) (h14 : ps .orders) (h15 : ps .registers) :
    Only ps s (forceDelivery l e t) := by
  unfold forceDelivery
  dsimp only
  repeat' first
    | with_reducible assumption | with_reducible apply deliver_only | with_reducible apply deliverAll_only
    | with_reducible apply giveVerdict_only | split

theorem passCancelWindow_only (l : LaneId) (d : Side) (e : Entry) (h : Only ps s t) (h1 : ps (.track l)) (h2 : ps
    (.heads l)) :
    Only ps s (passCancelWindow l d e t) := by
  unfold passCancelWindow
  dsimp only
  repeat' first
    | with_reducible assumption | with_reducible apply updEntry_only | with_reducible apply withdrawAt_only
    | with_reducible apply only_ite

theorem arriveT_only (l : LaneId) (p : Pos) (h : Only ps s t) (h1 : ps .raised) (h2 : ps (.track l)) (h3 : ps
    (.gates l)) (h4 : ps (.heads l)) (h5 : ps (.pockets l)) (h6 : ps (.tally l)) (h7 : ps (.attrs l))
    (h8 : ps .journal) :
    Only ps s (arriveT l p t) := by
  unfold arriveT
  dsimp only
  repeat' first
    | with_reducible assumption | with_reducible apply updEntry_only | with_reducible apply rerouteAtEye_only
    | with_reducible apply phantom_only | with_reducible apply only_ite | split

theorem misbankEvent_only (l : LaneId) (y : Eye) (serial : Nat) (h : Only ps s t) (h1 : ps .raised)
    (h2 : ps .journal) :
    Only ps s (misbankEvent l y serial t) := by
  unfold misbankEvent
  repeat' first
    | with_reducible assumption | with_reducible apply emit_only

theorem checkBank_only (l : LaneId) (d : Side) (e : Entry) (h : Only ps s t) (h1 : ps .raised) (h2 : ps
    (.track l)) (h3 : ps (.gates l)) (h4 : ps (.heads l)) (h5 : ps (.pockets l)) (h6 : ps (.tally l)) (h7 : ps
    (.attrs l)) (h8 : ps .journal) :
    Only ps s (checkBank l d e t) := by
  unfold checkBank
  dsimp only
  repeat' first
    | with_reducible assumption | with_reducible apply rerouteAtEye_only | with_reducible apply misbankEvent_only
    | with_reducible apply only_ite

theorem arriveCancel_only (l : LaneId) (d : Side) (p : Pos) (h : Only ps s t) (h1 : ps .raised) (h2 : ps
    (.track l)) (h3 : ps (.gates l)) (h4 : ps (.heads l)) (h5 : ps (.pockets l)) (h6 : ps (.tally l)) (h7 : ps
    (.attrs l)) (h8 : ps .journal) :
    Only ps s (arriveCancel l d p t) := by
  unfold arriveCancel
  dsimp only
  repeat' first
    | with_reducible assumption | with_reducible apply updEntry_only | with_reducible apply phantom_only
    | with_reducible apply releasePrint_only | with_reducible apply updJam_only
    | with_reducible apply checkBank_only | split

theorem clearEndJam_only (l : LaneId) (q : Pocket) (h : Only ps s t) (h1 : ps (.track l)) :
    Only ps s (clearEndJam l q t) := by
  unfold clearEndJam
  repeat' first
    | with_reducible assumption | with_reducible apply updJam_only | with_reducible apply only_ite

theorem arrivePocket_only (l : LaneId) (q : Pocket) (p : Pos) (h : Only ps s t) (h1 : ps .mem) (h2 : ps .raised)
    (h3 : ps .free) (h4 : ps (.track l)) (h5 : ps (.sfe l)) (h6 : ps (.gates l)) (h7 : ps (.heads l)) (h8 : ps
    (.pockets l)) (h9 : ps (.lane l)) (h10 : ps (.idle l)) (h11 : ps (.tally l)) (h12 : ps (.attrs l))
    (h13 : ps .journal) (h14 : ps .orders) (h15 : ps .registers) :
    Only ps s (arrivePocket l q p t) := by
  unfold arrivePocket
  dsimp only
  repeat' first
    | with_reducible assumption | with_reducible apply countBlock_only | with_reducible apply pocketArrival_only
    | with_reducible apply updEntry_only | with_reducible apply rerouteAtEye_only
    | with_reducible apply phantom_only | with_reducible apply finalise_only
    | with_reducible apply clearEndJam_only | with_reducible apply only_ite | split

theorem allSlots_only (f : Fin 2 → Head → Head) (h : Only ps s t) (h1 : ∀ k, ps (.heads k)) :
    Only ps s (allSlots f t) := by
  unfold allSlots
  dsimp only
  repeat' first
    | with_reducible assumption | with_reducible exact h1 _ | with_reducible apply updHead_only

theorem dropImages_only (n : Nat) (h : Only ps s t) (h1 : ∀ k, ps (.heads k)) :
    Only ps s (dropImages n t) := by
  unfold dropImages
  repeat' first
    | with_reducible assumption | with_reducible exact h1 _ | with_reducible apply allSlots_only

theorem genRollEvent_only (g : Generation) (h : Only ps s t) (h1 : ps .raised) (h2 : ps .free) (h3 : ps .journal) :
    Only ps s (genRollEvent g t) := by
  unfold genRollEvent
  dsimp only
  split
  · exact emit_only _ _ _ _ _ _ (drawFree_only h h2) h1 h3
  · exact emit_only _ _ _ _ _ _ h h1 h3

theorem becomeCurrent_only (g : Generation) (h : Only ps s t) (h1 : ps .raised) (h2 : ps .free) (h3 : ∀ k, ps
    (.heads k)) (h4 : ps .postmark) (h5 : ps .journal) :
    Only ps s (becomeCurrent g t) := by
  unfold becomeCurrent
  dsimp only
  repeat' first
    | with_reducible assumption | with_reducible exact h3 _ | with_reducible apply updPmc_only
    | with_reducible apply emit_only | with_reducible apply dropImages_only
    | with_reducible apply genRollEvent_only | split

theorem roll_only (c : RollCause) (h : Only ps s t) (h1 : ps .raised) (h2 : ps .free) (h3 : ∀ k, ps (.heads k))
    (h4 : ps .postmark) (h5 : ps .journal) :
    Only ps s (roll c t) := by
  unfold roll
  dsimp only
  repeat' first
    | with_reducible assumption | with_reducible exact h3 _ | with_reducible apply updPmc_only
    | with_reducible apply becomeCurrent_only | with_reducible apply only_ite

theorem clockSecond_only  (h : Only ps s t) (h1 : ps .raised) (h2 : ps .free) (h3 : ∀ k, ps (.heads k))
    (h4 : ps .postmark) (h5 : ps .journal) :
    Only ps s (clockSecond t) := by
  unfold clockSecond
  dsimp only
  repeat' first
    | with_reducible assumption | with_reducible exact h3 _ | with_reducible apply updPmc_only
    | with_reducible apply roll_only | with_reducible apply only_ite

theorem finishComposition_only  (h : Only ps s t) (h1 : ps .raised) (h2 : ps .free) (h3 : ∀ k, ps (.heads k))
    (h4 : ps .postmark) (h5 : ps .journal) :
    Only ps s (finishComposition t) := by
  unfold finishComposition
  repeat' first
    | with_reducible assumption | with_reducible exact h3 _ | with_reducible apply updPmc_only
    | with_reducible apply becomeCurrent_only | split

theorem sendOn_only (l : LaneId) (p : Pocket) (g : Gate) (serial : Nat) (h : Only ps s t) (h1 : ps .raised)
    (h2 : ps (.track l)) (h3 : ps (.gates l)) (h4 : ps (.heads l)) (h5 : ps (.pockets l)) (h6 : ps (.tally l))
    (h7 : ps (.attrs l)) (h8 : ps .journal) :
    Only ps s (sendOn l p g serial t) := by
  unfold sendOn
  dsimp only
  repeat' first
    | with_reducible assumption | with_reducible apply emit_only | with_reducible apply releaseAt_only
    | with_reducible apply gateWork_only | with_reducible apply only_ite | split

theorem trayOut_only (l : LaneId) (p : Pocket) (h : Only ps s t) (h1 : ps .raised) (h2 : ps (.track l)) (h3 : ps
    (.gates l)) (h4 : ps (.heads l)) (h5 : ps (.pockets l)) (h6 : ps (.tally l)) (h7 : ps (.attrs l))
    (h8 : ps .journal) :
    Only ps s (trayOut l p t) := by
  unfold trayOut
  dsimp only
  repeat' first
    | with_reducible assumption | with_reducible apply updPocket_only | with_reducible apply emit_only
    | with_reducible apply setPocketState_only | with_reducible apply sendOn_only | with_reducible apply only_foldl
    | with_reducible apply only_ite | intro _ _ _ | split

theorem trayIn_only (l : LaneId) (p : Pocket) (h : Only ps s t) (h1 : ps .raised) (h2 : ps (.pockets l)) (h3 : ps
    (.lane l)) (h4 : ps .journal) :
    Only ps s (trayIn l p t) := by
  unfold trayIn
  dsimp only
  repeat' first
    | with_reducible assumption | with_reducible apply updPocket_only | with_reducible apply emit_only
    | with_reducible apply setPocketState_only | with_reducible apply endReleased_only
    | with_reducible apply only_ite

theorem askWake_only (l : LaneId) (h : Only ps s t) (h1 : ps (.sfe l)) :
    Only ps s (askWake l t) := by
  unfold askWake
  repeat' first
    | with_reducible assumption | with_reducible apply updSfe_only

theorem finishRise_only (l : LaneId) (r : Rise) (h : Only ps s t) (h1 : ps (.sfe l)) (h2 : ps (.lane l)) (h3 : ps
    (.idle l)) :
    Only ps s (finishRise l r t) := by
  unfold finishRise
  dsimp only
  repeat' first
    | with_reducible assumption | with_reducible apply updLsq_only | with_reducible apply warmCalibration_only
    | with_reducible apply askWake_only | with_reducible apply only_ite

theorem loseScanning_only (l : LaneId) (h : Only ps s t) (h1 : ps .mem) (h2 : ps .raised) (h3 : ps .free) (h4 : ps
    (.track l)) (h5 : ps (.sfe l)) (h6 : ps (.gates l)) (h7 : ps (.heads l)) (h8 : ps (.pockets l)) (h9 : ps
    (.lane l)) (h10 : ps (.idle l)) (h11 : ps (.tally l)) (h12 : ps (.attrs l)) (h13 : ps .journal)
    (h14 : ps .orders) (h15 : ps .registers) :
    Only ps s (loseScanning l t) := by
  unfold loseScanning
  repeat' first
    | with_reducible assumption | with_reducible apply deliverAll_only | with_reducible apply giveVerdict_only
    | with_reducible apply only_foldl | with_reducible apply only_ite | intro _ _ _

theorem offLane_only (l : LaneId) (h : Only ps s t) (h1 : ps .mem) (h2 : ps .raised) (h3 : ps .free) (h4 : ps
    (.track l)) (h5 : ps (.sfe l)) (h6 : ps (.gates l)) (h7 : ps (.heads l)) (h8 : ps (.pockets l)) (h9 : ps
    (.lane l)) (h10 : ps (.idle l)) (h11 : ps (.tally l)) (h12 : ps (.attrs l)) (h13 : ps .journal)
    (h14 : ps .orders) (h15 : ps .registers) :
    Only ps s (offLane l t) := by
  unfold offLane
  repeat' first
    | with_reducible assumption | with_reducible apply updLsq_only | with_reducible apply changeLane_only
    | with_reducible apply lampTo_only | with_reducible apply coldHeads_only
    | with_reducible apply loseScanning_only | exact fun e => nomatch e

theorem standbyLane_only (l : LaneId) (h : Only ps s t) (h1 : ps .mem) (h2 : ps .raised) (h3 : ps .free) (h4 : ps
    (.track l)) (h5 : ps (.sfe l)) (h6 : ps (.gates l)) (h7 : ps (.heads l)) (h8 : ps (.pockets l)) (h9 : ps
    (.lane l)) (h10 : ps (.idle l)) (h11 : ps (.tally l)) (h12 : ps (.attrs l)) (h13 : ps .journal)
    (h14 : ps .orders) (h15 : ps .registers) :
    Only ps s (standbyLane l t) := by
  unfold standbyLane
  repeat' first
    | with_reducible assumption | with_reducible apply changeLane_only | with_reducible apply lampTo_only
    | with_reducible apply loseScanning_only | exact fun e => nomatch e

theorem clearLane_only (l : LaneId) (h : Only ps s t) (h1 : ps .raised) (h2 : ps (.eyes l)) (h3 : ps (.track l))
    (h4 : ps (.sfe l)) (h5 : ps (.gates l)) (h6 : ps (.heads l)) (h7 : ps (.pockets l)) (h8 : ps (.lane l))
    (h9 : ps (.idle l)) (h10 : ps (.tally l)) (h11 : ps .scorer) (h12 : ps .journal) :
    Only ps s (clearLane l t) := by
  unfold clearLane
  repeat' first
    | with_reducible assumption | with_reducible apply restartDark_only | with_reducible apply changeLane_only
    | with_reducible apply purgeLane_only | exact fun e => nomatch e

theorem abortLane_only (l : LaneId) (h : Only ps s t) (h1 : ps .mem) (h2 : ps .raised) (h3 : ps .free) (h4 : ps
    (.track l)) (h5 : ps (.sfe l)) (h6 : ps (.gates l)) (h7 : ps (.heads l)) (h8 : ps (.pockets l)) (h9 : ps
    (.lane l)) (h10 : ps (.idle l)) (h11 : ps (.tally l)) (h12 : ps .scorer) (h13 : ps .journal) (h14 : ps .tests)
    (h15 : ps .orders) (h16 : ps .registers) :
    Only ps s (abortLane l t) := by
  unfold abortLane
  dsimp only
  repeat' first
    | with_reducible assumption | with_reducible apply updLsq_only | with_reducible apply setHold_only
    | with_reducible apply endPending_only | with_reducible apply setLane_only
    | with_reducible apply laneEvent_only | with_reducible apply endLaneTest_only
    | with_reducible apply coldHeads_only | with_reducible apply clearTrims_only
    | with_reducible apply purgeLane_only | with_reducible apply dropWarming_only
    | with_reducible apply abortScan_only | exact fun e => nomatch e

theorem countLost_only (p : Page) (h : Only ps s t) (h1 : ∀ k, ps (.tally k)) (h2 : ps .journal) :
    Only ps s (countLost p t) := by
  unfold countLost
  repeat' first
    | with_reducible assumption | with_reducible exact h1 _ | with_reducible apply updJrn_only
    | with_reducible apply countUp_only | with_reducible apply only_foldl | intro _ _ _ | split

theorem countFilled_only  (h : Only ps s t) (h1 : ps .journal) :
    Only ps s (countFilled t) := by
  unfold countFilled
  repeat' first
    | with_reducible assumption | with_reducible apply updJrn_only

theorem finishFlush_only (seq : Nat) (h : Only ps s t) (h1 : ps .mem) (h2 : ps .raised) (h3 : ps .free)
    (h4 : ps .journal) (h5 : ps .orders) (h6 : ps .registers) :
    Only ps s (finishFlush seq t) := by
  unfold finishFlush
  repeat' first
    | with_reducible assumption | with_reducible apply orderDone_only | with_reducible apply only_ite

theorem writeOutPage_only (c : ClosedPage) (h : Only ps s t) (h1 : ps .mem) (h2 : ps .raised) (h3 : ps .free)
    (h4 : ∀ k, ps (.tally k)) (h5 : ps .journal) (h6 : ps .orders) (h7 : ps .registers) :
    Only ps s (writeOutPage c t) := by
  unfold writeOutPage
  dsimp only
  repeat' first
    | with_reducible assumption | with_reducible exact h4 _ | with_reducible apply writeBytes_only
    | with_reducible apply raise_only | with_reducible apply takePage_only | with_reducible apply windowFault_only
    | with_reducible apply countLost_only | with_reducible apply countFilled_only
    | with_reducible apply finishFlush_only | with_reducible apply only_ite

theorem writeStatus_only (a : Nat) (h : Only ps s t) (h1 : ps .mem) (h2 : ps .raised) (h3 : ps .journal)
    (h4 : ps .statusDue) (h5 : ps .statusUnit) (h6 : ps .attn) : Only ps s (writeStatus a t) := by
  have mark : ∀ (u : State) (f : StatusUnit → StatusUnit) (w : BitVec 10), Only ps s u →
      Only ps s { u with stat := f u.stat, pif := { u.pif with attn := u.pif.attn ||| w } } := by
    intro u f w hu
    refine only_trans hu (fun p hp => ?_)
    cases p <;> simp_all [agree]
  unfold writeStatus
  dsimp only
  split
  · exact mark _ (fun q =>
      { q with updateCount := t.stat.updateCount + 1, due := q.again, again := false, sinceWrite := some 0, waiting := 0 })
      _ (writeBytes_only a _ h h1)
  · exact mark _ (fun q => { q with due := false, again := false, suspended := true, waiting := 0 }) _
      (windowFault_only none _ a h h2 h3)

theorem chainWait_only  (h : Only ps s t) (h1 : ps .orders) :
    Only ps s (chainWait t) := by
  unfold chainWait
  repeat' first
    | with_reducible assumption | with_reducible apply updOcu_only

theorem orderReadRefused_only  (h : Only ps s t) (h1 : ps .raised) (h2 : ps .journal) (h3 : ps .orders)
    (h4 : ps .registers) :
    Only ps s (orderReadRefused t) := by
  unfold orderReadRefused
  repeat' first
    | with_reducible assumption | with_reducible apply windowFault_only | with_reducible apply chainFault_only

theorem takeBlock_only (b : OrderBlock) (h : Only ps s t) (h1 : ps .mem) (h2 : ps .raised) (h3 : ps .free)
    (h4 : ps .journal) (h5 : ps .orders) (h6 : ps .registers) :
    Only ps s (takeBlock b t) := by
  unfold takeBlock
  dsimp only
  repeat' first
    | with_reducible assumption | with_reducible apply updOcu_only | with_reducible apply orderRefused_only
    | with_reducible apply only_ite | split

theorem readBlock_only  (h : Only ps s t) (h1 : ps .mem) (h2 : ps .raised) (h3 : ps .free) (h4 : ps .journal)
    (h5 : ps .orders) (h6 : ps .registers) :
    Only ps s (readBlock t) := by
  unfold readBlock
  dsimp only
  repeat' first
    | with_reducible assumption | with_reducible apply chainFault_only | with_reducible apply chainWait_only
    | with_reducible apply orderReadRefused_only | with_reducible apply takeBlock_only
    | with_reducible apply only_ite | split

theorem readLink_only  (h : Only ps s t) (h1 : ps .mem) (h2 : ps .raised) (h3 : ps .free) (h4 : ps .journal)
    (h5 : ps .orders) (h6 : ps .registers) :
    Only ps s (readLink t) := by
  unfold readLink
  dsimp only
  repeat' first
    | with_reducible assumption | with_reducible apply updOcu_only | with_reducible apply chainFault_only
    | with_reducible apply chainWait_only | with_reducible apply orderReadRefused_only
    | with_reducible apply readBlock_only | with_reducible apply only_ite

theorem chainRead_only  (h : Only ps s t) (h1 : ps .mem) (h2 : ps .raised) (h3 : ps .free) (h4 : ps .journal)
    (h5 : ps .orders) (h6 : ps .registers) :
    Only ps s (chainRead t) := by
  unfold chainRead
  repeat' first
    | with_reducible assumption | with_reducible apply readBlock_only | with_reducible apply readLink_only | split

theorem startChain_only  (h : Only ps s t) (h1 : ps .mem) (h2 : ps .raised) (h3 : ps .free) (h4 : ps .journal)
    (h5 : ps .orders) (h6 : ps .registers) :
    Only ps s (startChain t) := by
  unfold startChain
  dsimp only
  repeat' first
    | with_reducible assumption | with_reducible apply updOcu_only | with_reducible apply updPif_only
    | with_reducible apply chainFault_only | with_reducible apply readBlock_only
    | with_reducible apply readLink_only | with_reducible apply only_ite | exact fun _ => ⟨rfl, rfl, rfl⟩ | split

theorem stopChain_only  (h : Only ps s t) (h1 : ps .orders) (h2 : ps .registers) :
    Only ps s (stopChain t) := by
  unfold stopChain
  repeat' first
    | with_reducible assumption | with_reducible apply updOcu_only | with_reducible apply updPif_only
    | with_reducible apply only_ite | exact fun _ => ⟨rfl, rfl, rfl⟩

theorem writeChain_only (p : BitVec 64 → BitVec 64) (h : Only ps s t) (h1 : ps .orders) (h2 : ps .registers) :
    Only ps s (writeChain p t) := by
  unfold writeChain
  dsimp only
  repeat' first
    | with_reducible assumption | with_reducible apply updOcu_only | with_reducible apply updPif_only
    | with_reducible apply only_ite | exact fun _ => ⟨rfl, rfl, rfl⟩

theorem orderFaulted_only (k : Access) (a : Nat) (h : Only ps s t) (h1 : ps .mem) (h2 : ps .raised)
    (h3 : ps .free) (h4 : ps .journal) (h5 : ps .orders) (h6 : ps .registers) :
    Only ps s (orderFaulted k a t) := by
  unfold orderFaulted
  repeat' first
    | with_reducible assumption | with_reducible apply windowFault_only | with_reducible apply orderRefused_only

theorem endSuspension_only  (h : Only ps s t) (h1 : ps .statusDue) (h2 : ps .statusUnit) :
    Only ps s (endSuspension t) := by
  unfold endSuspension
  repeat' first
    | with_reducible assumption | with_reducible apply updStat_only

theorem configurePort_only (addr : Nat) (mask : BitVec 16) (poll lowWater : Nat) (h : Only ps s t) (h1 : ps .mem)
    (h2 : ps .raised) (h3 : ps .free) (h4 : ps .journal) (h5 : ps .orders) (h6 : ps .statusDue)
    (h7 : ps .statusUnit) (h8 : ps .registers) :
    Only ps s (configurePort addr mask poll lowWater t) := by
  unfold configurePort
  dsimp only
  repeat' first
    | with_reducible assumption | with_reducible apply updJrn_only | with_reducible apply updOcu_only
    | with_reducible apply updStat_only | with_reducible apply updPif_only | with_reducible apply orderDone_only
    | with_reducible apply only_ite | exact fun _ => ⟨rfl, rfl, rfl⟩

theorem tableCurrent_only (c9 : ClassTable) (h : Only ps s t) (h1 : ps .mem) (h2 : ps .raised) (h3 : ps .free)
    (h4 : ps .scorer) (h5 : ps .journal) (h6 : ps .tests) (h7 : ps .orders) (h8 : ps .registers) :
    Only ps s (tableCurrent c9 t) := by
  unfold tableCurrent
  repeat' first
    | with_reducible assumption | with_reducible apply updMsc_only | with_reducible apply endAudit_only

theorem acceptTable_only (n mode : Nat) (b : List Byte) (h : Only ps s t) (h1 : ps .mem) (h2 : ps .raised)
    (h3 : ps .free) (h4 : ps .scorer) (h5 : ps .journal) (h6 : ps .tests) (h7 : ps .orders) (h8 : ps .registers) :
    Only ps s (acceptTable n mode b t) := by
  unfold acceptTable
  dsimp only
  repeat' first
    | with_reducible assumption | with_reducible apply updMsc_only | with_reducible apply orderDone_only
    | with_reducible apply orderTaken_only | with_reducible apply tableCurrent_only | with_reducible apply only_ite

theorem loadClasses_only (addr n mode : Nat) (h : Only ps s t) (h1 : ps .mem) (h2 : ps .raised) (h3 : ps .free)
    (h4 : ps .scorer) (h5 : ps .journal) (h6 : ps .tests) (h7 : ps .orders) (h8 : ps .registers) :
    Only ps s (loadClasses addr n mode t) := by
  unfold loadClasses
  repeat' first
    | with_reducible assumption | with_reducible apply orderRefused_only | with_reducible apply orderFaulted_only
    | with_reducible apply acceptTable_only | with_reducible apply only_ite | split

theorem applyStaged_only (c9 : ClassTable) (h : Only ps s t) (h1 : ps .mem) (h2 : ps .raised) (h3 : ps .free)
    (h4 : ps .scorer) (h5 : ps .journal) (h6 : ps .tests) (h7 : ps .orders) (h8 : ps .registers) :
    Only ps s (applyStaged c9 t) := by
  unfold applyStaged
  repeat' first
    | with_reducible assumption | with_reducible apply updMsc_only | with_reducible apply endLong_only
    | with_reducible apply tableCurrent_only

theorem acceptGeometry_only (l : LaneId) (g : Geometry) (h : Only ps s t) (h1 : ps .mem) (h2 : ps .raised)
    (h3 : ps .free) (h4 : ps (.geom l)) (h5 : ps (.gates l)) (h6 : ps (.pockets l)) (h7 : ps (.lane l))
    (h8 : ps .journal) (h9 : ps .orders) (h10 : ps .registers) :
    Only ps s (acceptGeometry l g t) := by
  have hg : Only ps s { t with geom := t.geom.upd l (fun _ => g) } := by
    refine only_trans h (fun p hp => ?_)
    cases p <;> simp_all [agree]
    rename_i k
    exact PerLane.get_upd_other _ _ (fun e => hp (e ▸ h4))
  unfold acceptGeometry
  dsimp only
  repeat' first
    | with_reducible assumption | with_reducible apply orderDone_only | with_reducible apply only_foldl
    | with_reducible apply followCapacity_only | with_reducible apply setCapacity_only
    | with_reducible apply updChannel_only | intro _ _ _

theorem loadGeometry_only (addr lane : Nat) (h : Only ps s t) (h1 : ps .mem) (h2 : ps .raised) (h3 : ps .free)
    (h4 : ∀ k, ps (.geom k)) (h5 : ∀ k, ps (.gates k)) (h6 : ∀ k, ps (.pockets k)) (h7 : ∀ k, ps (.lane k))
    (h8 : ps .journal) (h9 : ps .orders) (h10 : ps .registers) :
    Only ps s (loadGeometry addr lane t) := by
  unfold loadGeometry
  repeat' first
    | with_reducible assumption | with_reducible exact h4 _ | with_reducible exact h5 _ | with_reducible exact h6 _
    | with_reducible exact h7 _ | with_reducible apply orderRefused_only | with_reducible apply orderFaulted_only
    | with_reducible apply acceptGeometry_only | with_reducible apply only_ite | split

theorem redecideFast_only  (h : Only ps s t) (h1 : ∀ k, ps (.heads k)) :
    Only ps s (redecideFast t) := by
  unfold redecideFast
  dsimp only
  repeat' first
    | with_reducible assumption | with_reducible exact h1 _ | with_reducible apply updHead_only

theorem emptyBars_only  (h : Only ps s t) (h1 : ∀ k, ps (.heads k)) :
    Only ps s (emptyBars t) := by
  unfold emptyBars
  repeat' first
    | with_reducible assumption | with_reducible exact h1 _ | with_reducible apply allSlots_only

theorem acceptStyles_only (b : List Byte) (h : Only ps s t) (h1 : ps .mem) (h2 : ps .raised) (h3 : ps .free)
    (h4 : ∀ k, ps (.heads k)) (h5 : ps .postmark) (h6 : ps .journal) (h7 : ps .orders) (h8 : ps .registers) :
    Only ps s (acceptStyles b t) := by
  unfold acceptStyles
  dsimp only
  repeat' first
    | with_reducible assumption | with_reducible exact h4 _ | with_reducible apply updPmc_only
    | with_reducible apply orderDone_only | with_reducible apply roll_only | with_reducible apply redecideFast_only
    | with_reducible apply emptyBars_only

theorem loadStyles_only (addr : Nat) (h : Only ps s t) (h1 : ps .mem) (h2 : ps .raised) (h3 : ps .free)
    (h4 : ∀ k, ps (.heads k)) (h5 : ps .postmark) (h6 : ps .journal) (h7 : ps .orders) (h8 : ps .registers) :
    Only ps s (loadStyles addr t) := by
  unfold loadStyles
  dsimp only
  repeat' first
    | with_reducible assumption | with_reducible exact h4 _ | with_reducible apply orderRefused_only
    | with_reducible apply orderFaulted_only | with_reducible apply acceptStyles_only
    | with_reducible apply only_ite | split

theorem setClock_only (year month day seconds period : Nat) (h : Only ps s t) (h1 : ps .mem) (h2 : ps .raised)
    (h3 : ps .free) (h4 : ∀ k, ps (.heads k)) (h5 : ps .postmark) (h6 : ps .journal) (h7 : ps .orders)
    (h8 : ps .registers) :
    Only ps s (setClock year month day seconds period t) := by
  unfold setClock
  repeat' first
    | with_reducible assumption | with_reducible exact h4 _ | with_reducible apply updPmc_only
    | with_reducible apply orderDone_only | with_reducible apply orderRefused_only | with_reducible apply roll_only
    | with_reducible apply only_ite

theorem restoreElement_only (l : LaneId) (a : AttrId) (h : Only ps s t) (h1 : ps (.gates l)) (h2 : ps (.heads l)) :
    Only ps s (restoreElement l a t) := by
  unfold restoreElement
  repeat' first
    | with_reducible assumption | with_reducible apply updGsq_only | with_reducible apply updHead_only | split

theorem restoreRecord_only (l : LaneId) (a : AttrId) (e : ThresholdEntry) (h : Only ps s t) (h1 : ps .raised)
    (h2 : ps (.gates l)) (h3 : ps (.heads l)) (h4 : ps (.attrs l)) :
    Only ps s (restoreRecord l a e t) := by
  unfold restoreRecord
  dsimp only
  repeat' first
    | with_reducible assumption | with_reducible apply updAttr_only | with_reducible apply raise_only
    | with_reducible apply restoreElement_only | with_reducible apply only_ite

theorem applyThreshold_only (e : ThresholdEntry) (h : Only ps s t) (h1 : ps .raised) (h2 : ∀ k, ps (.gates k))
    (h3 : ∀ k, ps (.heads k)) (h4 : ∀ k, ps (.attrs k)) :
    Only ps s (applyThreshold e t) := by
  unfold applyThreshold
  dsimp only
  repeat' first
    | with_reducible assumption | with_reducible exact h2 _ | with_reducible exact h3 _ | with_reducible exact h4 _
    | with_reducible apply updAttr_only | with_reducible apply restoreRecord_only | with_reducible apply only_ite
    | split

theorem testThreshold_only (e : ThresholdEntry) (h : Only ps s t) (h1 : ps .mem) (h2 : ps .raised) (h3 : ps .free)
    (h4 : ∀ k, ps (.gates k)) (h5 : ∀ k, ps (.heads k)) (h6 : ∀ k, ps (.lane k)) (h7 : ∀ k, ps (.idle k))
    (h8 : ∀ k, ps (.attrs k)) (h9 : ps .journal) (h10 : ps .orders) (h11 : ps .registers) :
    Only ps s (testThreshold e t) := by
  unfold testThreshold
  dsimp only
  repeat' first
    | with_reducible assumption | with_reducible exact h4 _ | with_reducible exact h5 _ | with_reducible exact h6 _
    | with_reducible exact h7 _ | with_reducible exact h8 _ | with_reducible apply retireRecord_only
    | with_reducible apply failingTest_only | with_reducible apply only_ite | split

theorem freeLane_only (l : LaneId) (h : Only ps s t) (h1 : ps (.lane l)) (h2 : ps (.idle l)) :
    Only ps s (freeLane l t) := by
  unfold freeLane
  repeat' first
    | with_reducible assumption | with_reducible apply updLsq_only | with_reducible apply only_ite

theorem acceptThresholds_only (es : List ThresholdEntry) (h : Only ps s t) (h1 : ps .mem) (h2 : ps .raised)
    (h3 : ps .free) (h4 : ∀ k, ps (.gates k)) (h5 : ∀ k, ps (.heads k)) (h6 : ∀ k, ps (.lane k)) (h7 : ∀ k, ps
    (.idle k)) (h8 : ∀ k, ps (.attrs k)) (h9 : ps .journal) (h10 : ps .orders) (h11 : ps .registers) :
    Only ps s (acceptThresholds es t) := by
  unfold acceptThresholds
  dsimp only
  repeat' first
    | with_reducible assumption | with_reducible exact h4 _ | with_reducible exact h5 _ | with_reducible exact h6 _
    | with_reducible exact h7 _ | with_reducible exact h8 _ | with_reducible apply orderDone_only
    | with_reducible apply healthHold_only | with_reducible apply applyThreshold_only
    | with_reducible apply testThreshold_only | with_reducible apply freeLane_only
    | with_reducible apply only_foldl | intro _ _ _

theorem loadThresholds_only (addr : Nat) (h : Only ps s t) (h1 : ps .mem) (h2 : ps .raised) (h3 : ps .free)
    (h4 : ∀ k, ps (.gates k)) (h5 : ∀ k, ps (.heads k)) (h6 : ∀ k, ps (.lane k)) (h7 : ∀ k, ps (.idle k))
    (h8 : ∀ k, ps (.attrs k)) (h9 : ps .journal) (h10 : ps .orders) (h11 : ps .registers) :
    Only ps s (loadThresholds addr t) := by
  unfold loadThresholds
  dsimp only
  repeat' first
    | with_reducible assumption | with_reducible exact h4 _ | with_reducible exact h5 _ | with_reducible exact h6 _
    | with_reducible exact h7 _ | with_reducible exact h8 _ | with_reducible apply orderRefused_only
    | with_reducible apply orderFaulted_only | with_reducible apply acceptThresholds_only
    | with_reducible apply only_ite | split

theorem acceptPages_only (pages : List Nat) (h : Only ps s t) (h1 : ps .mem) (h2 : ps .raised) (h3 : ps .free)
    (h4 : ps .journal) (h5 : ps .orders) (h6 : ps .registers) :
    Only ps s (acceptPages pages t) := by
  unfold acceptPages
  repeat' first
    | with_reducible assumption | with_reducible apply updJrn_only | with_reducible apply takePage_only
    | with_reducible apply orderDone_only

theorem pageChecked_only (a : Nat) (h : Only ps s t) (h1 : ps .raised) (h2 : ps .journal) :
    Only ps s (pageChecked a t) := by
  unfold pageChecked
  repeat' first
    | with_reducible assumption | with_reducible apply windowFault_only | with_reducible apply only_ite

theorem givePages_only (addr n : Nat) (h : Only ps s t) (h1 : ps .mem) (h2 : ps .raised) (h3 : ps .free)
    (h4 : ps .journal) (h5 : ps .orders) (h6 : ps .registers) :
    Only ps s (givePages addr n t) := by
  unfold givePages
  dsimp only
  repeat' first
    | with_reducible assumption | with_reducible apply orderRefused_only | with_reducible apply orderFaulted_only
    | with_reducible apply acceptPages_only | with_reducible apply pageChecked_only
    | with_reducible apply only_ite | split

theorem flushJournal_only  (h : Only ps s t) (h1 : ps .mem) (h2 : ps .raised) (h3 : ps .free) (h4 : ps .journal)
    (h5 : ps .orders) (h6 : ps .registers) :
    Only ps s (flushJournal t) := by
  unfold flushJournal
  repeat' first
    | with_reducible assumption | with_reducible apply updOcu_only | with_reducible apply closePage_only
    | with_reducible apply orderDone_only | with_reducible apply only_ite | split

theorem zeroTally_only (l : LaneId) (h : Only ps s t) (h1 : ps (.tally l)) : Only ps s (zeroTally l t) := by
  refine only_trans h (fun p hp => ?_)
  unfold zeroTally
  cases p <;> simp_all [agree]
  rename_i k
  exact PerLane.get_upd_other _ _ (fun e => hp (e ▸ h1))

theorem tallySnapshot_only (addr lane zf : Nat) (h : Only ps s t) (h1 : ps .mem) (h2 : ps .raised) (h3 : ps .free)
    (h4 : ∀ k, ps (.tally k)) (h5 : ps .journal) (h6 : ps .orders) (h7 : ps .registers) :
    Only ps s (tallySnapshot addr lane zf t) := by
  unfold tallySnapshot
  dsimp only
  repeat' first
    | with_reducible assumption | with_reducible exact h4 _ | with_reducible apply writeBytes_only
    | with_reducible apply orderDone_only | with_reducible apply orderRefused_only
    | with_reducible apply orderFaulted_only | with_reducible apply zeroTally_only | with_reducible apply only_ite
    | split

theorem healthSnapshot_only (addr : Nat) (h : Only ps s t) (h1 : ps .mem) (h2 : ps .raised) (h3 : ps .free)
    (h4 : ps .journal) (h5 : ps .orders) (h6 : ps .registers) :
    Only ps s (healthSnapshot addr t) := by
  unfold healthSnapshot
  repeat' first
    | with_reducible assumption | with_reducible apply writeBytes_only | with_reducible apply orderDone_only
    | with_reducible apply orderFaulted_only | with_reducible apply only_ite

theorem orderNothing_only  (h : Only ps s t) (h1 : ps .mem) (h2 : ps .raised) (h3 : ps .free) (h4 : ps .journal)
    (h5 : ps .orders) (h6 : ps .registers) :
    Only ps s (orderNothing t) := by
  unfold orderNothing
  repeat' first
    | with_reducible assumption | with_reducible apply orderDone_only

theorem pendOrder_only (l : LaneId) (p : PendingLane) (h : Only ps s t) (h1 : ps .mem) (h2 : ps .raised)
    (h3 : ps .free) (h4 : ps (.lane l)) (h5 : ps (.idle l)) (h6 : ps .journal) (h7 : ps .orders)
    (h8 : ps .registers) :
    Only ps s (pendOrder l p t) := by
  unfold pendOrder
  repeat' first
    | with_reducible assumption | with_reducible apply updLsq_only | with_reducible apply orderTaken_only

theorem runWarming_only (l : LaneId) (h : Only ps s t) (h1 : ps .mem) (h2 : ps .raised) (h3 : ps .free) (h4 : ps
    (.eyes l)) (h5 : ps (.sfe l)) (h6 : ps (.lane l)) (h7 : ps (.idle l)) (h8 : ps .journal) (h9 : ps .orders)
    (h10 : ps .registers) :
    Only ps s (runWarming l t) := by
  unfold runWarming
  repeat' first
    | with_reducible assumption | with_reducible apply startWarming_only | with_reducible apply pendOrder_only

theorem runReady_only (l : LaneId) (h : Only ps s t) (h1 : ps .mem) (h2 : ps .raised) (h3 : ps .free) (h4 : ps
    (.eyes l)) (h5 : ps (.sfe l)) (h6 : ps (.lane l)) (h7 : ps (.idle l)) (h8 : ps .journal) (h9 : ps .orders)
    (h10 : ps .registers) :
    Only ps s (runReady l t) := by
  unfold runReady
  repeat' first
    | with_reducible assumption | with_reducible apply orderDone_only | with_reducible apply enterRunning_only
    | with_reducible apply runWarming_only | with_reducible apply only_ite

theorem runLane_only (l : LaneId) (h : Only ps s t) (h1 : ps .mem) (h2 : ps .raised) (h3 : ps .free) (h4 : ps
    (.eyes l)) (h5 : ps (.sfe l)) (h6 : ps (.lane l)) (h7 : ps (.idle l)) (h8 : ps .journal) (h9 : ps .orders)
    (h10 : ps .registers) :
    Only ps s (runLane l t) := by
  unfold runLane
  repeat' first
    | with_reducible assumption | with_reducible apply orderRefused_only | with_reducible apply orderNothing_only
    | with_reducible apply runWarming_only | with_reducible apply runReady_only | with_reducible apply only_ite
    | split

theorem drainRunning_only (l : LaneId) (h : Only ps s t) (h1 : ps .mem) (h2 : ps .raised) (h3 : ps .free) (h4 : ps
    (.lane l)) (h5 : ps (.idle l)) (h6 : ps .journal) (h7 : ps .orders) (h8 : ps .registers) :
    Only ps s (drainRunning l t) := by
  unfold drainRunning
  dsimp only
  repeat' first
    | with_reducible assumption | with_reducible apply orderDone_only | with_reducible apply changeLane_only
    | with_reducible apply drainTest_only | with_reducible apply pendOrder_only | with_reducible apply only_ite
    | exact fun e => nomatch e

theorem drainLane_only (l : LaneId) (h : Only ps s t) (h1 : ps .mem) (h2 : ps .raised) (h3 : ps .free) (h4 : ps
    (.lane l)) (h5 : ps (.idle l)) (h6 : ps .journal) (h7 : ps .orders) (h8 : ps .registers) :
    Only ps s (drainLane l t) := by
  unfold drainLane
  repeat' first
    | with_reducible assumption | with_reducible apply orderRefused_only | with_reducible apply orderNothing_only
    | with_reducible apply pendOrder_only | with_reducible apply drainRunning_only | with_reducible apply only_ite
    | split

theorem standby_only (l : LaneId) (h : Only ps s t) (h1 : ps .mem) (h2 : ps .raised) (h3 : ps .free) (h4 : ps
    (.track l)) (h5 : ps (.sfe l)) (h6 : ps (.gates l)) (h7 : ps (.heads l)) (h8 : ps (.pockets l)) (h9 : ps
    (.lane l)) (h10 : ps (.idle l)) (h11 : ps (.tally l)) (h12 : ps (.attrs l)) (h13 : ps .journal)
    (h14 : ps .orders) (h15 : ps .registers) :
    Only ps s (standby l t) := by
  unfold standby
  repeat' first
    | with_reducible assumption | with_reducible apply orderDone_only | with_reducible apply orderRefused_only
    | with_reducible apply standbyLane_only | with_reducible apply orderNothing_only
    | with_reducible apply only_ite | split

theorem switchOff_only (l : LaneId) (h : Only ps s t) (h1 : ps .mem) (h2 : ps .raised) (h3 : ps .free) (h4 : ps
    (.track l)) (h5 : ps (.sfe l)) (h6 : ps (.gates l)) (h7 : ps (.heads l)) (h8 : ps (.pockets l)) (h9 : ps
    (.lane l)) (h10 : ps (.idle l)) (h11 : ps (.tally l)) (h12 : ps (.attrs l)) (h13 : ps .journal)
    (h14 : ps .orders) (h15 : ps .registers) :
    Only ps s (switchOff l t) := by
  unfold switchOff
  repeat' first
    | with_reducible assumption | with_reducible apply orderDone_only | with_reducible apply orderRefused_only
    | with_reducible apply offLane_only | with_reducible apply orderNothing_only | with_reducible apply only_ite
    | split

theorem clearStopped_only (l : LaneId) (h : Only ps s t) (h1 : ps .mem) (h2 : ps .raised) (h3 : ps .free) (h4 : ps
    (.eyes l)) (h5 : ps (.track l)) (h6 : ps (.sfe l)) (h7 : ps (.gates l)) (h8 : ps (.heads l)) (h9 : ps
    (.pockets l)) (h10 : ps (.lane l)) (h11 : ps (.idle l)) (h12 : ps (.tally l)) (h13 : ps .scorer)
    (h14 : ps .journal) (h15 : ps .orders) (h16 : ps .registers) :
    Only ps s (clearStopped l t) := by
  unfold clearStopped
  repeat' first
    | with_reducible assumption | with_reducible apply orderDone_only | with_reducible apply orderRefused_only
    | with_reducible apply clearLane_only | split

theorem disablePocket_only (l : LaneId) (p : Pocket) (h : Only ps s t) (h1 : ps .mem) (h2 : ps .raised)
    (h3 : ps .free) (h4 : ps (.pockets l)) (h5 : ps .journal) (h6 : ps .orders) (h7 : ps .registers) :
    Only ps s (disablePocket l p t) := by
  unfold disablePocket
  repeat' first
    | with_reducible assumption | with_reducible apply updPocket_only | with_reducible apply orderDone_only
    | with_reducible apply setPocketState_only | with_reducible apply orderNothing_only | split

theorem enablePocket_only (l : LaneId) (p : Pocket) (h : Only ps s t) (h1 : ps .mem) (h2 : ps .raised)
    (h3 : ps .free) (h4 : ps (.pockets l)) (h5 : ps .journal) (h6 : ps .orders) (h7 : ps .registers) :
    Only ps s (enablePocket l p t) := by
  unfold enablePocket
  repeat' first
    | with_reducible assumption | with_reducible apply updPocket_only | with_reducible apply orderDone_only
    | with_reducible apply setPocketState_only | with_reducible apply fullTest_only
    | with_reducible apply orderNothing_only | with_reducible apply only_ite | split

theorem startLaneTest_only (lane : Nat) (start : LaneId → State → State) (h : Only ps s t) (h1 : ps .mem)
    (h2 : ps .raised) (h3 : ps .free) (h4 : ps .journal) (h5 : ps .orders) (h6 : ps .registers)
    (h7 : ∀ l, Only ps s (start l t)) : Only ps s (startLaneTest lane start t) := by
  unfold startLaneTest
  have hs := h7
  repeat' first
    | with_reducible assumption | with_reducible exact hs _ | with_reducible apply orderRefused_only
    | with_reducible apply orderTaken_only | with_reducible apply only_ite | split

theorem enterTesting_only (l : LaneId) (k : LaneTestKind) (h : Only ps s t) (h1 : ps .raised) (h2 : ps (.lane l))
    (h3 : ps (.idle l)) (h4 : ps .journal) (h5 : ps .tests) :
    Only ps s (enterTesting l k t) := by
  unfold enterTesting
  repeat' first
    | with_reducible assumption | with_reducible apply updHmu_only | with_reducible apply setHold_only
    | with_reducible apply changeLane_only | exact fun _ => rfl | exact fun e => nomatch e

theorem startReference_only (l : LaneId) (h : Only ps s t) (h1 : ps .raised) (h2 : ps (.sfe l)) (h3 : ps
    (.lane l)) (h4 : ps (.idle l)) (h5 : ps .journal) (h6 : ps .tests) :
    Only ps s (startReference l t) := by
  unfold startReference
  repeat' first
    | with_reducible assumption | with_reducible apply updSfe_only | with_reducible apply enterTesting_only

theorem startCalibrate_only (l : LaneId) (h : Only ps s t) (h1 : ps .raised) (h2 : ps (.sfe l)) (h3 : ps
    (.lane l)) (h4 : ps (.idle l)) (h5 : ps .journal) (h6 : ps .tests) :
    Only ps s (startCalibrate l t) := by
  unfold startCalibrate
  repeat' first
    | with_reducible assumption | with_reducible apply updSfe_only | with_reducible apply enterTesting_only

theorem askIdle_only (r : IdleRequest) (h : Only ps s t) (h1 : ps .scorer) :
    Only ps s (askIdle r t) := by
  unfold askIdle
  repeat' first
    | with_reducible assumption | with_reducible apply updMsc_only

theorem emptyAudit_only (a : Audit) (h : Only ps s t) (h1 : ps .mem) (h2 : ps .raised) (h3 : ps .free)
    (h4 : ps .scorer) (h5 : ps .journal) (h6 : ps .tests) (h7 : ps .orders) (h8 : ps .registers) :
    Only ps s (emptyAudit a t) := by
  unfold emptyAudit
  repeat' first
    | with_reducible assumption | with_reducible apply raise_only | with_reducible apply orderDone_only
    | with_reducible apply auditRecords_only

theorem startAudit_only (spanCount : Nat) (spans : List (Nat × Nat)) (area : Nat) (h : Only ps s t) (h1 : ps .mem)
    (h2 : ps .raised) (h3 : ps .free) (h4 : ps .scorer) (h5 : ps .journal) (h6 : ps .tests) (h7 : ps .orders)
    (h8 : ps .registers) :
    Only ps s (startAudit spanCount spans area t) := by
  unfold startAudit
  dsimp only
  repeat' first
    | with_reducible assumption | with_reducible apply updHmu_only | with_reducible apply orderRefused_only
    | with_reducible apply orderTaken_only | with_reducible apply askIdle_only
    | with_reducible apply emptyAudit_only | with_reducible apply only_ite | exact fun _ => rfl | split

theorem abortLaneTest_only (k : LaneTestKind) (lane : Nat) (h : Only ps s t) (h1 : ps .mem) (h2 : ps .raised)
    (h3 : ps .free) (h4 : ∀ k, ps (.sfe k)) (h5 : ∀ k, ps (.lane k)) (h6 : ∀ k, ps (.idle k)) (h7 : ps .scorer)
    (h8 : ps .journal) (h9 : ps .tests) (h10 : ps .orders) (h11 : ps .registers) :
    Only ps s (abortLaneTest k lane t) := by
  unfold abortLaneTest
  repeat' first
    | with_reducible assumption | with_reducible exact h4 _ | with_reducible exact h5 _ | with_reducible exact h6 _
    | with_reducible apply orderDone_only | with_reducible apply orderRefused_only
    | with_reducible apply endLaneTest_only | with_reducible apply orderNothing_only
    | with_reducible apply only_ite | split

theorem abortTest_only (k : TestKind) (lane : Nat) (h : Only ps s t) (h1 : ps .mem) (h2 : ps .raised)
    (h3 : ps .free) (h4 : ∀ k, ps (.sfe k)) (h5 : ∀ k, ps (.lane k)) (h6 : ∀ k, ps (.idle k)) (h7 : ps .scorer)
    (h8 : ps .journal) (h9 : ps .tests) (h10 : ps .orders) (h11 : ps .registers) :
    Only ps s (abortTest k lane t) := by
  unfold abortTest
  repeat' first
    | with_reducible assumption | with_reducible exact h4 _ | with_reducible exact h5 _ | with_reducible exact h6 _
    | with_reducible apply orderDone_only | with_reducible apply endAudit_only
    | with_reducible apply orderNothing_only | with_reducible apply abortLaneTest_only
    | with_reducible apply only_ite | split

theorem toStep_only (l : LaneId) (n : Nat) (h : Only ps s t) (h1 : ps .tests) :
    Only ps s (toStep l n t) := by
  unfold toStep
  repeat' first
    | with_reducible assumption | with_reducible apply updHmu_only | exact fun _ => rfl

theorem completeCalCheck_only (l : LaneId) (readings : List (List (BitVec 12))) (h : Only ps s t) (h1 : ps .mem)
    (h2 : ps .raised) (h3 : ps .free) (h4 : ps (.sfe l)) (h5 : ps (.lane l)) (h6 : ps (.idle l)) (h7 : ps .scorer)
    (h8 : ps .journal) (h9 : ps .tests) (h10 : ps .orders) (h11 : ps .registers) :
    Only ps s (completeCalCheck l readings t) := by
  unfold completeCalCheck
  dsimp only
  repeat' first
    | with_reducible assumption | with_reducible apply updSfe_only | with_reducible apply endLaneTest_only
    | with_reducible apply toStep_only | with_reducible apply only_ite

theorem nextItem_only (l : LaneId) (step : Nat) (h : Only ps s t) (h1 : ps (.sfe l)) (h2 : ps .scorer)
    (h3 : ps .tests) :
    Only ps s (nextItem l step t) := by
  unfold nextItem
  dsimp only
  repeat' first
    | with_reducible assumption | with_reducible apply updSfe_only | with_reducible apply askIdle_only
    | with_reducible apply toStep_only | with_reducible apply only_ite

theorem judgeStep_only (l : LaneId) (step : Nat) (h : Only ps s t) (h1 : ps .mem) (h2 : ps .raised)
    (h3 : ps .free) (h4 : ps (.sfe l)) (h5 : ps (.lane l)) (h6 : ps (.idle l)) (h7 : ps .scorer)
    (h8 : ps .journal) (h9 : ps .tests) (h10 : ps .orders) (h11 : ps .registers) :
    Only ps s (judgeStep l step t) := by
  unfold judgeStep
  dsimp only
  repeat' first
    | with_reducible assumption | with_reducible apply endLaneTest_only | with_reducible apply nextItem_only
    | with_reducible apply only_ite

theorem idleDone_only  (h : Only ps s t) (h1 : ps .scorer) :
    Only ps s (idleDone t) := by
  unfold idleDone
  repeat' first
    | with_reducible assumption | with_reducible apply updMsc_only

theorem startIdle_only  (h : Only ps s t) (h1 : ps .scorer) (h2 : ps .tests) :
    Only ps s (startIdle t) := by
  unfold startIdle
  dsimp only
  repeat' first
    | with_reducible assumption | with_reducible apply updMsc_only | with_reducible apply updHmu_only
    | exact fun _ => rfl | split

theorem completeAudit_only (a : Audit) (h : Only ps s t) (h1 : ps .mem) (h2 : ps .raised) (h3 : ps .free)
    (h4 : ps .scorer) (h5 : ps .journal) (h6 : ps .tests) (h7 : ps .orders) (h8 : ps .registers) :
    Only ps s (completeAudit a t) := by
  unfold completeAudit
  dsimp only
  repeat' first
    | with_reducible assumption | with_reducible apply writeBytes_only | with_reducible apply updHmu_only
    | with_reducible apply windowFault_only | with_reducible apply endAudit_only
    | with_reducible apply askIdle_only | with_reducible apply idleDone_only | with_reducible apply only_ite
    | exact fun _ => rfl

end Sys2Proof.Machine
end

