-- ==== Sys2Proof/Laws/Memory.lean ====
section
/-! SUPPORT. Host memory: a write keeps the canonical form, a byte written reads back, and every other byte reads as
before. -/

namespace Sys2Proof.Machine

theorem all_lt_of_write {m : List Host.Cell} {k a : Nat} {b : Byte} (hm : m.all (fun c => k < c.1) = true) (ha : k < a) :
    (memWrite m a b).all (fun c => k < c.1) = true := by
  induction m with
  | nil => unfold memWrite; split <;> simp [ha]
  | cons c r ih =>
    obtain ⟨n, x⟩ := c
    simp only [List.all_cons, Bool.and_eq_true, decide_eq_true_eq] at hm
    unfold memWrite
    split
    · split
      · simp [List.all_cons, hm.1]; exact fun u v h => by simpa using List.all_eq_true.mp hm.2 _ h
      · simp [List.all_cons, hm.1, ha]; exact fun u v h => by simpa using List.all_eq_true.mp hm.2 _ h
    · split
      · split
        · exact hm.2
        · simp [List.all_cons, ha]; exact fun u v h => by simpa using List.all_eq_true.mp hm.2 _ h
      · simp only [List.all_cons, Bool.and_eq_true, decide_eq_true_eq]
        exact ⟨hm.1, ih hm.2⟩

theorem all_lt_weaken {m : List Host.Cell} {a k : Nat} (hm : m.all (fun c => k < c.1) = true) (h : a < k) :
    m.all (fun c => a < c.1) = true := by
  simp only [List.all_eq_true, decide_eq_true_eq] at hm ⊢
  intro c hc
  exact Nat.lt_trans h (hm c hc)

/-- A write keeps the canonical form. -/
theorem memWrite_wf {m : List Host.Cell} (a : Nat) (b : Byte) (hm : memWf m = true) : memWf (memWrite m a b) = true := by
  induction m with
  | nil => unfold memWrite; split <;> simp_all [memWf]
  | cons c r ih =>
    obtain ⟨k, x⟩ := c
    simp only [memWf, Bool.and_eq_true] at hm
    obtain ⟨⟨hx, hr⟩, hwf⟩ := hm
    unfold memWrite
    split
    · rename_i h
      split
      · simp only [memWf, Bool.and_eq_true]
        exact ⟨⟨hx, hr⟩, hwf⟩
      · rename_i hb
        simp only [memWf, Bool.and_eq_true, List.all_cons, decide_eq_true_eq, bne_iff_ne]
        exact ⟨⟨hb, h, all_lt_weaken hr h⟩, ⟨by simpa using hx, hr⟩, hwf⟩
    · split
      · rename_i h1 h
        split
        · exact hwf
        · rename_i hb
          simp only [memWf, Bool.and_eq_true, bne_iff_ne]
          exact ⟨⟨hb, h ▸ hr⟩, hwf⟩
      · rename_i h1 h2
        simp only [memWf, Bool.and_eq_true]
        exact ⟨⟨hx, all_lt_of_write hr (by omega)⟩, ih hwf⟩

theorem memWriteN_wf {m : List Host.Cell} (a : Nat) (bs : List Byte) (hm : memWf m = true) :
    memWf (memWriteN m a bs) = true := by
  induction bs generalizing m a with
  | nil => exact hm
  | cons b bs ih => exact ih (a + 1) (memWrite_wf a b hm)

theorem writeBytes_wf (a : Nat) (bs : List Byte) {s : State} (hm : memWf s.mem = true) :
    memWf (writeBytes a bs s).mem = true := memWriteN_wf a bs hm

theorem memRead_below {m : List Host.Cell} {a : Nat} (hm : m.all (fun c => a < c.1) = true) : memRead m a = 0 := by
  induction m with
  | nil => rfl
  | cons c r ih =>
    simp only [List.all_cons, Bool.and_eq_true, decide_eq_true_eq] at hm
    unfold memRead
    rw [if_neg (by omega)]
    exact ih hm.2

/-- A byte written reads back. -/
theorem memRead_write_self {m : List Host.Cell} (a : Nat) (b : Byte) (hm : memWf m = true) :
    memRead (memWrite m a b) a = b := by
  induction m with
  | nil => unfold memWrite; split <;> simp_all [memRead]
  | cons c r ih =>
    obtain ⟨k, x⟩ := c
    simp only [memWf, Bool.and_eq_true] at hm
    obtain ⟨⟨hx, hr⟩, hwf⟩ := hm
    unfold memWrite
    split
    · rename_i h
      split
      · rename_i hb
        unfold memRead
        rw [if_neg (by omega), hb]
        exact memRead_below (all_lt_weaken hr h)
      · simp [memRead]
    · split
      · rename_i h1 h
        split
        · rename_i hb
          subst h
          rw [hb]
          exact memRead_below hr
        · simp [memRead]
      · rename_i h1 h2
        unfold memRead
        rw [if_neg (by omega)]
        exact ih hwf

/-- Every other byte reads as before. -/
theorem memRead_write_other {m : List Host.Cell} {a c : Nat} (b : Byte) (h : c ≠ a) :
    memRead (memWrite m a b) c = memRead m c := by
  induction m with
  | nil => unfold memWrite; split <;> simp [memRead, Ne.symm h]
  | cons e r ih =>
    obtain ⟨k, x⟩ := e
    unfold memWrite
    split
    · split <;> simp [memRead, Ne.symm h]
    · split
      · rename_i h1 h2
        split <;> simp [memRead, ← h2, Ne.symm h]
      · simp only [memRead, ih]

/-- A byte outside a written range reads as before. -/
theorem memRead_writeN_other {m : List Host.Cell} {a c : Nat} (bs : List Byte) (h : c < a ∨ a + bs.length ≤ c) :
    memRead (memWriteN m a bs) c = memRead m c := by
  induction bs generalizing m a with
  | nil => rfl
  | cons b bs ih =>
    simp only [List.length_cons] at h
    unfold memWriteN
    rw [ih (by omega), memRead_write_other b (by omega)]

/-- A written range reads back. -/
theorem memReadN_writeN {m : List Host.Cell} (a : Nat) (bs : List Byte) (hm : memWf m = true) :
    memReadN (memWriteN m a bs) a bs.length = bs := by
  induction bs generalizing m a with
  | nil => rfl
  | cons b bs ih =>
    simp only [List.length_cons, memReadN, memWriteN]
    rw [ih (a + 1) (memWrite_wf a b hm), memRead_writeN_other bs (by omega), memRead_write_self a b hm]

@[simp] theorem le_length (n x : Nat) : (le n x).length = n := by
  induction n generalizing x with
  | zero => rfl
  | succ n ih => simp [le, ih]

@[simp] theorem memReadN_length (m : List Host.Cell) (a n : Nat) : (memReadN m a n).length = n := by
  induction n generalizing a with
  | zero => rfl
  | succ n ih => simp [memReadN, ih]

end Sys2Proof.Machine
end

