-- ==== Sys2Proof/Laws/Settle.lean ====
section
/-! SUPPORT. What the end of an event leaves: every field it does not change, the reasons it keeps (each reason raised in
the event is set or waits, R177), and a meaning's answer once its event comes about. -/

namespace Sys2Proof.Machine

theorem settleIdle_or (l : LaneId) (s : State) :
    settleIdle l s = s ∨ settleIdle l s = updLsq l (fun q => { q with idle := 0 }) s := by
  unfold settleIdle; split <;> simp

@[simp] theorem settleIdle_pending (l : LaneId) (s : State) : (settleIdle l s).pending = s.pending := by
  rcases settleIdle_or l s with h | h <;> simp [h]
@[simp] theorem settleStatus_pending (old s : State) : (settleStatus old s).pending = s.pending := by
  unfold settleStatus; dsimp only; split <;> rfl
@[simp] theorem settleMsi_pending (old s : State) : (settleMsi old s).pending = s.pending := by
  unfold settleMsi; split <;> rfl
@[simp] theorem settle_pending (old s : State) : (settle old s).pending = s.pending := by simp [settle]

@[simp] theorem settleIdle_clock (l : LaneId) (s : State) : (settleIdle l s).clock = s.clock := by
  rcases settleIdle_or l s with h | h <;> simp [h]
@[simp] theorem settleStatus_clock (old s : State) : (settleStatus old s).clock = s.clock := by
  unfold settleStatus; dsimp only; split <;> rfl
@[simp] theorem settleMsi_clock (old s : State) : (settleMsi old s).clock = s.clock := by
  unfold settleMsi; split <;> rfl
@[simp] theorem settle_clock (old s : State) : (settle old s).clock = s.clock := by simp [settle]

@[simp] theorem settleIdle_belt (l : LaneId) (s : State) : (settleIdle l s).belt = s.belt := by
  rcases settleIdle_or l s with h | h <;> simp [h]
@[simp] theorem settleStatus_belt (old s : State) : (settleStatus old s).belt = s.belt := by
  unfold settleStatus; dsimp only; split <;> rfl
@[simp] theorem settleMsi_belt (old s : State) : (settleMsi old s).belt = s.belt := by
  unfold settleMsi; split <;> rfl
@[simp] theorem settle_belt (old s : State) : (settle old s).belt = s.belt := by simp [settle]

@[simp] theorem settleIdle_eyes (l : LaneId) (s : State) : (settleIdle l s).eyes = s.eyes := by
  rcases settleIdle_or l s with h | h <;> simp [h]
@[simp] theorem settleStatus_eyes (old s : State) : (settleStatus old s).eyes = s.eyes := by
  unfold settleStatus; dsimp only; split <;> rfl
@[simp] theorem settleMsi_eyes (old s : State) : (settleMsi old s).eyes = s.eyes := by
  unfold settleMsi; split <;> rfl
@[simp] theorem settle_eyes (old s : State) : (settle old s).eyes = s.eyes := by simp [settle]

@[simp] theorem settleIdle_track (l : LaneId) (s : State) : (settleIdle l s).track = s.track := by
  rcases settleIdle_or l s with h | h <;> simp [h]
@[simp] theorem settleStatus_track (old s : State) : (settleStatus old s).track = s.track := by
  unfold settleStatus; dsimp only; split <;> rfl
@[simp] theorem settleMsi_track (old s : State) : (settleMsi old s).track = s.track := by
  unfold settleMsi; split <;> rfl
@[simp] theorem settle_track (old s : State) : (settle old s).track = s.track := by simp [settle]

@[simp] theorem settleIdle_geom (l : LaneId) (s : State) : (settleIdle l s).geom = s.geom := by
  rcases settleIdle_or l s with h | h <;> simp [h]
@[simp] theorem settleStatus_geom (old s : State) : (settleStatus old s).geom = s.geom := by
  unfold settleStatus; dsimp only; split <;> rfl
@[simp] theorem settleMsi_geom (old s : State) : (settleMsi old s).geom = s.geom := by
  unfold settleMsi; split <;> rfl
@[simp] theorem settle_geom (old s : State) : (settle old s).geom = s.geom := by simp [settle]

@[simp] theorem settleIdle_sfe (l : LaneId) (s : State) : (settleIdle l s).sfe = s.sfe := by
  rcases settleIdle_or l s with h | h <;> simp [h]
@[simp] theorem settleStatus_sfe (old s : State) : (settleStatus old s).sfe = s.sfe := by
  unfold settleStatus; dsimp only; split <;> rfl
@[simp] theorem settleMsi_sfe (old s : State) : (settleMsi old s).sfe = s.sfe := by
  unfold settleMsi; split <;> rfl
@[simp] theorem settle_sfe (old s : State) : (settle old s).sfe = s.sfe := by simp [settle]

@[simp] theorem settleIdle_gsq (l : LaneId) (s : State) : (settleIdle l s).gsq = s.gsq := by
  rcases settleIdle_or l s with h | h <;> simp [h]
@[simp] theorem settleStatus_gsq (old s : State) : (settleStatus old s).gsq = s.gsq := by
  unfold settleStatus; dsimp only; split <;> rfl
@[simp] theorem settleMsi_gsq (old s : State) : (settleMsi old s).gsq = s.gsq := by
  unfold settleMsi; split <;> rfl
@[simp] theorem settle_gsq (old s : State) : (settle old s).gsq = s.gsq := by simp [settle]

@[simp] theorem settleIdle_cnu (l : LaneId) (s : State) : (settleIdle l s).cnu = s.cnu := by
  rcases settleIdle_or l s with h | h <;> simp [h]
@[simp] theorem settleStatus_cnu (old s : State) : (settleStatus old s).cnu = s.cnu := by
  unfold settleStatus; dsimp only; split <;> rfl
@[simp] theorem settleMsi_cnu (old s : State) : (settleMsi old s).cnu = s.cnu := by
  unfold settleMsi; split <;> rfl
@[simp] theorem settle_cnu (old s : State) : (settle old s).cnu = s.cnu := by simp [settle]

@[simp] theorem settleIdle_pkr (l : LaneId) (s : State) : (settleIdle l s).pkr = s.pkr := by
  rcases settleIdle_or l s with h | h <;> simp [h]
@[simp] theorem settleStatus_pkr (old s : State) : (settleStatus old s).pkr = s.pkr := by
  unfold settleStatus; dsimp only; split <;> rfl
@[simp] theorem settleMsi_pkr (old s : State) : (settleMsi old s).pkr = s.pkr := by
  unfold settleMsi; split <;> rfl
@[simp] theorem settle_pkr (old s : State) : (settle old s).pkr = s.pkr := by simp [settle]

@[simp] theorem settleIdle_msc (l : LaneId) (s : State) : (settleIdle l s).msc = s.msc := by
  rcases settleIdle_or l s with h | h <;> simp [h]
@[simp] theorem settleStatus_msc (old s : State) : (settleStatus old s).msc = s.msc := by
  unfold settleStatus; dsimp only; split <;> rfl
@[simp] theorem settleMsi_msc (old s : State) : (settleMsi old s).msc = s.msc := by
  unfold settleMsi; split <;> rfl
@[simp] theorem settle_msc (old s : State) : (settle old s).msc = s.msc := by simp [settle]

@[simp] theorem settleIdle_pmc (l : LaneId) (s : State) : (settleIdle l s).pmc = s.pmc := by
  rcases settleIdle_or l s with h | h <;> simp [h]
@[simp] theorem settleStatus_pmc (old s : State) : (settleStatus old s).pmc = s.pmc := by
  unfold settleStatus; dsimp only; split <;> rfl
@[simp] theorem settleMsi_pmc (old s : State) : (settleMsi old s).pmc = s.pmc := by
  unfold settleMsi; split <;> rfl
@[simp] theorem settle_pmc (old s : State) : (settle old s).pmc = s.pmc := by simp [settle]

@[simp] theorem settleIdle_tally (l : LaneId) (s : State) : (settleIdle l s).tally = s.tally := by
  rcases settleIdle_or l s with h | h <;> simp [h]
@[simp] theorem settleStatus_tally (old s : State) : (settleStatus old s).tally = s.tally := by
  unfold settleStatus; dsimp only; split <;> rfl
@[simp] theorem settleMsi_tally (old s : State) : (settleMsi old s).tally = s.tally := by
  unfold settleMsi; split <;> rfl
@[simp] theorem settle_tally (old s : State) : (settle old s).tally = s.tally := by simp [settle]

@[simp] theorem settleIdle_jrn (l : LaneId) (s : State) : (settleIdle l s).jrn = s.jrn := by
  rcases settleIdle_or l s with h | h <;> simp [h]
@[simp] theorem settleStatus_jrn (old s : State) : (settleStatus old s).jrn = s.jrn := by
  unfold settleStatus; dsimp only; split <;> rfl
@[simp] theorem settleMsi_jrn (old s : State) : (settleMsi old s).jrn = s.jrn := by
  unfold settleMsi; split <;> rfl
@[simp] theorem settle_jrn (old s : State) : (settle old s).jrn = s.jrn := by simp [settle]

@[simp] theorem settleIdle_hmu (l : LaneId) (s : State) : (settleIdle l s).hmu = s.hmu := by
  rcases settleIdle_or l s with h | h <;> simp [h]
@[simp] theorem settleStatus_hmu (old s : State) : (settleStatus old s).hmu = s.hmu := by
  unfold settleStatus; dsimp only; split <;> rfl
@[simp] theorem settleMsi_hmu (old s : State) : (settleMsi old s).hmu = s.hmu := by
  unfold settleMsi; split <;> rfl
@[simp] theorem settle_hmu (old s : State) : (settle old s).hmu = s.hmu := by simp [settle]

@[simp] theorem settleIdle_ocu (l : LaneId) (s : State) : (settleIdle l s).ocu = s.ocu := by
  rcases settleIdle_or l s with h | h <;> simp [h]
@[simp] theorem settleStatus_ocu (old s : State) : (settleStatus old s).ocu = s.ocu := by
  unfold settleStatus; dsimp only; split <;> rfl
@[simp] theorem settleMsi_ocu (old s : State) : (settleMsi old s).ocu = s.ocu := by
  unfold settleMsi; split <;> rfl
@[simp] theorem settle_ocu (old s : State) : (settle old s).ocu = s.ocu := by simp [settle]

@[simp] theorem settleIdle_mwu (l : LaneId) (s : State) : (settleIdle l s).mwu = s.mwu := by
  rcases settleIdle_or l s with h | h <;> simp [h]
@[simp] theorem settleStatus_mwu (old s : State) : (settleStatus old s).mwu = s.mwu := by
  unfold settleStatus; dsimp only; split <;> rfl
@[simp] theorem settleMsi_mwu (old s : State) : (settleMsi old s).mwu = s.mwu := by
  unfold settleMsi; split <;> rfl
@[simp] theorem settle_mwu (old s : State) : (settle old s).mwu = s.mwu := by simp [settle]

@[simp] theorem settleIdle_mem (l : LaneId) (s : State) : (settleIdle l s).mem = s.mem := by
  rcases settleIdle_or l s with h | h <;> simp [h]
@[simp] theorem settleStatus_mem (old s : State) : (settleStatus old s).mem = s.mem := by
  unfold settleStatus; dsimp only; split <;> rfl
@[simp] theorem settleMsi_mem (old s : State) : (settleMsi old s).mem = s.mem := by
  unfold settleMsi; split <;> rfl
@[simp] theorem settle_mem (old s : State) : (settle old s).mem = s.mem := by simp [settle]

@[simp] theorem settleIdle_freeCount (l : LaneId) (s : State) : (settleIdle l s).freeCount = s.freeCount := by
  rcases settleIdle_or l s with h | h <;> simp [h]
@[simp] theorem settleStatus_freeCount (old s : State) : (settleStatus old s).freeCount = s.freeCount := by
  unfold settleStatus; dsimp only; split <;> rfl
@[simp] theorem settleMsi_freeCount (old s : State) : (settleMsi old s).freeCount = s.freeCount := by
  unfold settleMsi; split <;> rfl
@[simp] theorem settle_freeCount (old s : State) : (settle old s).freeCount = s.freeCount := by simp [settle]


/-! ### The Lane Sequencer, the status unit and the registers -/

@[simp] theorem settleStatus_lsq (old s : State) : (settleStatus old s).lsq = s.lsq := by
  unfold settleStatus; dsimp only; split <;> rfl
@[simp] theorem settleMsi_lsq (old s : State) : (settleMsi old s).lsq = s.lsq := by
  unfold settleMsi; split <;> rfl

theorem settleIdle_lsq_mode (l k : LaneId) (s : State) :
    ((settleIdle k s).lsq.get l).mode = (s.lsq.get l).mode := by
  rcases settleIdle_or k s with h | h
  · rw [h]
  · rw [h]; cases l <;> cases k <;> rfl
@[simp] theorem settle_lsq_mode (old s : State) (l : LaneId) :
    ((settle old s).lsq.get l).mode = (s.lsq.get l).mode := by
  simp [settle, settleIdle_lsq_mode]

theorem settleIdle_lsq_lamp (l k : LaneId) (s : State) :
    ((settleIdle k s).lsq.get l).lamp = (s.lsq.get l).lamp := by
  rcases settleIdle_or k s with h | h
  · rw [h]
  · rw [h]; cases l <;> cases k <;> rfl
@[simp] theorem settle_lsq_lamp (old s : State) (l : LaneId) :
    ((settle old s).lsq.get l).lamp = (s.lsq.get l).lamp := by
  simp [settle, settleIdle_lsq_lamp]

theorem settleIdle_lsq_warmed (l k : LaneId) (s : State) :
    ((settleIdle k s).lsq.get l).warmed = (s.lsq.get l).warmed := by
  rcases settleIdle_or k s with h | h
  · rw [h]
  · rw [h]; cases l <;> cases k <;> rfl
@[simp] theorem settle_lsq_warmed (old s : State) (l : LaneId) :
    ((settle old s).lsq.get l).warmed = (s.lsq.get l).warmed := by
  simp [settle, settleIdle_lsq_warmed]

theorem settleIdle_lsq_pendingOrder (l k : LaneId) (s : State) :
    ((settleIdle k s).lsq.get l).pendingOrder = (s.lsq.get l).pendingOrder := by
  rcases settleIdle_or k s with h | h
  · rw [h]
  · rw [h]; cases l <;> cases k <;> rfl
@[simp] theorem settle_lsq_pendingOrder (old s : State) (l : LaneId) :
    ((settle old s).lsq.get l).pendingOrder = (s.lsq.get l).pendingOrder := by
  simp [settle, settleIdle_lsq_pendingOrder]

theorem settleIdle_lsq_retired (l k : LaneId) (s : State) :
    ((settleIdle k s).lsq.get l).retired = (s.lsq.get l).retired := by
  rcases settleIdle_or k s with h | h
  · rw [h]
  · rw [h]; cases l <;> cases k <;> rfl
@[simp] theorem settle_lsq_retired (old s : State) (l : LaneId) :
    ((settle old s).lsq.get l).retired = (s.lsq.get l).retired := by
  simp [settle, settleIdle_lsq_retired]

theorem settleIdle_lsq_holds (l k : LaneId) (s : State) :
    ((settleIdle k s).lsq.get l).holds = (s.lsq.get l).holds := by
  rcases settleIdle_or k s with h | h
  · rw [h]
  · rw [h]; cases l <;> cases k <;> rfl
@[simp] theorem settle_lsq_holds (old s : State) (l : LaneId) :
    ((settle old s).lsq.get l).holds = (s.lsq.get l).holds := by
  simp [settle, settleIdle_lsq_holds]

theorem settleIdle_lsq_lampWarm (l k : LaneId) (s : State) :
    ((settleIdle k s).lsq.get l).lampWarm = (s.lsq.get l).lampWarm := by
  rcases settleIdle_or k s with h | h
  · rw [h]
  · rw [h]; cases l <;> cases k <;> rfl
@[simp] theorem settle_lsq_lampWarm (old s : State) (l : LaneId) :
    ((settle old s).lsq.get l).lampWarm = (s.lsq.get l).lampWarm := by
  simp [settle, settleIdle_lsq_lampWarm]

theorem settleIdle_lsq_rise (l k : LaneId) (s : State) :
    ((settleIdle k s).lsq.get l).rise = (s.lsq.get l).rise := by
  rcases settleIdle_or k s with h | h
  · rw [h]
  · rw [h]; cases l <;> cases k <;> rfl
@[simp] theorem settle_lsq_rise (old s : State) (l : LaneId) :
    ((settle old s).lsq.get l).rise = (s.lsq.get l).rise := by
  simp [settle, settleIdle_lsq_rise]

theorem settleIdle_lsq_feedReq (l k : LaneId) (s : State) :
    ((settleIdle k s).lsq.get l).feedReq = (s.lsq.get l).feedReq := by
  rcases settleIdle_or k s with h | h
  · rw [h]
  · rw [h]; cases l <;> cases k <;> rfl
@[simp] theorem settle_lsq_feedReq (old s : State) (l : LaneId) :
    ((settle old s).lsq.get l).feedReq = (s.lsq.get l).feedReq := by
  simp [settle, settleIdle_lsq_feedReq]

theorem settleIdle_lsq_warmStep (l k : LaneId) (s : State) :
    ((settleIdle k s).lsq.get l).warmStep = (s.lsq.get l).warmStep := by
  rcases settleIdle_or k s with h | h
  · rw [h]
  · rw [h]; cases l <;> cases k <;> rfl
@[simp] theorem settle_lsq_warmStep (old s : State) (l : LaneId) :
    ((settle old s).lsq.get l).warmStep = (s.lsq.get l).warmStep := by
  simp [settle, settleIdle_lsq_warmStep]

@[simp] theorem settle_laneMode (old s : State) (l : LaneId) : laneMode l (settle old s) = laneMode l s := by
  simp [laneMode]
@[simp] theorem settle_holdSet (old s : State) (l : LaneId) (r : HoldReason) :
    holdSet l r (settle old s) = holdSet l r s := by
  simp [holdSet]

@[simp] theorem settle_stat_addr (old s : State) : (settle old s).stat.addr = s.stat.addr := by
  have h : ∀ l (u : State), (settleIdle l u).stat = u.stat := fun l u => by
    rcases settleIdle_or l u with h | h <;> simp [h]
  unfold settle settleMsi settleStatus
  dsimp only
  split <;> split <;> simp [h]

@[simp] theorem settle_stat_again (old s : State) : (settle old s).stat.again = s.stat.again := by
  have h : ∀ l (u : State), (settleIdle l u).stat = u.stat := fun l u => by
    rcases settleIdle_or l u with h | h <;> simp [h]
  unfold settle settleMsi settleStatus
  dsimp only
  split <;> split <;> simp [h]

@[simp] theorem settle_stat_suspended (old s : State) : (settle old s).stat.suspended = s.stat.suspended := by
  have h : ∀ l (u : State), (settleIdle l u).stat = u.stat := fun l u => by
    rcases settleIdle_or l u with h | h <;> simp [h]
  unfold settle settleMsi settleStatus
  dsimp only
  split <;> split <;> simp [h]

@[simp] theorem settle_stat_sinceWrite (old s : State) : (settle old s).stat.sinceWrite = s.stat.sinceWrite := by
  have h : ∀ l (u : State), (settleIdle l u).stat = u.stat := fun l u => by
    rcases settleIdle_or l u with h | h <;> simp [h]
  unfold settle settleMsi settleStatus
  dsimp only
  split <;> split <;> simp [h]

@[simp] theorem settle_stat_updateCount (old s : State) : (settle old s).stat.updateCount = s.stat.updateCount := by
  have h : ∀ l (u : State), (settleIdle l u).stat = u.stat := fun l u => by
    rcases settleIdle_or l u with h | h <;> simp [h]
  unfold settle settleMsi settleStatus
  dsimp only
  split <;> split <;> simp [h]

@[simp] theorem settle_pif_runChain (old s : State) : (settle old s).pif.runChain = s.pif.runChain := by
  have h : ∀ l (u : State), (settleIdle l u).pif = u.pif := fun l u => by
    rcases settleIdle_or l u with h | h <;> simp [h]
  unfold settle settleMsi settleStatus
  dsimp only
  split <;> split <;> simp [h]

@[simp] theorem settle_pif_irqEnable (old s : State) : (settle old s).pif.irqEnable = s.pif.irqEnable := by
  have h : ∀ l (u : State), (settleIdle l u).pif = u.pif := fun l u => by
    rcases settleIdle_or l u with h | h <;> simp [h]
  unfold settle settleMsi settleStatus
  dsimp only
  split <;> split <;> simp [h]

@[simp] theorem settle_pif_mask (old s : State) : (settle old s).pif.mask = s.pif.mask := by
  have h : ∀ l (u : State), (settleIdle l u).pif = u.pif := fun l u => by
    rcases settleIdle_or l u with h | h <;> simp [h]
  unfold settle settleMsi settleStatus
  dsimp only
  split <;> split <;> simp [h]

@[simp] theorem settle_pif_latch (old s : State) : (settle old s).pif.latch = s.pif.latch := by
  have h : ∀ l (u : State), (settleIdle l u).pif = u.pif := fun l u => by
    rcases settleIdle_or l u with h | h <;> simp [h]
  unfold settle settleMsi settleStatus
  dsimp only
  split <;> split <;> simp [h]

@[simp] theorem settle_pif_readData (old s : State) : (settle old s).pif.readData = s.pif.readData := by
  have h : ∀ l (u : State), (settleIdle l u).pif = u.pif := fun l u => by
    rcases settleIdle_or l u with h | h <;> simp [h]
  unfold settle settleMsi settleStatus
  dsimp only
  split <;> split <;> simp [h]

@[simp] theorem settle_pif_msiEnable (old s : State) : (settle old s).pif.msiEnable = s.pif.msiEnable := by
  have h : ∀ l (u : State), (settleIdle l u).pif = u.pif := fun l u => by
    rcases settleIdle_or l u with h | h <;> simp [h]
  unfold settle settleMsi settleStatus
  dsimp only
  split <;> split <;> simp [h]

@[simp] theorem settle_pif_msiAddress (old s : State) : (settle old s).pif.msiAddress = s.pif.msiAddress := by
  have h : ∀ l (u : State), (settleIdle l u).pif = u.pif := fun l u => by
    rcases settleIdle_or l u with h | h <;> simp [h]
  unfold settle settleMsi settleStatus
  dsimp only
  split <;> split <;> simp [h]

@[simp] theorem settle_pif_msiData (old s : State) : (settle old s).pif.msiData = s.pif.msiData := by
  have h : ∀ l (u : State), (settleIdle l u).pif = u.pif := fun l u => by
    rcases settleIdle_or l u with h | h <;> simp [h]
  unfold settle settleMsi settleStatus
  dsimp only
  split <;> split <;> simp [h]


/-! ### Reasons -/

/-- R177: a reason that was set, waited for a status write or was raised in the event is set or waits after it, and no
other is. -/
theorem settle_reasons (old s : State) :
    (settle old s).pif.attn ||| (settle old s).stat.waiting = s.pif.attn ||| s.stat.waiting ||| s.raised := by
  have h : ∀ l (u : State), (settleIdle l u).pif = u.pif ∧ (settleIdle l u).stat = u.stat ∧
      (settleIdle l u).raised = u.raised := fun l u => by
    rcases settleIdle_or l u with h | h <;> simp [h]
  unfold settle settleMsi settleStatus
  dsimp only
  split <;> split <;> simp [h, BitVec.or_assoc]

/-- A meaning whose operands are in range is the event it makes. -/
theorem eventWithin_ok {ok comes : Bool} (body : State → State) (s : State) (h : ok = true) :
    eventWithin ok comes body s = event comes body s := by
  simp [eventWithin, h]

/-- An event that comes about answers a next state. -/
theorem event_of {comes : Bool} (body : State → State) (s : State) (h : comes = true) :
    event comes body s = .next (settle s (body s)) := by
  simp [event, h]

end Sys2Proof.Machine
end

