-- ==== Sys2Proof/Laws/Orders.lean ====
section
/-! SUPPORT. The final state write and the TAKEN write of an order whose write is allowed: everything they change, said
once (R180 to R182). -/

namespace Sys2Proof.Machine

/-- What an allowed final state write without a body leaves. -/
theorem finalWrite_allowed (lane : Option LaneId) (addr : Nat) (notify : Bool) (st : BlockState) (code : ResultCode)
    (detail : Option Nat) {s : State} (hw : allowed .orderStateWrite (addr + 12) 8 s = true) :
    ∃ d n, (∀ x, detail = some x → d = x) ∧ finalWrite lane addr notify st code detail [] s = { s with
      mem := memWriteN s.mem (addr + 12) (orderStateBytes st (resultCode code) d s.clock.ms.toNat), freeCount := n,
      ocu := { s.ocu with completed := satAdd32 s.ocu.completed 1, lastOrder := addr },
      raised := if notify then s.raised ||| attnBit .orderNotify else s.raised } := by
  unfold finalWrite orderCompleted detailValue
  cases detail with
  | none =>
    refine ⟨(Config.freeValue s.freeCount).toNat % 65536, s.freeCount + 1, (by simp), ?_⟩
    simp only [List.isEmpty_nil, if_true, hw]
    cases notify <;> rfl
  | some x =>
    refine ⟨x, s.freeCount, (fun _ h => Option.some.inj h), ?_⟩
    simp only [List.isEmpty_nil, if_true, hw]
    cases notify <;> rfl

/-- What the end of a taken order leaves when its final state write is allowed. -/
theorem finishWith_allowed (st : BlockState) (code : ResultCode) (detail : Option Nat) {b : OrderBlock} {s : State}
    (hb : s.ocu.current = some b) (hw : allowed .orderStateWrite (b.addr + 12) 8 s = true) :
    ∃ d n, (∀ x, detail = some x → d = x) ∧ finishWith st code detail [] s = { s with
      mem := memWriteN s.mem (b.addr + 12) (orderStateBytes st (resultCode code) d s.clock.ms.toNat), freeCount := n,
      ocu := { s.ocu with
        completed := satAdd32 s.ocu.completed 1, lastOrder := b.addr, current := none, flushing := none, phase := .link,
        chain := if s.pif.runChain = false ∧ s.ocu.chain = .running then .stopped else s.ocu.chain },
      raised := if b.notify then s.raised ||| attnBit .orderNotify else s.raised } := by
  obtain ⟨d, n, hd, h⟩ := finalWrite_allowed (orderLaneOf b.body) b.addr b.notify st code detail hw
  refine ⟨d, n, hd, ?_⟩
  unfold finishWith
  simp only [hb, List.isEmpty_nil, if_true, hw, h]
  unfold stopIfHalted leaveBlock
  dsimp only [updOcu]
  split <;> simp_all

/-- A reason raised in an event is set or waits after it (R177). -/
theorem reported_settle (a : Attn) (old : State) {s : State} (h : s.raised &&& attnBit a = attnBit a) :
    reported a (settle old s) := by
  unfold reported reasons
  rw [settle_reasons]
  have hb : (s.raised &&& attnBit a).getLsbD (attnIndex a) = true := by rw [h]; cases a <;> rfl
  rw [BitVec.getLsbD_and, Bool.and_eq_true] at hb
  simp [hb.1]

/-- An order that ends in an event whose work left the order's place in the chain as it was has `Ended` after it. -/
theorem ended_settle (st : BlockState) (code : ResultCode) (detail : Option Nat) {b : OrderBlock} {s u : State}
    (hb : u.ocu.current = some b) (hw : allowed .orderStateWrite (b.addr + 12) 8 u = true) (hk : u.clock = s.clock)
    (hc : u.ocu.completed = s.ocu.completed) (hp : u.ocu.position = s.ocu.position)
    (hl : u.ocu.longList = s.ocu.longList) :
    Ended b st code detail u.mem s (settle s (finishWith st code detail [] u)) := by
  obtain ⟨d, n, hd, h⟩ := finishWith_allowed st code detail hb hw
  rw [h]
  refine ⟨⟨d, hd, by simp [hk]⟩, by simp, by simp, by simp [hc], by simp, by simp [hp], by simp [hl], fun hn => ?_⟩
  refine reported_settle _ _ ?_
  simp only [hn, if_true]
  generalize u.raised = r
  simp only [attnBit]
  ext i hi
  simp
  tauto

/-- What the TAKEN write of a long order leaves when it is allowed. -/
theorem orderTaken_allowed (key : LongKey) {b : OrderBlock} {s : State} (hb : s.ocu.current = some b)
    (hw : allowed .orderStateWrite (b.addr + 12) 8 s = true) :
    ∃ c d t, orderTaken key s = { s with
      mem := memWriteN s.mem (b.addr + 12) (orderStateBytes .taken c d t), freeCount := s.freeCount + 1,
      ocu := { s.ocu with
        longList := s.ocu.longList ++ [{ key := key, addr := b.addr, kind := b.kind, notify := b.notify }],
        current := none, flushing := none, phase := .link,
        chain := if s.pif.runChain = false ∧ s.ocu.chain = .running then .stopped else s.ocu.chain } } := by
  refine ⟨(Config.freeValue s.freeCount).toNat % 256, (Config.freeValue s.freeCount).toNat / 256 % 65536,
    (Config.freeValue s.freeCount).toNat / 16777216 % 4294967296, ?_⟩
  unfold orderTaken
  simp only [hb, hw, if_true]
  unfold stopIfHalted leaveBlock drawFree
  dsimp only [updOcu, writeBytes]
  split <;> simp_all

end Sys2Proof.Machine
end

