-- ==== Sys2Proof/Tests/Slice0.lean ====
section
/-! SUPPORT. The model's own tests: commands that are not well formed, figures worked in the manual, and for each
statement with hypotheses a state that meets them, clause by clause, with what the command then does. -/

-- One theorem is elaborated at a time: each one waits for the kernel, and side by side they would ask for a thread each.
set_option Elab.async false

namespace Sys2Proof.Tests

open Sys2Proof.Machine

/-! ### Small states -/

/-- The command answers a next state with a property. -/
def gives (c : Instr) (s : State) (p : State → Bool) : Bool :=
  match exec c s with
  | .next t => p t
  | _ => false

/-- Lane 0 in a lane state, warmed, with its lamps ON. -/
def inMode (m : LaneMode) (s : State) : State :=
  updLsq .lane0 (fun q => { q with mode := m, lamp := .on, warmed := true }) s

def running : State := inMode .running State.reset

/-- The counter of lane 0 stands at a position. -/
def atPos (p : Pos) (s : State) : State := updBelt .lane0 (fun b => { b with counter := p }) s

/-- The last four samples of lane 0 were taken at a position, with a forward total. -/
def sampled (p : Pos) (f : Nat) (s : State) : State :=
  updBelt .lane0 (fun b => { b with samples := List.replicate 4 ⟨p, f, 0⟩ }) s

/-- The track queue of lane 0. -/
def onBelt (es : List Entry) (s : State) : State := updTrack .lane0 (fun t => { t with queue := es, lastSerial := 40 }) s

/-- A dark eye of lane 0. -/
def darkEye (y : Eye) (s : State) : State :=
  updEye .lane0 y (fun q => { q with dark := true, darkCount := 0, declared := false }) s

/-- The letter of 12.1: its leading edge at 2,000,000. -/
def letter : Entry :=
  { serial := 1, leadE := 2000000, scanStart := 2000400, trailE := none, length := none, gapBefore := 65535,
    stage := .entering, verdict := none, delivered := false, plan := none, seenAtT := false, cancelEye := none,
    misflipSuspect := false, printResult := none, pocketSeen := none, reroute := none, outcome := none,
    flipReached := false, cancelPassed := ⟨false, false⟩ }

/-- A plan without a print and without windows. -/
def plan (flip : Bool) (bank : Side) (pocket : Pocket) : Plan :=
  { reject := false, cause := none, flip := flip, bank := bank, print := none, pocket := pocket, windows := [] }

def onPath (pl : Plan) : Entry :=
  { letter with
    trailE := some 2000960, length := some 240, stage := .onPath, verdict := some (plainVerdict .noMark),
    delivered := true, plan := some pl, flipReached := true }

/-- A chain that has taken a block with a body at address 4,096. -/
def block (b : OrderBody) : OrderBlock := { addr := 4096, kind := 1, notify := true, body := b }
def taken (b : OrderBody) (s : State) : State := updOcu (fun o => { o with current := some (block b) }) s

/-- One window over the first 2^32 bytes with every use. -/
def windowed (s : State) : State :=
  { s with mwu :=
    { windows := [some { base := 0, size := 2 ^ 32, order := true, table := true, journal := true, status := true,
                         snapshot := true, writeProtect := false }, none, none, none],
      windowsSet := true } }

/-! ### Commands that are not well formed, and the table's words -/

theorem test_refuses_a_sample_of_eleven_readings :
    Instr.wellFormed (.sampleTaken .lane0 1 (List.replicate 11 0)) = false := by decide
theorem test_refuses_a_dark_part_of_63_readings :
    Instr.wellFormed (.longCalComplete .lane0 (List.replicate 12 (List.replicate 63 0))
      (List.replicate 12 (List.replicate 64 0))) = false := by decide +kernel
theorem test_refuses_a_reference_part_of_eleven_channels :
    Instr.wellFormed (.shortCalComplete .lane0 (List.replicate 12 (List.replicate 64 0))
      (List.replicate 11 (List.replicate 64 0))) = false := by decide +kernel
theorem test_refuses_a_check_without_readings : Instr.wellFormed (.refCalCheckComplete .lane0 []) = false := by decide
theorem test_refuses_a_temperature_of_101 : Instr.wellFormed (.headTempReading .lane0 .near 101) = false := by decide
theorem test_refuses_a_swap_button_at_an_end_pocket : Instr.wellFormed (.swapRequest .lane0 .ne true 20) = false := by
  decide
theorem test_refuses_a_trailing_edge_at_E : Instr.wellFormed (.eyeTrailingEdge .lane0 .e 4) = false := by decide
theorem test_refuses_a_read_past_the_word : Instr.wellFormed (.chainLoRead ⟨3, 2⟩) = false := by decide
theorem test_refuses_a_read_of_no_byte : Instr.wellFormed (.chainHiRead ⟨0, 0⟩) = false := by decide
theorem test_refuses_a_whole_write_of_CTRL : Instr.wellFormed (.registerWriteIgnored 4 4 1) = false := by decide
theorem test_an_ill_formed_command_is_refused :
    exec (.headTempReading .lane0 .near 101) State.reset = .refused .operandOutOfRange := rfl
theorem test_the_table_gives_no_words : decodeTableWord 16 3 = none := rfl

/-! ### The machine as a whole -/

theorem witness_StepRunsTheFrontCommand :
    ({ State.reset with pending := [.look] } : State).pending = .look :: [] := rfl
theorem witness_EmptyQueuePassesOneTick : State.reset.pending = [] := rfl
theorem witness_EveryCommandChangesOnlyItsParts :
    (∃ t, exec (.spitStart .lane0 .near) State.reset = .next t ∧ ownHead (.spitStart .lane0 .near) =
      some (.lane0, .near)) ∧
    (∃ t, exec (.swapRequest .lane0 .n1 true 20) State.reset = .next t ∧
      ownPocket (.swapRequest .lane0 .n1 true 20) = some (.lane0, .n1)) ∧
    ∃ t b, exec .pocketControlSwap (taken (.pocketControl 0 5 .swap 0) State.reset) = .next t ∧
      (taken (.pocketControl 0 5 .swap 0) State.reset).ocu.current = some b ∧ orderLaneOf b.body = some .lane0 ∧
      b.body = .pocketControl 0 5 .swap 0 ∧ pocketOfIndex 5 = some .f3 :=
  ⟨⟨_, rfl, rfl⟩, ⟨_, rfl, rfl⟩, _, _, rfl, rfl, rfl, rfl, rfl⟩
theorem witness_CommandsStoreOnlyWhereNamed :
    ∃ t, exec .identify (taken .identify State.reset) = .next t ∧
      storesOf .identify (taken .identify State.reset) = [(4108, 8), (4120, 40)] := ⟨_, rfl, rfl⟩
theorem witness_StepKeepsMemoryForm : memWf State.reset.mem = true ∧ ∃ t, step State.reset = .next t := ⟨rfl, _, rfl⟩
theorem witness_StepKeepsTrackQueues :
    (∀ l, trackOk ((onBelt [letter] running).track.get l) = true) ∧ ∃ t, step (onBelt [letter] running) = .next t :=
  ⟨by intro l; cases l <;> decide, _, rfl⟩
/-- Lane 0 with one letter entered and on the belt. -/
def oneEntered : State :=
  { onBelt [letter] running with tally := ⟨(List.replicate 106 0).set 0 1, List.replicate 106 0⟩ }
theorem witness_StepKeepsTrackQueues_conserved :
    (∀ l, trackOk (oneEntered.track.get l) = true ∧ (oneEntered.tally.get l).length = 106 ∧ conserved l oneEntered) ∧
      ∃ t, step oneEntered = .next t := by
  refine ⟨?_, _, rfl⟩
  intro l; cases l <;> (unfold conserved; decide +kernel)
theorem witness_OnlyEncoderCountsMoveTheCounter :
    gives (.encoderCount .lane0 false) running (fun t => (t.belt.get .lane0).counter == 16777215) = true := by
  decide +kernel
theorem witness_EntriesKeepTheirFirstVerdictAndCause :
    (∀ l, trackOk ((onBelt [letter] running).track.get l) = true) ∧
      ∃ t, exec (.encoderCount .lane0 true) (onBelt [letter] running) = .next t :=
  ⟨by intro l; cases l <;> decide, _, rfl⟩
theorem witness_StoppedAndUndelivered :
    laneMode .lane0 (inMode .stopped State.reset) = .stopped ∧ (List.replicate 12 (0 : BitVec 12)).length = 12 ∧
    gives (.arrivalT .lane0 4) (inMode .standby State.reset) (fun t => (eyeState .lane0 .t t).dark) = true ∧
    gives (.eLeadingEdge .lane0 4) State.reset (fun t => (t.sfe.get .lane0).lastLead.isSome) = true := by
  decide +kernel
theorem witness_MessagesAndReasons :
    gives .irqEnable { State.reset with pif := { Pif.reset with msiEnable := true, mask := 1, attn := 1 } }
      (fun t => t.pif.msiSent == 1 && t.pif.attn == 1) = true := by decide +kernel
/-- Log entry 23: ORDER_NOTIFY waits for a status write that a CONFIGURE_PORT with address 0 makes undue. -/
theorem witness_MessagesAndReasons_waiting :
    gives .configurePort (taken (.configurePort 0 0 1 0) (updStat (fun t =>
      { t with addr := some 16384, due := true, waiting := 1 }) State.reset)) (fun t =>
      t.stat.addr == none && t.pif.attn.getLsbD 0) = true := by decide +kernel

/-! ### Belt, eyes and track entries -/

/-- The worked conversions of 1.2. -/
theorem test_worked_conversions :
    leadCounts 12000 819 = 154 ∧ leadCounts 8000 819 = 103 ∧ leadCounts 400000 819 = 4095 ∧
      leadCounts 12000 1024 = 192 := by decide
theorem witness_CountsSpeedAndTimes :
    gives (.speedInterval .lane0) (updBelt .lane0 (fun b =>
      { b with intervalTicks := 160, intervalCount := 102, intervals := [90, 102, 102, 103, 102, 103, 102, 103] })
      State.reset) (fun t => (t.belt.get .lane0).speed == 819) = true ∧
    64000 * 4095 ≤ 64000 * 4095 ∧ leadCounts 64000 4095 = 4095 ∧ 64000 * 4095 < 64001 * 4095 ∧
    leadCounts 64001 4095 = 4095 := by decide +kernel
theorem witness_EyesGoLightOrStayBlocked :
    gives (.eyeTrailingEdge .lane0 .vn 4) (darkEye .vn running) (fun t => !(eyeState .lane0 .vn t).dark) = true ∧
    gives (.eyeTrailingEdge .lane0 .fe 1)
      (darkEye .fe { running with geom := ⟨{ Geometry.default with eyeFilter := false }, Geometry.default⟩ })
      (fun t => !(eyeState .lane0 .fe t).dark) = true ∧
    gives (.blockedEye .lane0 .n1) (updEye .lane0 .n1 (fun _ => ⟨true, 1753, false, 0⟩) running) (fun t =>
      laneMode .lane0 t == .stopped && reasons t == 0b100001000#10) = true := by decide +kernel
/-- R7: an edge accepted in STOPPED keeps the two counts of its run that were made while edges were delivered; after a
restart none of them is left. -/
theorem test_measurement_of_a_run_across_a_stop :
    gives (.arrivalT .lane0 4) (updBelt .lane0 (fun b => { b with fwd := 9, live := 2 }) (inMode .stopped State.reset))
      (fun t => (eyeState .lane0 .t t).darkCount == 2) = true ∧
    gives (.arrivalT .lane0 4)
      (restartDark .lane0 (updBelt .lane0 (fun b => { b with fwd := 9, live := 2 }) (inMode .ready State.reset)))
      (fun t => (eyeState .lane0 .t t).darkCount == 0) = true := by decide +kernel
/-- R7: a forward count is added to the total of delivered counts only while edges are delivered. -/
theorem test_counts_held_while_stopped :
    gives (.encoderCount .lane0 true) (inMode .stopped State.reset) (fun t => (t.belt.get .lane0).live == 0) = true ∧
    gives (.encoderCount .lane0 true) running (fun t => (t.belt.get .lane0).live == 1) = true := by decide +kernel
/-- R10: the gap of the first letter, and a gap of exactly minGap. -/
theorem witness_LeadingEdgesAtE :
    gives (.eLeadingEdge .lane0 4) (sampled 2000000 500 running) (fun t => match (t.track.get .lane0).queue with
      | [e] => e.serial == 1 && e.leadE == 2000000 && e.gapBefore == 65535
      | _ => false) = true ∧
    gives (.eLeadingEdge .lane0 4)
      (updTrack .lane0 (fun t => { t with lastTrail := some 380 }) (sampled 2000000 500 running))
      (fun t => match (t.track.get .lane0).queue with
      | [e] => e.gapBefore == 30 && e.verdict == none
      | _ => false) = true ∧
    (∀ n, some 380 = some n → 120 ≤ 500 - n) := by
  refine ⟨by decide +kernel, by decide +kernel, ?_⟩
  intro n h; cases h; decide
theorem witness_LeadingEdgesAtE_full :
    32 ≤ (List.replicate 32 letter).length ∧
    gives (.eLeadingEdge .lane0 4) (sampled 5 5 (onBelt (List.replicate 32 letter) running)) (fun t =>
      holdSet .lane0 .queueFull t && (t.tally.get .lane0).getD 103 0 == 1 &&
      (t.track.get .lane0).queue.length == 32) = true ∧
    gives (.eLeadingEdge .lane0 4) (sampled 5 5 (updTrack .lane0 (fun t => { t with lastSerial := 4294967295 }) running))
      (fun t => (t.tally.get .lane0).getD 103 0 == 1 && (t.track.get .lane0).queue == []) = true := by decide +kernel
/-- R12: L at both ends of 508..1,168, and the letter of 12.1 (L = 960, N = 240). -/
theorem witness_TrailingEdgeGivesTheLength :
    trackOk ((onBelt [letter] running).track.get .lane0) = true ∧
    gives (.eTrailingEdge .lane0 4) (sampled 2000508 9 (darkEye .e (onBelt [letter] running))) (fun t =>
      (t.track.get .lane0).queue.map (fun e => (e.length, e.verdict)) == [(some 127, none)]) = true ∧
    gives (.eTrailingEdge .lane0 4) (sampled 2001168 9 (darkEye .e (onBelt [letter] running))) (fun t =>
      (t.track.get .lane0).queue.map (fun e => (e.length, e.verdict)) == [(some 292, none)]) = true ∧
    gives (.eTrailingEdge .lane0 4) (sampled 2000960 9 (darkEye .e (onBelt [letter] running))) (fun t =>
      (t.track.get .lane0).queue.map (fun e => e.length) == [some 240] &&
      (t.track.get .lane0).lastTrail == some 9) = true := by decide +kernel
theorem witness_LongAndForcedDelivery :
    findEntry .lane0 1 (onBelt [letter] running) = some letter ∧
    gives (.longTimeout .lane0 1) (atPos 2001169 (onBelt [letter] running)) (fun t =>
      (t.track.get .lane0).queue.map (fun e => e.verdict.map (fun v => v.kind)) == [some .long]) = true ∧
    gives (.forcedDelivery .lane0 1) (atPos 2004000 (onBelt [letter] running)) (fun t =>
      (t.track.get .lane0).queue.map (fun e => (e.verdict.map (fun v => v.kind), e.delivered, e.stage,
        e.plan.isSome)) == [(some .late, true, .planned, true)]) = true := by decide +kernel
theorem witness_BankPositionAndWindowsPassed :
    gives (.bankPositionReached .lane0 1) (atPos 2006400 (onBelt [{ letter with stage := .planned }] running)) (fun t =>
      (t.track.get .lane0).queue.map (fun e => e.stage) == [.onPath]) = true ∧
    planFlips { letter with plan := some (plan true .far .f1) } = true ∧
    gives (.tWindowPassed .lane0 1)
      (atPos 2005281 (onBelt [{ letter with plan := some (plan true .far .f1) }] running)) (fun t =>
      (t.track.get .lane0).queue.map (fun e => e.misflipSuspect) == [true]) = true ∧
    gives (.cancelWindowPassed .lane0 1 .far) (atPos 2007681 (onBelt [letter] running)) (fun t =>
      (t.track.get .lane0).queue.map (fun e => e.cancelPassed) == [⟨false, true⟩]) = true := by decide +kernel
/-- R15, R16: an arrival at an end of the window, one of an entry without flip, and a phantom. -/
theorem witness_ArrivalAtTheTwistEye :
    trackOk ((onBelt [{ letter with flipReached := true }] running).track.get .lane0) = true ∧
    gives (.arrivalT .lane0 4)
      (sampled 2005280 0 (onBelt [{ letter with flipReached := true, plan := some (plan true .far .f1) }] running))
      (fun t => (t.track.get .lane0).queue.map (fun e => (e.seenAtT, e.reroute)) == [(true, none)]) = true ∧
    gives (.arrivalT .lane0 4)
      (sampled 2005120 0 (onBelt [{ letter with flipReached := true, plan := some (plan false .near .n1) }] running))
      (fun t => (t.track.get .lane0).queue.map (fun e => (e.seenAtT, e.reroute)) == [(true, some .misflip)]) = true ∧
    gives (.arrivalT .lane0 4)
      (sampled 2005120 0 (onBelt [{ letter with
        flipReached := true, reroute := some .gateMissed, plan := some (plan false .near .n1) }] running))
      (fun t => (t.track.get .lane0).queue.map (fun e => (e.seenAtT, e.reroute)) == [(true, some .gateMissed)] &&
        t.jrn.holding.map (fun e => (e.code, e.subject, e.serial)) == [(.misflip, 1, 1)]) = true ∧
    gives (.arrivalT .lane0 4) (sampled 2005281 0 (onBelt [{ letter with flipReached := true }] running)) (fun t =>
      (t.track.get .lane0).queue.map (fun e => e.seenAtT) == [false] && (t.tally.get .lane0).getD 102 0 == 1) =
      true := by decide +kernel

/-- A BARS print of serial 1 at column 5 mm. -/
def bars (st : PrintState) : Print :=
  { serial := 1, style := 1, kind := .bars, generation := none, unsetGen := false, width := 16, anchor := 8,
    startMm := 5, columns := 16, clipped := false, state := st, start := 2007960, image := none }

def withPrint (p : Print) (s : State) : State := updHead .lane0 .near (fun d => { d with wet := .ready, prints := [p] }) s

/-- R94: start = captured position + headOffset + 4 × startMm = 2,007,595 + 320 + 20. -/
theorem witness_ArrivalAtACancelEye :
    planBank (onPath (plan false .near .n1)) = .near ∧ (bars .posted).kind ≠ .none ∧
    gives (.arrivalCancelEye .lane0 .near 4)
      (sampled 2007595 0 (withPrint (bars .posted) (onBelt [onPath (plan false .near .n1)] running))) (fun t =>
      (t.track.get .lane0).queue.map (fun e => (e.cancelEye, e.reroute)) == [(some (.near, 2007595), none)] &&
      (head .lane0 .near t).prints.map (fun p => (p.state, p.start)) == [(.released, 2007935)] &&
      (t.track.get .lane0).queue.map (fun e => e.printResult.isSome) == [true]) = true := by
  decide +kernel
/-- R9, R95: the print result goes with a RELEASED print that is withdrawn, and stays with a PRINTING one. -/
theorem test_withdrawn_print_leaves_no_result :
    let e := { onPath (plan false .near .n1) with printResult := some (.printed 5 false .bars) }
    (((withdrawPrint .lane0 1 (withPrint (bars .released) (onBelt [e] running))).track.get .lane0).queue.map
      (fun x => x.printResult)) = [none] ∧
    (((withdrawPrint .lane0 1 (withPrint (bars .printing) (onBelt [e] running))).track.get .lane0).queue.map
      (fun x => x.printResult)) = [some (.printed 5 false .bars)] := by decide +kernel

/-- An arrival at CN at 2,007,595 with one entry on lane 0's belt. -/
def atCn (e : Entry) (s : State) (p : State → Bool) : Bool :=
  gives (.arrivalCancelEye .lane0 .near 4) (sampled 2007595 0 (onBelt [e] s)) p
/-- The match and the cause of each entry, and the codes of the events held. -/
def matched (t : State) : List (Option (Side × Pos) × Option RerouteCause) × List EventCode :=
  ((t.track.get .lane0).queue.map (fun e => (e.cancelEye, e.reroute)), t.jrn.holding.map (fun e => e.code))

/-- R94, R97: on its path an entry without a print, one at a DRY head, and one of an undefined style. -/
theorem witness_ArrivalAtACancelEye_on_path :
    atCn (onPath (plan false .near .n1)) running (fun t => matched t == ([(some (.near, 2007595), none)], []) &&
      t.cnu == running.cnu) = true ∧
    atCn (onPath (plan false .near .n1)) (updHead .lane0 .near (fun d => { d with wet := .dry, prints := [bars .posted] })
      running) (fun t => (matched t).1 == [(some (.near, 2007595), none)] && (head .lane0 .near t).prints == [] &&
      (t.tally.get .lane0).getD 81 0 == 1) = true ∧
    atCn (onPath (plan false .near .n1)) (withPrint { bars .posted with kind := .none } running) (fun t =>
      (matched t).1 == [(some (.near, 2007595), none)] && (head .lane0 .near t).prints == [] &&
      (t.tally.get .lane0).getD 82 0 == 1) = true := by decide +kernel
/-- R18: a phantom one count behind the window, a suspect on its path and off it, an entry on the wrong path, and one there
with a cause. -/
theorem witness_ArrivalAtACancelEye_reroutes :
    heldGates (onPath (plan false .far .f1)) = [] ∧
    gives (.arrivalCancelEye .lane0 .near 4) (sampled 2007681 0 (onBelt [onPath (plan false .near .n1)] running)) (fun t =>
      matched t == ([(none, none)], [.phantom]) && (t.tally.get .lane0).getD 102 0 == 1) = true ∧
    atCn { onPath (plan false .near .n1) with misflipSuspect := true } (withPrint (bars .posted) running) (fun t =>
      matched t == ([(some (.near, 2007595), some .misflip)], [.misflip]) && (head .lane0 .near t).prints == [] &&
      (t.tally.get .lane0).getD 97 0 == 1) = true ∧
    atCn { onPath (plan false .far .f1) with misflipSuspect := true } running (fun t =>
      matched t == ([(some (.near, 2007595), some .misflip)], [.misflip, .misbank])) = true ∧
    atCn (onPath (plan false .far .f1)) running (fun t =>
      matched t == ([(some (.near, 2007595), some .misbank)], [.misbank]) &&
      (t.tally.get .lane0).getD 98 0 == 1) = true ∧
    atCn { onPath (plan false .far .f1) with reroute := some .gateMissed } running (fun t =>
      matched t == ([(some (.near, 2007595), some .gateMissed)], [.misbank]) && t.tally == running.tally) = true := by
  decide +kernel
/-- R78, R95: an entry with a window in F1's list and a print, on the wrong path. -/
theorem witness_ArrivalAtACancelEye_windows :
    let e := onPath { plan false .far .f1 with windows := [⟨.f1, 2010497, 2011600⟩] }
    let s := updChannel .lane0 .f1 (fun c => { c with windows := [⟨2010497, 2011600, [1], .queued⟩] })
      (updHead .lane0 .far (fun d => { d with prints := [bars .posted] }) running)
    heldGates e = [.f1] ∧ atCn e s (fun t => matched t == ([(some (.near, 2007595), some .misbank)], [.misbank]) &&
      (channel .lane0 .f1 t).windows == [] && (head .lane0 .far t).prints == []) = true := by decide +kernel
theorem witness_LossesLeaveTheQueue :
    (running.tally.get .lane0).length = 106 ∧
    gives (.lostAtCancelEye .lane0 1)
      (onBelt [{ onPath (plan false .near .n1) with cancelPassed := ⟨true, true⟩ }] running) (fun t =>
      (t.track.get .lane0).queue == [] && (t.track.get .lane0).cancelJam == ⟨1, 0⟩ &&
      (t.tally.get .lane0).getD 95 0 == 1 && laneMode .lane0 t == .running) = true ∧
    gives (.lostAtEndEye .lane0 1)
      (atPos 2013281 (onBelt [{ onPath (plan false .far .f1) with cancelEye := some (.far, 2007600) }] running)) (fun t =>
      (t.track.get .lane0).queue == [] && (t.track.get .lane0).endJam == ⟨0, 1⟩ &&
      (t.tally.get .lane0).getD 95 0 == 1 && laneMode .lane0 t == .running) = true := by decide +kernel
/-- R22: with jamThreshold 2 the second loss in a row stops the lane. -/
theorem witness_LossesLeaveTheQueue_jams :
    gives (.lostAtCancelEye .lane0 1) (updTrack .lane0 (fun t => { t with cancelJam := ⟨1, 0⟩ })
      (onBelt [{ onPath (plan false .near .n1) with cancelPassed := ⟨true, true⟩ }] running)) (fun t =>
      (t.track.get .lane0).queue == [] && (t.track.get .lane0).cancelJam == ⟨2, 0⟩ && laneMode .lane0 t == .stopped &&
      t.jrn.holding.map (fun e => e.code) == [.lost, .jam, .laneState]) = true ∧
    gives (.lostAtEndEye .lane0 1) (updTrack .lane0 (fun t => { t with endJam := ⟨0, 7⟩ })
      (atPos 2013281 (onBelt [{ onPath (plan false .far .f1) with cancelEye := some (.far, 2007600) }] running))) (fun t =>
      (t.track.get .lane0).endJam == ⟨0, 7⟩ && laneMode .lane0 t == .stopped) = true := by decide +kernel
theorem witness_ArrivalAtAPocketEye :
    expectedPocket { onPath (plan false .near .ne) with cancelEye := some (.near, 2007600) } .near = .ne ∧
    gives (.arrivalPocketEye .lane0 .ne 4)
      (sampled 2013200 0 (onBelt [{ onPath (plan false .near .ne) with cancelEye := some (.near, 2007600) }] running))
      (fun t => (t.track.get .lane0).queue == [] && (pocketRec .lane0 .ne t).fill == 1 &&
        (t.tally.get .lane0).getD 94 0 == 1) = true := by decide +kernel
/-- The same at a gated pocket, whose window the item holds and whose reservation it has. -/
theorem witness_ArrivalAtAPocketEye_gated :
    gives (.arrivalPocketEye .lane0 .n1 4)
      (sampled 2009800 0 (updPocket .lane0 .n1 (fun r => { r with reservations := [1] })
        (onBelt [{ onPath { plan false .near .n1 with windows := [⟨.n1, 2009400, 2010700⟩] } with
                   cancelEye := some (.near, 2007600) }] running)))
      (fun t => (t.track.get .lane0).queue == [] && (pocketRec .lane0 .n1 t).fill == 1 &&
        (pocketRec .lane0 .n1 t).reservations == [] && (t.tally.get .lane0).getD 93 0 == 1) = true ∧
    expectedPocket { onPath { plan false .near .n1 with windows := [⟨.n1, 2009400, 2010700⟩] } with
                   cancelEye := some (.near, 2007600) } .near = .n1 := by decide +kernel

/-! ### The Scan Front End -/

def quiet (s : State) : State :=
  updSfe .lane0 (fun f => { f with lastLead := some ⟨1000, true⟩, lastTrail := some ⟨2000, true⟩ }) s

theorem witness_ApertureAndCalibrationStarts :
    gives (.nearPointReached .lane0) (atPos 2000384 (updSfe .lane0 (fun f =>
      { f with lastLead := some ⟨2000000, false⟩, longRun := some 7 }) running)) (fun t =>
      (t.sfe.get .lane0).longRun == none && t.jrn.holding.map (fun e => (e.code, e.arg1)) == [(.calAbandoned, 0)]) = true ∧
    gives (.clearPointReached .lane0) (atPos 2001360 (updSfe .lane0 (fun f =>
      { f with lastTrail := some ⟨2000960, false⟩ }) running)) (fun t =>
      (t.sfe.get .lane0).lastTrail == some ⟨2000960, true⟩) = true ∧
    gives (.longCalStart .lane0) (quiet (updSfe .lane0 (fun f => { f with longRequest := some .warming }) running))
      (fun t => (t.sfe.get .lane0).longRun == some 0) = true ∧
    gives (.shortCalStart .lane0) (quiet (updSfe .lane0 (fun f => { f with due := true }) running))
      (fun t => (t.sfe.get .lane0).shortRun == some 0) = true := by decide +kernel
/-- The second case of the near point: a short calibration is abandoned. -/
theorem witness_ApertureAndCalibrationStarts_short :
    gives (.nearPointReached .lane0) (atPos 2000384 (updSfe .lane0 (fun f =>
      { f with lastLead := some ⟨2000000, false⟩, shortRun := some 7 }) running)) (fun t =>
      (t.sfe.get .lane0).shortRun == none && t.jrn.holding.map (fun e => (e.code, e.arg1)) == [(.calAbandoned, 1)]) =
      true := by decide +kernel
/-- The three channels worked under R32. -/
theorem test_worked_long_calibration :
    gainOf 200 = 1023 ∧ gainOf 201 = 1018 ∧ gainOf 3200 = 64 ∧ gainOf 3201 = 64 ∧ gainOf 0 = 1023 ∧
      calibrated ⟨0, 256⟩ 800 = 800 ∧ calibrated ⟨100, 1023⟩ 4095 = 1023 := by decide
theorem witness_CalibratedValuesAndGains :
    ([⟨40, 64⟩] : List CalPair)[0]? = some ⟨40, 64⟩ ∧ calibrated ⟨40, 64⟩ 40 = 0 ∧ calibrated ⟨40, 64⟩ 41 = 0 ∧
      calibrated ⟨40, 64⟩ 44 = 1 ∧ gainClamped 200 = true ∧ gainClamped 201 = false ∧ gainClamped 3200 = false ∧
      gainClamped 3201 = true := by decide

def flat (n : Nat) : List (BitVec 12) := List.replicate 12 (BitVec.ofNat 12 n)

theorem witness_SampleTakenEffect :
    gives (.sampleTaken .lane0 1 (flat 800)) (atPos 2000400 (onBelt [letter] running)) (fun t =>
      traceOf .lane0 1 t == [List.replicate 12 800] &&
      (t.track.get .lane0).queue.map (fun e => e.stage) == [.scanning]) = true := by decide +kernel
/-- R13, R38: the scan start passed in reference mode; a target of N or more is none. -/
theorem witness_SampleTakenEffect_reference :
    gives (.sampleTaken .lane0 1 (flat 800)) (atPos 2000400 (updSfe .lane0 (fun f => { f with refMode := true })
      (onBelt [{ letter with length := some 1 }] running))) (fun t => (traceOf .lane0 1 t).length == 1 &&
      t.freeCount == 12 && t.msc.jobs == [] &&
      (t.track.get .lane0).queue.map (fun e => e.stage) == [.scanning]) = true ∧
    gives (.sampleTaken .lane0 1 (flat 800)) (atPos 2000400 (onBelt [{ letter with length := some 0 }] running))
      (fun t => decide (t = atPos 2000400 (onBelt [{ letter with length := some 0 }] running))) = true := by
  decide +kernel
/-- The last sample of a letter posts its job while another is scored; the deadline of R42 at S = 819 is
2,004,000 − 154 − 100. -/
theorem witness_SampleTakenEffect_last :
    gives (.sampleTaken .lane0 1 (flat 800))
      (atPos 2000904 (updBelt .lane0 (fun b => { b with speed := 819 })
        (updSfe .lane0 (fun f => { f with traces := [⟨1, List.replicate 126 (List.replicate 12 0)⟩] })
          (updMsc (fun m => { m with scoring := some builtInTable, jobs := [⟨.lane1, 3, 127, [], 0, false⟩] })
            (onBelt [{ letter with stage := .scanning, length := some 127 }] running)))))
      (fun t => (t.msc.jobs.map (fun j => (j.serial, j.length, j.deadline))) == [(3, 127, 0), (1, 127, 2003746)] &&
        (t.track.get .lane0).queue.map (fun e => e.stage) == [.queued] && traceOf .lane0 1 t == []) = true := by
  decide +kernel

def measured (n : Nat) : List (List (BitVec 12)) := List.replicate 12 (List.replicate 64 (BitVec.ofNat 12 n))

/-- R32: offset target 30, reference mean 530, d = 500: gain floor(204,800 / 500) = 409. -/
theorem witness_CalibrationsComplete :
    measureOk (measured 30) = true ∧ measureOk (measured 530) = true ∧
    gives (.longCalComplete .lane0 (measured 30) (measured 530)) (updSfe .lane0 (fun f =>
      { f with longRun := some 4000, longRequest := some .selfTest, due := true, dueAge := 3 }) running) (fun t =>
      (t.sfe.get .lane0).pairs == List.replicate 12 ⟨30, 409⟩ && !(t.sfe.get .lane0).due &&
      (t.sfe.get .lane0).longRequest == none) = true := by decide +kernel
/-- R35: toward offset 30 and gain 409 from (0, 256) a short calibration moves by 16 and by 32. -/
theorem witness_CalibrationsComplete_short :
    gives (.shortCalComplete .lane0 (measured 30) (measured 530)) (updSfe .lane0 (fun f =>
      { f with shortRun := some 160, due := true, dueAge := 3 }) running) (fun t =>
      (t.sfe.get .lane0).pairs == List.replicate 12 ⟨16, 288⟩ && (t.sfe.get .lane0).dueAge == 0) = true := by
  decide +kernel
theorem witness_CalibrationTimerAndGapHold :
    gives (.calIntervalExpiry .lane0) (updSfe .lane0 (fun f =>
      { f with calTicks := 1200000, due := true, dueAge := 3 }) running) (fun t =>
      (t.sfe.get .lane0).dueAge == 4 && holdSet .lane0 .gapCal t && (t.sfe.get .lane0).gapHold == some 0) = true ∧
    gives (.gapCalHoldExpiry .lane0) (setHold .lane0 .gapCal true (updSfe .lane0 (fun f =>
      { f with gapHold := some 5000, due := true }) running)) (fun t =>
      !holdSet .lane0 .gapCal t && (t.sfe.get .lane0).due) = true := by decide +kernel

/-! ### Scoring and self-test -/

/-- R53 on a trace of ten samples with W = 8: sums 40, 45, 50. -/
theorem witness_FiguresOfATrace :
    (8 ≤ 8 ∧ 8 ≤ [0, 0, 5, 5, 5, 5, 5, 5, 5, 10].length) ∧
    (∀ x ∈ [0, 0, 5, 5, 5, 5, 5, 5, 5, 1023], x ≤ 1023) ∧
    figureOf 8 [0, 0, 5, 5, 5, 5, 5, 5, 5, 10] = ⟨1, 6⟩ := by decide

/-- The nominal figures of the eight items give the verdicts of the table of R168. -/
theorem test_nominal_items : consistencyPasses = true := by decide +kernel
/-- Item 1 has a best candidate and no rival, item 7 has a rival, item 6 no ranked candidate, item 5 none. -/
theorem witness_BestCandidateAndVerdict :
    (candidates 240 builtInTable.entries (nominalFigures 5) = []) ∧
    (candidates 240 builtInTable.entries (nominalFigures 6) ≠ [] ∧
      ∀ c ∈ candidates 240 builtInTable.entries (nominalFigures 6), c.presentation = none) ∧
    (bestCandidate ((candidates 240 builtInTable.entries (nominalFigures 1)).filter
      (fun c => c.presentation.isSome))).isSome = true ∧
    (judge builtInTable 240 (nominalFigures 7)).kind = .ambiguous ∧
    (judge builtInTable 240 (nominalFigures 1)).kind = .faced ∧ (judge builtInTable 240 (nominalFigures 7)).faced = none ∧
    (candidates 240 builtInTable.entries (nominalFigures 1)).map (fun c => c.index) ≠ [] := by decide +kernel
/-- R54 to R56 on items 1 and 6 of R168: class C1 at the lead end of FT, and off-corner at its trail end. -/
theorem witness_BestCandidateAndVerdict_candidates :
    (candidates 240 builtInTable.entries (nominalFigures 1)).map (fun c =>
      (c.index, c.strip, c.centre, c.presentation, c.score)) = [(1, 0, 32, some .a, 150)] ∧
    (candidates 240 builtInTable.entries (nominalFigures 6)).map (fun c =>
      (c.index, c.strip, c.centre, c.presentation, c.score)) = [(1, 0, 202, none, 150)] :=
  ⟨by decide +kernel, by decide +kernel⟩
theorem witness_ScoringReturnsTheVerdict :
    gives .scoringComplete (updMsc (fun m =>
      { m with current := some builtInTable, scoring := some builtInTable,
               jobs := [⟨.lane0, 1, 24, List.replicate 24 (List.replicate 12 40), 2003746, false⟩] })
      (atPos 2001400 (onBelt [{ letter with stage := .queued, trailE := some 2000960, length := some 240 }] running)))
      (fun t => (t.track.get .lane0).queue.map (fun e => e.verdict.map (fun v => v.kind)) == [some .noMark] &&
        t.msc.jobs == [] && t.msc.scoring == none) = true := by decide +kernel
/-- With the deadline behind the counter the verdict is LATE. -/
theorem test_late_at_scoring :
    gives .scoringComplete (updMsc (fun m =>
      { m with current := some builtInTable, scoring := some builtInTable,
               jobs := [⟨.lane0, 1, 24, List.replicate 24 (List.replicate 12 40), 2003746, false⟩] })
      (atPos 2003747 (onBelt [{ letter with stage := .queued, trailE := some 2000960, length := some 240 }] running)))
      (fun t => (t.track.get .lane0).queue.map (fun e => e.verdict.map (fun v => v.kind)) == [some .late]) = true := by
  decide +kernel

def auditing (left : List Nat) (s : State) : State :=
  updHmu (fun h => { h with audit := some { generation := 0, left := left, total := 4, nextAddr := 8192,
                                            lastWritten := 0, tens := 10, begun := false } })
    (updMsc (fun m => { m with current := some builtInTable, idleRequests := [.audit] }) s)

def auditRuns (left : List Nat) : State :=
  updOcu (fun o => { o with longList := [⟨.audit, 4096, 15, true⟩] })
    (updMsc (fun m => { m with idleRunning := true }) (auditing left (windowed State.reset)))

theorem witness_IdleWorkAndTheAudit :
    gives .idleWorkStart (auditing [1, 2, 3, 4] State.reset) (fun t =>
      t.msc.idleRunning && t.hmu.audit.map (fun a => a.begun) == some true) = true ∧
    auditSet builtInTable [(1, 4)] = [1, 2, 3, 4] ∧
    gives .selfTestClassAudit (updMsc (fun m => { m with current := some builtInTable })
      (taken (.selfTest .classAudit 0 1 [(1, 4), (0, 0), (0, 0), (0, 0)] 8192) State.reset)) (fun t =>
      t.hmu.audit.map (fun a => (a.left, a.total)) == some ([1, 2, 3, 4], 4) && t.msc.idleRequests == [.audit] &&
      t.ocu.longList == [⟨.audit, 4096, 1, true⟩]) = true ∧
    gives .selfTestClassAudit (taken (.selfTest .classAudit 0 0 [] 8192) State.reset) (fun t =>
      t.ocu.current == none && t.hmu == State.reset.hmu) = true ∧
    gives .selfTestClassAudit (taken (.selfTest .classAudit 0 4 [] 8192) (auditing [1] State.reset)) (fun t =>
      t.ocu.current == none && t.hmu.audit.isSome) = true := by decide +kernel
theorem witness_IdleWorkAndTheAudit_entry :
    allowed .snapshotWrite 8192 4 (auditRuns [1, 2]) = true ∧
    gives .auditEvalComplete (auditRuns [1, 2]) (fun t => readBytes 8192 4 t == [1, 0, 0, 0] &&
      t.hmu.audit.map (fun a => (a.left, a.nextAddr, a.lastWritten, a.tens)) == some ([2], 8196, 1, 3)) = true ∧
    gives .auditEvalComplete (auditRuns [4]) (fun t => readBytes 8192 4 t == [4, 0, 0, 0] &&
      t.hmu.audit == none && t.ocu.longList == [] && t.ocu.completed == 1 && t.hmu.pointer == 1) = true := by
  decide +kernel

def testing (step : Nat) (r : Option RefRequest) : State :=
  updSfe .lane0 (fun f =>
    { f with refMode := true, refRequest := r, pairs := List.replicate 12 ⟨0, 256⟩,
             lastLong := some (List.replicate 12 ⟨0, 800⟩) })
    (updHmu (fun h => { h with tests := ⟨some ⟨.reference, step⟩, none⟩ }) (inMode .testing State.reset))

/-- The lane and result of the first place of the test log. -/
def logged (t : State) : Option (Option LaneId × TestResult) :=
  (t.hmu.log.toList.headD none).map (fun e => (e.lane, e.result))

/-- R168: means of 775 and of 825 fail the calibration check. -/
theorem witness_ReferenceTestSteps_means :
    gives (.refCalCheckComplete .lane0 (measured 775)) (testing 1 (some (.calCheck 320))) (fun t =>
      t.hmu.tests.get .lane0 == none && logged t == some (some .lane0, .failFrontEnd)) = true ∧
    gives (.refCalCheckComplete .lane0 (measured 825)) (testing 1 (some (.calCheck 320))) (fun t =>
      t.hmu.tests.get .lane0 == none && logged t == some (some .lane0, .failFrontEnd)) = true := by decide +kernel
/-- R168: means of 776 and of 824 pass the calibration check; without a long calibration it fails. -/
theorem witness_ReferenceTestSteps :
    gives (.refCalCheckComplete .lane0 (measured 776)) (testing 1 (some (.calCheck 320))) (fun t =>
      t.hmu.tests.get .lane0 == some ⟨.reference, 2⟩ && (t.sfe.get .lane0).refRequest == some (.trace 1 0)) = true ∧
    gives (.refCalCheckComplete .lane0 (measured 824)) (testing 1 (some (.calCheck 320))) (fun t =>
      t.hmu.tests.get .lane0 == some ⟨.reference, 2⟩) = true ∧
    gives (.refCalCheckComplete .lane0 (measured 800))
      (updSfe .lane0 (fun f => { f with lastLong := none }) (testing 1 (some (.calCheck 320)))) (fun t =>
      t.hmu.tests.get .lane0 == none && !(t.sfe.get .lane0).refMode) = true ∧
    gives (.syntheticTraceDone .lane0) (testing 2 (some (.trace 1 240))) (fun t =>
      t.msc.idleRequests == [.laneItem .lane0] && (t.sfe.get .lane0).refRequest == none) = true := by decide +kernel

def itemScored (step : Nat) : State :=
  updMsc (fun m => { m with idleRunning := true, idleRequests := [.laneItem .lane0] }) (testing step none)

/-- Item 5 has no mark: every channel of its trace reads 40 throughout, and every strength is 0. -/
theorem item5_trace : (List.range 240).map (syntheticSample ((itemScored 6).sfe.get .lane0) 5) =
    List.replicate 240 (List.replicate 12 40) := by decide +kernel
theorem flat_channel : figureOf 24 (List.replicate 240 40) = ⟨0, 12⟩ := by decide +kernel
theorem channel_of_equal_rows (n c : Nat) (row : List Nat) :
    channelTrace (List.replicate n row) c = List.replicate n (row.getD c 0) := by simp [channelTrace]
theorem item5_figures : syntheticFigures ((itemScored 6).sfe.get .lane0) 5 = nominalFigures 5 := by
  unfold syntheticFigures
  rw [item5_trace]
  simp only [traceFigures, channel_of_equal_rows]
  have h : ∀ strip ∈ List.range 4, ∀ band ∈ List.range 3, (List.replicate 12 40).getD (3 * strip + band) 0 = 40 := by
    decide
  have f : ∀ strip ∈ List.range 4, (List.range 3).map (fun band =>
      figureOf 24 (List.replicate 240 ((List.replicate 12 40).getD (3 * strip + band) 0))) =
      [⟨0, 12⟩, ⟨0, 12⟩, ⟨0, 12⟩] := by
    intro strip hs
    rw [List.map_congr_left (fun band hb => by rw [h strip hs band hb, flat_channel])]
    rfl
  rw [List.map_congr_left f]
  rfl
theorem witness_ReferenceTestSteps_scored :
    strengthsExpected 5 (syntheticFigures ((itemScored 6).sfe.get .lane0) 5) = true ∧
    verdictExpected 24 5 (judge builtInTable 240 (syntheticFigures ((itemScored 6).sfe.get .lane0) 5)) = true := by
  rw [item5_figures]; decide +kernel
/-- Item 7 with FL pairs of other gains on strips FT and BT, whose strengths come out 26 and 74. -/
def skewed : Sfe :=
  { (testing 8 none).sfe.get .lane0 with pairs := ((List.replicate 12 ⟨0, 256⟩).set 1 ⟨0, 133⟩).set 7 ⟨0, 379⟩ }
theorem skewed_trace : (List.range 240).map (syntheticSample skewed 7) =
    List.replicate 20 [40, 20, 40, 40, 40, 40, 40, 59, 40, 40, 40, 40] ++
    List.replicate 24 [540, 46, 390, 40, 40, 40, 40, 59, 40, 40, 40, 40] ++
    List.replicate 146 [40, 20, 40, 40, 40, 40, 40, 59, 40, 40, 40, 40] ++
    List.replicate 24 [40, 20, 40, 40, 40, 40, 540, 133, 390, 40, 40, 40] ++
    List.replicate 26 [40, 20, 40, 40, 40, 40, 40, 59, 40, 40, 40, 40] := by decide +kernel
theorem skewed_figures : syntheticFigures skewed 7 =
    [[⟨500, 32⟩, ⟨26, 32⟩, ⟨350, 32⟩], [⟨0, 12⟩, ⟨0, 12⟩, ⟨0, 12⟩], [⟨500, 202⟩, ⟨74, 202⟩, ⟨350, 202⟩],
     [⟨0, 12⟩, ⟨0, 12⟩, ⟨0, 12⟩]] := by
  unfold syntheticFigures; rw [skewed_trace]; decide +kernel
/-- R168: the scores of item 7 are then 48 apart, above the margin of 32: FACED where AMBIGUOUS is expected. Without a long
calibration no item has its strengths. -/
theorem witness_ReferenceTestSteps_fails :
    strengthsExpected 7 (syntheticFigures skewed 7) = true ∧
    verdictExpected 24 7 (judge builtInTable 240 (syntheticFigures skewed 7)) = false ∧
    strengthsExpected 1 (syntheticFigures { (testing 2 none).sfe.get .lane0 with lastLong := none } 1) = false := by
  rw [skewed_figures]; decide +kernel
theorem witness_ReferenceTestSteps_last_step :
    gives (.syntheticItemScored .lane0) (itemScored 10) (fun t =>
      t.hmu.tests.get .lane0 == none && t.hmu.log.toList.head? == some (some ⟨.reference, some .lane0, .pass, 0, 0, 10⟩))
      = true := by decide +kernel

/-! ### Plans, gates, prints and heads -/

/-- A FACED verdict of presentation A with a style, to pocket N1. -/
def faced (style : Nat) : Verdict :=
  { kind := .faced, detail := none,
    faced := some { presentation := .a, classIndex := 1, label := 7, score := 150, markCentre := 32, generation := 1,
                    style := style, pocketPrimary := 1, pocketAlternate := 2 } }

/-- R72, 12.1: the window of the letter of 12.1 at N1's gate, at S = 819: on at 2,000,000 + 9,600 − 103 (8,000 µs). -/
theorem witness_PlansAndWindows :
    (plainVerdict .short).kind ≠ .faced ∧ (channel .lane0 .n1 running).windows = [] ∧
    (channel .lane0 .n1 running).lastClosed = none ∧
    ((appendWindow .lane0 .n1 { letter with length := some 240 }
      (updBelt .lane0 (fun b => { b with speed := 819 }) running)).map (fun r => (r.2.onPos, r.2.offPos))) =
        some (2009497, 2010600) ∧
    (pocketRec .lane0 .n1 running).state = .opened ∧
    (planVerdict .lane0 { letter with length := some 240 } (faced 0) running).2.pocket = .n1 ∧
    (pocketRec .lane0 .n1 (planVerdict .lane0 { letter with length := some 240 } (faced 0) running).1).reservations =
      [1] := by decide +kernel
/-- One state for each cause of R66 and R67: retired, cold, dry, a list of 16 prints, a retired gate. -/
theorem witness_PlansAndWindows_rejects :
    (planVerdict .lane0 letter (faced 3) (updHead .lane0 .near (fun d => { d with retired := true }) running)).2 =
      rejectPlan .headRetired ∧
    (planVerdict .lane0 letter (faced 3) running).2 = rejectPlan .headCold ∧
    (planVerdict .lane0 letter (faced 3) (updHead .lane0 .near (fun d => { d with wet := .dry }) running)).2 =
      rejectPlan .headDry ∧
    (planVerdict .lane0 letter (faced 3) (updHead .lane0 .near (fun d =>
      { d with wet := .ready, prints := List.replicate 16 (bars .posted) }) running)).2 = rejectPlan .printListFull ∧
    (planVerdict .lane0 letter { faced 0 with faced := (faced 0).faced.map (fun i => { i with presentation := .b }) }
      (updGsq .lane0 (fun q => { q with flipRetired := true }) running)).2 = rejectPlan .gateRetired := by
  decide +kernel

/-- Lane 0's flip gate at S = 819 with the list of 4.3 before B: the window of A in a state, and the letters behind it. -/
def flipList (st : WindowState) (older : List Window) (es : List Entry) : State :=
  updBelt .lane0 (fun b => { b with speed := 819 }) (updChannel .lane0 .flip (fun c =>
    { c with windows := older ++ [{ onPos := 1003846, offPos := 1004840, items := [1], state := st }] })
    (onBelt es running))
def letterAt (serial : Nat) (lead : Pos) (n : Nat) : Entry :=
  { letter with serial := serial, leadE := lead, trailE := some (posAdd lead (4 * n)), length := some n,
                plan := some (plan false .near .ne) }
def oldWindow : Window := { onPos := 0, offPos := 0, items := [], state := .queued }

/-- R73, R74, the worked lists of 4.3: B merges; D fails behind C and, 40 counts later, has a window of its own; B fails
against an ACTIVE window, with a letter between, at a window of eight items and (at S = 0) beyond maxHold, and D with
eight windows. -/
theorem witness_PlansAndWindows_lists :
    (appendWindow .lane0 .flip (letterAt 2 1000920 150) (flipList .queued [] [])).map (fun r =>
      (channel .lane0 .flip r.1).windows) =
      some [{ onPos := 1003846, offPos := 1005560, items := [1, 2], state := .queued }] ∧
    appendWindow .lane0 .flip (letterAt 4 1002480 200) (updChannel .lane0 .flip (fun c =>
      { c with windows := c.windows.map (fun w => { w with offPos := 1005560, items := [1, 2] }) })
      (flipList .queued [] [letterAt 3 1001640 180])) = none ∧
    (appendWindow .lane0 .flip (letterAt 4 1002520 200) (updChannel .lane0 .flip (fun c =>
      { c with windows := c.windows.map (fun w => { w with offPos := 1005560, items := [1, 2] }) })
      (flipList .queued [] [letterAt 3 1001640 180]))).map (fun r =>
      (channel .lane0 .flip r.1).windows.map (fun w => (w.onPos, w.offPos))) =
      some [(1003846, 1005560), (1006366, 1007360)] ∧
    appendWindow .lane0 .flip (letterAt 2 1000920 150) (flipList .active [] []) = none ∧
    appendWindow .lane0 .flip (letterAt 3 1000920 150) (flipList .queued [] [letterAt 2 1000000 150]) = none ∧
    appendWindow .lane0 .flip (letterAt 9 1000920 150) (updChannel .lane0 .flip (fun c =>
      { c with windows := c.windows.map (fun w => { w with items := [1, 2, 3, 4, 5, 6, 7, 8] }) })
      (flipList .queued [] [])) = none ∧
    appendWindow .lane0 .flip (letterAt 2 1000720 150) (updBelt .lane0 (fun b => { b with speed := 0 })
      (flipList .queued [] [])) = none ∧
    appendWindow .lane0 .flip (letterAt 4 1002520 200) (flipList .queued (List.replicate 7 oldWindow) []) = none := by
  decide +kernel
/-- R73: against the last closed record: too far off, too short a release, and release enough. -/
theorem witness_PlansAndWindows_closed :
    (appendWindow .lane0 .flip (letterAt 2 1000920 150) (updChannel .lane0 .flip (fun c =>
      { c with windows := [], lastClosed := some ⟨9000000, 1⟩ }) (flipList .queued [] []))).isSome = true ∧
    appendWindow .lane0 .flip (letterAt 2 1000920 150) (updChannel .lane0 .flip (fun c =>
      { c with windows := [], lastClosed := some ⟨1004840, 1⟩ }) (flipList .queued [] [])) = none ∧
    (appendWindow .lane0 .flip (letterAt 2 1000920 150) (updChannel .lane0 .flip (fun c =>
      { c with windows := [], lastClosed := some ⟨1004663, 1⟩ }) (flipList .queued [] []))).isSome = true := by
  decide +kernel
/-- R69, R70: GATE_BUSY at the flip gate, at the bank gate and at the pocket's gate, the alternate pocket, POCKET_FULL. -/
theorem witness_PlansAndWindows_routes :
    let busy := fun g => updChannel .lane0 g (fun c => { c with lastClosed := some ⟨2012000, 1⟩ }) running
    let full := fun p s => updPocket .lane0 p (fun r => { r with state := PocketState.full }) s
    let shown := fun p => { faced 0 with faced := (faced 0).faced.map (fun i => { i with presentation := p }) }
    (planVerdict .lane0 (letterAt 2 2000000 240) (shown .b) (busy .flip)).2 = rejectPlan .gateBusy ∧
    (planVerdict .lane0 (letterAt 2 2000000 240) (shown .c) (busy .bank)).2 = rejectPlan .gateBusy ∧
    (planVerdict .lane0 (letterAt 2 2000000 240) (faced 0) (busy .n1)).2 =
      { plan false .near .ne with cause := some .gateBusy } ∧
    (planVerdict .lane0 (letterAt 2 2000000 240) (faced 0) (full .n1 running)).2.pocket = .n2 ∧
    (planVerdict .lane0 (letterAt 2 2000000 240) (faced 0) (full .n2 (full .n1 running))).2 =
      { plan false .near .ne with cause := some .pocketFull } := by decide +kernel

/-- A BARS style 1 of 16 columns on both heads, and a READY head. -/
def styled (s : State) : State :=
  updPmc (fun p => { p with styles := [⟨.bars, ⟨⟨16, 8, [], []⟩, ⟨16, 8, [], []⟩⟩⟩] }) s
def readyHead (h : Side) : State := updHead .lane0 h (fun d => { d with wet := .ready }) (styled running)
/-- A letter of style 1 planned: presentation A at the near head, and B at the far head with flip and bank. -/
def plannedA : State × Plan := planVerdict .lane0 (letterAt 2 2000000 240) (faced 1) (readyHead .near)
def plannedB : State × Plan :=
  planVerdict .lane0 (letterAt 2 2000000 240)
    { faced 1 with faced := (faced 1).faced.map (fun i => { i with presentation := .b }) } (readyHead .far)

/-- R69, R93: startMm = 32 − 8, 16 columns, not clipped; three windows and a reservation. -/
theorem witness_PlansAndWindows_prints :
    facing .b = (true, .far) ∧ plannedA.2.print = some ⟨.near, 1, none⟩ ∧
    (head .lane0 .near plannedA.1).prints.map (fun p => (p.serial, p.state, p.startMm, p.columns, p.clipped)) =
      [(2, .posted, 24, 16, false)] ∧
    plannedB.2.print = some ⟨.far, 1, none⟩ ∧ plannedB.2.pocket = .f1 ∧
    plannedB.2.windows.map (fun w => w.gate) = [.flip, .bank, .f1] ∧
    (∀ g ∈ [Gate.flip, .bank, .f1], (channel .lane0 g plannedB.1).windows.map (fun w => (w.items, w.state)) =
      [([2], .queued)]) ∧ (pocketRec .lane0 .f1 plannedB.1).reservations = [2] := by decide +kernel

/-- Lane 0's flip gate with a window of the letter, an on position of 2,003,800 and an off position of 2,005,000. -/
def gated (st : WindowState) (history : List Ms) (s : State) : State :=
  updChannel .lane0 .flip (fun c =>
    { c with windows := [{ onPos := 2003800, offPos := 2005000, items := [1], state := st }], history := history })
    (onBelt [{ letter with plan := some { plan true .near .n1 with windows := [⟨.flip, 2003800, 2005000⟩] },
                           stage := .planned, delivered := true }] s)

/-- R76: with three fires in the last 200 ms the fourth fires; with four it is suppressed; with one of the four 200 ms
old it fires. -/
theorem witness_GateOnEventEffect :
    gives (.gateOnEvent .lane0 .flip) (atPos 2003800 (gated .armed [0, 0, 0] running)) (fun t =>
      (channel .lane0 .flip t).output && (channel .lane0 .flip t).history == [0, 0, 0, 0] &&
      (channel .lane0 .flip t).hold == some ⟨0, 400000⟩) = true ∧
    gives (.gateOnEvent .lane0 .flip) (atPos 2003800 { gated .armed [0, 1, 1, 1] running with clock := ⟨200, 0, true⟩ })
      (fun t => (channel .lane0 .flip t).output && (channel .lane0 .flip t).history == [1, 1, 1, 200]) = true ∧
    gives (.gateOnEvent .lane0 .flip) (atPos 2003800 { gated .armed [1, 1, 1, 1] running with clock := ⟨200, 0, true⟩ })
      (fun t => !(channel .lane0 .flip t).output && (channel .lane0 .flip t).windows == [] &&
        (t.track.get .lane0).queue.map (fun e => (e.reroute, holdsWindow e .flip)) == [(some .gateSuppressed, false)]) =
      true := by decide +kernel
theorem witness_GateWindowCloses :
    gives (.gateWindowClose .lane0 .flip) (atPos 2005000 (gated .active [0] running)) (fun t =>
      !(channel .lane0 .flip t).output && (channel .lane0 .flip t).windows == [] &&
      (channel .lane0 .flip t).lastClosed == some ⟨2005000, 1⟩) = true ∧
    gives (.gateHoldExpiry .lane0 .flip) (atPos 2004400 (updChannel .lane0 .flip (fun c =>
      { c with hold := some ⟨8000, 400000⟩, output := true }) (gated .active [0] running))) (fun t =>
      !(channel .lane0 .flip t).output && (channel .lane0 .flip t).lastClosed == some ⟨2004400, 1⟩) = true := by
  decide +kernel

def startsPrint : State := atPos 2007960 (withPrint (bars .released) (onBelt [onPath (plan false .near .ne)] (styled running)))

theorem witness_PrintStartEffect :
    gives (.printStart .lane0 .near) (updHead .lane0 .near (fun d => { d with spitRun := some 3 }) startsPrint) (fun t =>
      (head .lane0 .near t).prints == [] && (t.tally.get .lane0).getD 83 0 == 1 &&
      (t.track.get .lane0).queue.map (fun e => e.printResult) == [some (.uncancelled .spitBusy)]) = true ∧
    chooseImage .lane0 .near (bars .released) startsPrint =
      some ⟨.bars 1, .bars, some (.bars ⟨16, 8, [], []⟩)⟩ ∧
    gives (.printStart .lane0 .near) startsPrint (fun t => (t.tally.get .lane0).getD 84 0 == 1 &&
      (t.track.get .lane0).queue.map (fun e => e.printResult) == [some (.uncancelled .rasterLate)]) = true ∧
    gives (.printStart .lane0 .near) (updHead .lane0 .near (fun d =>
      setSlot 1 ⟨some (.bars 1), true, none, false⟩ d) startsPrint) (fun t =>
      (head .lane0 .near t).prints.map (fun p => (p.state, p.image)) == [(.printing, some (1, .bars))]) = true := by
  decide +kernel
/-- R96: 16 columns from 2,007,960 end at 2,008,024; R100: the first is expected at 2,008,120. -/
theorem witness_PrintEndEffect :
    gives (.printEnd .lane0 .near) (atPos 2008024 (withPrint { bars .printing with image := some (1, .bars) }
      (onBelt [onPath (plan false .near .ne)] running))) (fun t =>
      (head .lane0 .near t).prints == [] && (head .lane0 .near t).verify == [2008120] &&
      (t.tally.get .lane0).getD 78 0 == 1 &&
      (t.track.get .lane0).queue.map (fun e => e.printResult) == [some (.printed 5 false .bars)]) = true := by
  decide +kernel
theorem witness_RasterLoads :
    missingImage .lane0 .near startsPrint = some ⟨.bars 1, .bars, some (.bars ⟨16, 8, [], []⟩)⟩ ∧
    loadSlot .lane0 .near startsPrint = some 0 ∧
    gives (.rasterLoadStart .lane0 .near) startsPrint (fun t =>
      (head .lane0 .near t).load == some ⟨0, 0, false⟩ &&
      (slotOf (head .lane0 .near t) 0).key == some (.bars 1)) = true ∧
    gives (.rasterLoadComplete .lane0 .near) (updHead .lane0 .near (fun d => { d with load := some ⟨1, 30, false⟩ })
      startsPrint) (fun t => (slotOf (head .lane0 .near t) 1).ready && (head .lane0 .near t).load == none) = true ∧
    gives (.rasterLoadComplete .lane0 .near) (updHead .lane0 .near (fun d => { d with load := some ⟨1, 30, true⟩ })
      startsPrint) (fun t => slotOf (head .lane0 .near t) 1 == Slot.emptied) = true := by decide +kernel

def verifying (kept : Nat) (sum : Int) : State :=
  updHead .lane0 .near (fun d => { d with verify := [2008120], kept := kept, sum := sum, trim := 2 }) running

/-- R100, R101: a difference of 64 is kept, one of 65 is a miss; the sixteenth sample moves the trim by −(63 + 64)/32 = −3
toward zero. -/
theorem witness_VerifyEyes :
    gives (.verifyEdge .lane0 .near 4) (sampled 2008056 0 (verifying 3 0)) (fun t =>
      (head .lane0 .near t).kept == 4 && (head .lane0 .near t).sum == -64) = true ∧
    gives (.verifyEdge .lane0 .near 4) (sampled 2008184 0 (verifying 15 63)) (fun t =>
      (head .lane0 .near t).kept == 0 && (head .lane0 .near t).trim == -1) = true ∧
    gives (.verifyEdge .lane0 .near 4) (sampled 2008185 0 (verifying 3 0)) (fun t =>
      (head .lane0 .near t).verify == [2008120] && (t.tally.get .lane0).getD 104 0 == 1) = true ∧
    gives (.verifyEntryExpiry .lane0 .near) (atPos 2008185 (verifying 3 0)) (fun t =>
      (head .lane0 .near t).verify == [] && (t.tally.get .lane0).getD 104 0 == 1) = true := by decide +kernel

def wetHead (age ticks : Nat) : State :=
  updHead .lane0 .far (fun d => { d with wet := .ready, pendingSpit := true, age := age, spitTicks := ticks }) running

/-- R104, R105: age 4 asks for a gap, age 8 dries the head. R92: 40 °C leaves fast mode, 41 °C sets it, 37 °C clears it. -/
theorem witness_SpitTimerAndTemperature :
    gives (.spitTimerExpiry .lane0 .far) (wetHead 3 200000) (fun t => (head .lane0 .far t).age == 4 &&
      (head .lane0 .far t).gapRequest == some 0 && holdSet .lane0 .gapSpit t && (head .lane0 .far t).wet == .ready) =
      true ∧
    gives (.spitTimerExpiry .lane0 .far) (wetHead 7 200000) (fun t => (head .lane0 .far t).wet == .dry) = true ∧
    gives (.headTempReading .lane0 .far 41) (updHead .lane0 .far (fun d => { d with tempTicks := 20000 }) running)
      (fun t => (head .lane0 .far t).fast) = true ∧
    gives (.headTempReading .lane0 .far 40)
      (updHead .lane0 .far (fun d => { d with tempTicks := 20000, fast := true }) running)
      (fun t => (head .lane0 .far t).fast) = true ∧
    gives (.headTempReading .lane0 .far 37)
      (updHead .lane0 .far (fun d => { d with tempTicks := 20000, fast := true }) running)
      (fun t => !(head .lane0 .far t).fast) = true := by decide +kernel
/-- R103: at S = 819 a print 52 counts ahead leaves the time for a spit, one 51 ahead does not. -/
theorem witness_SpitsRun :
    gives (.spitGapTimeout .lane0 .far) (updHead .lane0 .far (fun d => { d with gapRequest := some 5000 })
      (setHold .lane0 .gapSpit true running)) (fun t => (head .lane0 .far t).gapRequest == none &&
      !holdSet .lane0 .gapSpit t) = true ∧
    gives (.spitStart .lane0 .near) (updBelt .lane0 (fun b => { b with speed := 819, counter := 2007908 })
      (updHead .lane0 .near (fun d => { d with pendingSpit := true }) (withPrint (bars .released) running)))
      (fun t => (head .lane0 .near t).spitRun == some 0) = true ∧
    gives (.spitStart .lane0 .near) (updBelt .lane0 (fun b => { b with speed := 819, counter := 2007909 })
      (updHead .lane0 .near (fun d => { d with pendingSpit := true }) (withPrint (bars .released) running)))
      (fun t => (head .lane0 .near t).spitRun == none) = true ∧
    gives (.spitComplete .lane0 .near) (updHead .lane0 .near (fun d =>
      { d with wet := .dry, spitRun := some 60, pendingSpit := true, age := 9 }) running) (fun t =>
      (head .lane0 .near t).wet == .ready && (head .lane0 .near t).age == 0 &&
      (head .lane0 .near t).spitRun == none) = true := by decide +kernel

/-! ### Pockets and lane operation -/

def pocketIn (st : PocketState) (reserved : List Nat) : State :=
  updPocket .lane0 .n2 (fun r => { r with state := st, reservations := reserved, fill := 100 }) running

/-- A whole millisecond has passed since the device reset. -/
def started (s : State) : State := { s with clock := { s.clock with started := true } }

theorem witness_TraysAndSwapButtons :
    gives (.swapRequest .lane0 .n2 true 20) (started (pocketIn .full [3])) (fun t =>
      (pocketRec .lane0 .n2 t).state == .draining && (pocketRec .lane0 .n2 t).button) = true ∧
    gives (.swapRequest .lane0 .n2 true 20) (started (pocketIn .disabled [])) (fun t =>
      (pocketRec .lane0 .n2 t).state == .readyToSwap && (pocketRec .lane0 .n2 t).staysDisabled) = true ∧
    gives (.swapRequest .lane0 .n2 false 20) (started (updPocket .lane0 .n2 (fun r => { r with button := true })
      (pocketIn .full [3]))) (fun t => pocketRec .lane0 .n2 t == pocketRec .lane0 .n2 (pocketIn .full [3])) = true ∧
    gives (.swapRequest .lane0 .n2 true 1) (pocketIn .full [3]) (fun t => (pocketRec .lane0 .n2 t).state == .full &&
      (pocketRec .lane0 .n2 t).button) = true ∧
    gives (.trayOut .lane0 .n2 20) (pocketIn .readyToSwap []) (fun t =>
      (pocketRec .lane0 .n2 t).state == .out && !(pocketRec .lane0 .n2 t).tray &&
      t.jrn.holding.map (fun e => (e.code, e.subject, e.arg1)) == [(.trayOut, 1, 3)]) = true ∧
    gives (.trayIn .lane0 .n2 20) (updPocket .lane0 .n2 (fun r => { r with tray := false, staysDisabled := true })
      (pocketIn .out [])) (fun t => (pocketRec .lane0 .n2 t).state == .disabled &&
      (pocketRec .lane0 .n2 t).fill == 0) = true := by decide +kernel

/-- Lane 0's pocket N2 with the letter reserved, its window at N2's gate in a state and serving some items. -/
def reservedIn (st : WindowState) (items : List Nat) : State :=
  updChannel .lane0 .n2 (fun c => { c with windows := [{ onPos := 2010697, offPos := 2011800, items := items, state := st }] })
    (onBelt [{ letter with plan := some { plan false .near .n2 with windows := [⟨.n2, 2010697, 2011800⟩] } }]
      (pocketIn .draining [1]))

/-- R116: a tray-out with a reservation standing, its window QUEUED, ARMED alone, ACTIVE and merged. -/
theorem witness_TraysAndSwapButtons_reserved :
    gives (.trayOut .lane0 .n2 20) (reservedIn .queued [1]) (fun t => (pocketRec .lane0 .n2 t).reservations == [] &&
      (channel .lane0 .n2 t).windows == [] && !pocketLamp .lane0 .n2 t &&
      t.jrn.holding.map (fun e => (e.code, e.serial, e.arg1)) == [(.trayOut, 0, 2), (.trayOut, 1, 6)]) = true ∧
    gives (.trayOut .lane0 .n2 20) (reservedIn .armed [1]) (fun t => (pocketRec .lane0 .n2 t).reservations == [] &&
      (pocketRec .lane0 .n2 t).state == .out) = true ∧
    gives (.trayOut .lane0 .n2 20) (reservedIn .active [1]) (fun t => (pocketRec .lane0 .n2 t).reservations == [1] &&
      (channel .lane0 .n2 t).windows.length == 1) = true ∧
    gives (.trayOut .lane0 .n2 20) (reservedIn .queued [1, 2]) (fun t =>
      (pocketRec .lane0 .n2 t).reservations == [1]) = true := by decide +kernel

def pocketOrder (a : PocketAction) (cap : Nat) (s : State) : State := taken (.pocketControl 0 1 a cap) s

theorem witness_PocketControlOrders :
    pocketOfIndex 1 = some .n2 ∧ allowed .orderStateWrite 4108 8 (pocketOrder .disable 0 running) = true ∧
    gives .pocketControlDisable (pocketOrder .disable 0 (pocketIn .opened [])) (fun t =>
      (pocketRec .lane0 .n2 t).state == .disabled && t.ocu.current == none && t.ocu.phase == .link) = true ∧
    gives .pocketControlEnable (pocketOrder .enable 0 (pocketIn .disabled [])) (fun t =>
      (pocketRec .lane0 .n2 t).state == .opened) = true ∧
    gives .pocketControlSwap (pocketOrder .swap 0 (pocketIn .opened [])) (fun t =>
      (pocketRec .lane0 .n2 t).state == .readyToSwap) = true ∧
    gives .pocketControlSetCapacity (pocketOrder .setCapacity 101 (pocketIn .full [3])) (fun t =>
      (pocketRec .lane0 .n2 t).capacity == 101 && (pocketRec .lane0 .n2 t).state == .full) = true ∧
    gives .pocketControlSetCapacity (pocketOrder .setCapacity 100 (pocketIn .full [3])) (fun t =>
      (pocketRec .lane0 .n2 t).capacity == 1000 && t.ocu.current == none) = true ∧
    gives .pocketControlSetCapacity (pocketOrder .setCapacity 5000 (pocketIn .full [3])) (fun t =>
      (pocketRec .lane0 .n2 t).capacity == 5000 && (pocketRec .lane0 .n2 t).state == .opened) = true := by decide +kernel

theorem witness_LampsIdleAndFeedRequest :
    gives (.lampWarmComplete .lane0) (updLsq .lane0 (fun q => { q with lampWarm := some 40000 }) (inMode .warming State.reset))
      (fun t => (t.lsq.get .lane0).warmStep == some .calibration && (t.sfe.get .lane0).longRequest == some .warming) =
      true ∧
    gives (.lampRiseComplete .lane0) (updLsq .lane0 (fun q => { q with lamp := .dim, rise := some ⟨1000, true⟩ }) running)
      (fun t => (t.lsq.get .lane0).lamp == .on && (t.sfe.get .lane0).wakeMark) = true ∧
    gives (.lampRiseComplete .lane0) (updLsq .lane0 (fun q => { q with lamp := .dim, rise := some ⟨1000, false⟩ })
      (inMode .warming State.reset)) (fun t => (t.lsq.get .lane0).lamp == .on && !(t.sfe.get .lane0).due) = true ∧
    gives (.idleTimerExpiry .lane0) (updLsq .lane0 (fun q => { q with idle := 600000 }) running) (fun t =>
      (t.lsq.get .lane0).lamp == .dim && holdSet .lane0 .wake t && (t.lsq.get .lane0).idle == 0) = true ∧
    gives (.feedReqChange .lane0 true 5) (updLsq .lane0 (fun q => { q with lamp := .dim }) running) (fun t =>
      (t.lsq.get .lane0).rise == some ⟨0, true⟩ && (t.lsq.get .lane0).feedReq) = true ∧
    gives (.feedReqChange .lane0 false 5) (updLsq .lane0 (fun q => { q with feedReq := true }) running) (fun t =>
      !(t.lsq.get .lane0).feedReq) = true := by decide +kernel

def laneOrder (a : LaneAction) (s : State) : State := taken (.laneControl 0 a) s
def withTable (s : State) : State := updMsc (fun m => { m with current := some builtInTable }) s

theorem witness_LaneControlRun :
    gives .laneControlRun (laneOrder .run State.reset) (fun t => laneMode .lane0 t == .off && t.ocu.current == none) =
      true ∧
    gives .laneControlRun (laneOrder .run (withTable (updLsq .lane0 (fun q => { q with retired := true }) State.reset)))
      (fun t => laneMode .lane0 t == .off && t.ocu.longList == []) = true ∧
    gives .laneControlRun (laneOrder .run (withTable State.reset)) (fun t => laneMode .lane0 t == .warming &&
      (t.lsq.get .lane0).lamp == .on && t.ocu.longList == [⟨.laneOrder .lane0, 4096, 1, true⟩]) = true ∧
    gives .laneControlRun (laneOrder .run (withTable (inMode .ready State.reset))) (fun t =>
      laneMode .lane0 t == .running && t.ocu.longList == [] && feedPermit .lane0 t) = true ∧
    gives .laneControlRun (laneOrder .run (withTable running)) (fun t => laneMode .lane0 t == .running) = true ∧
    gives .laneControlRun (laneOrder .run (withTable (inMode .testing State.reset))) (fun t =>
      laneMode .lane0 t == .testing && t.ocu.current == none) = true := by decide +kernel
/-- A lane in a state with warmed clear and its lamps in a state. -/
def unwarmed (m : LaneMode) (lamp : LampPower) : State :=
  withTable (updLsq .lane0 (fun q => { q with warmed := false, lamp := lamp }) (inMode m State.reset))
theorem witness_LaneControlRun_unwarmed :
    gives .laneControlRun (laneOrder .run (unwarmed .ready .on)) (fun t => laneMode .lane0 t == .warming &&
      (t.sfe.get .lane0).longRequest == some .warming && t.ocu.longList == [⟨.laneOrder .lane0, 4096, 1, true⟩]) = true ∧
    gives .laneControlRun (laneOrder .run (unwarmed .standby .dim)) (fun t => laneMode .lane0 t == .warming &&
      (t.lsq.get .lane0).rise.isSome && (t.lsq.get .lane0).pendingOrder == some .run) = true ∧
    gives .laneControlRun (laneOrder .run (unwarmed .ready .dark)) (fun t => laneMode .lane0 t == .warming &&
      (t.lsq.get .lane0).lamp == .on && (t.lsq.get .lane0).lampWarm == some 0) = true := by decide +kernel
theorem witness_LaneControlDrain :
    gives .laneControlDrain (laneOrder .drain (onBelt [letter] running)) (fun t => laneMode .lane0 t == .draining &&
      t.ocu.longList == [⟨.laneOrder .lane0, 4096, 1, true⟩]) = true ∧
    gives .laneControlDrain (laneOrder .drain running) (fun t => laneMode .lane0 t == .ready &&
      t.ocu.longList == [] && t.ocu.current == none) = true ∧
    gives .laneControlDrain (laneOrder .drain State.reset) (fun t => laneMode .lane0 t == .off &&
      t.ocu.current == none) = true ∧
    gives .laneControlDrain (laneOrder .drain (inMode .draining State.reset)) (fun t =>
      (t.lsq.get .lane0).pendingOrder == some .drain) = true ∧
    gives .laneControlDrain (laneOrder .drain (inMode .stopped State.reset)) (fun t =>
      laneMode .lane0 t == .stopped && t.ocu.current == none) = true ∧
    gives .laneControlDrain (laneOrder .drain (updLsq .lane0 (fun q => { q with pendingOrder := some .drain })
      (inMode .draining State.reset))) (fun t => laneMode .lane0 t == .draining &&
      (t.lsq.get .lane0).pendingOrder == some .drain && readBytes 4108 2 t == [4, 7]) = true := by decide +kernel
theorem witness_LaneControlRestAndHolds :
    gives .laneControlStandby (laneOrder .standby (inMode .ready State.reset)) (fun t =>
      laneMode .lane0 t == .standby && (t.lsq.get .lane0).lamp == .dim) = true ∧
    gives .laneControlStandby (laneOrder .standby (inMode .standby State.reset)) (fun t =>
      laneMode .lane0 t == .standby && t.ocu.current == none) = true ∧
    gives .laneControlStandby (laneOrder .standby (onBelt [letter] (inMode .ready State.reset))) (fun t =>
      laneMode .lane0 t == .ready && t.ocu.current == none) = true ∧
    gives .laneControlOff (laneOrder .off (inMode .standby State.reset)) (fun t =>
      laneMode .lane0 t == .off && (t.lsq.get .lane0).lamp == .dark && !(t.lsq.get .lane0).warmed) = true ∧
    gives .laneControlOff (laneOrder .off running) (fun t => laneMode .lane0 t == .running &&
      t.ocu.current == none) = true ∧
    gives .laneControlHold (laneOrder .hold running) (fun t => holdSet .lane0 .host t && !feedPermit .lane0 t) = true ∧
    gives .laneControlRelease (laneOrder .release (setHold .lane0 .host true running)) (fun t =>
      feedPermit .lane0 t) = true := by decide +kernel
theorem witness_LaneControlClearAndAbort :
    gives .laneControlClear (laneOrder .clear (onBelt [letter] (inMode .stopped State.reset))) (fun t =>
      laneMode .lane0 t == .ready && (t.track.get .lane0).queue == [] && (t.track.get .lane0).lastSerial == 40 &&
      (t.tally.get .lane0).getD 96 0 == 1) = true ∧
    gives .laneControlClear (laneOrder .clear running) (fun t => laneMode .lane0 t == .running &&
      t.ocu.current == none) = true ∧
    gives .laneControlAbort (laneOrder .abort (onBelt [letter] (withPrint (bars .printing) running))) (fun t =>
      laneMode .lane0 t == .off && (t.track.get .lane0).queue == [] && (t.lsq.get .lane0).lamp == .dark &&
      (head .lane0 .near t).prints == [] && (head .lane0 .near t).wet == .cold) = true := by decide +kernel
/-- R120, R137: reservations at CLEAR and ABORT; a running test and a pending RUN at ABORT. -/
theorem witness_LaneControlClearAndAbort_endings :
    let long := fun k => updOcu (fun o => { o with longList := [⟨k, 1024, 15, true⟩] })
    gives .laneControlClear (laneOrder .clear (inMode .stopped (reservedIn .queued [1]))) (fun t =>
      (pocketRec .lane0 .n2 t).reservations == [] && (pocketRec .lane0 .n2 t).state == .readyToSwap) = true ∧
    gives .laneControlAbort (laneOrder .abort (reservedIn .active [1])) (fun t =>
      (pocketRec .lane0 .n2 t).reservations == [] && (pocketRec .lane0 .n2 t).fill == 100) = true ∧
    gives .laneControlAbort (laneOrder .abort (long (.laneTest .lane0) (testing 3 none))) (fun t =>
      t.hmu.tests.get .lane0 == none && t.ocu.longList == [] && t.ocu.completed == 2 &&
      readBytes 1036 2 t == [4, 11]) = true ∧
    gives .laneControlAbort (laneOrder .abort (long (.laneOrder .lane0) (updLsq .lane0 (fun q =>
      { q with pendingOrder := some .run }) (inMode .warming State.reset)))) (fun t =>
      (t.lsq.get .lane0).pendingOrder == none && t.ocu.longList == [] && t.ocu.completed == 2 &&
      readBytes 1036 2 t == [4, 11]) = true := by decide +kernel

/-! ### Clock, journal, status, chain and shared orders -/

def clocked (y m d sec period : Nat) (s : State) : State :=
  updPmc (fun p => { p with year := y, month := m, day := d, seconds := sec, period := period, clockSet := true,
                            clockTicks := 20000 }) s

/-- R86: 28 February of a leap year, the end of a year and of 2099; a period boundary rolls. -/
theorem witness_ClockAndGenerations :
    gives .clockSecond (clocked 2000 2 28 86399 60 State.reset) (fun t =>
      (t.pmc.year, t.pmc.month, t.pmc.day, t.pmc.seconds) == (2000, 2, 29, 0) && t.pmc.lastGen == 1) = true ∧
    gives .clockSecond (clocked 2001 4 30 86399 60 State.reset) (fun t =>
      (t.pmc.year, t.pmc.month, t.pmc.day) == (2001, 5, 1)) = true ∧
    gives .clockSecond (clocked 2098 12 31 86399 60 State.reset) (fun t =>
      (t.pmc.year, t.pmc.month, t.pmc.day) == (2099, 1, 1)) = true ∧
    gives .clockSecond (clocked 2099 12 31 86399 60 State.reset) (fun t =>
      (t.pmc.year, t.pmc.month, t.pmc.day) == (2000, 1, 1)) = true ∧
    gives .clockSecond (clocked 2024 5 5 3598 60 State.reset) (fun t => t.pmc.seconds == 3599 &&
      t.pmc.lastGen == 0 && t.pmc.current == none) = true ∧
    gives .clockSecond (clocked 2024 5 5 3599 60 (updPmc (fun p => { p with lastGen := 65535 }) State.reset)) (fun t =>
      t.pmc.seconds == 3600 && t.pmc.lastGen == 1 &&
      t.pmc.current.map (fun g => (g.number, g.periodStart)) == some (1, 3600)) = true := by decide +kernel
/-- With a FULL style the roll composes, and the composition makes it current. -/
theorem witness_ClockAndGenerations_composed :
    gives .clockSecond (clocked 2024 5 5 3599 60 (updPmc (fun p => { p with styles := [⟨.full, ⟨⟨16, 8, [], []⟩, ⟨16, 8, [], []⟩⟩⟩] })
      State.reset)) (fun t => t.pmc.current == none &&
      t.pmc.composing.map (fun c => (c.generation.number, c.ticks, c.need)) == some (1, 0, 40)) = true ∧
    gives .compositionComplete (updHead .lane0 .near (fun d => setSlot 0 ⟨some (.full 1 4), true, none, false⟩ d)
      (updPmc (fun p => { p with
        current := some ⟨5, false, [], 2024, 5, 5, 0, .period, []⟩,
        previous := some ⟨4, false, [], 2024, 5, 4, 0, .period, []⟩,
        composing := some ⟨⟨6, false, [], 2024, 5, 5, 3600, .period, []⟩, 40, 40⟩ }) State.reset)) (fun t =>
      t.pmc.current.map (fun g => g.number) == some 6 && t.pmc.previous.map (fun g => g.number) == some 5 &&
      (slotOf (head .lane0 .near t) 0).key == none &&
      t.jrn.holding.map (fun e => (e.code, e.arg1)) == [(.genRoll, 6), (.genDropped, 4)]) = true := by decide +kernel

/-- A sealed image at address 8,192. -/
def imageAt (off : Nat) (bs : List Byte) (s : State) : State :=
  { windowed s with mem := (((sealRecord off bs).zipIdx 8192).map (fun q => (q.2, q.1))).filter (fun c => c.2 != 0) }

/-- A style set whose first style is undefined (0) or BARS (1), with two images of 16 columns. -/
def styleImage (kind len : Nat) : List Byte :=
  List.replicate 6 0x41 ++ [0, 0] ++ [10, 1, 0, 0, 10, 2, 0, 0, 60, 0, 0, 0, 2, 1, 0, 0] ++ le 4 len ++ le 4 0 ++
  [BitVec.ofNat 8 kind, 0, 16, 15, 16, 0, 0, 0] ++ le 4 144 ++ le 4 144 ++ List.replicate 96 0 ++
  List.replicate (len - 144) 7

theorem witness_ClockAndStyleOrders :
    gives .setClock (taken (.setClock 2024 2 29 86399 60) State.reset) (fun t =>
      (t.pmc.year, t.pmc.month, t.pmc.day, t.pmc.seconds, t.pmc.period) == (2024, 2, 29, 86399, 60) &&
      t.pmc.clockSet && t.pmc.lastGen == 1) = true ∧
    gives .setClock (taken (.setClock 2023 2 29 0 60) State.reset) (fun t => !t.pmc.clockSet &&
      t.ocu.current == none) = true ∧
    checksumOk (sealRecord 6 (styleImage 1 400)) = true ∧
    firstBad (styleSetFields (sealRecord 6 (styleImage 1 400)) 400) = none ∧
    firstBad (styleSetFields (sealRecord 6 (styleImage 1 399)) 399) = some 15 ∧
    spitConflict (sealRecord 6 (styleImage 0 144)) = none := by decide +kernel
theorem witness_ClockAndStyleOrders_styles :
    gives .loadStyles (taken (.loadStyles 8192) (imageAt 6 (styleImage 0 144) State.reset)) (fun t =>
      t.pmc.styles.length == 7 && t.pmc.lastGen == 1 &&
      t.pmc.current.map (fun g => g.unset) == some true &&
      spitSetting .lane1 .far t == ⟨2, true, false⟩) = true ∧
    gives .loadStyles (taken (.loadStyles 8192) (writeBytes 8200 [11] (imageAt 6 (styleImage 0 144) State.reset))) (fun t =>
      t.pmc == State.reset.pmc && t.ocu.current == none) = true := by decide +kernel

def someEvent : EventRec := { code := .jam, lane := none, subject := 0, time := 0, serial := 0, arg1 := 0, arg2 := 0 }
def paged (room : Nat) (rs : List Rec) (s : State) : State :=
  updJrn (fun j => { j with page := some { addr := 12288, seq := 9, recs := rs, room := room } }) s
def closed (s : State) : State :=
  updJrn (fun j => { j with closing := [⟨{ addr := 12288, seq := 9, recs := [.event someEvent], room := 4040 }, .flush⟩],
                            held := 1 }) s

theorem witness_RecordsAndPages :
    recLength (.event someEvent) ≤ 24 ∧
    (placeRecord (.event someEvent) (paged 24 [] State.reset)).jrn.page.map (fun p => (p.recs.length, p.room)) =
      some (1, 0) ∧
    (placeRecord (.event someEvent) (updJrn (fun j => { j with holding := List.replicate 16 someEvent })
      State.reset)).jrn.dropped = 1 ∧
    gives .pageWriteOut (closed (windowed State.reset)) (fun t => t.jrn.filled == 1 && t.jrn.held == 0 &&
      readBytes 12288 8 t == [9, 0, 0, 0, 1, 0, 2, 0xF1] && readBytes 12320 1 t == [3]) = true ∧
    gives .pageWriteOut (closed State.reset) (fun t => t.jrn.filled == 1 && t.mem == [] &&
      t.jrn.holding.map (fun e => (e.code, e.subject, e.arg1)) == [(.windowFault, 3, 12288)]) = true := by decide +kernel

def someItem : Rec := .item .lane0 5 letter
/-- R148: a record that does not fit, with a page to take (the held event goes first) and with none. -/
theorem witness_RecordsAndPages_full :
    (placeRecord someItem (updJrn (fun j => { j with fifo := [65536, 69632], holding := [someEvent] })
      (paged 47 [] State.reset))).jrn.page.map (fun p => (p.addr, p.recs, p.room)) =
      some (65536, [.event someEvent, someItem], 3992) ∧
    (let j := (placeRecord (.event someEvent) (paged 23 [] State.reset)).jrn
     (j.page, j.holding, j.closing.map (fun c => (c.page.addr, c.reason)))) = (none, [someEvent], [(12288, .full)]) ∧
    (let j := (placeRecord someItem (paged 47 [] State.reset)).jrn
     (j.page, j.unjournalled, j.closing.length)) = (none, 1, 1) := by decide +kernel
/-- R150: a faulted page with an item of lane 0 and an event. -/
theorem witness_RecordsAndPages_faulted :
    let page : Page := { addr := 12288, seq := 9, recs := [.event someEvent, someItem], room := 3992 }
    gives .pageWriteOut (updJrn (fun j => { j with closing := [⟨page, .flush⟩], held := 1 }) State.reset) (fun t =>
      t.jrn.unjournalled == 1 && t.jrn.dropped == 1 && (t.tally.get .lane0).getD 105 0 == 1 &&
      (t.tally.get .lane1).getD 105 0 == 0) = true := by decide +kernel

def pageListAt (n : Nat) (s : State) : State :=
  writeBytes 8192 ((List.range n).flatMap (fun i => le 8 (4096 * (i + 16)))) (windowed s)

theorem witness_PageOrders :
    gives .givePages (taken (.givePages 8192 1) (pageListAt 1 State.reset)) (fun t =>
      t.jrn.page.map (fun p => (p.addr, p.seq)) == some (65536, 1) && t.jrn.given == 1 && t.jrn.held == 1) = true ∧
    gives .givePages (taken (.givePages 8192 2) (pageListAt 2 (updJrn (fun j => { j with fifo := List.replicate 63 0 })
      (paged 100 [] State.reset)))) (fun t => t.jrn.fifo.length == 63 && t.ocu.current == none) = true ∧
    gives .givePages (taken (.givePages 8192 1) (pageListAt 1 (updJrn (fun j => { j with fifo := List.replicate 63 0 })
      (paged 100 [] State.reset)))) (fun t => t.jrn.fifo.length == 64) = true ∧
    gives .flushJournal (taken .flushJournal State.reset) (fun t => t.ocu.current == none) = true ∧
    gives .flushJournal (taken .flushJournal (paged 100 [.event someEvent] State.reset)) (fun t =>
      t.ocu.flushing == some 9 && t.jrn.closing.length == 1) = true := by decide +kernel
/-- R150, R151: the flushed page goes out, is faulted, and another page goes out. A faulted page's event goes to the page
taken in that event (R156): here the oldest held event is not lost. -/
theorem witness_PageOrders_flushed :
    let flushing := fun n s => updOcu (fun o => { o with flushing := some n }) (taken .flushJournal (closed s))
    gives .pageWriteOut (flushing 9 (windowed State.reset)) (fun t => t.ocu.current == none && t.ocu.completed == 1 &&
      readBytes 4108 1 t == [3] && t.jrn.filled == 1) = true ∧
    gives .pageWriteOut (flushing 9 State.reset) (fun t => t.ocu.current == none &&
      t.jrn.holding.map (fun e => (e.code, e.subject, e.arg1)) == [(.windowFault, 3, 12288)]) = true ∧
    gives .pageWriteOut (flushing 8 State.reset) (fun t => t.ocu.current.isSome) = true ∧
    gives .pageWriteOut (closed (updJrn (fun j => { j with
      fifo := List.replicate 64 0, holding := List.replicate 16 someEvent }) State.reset)) (fun t =>
      t.jrn.page.map (fun p => p.recs.length) == some 17 && t.jrn.dropped == 1) = true := by decide +kernel

def statusDue (s : State) : State :=
  updStat (fun t => { t with addr := some 16384, due := true, sinceWrite := some 20, waiting := 1 }) s

theorem witness_StatusWriteEffect :
    (statusDue (windowed State.reset)).raised = 0 ∧
    gives .statusWrite (statusDue (windowed State.reset)) (fun t => readBytes 16384 4 t == [1, 0, 0, 0] &&
      readBytes 16540 4 t == [1, 0, 0, 0] && t.pif.attn == 1 && !t.stat.due) = true ∧
    gives .statusWrite (statusDue State.reset) (fun t => t.stat.suspended && t.mem == [] &&
      t.pif.attn == 0b0010000001#10) = true := by decide +kernel

theorem witness_RegisterReadsAndWrites :
    gives (.chainLoWrite 0x40) (updOcu (fun o => { o with position := 0x500000080 }) State.reset) (fun t =>
      t.ocu.position == 0x500000040) = true ∧
    gives (.chainHiWrite 7) { State.reset with pif := { Pif.reset with runChain := true } } (fun t =>
      t.ocu.position == 0) = true ∧
    gives (.chainLoRead ⟨3, 1⟩) (updOcu (fun o => { o with position := 0x7A00000080 }) State.reset) (fun t =>
      t.pif.readData == 0 && t.pif.latch == some 0x7A) = true ∧
    ByteSel.ok ⟨3, 1⟩ = true ∧ ByteSel.ok ⟨0, 4⟩ = true ∧ ignoredWrite 4095 1 = true ∧ ignoredWrite 0 4 = true ∧
    gives .irqDisable { State.reset with pif := { Pif.reset with irqEnable := true } } (fun t => !t.pif.irqEnable) =
      true ∧
    registerRead 0x10 ⟨1, 2⟩ { State.reset with pif := { Pif.reset with attn := 0x2A5 } } = 2 ∧
    registerRead 0x14 ⟨0, 4⟩ State.reset = 0 ∧ 0x14 ∉ [0x0, 0x4, 0x8, 0xC, 0x10] := by decide +kernel

/-- A chain started at 4,096, where a block with a state and a kind stands; its link is `link`. -/
def chained (link kind st : Nat) (ph : Phase) (waits run : Bool) : State :=
  updOcu (fun o => { o with position := 4096, phase := ph, waiting := waits, pollTicks := 100 })
    { writeBytes 4096 (le 8 link ++ [BitVec.ofNat 8 kind, 1, 0, 0, BitVec.ofNat 8 st]) State.reset with
      pif := { Pif.reset with runChain := run } }

theorem witness_ChainRunsAndReads :
    gives .runChainStart State.reset (fun t => t.ocu.chain == .faulted && t.ocu.faultCause == .badAddress) = true ∧
    gives .runChainStart (chained 0 3 0 .take false false) (fun t => t.pif.runChain && t.ocu.waiting) = true ∧
    gives .runChainStop (chained 0 3 0 .take true true) (fun t => t.ocu.chain == .stopped && !t.pif.runChain) = true ∧
    gives .chainLinkRead (chained 0 3 3 .link false true) (fun t => t.ocu.waiting) = true ∧
    gives .chainLinkRead (chained 65 3 3 .link false true) (fun t => t.ocu.faultCause == .badAddress) = true ∧
    gives .look (chained 64 3 3 .link true true) (fun t => t.ocu.position == 64 && t.ocu.waiting) = true ∧
    gives .pollTimerExpiry (chained 0 3 1 .take true true) (fun t =>
      t.ocu.current.map (fun b => b.body) == some .identify) = true ∧
    gives .look (chained 0 3 2 .take true true) (fun t => t.ocu.faultCause == .staleLink) = true ∧
    gives .look (chained 0 3 5 .take true true) (fun t => t.ocu.faultCause == .badState && !t.pif.runChain) = true ∧
    gives .pollTimerExpiry (chained 0 3 0 .take true true) (fun t => t.ocu.pollTicks == 0 && t.ocu.waiting) = true := by
  decide +kernel

def shut : WindowDesc := ⟨0, 0, 0⟩
def descs : List WindowDesc := [⟨0, 32, 0x1F⟩, ⟨0, 12, 0x81⟩, shut, shut]

theorem witness_PortAndWindows :
    gives .configurePort (taken (.configurePort 16384 0x3FF 255 63) (windowed State.reset)) (fun t =>
      t.stat.addr == some 16384 && t.stat.due && t.pif.mask == 0x3FF && t.ocu.pollInterval == 255) = true ∧
    gives .configurePort (taken (.configurePort 0 0 1 0) State.reset) (fun t => t.stat.addr == none &&
      t.jrn.lowWater == 0) = true ∧
    firstBad [(0, decide (64 % 64 = 0)), (1, true), (2, decide (1 ≤ 0 ∧ 0 ≤ 255)), (3, true)] = some 2 ∧
    gives .configurePort (taken (.configurePort 64 0 0 0) (windowed State.reset)) (fun t =>
      t.ocu.pollInterval == 5 && t.ocu.current == none) = true ∧
    gives .setWindows (taken (.setWindows descs) State.reset) (fun t => t.mwu.windowsSet &&
      allowed .orderStateWrite 4294967288 8 t && !allowed .orderStateWrite 4294967289 8 t) = true ∧
    descriptorOk ⟨0, 11, 0⟩ = false ∧ descriptorOk ⟨1, 13, 0⟩ = false ∧ descriptorOk ⟨2, 13, 0⟩ = true ∧
    gives .setWindows (taken (.setWindows [shut, ⟨0, 33, 0⟩]) State.reset) (fun t => !t.mwu.windowsSet) = true := by
  decide +kernel

/-- Class C1 of R168 as an image of one entry. -/
def classImage : List Byte :=
  [24, 32, 0, 0, 0, 0, 0, 0] ++ [1, 0] ++ le 2 7 ++ le 2 300 ++ le 2 1023 ++ le 2 0 ++ le 2 200 ++ le 2 150 ++
  le 2 1023 ++ [6, 8, 0, 1, 0, 0, 0, 0]

theorem witness_TablesAndGeometry :
    firstBad (classTableFields 1 (sealRecord 2 classImage)) = none ∧
    gives .loadClasses (taken (.loadClasses 8192 1 0) (imageAt 2 classImage State.reset)) (fun t =>
      t.msc.current.map (fun k => (k.generation, k.window, k.margin, k.entries.length)) == some (1, 24, 32, 1)) = true ∧
    gives .loadClasses (taken (.loadClasses 8192 1 0) (writeBytes 8192 [25] (imageAt 2 classImage State.reset))) (fun t =>
      t.msc == State.reset.msc && t.ocu.current == none) = true ∧
    gives .stagedTableApply (updMsc (fun m => { m with staged := some builtInTable })
      (onBelt [{ letter with stage := .queued }] running)) (fun t => t.msc.current == some builtInTable &&
      t.msc.staged == none) = true := by decide +kernel
/-- R50: an AT_GAP table staged with a letter being scanned, current at once with none, BUSY behind a staged one, and the
order done when it applies. -/
theorem witness_TablesAndGeometry_staged :
    let gap := fun mode s => taken (.loadClasses 8192 1 mode) (imageAt 2 classImage s)
    gives .loadClasses (gap 1 (onBelt [letter] running)) (fun t => t.msc.current == none && t.msc.staged.isSome &&
      t.ocu.longList == [⟨.staged, 4096, 1, true⟩]) = true ∧
    gives .loadClasses (gap 1 State.reset) (fun t => t.msc.current.isSome && t.msc.staged == none) = true ∧
    gives .loadClasses (gap 0 (updMsc (fun m => { m with staged := some builtInTable }) State.reset)) (fun t =>
      t.msc.current == none && t.ocu.current == none) = true ∧
    gives .stagedTableApply (updOcu (fun o => { o with longList := [⟨.staged, 4096, 4, true⟩] })
      (updMsc (fun m => { m with staged := some builtInTable }) running)) (fun t => t.ocu.longList == [] &&
      t.ocu.completed == 1 && readBytes 4108 1 t == [3]) = true := by decide +kernel

/-- The default geometry as a record (11.4). -/
def geometryImage : List Byte :=
  [400, 4000, 5200, 6400, 7600, 7600, 320, 320, 160, 9600, 10800, 12000, 9600, 10800, 12000, 200, 13200, 13200, 80, 120,
    100].flatMap (le 2) ++ [3, 1] ++ le 2 30 ++ le 2 60 ++ [3, 4] ++ le 2 200 ++ [90, 0] ++
  [1000, 1000, 1000, 1000, 1000, 1000, 500, 500, 0].flatMap (le 2) ++
  [12000, 12000, 8000, 8000, 8000, 8000, 8000, 8000].flatMap (fun t =>
    le 2 t ++ le 2 40 ++ le 2 8000 ++ le 2 0 ++ le 4 400000)

theorem witness_TablesAndGeometry_geometry :
    firstBad (geometryFields .lane0 (sealRecord 70 geometryImage) State.reset) = none ∧
    gives .loadGeometry (taken (.loadGeometry 8192 0) (imageAt 70 geometryImage State.reset)) (fun t =>
      geometry .lane0 t == { Geometry.default with jamThreshold := 3 } &&
      geometry .lane1 t == Geometry.default) = true ∧
    gives .loadGeometry (taken (.loadGeometry 8192 0) (writeBytes 8234 [2] (imageAt 70 geometryImage State.reset)))
      (fun t => t.geom == State.reset.geom && t.ocu.current == none) = true := by decide +kernel
/-- R113, R119: both end pockets take their capacities before either flag follows: NE lets go while FE comes to stand at
its new one, and END_FULL stands. -/
theorem test_end_full_stands_over_a_geometry :
    let s := setHold .lane0 .endFull true (updPocket .lane0 .ne (fun r => { r with capacity := 400, fill := 450 })
      (updPocket .lane0 .fe (fun r => { r with capacity := 600, fill := 550, state := .out }) State.reset))
    gives .loadGeometry (taken (.loadGeometry 8192 0) (imageAt 70 geometryImage s)) (fun t =>
      (pocketRec .lane0 .fe t).capacity == 500 && holdSet .lane0 .endFull t) = true := by decide +kernel

/-- One threshold entry of lane 0, without carry; and TIMELINESS with HOLD. -/
def entryImage (id th action restore : Byte) : List Byte :=
  [1, 0, 0, 0] ++ [0, id, th, action, restore, 0, 0, 0, 0, 0, 0, 0, 0, 0, 0, 0]
def thresholdImage (th restore : Byte) : List Byte := entryImage 10 th 1 restore

theorem witness_HealthRecords :
    firstBad (thresholdImageFields (sealRecord 2 (thresholdImage 101 0)) 1) = none ∧
    gives .loadThresholds (taken (.loadThresholds 8192) (imageAt 2 (thresholdImage 101 0) State.reset)) (fun t =>
      (attr .lane0 .timeliness t).state == .failing && holdSet .lane0 .health t) = true ∧
    gives .loadThresholds (taken (.loadThresholds 8192) (imageAt 2 (thresholdImage 100 1) State.reset)) (fun t =>
      (attr .lane0 .timeliness t).state == .passing && (attr .lane0 .timeliness t).threshold == 100 &&
      !holdSet .lane0 .health t) = true ∧
    (attr .lane0 .tracking (evaluate .lane0 .tracking 5 300 (updAttr .lane0 .tracking (fun r =>
      { r with threshold := 253 }) State.reset))).state = .passing ∧
    (attr .lane0 .tracking (evaluate .lane0 .tracking 5 252 (updAttr .lane0 .tracking (fun r =>
      { r with threshold := 253, action := .retire }) running))).state = .retired ∧
    (attr .lane0 .tracking (evaluate .lane0 .tracking 5 (-7) (updAttr .lane0 .tracking (fun r =>
      { r with state := .retired }) State.reset))).normalized = 1 := by decide +kernel

/-- A load of one entry, and a record of lane 0 in a state with the value 5. -/
def reloaded (id th action restore : Byte) (s : State) (p : State → Bool) : Bool :=
  gives .loadThresholds (taken (.loadThresholds 8192) (imageAt 2 (entryImage id th action restore) s)) p
def attrIs (k : AttrId) (st : AttrState) (s : State) : State :=
  updAttr .lane0 k (fun r => { r with state := st, normalized := 5 }) s
/-- The state of a record of lane 0 and the flag of its element. -/
def standing (k : AttrId) (t : State) : AttrState × Option Bool := ((attr .lane0 k t).state, retiredFlag .lane0 k t)
def flipOut : State := updGsq .lane0 (fun q => { q with flipRetired := true }) (attrIs .flipAccuracy .retired running)
def laneOut : State := updLsq .lane0 (fun q => { q with retired := true }) (attrIs .lampReserve .retired running)

/-- R165: the restore of a FAILING record and of a RETIRED one, with the other record of the lane PASSING and RETIRED; a
RETIRED record named without restore, and one restored below its threshold; action RETIRE given to a FAILING record. -/
theorem witness_HealthRecords_restores :
    reloaded 10 50 1 1 (attrIs .timeliness .failing running) (fun t => standing .timeliness t == (.passing, none) &&
      (attr .lane0 .timeliness t).normalized == 100) = true ∧
    reloaded 2 50 2 1 flipOut (fun t => standing .flipAccuracy t == (.passing, some false)) = true ∧
    reloaded 1 50 2 1 laneOut (fun t => standing .lampReserve t == (.passing, some false)) = true ∧
    reloaded 1 50 2 1 (attrIs .tracking .retired laneOut) (fun t => standing .lampReserve t == (.passing, some true)) =
      true ∧
    reloaded 2 0 0 0 flipOut (fun t => standing .flipAccuracy t == (.retired, some true)) = true ∧
    reloaded 2 101 2 1 flipOut (fun t => standing .flipAccuracy t == (.retired, some true)) = true ∧
    reloaded 2 6 2 0 (attrIs .flipAccuracy .failing running) (fun t =>
      standing .flipAccuracy t == (.retired, some true)) = true := by decide +kernel
/-- R161: a FAILING record at its threshold passes, one below it stays. -/
theorem witness_HealthRecords_reloaded :
    reloaded 2 5 0 0 (attrIs .flipAccuracy .failing running) (fun t => (standing .flipAccuracy t).1 == .passing) = true ∧
    reloaded 2 6 0 0 (attrIs .flipAccuracy .failing running) (fun t => (standing .flipAccuracy t).1 == .failing) = true := by
  decide +kernel

theorem witness_SnapshotsAndIdentify :
    allowed .snapshotWrite 8192 440 (windowed State.reset) = true ∧
    allowed .snapshotWrite (2 ^ 32 - 792) 792 (windowed State.reset) = true ∧
    gives .tallySnapshot (taken (.tallySnapshot 8192 0 1) (onBelt [letter] (windowed State.reset))) (fun t =>
      (t.tally.get .lane0).take 2 == [1, 0] && t.ocu.current == none) = true ∧
    (tallyImage .lane0 1 (onBelt [letter] State.reset)).take 4 = [0, 1, 1, 0] ∧
    gives .healthSnapshot (taken (.healthSnapshot 8192) (windowed State.reset)) (fun t =>
      t.hmu == State.reset.hmu && t.ocu.current == none) = true ∧
    ((healthImage State.reset).drop 8).take 6 = [0, 1, 0, 100, 100, 0] ∧ (healthImage State.reset).length = 792 ∧
    gives .identify (taken .identify State.reset) (fun t => t.ocu.current == none && t.ocu.completed == 1) = true ∧
    ((identifyBody State.reset).drop 4).take 12 = [2, 32, 8, 64, 8, 16, 64, 16, 16, 4, 0, 0] := by decide +kernel

theorem witness_LaneSelfTestOrders :
    gives .selfTestReference (taken (.selfTest .reference 0 0 [] 0) (inMode .ready State.reset)) (fun t =>
      laneMode .lane0 t == .testing && t.hmu.tests.get .lane0 == some ⟨.reference, 1⟩ &&
      (t.sfe.get .lane0).refMode) = true ∧
    gives .selfTestCalibrate (taken (.selfTest .calibrate 0 0 [] 0) (inMode .ready State.reset)) (fun t =>
      laneMode .lane0 t == .testing && (t.sfe.get .lane0).longRequest == some .selfTest) = true ∧
    gives .selfTestReference (taken (.selfTest .reference 0 0 [] 0) running) (fun t => laneMode .lane0 t == .running &&
      t.ocu.current == none) = true ∧
    gives .selfTestAbort (taken (.selfTestAbort .reference 0) State.reset) (fun t => t.ocu.current == none) = true ∧
    gives .selfTestAbort (taken (.selfTestAbort .reference 0) (testing 3 none)) (fun t =>
      laneMode .lane0 t == .ready && t.hmu.tests.get .lane0 == none &&
      t.hmu.log.toList.head? == some (some ⟨.reference, some .lane0, .abortedByHost, 8, 0, 3⟩)) = true := by
  decide +kernel
/-- R166, R170, R172: CALIBRATE on a lane with a test, its abort, the abort of the other kind, and that of an audit. -/
theorem witness_LaneSelfTestOrders_aborts :
    let long := fun k => updOcu (fun o => { o with longList := [⟨k, 1024, 15, true⟩] })
    let calibrating := updHmu (fun h => { h with tests := ⟨some ⟨.calibrate, 1⟩, none⟩ })
      (updSfe .lane0 (fun f => { f with longRequest := some .selfTest, longRun := some 7 }) (inMode .testing State.reset))
    gives .selfTestCalibrate (taken (.selfTest .calibrate 0 0 [] 0) calibrating) (fun t => t.ocu.current == none &&
      t.hmu == calibrating.hmu) = true ∧
    gives .selfTestAbort (taken (.selfTestAbort .calibrate 0) (long (.laneTest .lane0) calibrating)) (fun t =>
      t.hmu.tests.get .lane0 == none && (t.sfe.get .lane0).longRun == none && laneMode .lane0 t == .ready &&
      t.ocu.completed == 2 && readBytes 1036 1 t == [3] && readBytes 1038 1 t == [3]) = true ∧
    gives .selfTestAbort (taken (.selfTestAbort .reference 0) calibrating) (fun t => t.hmu == calibrating.hmu) = true ∧
    gives .selfTestAbort (taken (.selfTestAbort .classAudit 0) (long .audit (auditing [1, 2] State.reset))) (fun t =>
      t.hmu.audit == none && t.msc.idleRequests == [] && t.ocu.completed == 2 &&
      t.hmu.log.toList.head? == some (some ⟨.classAudit, none, .abortedByHost, 10, 0, 0⟩)) = true ∧
    gives .selfTestAbort (taken (.selfTestAbort .classAudit 0) State.reset) (fun t => t.ocu.current == none) = true := by
  decide +kernel

end Sys2Proof.Tests
end

