-- ==== Sys2Proof/Proofs/ExecFrame.lean ====
section
/-! The frame of every command: the parts of the state that `exec` may change are those `partsOf` names for it and
those that the end of an event may change. -/

namespace Sys2Proof.Machine

/-- The parts that a command, the end of its event included, may change. -/
def touches (c : Instr) (p : Part) : Prop := p ∈ eventEnd ∨ p ∈ partsOf c

@[simp] theorem idle_mem_eventEnd (l : LaneId) : Part.idle l ∈ eventEnd := by cases l <;> decide
@[simp] theorem raised_mem_eventEnd : Part.raised ∈ eventEnd := by decide
@[simp] theorem attn_mem_eventEnd : Part.attn ∈ eventEnd := by decide
@[simp] theorem statusDue_mem_eventEnd : Part.statusDue ∈ eventEnd := by decide

@[simp] theorem nonempty_laneId : Nonempty LaneId := ⟨.lane0⟩

@[simp] theorem mem_both (f : LaneId → List Part) (p : Part) : p ∈ both f ↔ ∃ l, p ∈ f l := by
  constructor
  · intro h
    rcases List.mem_append.mp h with h | h
    · exact ⟨_, h⟩
    · exact ⟨_, h⟩
  · rintro ⟨l, h⟩
    cases l
    · exact List.mem_append_left _ h
    · exact List.mem_append_right _ h

variable {c : Instr} {s t : State}

/-- A meaning whose body changes only what its command may change does so with the end of its event. -/
theorem event_touches {comes : Bool} {body : State → State} (h : event comes body s = .next t)
    (hb : Only (touches c) s (body s)) : Only (touches c) s t := by
  rcases event_next h with ⟨-, rfl⟩ | ⟨-, rfl⟩
  · exact settle_only s hb (fun p hp => Or.inl hp)
  · exact only_refl _ _

theorem eventWithin_touches {ok comes : Bool} {body : State → State} (h : eventWithin ok comes body s = .next t)
    (hb : Only (touches c) s (body s)) : Only (touches c) s t := by
  cases ok with
  | false => cases h
  | true => exact event_touches h hb

/-- A command whose event does not come about changes nothing. -/
theorem next_touches (h : Host.Outcome.next s = (.next t : Host.Outcome State Fault Refusal)) :
    Only (touches c) s t := by
  cases h; exact only_refl _ _

theorem entryEvent_touches {l : LaneId} {serial : Nat} {comes : Entry → Bool} {body : Entry → State → State}
    (h : entryEvent l serial comes body s = .next t) (hb : ∀ e, Only (touches c) s (body e s)) :
    Only (touches c) s t := by
  unfold entryEvent at h
  split at h
  · exact next_touches h
  · exact event_touches h (hb _)

/-- An arrival changes its eye, and where the lane delivers, what the arrival's body changes. -/
theorem arrivalEvent_touches {l : LaneId} {y : Eye} {held : Nat} {body : Pos → State → State}
    (h : arrivalEvent l y held body s = .next t) (he : touches c (.eyes l))
    (hb : ∀ p u, Only (touches c) s u → Only (touches c) s (body p u)) : Only (touches c) s t := by
  refine event_touches h ?_
  have hy := acceptEdge_only l y true (only_refl (touches c) s) he
  dsimp only
  split
  · exact hb _ _ hy
  · exact hy

theorem laneControl_touches {a : LaneAction} {act : LaneId → State → State} (h : laneControl a act s = .next t)
    (hr : Only (touches c) s (orderRefused .badField none s)) (hb : ∀ l, Only (touches c) s (act l s)) :
    Only (touches c) s t := by
  unfold laneControl at h
  split at h
  · split at h
    · refine event_touches h ?_
      split
      · exact hr
      · exact hb _
    · exact next_touches h
  · exact next_touches h

theorem pocketControl_touches {a : PocketAction} {act : LaneId → Pocket → Nat → State → State}
    (h : pocketControl a act s = .next t) (hr : Only (touches c) s (orderRefused .badField none s))
    (hb : ∀ l p n, Only (touches c) s (act l p n s)) : Only (touches c) s t := by
  unfold pocketControl at h
  split at h
  · split at h
    · refine event_touches h ?_
      split
      · split
        · exact hr
        · exact hb _ _ _
      · exact hr
    · exact next_touches h
  · exact next_touches h

/-- A device reset may change every part but the commands waiting, host memory and the free values. -/
theorem deviceReset_touches (hc : partsOf c = partsOf .deviceReset) : Only (touches c) s (deviceReset s) := by
  intro p hp
  unfold touches at hp
  rw [hc] at hp
  cases p with
  | queue | mem | free | msi => simp [agree, deviceReset]
  | _ => simp [partsOf] at hp

theorem execDeviceReset_touches (h : execDeviceReset s = .next t) : Only (touches .deviceReset) s t :=
  event_touches h (deviceReset_touches rfl)

theorem execReset_touches (h : execReset s = .next t) : Only (touches .reset) s t :=
  event_touches h (deviceReset_touches rfl)

-- Elaborated at once, so that the rows after it find the equations of `partsOf` made.
set_option Elab.async false in
theorem execEncoderCount_touches (l : LaneId) (f : Bool) (h : execEncoderCount l f s = .next t) :
    Only (touches (.encoderCount l f)) s t := by
  exact event_touches h (by apply countBelt_only (h := only_refl _ _) <;> simp [touches, partsOf])

theorem execSpeedInterval_touches (l : LaneId) (h : execSpeedInterval l s = .next t) :
    Only (touches (.speedInterval l)) s t := by
  exact event_touches h (by apply updBelt_only (h := only_refl _ _); simp [touches, partsOf])

theorem execELeadingEdge_touches (l : LaneId) (n : Nat) (h : execELeadingEdge l n s = .next t) :
    Only (touches (.eLeadingEdge l n)) s t := by
  refine event_touches h ?_
  have hs : Only (touches (.eLeadingEdge l n)) s (updSfe l (fun f => { f with
      lastLead := some ⟨(capturedSample l s).pos, false⟩ }) (acceptEdge l .e true s)) := by
    apply updSfe_only
    · apply acceptEdge_only (h := only_refl _ _)
      simp [touches, partsOf]
    · simp [touches, partsOf, entryParts]
  dsimp only
  split
  · apply entryArrival_only (h := hs) <;> simp [touches, partsOf, entryParts, testParts, orderParts]
  · exact hs

theorem execETrailingEdge_touches (l : LaneId) (n : Nat) (h : execETrailingEdge l n s = .next t) :
    Only (touches (.eTrailingEdge l n)) s t := by
  refine event_touches h ?_
  have hs : Only (touches (.eTrailingEdge l n)) s (updSfe l (fun f => { f with
      lastTrail := some ⟨(capturedSample l s).pos, false⟩ }) (acceptEdge l .e false s)) := by
    apply updSfe_only
    · apply acceptEdge_only (h := only_refl _ _)
      simp [touches, partsOf]
    · simp [touches, partsOf, entryParts]
  dsimp only
  split
  · apply entryDeparture_only (h := hs) <;> simp [touches, partsOf, entryParts, orderParts]
  · exact hs

theorem execLongTimeout_touches (l : LaneId) (n : Nat) (h : execLongTimeout l n s = .next t) :
    Only (touches (.longTimeout l n)) s t := by
  refine entryEvent_touches h (fun e => ?_)
  apply deliverAll_only
  · apply giveVerdict_only (h := only_refl _ _) <;> simp [touches, partsOf, entryParts]
  all_goals simp [touches, partsOf, entryParts, orderParts]

theorem execBlockedEye_touches (l : LaneId) (y : Eye) (h : execBlockedEye l y s = .next t) :
    Only (touches (.blockedEye l y)) s t := by
  simp only [execBlockedEye] at h
  refine event_touches h ?_
  apply jam_only
  · apply updEye_only (h := only_refl _ _)
    simp [touches, partsOf]
  all_goals simp [touches, partsOf, testParts, orderParts]

theorem execNearPointReached_touches (l : LaneId) (h : execNearPointReached l s = .next t) :
    Only (touches (.nearPointReached l)) s t := by
  unfold execNearPointReached at h
  split at h
  · exact next_touches h
  · refine event_touches h ?_
    apply comeNear_only
    · apply updSfe_only (h := only_refl _ _)
      simp [touches, partsOf]
    all_goals simp [touches, partsOf]

theorem execClearPointReached_touches (l : LaneId) (h : execClearPointReached l s = .next t) :
    Only (touches (.clearPointReached l)) s t := by
  unfold execClearPointReached at h
  split at h
  · exact next_touches h
  · exact event_touches h (by apply updSfe_only (h := only_refl _ _); simp [touches, partsOf])

theorem execSampleTaken_touches (l : LaneId) (n : Nat) (r : List (BitVec 12))
    (h : execSampleTaken l n r s = .next t) :
    Only (touches (.sampleTaken l n r)) s t := by
  unfold execSampleTaken at h
  split at h
  · split at h
    · exact next_touches h
    · exact event_touches h (by
        apply takeSample_only (h := only_refl _ _) <;>
          simp [touches, partsOf, entryParts, orderParts])
  · cases h

theorem execScoringComplete_touches (h : execScoringComplete s = .next t) : Only (touches .scoringComplete) s t := by
  exact event_touches h (by
    apply completeJob_only (h := only_refl _ _) <;>
      simp [touches, partsOf, entryParts, orderParts])

theorem execForcedDelivery_touches (l : LaneId) (n : Nat) (h : execForcedDelivery l n s = .next t) :
    Only (touches (.forcedDelivery l n)) s t := by
  refine entryEvent_touches h (fun e => ?_)
  apply forceDelivery_only (h := only_refl _ _) <;> simp [touches, partsOf, entryParts, orderParts]

theorem execBankPositionReached_touches (l : LaneId) (n : Nat) (h : execBankPositionReached l n s = .next t) :
    Only (touches (.bankPositionReached l n)) s t := by
  refine entryEvent_touches h (fun e => ?_)
  apply updEntry_only (h := only_refl _ _)
  simp [touches, partsOf]

theorem execArrivalT_touches (l : LaneId) (n : Nat) (h : execArrivalT l n s = .next t) :
    Only (touches (.arrivalT l n)) s t := by
  refine arrivalEvent_touches h (by simp [touches, partsOf]) (fun p u hu => ?_)
  apply arriveT_only (h := hu) <;> simp [touches, partsOf, itemParts]

theorem execTWindowPassed_touches (l : LaneId) (n : Nat) (h : execTWindowPassed l n s = .next t) :
    Only (touches (.tWindowPassed l n)) s t := by
  refine entryEvent_touches h (fun e => ?_)
  apply updEntry_only (h := only_refl _ _)
  simp [touches, partsOf]

theorem execArrivalCancelEye_touches (l : LaneId) (d : Side) (n : Nat) (h : execArrivalCancelEye l d n s = .next t) :
    Only (touches (.arrivalCancelEye l d n)) s t := by
  refine arrivalEvent_touches h (by simp [touches, partsOf]) (fun p u hu => ?_)
  apply arriveCancel_only (h := hu) <;> simp [touches, partsOf, itemParts]

theorem execCancelWindowPassed_touches (l : LaneId) (n : Nat) (d : Side)
    (h : execCancelWindowPassed l n d s = .next t) :
    Only (touches (.cancelWindowPassed l n d)) s t := by
  refine entryEvent_touches h (fun e => ?_)
  apply passCancelWindow_only (h := only_refl _ _) <;> simp [touches, partsOf]

theorem execLostAtCancelEye_touches (l : LaneId) (n : Nat) (h : execLostAtCancelEye l n s = .next t) :
    Only (touches (.lostAtCancelEye l n)) s t := by
  refine entryEvent_touches h (fun e => ?_)
  apply loseEntry_only (h := only_refl _ _) <;> simp [touches, partsOf, entryParts, testParts, orderParts]

theorem execLostAtEndEye_touches (l : LaneId) (n : Nat) (h : execLostAtEndEye l n s = .next t) :
    Only (touches (.lostAtEndEye l n)) s t := by
  refine entryEvent_touches h (fun e => ?_)
  apply loseEntry_only (h := only_refl _ _) <;> simp [touches, partsOf, entryParts, testParts, orderParts]

theorem execArrivalPocketEye_touches (l : LaneId) (q : Pocket) (n : Nat)
    (h : execArrivalPocketEye l q n s = .next t) :
    Only (touches (.arrivalPocketEye l q n)) s t := by
  refine arrivalEvent_touches h (by simp [touches, partsOf]) (fun p u hu => ?_)
  apply arrivePocket_only (h := hu) <;> simp [touches, partsOf, entryParts, orderParts]

theorem execVerifyEdge_touches (l : LaneId) (d : Side) (n : Nat) (h : execVerifyEdge l d n s = .next t) :
    Only (touches (.verifyEdge l d n)) s t := by
  refine event_touches h ?_
  have hs : Only (touches (.verifyEdge l d n)) s (acceptEdge l (verifyEyeOf d) true s) := by
    apply acceptEdge_only (h := only_refl _ _)
    simp [touches, partsOf]
  dsimp only
  split
  · apply compareVerify_only (h := hs) <;> simp [touches, partsOf, healthParts, orderParts]
  · exact hs

theorem execVerifyEntryExpiry_touches (l : LaneId) (d : Side) (h : execVerifyEntryExpiry l d s = .next t) :
    Only (touches (.verifyEntryExpiry l d)) s t := by
  unfold execVerifyEntryExpiry at h
  split at h
  · exact next_touches h
  · refine event_touches h ?_
    apply verifyMiss_only
    · apply updHead_only (h := only_refl _ _)
      simp [touches, partsOf]
    all_goals simp [touches, partsOf]

theorem execGateOnEvent_touches (l : LaneId) (g : Gate) (h : execGateOnEvent l g s = .next t) :
    Only (touches (.gateOnEvent l g)) s t := by
  unfold execGateOnEvent at h
  split at h
  · exact next_touches h
  · refine event_touches h ?_
    apply gateWork_only
    · apply onEvent_only (h := only_refl _ _) <;> simp [touches, partsOf, itemParts]
    all_goals simp [touches, partsOf, itemParts]

theorem execGateWindowClose_touches (l : LaneId) (g : Gate) (h : execGateWindowClose l g s = .next t) :
    Only (touches (.gateWindowClose l g)) s t := by
  unfold execGateWindowClose at h
  split at h
  · exact next_touches h
  · exact event_touches h (by apply closeHead_only (h := only_refl _ _) <;> simp [touches, partsOf, itemParts])

theorem execGateHoldExpiry_touches (l : LaneId) (g : Gate) (h : execGateHoldExpiry l g s = .next t) :
    Only (touches (.gateHoldExpiry l g)) s t := by
  unfold execGateHoldExpiry at h
  split at h
  · exact event_touches h (by apply closeHead_only (h := only_refl _ _) <;> simp [touches, partsOf, itemParts])
  · exact next_touches h

theorem execPrintStart_touches (l : LaneId) (d : Side) (h : execPrintStart l d s = .next t) :
    Only (touches (.printStart l d)) s t := by
  unfold execPrintStart at h
  split at h
  · exact next_touches h
  · exact event_touches h (by apply startPrint_only (h := only_refl _ _) <;> simp [touches, partsOf, itemParts])

theorem execPrintEnd_touches (l : LaneId) (d : Side) (h : execPrintEnd l d s = .next t) :
    Only (touches (.printEnd l d)) s t := by
  unfold execPrintEnd at h
  split at h
  · exact next_touches h
  · exact event_touches h (by apply endPrint_only (h := only_refl _ _) <;> simp [touches, partsOf])

theorem execRasterLoadStart_touches (l : LaneId) (d : Side) (h : execRasterLoadStart l d s = .next t) :
    Only (touches (.rasterLoadStart l d)) s t := by
  exact event_touches h (by apply startLoad_only (h := only_refl _ _); simp [touches, partsOf])

theorem execRasterLoadComplete_touches (l : LaneId) (d : Side) (h : execRasterLoadComplete l d s = .next t) :
    Only (touches (.rasterLoadComplete l d)) s t := by
  exact event_touches h (by apply finishLoad_only (h := only_refl _ _); simp [touches, partsOf])

theorem execSpitTimerExpiry_touches (l : LaneId) (d : Side) (h : execSpitTimerExpiry l d s = .next t) :
    Only (touches (.spitTimerExpiry l d)) s t := by
  exact event_touches h (by
    apply spitExpiry_only (h := only_refl _ _) <;>
      simp [touches, partsOf, healthParts, orderParts])

theorem execSpitGapTimeout_touches (l : LaneId) (d : Side) (h : execSpitGapTimeout l d s = .next t) :
    Only (touches (.spitGapTimeout l d)) s t := by
  refine event_touches h ?_
  apply followGapSpit_only
  · apply updHead_only (h := only_refl _ _)
    simp [touches, partsOf]
  all_goals simp [touches, partsOf]

theorem execSpitStart_touches (l : LaneId) (d : Side) (h : execSpitStart l d s = .next t) :
    Only (touches (.spitStart l d)) s t := by
  exact event_touches h (by apply updHead_only (h := only_refl _ _); simp [touches, partsOf])

theorem execSpitComplete_touches (l : LaneId) (d : Side) (h : execSpitComplete l d s = .next t) :
    Only (touches (.spitComplete l d)) s t := by
  exact event_touches h (by
    apply completeSpit_only (h := only_refl _ _) <;>
      simp [touches, partsOf, healthParts, orderParts])

theorem execHeadTempReading_touches (l : LaneId) (d : Side) (n : Nat) (h : execHeadTempReading l d n s = .next t) :
    Only (touches (.headTempReading l d n)) s t := by
  exact eventWithin_touches h (by apply updHead_only (h := only_refl _ _); simp [touches, partsOf])

theorem execLampWarmComplete_touches (l : LaneId) (h : execLampWarmComplete l s = .next t) :
    Only (touches (.lampWarmComplete l)) s t := by
  refine event_touches h ?_
  apply warmCalibration_only
  · apply updLsq_only (h := only_refl _ _) <;> simp [touches, partsOf]
  all_goals simp [touches, partsOf]

theorem execLampRiseComplete_touches (l : LaneId) (h : execLampRiseComplete l s = .next t) :
    Only (touches (.lampRiseComplete l)) s t := by
  unfold execLampRiseComplete at h
  split at h
  · exact next_touches h
  · exact event_touches h (by apply finishRise_only (h := only_refl _ _) <;> simp [touches, partsOf])

theorem execIdleTimerExpiry_touches (l : LaneId) (h : execIdleTimerExpiry l s = .next t) :
    Only (touches (.idleTimerExpiry l)) s t := by
  refine event_touches h ?_
  apply setHold_only
  · apply lampTo_only
    · apply loseScanning_only (h := only_refl _ _) <;> simp [touches, partsOf, entryParts, orderParts]
    all_goals simp [touches, partsOf, entryParts, orderParts]
  all_goals simp [touches, partsOf, entryParts]

theorem execFeedReqChange_touches (l : LaneId) (b : Bool) (n : Nat) (h : execFeedReqChange l b n s = .next t) :
    Only (touches (.feedReqChange l b n)) s t := by
  refine event_touches h ?_
  have hs : Only (touches (.feedReqChange l b n)) s (updLsq l (fun q => { q with feedReq := b }) s) := by
    apply updLsq_only (h := only_refl _ _) <;> simp [touches, partsOf]
  dsimp only
  split
  · apply beginRise_only (h := hs) <;> simp [touches, partsOf]
  · exact hs

theorem execLongCalStart_touches (l : LaneId) (h : execLongCalStart l s = .next t) :
    Only (touches (.longCalStart l)) s t := by
  exact event_touches h (by apply updSfe_only (h := only_refl _ _); simp [touches, partsOf])

theorem execLongCalComplete_touches (l : LaneId) (x y : List (List (BitVec 12)))
    (h : execLongCalComplete l x y s = .next t) :
    Only (touches (.longCalComplete l x y)) s t := by
  exact eventWithin_touches h (by
    apply completeLongCal_only (h := only_refl _ _) <;>
      simp [touches, partsOf, healthParts, testParts, orderParts])

theorem execCalIntervalExpiry_touches (l : LaneId) (h : execCalIntervalExpiry l s = .next t) :
    Only (touches (.calIntervalExpiry l)) s t := by
  exact event_touches h (by
    apply calExpiry_only (h := only_refl _ _) <;>
      simp [touches, partsOf, healthParts, orderParts])

theorem execGapCalHoldExpiry_touches (l : LaneId) (h : execGapCalHoldExpiry l s = .next t) :
    Only (touches (.gapCalHoldExpiry l)) s t := by
  refine event_touches h ?_
  apply setHold_only
  · apply updSfe_only (h := only_refl _ _)
    simp [touches, partsOf]
  all_goals simp [touches, partsOf]

theorem execShortCalStart_touches (l : LaneId) (h : execShortCalStart l s = .next t) :
    Only (touches (.shortCalStart l)) s t := by
  exact event_touches h (by apply updSfe_only (h := only_refl _ _); simp [touches, partsOf])

theorem execShortCalComplete_touches (l : LaneId) (x y : List (List (BitVec 12)))
    (h : execShortCalComplete l x y s = .next t) :
    Only (touches (.shortCalComplete l x y)) s t := by
  exact eventWithin_touches h (by
    apply completeShortCal_only (h := only_refl _ _) <;>
      simp [touches, partsOf, healthParts, orderParts])

theorem execClockSecond_touches (h : execClockSecond s = .next t) : Only (touches .clockSecond) s t := by
  exact event_touches h (by apply clockSecond_only (h := only_refl _ _) <;> simp [touches, partsOf])

theorem execCompositionComplete_touches (h : execCompositionComplete s = .next t) :
    Only (touches .compositionComplete) s t := by
  exact event_touches h (by apply finishComposition_only (h := only_refl _ _) <;> simp [touches, partsOf])

theorem execStagedTableApply_touches (h : execStagedTableApply s = .next t) :
    Only (touches .stagedTableApply) s t := by
  unfold execStagedTableApply at h
  split at h
  · exact next_touches h
  · exact event_touches h (by apply applyStaged_only (h := only_refl _ _) <;> simp [touches, partsOf, orderParts])

theorem execIdleWorkStart_touches (h : execIdleWorkStart s = .next t) : Only (touches .idleWorkStart) s t := by
  exact event_touches h (by apply startIdle_only (h := only_refl _ _) <;> simp [touches, partsOf])

theorem execAuditEvalComplete_touches (h : execAuditEvalComplete s = .next t) :
    Only (touches .auditEvalComplete) s t := by
  unfold execAuditEvalComplete at h
  split at h
  · exact next_touches h
  · exact event_touches h (by apply completeAudit_only (h := only_refl _ _) <;> simp [touches, partsOf, orderParts])

theorem execRefCalCheckComplete_touches (l : LaneId) (x : List (List (BitVec 12)))
    (h : execRefCalCheckComplete l x s = .next t) :
    Only (touches (.refCalCheckComplete l x)) s t := by
  exact eventWithin_touches h (by
    apply completeCalCheck_only (h := only_refl _ _) <;>
      simp [touches, partsOf, testParts, orderParts])

theorem execSyntheticTraceDone_touches (l : LaneId) (h : execSyntheticTraceDone l s = .next t) :
    Only (touches (.syntheticTraceDone l)) s t := by
  refine event_touches h ?_
  apply askIdle_only
  · apply updSfe_only (h := only_refl _ _)
    simp [touches, partsOf]
  all_goals simp [touches, partsOf]

theorem execSyntheticItemScored_touches (l : LaneId) (h : execSyntheticItemScored l s = .next t) :
    Only (touches (.syntheticItemScored l)) s t := by
  unfold execSyntheticItemScored at h
  split at h
  · exact next_touches h
  · refine event_touches h ?_
    apply judgeStep_only
    · apply idleDone_only (h := only_refl _ _)
      simp [touches, partsOf, testParts]
    all_goals simp [touches, partsOf, testParts, orderParts]

theorem execSwapRequest_touches (l : LaneId) (q : Pocket) (b : Bool) (n : Nat)
    (h : execSwapRequest l q b n s = .next t) :
    Only (touches (.swapRequest l q b n)) s t := by
  refine eventWithin_touches h ?_
  have hs : Only (touches (.swapRequest l q b n)) s (updPocket l q (fun r => { r with button := b }) s) := by
    apply updPocket_only (h := only_refl _ _)
    simp [touches, partsOf]
  dsimp only
  split
  · apply swapPocket_only (h := hs) <;> simp [touches, partsOf]
  · exact hs

theorem execTrayOut_touches (l : LaneId) (q : Pocket) (n : Nat) (h : execTrayOut l q n s = .next t) :
    Only (touches (.trayOut l q n)) s t := by
  exact event_touches h (by apply trayOut_only (h := only_refl _ _) <;> simp [touches, partsOf, itemParts])

theorem execTrayIn_touches (l : LaneId) (q : Pocket) (n : Nat) (h : execTrayIn l q n s = .next t) :
    Only (touches (.trayIn l q n)) s t := by
  exact event_touches h (by apply trayIn_only (h := only_refl _ _) <;> simp [touches, partsOf])

theorem execPollTimerExpiry_touches (h : execPollTimerExpiry s = .next t) : Only (touches .pollTimerExpiry) s t := by
  exact event_touches h (by apply chainRead_only (h := only_refl _ _) <;> simp [touches, partsOf, orderParts])

theorem execChainLinkRead_touches (h : execChainLinkRead s = .next t) : Only (touches .chainLinkRead) s t := by
  exact event_touches h (by apply readLink_only (h := only_refl _ _) <;> simp [touches, partsOf, orderParts])

theorem execStatusWrite_touches (h : execStatusWrite s = .next t) : Only (touches .statusWrite) s t := by
  unfold execStatusWrite at h
  split at h
  · exact next_touches h
  · exact event_touches h (by apply writeStatus_only (h := only_refl _ _) <;> simp [touches, partsOf])

theorem execPageWriteOut_touches (h : execPageWriteOut s = .next t) : Only (touches .pageWriteOut) s t := by
  unfold execPageWriteOut at h
  split at h
  · exact next_touches h
  · exact event_touches h (by apply writeOutPage_only (h := only_refl _ _) <;> simp [touches, partsOf, orderParts])

theorem execRunChainStart_touches (h : execRunChainStart s = .next t) : Only (touches .runChainStart) s t := by
  exact event_touches h (by apply startChain_only (h := only_refl _ _) <;> simp [touches, partsOf, orderParts])

theorem execRunChainStop_touches (h : execRunChainStop s = .next t) : Only (touches .runChainStop) s t := by
  exact event_touches h (by apply stopChain_only (h := only_refl _ _) <;> simp [touches, partsOf])

theorem execIrqEnable_touches (h : execIrqEnable s = .next t) : Only (touches .irqEnable) s t := by
  exact event_touches h (by apply updPif_only (h := only_refl _ _) <;> simp [touches, partsOf])

theorem execIrqDisable_touches (h : execIrqDisable s = .next t) : Only (touches .irqDisable) s t := by
  exact event_touches h (by apply updPif_only (h := only_refl _ _) <;> simp [touches, partsOf])

theorem execLook_touches (h : execLook s = .next t) : Only (touches .look) s t := by
  exact event_touches h (by apply chainRead_only (h := only_refl _ _) <;> simp [touches, partsOf, orderParts])

theorem execChainLoWrite_touches (v : BitVec 32) (h : execChainLoWrite v s = .next t) :
    Only (touches (.chainLoWrite v)) s t := by
  exact event_touches h (by apply writeChain_only (h := only_refl _ _) <;> simp [touches, partsOf])

theorem execChainHiWrite_touches (v : BitVec 32) (h : execChainHiWrite v s = .next t) :
    Only (touches (.chainHiWrite v)) s t := by
  exact event_touches h (by apply writeChain_only (h := only_refl _ _) <;> simp [touches, partsOf])

theorem execChainLoRead_touches (b : ByteSel) (h : execChainLoRead b s = .next t) :
    Only (touches (.chainLoRead b)) s t := by
  exact eventWithin_touches h (by apply updPif_only (h := only_refl _ _) <;> simp [touches, partsOf])

theorem execChainHiRead_touches (b : ByteSel) (h : execChainHiRead b s = .next t) :
    Only (touches (.chainHiRead b)) s t := by
  exact eventWithin_touches h (by apply updPif_only (h := only_refl _ _) <;> simp [touches, partsOf])

theorem execAttnWrite_touches (v : BitVec 32) (h : execAttnWrite v s = .next t) :
    Only (touches (.attnWrite v)) s t := by
  refine event_touches h (fun p hp => ?_)
  cases p <;> simp_all [touches, agree]

theorem execRegisterWriteIgnored_touches (o w : Nat) (v : BitVec 32)
    (h : execRegisterWriteIgnored o w v s = .next t) :
    Only (touches (.registerWriteIgnored o w v)) s t := by
  exact eventWithin_touches h (only_refl _ _)

theorem execConfigurePort_touches (h : execConfigurePort s = .next t) : Only (touches .configurePort) s t := by
  unfold execConfigurePort at h
  split at h
  · refine event_touches h ?_
    split
    · apply orderRefused_only (h := only_refl _ _) <;> simp [touches, partsOf, orderParts]
    · split
      · apply orderFaulted_only (h := only_refl _ _) <;> simp [touches, partsOf, orderParts]
      · apply configurePort_only (h := only_refl _ _) <;> simp [touches, partsOf, orderParts]
  · exact next_touches h

theorem execSetWindows_touches (h : execSetWindows s = .next t) : Only (touches .setWindows) s t := by
  unfold execSetWindows at h
  split at h
  · refine event_touches h ?_
    split
    · apply orderRefused_only (h := only_refl _ _) <;> simp [touches, partsOf, orderParts]
    · apply orderDone_only
      · apply endSuspension_only
        · intro p hp
          cases p <;> simp_all [touches, partsOf, agree]
        all_goals simp [touches, partsOf]
      all_goals simp [touches, partsOf, orderParts]
  · exact next_touches h

theorem execIdentify_touches (h : execIdentify s = .next t) : Only (touches .identify) s t := by
  unfold execIdentify at h
  split at h
  · exact event_touches h (by apply finishWith_only (h := only_refl _ _) <;> simp [touches, partsOf, orderParts])
  · exact next_touches h

theorem execLoadClasses_touches (h : execLoadClasses s = .next t) : Only (touches .loadClasses) s t := by
  unfold execLoadClasses at h
  split at h
  · exact event_touches h (by apply loadClasses_only (h := only_refl _ _) <;> simp [touches, partsOf, orderParts])
  · exact next_touches h

theorem execLoadGeometry_touches (h : execLoadGeometry s = .next t) : Only (touches .loadGeometry) s t := by
  unfold execLoadGeometry at h
  split at h
  · exact event_touches h (by apply loadGeometry_only (h := only_refl _ _) <;> simp [touches, partsOf, orderParts])
  · exact next_touches h

theorem execLoadStyles_touches (h : execLoadStyles s = .next t) : Only (touches .loadStyles) s t := by
  unfold execLoadStyles at h
  split at h
  · exact event_touches h (by apply loadStyles_only (h := only_refl _ _) <;> simp [touches, partsOf, orderParts])
  · exact next_touches h

theorem execSetClock_touches (h : execSetClock s = .next t) : Only (touches .setClock) s t := by
  unfold execSetClock at h
  split at h
  · exact event_touches h (by apply setClock_only (h := only_refl _ _) <;> simp [touches, partsOf, orderParts])
  · exact next_touches h

theorem execLoadThresholds_touches (h : execLoadThresholds s = .next t) : Only (touches .loadThresholds) s t := by
  unfold execLoadThresholds at h
  split at h
  · exact event_touches h (by
      apply loadThresholds_only (h := only_refl _ _) <;>
        simp [touches, partsOf, healthParts, orderParts])
  · exact next_touches h

theorem execGivePages_touches (h : execGivePages s = .next t) : Only (touches .givePages) s t := by
  unfold execGivePages at h
  split at h
  · exact event_touches h (by apply givePages_only (h := only_refl _ _) <;> simp [touches, partsOf, orderParts])
  · exact next_touches h

theorem execFlushJournal_touches (h : execFlushJournal s = .next t) : Only (touches .flushJournal) s t := by
  unfold execFlushJournal at h
  split at h
  · exact event_touches h (by apply flushJournal_only (h := only_refl _ _) <;> simp [touches, partsOf, orderParts])
  · exact next_touches h

theorem execLaneControlRun_touches (h : execLaneControlRun s = .next t) : Only (touches .laneControlRun) s t := by
  refine laneControl_touches h ?_ (fun l => ?_)
  · apply orderRefused_only (h := only_refl _ _) <;> simp [touches, partsOf, orderParts]
  · apply runLane_only (h := only_refl _ _) <;> simp [touches, partsOf, orderParts]

theorem execLaneControlDrain_touches (h : execLaneControlDrain s = .next t) :
    Only (touches .laneControlDrain) s t := by
  refine laneControl_touches h ?_ (fun l => ?_)
  · apply orderRefused_only (h := only_refl _ _) <;> simp [touches, partsOf, orderParts]
  · apply drainLane_only (h := only_refl _ _) <;> simp [touches, partsOf, orderParts]

theorem execLaneControlStandby_touches (h : execLaneControlStandby s = .next t) :
    Only (touches .laneControlStandby) s t := by
  refine laneControl_touches h ?_ (fun l => ?_)
  · apply orderRefused_only (h := only_refl _ _) <;> simp [touches, partsOf, entryParts, orderParts]
  · apply standby_only (h := only_refl _ _) <;> simp [touches, partsOf, entryParts, orderParts]

theorem execLaneControlOff_touches (h : execLaneControlOff s = .next t) : Only (touches .laneControlOff) s t := by
  refine laneControl_touches h ?_ (fun l => ?_)
  · apply orderRefused_only (h := only_refl _ _) <;> simp [touches, partsOf, entryParts, orderParts]
  · apply switchOff_only (h := only_refl _ _) <;> simp [touches, partsOf, entryParts, orderParts]

theorem execLaneControlClear_touches (h : execLaneControlClear s = .next t) :
    Only (touches .laneControlClear) s t := by
  refine laneControl_touches h ?_ (fun l => ?_)
  · apply orderRefused_only (h := only_refl _ _) <;> simp [touches, partsOf, entryParts, orderParts]
  · apply clearStopped_only (h := only_refl _ _) <;> simp [touches, partsOf, entryParts, orderParts]

theorem execLaneControlAbort_touches (h : execLaneControlAbort s = .next t) :
    Only (touches .laneControlAbort) s t := by
  refine laneControl_touches h ?_ (fun l => ?_)
  · apply orderRefused_only (h := only_refl _ _) <;> simp [touches, partsOf, entryParts, testParts, orderParts]
  · apply orderDone_only
    · apply abortLane_only (h := only_refl _ _) <;> simp [touches, partsOf, entryParts, testParts, orderParts]
    all_goals simp [touches, partsOf, entryParts, testParts, orderParts]

theorem execLaneControlHold_touches (h : execLaneControlHold s = .next t) : Only (touches .laneControlHold) s t := by
  refine laneControl_touches h ?_ (fun l => ?_)
  · apply orderRefused_only (h := only_refl _ _) <;> simp [touches, partsOf, orderParts]
  · split
    · apply orderNothing_only (h := only_refl _ _) <;> simp [touches, partsOf, orderParts]
    · apply orderDone_only
      · apply setHold_only (h := only_refl _ _) <;> simp [touches, partsOf]
      all_goals simp [touches, partsOf, orderParts]

theorem execLaneControlRelease_touches (h : execLaneControlRelease s = .next t) :
    Only (touches .laneControlRelease) s t := by
  refine laneControl_touches h ?_ (fun l => ?_)
  · apply orderRefused_only (h := only_refl _ _) <;> simp [touches, partsOf, orderParts]
  · split
    · apply orderDone_only
      · apply setHold_only (h := only_refl _ _) <;> simp [touches, partsOf]
      all_goals simp [touches, partsOf, orderParts]
    · apply orderNothing_only (h := only_refl _ _) <;> simp [touches, partsOf, orderParts]

theorem execPocketControlDisable_touches (h : execPocketControlDisable s = .next t) :
    Only (touches .pocketControlDisable) s t := by
  refine pocketControl_touches h ?_ (fun l q n => ?_)
  · apply orderRefused_only (h := only_refl _ _) <;> simp [touches, partsOf, orderParts]
  · apply disablePocket_only (h := only_refl _ _) <;> simp [touches, partsOf, orderParts]

theorem execPocketControlEnable_touches (h : execPocketControlEnable s = .next t) :
    Only (touches .pocketControlEnable) s t := by
  refine pocketControl_touches h ?_ (fun l q n => ?_)
  · apply orderRefused_only (h := only_refl _ _) <;> simp [touches, partsOf, orderParts]
  · apply enablePocket_only (h := only_refl _ _) <;> simp [touches, partsOf, orderParts]

theorem execPocketControlSwap_touches (h : execPocketControlSwap s = .next t) :
    Only (touches .pocketControlSwap) s t := by
  refine pocketControl_touches h ?_ (fun l q n => ?_)
  · apply orderRefused_only (h := only_refl _ _) <;> simp [touches, partsOf, orderParts]
  · split
    · apply orderDone_only
      · apply swapPocket_only (h := only_refl _ _) <;> simp [touches, partsOf]
      all_goals simp [touches, partsOf, orderParts]
    · apply orderNothing_only (h := only_refl _ _) <;> simp [touches, partsOf, orderParts]

theorem execPocketControlSetCapacity_touches (h : execPocketControlSetCapacity s = .next t) :
    Only (touches .pocketControlSetCapacity) s t := by
  refine pocketControl_touches h ?_ (fun l q n => ?_)
  · apply orderRefused_only (h := only_refl _ _) <;> simp [touches, partsOf, orderParts]
  · split
    · apply orderDone_only
      · apply applyCapacity_only (h := only_refl _ _) <;> simp [touches, partsOf, orderParts]
      all_goals simp [touches, partsOf, orderParts]
    · apply orderRefused_only (h := only_refl _ _) <;> simp [touches, partsOf, orderParts]

theorem execTallySnapshot_touches (h : execTallySnapshot s = .next t) : Only (touches .tallySnapshot) s t := by
  unfold execTallySnapshot at h
  split at h
  · exact event_touches h (by apply tallySnapshot_only (h := only_refl _ _) <;> simp [touches, partsOf, orderParts])
  · exact next_touches h

theorem execHealthSnapshot_touches (h : execHealthSnapshot s = .next t) : Only (touches .healthSnapshot) s t := by
  unfold execHealthSnapshot at h
  split at h
  · exact event_touches h (by apply healthSnapshot_only (h := only_refl _ _) <;> simp [touches, partsOf, orderParts])
  · exact next_touches h

theorem execSelfTestReference_touches (h : execSelfTestReference s = .next t) :
    Only (touches .selfTestReference) s t := by
  unfold execSelfTestReference at h
  split at h
  · refine event_touches h ?_
    apply startLaneTest_only (h := only_refl _ _)
    case h7 => exact fun l => by apply startReference_only (h := only_refl _ _) <;>
      simp [touches, partsOf, testParts, orderParts]
    all_goals simp [touches, partsOf, testParts, orderParts]
  · exact next_touches h

theorem execSelfTestCalibrate_touches (h : execSelfTestCalibrate s = .next t) :
    Only (touches .selfTestCalibrate) s t := by
  unfold execSelfTestCalibrate at h
  split at h
  · refine event_touches h ?_
    apply startLaneTest_only (h := only_refl _ _)
    case h7 => exact fun l => by apply startCalibrate_only (h := only_refl _ _) <;>
      simp [touches, partsOf, testParts, orderParts]
    all_goals simp [touches, partsOf, testParts, orderParts]
  · exact next_touches h

theorem execSelfTestClassAudit_touches (h : execSelfTestClassAudit s = .next t) :
    Only (touches .selfTestClassAudit) s t := by
  unfold execSelfTestClassAudit at h
  split at h
  · exact event_touches h (by apply startAudit_only (h := only_refl _ _) <;> simp [touches, partsOf, orderParts])
  · exact next_touches h

theorem execSelfTestAbort_touches (h : execSelfTestAbort s = .next t) : Only (touches .selfTestAbort) s t := by
  unfold execSelfTestAbort at h
  split at h
  · exact event_touches h (by
      apply abortTest_only (h := only_refl _ _) <;>
        simp [touches, partsOf, testParts, orderParts])
  · exact next_touches h

theorem execEyeTrailingEdge_touches (l : LaneId) (y : Eye) (n : Nat) (h : execEyeTrailingEdge l y n s = .next t) :
    Only (touches (.eyeTrailingEdge l y n)) s t := by
  exact eventWithin_touches h (by apply acceptEdge_only (h := only_refl _ _); simp [touches, partsOf])

/-- The frame of every command (O4's first part): it changes no part but its own and those of the end of an event. -/
theorem exec_touches (h : exec c s = .next t) : Only (touches c) s t := by
  cases c with
  | deviceReset => exact execDeviceReset_touches h
  | encoderCount _ _ => exact execEncoderCount_touches _ _ h
  | speedInterval _ => exact execSpeedInterval_touches _ h
  | eLeadingEdge _ _ => exact execELeadingEdge_touches _ _ h
  | eTrailingEdge _ _ => exact execETrailingEdge_touches _ _ h
  | longTimeout _ _ => exact execLongTimeout_touches _ _ h
  | blockedEye _ _ => exact execBlockedEye_touches _ _ h
  | nearPointReached _ => exact execNearPointReached_touches _ h
  | clearPointReached _ => exact execClearPointReached_touches _ h
  | sampleTaken _ _ _ => exact execSampleTaken_touches _ _ _ h
  | scoringComplete => exact execScoringComplete_touches h
  | forcedDelivery _ _ => exact execForcedDelivery_touches _ _ h
  | bankPositionReached _ _ => exact execBankPositionReached_touches _ _ h
  | arrivalT _ _ => exact execArrivalT_touches _ _ h
  | tWindowPassed _ _ => exact execTWindowPassed_touches _ _ h
  | arrivalCancelEye _ _ _ => exact execArrivalCancelEye_touches _ _ _ h
  | cancelWindowPassed _ _ _ => exact execCancelWindowPassed_touches _ _ _ h
  | lostAtCancelEye _ _ => exact execLostAtCancelEye_touches _ _ h
  | lostAtEndEye _ _ => exact execLostAtEndEye_touches _ _ h
  | arrivalPocketEye _ _ _ => exact execArrivalPocketEye_touches _ _ _ h
  | verifyEdge _ _ _ => exact execVerifyEdge_touches _ _ _ h
  | verifyEntryExpiry _ _ => exact execVerifyEntryExpiry_touches _ _ h
  | gateOnEvent _ _ => exact execGateOnEvent_touches _ _ h
  | gateWindowClose _ _ => exact execGateWindowClose_touches _ _ h
  | gateHoldExpiry _ _ => exact execGateHoldExpiry_touches _ _ h
  | printStart _ _ => exact execPrintStart_touches _ _ h
  | printEnd _ _ => exact execPrintEnd_touches _ _ h
  | rasterLoadStart _ _ => exact execRasterLoadStart_touches _ _ h
  | rasterLoadComplete _ _ => exact execRasterLoadComplete_touches _ _ h
  | spitTimerExpiry _ _ => exact execSpitTimerExpiry_touches _ _ h
  | spitGapTimeout _ _ => exact execSpitGapTimeout_touches _ _ h
  | spitStart _ _ => exact execSpitStart_touches _ _ h
  | spitComplete _ _ => exact execSpitComplete_touches _ _ h
  | headTempReading _ _ _ => exact execHeadTempReading_touches _ _ _ h
  | lampWarmComplete _ => exact execLampWarmComplete_touches _ h
  | lampRiseComplete _ => exact execLampRiseComplete_touches _ h
  | idleTimerExpiry _ => exact execIdleTimerExpiry_touches _ h
  | feedReqChange _ _ _ => exact execFeedReqChange_touches _ _ _ h
  | longCalStart _ => exact execLongCalStart_touches _ h
  | longCalComplete _ _ _ => exact execLongCalComplete_touches _ _ _ h
  | calIntervalExpiry _ => exact execCalIntervalExpiry_touches _ h
  | gapCalHoldExpiry _ => exact execGapCalHoldExpiry_touches _ h
  | shortCalStart _ => exact execShortCalStart_touches _ h
  | shortCalComplete _ _ _ => exact execShortCalComplete_touches _ _ _ h
  | clockSecond => exact execClockSecond_touches h
  | compositionComplete => exact execCompositionComplete_touches h
  | stagedTableApply => exact execStagedTableApply_touches h
  | idleWorkStart => exact execIdleWorkStart_touches h
  | auditEvalComplete => exact execAuditEvalComplete_touches h
  | refCalCheckComplete _ _ => exact execRefCalCheckComplete_touches _ _ h
  | syntheticTraceDone _ => exact execSyntheticTraceDone_touches _ h
  | syntheticItemScored _ => exact execSyntheticItemScored_touches _ h
  | swapRequest _ _ _ _ => exact execSwapRequest_touches _ _ _ _ h
  | trayOut _ _ _ => exact execTrayOut_touches _ _ _ h
  | trayIn _ _ _ => exact execTrayIn_touches _ _ _ h
  | pollTimerExpiry => exact execPollTimerExpiry_touches h
  | chainLinkRead => exact execChainLinkRead_touches h
  | statusWrite => exact execStatusWrite_touches h
  | pageWriteOut => exact execPageWriteOut_touches h
  | runChainStart => exact execRunChainStart_touches h
  | runChainStop => exact execRunChainStop_touches h
  | irqEnable => exact execIrqEnable_touches h
  | irqDisable => exact execIrqDisable_touches h
  | look => exact execLook_touches h
  | reset => exact execReset_touches h
  | chainLoWrite _ => exact execChainLoWrite_touches _ h
  | chainHiWrite _ => exact execChainHiWrite_touches _ h
  | chainLoRead _ => exact execChainLoRead_touches _ h
  | chainHiRead _ => exact execChainHiRead_touches _ h
  | attnWrite _ => exact execAttnWrite_touches _ h
  | registerWriteIgnored _ _ _ => exact execRegisterWriteIgnored_touches _ _ _ h
  | configurePort => exact execConfigurePort_touches h
  | setWindows => exact execSetWindows_touches h
  | identify => exact execIdentify_touches h
  | loadClasses => exact execLoadClasses_touches h
  | loadGeometry => exact execLoadGeometry_touches h
  | loadStyles => exact execLoadStyles_touches h
  | setClock => exact execSetClock_touches h
  | loadThresholds => exact execLoadThresholds_touches h
  | givePages => exact execGivePages_touches h
  | flushJournal => exact execFlushJournal_touches h
  | laneControlRun => exact execLaneControlRun_touches h
  | laneControlDrain => exact execLaneControlDrain_touches h
  | laneControlStandby => exact execLaneControlStandby_touches h
  | laneControlOff => exact execLaneControlOff_touches h
  | laneControlClear => exact execLaneControlClear_touches h
  | laneControlAbort => exact execLaneControlAbort_touches h
  | laneControlHold => exact execLaneControlHold_touches h
  | laneControlRelease => exact execLaneControlRelease_touches h
  | pocketControlDisable => exact execPocketControlDisable_touches h
  | pocketControlEnable => exact execPocketControlEnable_touches h
  | pocketControlSwap => exact execPocketControlSwap_touches h
  | pocketControlSetCapacity => exact execPocketControlSetCapacity_touches h
  | tallySnapshot => exact execTallySnapshot_touches h
  | healthSnapshot => exact execHealthSnapshot_touches h
  | selfTestReference => exact execSelfTestReference_touches h
  | selfTestCalibrate => exact execSelfTestCalibrate_touches h
  | selfTestClassAudit => exact execSelfTestClassAudit_touches h
  | selfTestAbort => exact execSelfTestAbort_touches h
  | eyeTrailingEdge _ _ _ => exact execEyeTrailingEdge_touches _ _ _ h

end Sys2Proof.Machine
end

