-- ==== Sys2Proof/Proofs/TrackQueue.lean ====
section
/-! Track queues and tallies under the shared operations. `Advanced` and `Follows` say what may become of one entry;
`Steady` says that every entry of every queue stays and that the counts of R142's conservation stand. -/

namespace Sys2Proof.Machine

/-! ### Queues that are well kept -/

theorem serialsRise_iff (n : Nat) (q : List Entry) :
    serialsRise n q = true ↔ (q.map Entry.serial).Pairwise (· < ·) ∧ ∀ e ∈ q, e.serial ≤ n := by
  induction q with
  | nil => simp [serialsRise]
  | cons e q ih =>
    simp only [serialsRise, Bool.and_eq_true, decide_eq_true_eq, List.all_eq_true, ih, List.map_cons,
      List.pairwise_cons, List.mem_cons, forall_eq_or_imp, List.mem_map, forall_exists_index, and_imp,
      forall_apply_eq_imp_iff₂]
    tauto

theorem trackOk_iff (t : Track) :
    trackOk t = true ↔
      t.queue.length ≤ 32 ∧ (t.queue.map Entry.serial).Pairwise (· < ·) ∧ ∀ e ∈ t.queue, e.serial ≤ t.lastSerial := by
  simp [trackOk, serialsRise_iff]

/-- R8: an entry is the only one of its queue with its serial. -/
theorem eq_of_serial_eq {t : Track} {e f : Entry} (h : trackOk t = true) (he : e ∈ t.queue) (hf : f ∈ t.queue)
    (hs : e.serial = f.serial) : e = f := by
  obtain ⟨-, hp, -⟩ := (trackOk_iff t).mp h
  have hn : (t.queue.map Entry.serial).Nodup := hp.imp (fun h => Nat.ne_of_lt h)
  exact List.inj_on_of_nodup_map hn he hf hs

theorem findEntry_mem {l : LaneId} {n : Nat} {s : State} {e : Entry} (h : findEntry l n s = some e) :
    e ∈ (s.track.get l).queue := List.mem_of_find?_eq_some h

theorem findEntry_serial {l : LaneId} {n : Nat} {s : State} {e : Entry} (h : findEntry l n s = some e) :
    e.serial = n := by simpa using List.find?_some h

/-- In a well-kept queue the entry with a serial is the one that is found by it. -/
theorem findEntry_of_mem {l : LaneId} {s : State} {e : Entry} (h : trackOk (s.track.get l) = true)
    (he : e ∈ (s.track.get l).queue) : findEntry l e.serial s = some e := by
  cases hf : findEntry l e.serial s with
  | none =>
    have := List.find?_eq_none.mp hf e he
    simp at this
  | some x => rw [eq_of_serial_eq h (findEntry_mem hf) he (findEntry_serial hf)]

/-- A change of the entries that keeps their serials keeps the queue in order. -/
theorem trackOk_map {t : Track} {φ : Entry → Entry} (h : trackOk t = true)
    (hs : ∀ e ∈ t.queue, (φ e).serial = e.serial) : trackOk { t with queue := t.queue.map φ } = true := by
  obtain ⟨hl, hp, hb⟩ := (trackOk_iff t).mp h
  have hm : (t.queue.map φ).map Entry.serial = t.queue.map Entry.serial := by
    rw [List.map_map]
    exact List.map_congr_left hs
  refine (trackOk_iff _).mpr ⟨by simpa using hl, by simpa only [hm] using hp, fun e he => ?_⟩
  obtain ⟨x, hx, rfl⟩ := List.mem_map.mp he
  rw [hs x hx]
  exact hb x hx

/-! ### What may become of an entry -/

/-- A relation of an entry and what has become of it, that composes and keeps the serial. -/
structure EntryOrder (r : Entry → Entry → Prop) : Prop where
  refl : ∀ e, r e e
  trans : ∀ e f g, r e f → r f g → r e g
  serial : ∀ e f, r e f → f.serial = e.serial

/-- What gate work, prints and deliveries may change of an entry: a delivery, windows struck from its plan, its first
reroute cause and its print result. A delivered entry is not delivered again (R14). -/
structure Advanced (e f : Entry) : Prop where
  rest : f = { e with
    delivered := f.delivered, stage := f.stage, plan := f.plan, reroute := f.reroute, printResult := f.printResult }
  reroute : e.reroute.isSome = true → f.reroute = e.reroute
  delivered : e.delivered = true → f.delivered = true ∧ f.stage = e.stage ∧ f.plan.isSome = e.plan.isSome

theorem advanced_order : EntryOrder Advanced where
  refl e := ⟨rfl, fun _ => rfl, fun h => ⟨h, rfl, rfl⟩⟩
  trans e f g h k := by
    refine ⟨by rw [k.rest, h.rest], fun he => ?_, fun he => ?_⟩
    · rw [k.reroute (by rw [h.reroute he]; exact he), h.reroute he]
    · obtain ⟨hd, hst, hp⟩ := h.delivered he
      obtain ⟨kd, kst, kp⟩ := k.delivered hd
      exact ⟨kd, kst.trans hst, kp.trans hp⟩
  serial e f h := by rw [h.rest]

/-- What stands of an entry while it is in the queue (R9, R13, R15): what it was created with, its first verdict, its
first reroute cause, that it was delivered and that it was seen at T. -/
structure Follows (e f : Entry) : Prop where
  serial : f.serial = e.serial
  leadE : f.leadE = e.leadE
  scanStart : f.scanStart = e.scanStart
  gapBefore : f.gapBefore = e.gapBefore
  verdict : e.verdict.isSome = true → f.verdict = e.verdict
  reroute : e.reroute.isSome = true → f.reroute = e.reroute
  delivered : e.delivered = true → f.delivered = true
  seenAtT : e.seenAtT = true → f.seenAtT = true

theorem follows_order : EntryOrder Follows where
  refl e := ⟨rfl, rfl, rfl, rfl, fun _ => rfl, fun _ => rfl, id, id⟩
  trans e f g h k := by
    refine ⟨k.serial.trans h.serial, k.leadE.trans h.leadE, k.scanStart.trans h.scanStart,
      k.gapBefore.trans h.gapBefore, fun he => ?_, fun he => ?_, fun he => k.delivered (h.delivered he),
      fun he => k.seenAtT (h.seenAtT he)⟩
    · rw [k.verdict (by rw [h.verdict he]; exact he), h.verdict he]
    · rw [k.reroute (by rw [h.reroute he]; exact he), h.reroute he]
  serial _ _ h := h.serial

theorem Advanced.follows {e f : Entry} (h : Advanced e f) : Follows e f := by
  have hr := h.rest
  refine ⟨by rw [hr], by rw [hr], by rw [hr], by rw [hr], fun _ => by rw [hr], h.reroute,
    fun he => (h.delivered he).1, fun he => by rw [hr]; exact he⟩

/-! ### Steady queues and counts -/

/-- From one state to another every queue keeps its entries, each related to what it was, and the counts of R142 and the
extent of the tally sets stand. -/
structure Steady (r : Entry → Entry → Prop) (s t : State) : Prop where
  track : ∀ k, trackOk (s.track.get k) = true → ∃ φ : Entry → Entry,
    t.track.get k = { s.track.get k with queue := (s.track.get k).queue.map φ } ∧
      ∀ e ∈ (s.track.get k).queue, r e (φ e)
  length : ∀ k, (t.tally.get k).length = (s.tally.get k).length
  tally : ∀ k i, i = 0 ∨ (93 ≤ i ∧ i ≤ 96) → (t.tally.get k).getD i 0 = (s.tally.get k).getD i 0

/-- The parts beside the track queues and the tally sets. -/
def offBooks (p : Part) : Prop := ∀ k, p ≠ .track k ∧ p ≠ .tally k

section
variable {r : Entry → Entry → Prop} {s t u : State}

theorem steady_of_eq (hr : EntryOrder r) (ht : ∀ k, t.track.get k = s.track.get k)
    (hn : ∀ k, t.tally.get k = s.tally.get k) : Steady r s t :=
  ⟨fun k _ => ⟨id, by simp [ht k], fun e _ => hr.refl e⟩, fun k => by rw [hn k], fun k i _ => by rw [hn k]⟩

theorem Steady.refl (hr : EntryOrder r) (s : State) : Steady r s s := steady_of_eq hr (fun _ => rfl) (fun _ => rfl)

theorem steady_of_only (hr : EntryOrder r) (h : Only offBooks s t) : Steady r s t :=
  steady_of_eq hr (fun k => h (.track k) (by simp [offBooks])) (fun k => h (.tally k) (by simp [offBooks]))

theorem Steady.trackOk (hr : EntryOrder r) (h : Steady r s t) {k : LaneId} (hk : trackOk (s.track.get k) = true) :
    trackOk (t.track.get k) = true := by
  obtain ⟨φ, ht, hφ⟩ := h.track k hk
  rw [ht]
  exact trackOk_map hk (fun e he => hr.serial _ _ (hφ e he))

theorem Steady.trans (hr : EntryOrder r) (h : Steady r s t) (k : Steady r t u) : Steady r s u where
  track l hl := by
    obtain ⟨φ, ht, hφ⟩ := h.track l hl
    obtain ⟨ψ, hu, hψ⟩ := k.track l (h.trackOk hr hl)
    refine ⟨ψ ∘ φ, by simp [hu, ht], fun e he => ?_⟩
    exact hr.trans _ _ _ (hφ e he) (hψ _ (by rw [ht]; exact List.mem_map_of_mem he))
  length l := (k.length l).trans (h.length l)
  tally l i hi := (k.tally l i hi).trans (h.tally l i hi)

theorem Steady.mono {q : Entry → Entry → Prop} (h : Steady r s t) (hq : ∀ e f, r e f → q e f) : Steady q s t :=
  ⟨fun k hk => (h.track k hk).imp (fun _ hφ => ⟨hφ.1, fun e he => hq _ _ (hφ.2 e he)⟩), h.length, h.tally⟩

theorem Steady.follows (h : Steady Advanced s t) : Steady Follows s t := h.mono (fun _ _ k => k.follows)

/-- What becomes of the entry with a serial. -/
theorem Steady.findEntry (hr : EntryOrder r) (h : Steady r s t) {l : LaneId} {n : Nat} {e : Entry}
    (hk : Machine.trackOk (s.track.get l) = true) (he : findEntry l n s = some e) :
    ∃ f, findEntry l n t = some f ∧ r e f := by
  obtain ⟨φ, ht, hφ⟩ := h.track l hk
  have hm := findEntry_mem he
  have hs := hr.serial _ _ (hφ e hm)
  rw [findEntry_serial he] at hs
  refine ⟨φ e, ?_, hφ e hm⟩
  rw [← hs]
  exact findEntry_of_mem (h.trackOk hr hk) (by rw [ht]; exact List.mem_map_of_mem hm)

theorem updEntry_track (l : LaneId) (n : Nat) (f : Entry → Entry) (s : State) :
    (updEntry l n f s).track.get l = { s.track.get l with
      queue := (s.track.get l).queue.map (fun e => if e.serial = n then f e else e) } := by
  simp [updEntry]

theorem updEntry_track_other {l k : LaneId} (n : Nat) (f : Entry → Entry) (s : State) (h : k ≠ l) :
    (updEntry l n f s).track.get k = s.track.get k := by
  simp [updEntry, PerLane.get_upd_other _ _ h]

/-- A change of one entry is steady when it relates the entry to what it becomes. -/
theorem updEntry_steady (hr : EntryOrder r) (l : LaneId) (n : Nat) (f : Entry → Entry) (s : State)
    (hf : trackOk (s.track.get l) = true → ∀ e, findEntry l n s = some e → r e (f e)) :
    Steady r s (updEntry l n f s) where
  track k hk := by
    by_cases hl : k = l
    · subst hl
      refine ⟨_, updEntry_track k n f s, fun e he => ?_⟩
      by_cases hn : e.serial = n
      · simp only [hn, if_true]
        exact hf hk e (by rw [← hn]; exact findEntry_of_mem hk he)
      · simp only [hn, if_false]
        exact hr.refl e
    · exact ⟨id, by simp [updEntry_track_other n f s hl], fun e _ => hr.refl e⟩
  length _ := rfl
  tally _ _ _ := rfl

end

/-! ### Counts -/

theorem countUp_track (l : LaneId) (c : Tally) (s : State) : (countUp l c s).track = s.track := by
  unfold countUp; split <;> rfl

theorem countUp_tally (l : LaneId) {c : Tally} {i : Nat} (s : State) (hi : tallyPlace c = some i) :
    (countUp l c s).tally.get l = (s.tally.get l).set i (satAdd32 ((s.tally.get l).getD i 0) 1) := by
  simp [countUp, hi]

theorem countUp_tally_other {l k : LaneId} (c : Tally) (s : State) (h : k ≠ l) :
    (countUp l c s).tally.get k = s.tally.get k := by
  unfold countUp
  split
  · rfl
  · exact PerLane.get_upd_other _ _ h

@[simp] theorem countUp_length (l k : LaneId) (c : Tally) (s : State) :
    ((countUp l c s).tally.get k).length = (s.tally.get k).length := by
  by_cases h : k = l
  · subst h
    unfold countUp
    split <;> simp
  · rw [countUp_tally_other c s h]

theorem getD_set_ne {v : List Nat} {i j x : Nat} (h : j ≠ i) : (v.set i x).getD j 0 = v.getD j 0 := by
  simp [List.getD_eq_getElem?_getD, List.getElem?_set_ne (Ne.symm h)]

/-- A count changes its own place alone. -/
theorem countUp_getD_other (l k : LaneId) {c : Tally} {i : Nat} (s : State) (h : tallyPlace c ≠ some i) :
    ((countUp l c s).tally.get k).getD i 0 = (s.tally.get k).getD i 0 := by
  by_cases hk : k = l
  · subst hk
    cases hc : tallyPlace c with
    | none => simp [countUp, hc]
    | some j =>
      rw [countUp_tally k s hc]
      exact getD_set_ne (fun e => h (by rw [hc, e]))
  · rw [countUp_tally_other c s hk]

/-- A count raises its own place by one. -/
theorem countUp_getD_self (l : LaneId) {c : Tally} {i : Nat} (s : State) (h : tallyPlace c = some i)
    (hl : i < (s.tally.get l).length) :
    ((countUp l c s).tally.get l).getD i 0 = satAdd32 ((s.tally.get l).getD i 0) 1 := by
  rw [countUp_tally l s h]
  simp [List.getD_eq_getElem?_getD, hl]

/-- A count that is neither ENTERED nor an outcome. -/
def offLedger (c : Tally) : Prop := ∀ i, tallyPlace c = some i → i ≠ 0 ∧ (i < 93 ∨ 96 < i)

theorem countUp_steady (l : LaneId) {c : Tally} (s : State) (h : offLedger c) : Steady Advanced s (countUp l c s) where
  track k _ := ⟨id, by simp [countUp_track], fun e _ => advanced_order.refl e⟩
  length k := countUp_length l k c s
  tally k i hi := countUp_getD_other l k s (fun e => by have := h i e; omega)

end Sys2Proof.Machine
end

