-- ==== Sys2Proof/Proofs/Steady.lean ====
section
/-! Gate work, prints, plans and deliveries are steady: they move no entry out of its queue and no count of R142. -/

namespace Sys2Proof.Machine

/-! ### Operations beside the queues and counts -/

variable {s t u : State}

/-- Steps that may change of an entry what a delivery or gate work may. -/
abbrev Calm (s t : State) : Prop := Steady Advanced s t

theorem Calm.refl (s : State) : Calm s s := Steady.refl advanced_order s

theorem Calm.trans (h : Calm s t) (k : Calm t u) : Calm s u := Steady.trans advanced_order h k

theorem calm_of_only (h : Only offBooks s t) : Calm s t := steady_of_only advanced_order h

theorem calm_ite {c : Prop} {_ : Decidable c} {a b : State} (ha : Calm s a) (hb : Calm s b) :
    Calm s (if c then a else b) := by
  split <;> assumption

theorem calm_foldl {α : Type} (f : State → α → State) (h : ∀ s x, Calm s (f s x)) (xs : List α) (s : State) :
    Calm s (xs.foldl f s) := by
  induction xs generalizing s with
  | nil => exact Calm.refl s
  | cons x xs ih => exact (h s x).trans (ih (f s x))

/-- Withdrawing or striking something from an entry's plan leaves everything else of it. -/
theorem strikeWindow_advanced (g : Gate) (e : Entry) : Advanced e (strikeWindow g e) :=
  ⟨rfl, fun _ => rfl, fun h => ⟨h, rfl, by simp [strikeWindow]⟩⟩

theorem printResult_advanced (e : Entry) (r : Option PrintResult) : Advanced e { e with printResult := r } :=
  ⟨rfl, fun _ => rfl, fun h => ⟨h, rfl, rfl⟩⟩

theorem updEntry_calm (l : LaneId) (n : Nat) (f : Entry → Entry) (s : State)
    (hf : ∀ e, findEntry l n s = some e → Advanced e (f e)) : Calm s (updEntry l n f s) :=
  updEntry_steady advanced_order l n f s (fun _ => hf)

/-! ### Gate work -/

theorem withdrawAt_calm (l : LaneId) (h : Side) (n : Nat) (s : State) : Calm s (withdrawAt l h n s) := by
  have hh : Calm s (updHead l h (fun d =>
      { d with prints := d.prints.filter (fun p => p.serial != n || p.state == .printing) }) s) :=
    calm_of_only (by apply updHead_only (h := only_refl _ _); simp [offBooks])
  exact calm_ite (hh.trans (updEntry_calm _ _ _ _ (fun e _ => printResult_advanced e none))) hh

theorem withdrawPrint_calm (l : LaneId) (n : Nat) (s : State) : Calm s (withdrawPrint l n s) :=
  (withdrawAt_calm l .near n s).trans (withdrawAt_calm l .far n _)

theorem emit_calm (c : EventCode) (l : Option LaneId) (j n a b : Nat) (s : State) : Calm s (emit c l j n a b s) :=
  calm_of_only (by apply emit_only (h := only_refl _ _) <;> simp [offBooks])

theorem rerouted_offLedger (c : RerouteCause) : offLedger (.rerouted c) := by
  cases c <;> simp [offLedger, tallyPlace, rerouteCode]

/-- A first cause is written to an entry that has none (R15). -/
theorem writeCause_calm (l : LaneId) (n : Nat) (c : RerouteCause) (j : Nat) (s : State)
    (hn : ∀ e, findEntry l n s = some e → e.reroute = none) : Calm s (writeCause l n c j s) := by
  have h1 : Calm s (updEntry l n (fun e => { e with reroute := some c }) s) :=
    updEntry_calm _ _ _ _ (fun e he => ⟨rfl, fun h => by simp [hn e he] at h, fun h => ⟨h, rfl, rfl⟩⟩)
  have h2 := (h1.trans (emit_calm (rerouteEvent c) (some l) j n 0 0 _)).trans
    (countUp_steady l (c := .rerouted c) _ (rerouted_offLedger c))
  unfold writeCause
  dsimp only
  split
  · exact h2
  · exact h2.trans (calm_of_only (by apply blockEvent_only (h := only_refl _ _); simp [offBooks]))

theorem updChannel_calm (l : LaneId) (g : Gate) (f : Channel → Channel) (s : State) : Calm s (updChannel l g f s) :=
  calm_of_only (by apply updChannel_only (h := only_refl _ _); simp [offBooks])

theorem updHead_calm (l : LaneId) (h : Side) (f : Head → Head) (s : State) : Calm s (updHead l h f s) :=
  calm_of_only (by apply updHead_only (h := only_refl _ _); simp [offBooks])

theorem dropHead_calm (l : LaneId) (g : Gate) (ns : List Nat) (s : State) : Calm s (dropHead l g ns s) :=
  (updChannel_calm l g _ s).trans
    (calm_foldl _ (fun u n => updEntry_calm l n _ u (fun e _ => strikeWindow_advanced g e)) ns _)

theorem onEvent_calm (l : LaneId) (g : Gate) (w : Window) (s : State) : Calm s (onEvent l g w s).1 := by
  unfold onEvent
  split
  · exact dropHead_calm l g w.items s
  · exact updChannel_calm l g _ s

theorem loadHead_calm (l : LaneId) (g : Gate) (s : State) : Calm s (loadHead l g s).1 := by
  unfold loadHead
  split
  · exact Calm.refl s
  · dsimp only
    split
    · exact Calm.refl s
    · split
      · exact updChannel_calm l g _ s
      · split
        · exact onEvent_calm l g _ s
        · exact dropHead_calm l g _ s

theorem removeWindow_calm (l : LaneId) (n : Nat) (g : Gate) (s : State) : Calm s (removeWindow l n g s).1 := by
  unfold removeWindow
  split
  · exact Calm.refl s
  · split
    · exact Calm.refl s
    · exact (updChannel_calm l g _ s).trans (updEntry_calm l n _ _ (fun e _ => strikeWindow_advanced g e))

theorem rerouteItem_calm (l : LaneId) (n : Nat) (c : RerouteCause) (j : Nat) (s : State) :
    Calm s (rerouteItem l n c j s).1 := by
  unfold rerouteItem
  split
  · exact Calm.refl s
  next e he =>
    dsimp only
    split
    · exact calm_of_only (by apply secondCause_only (h := only_refl _ _) <;> simp [offBooks])
    next hn =>
      refine writeCause_calm l n c j s (fun x hx => ?_)
      rw [he] at hx
      cases hx
      simpa using hn

theorem releaseReservation_calm (l : LaneId) (n : Nat) (s : State) : Calm s (releaseReservation l n s) :=
  calm_of_only (by apply releaseReservation_only (h := only_refl _ _) <;> simp [offBooks])

theorem oneWork_calm (l : LaneId) (w : GateWork) (s : State) : Calm s (oneWork l w s).1 := by
  cases w with
  | load g => exact loadHead_calm l g s
  | reroute n c j => exact rerouteItem_calm l n c j s
  | remove n g => exact removeWindow_calm l n g s
  | release n => exact (withdrawPrint_calm l n s).trans (releaseReservation_calm l n _)

theorem runWork_calm (l : LaneId) (n : Nat) (ws : List GateWork) (s : State) : Calm s (runWork l n ws s) := by
  induction n generalizing ws s with
  | zero => exact Calm.refl s
  | succ n ih =>
    cases ws with
    | nil => exact Calm.refl s
    | cons w ws => exact (oneWork_calm l w s).trans (ih _ _)

theorem gateWork_calm (l : LaneId) (ws : List GateWork) (s : State) : Calm s (gateWork l ws s) :=
  runWork_calm l workBound ws s

theorem purgeWindows_calm (l : LaneId) (e : Entry) (s : State) : Calm s (purgeWindows l e s) :=
  calm_foldl _ (fun u g => removeWindow_calm l e.serial g u) _ s

theorem closeHead_calm (l : LaneId) (g : Gate) (w : Window) (off : Pos) (s : State) : Calm s (closeHead l g w off s) :=
  (updChannel_calm l g _ s).trans (gateWork_calm l _ _)

/-! ### Plans and deliveries -/

theorem verdict_offLedger (k : VerdictKind) : offLedger (.verdict k) := by
  cases k <;> simp [offLedger, tallyPlace]

theorem presentation_offLedger (p : Presentation) : offLedger (.presentation p) := by
  cases p <;> simp [offLedger, tallyPlace, presentationCode]

theorem cls_offLedger (n : Nat) : offLedger (.cls n) := by
  intro i hi
  simp only [tallyPlace] at hi
  split at hi
  · cases hi; omega
  · cases hi

theorem countVerdict_calm (l : LaneId) (v : Verdict) (s : State) : Calm s (countVerdict l v s) := by
  have h1 := countUp_steady l (c := .verdict v.kind) s (verdict_offLedger v.kind)
  unfold countVerdict
  dsimp only
  split
  · exact h1
  next i _ =>
    exact (h1.trans advanced_order (countUp_steady l _ (presentation_offLedger i.presentation))).trans advanced_order
      (countUp_steady l _ (cls_offLedger i.classIndex))

theorem countBlock_calm (l : LaneId) (a : AttrId) (s : State) : Calm s (countBlock l a s) :=
  calm_of_only (by apply countBlock_only (h := only_refl _ _) <;> simp [offBooks])

theorem planVerdict_calm (l : LaneId) (e : Entry) (v : Verdict) (s : State) : Calm s (planVerdict l e v s).1 :=
  calm_of_only (by apply planVerdict_only (h := only_refl _ _) <;> simp [offBooks])

theorem findEntry_congr {l : LaneId} (n : Nat) (h : t.track.get l = s.track.get l) :
    findEntry l n t = findEntry l n s := by
  unfold findEntry; rw [h]

theorem planVerdict_track (l k : LaneId) (e : Entry) (v : Verdict) (s : State) :
    (planVerdict l e v s).1.track.get k = s.track.get k := by
  have h : Only offBooks s (planVerdict l e v s).1 := by
    apply planVerdict_only (h := only_refl _ _) <;> simp [offBooks]
  exact h (.track k) (by simp [offBooks])

/-- A delivery of an entry that was not delivered yet (R14). -/
theorem deliver_calm (l : LaneId) (e : Entry) (v : Verdict) (s : State)
    (hd : trackOk (s.track.get l) = true → ∀ x, findEntry l e.serial s = some x → x.delivered = false) :
    Calm s (deliver l e v s) := by
  have hp := planVerdict_calm l e v s
  have ht := planVerdict_track l l e v s
  unfold deliver
  dsimp only
  refine (hp.trans (updEntry_steady advanced_order l e.serial _ _ (fun hk x hx => ?_))).trans
    (((countVerdict_calm l v _).trans ((countBlock_calm l .flipAccuracy _).trans
      (countBlock_calm l .bankAccuracy _))).trans (gateWork_calm l _ _))
  rw [findEntry_congr _ ht] at hx
  rw [ht] at hk
  exact ⟨rfl, fun _ => rfl, fun h => by rw [hd hk x hx] at h; cases h⟩

/-- The oldest entry that waits for its delivery is not delivered, and is found by its serial. -/
theorem findEntry_waiting {l : LaneId} {s : State} {e : Entry} (hk : trackOk (s.track.get l) = true)
    (he : (s.track.get l).queue.find? (fun e => !e.delivered) = some e) :
    findEntry l e.serial s = some e ∧ e.delivered = false :=
  ⟨findEntry_of_mem hk (List.mem_of_find?_eq_some he), by simpa using List.find?_some he⟩

theorem deliverRun_calm (l : LaneId) (n : Nat) (s : State) : Calm s (deliverRun l n s) := by
  induction n generalizing s with
  | zero => exact Calm.refl s
  | succ n ih =>
    unfold deliverRun
    split
    · exact Calm.refl s
    next e he =>
      split
      · exact Calm.refl s
      next v _ =>
        refine (deliver_calm l e v s (fun hk x hx => ?_)).trans (ih _)
        obtain ⟨hf, hd⟩ := findEntry_waiting hk he
        rw [hf] at hx
        cases hx
        exact hd

theorem deliverAll_calm (l : LaneId) (s : State) : Calm s (deliverAll l s) := deliverRun_calm l _ s

/-- With the oldest waiting entry without a verdict nothing is delivered (R14). -/
theorem deliverAll_of_none {l : LaneId} {s : State}
    (h : ∀ e ∈ (s.track.get l).queue, e.delivered = true ∨ e.verdict = none) : deliverAll l s = s := by
  unfold deliverAll
  cases (s.track.get l).queue.length with
  | zero => rfl
  | succ n =>
    unfold deliverRun
    split
    · rfl
    next e he =>
      have hd : e.delivered = false := by simpa using List.find?_some he
      have hv : e.verdict = none := by
        have := h e (List.mem_of_find?_eq_some he)
        simpa [hd] using this
      simp [hv]

/-! ### Prints -/

theorem print_offLedger (c : PrintCount) : offLedger (.print c) := by
  cases c <;> simp [offLedger, tallyPlace]

theorem uncancelled_offLedger (c : UncancelledCause) : offLedger (.uncancelled c) := by
  cases c <;> simp [offLedger, tallyPlace, uncancelledCode]

theorem verifyMiss_calm (l : LaneId) (s : State) : Calm s (verifyMiss l s) :=
  countUp_steady l s (by simp [offLedger, tallyPlace])

theorem enterVerify_calm (l : LaneId) (h : Side) (p : Pos) (s : State) : Calm s (enterVerify l h p s) :=
  calm_ite (updHead_calm l h _ s) ((updHead_calm l h _ s).trans (verifyMiss_calm l _))

theorem writePrinted_calm (l : LaneId) (p : Print) (b : Bool) (c : PrintCount) (s : State) :
    Calm s (writePrinted l p b c s) :=
  updEntry_calm _ _ _ _ (fun e _ => printResult_advanced e _)

theorem endPrint_calm (l : LaneId) (h : Side) (p : Print) (b : Bool) (s : State) : Calm s (endPrint l h p b s) := by
  have h1 := updHead_calm l h (removePrint p.serial) s
  unfold endPrint
  dsimp only
  split
  · exact h1
  next q _ =>
    have h2 := h1.trans (updHead_calm l h (emptyWaiting q.1) _)
    exact ((calm_ite h2 (h2.trans (enterVerify_calm l h _ _))).trans (writePrinted_calm l p b q.2 _)).trans
      (countUp_steady l _ (print_offLedger q.2))

theorem clipPrint_calm (l : LaneId) (h : Side) (s : State) : Calm s (clipPrint l h s) := by
  unfold clipPrint
  split
  · exact Calm.refl s
  · exact endPrint_calm l h _ true s

theorem releaseAt_calm (l : LaneId) (q : Pocket) (n : Nat) (s : State) : Calm s (releaseAt l q n s) :=
  calm_of_only (by apply releaseAt_only (h := only_refl _ _) <;> simp [offBooks])

theorem sendToEnd_calm (l : LaneId) (n : Nat) (s : State) : Calm s (sendToEnd l n s) := by
  unfold sendToEnd
  split
  · exact Calm.refl s
  · split
    · exact Calm.refl s
    · split
      · exact Calm.refl s
      next g _ =>
        split
        · have hw := gateWork_calm l [.remove n g] s
          dsimp only
          split
          · exact hw
          · exact calm_ite hw (hw.trans (releaseAt_calm l _ n _))
        · exact Calm.refl s

theorem refusePrint_calm (l : LaneId) (h : Side) (n : Nat) (c : UncancelledCause) (s : State) :
    Calm s (refusePrint l h n c s) :=
  (((updHead_calm l h _ s).trans (updEntry_calm l n _ _ (fun e _ => printResult_advanced e _))).trans
    (countUp_steady l _ (uncancelled_offLedger c))).trans (sendToEnd_calm l n _)

theorem releasePrint_calm (l : LaneId) (h : Side) (n : Nat) (p : Pos) (s : State) :
    Calm s (releasePrint l h n p s) := by
  unfold releasePrint
  split
  · exact Calm.refl s
  · split
    · exact refusePrint_calm l h n _ s
    · split
      · exact refusePrint_calm l h n _ s
      · exact (updHead_calm l h _ s).trans (writePrinted_calm l _ _ _ _)

theorem endEarlier_calm (l : LaneId) (h : Side) (s : State) : Calm s (endEarlier l h s) := by
  unfold endEarlier
  split
  · exact Calm.refl s
  · exact endPrint_calm l h _ _ s

theorem beginPrint_calm (l : LaneId) (h : Side) (p : Print) (i : Fin 2) (c : PrintCount) (s : State) :
    Calm s (beginPrint l h p i c s) := by
  have h1 := (updHead_calm l h (fun d => { d with prints := d.prints.map (fun x =>
    if x.serial = p.serial then { p with state := .printing, image := some (i, c) } else x) }) s).trans
      (writePrinted_calm l p p.clipped c _)
  exact calm_ite (h1.trans (endPrint_calm l h _ _ _)) h1

theorem startPrint_calm (l : LaneId) (h : Side) (p : Print) (s : State) : Calm s (startPrint l h p s) := by
  have he := endEarlier_calm l h s
  unfold startPrint
  dsimp only
  split
  · exact he.trans (refusePrint_calm l h _ _ _)
  · split
    · exact he.trans (refusePrint_calm l h _ _ _)
    · split
      · exact he.trans (refusePrint_calm l h _ _ _)
      · exact he.trans (beginPrint_calm l h p _ _ _)

theorem compareVerify_calm (l : LaneId) (h : Side) (p : Pos) (s : State) : Calm s (compareVerify l h p s) := by
  unfold compareVerify
  split
  · exact verifyMiss_calm l s
  · refine calm_ite (calm_of_only ?_) (verifyMiss_calm l s)
    apply trimTest_only
    · apply updHead_only (h := only_refl _ _); simp [offBooks]
    all_goals simp [offBooks]

/-! ### Records, jams and pockets -/

/-- A record counts at most UNJOURNALLED. -/
theorem recordWithoutPage_calm (r : Rec) (s : State) : Calm s (recordWithoutPage r s) := by
  cases r with
  | item l _ _ =>
    refine Calm.trans (calm_of_only ?_) (countUp_steady l (c := .unjournalled) _ (by simp [offLedger, tallyPlace]))
    apply updJrn_only (h := only_refl _ _)
    simp [offBooks]
  | event e =>
    refine calm_of_only ?_
    apply updJrn_only (h := only_refl _ _)
    simp [offBooks]

theorem placeRecord_calm (r : Rec) (s : State) : Calm s (placeRecord r s) := by
  have hc : Calm s (closePage .full s) :=
    calm_of_only (by apply closePage_only (h := only_refl _ _) <;> simp [offBooks])
  have ha : ∀ u, Calm u (appendRecord r u) := fun u =>
    calm_of_only (by apply appendRecord_only (h := only_refl _ _); simp [offBooks])
  unfold placeRecord
  split
  · exact recordWithoutPage_calm r s
  · refine calm_ite (ha s) ?_
    dsimp only
    split
    · exact hc.trans (recordWithoutPage_calm r _)
    · exact hc.trans (ha _)

theorem stopLane_calm (l : LaneId) (s : State) : Calm s (stopLane l s) := by
  have h1 : Calm s (gatesOff l (setLane l .stopped s)) := calm_of_only (by
    apply gatesOff_only
    · apply setLane_only (h := only_refl _ _) <;> simp [offBooks]
    all_goals simp [offBooks])
  have h2 := (h1.trans (clipPrint_calm l .near _)).trans (clipPrint_calm l .far _)
  unfold stopLane
  dsimp only
  refine h2.trans (calm_of_only ?_)
  apply laneEvent_only
  · apply raise_only
    · apply endLaneTest_only
      · apply dropWarming_only
        · apply endPending_only (h := only_refl _ _) <;> simp [offBooks]
        all_goals simp [offBooks]
      all_goals simp [offBooks]
    all_goals simp [offBooks]
  all_goals simp [offBooks]

theorem jam_calm (l : LaneId) (y : Eye) (c : Nat) (s : State) : Calm s (jam l y c s) :=
  calm_ite ((emit_calm _ _ _ _ _ _ s).trans (stopLane_calm l _)) (emit_calm _ _ _ _ _ _ s)

theorem phantom_calm (l : LaneId) (y : Eye) (p : Pos) (s : State) : Calm s (phantom l y p s) := by
  have h1 := (emit_calm .phantom (some l) (eyeCode y).val 0 p.toNat 0 s).trans
    (countUp_steady l (c := .phantoms) _ (by simp [offLedger, tallyPlace]))
  exact h1.trans (calm_of_only (by apply blockEvent_only (h := only_refl _ _); simp [offBooks]))

theorem pocket_offLedger (q : Pocket) : offLedger (.pocket q) := by
  cases q <;> simp [offLedger, tallyPlace, pocketCode]

theorem gatedArrival_calm (l : LaneId) (q : Pocket) (n : Nat) (s : State) : Calm s (gatedArrival l q n s) := by
  unfold gatedArrival
  dsimp only
  have hu : ∀ f, Calm s (updPocket l q f s) := fun f =>
    calm_of_only (by apply updPocket_only (h := only_refl _ _); simp [offBooks])
  have hd : ∀ u, Calm u (drainedTest l q (followWarn l q (fullTest l q u))) := fun u => calm_of_only (by
    apply drainedTest_only
    · apply followWarn_only
      · apply fullTest_only (h := only_refl _ _) <;> simp [offBooks]
      all_goals simp [offBooks]
    all_goals simp [offBooks])
  refine Calm.trans (Calm.trans ?_ (countUp_steady l _ (pocket_offLedger q))) (hd _)
  exact calm_ite ((hu _).trans (emit_calm _ _ _ _ _ _ _)) (hu _)

theorem endArrival_calm (l : LaneId) (q : Pocket) (n : Nat) (s : State) : Calm s (endArrival l q n s) := by
  unfold endArrival
  dsimp only
  refine calm_ite ((emit_calm _ _ _ _ _ _ s).trans (countUp_steady l _ (pocket_offLedger q))) ?_
  have hu : Calm s (updPocket l q (fun r => { r with fill := min (r.fill + 1) 65535 }) s) :=
    calm_of_only (by apply updPocket_only (h := only_refl _ _); simp [offBooks])
  refine (hu.trans (countUp_steady l _ (pocket_offLedger q))).trans (calm_of_only ?_)
  apply endReached_only
  · apply followWarn_only (h := only_refl _ _) <;> simp [offBooks]
  all_goals simp [offBooks]

theorem pocketArrival_calm (l : LaneId) (q : Pocket) (n : Nat) (s : State) : Calm s (pocketArrival l q n s) :=
  calm_ite (gatedArrival_calm l q n s) (endArrival_calm l q n s)

theorem sendOn_calm (l : LaneId) (q : Pocket) (g : Gate) (n : Nat) (s : State) : Calm s (sendOn l q g n s) := by
  unfold sendOn
  split
  · exact Calm.refl s
  · split
    · have hw := gateWork_calm l [.remove n g] s
      dsimp only
      split
      · exact hw
      · exact calm_ite hw ((hw.trans (releaseAt_calm l q n _)).trans (emit_calm _ _ _ _ _ _ _))
    · exact Calm.refl s

theorem trayOut_calm (l : LaneId) (q : Pocket) (s : State) : Calm s (trayOut l q s) := by
  have h1 : ∀ f, Calm s (setPocketState l q .out (updPocket l q f s)) := fun f => calm_of_only (by
    apply setPocketState_only
    · apply updPocket_only (h := only_refl _ _); simp [offBooks]
    all_goals simp [offBooks])
  unfold trayOut
  dsimp only
  have h2 := (h1 (fun r => { r with tray := false, staysDisabled := r.staysDisabled || r.state == .disabled })).trans
    (emit_calm .trayOut (some l) (pocketCode q).val 0 (pocketStateCode (pocketRec l q s).state) 0 _)
  split
  · exact h2
  · exact calm_ite h2 (h2.trans (calm_foldl _ (fun u n => sendOn_calm l q _ n u) _ _))

/-! ### Pages written out -/

theorem countLost_calm (p : Page) (s : State) : Calm s (countLost p s) := by
  refine calm_foldl _ (fun u r => ?_) p.recs s
  have hj : ∀ f, Calm u (updJrn f u) := fun f =>
    calm_of_only (by apply updJrn_only (h := only_refl _ _); simp [offBooks])
  cases r with
  | item l _ _ => exact (hj _).trans (countUp_steady l (c := .unjournalled) _ (by simp [offLedger, tallyPlace]))
  | event _ => exact hj _

theorem writeOutPage_calm (c : ClosedPage) (s : State) : Calm s (writeOutPage c s) := by
  have hw : ∀ a bs u, Calm u (writeBytes a bs u) := fun a bs u =>
    calm_of_only (by apply writeBytes_only (h := only_refl _ _); simp [offBooks])
  have hf : ∀ u, Calm u (countFilled u) := fun u =>
    calm_of_only (by apply countFilled_only (h := only_refl _ _); simp [offBooks])
  have hr : ∀ u, Calm u (raise .pageFilled u) := fun u =>
    calm_of_only (by apply raise_only (h := only_refl _ _); simp [offBooks])
  have hv : ∀ u, Calm u (windowFault none .journalWrite c.page.addr (takePage u)) := fun u => calm_of_only (by
    apply windowFault_only
    · apply takePage_only (h := only_refl _ _) <;> simp [offBooks]
    all_goals simp [offBooks])
  have he : ∀ u, Calm u (finishFlush c.page.seq (takePage u)) := fun u => calm_of_only (by
    apply finishFlush_only
    · apply takePage_only (h := only_refl _ _) <;> simp [offBooks]
    all_goals simp [offBooks])
  refine Calm.trans ?_ (he _)
  exact calm_ite ((((hw _ _ s).trans (hw _ _ _)).trans (hf _)).trans (hr _))
    (((countLost_calm c.page s).trans (hf _)).trans (hv _))

end Sys2Proof.Machine
end

