-- ==== Sys2Proof/Proofs/Lasting.lean ====
section
/-! Verdicts, samples, edges and position events keep what stands of an entry (`Follows`). -/

namespace Sys2Proof.Machine

variable {s t u : State}

/-- Steps that keep what stands of each entry, and the counts of R142. -/
abbrev Lasting (s t : State) : Prop := Steady Follows s t

theorem Lasting.refl (s : State) : Lasting s s := Steady.refl follows_order s

theorem Lasting.trans (h : Lasting s t) (k : Lasting t u) : Lasting s u := Steady.trans follows_order h k

theorem Lasting.calm (h : Lasting s t) (k : Calm t u) : Lasting s u := h.trans k.follows

theorem lasting_of_only (h : Only offBooks s t) : Lasting s t := steady_of_only follows_order h

theorem lasting_ite {c : Prop} {_ : Decidable c} {a b : State} (ha : Lasting s a) (hb : Lasting s b) :
    Lasting s (if c then a else b) := by
  split <;> assumption

theorem lasting_foldl {α : Type} (f : State → α → State) (h : ∀ s x, Lasting s (f s x)) (xs : List α) (s : State) :
    Lasting s (xs.foldl f s) := by
  induction xs generalizing s with
  | nil => exact Lasting.refl s
  | cons x xs ih => exact (h s x).trans (ih (f s x))

theorem updEntry_lasting (l : LaneId) (n : Nat) (f : Entry → Entry) (s : State)
    (hf : ∀ e, findEntry l n s = some e → Follows e (f e)) : Lasting s (updEntry l n f s) :=
  updEntry_steady follows_order l n f s (fun _ => hf)

/-! ### Entries found after a change -/

theorem findEntry_updEntry (l : LaneId) (n : Nat) (f : Entry → Entry) (s : State)
    (hf : ∀ e, (f e).serial = e.serial) : findEntry l n (updEntry l n f s) = (findEntry l n s).map f := by
  unfold findEntry
  rw [updEntry_track]
  dsimp only
  induction (s.track.get l).queue with
  | nil => rfl
  | cons e q ih =>
    by_cases h : e.serial = n
    · simp [h, hf]
    · simp [h]
      simpa using ih

theorem findEntry_updEntry_other (l : LaneId) {m n : Nat} (f : Entry → Entry) (s : State)
    (hf : ∀ e, (f e).serial = e.serial) (h : m ≠ n) : findEntry l m (updEntry l n f s) = findEntry l m s := by
  unfold findEntry
  rw [updEntry_track]
  dsimp only
  induction (s.track.get l).queue with
  | nil => rfl
  | cons e q ih =>
    by_cases he : e.serial = n
    · simp only [List.map_cons, he, if_true, List.find?_cons, hf]
      simp only [beq_eq_false_iff_ne.mpr (Ne.symm h)]
      exact ih
    · simp only [List.map_cons, he, if_false, List.find?_cons]
      rw [ih]

/-- R13: the entry after a verdict is given to it. -/
def given (v : Verdict) (e : Entry) : Entry :=
  if e.verdict.isSome then e
  else { e with
    verdict := some v, stage := if e.stage = .entering ∨ e.stage = .scanning then .queued else e.stage }

theorem given_rest (v : Verdict) (e : Entry) :
    given v e = { e with verdict := some (e.verdict.getD v), stage := (given v e).stage } := by
  unfold given
  by_cases h : e.verdict.isSome = true
  · obtain ⟨w, hw⟩ := Option.isSome_iff_exists.mp h
    have hv : some (e.verdict.getD v) = e.verdict := by simp [hw]
    simp only [h, if_true, hv]
  · have hv : e.verdict = none := by simpa using h
    simp [hv]

theorem given_verdict (v : Verdict) (e : Entry) : (given v e).verdict = some (e.verdict.getD v) := by
  rw [given_rest]

theorem findEntry_discardTrace (l : LaneId) (m n : Nat) (s : State) :
    findEntry l m (discardTrace l n s) = findEntry l m s := rfl

/-- R13: what becomes of the entry that a verdict is given to. -/
theorem findEntry_giveVerdict (l : LaneId) (n : Nat) (v : Verdict) (s : State) :
    findEntry l n (giveVerdict l n v s) = (findEntry l n s).map (given v) := by
  unfold giveVerdict
  split
  next h => simp [h]
  next e h =>
    split
    next hv => simp [h, given, hv]
    next hv =>
      split
      next hs =>
        rw [findEntry_discardTrace, findEntry_updEntry, h]
        · simp [given, hv, hs]
        · exact fun _ => rfl
      next hs =>
        rw [findEntry_updEntry, h]
        · simp [given, hv, hs]
        · exact fun _ => rfl

theorem discardTrace_lasting (l : LaneId) (n : Nat) (s : State) : Lasting s (discardTrace l n s) :=
  lasting_of_only (by apply discardTrace_only (h := only_refl _ _); simp [offBooks])

theorem giveVerdict_lasting (l : LaneId) (n : Nat) (v : Verdict) (s : State) : Lasting s (giveVerdict l n v s) := by
  unfold giveVerdict
  split
  · exact Lasting.refl s
  next e he =>
    have hf : ∀ f : Entry → Entry, (∀ x, (f x).serial = x.serial ∧ (f x).leadE = x.leadE ∧
        (f x).scanStart = x.scanStart ∧ (f x).gapBefore = x.gapBefore ∧ (f x).reroute = x.reroute ∧
        (f x).delivered = x.delivered ∧ (f x).seenAtT = x.seenAtT) → e.verdict = none →
        Lasting s (updEntry l n f s) := by
      intro f hf hv
      refine updEntry_lasting l n f s (fun x hx => ?_)
      obtain ⟨h1, h2, h3, h4, h5, h6, h7⟩ := hf x
      rw [he] at hx
      cases hx
      exact ⟨h1, h2, h3, h4, fun h => by simp [hv] at h, fun _ => h5, fun h => h6.trans h, fun h => h7.trans h⟩
    split
    · exact Lasting.refl s
    next hv =>
      have hv : e.verdict = none := by simpa using hv
      split
      · refine Lasting.trans (hf _ ?_ hv) (discardTrace_lasting l n _)
        exact fun _ => ⟨rfl, rfl, rfl, rfl, rfl, rfl, rfl⟩
      · exact hf _ (fun _ => ⟨rfl, rfl, rfl, rfl, rfl, rfl, rfl⟩) hv

theorem deliverAll_lasting (l : LaneId) (s : State) : Lasting s (deliverAll l s) := (deliverAll_calm l s).follows

/-! ### The scorer and the samples -/

theorem returnVerdict_lasting (l : LaneId) (n : Nat) (v : Verdict) (s : State) :
    Lasting s (returnVerdict l n v s) := by
  have hr : ∀ u, Lasting u (reportVerdict l v.kind u) := fun u =>
    lasting_of_only (by apply reportVerdict_only (h := only_refl _ _) <;> simp [offBooks])
  exact ((giveVerdict_lasting l n v s).trans (deliverAll_lasting l _)).trans (hr _)

theorem updMsc_lasting (f : Msc → Msc) (s : State) : Lasting s (updMsc f s) :=
  lasting_of_only (by apply updMsc_only (h := only_refl _ _); simp [offBooks])

theorem takeJobs_lasting (n : Nat) (s : State) : Lasting s (takeJobs n s) := by
  induction n generalizing s with
  | zero => exact Lasting.refl s
  | succ n ih =>
    unfold takeJobs
    split
    · split
      · exact ((updMsc_lasting _ s).trans (returnVerdict_lasting _ _ _ _)).trans (ih _)
      · exact updMsc_lasting _ s
    · exact Lasting.refl s

theorem takeJob_lasting (s : State) : Lasting s (takeJob s) := takeJobs_lasting _ s

theorem postJob_lasting (l : LaneId) (e : Entry) (tr : List (List Nat)) (s : State) :
    Lasting s (postJob l e tr s) :=
  lasting_ite ((updMsc_lasting _ s).trans (takeJob_lasting _)) (returnVerdict_lasting l _ _ s)

theorem completeJob_lasting (s : State) : Lasting s (completeJob s) := by
  unfold completeJob
  split
  · exact ((updMsc_lasting _ s).trans (returnVerdict_lasting _ _ _ _)).trans (takeJob_lasting _)
  · exact Lasting.refl s

theorem stage_follows (e : Entry) (g : Stage) : Follows e { e with stage := g } :=
  ⟨rfl, rfl, rfl, rfl, fun _ => rfl, fun _ => rfl, id, id⟩

theorem addSample_lasting (l : LaneId) (n : Nat) (row : List Nat) (s : State) : Lasting s (addSample l n row s) :=
  lasting_of_only (by apply addSample_only (h := only_refl _ _); simp [offBooks])

theorem missSample_lasting (l : LaneId) (e : Entry) (s : State) : Lasting s (missSample l e s) := by
  have hd : Lasting s { s with freeCount := s.freeCount + 12 } := steady_of_eq follows_order (fun _ => rfl) (fun _ => rfl)
  exact (hd.trans (updEntry_lasting l e.serial _ _ (fun x _ => stage_follows x _))).trans (addSample_lasting _ _ _ _)

theorem keepSample_lasting (l : LaneId) (e : Entry) (r : List (BitVec 12)) (s : State) :
    Lasting s (keepSample l e r s) := by
  have h1 := (updEntry_lasting l e.serial (fun x => { x with stage := .scanning }) s
    (fun x _ => stage_follows x _)).trans (addSample_lasting l e.serial (calibrateAll (s.sfe.get l).pairs r) _)
  refine lasting_ite (((h1.trans (updEntry_lasting l e.serial _ _ (fun x _ => stage_follows x _))).trans
    (discardTrace_lasting _ _ _)).trans (postJob_lasting _ _ _ _)) h1

theorem takeSample_lasting (l : LaneId) (e : Entry) (r : List (BitVec 12)) (s : State) :
    Lasting s (takeSample l e r s) :=
  lasting_ite (missSample_lasting l e s) (keepSample_lasting l e r s)

/-! ### Edges and position events -/

/-- A change of every entry of a queue. -/
theorem mapQueue_lasting (l : LaneId) (f : Entry → Entry) (s : State) (hf : ∀ e, Follows e (f e)) :
    Lasting s (updTrack l (fun t => { t with queue := t.queue.map f }) s) where
  track k _ := by
    by_cases h : k = l
    · subst h
      exact ⟨f, by simp, fun e _ => hf e⟩
    · exact ⟨id, by simp [PerLane.get_upd_other _ _ h], fun e _ => follows_order.refl e⟩
  length _ := rfl
  tally _ _ _ := rfl

theorem flipReached_follows (c : Entry → Bool) (e : Entry) :
    Follows e (if c e = true then { e with flipReached := true } else e) := by
  split
  · exact ⟨rfl, rfl, rfl, rfl, fun _ => rfl, fun _ => rfl, id, id⟩
  · exact follows_order.refl e

/-- The belt part of an encoder count; the entries' part follows it. -/
theorem countBelt_lasting (l : LaneId) (f : Bool) (s : State) : Lasting s (countBelt l f s) := by
  have h1 : ∀ g, Lasting s (updBelt l g s) := fun g =>
    lasting_of_only (by apply updBelt_only (h := only_refl _ _); simp [offBooks])
  have h2 : ∀ (g : EyeState → EyeState) (u : State), Lasting u (allEyes.foldl (fun s y => updEye l y g s) u) :=
    fun g u => lasting_foldl _ (fun v y =>
      lasting_of_only (by apply updEye_only (h := only_refl _ _); simp [offBooks])) _ u
  have h3 : ∀ (c : Bool) (g : Belt → Belt) (q : EyeState → EyeState), Lasting s
      (if c = true then allEyes.foldl (fun s y => updEye l y q s) (updBelt l g s) else updBelt l g s) :=
    fun _ g q => lasting_ite ((h1 g).trans (h2 q _)) (h1 g)
  refine lasting_ite (Lasting.trans (h3 _ _ _) (mapQueue_lasting l _ _ (flipReached_follows _))) (h3 _ _ _)

theorem creationVerdicts_lasting (l : LaneId) (n : Nat) (p g : Option Nat) (s : State) :
    Lasting s (creationVerdicts l n p g s) := by
  have h1 : ∀ (c : Bool) (u : State), Lasting s u →
      Lasting s (if c = true then giveVerdict l n (plainVerdict .shingled) u else s) :=
    fun _ u hu => lasting_ite (hu.trans (giveVerdict_lasting l n _ u)) (Lasting.refl s)
  cases p with
  | none =>
    have h2 := fun c => h1 c s (Lasting.refl s)
    exact lasting_ite (h2 _) ((h2 _).trans (giveVerdict_lasting l n _ _))
  | some p =>
    have h2 := fun c => h1 c _ (giveVerdict_lasting l p (plainVerdict .shingled) s)
    exact lasting_ite (h2 _) ((h2 _).trans (giveVerdict_lasting l n _ _))

theorem untrackedArrival_lasting (l : LaneId) (p : Pos) (s : State) : Lasting s (untrackedArrival l p s) := by
  have hh : ∀ u, Lasting u (setHold l .queueFull true u) := fun u =>
    lasting_of_only (by apply setHold_only (h := only_refl _ _) <;> simp [offBooks])
  exact Lasting.trans (Calm.trans (countUp_steady l (c := .untracked) s (by simp [offLedger, tallyPlace]))
    (emit_calm _ _ _ _ _ _ _)).follows (hh _)

theorem lengthCheck_lasting (l : LaneId) (e : Entry) (p : Pos) (s : State) : Lasting s (lengthCheck l e p s) := by
  have h1 := updEntry_lasting l e.serial (fun x => { x with trailE := some p, length := some (dist p e.leadE / 4) }) s
    (fun x _ => ⟨rfl, rfl, rfl, rfl, fun _ => rfl, fun _ => rfl, id, id⟩)
  exact lasting_ite (h1.trans (giveVerdict_lasting _ _ _ _)) (lasting_ite (h1.trans (giveVerdict_lasting _ _ _ _)) h1)

/-- R14: the forced delivery of an entry that was not delivered. -/
theorem forceDelivery_lasting (l : LaneId) (e : Entry) (s : State) (he : findEntry l e.serial s = some e)
    (hd : e.delivered = false) : Lasting s (forceDelivery l e s) := by
  have h1 := giveVerdict_lasting l e.serial (plainVerdict .late) s
  have hx := findEntry_giveVerdict l e.serial (plainVerdict .late) s
  rw [he] at hx
  unfold forceDelivery
  simp only [hx, Option.map_some, given_verdict]
  refine (h1.calm (deliver_calm l _ _ _ (fun _ y hy => ?_))).calm (deliverAll_calm l _)
  rw [given_rest] at hy
  rw [hx] at hy
  cases hy
  rw [given_rest]
  exact hd

theorem passCancelWindow_lasting (l : LaneId) (h : Side) (e : Entry) (s : State) :
    Lasting s (passCancelWindow l h e s) := by
  have h1 := updEntry_lasting l e.serial (fun x =>
    { x with cancelPassed := x.cancelPassed.upd h (fun _ => true) }) s
      (fun x _ => ⟨rfl, rfl, rfl, rfl, fun _ => rfl, fun _ => rfl, id, id⟩)
  exact lasting_ite h1 (h1.calm (withdrawAt_calm l h e.serial _))

theorem rerouteAtEye_calm (l : LaneId) (n : Nat) (c : RerouteCause) (y : Eye) (s : State) :
    Calm s (rerouteAtEye l n c y s) := gateWork_calm l _ s

theorem arriveT_lasting (l : LaneId) (p : Pos) (s : State) : Lasting s (arriveT l p s) := by
  unfold arriveT
  split
  · exact (phantom_calm l .t p s).follows
  next e _ =>
    have h1 := updEntry_lasting l e.serial (fun x => { x with seenAtT := true }) s
      (fun x _ => ⟨rfl, rfl, rfl, rfl, fun _ => rfl, fun _ => rfl, id, fun _ => rfl⟩)
    exact lasting_ite h1 (h1.calm (rerouteAtEye_calm l _ _ _ _))

theorem misbankEvent_calm (l : LaneId) (y : Eye) (n : Nat) (s : State) : Calm s (misbankEvent l y n s) :=
  emit_calm _ _ _ _ _ _ s

theorem checkBank_calm (l : LaneId) (h : Side) (e : Entry) (s : State) : Calm s (checkBank l h e s) := by
  have hr := fun c => rerouteAtEye_calm l e.serial c (cancelEyeOf h) s
  unfold checkBank
  dsimp only
  split
  · exact calm_ite ((hr _).trans (misbankEvent_calm _ _ _ _)) (hr _)
  · split
    · exact calm_ite (misbankEvent_calm _ _ _ s) (hr _)
    · exact Calm.refl s

theorem loseScanning_lasting (l : LaneId) (s : State) : Lasting s (loseScanning l s) :=
  lasting_ite ((lasting_foldl _ (fun u (e : Entry) => giveVerdict_lasting l e.serial _ u) _ s).trans (deliverAll_lasting l _))
    (Lasting.refl s)

theorem changeLane_lasting (l : LaneId) (m : LaneMode) (c : LaneCause) (s : State) : Lasting s (changeLane l m c s) :=
  steady_of_eq follows_order
    (fun k => changeLane_only (ps := fun p => ∀ k, p ≠ .track k) l m c (only_refl _ _) (by simp) (by simp) (by simp)
      (by simp) (by simp) (.track k) (by simp))
    (fun k => changeLane_only (ps := fun p => ∀ k, p ≠ .tally k) l m c (only_refl _ _) (by simp) (by simp) (by simp)
      (by simp) (by simp) (.tally k) (by simp))

end Sys2Proof.Machine
end

