-- ==== Sys2Proof/Proofs/Keeps.lean ====
section
/-! What every command but a device reset keeps: well-kept track queues, what stands of their entries, and the
conservation of a lane's counts (R8, R142). Entries join and leave the queue here. -/

namespace Sys2Proof.Machine

/-- What a step keeps of one lane: its queue in order, with no entry but those that followed and those with a new serial,
and the extent and balance of its tally set. -/
structure KeepsLane (k : LaneId) (s t : State) : Prop where
  ok : trackOk (t.track.get k) = true
  serial : (s.track.get k).lastSerial ≤ (t.track.get k).lastSerial
  entries : ∀ f ∈ (t.track.get k).queue, (s.track.get k).lastSerial < f.serial ∨
    ∃ e ∈ (s.track.get k).queue, Follows e f
  length : (s.tally.get k).length = 106 → (t.tally.get k).length = 106
  balance : (s.tally.get k).length = 106 → conserved k s → conserved k t

/-- What a step keeps of every lane whose queue was well kept. -/
def Keeps (s t : State) : Prop := ∀ k, trackOk (s.track.get k) = true → KeepsLane k s t

theorem conserved_iff (l : LaneId) (s : State) :
    conserved l s ↔ 4294967295 ≤ (s.tally.get l).getD 0 0 ∨ (s.tally.get l).getD 0 0 =
      (s.tally.get l).getD 93 0 + (s.tally.get l).getD 94 0 + (s.tally.get l).getD 95 0 + (s.tally.get l).getD 96 0 +
        (s.track.get l).queue.length := Iff.rfl

section
variable {s t u : State} {k : LaneId}

theorem Keeps.trans (h : Keeps s t) (j : Keeps t u) : Keeps s u := fun k hk => by
  have h1 := h k hk
  have h2 := j k h1.ok
  refine ⟨h2.ok, h1.serial.trans h2.serial, fun g hg => ?_, fun hl => h2.length (h1.length hl),
    fun hl hc => h2.balance (h1.length hl) (h1.balance hl hc)⟩
  rcases h2.entries g hg with hn | ⟨f, hf, hfg⟩
  · exact Or.inl (lt_of_le_of_lt h1.serial hn)
  · rcases h1.entries f hf with hn | ⟨e, he, hef⟩
    · exact Or.inl (by rw [hfg.serial]; exact hn)
    · exact Or.inr ⟨e, he, follows_order.trans _ _ _ hef hfg⟩

/-- A lane whose queue, serial and tally set stand keeps everything. -/
theorem keepsLane_of_eq (hk : trackOk (s.track.get k) = true) (hq : (t.track.get k).queue = (s.track.get k).queue)
    (hs : (t.track.get k).lastSerial = (s.track.get k).lastSerial) (hn : t.tally.get k = s.tally.get k) :
    KeepsLane k s t := by
  refine ⟨?_, hs.ge, fun f hf => Or.inr ⟨f, hq ▸ hf, follows_order.refl f⟩, fun hl => by rw [hn]; exact hl,
    fun _ hc => ?_⟩
  · rw [trackOk, hq, hs]; exact hk
  · rw [conserved_iff, hn, hq]; exact hc

theorem keeps_of_eq (ht : ∀ k, t.track.get k = s.track.get k) (hn : ∀ k, t.tally.get k = s.tally.get k) : Keeps s t :=
  fun k hk => keepsLane_of_eq hk (by rw [ht k]) (by rw [ht k]) (hn k)

theorem Keeps.refl (s : State) : Keeps s s := keeps_of_eq (fun _ => rfl) (fun _ => rfl)

theorem keeps_of_only (h : Only offBooks s t) : Keeps s t :=
  keeps_of_eq (fun k => h (.track k) (by simp [offBooks])) (fun k => h (.tally k) (by simp [offBooks]))

theorem keeps_of_lasting (h : Lasting s t) : Keeps s t := fun k hk => by
  obtain ⟨φ, ht, hφ⟩ := h.track k hk
  refine ⟨h.trackOk follows_order hk, by rw [ht], fun f hf => ?_, fun hl => by rw [h.length k]; exact hl,
    fun _ hc => ?_⟩
  · rw [ht] at hf
    obtain ⟨e, he, rfl⟩ := List.mem_map.mp hf
    exact Or.inr ⟨e, he, hφ e he⟩
  · have hi := fun i hi => h.tally k i hi
    rw [conserved_iff, hi 0 (by omega), hi 93 (by omega), hi 94 (by omega), hi 95 (by omega), hi 96 (by omega), ht]
    simpa using (conserved_iff k s).mp hc

theorem keeps_of_calm (h : Calm s t) : Keeps s t := keeps_of_lasting h.follows

theorem keeps_ite {c : Prop} {_ : Decidable c} {a b : State} (ha : Keeps s a) (hb : Keeps s b) :
    Keeps s (if c then a else b) := by
  split <;> assumption

theorem keeps_foldl {α : Type} (f : State → α → State) (h : ∀ s x, Keeps s (f s x)) (xs : List α) (s : State) :
    Keeps s (xs.foldl f s) := by
  induction xs generalizing s with
  | nil => exact Keeps.refl s
  | cons x xs ih => exact (h s x).trans (ih (f s x))

end

/-- A change of a track that leaves its queue and its last serial: jam counts, the last trailing edge. -/
theorem updTrack_keeps (l : LaneId) (f : Track → Track) (s : State) (hq : ∀ t, (f t).queue = t.queue)
    (hs : ∀ t, (f t).lastSerial = t.lastSerial) : Keeps s (updTrack l f s) := fun k hk => by
  by_cases h : k = l
  · subst h
    exact keepsLane_of_eq hk (by simp [hq]) (by simp [hs]) rfl
  · have ht : (updTrack l f s).track.get k = s.track.get k := by simp [PerLane.get_upd_other _ _ h]
    exact keepsLane_of_eq hk (by rw [ht]) (by rw [ht]) rfl

theorem updJam_keeps (l : LaneId) (j : JamEye) (f : Nat → Nat) (s : State) : Keeps s (updJam l j f s) := by
  cases j with
  | cancel h => exact updTrack_keeps l _ s (fun _ => rfl) (fun _ => rfl)
  | pathEnd h => exact updTrack_keeps l _ s (fun _ => rfl) (fun _ => rfl)

/-! ### An entry leaves the queue -/

/-- R8: of a well-kept queue one entry goes with its serial. -/
theorem filter_serial_length {t : Track} {e : Entry} (h : trackOk t = true) (he : e ∈ t.queue) :
    (t.queue.filter (fun x => x.serial != e.serial)).length + 1 = t.queue.length := by
  obtain ⟨-, hp, -⟩ := (trackOk_iff t).mp h
  have hs : (t.queue.map Entry.serial).Nodup := hp.imp (fun h => Nat.ne_of_lt h)
  have hn : t.queue.Nodup := List.Nodup.of_map _ hs
  have hf : t.queue.filter (fun x => x.serial != e.serial) = t.queue.erase e := by
    rw [hn.erase_eq_filter]
    refine List.filter_congr (fun x hx => ?_)
    rw [Bool.eq_iff_iff, bne_iff_ne, bne_iff_ne, not_iff_not]
    exact ⟨eq_of_serial_eq h hx he, fun hxe => by rw [hxe]⟩
  rw [hf, List.length_erase_of_mem he]
  have := List.length_pos_of_mem he
  omega

theorem trackOk_filter {t : Track} (p : Entry → Bool) (h : trackOk t = true) :
    trackOk { t with queue := t.queue.filter p } = true := by
  obtain ⟨hl, hp, hb⟩ := (trackOk_iff t).mp h
  refine (trackOk_iff _).mpr ⟨(List.length_filter_le _ _).trans hl, ?_, fun e he => hb e (List.mem_filter.mp he).1⟩
  exact hp.sublist ((List.filter_sublist).map _)

/-- The place of an outcome's count. -/
theorem outcome_place (o : ItemOutcome) : ∃ i, tallyPlace (.outcome o) = some i ∧ 93 ≤ i ∧ i ≤ 96 := by
  cases o <;> exact ⟨_, rfl, by decide, by decide⟩

/-- An entry leaves the queue and its outcome is counted (R23, R142). -/
theorem leaveCount_keeps (l : LaneId) (o : ItemOutcome) (s t : State) (e : Entry)
    (he : e ∈ (s.track.get l).queue)
    (hq : t.track = s.track.upd l (fun t => { t with queue := t.queue.filter (fun x => x.serial != e.serial) }))
    (hn : t.tally = s.tally) : Keeps s (countUp l (.outcome o) t) := fun k hk => by
  by_cases h : k = l
  · subst h
    obtain ⟨i, hi, hlo, hhi⟩ := outcome_place o
    have ht : (countUp k (.outcome o) t).track.get k = { s.track.get k with
        queue := (s.track.get k).queue.filter (fun x => x.serial != e.serial) } := by
      rw [countUp_track, hq]; simp
    refine ⟨by rw [ht]; exact trackOk_filter _ hk, by rw [ht], fun f hf => ?_, fun hl => by simp [hn, hl],
      fun hl hc => ?_⟩
    · rw [ht] at hf
      exact Or.inr ⟨f, (List.mem_filter.mp hf).1, follows_order.refl f⟩
    · have hlen := filter_serial_length hk he
      have hself := countUp_getD_self k t hi (by rw [hn, hl]; omega)
      have hother : ∀ j, j ≠ i → ((countUp k (.outcome o) t).tally.get k).getD j 0 = (s.tally.get k).getD j 0 :=
        fun j hj => by rw [countUp_getD_other k k t (by rw [hi]; simpa using Ne.symm hj), hn]
      rw [hn] at hself
      rw [conserved_iff] at hc ⊢
      rw [ht, hother 0 (by omega)]
      unfold satAdd32 at hself
      dsimp only at hc ⊢
      obtain rfl | rfl | rfl | rfl : i = 93 ∨ i = 94 ∨ i = 95 ∨ i = 96 := by omega
      · rw [hself, hother 94 (by decide), hother 95 (by decide), hother 96 (by decide)]; omega
      · rw [hself, hother 93 (by decide), hother 95 (by decide), hother 96 (by decide)]; omega
      · rw [hself, hother 93 (by decide), hother 94 (by decide), hother 96 (by decide)]; omega
      · rw [hself, hother 93 (by decide), hother 94 (by decide), hother 95 (by decide)]; omega
  · have ht : (countUp l (.outcome o) t).track.get k = s.track.get k := by
      rw [countUp_track, hq]; exact PerLane.get_upd_other _ _ h
    exact keepsLane_of_eq hk (by rw [ht]) (by rw [ht]) (by rw [countUp_tally_other _ _ h, hn])

theorem leaveQueue_keeps (l : LaneId) (n : Nat) (o : ItemOutcome) (s : State) : Keeps s (leaveQueue l n o s) := by
  unfold leaveQueue
  split
  · exact Keeps.refl s
  next e he =>
    have hn := findEntry_serial he
    subst hn
    have hf : ∀ u, Keeps u (queueFullTest l u) := fun u =>
      keeps_of_only (by apply queueFullTest_only (h := only_refl _ _) <;> simp [offBooks])
    refine Keeps.trans (Keeps.trans (leaveCount_keeps l o s _ e (findEntry_mem he) ?_ ?_)
      (keeps_of_calm (placeRecord_calm _ _))) (hf _)
    · rfl
    · rfl

theorem dropItem_calm (l : LaneId) (e : Entry) (s : State) : Calm s (dropItem l e s) := gateWork_calm l _ s

theorem drainTest_keeps (l : LaneId) (s : State) : Keeps s (drainTest l s) :=
  keeps_of_only (by apply drainTest_only (h := only_refl _ _) <;> simp [offBooks])

theorem finalise_keeps (l : LaneId) (n : Nat) (o : ItemOutcome) (s : State) : Keeps s (finalise l n o s) := by
  unfold finalise
  split
  · exact Keeps.refl s
  next e _ =>
    have h1 : Keeps s (if o = .lost then dropItem l e s else s) :=
      keeps_ite (keeps_of_calm (dropItem_calm l e s)) (Keeps.refl s)
    exact (h1.trans (leaveQueue_keeps l n o _)).trans (drainTest_keeps l _)

theorem purgeEntry_keeps (l : LaneId) (e : Entry) (s : State) : Keeps s (purgeEntry l e s) :=
  (keeps_of_calm (((purgeWindows_calm l e s).trans (withdrawPrint_calm l e.serial _)).trans
    (releaseReservation_calm l e.serial _))).trans (leaveQueue_keeps l e.serial .purged _)

theorem setHold_keeps (l : LaneId) (r : HoldReason) (b : Bool) (s : State) : Keeps s (setHold l r b s) :=
  keeps_of_only (by apply setHold_only (h := only_refl _ _) <;> simp [offBooks])

theorem purge_keeps (l : LaneId) (s : State) : Keeps s (purge l s) :=
  Keeps.trans (Keeps.trans (keeps_foldl _ (fun u e => purgeEntry_keeps l e u) _ s)
    (updTrack_keeps l _ _ (by exact fun _ => rfl) (by exact fun _ => rfl))) (setHold_keeps l _ _ _)

theorem purgeLane_keeps (l : LaneId) (s : State) : Keeps s (purgeLane l s) := by
  have h1 : ∀ u, Keeps u (clearPrints l (gatesClear l (removeJobs l u))) := fun u => keeps_of_only (by
    apply clearPrints_only
    · apply gatesClear_only
      · apply removeJobs_only (h := only_refl _ _); simp [offBooks]
      all_goals simp [offBooks]
    all_goals simp [offBooks])
  exact (purge_keeps l s).trans (h1 _)

theorem clearLane_keeps (l : LaneId) (s : State) : Keeps s (clearLane l s) := by
  have h1 : ∀ u, Keeps u (changeLane l .ready .clear (restartDark l u)) := fun u => keeps_of_only (by
    apply changeLane_only
    · apply restartDark_only (h := only_refl _ _); simp [offBooks]
    all_goals simp [offBooks])
  exact (purgeLane_keeps l s).trans (h1 _)

theorem abortLane_keeps (l : LaneId) (s : State) : Keeps s (abortLane l s) := by
  have h1 : Keeps s (setLane l .off s) :=
    keeps_of_only (by apply setLane_only (h := only_refl _ _) <;> simp [offBooks])
  have h2 := h1.trans (purgeLane_keeps l _)
  unfold abortLane
  dsimp only
  refine h2.trans (keeps_of_only ?_)
  apply laneEvent_only
  · apply endPending_only
    · apply setHold_only
      · apply updLsq_only
        · apply dropWarming_only
          · apply endLaneTest_only
            · apply abortScan_only
              · apply coldHeads_only
                · apply clearTrims_only (h := only_refl _ _); simp [offBooks]
                all_goals simp [offBooks]
              all_goals simp [offBooks]
            all_goals simp [offBooks]
          all_goals simp [offBooks]
        all_goals simp [offBooks]
      all_goals simp [offBooks]
    all_goals simp [offBooks]
  all_goals simp [offBooks]

theorem countLoss_keeps (l : LaneId) (j : JamEye) (s : State) : Keeps s (countLoss l j s) :=
  keeps_ite ((updJam_keeps l j _ s).trans (keeps_of_calm (jam_calm l _ 1 _))) (updJam_keeps l j _ s)

theorem loseEntry_keeps (l : LaneId) (n : Nat) (j : JamEye) (s : State) : Keeps s (loseEntry l n j s) := by
  have hb : ∀ u, Keeps u (blockEvent l .tracking u) := fun u =>
    keeps_of_only (by apply blockEvent_only (h := only_refl _ _); simp [offBooks])
  exact (((finalise_keeps l n .lost s).trans (keeps_of_calm (emit_calm _ _ _ _ _ _ _))).trans (hb _)).trans
    (countLoss_keeps l j _)

/-! ### An entry joins the queue -/

/-- A new entry at the tail, with the next serial, is counted as entered (R10, R142). -/
theorem enterCount_keeps (l : LaneId) (e : Entry) (s : State) (hl : (s.track.get l).queue.length < 32)
    (hs : e.serial = (s.track.get l).lastSerial + 1) :
    Keeps s (countUp l .entered
      (updTrack l (fun t => { t with queue := t.queue ++ [e], lastSerial := e.serial }) s)) := fun k hk => by
  by_cases h : k = l
  · subst h
    generalize hu : updTrack k (fun t => { t with queue := t.queue ++ [e], lastSerial := e.serial }) s = u
    have ht : (countUp k .entered u).track.get k = { s.track.get k with
        queue := (s.track.get k).queue ++ [e], lastSerial := e.serial } := by
      rw [countUp_track, ← hu]; simp
    have hn : u.tally = s.tally := by rw [← hu]; rfl
    obtain ⟨-, hp, hb⟩ := (trackOk_iff _).mp hk
    refine ⟨?_, by rw [ht]; show _ ≤ e.serial; omega, fun f hf => ?_, fun hl => by simp [hn, hl], fun h106 hc => ?_⟩
    · rw [ht]
      refine (trackOk_iff _).mpr ⟨by simp; omega, ?_, fun x hx => ?_⟩
      · simp only [List.map_append, List.map_cons, List.map_nil]
        refine List.pairwise_append.mpr ⟨hp, by simp, fun a ha b hb' => ?_⟩
        obtain ⟨x, hx, rfl⟩ := List.mem_map.mp ha
        have := hb x hx
        simp only [List.mem_singleton] at hb'
        omega
      · rcases List.mem_append.mp hx with hx | hx
        · have := hb x hx
          dsimp only
          omega
        · simp at hx; simp [hx]
    · rw [ht] at hf
      rcases List.mem_append.mp hf with hf | hf
      · exact Or.inr ⟨f, hf, follows_order.refl f⟩
      · simp at hf; subst hf; exact Or.inl (by omega)
    · have hself := countUp_getD_self k u (c := .entered) rfl (by rw [hn, h106]; omega)
      have hother : ∀ j, j ≠ 0 → ((countUp k .entered u).tally.get k).getD j 0 = (s.tally.get k).getD j 0 :=
        fun j hj => by rw [countUp_getD_other k k u (by simpa [tallyPlace] using Ne.symm hj), hn]
      rw [hn] at hself
      rw [conserved_iff] at hc ⊢
      rw [ht, hself, hother 93 (by decide), hother 94 (by decide), hother 95 (by decide), hother 96 (by decide)]
      simp only [List.length_append, List.length_singleton, satAdd32]
      omega
  · have ht : (countUp l .entered (updTrack l (fun t =>
        { t with queue := t.queue ++ [e], lastSerial := e.serial }) s)).track.get k = s.track.get k := by
      rw [countUp_track]; exact PerLane.get_upd_other _ _ h
    exact keepsLane_of_eq hk (by rw [ht]) (by rw [ht]) (by rw [countUp_tally_other _ _ h]; rfl)

theorem createEntry_keeps (l : LaneId) (c : BeltSample) (s : State) (hl : (s.track.get l).queue.length < 32) :
    Keeps s (createEntry l c s) := by
  unfold createEntry
  dsimp only
  refine Keeps.trans (Keeps.trans (Keeps.trans (enterCount_keeps l _ s hl rfl)
    (keeps_of_calm (countBlock_calm l .tracking _))) (keeps_of_lasting (creationVerdicts_lasting l _ _ _ _)))
    (keeps_of_calm (deliverAll_calm l _))

theorem endLaneTest_keeps (l : LaneId) (r : TestResult) (x : TestExit) (s : State) : Keeps s (endLaneTest l r x s) :=
  keeps_of_only (by apply endLaneTest_only (h := only_refl _ _) <;> simp [offBooks])

theorem entryArrival_keeps (l : LaneId) (c : BeltSample) (s : State) : Keeps s (entryArrival l c s) := by
  have h1 : Keeps s (if (s.track.get l).queue.length < 32 ∧ (s.track.get l).lastSerial < 4294967295 then
      createEntry l c s else untrackedArrival l c.pos s) := by
    split
    next h => exact createEntry_keeps l c s h.1
    · exact keeps_of_lasting (untrackedArrival_lasting l _ s)
  exact keeps_ite (h1.trans (endLaneTest_keeps l _ _ _)) h1

theorem entryDeparture_keeps (l : LaneId) (c : BeltSample) (s : State) : Keeps s (entryDeparture l c s) := by
  unfold entryDeparture
  dsimp only
  refine Keeps.trans (Keeps.trans ?_ (updTrack_keeps l _ _ (by exact fun _ => rfl) (by exact fun _ => rfl)))
    (keeps_of_calm (deliverAll_calm l _))
  split
  · exact Keeps.refl s
  · exact keeps_ite (Keeps.refl s) (keeps_of_lasting (lengthCheck_lasting l _ _ s))

/-! ### Arrivals and counts -/

theorem arriveCancel_keeps (l : LaneId) (h : Side) (p : Pos) (s : State) : Keeps s (arriveCancel l h p s) := by
  unfold arriveCancel
  split
  · exact keeps_of_calm (phantom_calm l _ p s)
  next e _ =>
    have h1 := updEntry_lasting l e.serial (fun x => { x with cancelEye := some (h, p) }) s
      (fun x _ => ⟨rfl, rfl, rfl, rfl, fun _ => rfl, fun _ => rfl, id, id⟩)
    exact ((keeps_of_lasting h1).trans (updJam_keeps l (.cancel h) _ _)).trans
      (keeps_of_calm ((checkBank_calm l h e _).trans (releasePrint_calm l h _ p _)))

theorem arrivePocket_keeps (l : LaneId) (q : Pocket) (p : Pos) (s : State) : Keeps s (arrivePocket l q p s) := by
  unfold arrivePocket
  dsimp only
  split
  · exact keeps_of_calm (phantom_calm l _ p s)
  next e _ =>
    have h1 := updEntry_lasting l e.serial (fun x => { x with pocketSeen := some q }) s
      (fun x _ => ⟨rfl, rfl, rfl, rfl, fun _ => rfl, fun _ => rfl, id, id⟩)
    have h2 : ∀ u, Keeps u (clearEndJam l q u) := fun u => keeps_ite (Keeps.refl u) (updJam_keeps l _ _ u)
    have h3 := ((keeps_of_lasting h1).trans (h2 _)).trans (keeps_of_calm (countBlock_calm l .pocketAccuracy _))
    refine Keeps.trans (Keeps.trans ?_ (keeps_of_calm (pocketArrival_calm l q e.serial _))) (finalise_keeps l _ _ _)
    exact keeps_ite (h3.trans (keeps_of_calm (rerouteAtEye_calm l _ _ _ _))) h3

/-- R144: a zeroed tally set whose entered count is the queue's occupancy is balanced. -/
theorem zeroTally_keeps (l : LaneId) (s : State) : Keeps s (zeroTally l s) := fun k hk => by
  by_cases h : k = l
  · subst h
    have ht : (zeroTally k s).tally.get k =
        (List.replicate (s.tally.get k).length 0).set 0 (s.track.get k).queue.length := by
      simp [zeroTally]
    refine ⟨hk, le_rfl, fun f hf => Or.inr ⟨f, hf, follows_order.refl f⟩, fun hl => by simp [ht, hl], fun hl _ => ?_⟩
    rw [conserved_iff, ht, hl]
    exact Or.inr (by simp [List.getD_eq_getElem?_getD, zeroTally])
  · exact keepsLane_of_eq hk rfl rfl (PerLane.get_upd_other _ _ h)

theorem tallySnapshot_keeps (a i z : Nat) (s : State) : Keeps s (tallySnapshot a i z s) := by
  have hd : ∀ u, Keeps u (orderDone none u) := fun u =>
    keeps_of_only (by apply orderDone_only (h := only_refl _ _) <;> simp [offBooks])
  have hr : ∀ u, Keeps u (orderRefused .badField none u) := fun u =>
    keeps_of_only (by apply orderRefused_only (h := only_refl _ _) <;> simp [offBooks])
  have hw : ∀ b, Keeps s (writeBytes a b s) := fun b => keeps_of_eq (fun _ => rfl) (fun _ => rfl)
  unfold tallySnapshot
  split
  · exact hr s
  · refine keeps_ite (hr s) (keeps_ite (Keeps.trans ?_ (hd _)) (keeps_of_only ?_))
    · exact keeps_ite ((hw _).trans (zeroTally_keeps _ _)) (hw _)
    · apply orderFaulted_only (h := only_refl _ _) <;> simp [offBooks]

end Sys2Proof.Machine
end

