-- ==== Sys2Proof/Proofs/EveryCommand.lean ====
section
/-! Every command keeps the track queues, what stands of their entries, and the conservation of the counts: O7, O9 and
O10. -/

namespace Sys2Proof.Machine

variable {s t : State}

theorem settle_keeps (old s : State) : Keeps s (settle old s) := keeps_of_eq (fun _ => by simp) (fun _ => by simp)

theorem event_keeps {comes : Bool} {body : State → State} (h : event comes body s = .next t)
    (hb : comes = true → Keeps s (body s)) : Keeps s t := by
  rcases event_next h with ⟨hc, rfl⟩ | ⟨-, rfl⟩
  · exact (hb hc).trans (settle_keeps s _)
  · exact Keeps.refl _

theorem next_keeps (h : Host.Outcome.next s = (.next t : Host.Outcome State Fault Refusal)) : Keeps s t := by
  cases h; exact Keeps.refl _

/-- A position event acts on an entry of the queue that meets the event's condition. -/
theorem entryEvent_keeps {l : LaneId} {n : Nat} {comes : Entry → Bool} {body : Entry → State → State}
    (h : entryEvent l n comes body s = .next t)
    (hb : ∀ e, findEntry l n s = some e → comes e = true → Keeps s (body e s)) : Keeps s t := by
  unfold entryEvent at h
  split at h
  · exact next_keeps h
  next e he =>
    refine event_keeps h (fun hc => hb e he ?_)
    simp only [Bool.and_eq_true] at hc
    exact hc.2

theorem acceptEdge_keeps (l : LaneId) (y : Eye) (b : Bool) (s : State) : Keeps s (acceptEdge l y b s) :=
  keeps_of_eq (fun _ => rfl) (fun _ => rfl)

theorem arrivalEvent_keeps {l : LaneId} {y : Eye} {n : Nat} {body : Pos → State → State}
    (h : arrivalEvent l y n body s = .next t) (hb : ∀ p u, Keeps u (body p u)) : Keeps s t :=
  event_keeps h (fun _ => keeps_ite ((acceptEdge_keeps l y true s).trans (hb _ _)) (acceptEdge_keeps l y true s))

theorem laneControl_keeps {a : LaneAction} {act : LaneId → State → State} (h : laneControl a act s = .next t)
    (hb : ∀ l, Keeps s (act l s)) : Keeps s t := by
  unfold laneControl at h
  split at h
  · split at h
    · refine event_keeps h (fun _ => ?_)
      split
      · exact keeps_of_only (by apply orderRefused_only (h := only_refl _ _) <;> simp [offBooks])
      · exact hb _
    · exact next_keeps h
  · exact next_keeps h

theorem orderDone_keeps (d : Option Nat) (s : State) : Keeps s (orderDone d s) :=
  keeps_of_only (by apply orderDone_only (h := only_refl _ _) <;> simp [offBooks])

theorem orderRefused_keeps (c : ResultCode) (d : Option Nat) (s : State) : Keeps s (orderRefused c d s) :=
  keeps_of_only (by apply orderRefused_only (h := only_refl _ _) <;> simp [offBooks])

theorem offLane_keeps (l : LaneId) (s : State) : Keeps s (offLane l s) := by
  have h1 : ∀ u, Keeps u (coldHeads l (updLsq l (fun q => { q with warmed := false }) (lampTo l .dark
      (changeLane l .off .order u)))) := fun u => keeps_of_only (by
    apply coldHeads_only
    · apply updLsq_only
      · apply lampTo_only
        · apply changeLane_only (h := only_refl _ _) <;> simp [offBooks]
        all_goals simp [offBooks]
      all_goals simp [offBooks]
    all_goals simp [offBooks])
  exact (keeps_of_lasting (loseScanning_lasting l s)).trans (h1 _)

theorem standbyLane_keeps (l : LaneId) (s : State) : Keeps s (standbyLane l s) := by
  have h1 : ∀ u, Keeps u (lampTo l .dim (changeLane l .standby .order u)) := fun u => keeps_of_only (by
    apply lampTo_only
    · apply changeLane_only (h := only_refl _ _) <;> simp [offBooks]
    all_goals simp [offBooks])
  exact (keeps_of_lasting (loseScanning_lasting l s)).trans (h1 _)

/-- A command whose parts hold no track queue and no tally set leaves them. -/
theorem keeps_of_untouched {c : Instr} (h : exec c s = .next t)
    (hc : ∀ k, ¬ touches c (.track k) ∧ ¬ touches c (.tally k)) : Keeps s t :=
  keeps_of_eq (fun k => exec_touches h (.track k) (hc k).1) (fun k => exec_touches h (.tally k) (hc k).2)

@[simp] theorem track_not_mem_eventEnd (l : LaneId) : Part.track l ∉ eventEnd := by cases l <;> decide
@[simp] theorem tally_not_mem_eventEnd (l : LaneId) : Part.tally l ∉ eventEnd := by cases l <;> decide
@[simp] theorem belt_not_mem_eventEnd (l : LaneId) : Part.belt l ∉ eventEnd := by cases l <;> decide

/-- Every command but a device reset keeps the queues, their entries and the balance of the counts. -/
theorem exec_keeps {c : Instr} (h : exec c s = .next t) (h1 : c ≠ .deviceReset) (h2 : c ≠ .reset) : Keeps s t := by
  cases c with
  | deviceReset => exact absurd rfl h1
  | reset => exact absurd rfl h2
  | encoderCount l f =>
    replace h : execEncoderCount l f s = .next t := h
    exact event_keeps h (fun _ => keeps_of_lasting (countBelt_lasting l f s))
  | eLeadingEdge l n =>
    replace h : execELeadingEdge l n s = .next t := h
    have h1 : ∀ f, Keeps s (updSfe l f (acceptEdge l .e true s)) := fun f => keeps_of_eq (fun _ => rfl) (fun _ => rfl)
    exact event_keeps h (fun _ => keeps_ite ((h1 _).trans (entryArrival_keeps l _ _)) (h1 _))
  | eTrailingEdge l n =>
    replace h : execETrailingEdge l n s = .next t := h
    have h1 : ∀ f, Keeps s (updSfe l f (acceptEdge l .e false s)) := fun f => keeps_of_eq (fun _ => rfl) (fun _ => rfl)
    exact event_keeps h (fun _ => keeps_ite ((h1 _).trans (entryDeparture_keeps l _ _)) (h1 _))
  | longTimeout l n =>
    replace h : execLongTimeout l n s = .next t := h
    exact entryEvent_keeps h (fun e _ _ =>
      (keeps_of_lasting (giveVerdict_lasting l _ _ s)).trans (keeps_of_calm (deliverAll_calm l _)))
  | blockedEye l y =>
    replace h : execBlockedEye l y s = .next t := h
    simp only [execBlockedEye] at h
    have h1 : ∀ f, Keeps s (updEye l y f s) := fun f => keeps_of_eq (fun _ => rfl) (fun _ => rfl)
    exact event_keeps h (fun _ => (h1 _).trans (keeps_of_calm (jam_calm l y 0 _)))
  | sampleTaken l n r =>
    replace h : execSampleTaken l n r s = .next t := h
    unfold execSampleTaken at h
    split at h
    · split at h
      · exact next_keeps h
      · exact event_keeps h (fun _ => keeps_of_lasting (takeSample_lasting l _ r s))
    · cases h
  | scoringComplete =>
    replace h : execScoringComplete s = .next t := h
    exact event_keeps h (fun _ => keeps_of_lasting (completeJob_lasting s))
  | forcedDelivery l n =>
    replace h : execForcedDelivery l n s = .next t := h
    refine entryEvent_keeps h (fun e he hc => keeps_of_lasting (forceDelivery_lasting l e s ?_ ?_))
    · rw [findEntry_serial he]; exact he
    · simp only [Bool.and_eq_true, Bool.not_eq_true'] at hc
      exact hc.1
  | bankPositionReached l n =>
    replace h : execBankPositionReached l n s = .next t := h
    exact entryEvent_keeps h (fun e _ _ => keeps_of_lasting (updEntry_lasting l _ _ s (fun x _ => stage_follows x _)))
  | arrivalT l n =>
    replace h : execArrivalT l n s = .next t := h
    exact arrivalEvent_keeps h (fun p u => keeps_of_lasting (arriveT_lasting l p u))
  | tWindowPassed l n =>
    replace h : execTWindowPassed l n s = .next t := h
    exact entryEvent_keeps h (fun e _ _ => keeps_of_lasting (updEntry_lasting l _ _ s
      (fun x _ => ⟨rfl, rfl, rfl, rfl, fun _ => rfl, fun _ => rfl, id, id⟩)))
  | arrivalCancelEye l d n =>
    replace h : execArrivalCancelEye l d n s = .next t := h
    exact arrivalEvent_keeps h (fun p u => arriveCancel_keeps l d p u)
  | cancelWindowPassed l n d =>
    replace h : execCancelWindowPassed l n d s = .next t := h
    exact entryEvent_keeps h (fun e _ _ => keeps_of_lasting (passCancelWindow_lasting l d e s))
  | lostAtCancelEye l n =>
    replace h : execLostAtCancelEye l n s = .next t := h
    exact entryEvent_keeps h (fun e _ _ => loseEntry_keeps l _ _ s)
  | lostAtEndEye l n =>
    replace h : execLostAtEndEye l n s = .next t := h
    exact entryEvent_keeps h (fun e _ _ => loseEntry_keeps l _ _ s)
  | arrivalPocketEye l q n =>
    replace h : execArrivalPocketEye l q n s = .next t := h
    exact arrivalEvent_keeps h (fun p u => arrivePocket_keeps l q p u)
  | verifyEdge l d n =>
    replace h : execVerifyEdge l d n s = .next t := h
    exact event_keeps h (fun _ => keeps_ite ((acceptEdge_keeps l _ true s).trans
      (keeps_of_calm (compareVerify_calm l d _ _))) (acceptEdge_keeps l _ true s))
  | verifyEntryExpiry l d =>
    replace h : execVerifyEntryExpiry l d s = .next t := h
    unfold execVerifyEntryExpiry at h
    split at h
    · exact next_keeps h
    · exact event_keeps h (fun _ => keeps_of_calm ((updHead_calm l d _ s).trans (verifyMiss_calm l _)))
  | gateOnEvent l g =>
    replace h : execGateOnEvent l g s = .next t := h
    unfold execGateOnEvent at h
    split at h
    · exact next_keeps h
    · exact event_keeps h (fun _ => keeps_of_calm ((onEvent_calm l g _ s).trans (gateWork_calm l _ _)))
  | gateWindowClose l g =>
    replace h : execGateWindowClose l g s = .next t := h
    unfold execGateWindowClose at h
    split at h
    · exact next_keeps h
    · exact event_keeps h (fun _ => keeps_of_calm (closeHead_calm l g _ _ s))
  | gateHoldExpiry l g =>
    replace h : execGateHoldExpiry l g s = .next t := h
    unfold execGateHoldExpiry at h
    split at h
    · exact event_keeps h (fun _ => keeps_of_calm (closeHead_calm l g _ _ s))
    · exact next_keeps h
  | printStart l d =>
    replace h : execPrintStart l d s = .next t := h
    unfold execPrintStart at h
    split at h
    · exact next_keeps h
    · exact event_keeps h (fun _ => keeps_of_calm (startPrint_calm l d _ s))
  | printEnd l d =>
    replace h : execPrintEnd l d s = .next t := h
    unfold execPrintEnd at h
    split at h
    · exact next_keeps h
    · exact event_keeps h (fun _ => keeps_of_calm (endPrint_calm l d _ _ s))
  | idleTimerExpiry l =>
    replace h : execIdleTimerExpiry l s = .next t := h
    have h1 : ∀ u, Keeps u (lampTo l .dim u) := fun u =>
      keeps_of_only (by apply lampTo_only (h := only_refl _ _) <;> simp [offBooks])
    exact event_keeps h (fun _ => ((keeps_of_lasting (loseScanning_lasting l s)).trans (h1 _)).trans
      (setHold_keeps l .wake true _))
  | trayOut l q n =>
    replace h : execTrayOut l q n s = .next t := h
    exact event_keeps h (fun _ => keeps_of_calm (trayOut_calm l q s))
  | pageWriteOut =>
    replace h : execPageWriteOut s = .next t := h
    unfold execPageWriteOut at h
    split at h
    · exact next_keeps h
    · exact event_keeps h (fun _ => keeps_of_calm (writeOutPage_calm _ s))
  | laneControlStandby =>
    replace h : execLaneControlStandby s = .next t := h
    refine laneControl_keeps h (fun l => ?_)
    unfold standby
    split
    · exact orderDone_keeps _ s
    · exact keeps_ite ((standbyLane_keeps l s).trans (orderDone_keeps _ _)) (orderRefused_keeps _ _ s)
    all_goals exact orderRefused_keeps _ _ s
  | laneControlOff =>
    replace h : execLaneControlOff s = .next t := h
    refine laneControl_keeps h (fun l => ?_)
    have ho : Keeps s (if (s.track.get l).queue.isEmpty then orderDone none (offLane l s)
        else orderRefused .busy none s) :=
      keeps_ite ((offLane_keeps l s).trans (orderDone_keeps _ _)) (orderRefused_keeps _ _ s)
    unfold switchOff
    split
    · exact orderDone_keeps _ s
    · exact ho
    · exact ho
    all_goals exact orderRefused_keeps _ _ s
  | laneControlClear =>
    replace h : execLaneControlClear s = .next t := h
    refine laneControl_keeps h (fun l => ?_)
    unfold clearStopped
    split
    · exact (clearLane_keeps l s).trans (orderDone_keeps _ _)
    all_goals exact orderRefused_keeps _ _ s
  | laneControlAbort =>
    replace h : execLaneControlAbort s = .next t := h
    exact laneControl_keeps h (fun l => (abortLane_keeps l s).trans (orderDone_keeps _ _))
  | tallySnapshot =>
    replace h : execTallySnapshot s = .next t := h
    unfold execTallySnapshot at h
    split at h
    · exact event_keeps h (fun _ => tallySnapshot_keeps _ _ _ s)
    · exact next_keeps h
  | _ =>
    exact keeps_of_untouched h (by
      simp [touches, partsOf, healthParts, testParts, orderParts])

theorem deviceReset_trackOk (s : State) (l : LaneId) : trackOk ((deviceReset s).track.get l) = true := by
  cases l <;> rfl

/-- After a device reset a tally set holds 106 counts of 0, which balance with the empty queue. -/
theorem deviceReset_conserved (s : State) (l : LaneId) :
    ((deviceReset s).tally.get l).length = 106 ∧ conserved l (deviceReset s) := by
  have ht : (deviceReset s).tally.get l = List.replicate 106 0 := by cases l <;> rfl
  have hq : (deviceReset s).track.get l = Track.reset := by cases l <;> rfl
  refine ⟨by rw [ht]; rfl, ?_⟩
  rw [conserved_iff, ht, hq]
  exact Or.inr rfl

/-- A device reset answers its one state. -/
theorem exec_reset {c : Instr} (hc : c = .deviceReset ∨ c = .reset) (h : exec c s = .next t) :
    t = settle s (deviceReset s) := by
  have h1 : exec c s = .next (settle s (deviceReset s)) := by rcases hc with rfl | rfl <;> rfl
  rw [h1] at h
  cases h
  rfl

/-- A step keeps well-kept queues, and with them a balanced lane balanced. -/
theorem step_keeps_lane (hk : ∀ l, trackOk (s.track.get l) = true) (h : step s = .next t) (l : LaneId) :
    trackOk (t.track.get l) = true ∧
      ((s.tally.get l).length = 106 → conserved l s → (t.tally.get l).length = 106 ∧ conserved l t) := by
  unfold step at h
  split at h
  · cases h
    exact ⟨hk l, fun hl hc => ⟨hl, hc⟩⟩
  next c rest _ =>
    by_cases hr : c = .deviceReset ∨ c = .reset
    · rw [exec_reset hr h]
      refine ⟨by simpa using deviceReset_trackOk _ l, fun _ _ => ?_⟩
      have hd := deviceReset_conserved { s with pending := rest } l
      have hz := settle_keeps { s with pending := rest } (deviceReset { s with pending := rest }) l
        (deviceReset_trackOk _ l)
      exact ⟨hz.length hd.1, hz.balance hd.1 hd.2⟩
    · have hz := exec_keeps h (fun e => hr (Or.inl e)) (fun e => hr (Or.inr e)) l (hk l)
      exact ⟨hz.ok, fun hl hc => ⟨hz.length hl, hz.balance hl hc⟩⟩

/-- Settles O7, by what every command keeps of a lane (`exec_keeps`). -/
theorem stepKeepsTrackQueues : Obligations.StepKeepsTrackQueues := by
  refine ⟨fun s t hk h l => (step_keeps_lane hk h l).1, fun s t hs h l => ?_⟩
  obtain ⟨-, hl, hc⟩ := hs l
  exact (step_keeps_lane (fun k => (hs k).1) h l).2 hl hc

/-- Settles O10: an entry of the later queue with an old serial is what became of the old entry. -/
theorem entriesKeepTheirFirstVerdictAndCause : Obligations.EntriesKeepTheirFirstVerdictAndCause := by
  intro c s t hk h l e he f hf hs
  by_cases hr : c = .deviceReset ∨ c = .reset
  · rw [exec_reset hr h, settle_track] at hf
    have hq : ((deviceReset s).track.get l).queue = [] := by cases l <;> rfl
    rw [hq] at hf
    cases hf
  · have hz := exec_keeps h (fun x => hr (Or.inl x)) (fun x => hr (Or.inr x)) l (hk l)
    obtain ⟨-, -, hb⟩ := (trackOk_iff _).mp (hk l)
    rcases hz.entries f hf with hn | ⟨x, hx, hxf⟩
    · have := hb e he
      omega
    · have hxe : x = e := eq_of_serial_eq (hk l) hx he (hxf.serial.symm.trans hs)
      subst hxe
      exact ⟨hxf.leadE, hxf.scanStart, hxf.gapBefore, hxf.verdict, hxf.reroute, hxf.delivered, hxf.seenAtT⟩

/-- An encoder count moves its own lane's counter by one. -/
theorem countBelt_counter (l k : LaneId) (f : Bool) (s : State) :
    ((countBelt l f s).belt.get k).counter =
      if k = l then (if f then (s.belt.get k).counter + 1 else (s.belt.get k).counter - 1)
      else (s.belt.get k).counter := by
  have he : ∀ (g : EyeState → EyeState) (u : State) (ys : List Eye),
      (ys.foldl (fun s y => updEye l y g s) u).belt = u.belt := by
    intro g u ys
    induction ys generalizing u with
    | nil => rfl
    | cons y ys ih => exact ih _
  have hb : ∀ g u, (if moves l u = true then updTrack l g u else u).belt = u.belt := by
    intro g u; split <;> rfl
  have hu : ∀ (c : Bool) g u, (if c = true then allEyes.foldl (fun s y => updEye l y g s) u else u).belt = u.belt := by
    intro c g u
    split
    · exact he g u _
    · rfl
  unfold countBelt
  dsimp only
  rw [hb, hu, updBelt_belt]
  by_cases h : k = l
  · subst h
    cases f <;> simp
  · simp [PerLane.get_upd_other _ _ h, h]

/-- Settles O9: the frame of the commands for all but encoder counts, the end of an interval and a device reset. -/
theorem onlyEncoderCountsMoveTheCounter : Obligations.OnlyEncoderCountsMoveTheCounter := by
  intro c s t l h
  have hframe : ¬ touches c (.belt l) → (t.belt.get l).counter = (s.belt.get l).counter := fun hc => by
    have hb : t.belt.get l = s.belt.get l := exec_touches h (.belt l) hc
    rw [hb]
  cases c with
  | deviceReset => rw [exec_reset (.inl rfl) h]; cases l <;> simp [deviceReset, State.reset, Belt.reset, PerLane.get]
  | reset => rw [exec_reset (.inr rfl) h]; cases l <;> simp [deviceReset, State.reset, Belt.reset, PerLane.get]
  | encoderCount k f =>
    have hx : exec (.encoderCount k f) s = .next (settle s (countBelt k f s)) := rfl
    rw [hx] at h
    cases h
    rw [settle_belt, countBelt_counter]
    by_cases hk : l = k
    · subst hk
      cases f <;> simp
    · have hk' : ¬ k = l := fun e => hk e.symm
      simp [hk, hk']
  | speedInterval k =>
    have hx : t.belt.get l = s.belt.get l ∨
        ((settle s (updBelt k (fun b => { b with
          intervals := b.intervals.drop 1 ++ [b.intervalCount], intervalCount := 0,
          intervalTicks := b.intervalTicks - 160,
          speed := min (b.intervals.drop 1 ++ [b.intervalCount]).sum 4095 }) s)).belt.get l).counter =
            (t.belt.get l).counter := by
      replace h : execSpeedInterval k s = .next t := h
      rcases event_next h with ⟨-, rfl⟩ | ⟨-, rfl⟩
      · exact Or.inr rfl
      · exact Or.inl rfl
    rcases hx with hx | hx
    · simp [hx]
    · rw [← hx]
      by_cases hk : l = k
      · subst hk; simp
      · simp [PerLane.get_upd_other _ _ hk]
  | _ =>
    rw [hframe (by simp [touches, partsOf, itemParts, healthParts, entryParts, testParts, orderParts])]
    simp

end Sys2Proof.Machine
end

