-- ==== Sys2Proof/Proofs/BeltAndEyes.lean ====
section
/-! What the belt, the eyes and a tick do: the rules of an eye's record, an encoder count, the passing of a tick. -/

namespace Sys2Proof.Machine

/-! ### Reading an eye after a write -/

theorem allEyes_eyeCode (y : Eye) : allEyes.getD (eyeCode y).val .e = y := by cases y <;> rfl

theorem eyeCode_ne {y z : Eye} (h : z ≠ y) : eyeCode z ≠ eyeCode y :=
  fun e => h (by rw [← allEyes_eyeCode z, e, allEyes_eyeCode])

@[simp] theorem eyeState_updEye (l : LaneId) (y : Eye) (f : EyeState → EyeState) (s : State) :
    eyeState l y (updEye l y f s) = f (eyeState l y s) := by
  simp [eyeState]

theorem eyeState_updEye_other (l : LaneId) {y z : Eye} (f : EyeState → EyeState) (s : State) (h : z ≠ y) :
    eyeState l z (updEye l y f s) = eyeState l z s := by
  simp [eyeState, vget_vupd_other _ _ (eyeCode_ne h)]

theorem eyeState_congr (l : LaneId) (y : Eye) {s t : State} (h : t.eyes.get l = s.eyes.get l) :
    eyeState l y t = eyeState l y s := by
  simp [eyeState, h]

/-- A change made at each of a list of eyes, none of them twice, is made once at those in the list. -/
theorem eyeState_foldl (l : LaneId) (z : Eye) (f : EyeState → EyeState) (ys : List Eye) (s : State) (h : ys.Nodup) :
    eyeState l z (ys.foldl (fun s y => updEye l y f s) s) = if z ∈ ys then f (eyeState l z s) else eyeState l z s := by
  induction ys generalizing s with
  | nil => rfl
  | cons y ys ih =>
    obtain ⟨hy, hys⟩ := List.nodup_cons.mp h
    rw [List.foldl_cons, ih _ hys]
    by_cases hz : z = y
    · subst hz
      simp [hy]
    · simp [hz, eyeState_updEye_other l f s hz]

theorem mem_allEyes (y : Eye) : y ∈ allEyes := by cases y <;> decide

/-! ### An encoder count -/

/-- The belt's part of an encoder count. -/
def countedBelt (forward live : Bool) (b : Belt) : Belt :=
  if forward then
    { b with
      counter := b.counter + 1, fwd := b.fwd + 1, live := if live then b.live + 1 else b.live,
      intervalCount := b.intervalCount + 1 }
  else { b with counter := b.counter - 1 }

theorem foldl_updEye_belt (l : LaneId) (f : EyeState → EyeState) (ys : List Eye) (s : State) :
    (ys.foldl (fun s y => updEye l y f s) s).belt = s.belt := by
  induction ys generalizing s with
  | nil => rfl
  | cons y ys ih => exact ih _

theorem countBelt_belt (l : LaneId) (forward : Bool) (s : State) :
    (countBelt l forward s).belt.get l = countedBelt forward (forward && delivers (laneMode l s)) (s.belt.get l) := by
  unfold countBelt
  dsimp only
  have hm : ∀ g u, (if moves l u = true then updTrack l g u else u).belt = u.belt := by
    intro g u; split <;> rfl
  rw [hm]
  by_cases hl : (forward && delivers (laneMode l s)) = true
  · rw [if_pos hl, foldl_updEye_belt, updBelt_belt, PerLane.get_upd_self]
    simp [countedBelt, hl]
  · rw [if_neg hl, updBelt_belt, PerLane.get_upd_self]
    simp [countedBelt, hl]

theorem countBelt_eyeState (l : LaneId) (forward : Bool) (y : Eye) (s : State) :
    eyeState l y (countBelt l forward s) =
      if forward = true ∧ delivers (laneMode l s) = true ∧ (eyeState l y s).dark = true then
        { eyeState l y s with darkCount := (eyeState l y s).darkCount + 1 }
      else eyeState l y s := by
  unfold countBelt
  dsimp only
  have hm : ∀ g u, (if moves l u = true then updTrack l g u else u).eyes = u.eyes := by
    intro g u; split <;> rfl
  rw [eyeState_congr l y (congrArg (fun e => e.get l) (hm _ _))]
  have hb : ∀ g, eyeState l y (updBelt l g s) = eyeState l y s := fun g => rfl
  by_cases hl : (forward && delivers (laneMode l s)) = true
  · rw [if_pos hl, eyeState_foldl l y _ _ _ (by decide), if_pos (mem_allEyes y), hb]
    rw [Bool.and_eq_true] at hl
    simp [hl.1, hl.2]
  · rw [if_neg hl, hb, if_neg]
    rintro ⟨h1, h2, -⟩
    exact hl (by rw [h1, h2]; rfl)

/-! ### Times in counts -/

theorem leadCounts_exact {t v : Nat} (h : t * v ≤ 64000 * 4095) :
    t * v ≤ 64000 * leadCounts t v ∧ 64000 * leadCounts t v < t * v + 64000 := by
  unfold leadCounts
  generalize t * v = n at *
  omega

theorem leadCounts_cut {t v : Nat} (h : 64000 * 4095 < t * v) : leadCounts t v = 4095 := by
  unfold leadCounts
  generalize t * v = n at *
  omega

end Sys2Proof.Machine

open Sys2Proof Sys2Proof.Machine

/-- Settles O13, by what an encoder count leaves of the belt and of each eye, and the arithmetic of `leadCounts`. -/
theorem countsSpeedAndTimes : Obligations.CountsSpeedAndTimes := by
  refine ⟨fun l fwd s => ?_, fun l s h => ?_, fun t v => ⟨?_, ?_, leadCounts_exact, leadCounts_cut⟩⟩
  · refine ⟨_, event_comes s, ?_⟩
    rw [settle_belt, countBelt_belt]
    have hy : ∀ y, eyeState l y (settle s (countBelt l fwd s)) = eyeState l y (countBelt l fwd s) :=
      fun y => eyeState_congr l y (by rw [settle_eyes])
    simp only [hy, countBelt_eyeState]
    cases fwd <;> simp [countedBelt]
  · refine ⟨_, event_of _ s (by simpa using h), ?_⟩
    simp
  · simp [leadCounts]
  · exact Nat.min_le_right _ _

/-- Settles O2: with no command waiting a step is one tick. -/
theorem emptyQueuePassesOneTick : Obligations.EmptyQueuePassesOneTick := by
  intro s hs
  have hstep : step s = .next (tick s) := by simp [step, hs]
  refine ⟨tick s, hstep, hs, rfl, fun l => ?_, rfl, rfl, rfl, rfl, rfl, rfl, rfl, rfl, rfl, rfl, rfl, rfl⟩
  cases l with
  | lane0 => exact ⟨rfl, rfl, rfl, rfl, rfl⟩
  | lane1 => exact ⟨rfl, rfl, rfl, rfl, rfl⟩

end

