-- ==== Sys2Proof/Proofs/PositionEvents.lean ====
section
/-! The position events of entries that only mark an entry, and what a lane that is STOPPED, or delivers no edges, takes. -/

namespace Sys2Proof.Machine

/-! ### Position events and the lane's state -/

theorem moves_iff (l : LaneId) (s : State) : moves l s = true ↔ laneMode l s ≠ .stopped := by simp [moves]

theorem moves_of_stopped {l : LaneId} {s : State} (h : laneMode l s = .stopped) : moves l s = false := by
  simp [moves, h]

theorem event_false {comes : Bool} (body : State → State) (s : State) (h : comes = false) :
    event comes body s = .next s := by
  simp [event, h]

/-- A position event of an entry in the queue comes about in a lane that is not STOPPED. -/
theorem entryEvent_of {l : LaneId} {n : Nat} {comes : Entry → Bool} {s : State} {e : Entry}
    (body : Entry → State → State) (hm : laneMode l s ≠ .stopped) (hf : findEntry l n s = some e) (hc : comes e = true) :
    entryEvent l n comes body s = .next (settle s (body e s)) := by
  unfold entryEvent
  rw [hf]
  exact event_of _ _ (by rw [(moves_iff l s).mpr hm, hc]; rfl)

theorem entryEvent_stopped {l : LaneId} {s : State} (n : Nat) (comes : Entry → Bool) (body : Entry → State → State)
    (h : laneMode l s = .stopped) : entryEvent l n comes body s = .next s := by
  unfold entryEvent
  split
  · rfl
  · exact event_false _ _ (by rw [moves_of_stopped h]; rfl)

/-! ### What a STOPPED lane does not take -/

section
variable {l : LaneId} {s : State}

theorem execSampleTaken_stopped (n : Nat) {r : List (BitVec 12)} (h : laneMode l s = .stopped) (hr : r.length = 12) :
    execSampleTaken l n r s = .next s := by
  unfold execSampleTaken
  rw [if_pos (by simp [readingsOk, hr])]
  split
  · rfl
  · exact event_false _ _ (by simp [sampleDue, moves_of_stopped h])

theorem execGateOnEvent_stopped (g : Gate) (h : laneMode l s = .stopped) : execGateOnEvent l g s = .next s := by
  unfold execGateOnEvent
  split
  · rfl
  · exact event_false _ _ (by simp [moves_of_stopped h])

theorem execGateWindowClose_stopped (g : Gate) (h : laneMode l s = .stopped) :
    execGateWindowClose l g s = .next s := by
  unfold execGateWindowClose
  split
  · rfl
  · exact event_false _ _ (by simp [moves_of_stopped h])

theorem execPrintStart_stopped (d : Side) (h : laneMode l s = .stopped) : execPrintStart l d s = .next s := by
  unfold execPrintStart
  split
  · rfl
  · exact event_false _ _ (moves_of_stopped h)

theorem execPrintEnd_stopped (d : Side) (h : laneMode l s = .stopped) : execPrintEnd l d s = .next s := by
  unfold execPrintEnd
  split
  · rfl
  · exact event_false _ _ (by simp [moves_of_stopped h])

theorem execVerifyEntryExpiry_stopped (d : Side) (h : laneMode l s = .stopped) :
    execVerifyEntryExpiry l d s = .next s := by
  unfold execVerifyEntryExpiry
  split
  · rfl
  · exact event_false _ _ (by simp [moves_of_stopped h])

end

/-! ### Edges that are not delivered -/

section
variable {l : LaneId} {s t : State} {ps : List Part}

theorem delivers_of_rest {m : LaneMode} (h : m = .off ∨ m = .stopped ∨ m = .standby) : delivers m = false := by
  rcases h with rfl | rfl | rfl <;> rfl

theorem acceptEdge_laneMode (l k : LaneId) (y : Eye) (d : Bool) (s : State) :
    laneMode k (acceptEdge l y d s) = laneMode k s := rfl

/-- An event whose body changes only listed parts does so with its end. -/
theorem event_changesOnly {comes : Bool} {body : State → State} (h : event comes body s = .next t)
    (hb : Only (fun p => p ∈ eventEnd ∨ p ∈ ps) s (body s)) : changesOnly ps s t := by
  rcases event_next h with ⟨-, rfl⟩ | ⟨-, rfl⟩
  · exact settle_only s hb (fun p hp => Or.inl hp)
  · exact only_refl _ _

theorem acceptEdge_changesOnly (y : Eye) (d : Bool) (h : Part.eyes l ∈ ps) :
    Only (fun p => p ∈ eventEnd ∨ p ∈ ps) s (acceptEdge l y d s) :=
  acceptEdge_only l y d (only_refl _ _) (Or.inr h)

theorem arrivalEvent_undelivered {y : Eye} {held : Nat} {body : Pos → State → State}
    (hd : delivers (laneMode l s) = false) (h : arrivalEvent l y held body s = .next t) :
    changesOnly [.eyes l] s t := by
  refine event_changesOnly h ?_
  dsimp only
  rw [acceptEdge_laneMode, if_neg (by simp [hd])]
  exact acceptEdge_changesOnly y true (by simp)

theorem execVerifyEdge_undelivered {d : Side} {held : Nat} (hd : delivers (laneMode l s) = false)
    (h : execVerifyEdge l d held s = .next t) : changesOnly [.eyes l] s t := by
  refine event_changesOnly h ?_
  dsimp only
  rw [acceptEdge_laneMode, if_neg (by simp [hd])]
  exact acceptEdge_changesOnly _ true (by simp)

theorem execELeadingEdge_undelivered {held : Nat} (hd : delivers (laneMode l s) = false)
    (h : execELeadingEdge l held s = .next t) : changesOnly [.eyes l, .sfe l] s t := by
  refine event_changesOnly h ?_
  dsimp only
  have hm : ∀ f, laneMode l (updSfe l f (acceptEdge l .e true s)) = laneMode l s := fun _ => rfl
  rw [hm, if_neg (by simp [hd])]
  exact updSfe_only l _ (acceptEdge_changesOnly .e true (by simp)) (by simp)

theorem execETrailingEdge_undelivered {held : Nat} (hd : delivers (laneMode l s) = false)
    (h : execETrailingEdge l held s = .next t) : changesOnly [.eyes l, .sfe l] s t := by
  refine event_changesOnly h ?_
  dsimp only
  have hm : ∀ f, laneMode l (updSfe l f (acceptEdge l .e false s)) = laneMode l s := fun _ => rfl
  rw [hm, if_neg (by simp [hd])]
  exact updSfe_only l _ (acceptEdge_changesOnly .e false (by simp)) (by simp)

end

/-! ### The passing of a cancel eye's window -/

theorem hasReleased_congr (l : LaneId) (h : Side) (n : Nat) {s t : State} (he : head l h t = head l h s) :
    hasReleased l h n t = hasReleased l h n s := by
  simp [hasReleased, he]

@[simp] theorem updEntry_head (l k : LaneId) (h : Side) (n : Nat) (f : Entry → Entry) (s : State) :
    head k h (updEntry l n f s) = head k h s := rfl

@[simp] theorem head_updHead (l : LaneId) (h : Side) (f : Head → Head) (s : State) :
    head l h (updHead l h f s) = f (head l h s) := by
  simp [head]

theorem head_updHead_other (l : LaneId) {h k : Side} (f : Head → Head) (s : State) (hk : k ≠ h) :
    head l k (updHead l h f s) = head l k s := by
  simp [head, PerSide.get_upd_other _ _ hk]

/-- What the withdrawal of an item's print at one head leaves of the track queue. -/
theorem withdrawAt_track (l : LaneId) (h : Side) (n : Nat) (s : State) :
    (withdrawAt l h n s).track.get l = { s.track.get l with queue := (s.track.get l).queue.map (fun e =>
      if e.serial = n then { e with printResult := if hasReleased l h n s then none else e.printResult } else e) } := by
  unfold withdrawAt
  dsimp only
  split
  · rw [updEntry_track]; rfl
  · simp

/-- What it leaves of the print list. -/
theorem withdrawAt_head (l : LaneId) (h : Side) (n : Nat) (s : State) :
    head l h (withdrawAt l h n s) = { head l h s with
      prints := (head l h s).prints.filter (fun p => p.serial != n || p.state == .printing) } := by
  unfold withdrawAt
  dsimp only
  split <;> simp

theorem withdrawAt_head_other (l : LaneId) {h k : Side} (n : Nat) (s : State) (hk : k ≠ h) :
    head l k (withdrawAt l h n s) = head l k s := by
  unfold withdrawAt
  dsimp only
  split <;> simp [head_updHead_other _ _ _ hk]

end Sys2Proof.Machine

open Sys2Proof Sys2Proof.Machine

/-- Settles O11: a STOPPED lane's position events do not come about, and an edge that is not delivered changes no more
than the record of the edge. -/
theorem stoppedAndUndelivered : Obligations.StoppedAndUndelivered := by
  refine ⟨fun l s hs n h g r hr => ?_, fun l s hs held h p t => ⟨?_, ?_⟩⟩
  · exact ⟨entryEvent_stopped _ _ _ hs, entryEvent_stopped _ _ _ hs, entryEvent_stopped _ _ _ hs,
      entryEvent_stopped _ _ _ hs, entryEvent_stopped _ _ _ hs, entryEvent_stopped _ _ _ hs,
      entryEvent_stopped _ _ _ hs, execSampleTaken_stopped n hs hr, execGateOnEvent_stopped g hs,
      execGateWindowClose_stopped g hs, execPrintStart_stopped h hs, execPrintEnd_stopped h hs,
      execVerifyEntryExpiry_stopped h hs⟩
  · have hd := delivers_of_rest hs
    rintro (ht | ht | ht | ht)
    · exact arrivalEvent_undelivered hd ht
    · exact arrivalEvent_undelivered hd ht
    · exact arrivalEvent_undelivered hd ht
    · exact execVerifyEdge_undelivered hd ht
  · have hd := delivers_of_rest hs
    rintro (ht | ht)
    · exact execELeadingEdge_undelivered hd ht
    · exact execETrailingEdge_undelivered hd ht

/-- Settles O18, by what a mark of one entry and a withdrawal leave of the queue and of a print list. -/
theorem bankPositionAndWindowsPassed : Obligations.BankPositionAndWindowsPassed := by
  refine ⟨fun l s e hm he => ⟨fun hp hc => ?_, fun hp ht hc => ?_⟩, fun l h s e hm he hp hc => ?_⟩
  · refine ⟨_, entryEvent_of _ hm he ?_, ?_⟩
    · simp [hp, isNow, counter, hc]
    · rw [settle_track, updEntry_track]
  · refine ⟨_, entryEvent_of _ hm he ?_, ?_⟩
    · simp [hp, ht, eyeWindowPasses, stationOf, isNow, counter, hc]
    · rw [settle_track, updEntry_track]
  · have hw : eyeWindowPasses l (cancelEyeOf h) e s = true := by
      cases h <;> simp [eyeWindowPasses, stationOf, cancelEyeOf, isNow, counter, hc, PerSide.get]
    refine ⟨_, entryEvent_of _ hm he (by simp [hp, hw]), ?_⟩
    have hh : ∀ k (u : State), head l k (settle s u) = head l k u := fun k u => by simp [head]
    simp only [settle_track, hh]
    unfold passCancelWindow
    dsimp only
    by_cases hx : e.cancelEye.map (fun c => c.1) = some h
    · simp [hx, updEntry_track]
    · simp only [hx, if_false, not_false_eq_true, true_and, ne_eq, withdrawAt_track, withdrawAt_head, updEntry_track,
        updEntry_head, hasReleased_congr l h e.serial (updEntry_head l l h e.serial _ s), List.map_map]
      refine ⟨?_, fun k hk => withdrawAt_head_other l e.serial _ hk⟩
      congr 1
      refine List.map_congr_left (fun x _ => ?_)
      by_cases hn : x.serial = e.serial <;> simp [hn]

end

