-- ==== Sys2Proof/Proofs/LongAndForced.lean ====
section
/-! LONG_TIMEOUT and FORCED_DELIVERY: a verdict given to an entry, and what a delivery leaves of it. -/

namespace Sys2Proof.Machine

/-- What a delivery leaves of the entry delivered (R14). -/
theorem findEntry_deliver {l : LaneId} {s : State} {e x : Entry} (v : Verdict)
    (hk : trackOk (s.track.get l) = true) (hx : findEntry l e.serial s = some x) :
    ∃ f, findEntry l e.serial (deliver l e v s) = some f ∧ f.verdict = x.verdict ∧ f.delivered = true ∧
      f.stage = .planned ∧ f.plan.isSome = true := by
  have ht := planVerdict_track l l e v s
  obtain ⟨p, hp⟩ : ∃ p, p = (planVerdict l e v s).2 := ⟨_, rfl⟩
  have hu : findEntry l e.serial (updEntry l e.serial (fun x =>
      { x with delivered := true, plan := some p, stage := .planned }) (planVerdict l e v s).1) =
        some { x with delivered := true, plan := some p, stage := .planned } := by
    rw [findEntry_updEntry, findEntry_congr _ ht, hx]
    · rfl
    · exact fun _ => rfl
  have hok := trackOk_map (φ := fun y => if y.serial = e.serial then
    { y with delivered := true, plan := some p, stage := .planned } else y) hk (fun y _ => by split <;> rfl)
  obtain ⟨f, hf, ha⟩ := Steady.findEntry advanced_order (((countVerdict_calm l v _).trans
    ((countBlock_calm l .flipAccuracy _).trans (countBlock_calm l .bankAccuracy _))).trans
      (gateWork_calm l (p.windows.map (fun w => GateWork.load w.gate)) _))
    (by rw [updEntry_track, ht]; exact hok) hu
  obtain ⟨hd, hs, hpl⟩ := ha.delivered rfl
  refine ⟨f, ?_, by rw [ha.rest], hd, hs, hpl⟩
  rw [← hf, hp]
  rfl

/-- A delivered entry stays as it was delivered when others are delivered after it. -/
theorem findEntry_deliverAll {l : LaneId} {n : Nat} {s : State} {e : Entry} (hk : trackOk (s.track.get l) = true)
    (he : findEntry l n s = some e) : ∃ f, findEntry l n (deliverAll l s) = some f ∧ Advanced e f :=
  Steady.findEntry advanced_order (deliverAll_calm l s) hk he

end Sys2Proof.Machine

open Sys2Proof Sys2Proof.Machine

/-- Settles O17, by what a verdict given to an entry and a delivery leave of it. -/
theorem longAndForcedDelivery : Obligations.LongAndForcedDelivery := by
  intro l s e hk hm he
  have hgk : ∀ v, trackOk ((giveVerdict l e.serial v s).track.get l) = true :=
    fun v => Steady.trackOk follows_order (giveVerdict_lasting l e.serial v s) hk
  have hge : ∀ v, findEntry l e.serial (giveVerdict l e.serial v s) = some (given v e) :=
    fun v => by rw [findEntry_giveVerdict, he]; rfl
  have hset : ∀ u, findEntry l e.serial (settle s u) = findEntry l e.serial u :=
    fun u => findEntry_congr _ (by rw [settle_track])
  refine ⟨fun ht hc => ?_, fun hd hc => ?_⟩
  · obtain ⟨f, hf, ha⟩ := findEntry_deliverAll (hgk (plainVerdict .long)) (hge (plainVerdict .long))
    have hc' : isNow (posAdd e.leadE 1169) (counter l s) = true := by
      simp [isNow, counter, hc, posAdd]
    refine ⟨_, f, entryEvent_of _ hm he (by simp [ht, hc']), by rw [hset, hf], ?_, ?_⟩
    · rw [ha.rest, given_verdict]
    · rw [ha.rest, given_rest]
      exact ht
  · have hserial : (given (plainVerdict .late) e).serial = e.serial := by rw [given_rest]
    have hdeliv : (given (plainVerdict .late) e).delivered = false := by rw [given_rest]; exact hd
    have hforce : forceDelivery l e s = deliverAll l (deliver l (given (plainVerdict .late) e)
        (e.verdict.getD (plainVerdict .late)) (giveVerdict l e.serial (plainVerdict .late) s)) := by
      unfold forceDelivery
      simp only [hge, given_verdict]
    obtain ⟨x, hx, hv, hxd, hxs, hxp⟩ := findEntry_deliver (e := given (plainVerdict .late) e)
      (e.verdict.getD (plainVerdict .late)) (hgk (plainVerdict .late)) (by rw [hserial]; exact hge _)
    rw [hserial] at hx
    have hk' := Steady.trackOk advanced_order (deliver_calm l (given (plainVerdict .late) e)
      (e.verdict.getD (plainVerdict .late)) (giveVerdict l e.serial (plainVerdict .late) s) (fun _ y hy => by
        rw [hserial, hge] at hy; cases hy; exact hdeliv)) (hgk (plainVerdict .late))
    obtain ⟨f, hf, ha⟩ := findEntry_deliverAll hk' hx
    obtain ⟨hfd, hfs, hfp⟩ := ha.delivered hxd
    refine ⟨_, f, entryEvent_of _ hm he (by simp [hd, isNow, counter, hc]), ?_, ?_, hfd, hfs.trans hxs, hfp.trans hxp⟩
    · rw [hset, hforce, hf]
    · rw [ha.rest, hv, given_verdict]

end

