-- ==== Sys2Proof/Proofs/CrossedReroute.lean ====
section
/-! The counterexample to the HEAD_DRY clause of ARRIVAL_CANCEL_EYE. A refused print is sent on by the removal of its
item's window at the pocket's gate (R97). The window behind it there is missed and its item rerouted (R75), the removal
of that item's window at the flip gate brings a missed window of the first item to the head, and the reroute of the first
item withdraws its RELEASED print at the other head, which takes its print result back (R95). -/

namespace Sys2Proof.Machine

/-- An item on the near path with windows at the flip gate and at N1. -/
def crossedItem (n : Nat) : Entry :=
  { newEntry n (posSub 0 7600) 0 0 with
    stage := .onPath, delivered := true, verdict := some (plainVerdict .noMark), flipReached := true,
    plan := some { reject := false, cause := none, flip := true, bank := .near, print := none, pocket := .n1,
                   windows := [⟨.flip, posSub 0 20, posSub 0 10⟩, ⟨.n1, posSub 0 20, posSub 0 10⟩] } }

def crossedPrint (st : PrintState) : Print :=
  { serial := 1, style := 1, kind := .bars, generation := none, unsetGen := false, width := 0, anchor := 0, startMm := 0,
    columns := 0, clipped := false, state := st, start := 0, image := none }

/-- A list of two windows, the second one passed already. -/
def crossedList (first second : Nat) (c : Channel) : Channel :=
  { c with windows := [⟨10, 20, [first], .armed⟩, ⟨posSub 0 20, posSub 0 10, [second], .queued⟩] }

/-- Items 1 and 2, item 1 before item 2 at N1 and behind it at the flip gate; item 1 has a POSTED print at the DRY near
head and a RELEASED one at the far head. -/
def crossedState : State :=
  updTrack .lane0 (fun t => { t with queue := [crossedItem 1, crossedItem 2], lastSerial := 2 })
  (updLsq .lane0 (fun q => { q with mode := .running })
  (updHead .lane0 .near (fun d => { d with wet := .dry, prints := [crossedPrint .posted] })
  (updHead .lane0 .far (fun d => { d with prints := [crossedPrint .released] })
  (updChannel .lane0 .n1 (crossedList 1 2)
  (updChannel .lane0 .flip (crossedList 2 1) State.reset)))))

/-- The print result of item 1 after an answer. -/
def resultOf (o : Host.Outcome State Fault Refusal) : Option PrintResult :=
  match o with
  | .next t => (findEntry .lane0 1 t).bind (fun e => e.printResult)
  | _ => none

theorem crossedState_result : resultOf (exec (.arrivalCancelEye .lane0 .near 4) crossedState) = none := by
  decide +kernel

theorem crossedState_matched : (crossedState.track.get .lane0).queue.find? (fun e => e.stage == .onPath &&
    e.cancelEye.isNone && eyeWindowHas .lane0 (cancelEyeOf .near) e 0 crossedState) = some (crossedItem 1) := by
  decide +kernel

end Sys2Proof.Machine

open Sys2Proof Sys2Proof.Machine

/-- Refutes O20: of an item on its path whose print is refused with HEAD_DRY the print result is taken back within the
event when the removal of its window at N1 reroutes it through another item. -/
theorem not_arrivalAtACancelEye : ¬ Obligations.ArrivalAtACancelEye := by
  intro h
  have hx := h .lane0 .near crossedState 0 (by decide +kernel) (by decide +kernel) (by decide +kernel)
    (by decide +kernel) (by decide +kernel) (by decide +kernel)
  rw [crossedState_matched] at hx
  obtain ⟨t, f, ht, hf, -, -, hon, -⟩ := hx
  obtain ⟨-, hposted⟩ := hon (Or.inl rfl) rfl
  obtain ⟨-, hdry, -⟩ := hposted (crossedPrint .posted) (by decide +kernel)
  obtain ⟨hresult, -⟩ := hdry (by decide +kernel)
  have hnone := crossedState_result
  rw [ht] at hnone
  have hf' : findEntry .lane0 1 t = some f := hf
  simp [resultOf, hf', hresult] at hnone

end

