-- ==== Sys2Proof/Proofs/Arrivals.lean ====
section
/-! Edges as they are delivered, the records an event writes, and the arrivals at the twist eye (R16). -/

namespace Sys2Proof.Machine

/-! ### A delivered edge -/

section
variable {l : LaneId} {y : Eye} {s : State}

/-- R5: with the eye filter on an edge is captured at the oldest of the four sample records. -/
theorem capturedSample_filtered (hg : (geometry l s).eyeFilter = true) (hn : (s.belt.get l).samples.length = 4) :
    capturedSample l s = (s.belt.get l).samples.getD 0 ⟨0, 0, 0⟩ := by
  unfold capturedSample
  obtain ⟨b, hb⟩ : ∃ b, (s.belt.get l).samples = b := ⟨_, rfl⟩
  rw [hb] at hn
  cases b with
  | nil => cases hn
  | cons x xs => simp [hg, hb]

theorem edgeComes_filtered {d : Bool} (hd : (eyeState l y s).dark = !d) (hg : (geometry l s).eyeFilter = true) :
    edgeComes l y d 4 s = true := by
  cases d <;> simp_all [edgeComes]

/-- A delivered arrival: the edge is accepted and the arrival's body has the captured position. -/
theorem arrivalEvent_of {body : Pos → State → State} (hd : (eyeState l y s).dark = false)
    (hg : (geometry l s).eyeFilter = true) (hm : delivers (laneMode l s) = true)
    (hn : (s.belt.get l).samples.length = 4) :
    arrivalEvent l y 4 body s =
      .next (settle s (body ((s.belt.get l).samples.getD 0 ⟨0, 0, 0⟩).pos (acceptEdge l y true s))) := by
  unfold arrivalEvent
  rw [event_of _ _ (edgeComes_filtered (d := true) hd hg)]
  dsimp only
  rw [acceptEdge_laneMode, if_pos hm, captured, capturedSample_filtered hg hn]

end

theorem findEntry_acceptEdge (l k : LaneId) (y : Eye) (d : Bool) (n : Nat) (s : State) :
    findEntry k n (acceptEdge l y d s) = findEntry k n s := rfl

theorem findEntry_settle (l : LaneId) (n : Nat) (old s : State) : findEntry l n (settle old s) = findEntry l n s :=
  findEntry_congr n (by rw [settle_track])

/-! ### Records of events -/

theorem perLane_ext {α : Type} {p q : PerLane α} (h : ∀ l, p.get l = q.get l) : p = q := by
  obtain ⟨a, b⟩ := p
  obtain ⟨c, d⟩ := q
  have h0 : a = c := h .lane0
  have h1 : b = d := h .lane1
  rw [h0, h1]

/-- An event record is counted in no tally set. -/
theorem emit_tally (c : EventCode) (l : Option LaneId) (j n a b : Nat) (s : State) :
    (emit c l j n a b s).tally = s.tally := by
  have h : Only (fun p => p = .raised ∨ p = .journal) s (emit c l j n a b s) := by
    apply emit_only (h := only_refl _ _) <;> simp
  exact perLane_ext (fun k => h (.tally k) (by simp))

theorem emit_track (c : EventCode) (l : Option LaneId) (j n a b : Nat) (s : State) :
    (emit c l j n a b s).track = s.track := by
  have h : Only (fun p => p = .raised ∨ p = .journal) s (emit c l j n a b s) := by
    apply emit_only (h := only_refl _ _) <;> simp
  exact perLane_ext (fun k => h (.track k) (by simp))

section
variable {s t : State}

/-- The journal takes the next page by its own state alone. -/
theorem takePage_jrn (h : t.jrn = s.jrn) : (takePage t).jrn = (takePage s).jrn := by
  unfold takePage
  rw [h]
  split
  · split
    · dsimp only
      split <;> simp [updJrn, raise, h]
    · exact h
  · exact h

theorem closePage_jrn (why : FillReason) (h : t.jrn = s.jrn) : (closePage why t).jrn = (closePage why s).jrn := by
  unfold closePage
  rw [h]
  split
  · exact h
  next p _ =>
    have hr : ∀ (c : Prop) [Decidable c] (u : State), (if c then raise .pagesLow u else u).jrn = u.jrn := by
      intro c _ u; split <;> rfl
    rw [hr, hr]
    exact takePage_jrn (by simp [updJrn, h])

theorem recordWithoutPage_jrn (r : Rec) (h : t.jrn = s.jrn) :
    (recordWithoutPage r t).jrn = (recordWithoutPage r s).jrn := by
  cases r <;> simp [recordWithoutPage, countUp, tallyPlace, updJrn, h]

theorem placeRecord_jrn (r : Rec) (h : t.jrn = s.jrn) : (placeRecord r t).jrn = (placeRecord r s).jrn := by
  have hc := closePage_jrn .full h
  have ha : ∀ u v : State, v.jrn = u.jrn → (appendRecord r v).jrn = (appendRecord r u).jrn := by
    intro u v e; simp [appendRecord, updJrn, e]
  unfold placeRecord
  dsimp only
  rw [h, hc]
  split
  · exact recordWithoutPage_jrn r h
  · split
    · exact ha _ _ h
    · split
      · exact recordWithoutPage_jrn r hc
      · exact ha _ _ hc

/-- What an event record leaves of the journal depends on the journal and the time alone. -/
theorem emit_jrn (c : EventCode) (l : Option LaneId) (j n a b : Nat) (h : t.jrn = s.jrn) (hc : t.clock = s.clock) :
    (emit c l j n a b t).jrn = (emit c l j n a b s).jrn := by
  unfold emit
  rw [hc]
  exact placeRecord_jrn _ h

end

/-- What a phantom leaves (R16). -/
theorem phantom_eq (l : LaneId) (y : Eye) (p : Pos) (s : State) :
    (phantom l y p s).track = s.track ∧
      (phantom l y p s).jrn = (emit .phantom (some l) (eyeCode y).val 0 p.toNat 0 s).jrn ∧
      (phantom l y p s).tally.get l = (s.tally.get l).set 102 (satAdd32 ((s.tally.get l).getD 102 0) 1) := by
  refine ⟨emit_track _ _ _ _ _ _ s, rfl, ?_⟩
  have h := countUp_tally l (c := .phantoms) (emit .phantom (some l) (eyeCode y).val 0 p.toNat 0 s) rfl
  rw [emit_tally] at h
  exact h

/-! ### Reroutes at an eye -/

/-- A reroute's cause is all that it changes of the track queue. -/
theorem writeCause_track (l : LaneId) (n : Nat) (c : RerouteCause) (j : Nat) (s : State) :
    (writeCause l n c j s).track = (updEntry l n (fun e => { e with reroute := some c }) s).track := by
  unfold writeCause
  dsimp only
  have h : (countUp l (.rerouted c) (emit (rerouteEvent c) (some l) j n 0 0
      (updEntry l n (fun e => { e with reroute := some c }) s))).track =
        (updEntry l n (fun e => { e with reroute := some c }) s).track := by
    rw [countUp_track, emit_track]
  split
  · exact h
  · exact h

/-- The first step of a reroute at an eye, and the gate work it brings on. -/
theorem rerouteAtEye_eq (l : LaneId) (n : Nat) (c : RerouteCause) (y : Eye) (s : State) :
    rerouteAtEye l n c y s = runWork l 1999 ((rerouteItem l n c (eyeCode y).val s).2 ++ [])
      (rerouteItem l n c (eyeCode y).val s).1 := rfl

/-- The entry after a reroute at an eye: it has its first cause, and gate work may have struck windows of it. -/
theorem findEntry_rerouteAtEye {l : LaneId} {n : Nat} {s : State} {e : Entry} (c : RerouteCause) (y : Eye)
    (hk : trackOk (s.track.get l) = true) (he : findEntry l n s = some e) :
    ∃ f, findEntry l n (rerouteAtEye l n c y s) = some f ∧ Advanced { e with reroute := some (e.reroute.getD c) } f := by
  rw [rerouteAtEye_eq]
  have hitem := rerouteItem_calm l n c (eyeCode y).val s
  have hfirst : findEntry l n (rerouteItem l n c (eyeCode y).val s).1 =
      some { e with reroute := some (e.reroute.getD c) } := by
    unfold rerouteItem
    rw [he]
    dsimp only
    cases hr : e.reroute with
    | some d =>
      have hs : findEntry l n (secondCause l n c (eyeCode y).val s) = findEntry l n s := by
        refine findEntry_congr n ?_
        unfold secondCause
        split
        · rw [emit_track]
        · rfl
      obtain ⟨⟩ := e
      simp_all
    | none =>
      simp only [Option.isSome_none, Option.getD_none, Bool.false_eq_true, if_false]
      rw [findEntry_congr (t := writeCause l n c (eyeCode y).val s) n
        (congrArg (fun t => t.get l) (writeCause_track l n c (eyeCode y).val s)), findEntry_updEntry, he]
      · rfl
      · exact fun _ => rfl
  exact Steady.findEntry advanced_order (runWork_calm l _ _ _) (hitem.trackOk advanced_order hk) hfirst

/-- An item that has a cause and holds no gate window: the eye's event is all that a reroute writes (R15, R78). -/
theorem rerouteAtEye_second {l : LaneId} {n : Nat} {s : State} {e : Entry} {c : RerouteCause} (y : Eye)
    (he : findEntry l n s = some e) (hr : e.reroute.isSome = true) (hg : heldGates e = []) (hc : atEye c = true) :
    rerouteAtEye l n c y s = emit (rerouteEvent c) (some l) (eyeCode y).val n 0 0 s := by
  rw [rerouteAtEye_eq]
  simp [rerouteItem, he, hr, hg, secondCause, hc, runWork]

end Sys2Proof.Machine

open Sys2Proof Sys2Proof.Machine

/-- Settles O19, by what the first step of a reroute at an eye leaves of an entry, which later gate work keeps. -/
theorem arrivalAtTheTwistEye : Obligations.ArrivalAtTheTwistEye := by
  intro l s hk hd hg hm hn
  obtain ⟨p, hp⟩ : ∃ p, p = ((s.belt.get l).samples.getD 0 ⟨0, 0, 0⟩).pos := ⟨_, rfl⟩
  have hexec := arrivalEvent_of (body := arriveT l) hd hg hm hn
  rw [← hp] at hexec ⊢
  obtain ⟨u, hu⟩ : ∃ u, u = acceptEdge l .t true s := ⟨_, rfl⟩
  have hmatch : matchEntry l .t p (fun e => e.flipReached && !e.seenAtT) u =
      (s.track.get l).queue.find? (fun e => e.flipReached && !e.seenAtT && eyeWindowHas l .t e p s) := by
    rw [hu]; rfl
  have hut : u.track = s.track := by rw [hu]; rfl
  rw [← hu] at hexec
  unfold arriveT at hexec
  rw [hmatch] at hexec
  split
  next e he =>
    rw [he] at hexec
    dsimp only at hexec
    obtain ⟨v, hv⟩ : ∃ v, v = updEntry l e.serial (fun x => { x with seenAtT := true }) u := ⟨_, rfl⟩
    rw [← hv] at hexec
    have hes : findEntry l e.serial s = some e := findEntry_of_mem hk (List.mem_of_find?_eq_some he)
    have hev : findEntry l e.serial v = some { e with seenAtT := true } := by
      rw [hv, findEntry_updEntry, findEntry_congr (s := s) _ (by rw [hut]), hes]
      · rfl
      · exact fun _ => rfl
    have hvt : v.track.get l = { s.track.get l with queue := (s.track.get l).queue.map (fun x =>
        if x.serial = e.serial then { x with seenAtT := true } else x) } := by
      rw [hv, updEntry_track, hut]
    by_cases hf : planFlips e = true
    · rw [if_pos hf] at hexec
      refine ⟨_, { e with seenAtT := true }, hexec, by rw [findEntry_settle, hev], rfl, fun _ => ?_, ?_, ?_⟩
      · rw [settle_track, hvt]
      · exact fun h => absurd hf (by simp [h])
      · exact fun h => absurd hf (by simp [h])
    · rw [if_neg hf] at hexec
      have hkv : trackOk (v.track.get l) = true := by
        rw [hvt]
        exact trackOk_map hk (fun x _ => by split <;> rfl)
      obtain ⟨f, hff, ha⟩ := findEntry_rerouteAtEye .misflip .t hkv hev
      refine ⟨_, f, hexec, by rw [findEntry_settle, hff], by rw [ha.rest], fun h => absurd h hf,
        fun _ => ha.reroute rfl, fun _ hr hh => ?_⟩
      rw [settle_jrn, settle_tally, rerouteAtEye_second .t hev hr hh rfl, emit_tally]
      exact ⟨emit_jrn _ _ _ _ _ _ (by rw [hv, hu]; rfl) (by rw [hv, hu]; rfl), by rw [hv, hu]; rfl⟩
  next he =>
    rw [he] at hexec
    obtain ⟨ht, hj, hn⟩ := phantom_eq l .t p u
    refine ⟨_, hexec, by rw [settle_track, ht, hut], ?_, ?_⟩
    · rw [settle_jrn, hj]
      exact emit_jrn _ _ _ _ _ _ (by rw [hu]; rfl) (by rw [hu]; rfl)
    · rw [settle_tally, hn, hu]
      rfl

end

