-- ==== Sys2Proof/Proofs/LaneRecords.lean ====
section
/-! What the shared operations of the Lane Sequencer leave of its record, field by field, and that a reason raised within
an event stays raised to its end (R177). -/

namespace Sys2Proof.Machine

section
variable {s t u : State}

/-- A lane's record stands where neither it nor its idle timer may change. -/
theorem lsq_of_only {ps : Part → Prop} (l : LaneId) (h : Only ps s t) (h1 : ¬ ps (.lane l)) (h2 : ¬ ps (.idle l)) :
    t.lsq.get l = s.lsq.get l := by
  have hl : { t.lsq.get l with idle := 0 } = { s.lsq.get l with idle := 0 } := h (.lane l) h1
  have hi : (t.lsq.get l).idle = (s.lsq.get l).idle := h (.idle l) h2
  generalize t.lsq.get l = a at *
  generalize s.lsq.get l = b at *
  cases a
  cases b
  simp_all

/-! ### Reasons raised within an event -/

/-- A reason has been raised in the running event. -/
def raisedIn (a : Attn) (s : State) : Prop := s.raised &&& attnBit a = attnBit a

/-- From one state to another within an event no reason raised is lost. -/
def RaisedKept (s t : State) : Prop := ∀ a, raisedIn a s → raisedIn a t

theorem RaisedKept.refl (s : State) : RaisedKept s s := fun _ h => h

theorem RaisedKept.trans (h : RaisedKept s t) (k : RaisedKept t u) : RaisedKept s u := fun a ha => k a (h a ha)

theorem raisedKept_of_eq (h : t.raised = s.raised) : RaisedKept s t := by
  intro a ha
  unfold raisedIn at *
  rw [h]
  exact ha

theorem raisedKept_of_only {ps : Part → Prop} (h : Only ps s t) (hp : ¬ ps .raised) : RaisedKept s t :=
  raisedKept_of_eq (h .raised hp)

theorem raisedKept_ite {c : Prop} {_ : Decidable c} {a b : State} (ha : RaisedKept s a) (hb : RaisedKept s b) :
    RaisedKept s (if c then a else b) := by
  split <;> assumption

theorem raisedKept_or {x : BitVec 10} (h : t.raised = s.raised ||| x) : RaisedKept s t := by
  intro a ha
  unfold raisedIn at *
  rw [h]
  generalize attnBit a = b at *
  generalize s.raised = r at *
  rw [← ha]
  ext i hi
  simp
  tauto

theorem raise_kept (a : Attn) (s : State) : RaisedKept s (raise a s) := raisedKept_or rfl

theorem raisedIn_raise (a : Attn) (s : State) : raisedIn a (raise a s) := by
  unfold raisedIn raise
  dsimp only
  generalize attnBit a = b
  generalize s.raised = r
  ext i hi
  simp
  tauto

theorem setHold_kept (l : LaneId) (r : HoldReason) (on : Bool) (s : State) : RaisedKept s (setHold l r on s) := by
  unfold setHold
  split
  · exact RaisedKept.refl s
  · exact raise_kept _ _

theorem takePage_kept (s : State) : RaisedKept s (takePage s) := by
  unfold takePage
  split
  · refine raisedKept_ite ?_ (RaisedKept.refl s)
    exact raisedKept_ite (raise_kept _ _) (RaisedKept.refl s)
  · exact RaisedKept.refl s

theorem closePage_kept (why : FillReason) (s : State) : RaisedKept s (closePage why s) := by
  unfold closePage
  split
  · exact RaisedKept.refl s
  · have h : ∀ f, RaisedKept s (takePage (updJrn f s)) := fun f =>
      (raisedKept_of_eq (t := updJrn f s) rfl).trans (takePage_kept _)
    exact raisedKept_ite ((h _).trans (raise_kept _ _)) (h _)

theorem recordWithoutPage_kept (r : Rec) (s : State) : RaisedKept s (recordWithoutPage r s) := by
  cases r <;> exact raisedKept_of_eq rfl

theorem placeRecord_kept (r : Rec) (s : State) : RaisedKept s (placeRecord r s) := by
  unfold placeRecord
  split
  · exact recordWithoutPage_kept r s
  · refine raisedKept_ite (raisedKept_of_eq rfl) ?_
    dsimp only
    split
    · exact (closePage_kept _ s).trans (recordWithoutPage_kept r _)
    · exact (closePage_kept _ s).trans (raisedKept_of_eq rfl)

theorem emit_kept (c : EventCode) (l : Option LaneId) (j n a b : Nat) (s : State) :
    RaisedKept s (emit c l j n a b s) := placeRecord_kept _ s

/-- A property that each step of a change of lane state keeps holds after it when it holds after the first one. -/
theorem setLane_induct {P : State → Prop} (l : LaneId) (m : LaneMode) (s : State)
    (hm : P (raise .laneState (updLsq l (fun q => { q with mode := m }) s)))
    (hw : ∀ u, P u → P (setHold l .wake false u)) (hr : ∀ o u, P u → P (beginRise l o u))
    (hd : ∀ u, P u → P (restartDark l u)) : P (setLane l m s) := by
  have hite : ∀ (c : Prop) [Decidable c] (a b : State), P a → P b → P (if c then a else b) := by
    intro c _ a b ha hb
    split <;> assumption
  have hwake := hite (laneMode l s = .running ∧ m ≠ .running) _ _ (hw _ hm) hm
  have haim := hite (aimsOn m = true) _ _ (hr (m != .warming) _ hwake) hwake
  exact hite (m = .warming) _ _ (hd _ haim) haim

theorem setLane_kept (l : LaneId) (m : LaneMode) (s : State) :
    RaisedKept (raise .laneState s) (setLane l m s) := by
  refine setLane_induct l m s (raisedKept_of_eq rfl) (fun u h => h.trans (setHold_kept l .wake false u))
    (fun o u h => h.trans ?_) (fun u h => h.trans ?_)
  · exact raisedKept_of_only (ps := fun p => p = .lane l ∨ p = .idle l)
      (beginRise_only l o (only_refl _ _) (Or.inl rfl) (Or.inr rfl)) (by simp)
  · exact raisedKept_of_only (restartDark_only l (only_refl (fun p => p = .eyes l) u) rfl) (by simp)

theorem laneEvent_kept (l : LaneId) (a b : LaneMode) (c : LaneCause) (s : State) :
    RaisedKept s (laneEvent l a b c s) := emit_kept _ _ _ _ _ _ s

/-- A change of lane state raises LANE_STATE (R122). -/
theorem raisedIn_setLane (l : LaneId) (m : LaneMode) (s : State) : raisedIn .laneState (setLane l m s) :=
  setLane_kept l m s _ (raisedIn_raise _ s)

theorem changeLane_kept (l : LaneId) (m : LaneMode) (c : LaneCause) (s : State) :
    RaisedKept s (changeLane l m c s) :=
  ((raise_kept _ s).trans (setLane_kept l m s)).trans (laneEvent_kept l _ m c _)

theorem finalWrite_kept (l : Option LaneId) (a : Nat) (n : Bool) (st : BlockState) (c : ResultCode) (d : Option Nat)
    (x : List Byte) (s : State) : RaisedKept s (finalWrite l a n st c d x s) := by
  have hw : RaisedKept s (orderWriteRefused l (a + 12) s) := by
    have hf : RaisedKept s (windowFault l .orderStateWrite (a + 12) s) :=
      (emit_kept _ _ _ _ _ _ s).trans (raise_kept _ _)
    have hc : ∀ u, RaisedKept u (chainFault .windowFault (a + 12) u) := fun u => raisedKept_or rfl
    exact hf.trans (hc _)
  have hc : ∀ v, RaisedKept v (orderCompleted a n v) := by
    intro v
    unfold orderCompleted
    exact raisedKept_ite (raisedKept_or rfl) (raisedKept_of_eq rfl)
  have hd : (detailValue d s).2.raised = s.raised := by cases d <;> rfl
  unfold finalWrite
  generalize detailValue d s = p at hd
  obtain ⟨v, u⟩ := p
  refine raisedKept_ite ?_ hw
  refine RaisedKept.trans (raisedKept_of_eq ?_) (hc _)
  split <;> exact hd

theorem endLong_kept (k : LongKey) (st : BlockState) (c : ResultCode) (d : Option Nat) (s : State) :
    RaisedKept s (endLong k st c d s) := by
  unfold endLong
  split
  · exact RaisedKept.refl s
  next o _ =>
    have h : RaisedKept s (updOcu (fun u => { u with longList := u.longList.filter (fun o => o.key != k) }) s) :=
      raisedKept_of_eq rfl
    exact h.trans (finalWrite_kept _ _ _ _ _ _ _ _)

theorem endPending_kept (l : LaneId) (st : BlockState) (c : ResultCode) (d : Option Nat) (s : State) :
    RaisedKept s (endPending l st c d s) := by
  have h : RaisedKept s (updLsq l (fun q => { q with pendingOrder := none }) s) := raisedKept_of_eq rfl
  exact raisedKept_ite (h.trans (endLong_kept _ _ _ _ _)) (RaisedKept.refl s)

theorem finishWith_kept (st : BlockState) (c : ResultCode) (d : Option Nat) (x : List Byte) (s : State) :
    RaisedKept s (finishWith st c d x s) := by
  have h : ∀ w u, RaisedKept u (stopIfHalted (leaveBlock w u)) := fun w u =>
    raisedKept_ite (raisedKept_of_eq rfl) (raisedKept_of_eq rfl)
  unfold finishWith
  split
  · exact RaisedKept.refl s
  · exact (finalWrite_kept _ _ _ st c d x s).trans (h _ _)

end

/-! ### The lane's record -/

section
variable (l : LaneId) (s : State)

theorem emit_lsq (c : EventCode) (k : Option LaneId) (j n a b : Nat) : (emit c k j n a b s).lsq = s.lsq := by
  have h : Only (fun p => p = .raised ∨ p = .journal) s (emit c k j n a b s) := by
    apply emit_only (h := only_refl _ _) <;> simp
  exact perLane_ext (fun i => lsq_of_only i h (by simp) (by simp))

/-- A change of the hold-reason set changes nothing else of the lane's record. -/
theorem setHold_lsq (r : HoldReason) (on : Bool) :
    ∃ hs, (setHold l r on s).lsq.get l = { s.lsq.get l with holds := hs } := by
  unfold setHold
  split
  · exact ⟨_, rfl⟩
  · exact ⟨vupd (s.lsq.get l).holds (holdBit r) (fun _ => on), by simp [raise]⟩

theorem setHold_same (r : HoldReason) (on : Bool) : holdSet l r (setHold l r on s) = on := by
  unfold setHold
  split
  · assumption
  · simp [holdSet, raise]

theorem holdBit_injective {r q : HoldReason} (h : holdBit r = holdBit q) : r = q := by
  cases r <;> cases q <;> simp_all [holdBit]

theorem setHold_other {r q : HoldReason} (on : Bool) (h : q ≠ r) : holdSet l q (setHold l r on s) = holdSet l q s := by
  unfold setHold
  split
  · rfl
  · simp [holdSet, raise, vget_vupd_other _ _ (fun e => h (holdBit_injective e))]

theorem beginRise_lsq (outside : Bool) :
    ∃ r, (beginRise l outside s).lsq.get l = { s.lsq.get l with rise := r } := by
  unfold beginRise
  dsimp only
  split
  · exact ⟨_, by rw [updLsq_lsq, PerLane.get_upd_self]⟩
  · exact ⟨_, rfl⟩

/-- Entering a state changes the mode, and of the rest of the lane's record the hold reasons and the rise at most. -/
theorem setLane_lsq (m : LaneMode) :
    ∃ hs r, (setLane l m s).lsq.get l = { s.lsq.get l with mode := m, holds := hs, rise := r } := by
  refine setLane_induct (P := fun u => ∃ hs r, u.lsq.get l = { s.lsq.get l with mode := m, holds := hs, rise := r })
    l m s ⟨(s.lsq.get l).holds, (s.lsq.get l).rise, by simp [raise]⟩ ?_ ?_ ?_
  · rintro u ⟨hs, r, hu⟩
    obtain ⟨hs', hw⟩ := setHold_lsq l u .wake false
    exact ⟨hs', r, by rw [hw, hu]⟩
  · rintro o u ⟨hs, r, hu⟩
    obtain ⟨r', hw⟩ := beginRise_lsq l u o
    exact ⟨hs, r', by rw [hw, hu]⟩
  · rintro u ⟨hs, r, hu⟩
    refine ⟨hs, r, ?_⟩
    rw [lsq_of_only l (restartDark_only l (only_refl (fun p => p = .eyes l) u) rfl) (by simp) (by simp), hu]

theorem changeLane_lsq (m : LaneMode) (c : LaneCause) :
    ∃ hs r, (changeLane l m c s).lsq.get l = { s.lsq.get l with mode := m, holds := hs, rise := r } := by
  obtain ⟨hs, r, h⟩ := setLane_lsq l s m
  refine ⟨hs, r, ?_⟩
  rw [← h]
  unfold changeLane laneEvent
  rw [emit_lsq]

theorem finalWrite_lsq (k : Option LaneId) (a : Nat) (n : Bool) (st : BlockState) (c : ResultCode) (d : Option Nat)
    (x : List Byte) : (finalWrite k a n st c d x s).lsq = s.lsq := by
  have h : Only (fun p => p ∈ .raised :: orderParts) s (finalWrite k a n st c d x s) := by
    apply finalWrite_only (h := only_refl _ _) <;> simp [orderParts]
  exact perLane_ext (fun i => lsq_of_only i h (by simp [orderParts]) (by simp [orderParts]))

theorem endLong_lsq (k : LongKey) (st : BlockState) (c : ResultCode) (d : Option Nat) :
    (endLong k st c d s).lsq = s.lsq := by
  unfold endLong
  split
  · rfl
  · rw [finalWrite_lsq]; rfl

/-- The end of a lane's pending order leaves none, and nothing else of the lane's record changed. -/
theorem endPending_lsq (st : BlockState) (c : ResultCode) (d : Option Nat) :
    (endPending l st c d s).lsq.get l = { s.lsq.get l with pendingOrder := none } := by
  unfold endPending
  split
  · rw [endLong_lsq]; simp
  next h =>
    have hn : (s.lsq.get l).pendingOrder = none := by simpa using h
    generalize s.lsq.get l = q at *
    cases q
    simp_all

theorem laneEndClose_lsq : (laneEndClose s).lsq = s.lsq := by
  have h : Only (fun p => p = .raised ∨ p = .journal) s (laneEndClose s) := by
    apply laneEndClose_only (h := only_refl _ _) <;> simp
  exact perLane_ext (fun i => lsq_of_only i h (by simp) (by simp))

/-! ### The lamp level under a retirement -/

theorem drainTest_lamp : ((drainTest l s).lsq.get l).lamp = (s.lsq.get l).lamp := by
  unfold drainTest
  split
  · obtain ⟨hs, r, h⟩ := changeLane_lsq l s .ready .drainDone
    rw [endPending_lsq, laneEndClose_lsq, h]
  · rfl

theorem retireLane_lamp : ((retireLane l s).lsq.get l).lamp = (s.lsq.get l).lamp := by
  unfold retireLane
  split
  · rfl
  · dsimp only
    split
    · obtain ⟨hs, r, h⟩ := changeLane_lsq l (updLsq l (fun q => { q with retired := true }) s) .draining .retire
      rw [drainTest_lamp, h]
      simp
    · rw [endPending_lsq]; simp
    · simp

theorem setHold_lamp (r : HoldReason) (on : Bool) : ((setHold l r on s).lsq.get l).lamp = (s.lsq.get l).lamp := by
  obtain ⟨hs, h⟩ := setHold_lsq l s r on
  rw [h]

theorem retireElement_lamp (a : AttrId) : ((retireElement l a s).lsq.get l).lamp = (s.lsq.get l).lamp := by
  cases a <;> first | exact retireLane_lamp l s | rfl

theorem failingTest_lamp (a : AttrId) : ((failingTest l a s).lsq.get l).lamp = (s.lsq.get l).lamp := by
  have hr : ∀ u, u.lsq = s.lsq → ((retireRecord l a u).lsq.get l).lamp = (s.lsq.get l).lamp := by
    intro u hu
    unfold retireRecord
    dsimp only
    rw [retireElement_lamp, emit_lsq]
    exact congrArg (fun q => (q.get l).lamp) hu
  have hf : ((enterFailing l a s).lsq.get l).lamp = (s.lsq.get l).lamp := by
    unfold enterFailing
    dsimp only
    split
    · rw [emit_lsq]; rfl
    · unfold healthHold
      rw [setHold_lamp, emit_lsq]; rfl
    · exact hr _ (by rw [emit_lsq]; rfl)
  unfold failingTest
  split
  · exact hf
  · unfold healthHold
    rw [setHold_lamp]; rfl
  · rfl

/-- One counted thing of a block measure leaves the lamp level. -/
theorem countBlock_lamp (a : AttrId) : ((countBlock l a s).lsq.get l).lamp = (s.lsq.get l).lamp := by
  unfold countBlock evaluate
  dsimp only
  split
  · rfl
  · exact failingTest_lamp l _ a

end

end Sys2Proof.Machine
end

