-- ==== Sys2Proof/Proofs/EntryEye.lean ====
section
/-! The edges at the entry eye: the creation of an entry, the untracked letter, and the trailing edge of the newest entry
(R10 to R12). -/

namespace Sys2Proof.Machine

/-! ### The frame of a counted block -/

/-- What one counted thing of a block measure may change (R160 to R163). -/
theorem countBlock_leaves (l : LaneId) (a : AttrId) (s : State) :
    Only (fun p => p ∈ .raised :: .idle l :: healthParts l) s (countBlock l a s) := by
  apply countBlock_only (h := only_refl _ _) <;> simp [healthParts, orderParts]

theorem countBlock_track (l : LaneId) (a : AttrId) (s : State) : (countBlock l a s).track = s.track :=
  perLane_ext (fun k => countBlock_leaves l a s (.track k) (by simp [healthParts, orderParts]))

theorem countBlock_tally (l : LaneId) (a : AttrId) (s : State) : (countBlock l a s).tally = s.tally :=
  perLane_ext (fun k => countBlock_leaves l a s (.tally k) (by simp [healthParts, orderParts]))

theorem countBlock_eyes (l : LaneId) (a : AttrId) (s : State) : (countBlock l a s).eyes = s.eyes :=
  perLane_ext (fun k => countBlock_leaves l a s (.eyes k) (by simp [healthParts, orderParts]))

theorem countBlock_sfe (l : LaneId) (a : AttrId) (s : State) : (countBlock l a s).sfe = s.sfe :=
  perLane_ext (fun k => countBlock_leaves l a s (.sfe k) (by simp [healthParts, orderParts]))

theorem countBlock_geom (l : LaneId) (a : AttrId) (s : State) : (countBlock l a s).geom = s.geom :=
  perLane_ext (fun k => countBlock_leaves l a s (.geom k) (by simp [healthParts, orderParts]))

theorem countBlock_pkr (l : LaneId) (a : AttrId) (s : State) : (countBlock l a s).pkr = s.pkr :=
  perLane_ext (fun k => countBlock_leaves l a s (.pockets k) (by simp [healthParts, orderParts]))

/-! ### The creation of an entry -/

/-- R10: the entry a leading edge creates. -/
def createdEntry (l : LaneId) (lead : BeltSample) (s : State) : Entry :=
  newEntry ((s.track.get l).lastSerial + 1) lead.pos (posAdd lead.pos (geometry l s).scanPos)
    (match gapCounts l lead.fwd s with
      | none => 65535
      | some g => g / 4)

/-- A creation that gives no verdict, with none waiting to be delivered: the entry joins the queue and is counted. -/
theorem createEntry_plain {l : LaneId} {lead : BeltSample} {s : State} (hl : (s.lsq.get l).lamp = .on)
    (hg : ∀ g, gapCounts l lead.fwd s = some g → (geometry l s).minGap ≤ g)
    (hq : ∀ e ∈ (s.track.get l).queue, e.delivered = true ∨ e.verdict = none) :
    createEntry l lead s = countBlock l .tracking (countUp l .entered (updTrack l (fun t =>
      { t with queue := t.queue ++ [createdEntry l lead s], lastSerial := (s.track.get l).lastSerial + 1 }) s)) := by
  obtain ⟨u, hu⟩ : ∃ u, u = countBlock l .tracking (countUp l .entered (updTrack l (fun t =>
      { t with queue := t.queue ++ [createdEntry l lead s], lastSerial := (s.track.get l).lastSerial + 1 }) s)) :=
    ⟨_, rfl⟩
  have hlamp : (u.lsq.get l).lamp = .on := by
    rw [hu, countBlock_lamp]
    exact hl
  have hgeom : geometry l u = geometry l s := by
    unfold geometry
    rw [hu, countBlock_geom]
    rfl
  have hverdicts : ∀ n p, creationVerdicts l n p (gapCounts l lead.fwd s) u = u := by
    intro n p
    unfold creationVerdicts
    rw [hlamp, hgeom]
    cases hgap : gapCounts l lead.fwd s with
    | none => simp
    | some g => simp [Nat.not_lt.mpr (hg g hgap)]
  have hwait : ∀ e ∈ (u.track.get l).queue, e.delivered = true ∨ e.verdict = none := by
    rw [hu, countBlock_track, countUp_track]
    simp only [updTrack_track, PerLane.get_upd_self, List.mem_append, List.mem_singleton]
    rintro e (he | rfl)
    · exact hq e he
    · exact Or.inr rfl
  have hdef : createEntry l lead s = deliverAll l (creationVerdicts l ((s.track.get l).lastSerial + 1)
      ((s.track.get l).queue.getLast?.map (fun x => x.serial)) (gapCounts l lead.fwd s) u) := by
    rw [hu]; rfl
  rw [hdef, hverdicts, deliverAll_of_none hwait, hu]

/-- What an untracked letter leaves (R11). -/
theorem untrackedArrival_eq (l : LaneId) (p : Pos) (s : State) :
    (untrackedArrival l p s).track = s.track ∧
      (untrackedArrival l p s).tally.get l = (s.tally.get l).set 103 (satAdd32 ((s.tally.get l).getD 103 0) 1) ∧
      (untrackedArrival l p s).jrn = (emit .untracked (some l) 0 0 p.toNat 0 s).jrn ∧
      holdSet l .queueFull (untrackedArrival l p s) = true ∧ (untrackedArrival l p s).sfe = s.sfe := by
  obtain ⟨u, hu⟩ : ∃ u, u = emit .untracked (some l) (eyeCode .e).val 0 p.toNat 0 (countUp l .untracked s) := ⟨_, rfl⟩
  have hdef : untrackedArrival l p s = setHold l .queueFull true u := by rw [hu]; rfl
  have hs : Only (fun q => q = .lane l ∨ q = .raised) u (setHold l .queueFull true u) := by
    apply setHold_only (h := only_refl _ _) <;> simp
  have he : Only (fun q => q = .raised ∨ q = .journal) (countUp l .untracked s) u := by
    rw [hu]
    apply emit_only (h := only_refl _ _) <;> simp
  rw [hdef]
  refine ⟨?_, ?_, ?_, setHold_same l u _ _, ?_⟩
  · refine perLane_ext (fun k => ?_)
    have h : (setHold l .queueFull true u).track.get k = u.track.get k := hs (.track k) (by simp)
    rw [h, hu, emit_track, countUp_track]
  · have h : (setHold l .queueFull true u).tally.get l = u.tally.get l := hs (.tally l) (by simp)
    rw [h, hu, emit_tally]
    exact countUp_tally l s rfl
  · have h : (setHold l .queueFull true u).jrn = u.jrn := hs .journal (by simp)
    rw [h, hu]
    exact emit_jrn _ _ _ _ _ _ rfl rfl
  · refine perLane_ext (fun k => ?_)
    have h : (setHold l .queueFull true u).sfe.get k = u.sfe.get k := hs (.sfe k) (by simp)
    have h' : u.sfe.get k = (countUp l .untracked s).sfe.get k := he (.sfe k) (by simp)
    rw [h, h']
    rfl

/-- A leading edge delivered at E outside the reference mode is an arrival of the lane's course (R10, R11). -/
theorem execELeadingEdge_delivered {l : LaneId} {s : State} (hd : (eyeState l .e s).dark = false)
    (hg : (geometry l s).eyeFilter = true) (hm : delivers (laneMode l s) = true)
    (hn : (s.belt.get l).samples.length = 4) :
    exec (.eLeadingEdge l 4) s = .next (settle s (entryArrival l ((s.belt.get l).samples.getD 0 ⟨0, 0, 0⟩)
      (updSfe l (fun f => { f with lastLead := some ⟨((s.belt.get l).samples.getD 0 ⟨0, 0, 0⟩).pos, false⟩ })
        (acceptEdge l .e true s)))) := by
  have hexec : exec (.eLeadingEdge l 4) s = execELeadingEdge l 4 s := rfl
  have hmode : ∀ f, laneMode l (updSfe l f (acceptEdge l .e true s)) = laneMode l s := fun _ => rfl
  rw [hexec]
  unfold execELeadingEdge
  rw [event_of _ _ (edgeComes_filtered (d := true) hd hg)]
  dsimp only
  rw [capturedSample_filtered hg hn, hmode, if_pos hm]

/-! ### The trailing edge of the newest entry -/

/-- The newest entry alone has its serial, so that a change of it leaves the entries before it. -/
theorem map_newest {t : Track} {e : Entry} (f : Entry → Entry) (hk : trackOk t = true)
    (he : t.queue.getLast? = some e) :
    t.queue.map (fun x => if x.serial = e.serial then f x else x) = t.queue.dropLast ++ [f e] := by
  obtain ⟨-, hp, -⟩ := (trackOk_iff t).mp hk
  have hq : t.queue = t.queue.dropLast ++ [e] := (List.dropLast_append_getLast? e he).symm
  generalize t.queue.dropLast = b at *
  rw [hq] at hp ⊢
  rw [List.map_append, List.pairwise_append] at hp
  obtain ⟨-, -, hb⟩ := hp
  rw [List.map_append]
  congr 1
  · conv_rhs => rw [← List.map_id b]
    refine List.map_congr_left (fun x hx => ?_)
    have hlt := hb x.serial (List.mem_map_of_mem hx) e.serial (by simp)
    simp [Nat.ne_of_lt hlt]
  · simp

end Sys2Proof.Machine

open Sys2Proof Sys2Proof.Machine

/-- Settles O15, by what a creation without a verdict, and an untracked letter, leave. -/
theorem leadingEdgesAtE : Obligations.LeadingEdgesAtE := by
  refine ⟨fun l s hd hg hm hlen hser hlamp href hgap hmin hn hq => ?_, fun l s hd hg hm hfull href hn => ?_⟩
  · have hexec := execELeadingEdge_delivered hd hg hm hn
    obtain ⟨c, hc⟩ : ∃ c, c = (s.belt.get l).samples.getD 0 ⟨0, 0, 0⟩ := ⟨_, rfl⟩
    rw [← hc] at hexec hgap ⊢
    obtain ⟨u, hu⟩ : ∃ u, u = updSfe l (fun f => { f with lastLead := some ⟨c.pos, false⟩ })
      (acceptEdge l .e true s) := ⟨_, rfl⟩
    rw [← hu] at hexec
    have hut : u.track = s.track := by rw [hu]; rfl
    have hplain : createEntry l c u = _ := createEntry_plain (by rw [hu]; exact hlamp) (by
      intro g h
      have hgeo : geometry l u = geometry l s := by rw [hu]; rfl
      unfold gapCounts at h
      rw [hut] at h
      obtain ⟨n, hln, rfl⟩ := Option.map_eq_some_iff.mp h
      rw [hgeo]
      exact Nat.le_min.mpr ⟨hgap n hln, hmin.trans (by decide)⟩) (by rw [hut]; exact hq)
    have hsfe : (createEntry l c u).sfe = u.sfe := by
      rw [hplain, countBlock_sfe]; rfl
    have harr : entryArrival l c u = createEntry l c u := by
      unfold entryArrival
      dsimp only
      rw [hut, if_pos (show (s.track.get l).queue.length < 32 ∧ (s.track.get l).lastSerial < 4294967295 from
        ⟨hlen, hser⟩), hsfe, if_neg]
      rw [hu]
      simpa [acceptEdge] using href
    have heyes : eyeState l .e (settle s (createEntry l c u)) = eyeState l .e u := by
      refine eyeState_congr l .e ?_
      rw [settle_eyes, hplain, countBlock_eyes]
      rfl
    have hue : eyeState l .e u = { eyeState l .e s with
        dark := true, darkCount := countsSinceCapture l .e s, declared := false } := by
      rw [hu]
      exact eyeState_updEye l .e _ s
    rw [harr] at hexec
    refine ⟨_, createdEntry l c u, hexec, ?_, ?_, by rw [createdEntry, hut]; rfl, rfl,
      by rw [hu]; rfl, ?_, rfl, rfl, rfl, rfl, rfl, rfl, rfl, rfl, rfl, rfl, rfl, rfl, rfl, ?_, ?_, ?_, ?_, ?_⟩
    · rw [settle_track, hplain, countBlock_track, countUp_track]
      simp [hut]
    · rw [settle_track, hplain, countBlock_track, countUp_track]
      simp [hut]
    · unfold createdEntry newEntry gapCounts
      rw [hut]
      cases (s.track.get l).lastTrail <;> rfl
    · rw [settle_tally, hplain, countBlock_tally, hu]
      exact countUp_tally l (c := .entered) _ rfl
    · rw [heyes, hue]
    · rw [heyes, hue]
    · rw [heyes, hue]
      unfold countsSinceCapture
      rw [capturedSample_filtered hg hn, hc]
    · rw [settle_sfe, hsfe, hu]
      simp [createdEntry, newEntry]
  · have hexec := execELeadingEdge_delivered hd hg hm hn
    obtain ⟨c, hc⟩ : ∃ c, c = (s.belt.get l).samples.getD 0 ⟨0, 0, 0⟩ := ⟨_, rfl⟩
    rw [← hc] at hexec ⊢
    obtain ⟨u, hu⟩ : ∃ u, u = updSfe l (fun f => { f with lastLead := some ⟨c.pos, false⟩ })
      (acceptEdge l .e true s) := ⟨_, rfl⟩
    rw [← hu] at hexec
    have hut : u.track = s.track := by rw [hu]; rfl
    obtain ⟨htrack, htally, hjrn, hhold, hsfe⟩ := untrackedArrival_eq l c.pos u
    have harr : entryArrival l c u = untrackedArrival l c.pos u := by
      unfold entryArrival
      dsimp only
      rw [hut, if_neg (show ¬((s.track.get l).queue.length < 32 ∧ (s.track.get l).lastSerial < 4294967295) by omega),
        hsfe, if_neg]
      rw [hu]
      simpa [acceptEdge] using href
    rw [harr] at hexec
    refine ⟨_, hexec, by rw [settle_track, htrack, hut], ?_, ?_, by rw [settle_holdSet, hhold]⟩
    · rw [settle_tally, htally, hu]; rfl
    · rw [settle_jrn, hjrn]
      exact emit_jrn _ _ _ _ _ _ (by rw [hu]; rfl) (by rw [hu]; rfl)

/-- Settles O16: the newest entry alone takes its trailing edge, and no verdict waits to be delivered. -/
theorem trailingEdgeGivesTheLength : Obligations.TrailingEdgeGivesTheLength := by
  intro l s e hd hg hm hn hk he ht hq hlo hhi
  obtain ⟨c, hc⟩ : ∃ c, c = (s.belt.get l).samples.getD 0 ⟨0, 0, 0⟩ := ⟨_, rfl⟩
  rw [← hc] at hlo hhi ⊢
  obtain ⟨u, hu⟩ : ∃ u, u = updSfe l (fun f => { f with lastTrail := some ⟨c.pos, false⟩ })
    (acceptEdge l .e false s) := ⟨_, rfl⟩
  have hut : u.track = s.track := by rw [hu]; rfl
  have hexec : exec (.eTrailingEdge l 4) s = .next (settle s (entryDeparture l c u)) := by
    have h : exec (.eTrailingEdge l 4) s = execETrailingEdge l 4 s := rfl
    have hmode : ∀ f, laneMode l (updSfe l f (acceptEdge l .e false s)) = laneMode l s := fun _ => rfl
    rw [h]
    unfold execETrailingEdge
    rw [event_of _ _ (edgeComes_filtered (d := false) hd hg)]
    dsimp only
    rw [capturedSample_filtered hg hn, hmode, if_pos hm, hu, hc]
  obtain ⟨f, hf⟩ : ∃ f : Entry → Entry, f = fun x =>
    { x with trailE := some c.pos, length := some (dist c.pos e.leadE / 4) } := ⟨_, rfl⟩
  have hcheck : lengthCheck l e c.pos u = updEntry l e.serial f u := by
    unfold lengthCheck
    dsimp only
    rw [if_neg (by omega), if_neg (by omega), hf]
  obtain ⟨v, hv⟩ : ∃ v, v = updTrack l (fun t => { t with lastTrail := some c.fwd }) (updEntry l e.serial f u) :=
    ⟨_, rfl⟩
  have hvt : v.track.get l = { s.track.get l with
      queue := (s.track.get l).queue.dropLast ++ [f e], lastTrail := some c.fwd } := by
    rw [hv, updTrack_track, PerLane.get_upd_self, updEntry_track, hut, map_newest f hk he]
  have hwait : ∀ x ∈ (v.track.get l).queue, x.delivered = true ∨ x.verdict = none := by
    rw [hvt]
    intro x hx
    rcases List.mem_append.mp hx with hx | hx
    · exact hq x (List.dropLast_subset _ hx)
    · rw [List.mem_singleton.mp hx, hf]
      exact hq e (List.mem_of_getLast? he)
  have hbody : entryDeparture l c u = v := by
    unfold entryDeparture
    rw [hut, he]
    dsimp only
    rw [if_neg (by simp [ht]), hcheck, ← hv, deliverAll_of_none hwait]
  rw [hbody] at hexec
  refine ⟨_, hexec, ?_, ?_, ?_, ?_⟩
  · rw [settle_track, hvt, hf]
  · rw [settle_track, hvt]
  · have h : eyeState l .e (settle s v) = eyeState l .e (acceptEdge l .e false s) :=
      eyeState_congr l .e (by rw [settle_eyes, hv, hu]; rfl)
    rw [h, acceptEdge, eyeState_updEye]
  · rw [settle_sfe, hv]
    have h : (updEntry l e.serial f u).sfe = u.sfe := rfl
    rw [updTrack_sfe, h, hu]
    simp

end

