-- ==== Sys2Proof/Proofs/JamStop.lean ====
section
/-! The jam stop (R22, R135): the end of a lane test, the gate outputs off, and what a jam leaves of a lane. -/

namespace Sys2Proof.Machine

/-! ### Gate channels -/

theorem allGates_gateCode (g : Gate) : allGates.getD (gateCode g).val .flip = g := by cases g <;> rfl

theorem gateCode_ne {g k : Gate} (h : k ≠ g) : gateCode k ≠ gateCode g :=
  fun e => h (by rw [← allGates_gateCode k, e, allGates_gateCode])

theorem mem_allGates (g : Gate) : g ∈ allGates := by cases g <;> decide

@[simp] theorem channel_updChannel (l : LaneId) (g : Gate) (f : Channel → Channel) (s : State) :
    channel l g (updChannel l g f s) = f (channel l g s) := by
  simp [channel, updChannel]

theorem channel_updChannel_other (l : LaneId) {g k : Gate} (f : Channel → Channel) (s : State) (h : k ≠ g) :
    channel l k (updChannel l g f s) = channel l k s := by
  simp [channel, updChannel, vget_vupd_other _ _ (gateCode_ne h)]

theorem channel_congr (l : LaneId) (g : Gate) {s t : State} (h : t.gsq.get l = s.gsq.get l) :
    channel l g t = channel l g s := by
  simp [channel, h]

/-- A change made at each of a list of gates, none of them twice, is made once at those in the list. -/
theorem channel_foldl (l : LaneId) (k : Gate) (f : Channel → Channel) (gs : List Gate) (s : State) (h : gs.Nodup) :
    channel l k (gs.foldl (fun s g => updChannel l g f s) s) =
      if k ∈ gs then f (channel l k s) else channel l k s := by
  induction gs generalizing s with
  | nil => rfl
  | cons g gs ih =>
    obtain ⟨hg, hgs⟩ := List.nodup_cons.mp h
    rw [List.foldl_cons, ih _ hgs]
    by_cases hk : k = g
    · subst hk
      simp [hg]
    · simp [hk, channel_updChannel_other l f s hk]

theorem channel_gatesOff (l : LaneId) (g : Gate) (s : State) :
    channel l g (gatesOff l s) = { channel l g s with output := false, hold := none } := by
  unfold gatesOff
  rw [channel_foldl l g _ _ _ (by decide), if_pos (mem_allGates g)]

/-! ### The end of a lane test that is not of its own course -/

/-- R172, steps 1 to 3: the reference mode off, the log entry and the TEST_END event. -/
def testRecords (l : LaneId) (t : LaneTest) (r : TestResult) (s : State) : State :=
  emit .testEnd (some l) (testKindCode (laneTestKind t.kind)) 0 (testResultCode r) (laneTestCheckpoint t)
    (writeLog
      { kind := laneTestKind t.kind, lane := some l, result := r, tens := laneTestTens t r, time := s.clock.ms,
        checkpoint := laneTestCheckpoint t } (withdrawIdle (.laneItem l) (updSfe l (fun f =>
      { f with
        refMode := false, refRequest := none,
        longRequest := if t.kind = .calibrate then none else f.longRequest,
        longRun := if t.kind = .calibrate then none else f.longRun }) s)))

/-- R172: the test with its records made, out of the hold-reason set and out of the Health Monitor Unit. -/
def testCleared (l : LaneId) (t : LaneTest) (r : TestResult) (s : State) : State :=
  updHmu (fun h => { h with tests := h.tests.upd l (fun _ => none) }) (setHold l .test false (testRecords l t r s))

section
variable (l : LaneId) (r : TestResult) (s : State) {how : TestExit}

theorem endLaneTest_none (h : s.hmu.tests.get l = none) : endLaneTest l r how s = s := by
  unfold endLaneTest
  rw [h]

/-- The end of a test by a jam or by ABORT changes no lane state of its own. -/
theorem endLaneTest_of_some {t : LaneTest} (h : s.hmu.tests.get l = some t) (hc : how ≠ .ownCourse) :
    endLaneTest l r how s = raise .testDone (if how = .abort then
        endLong (.laneTest l) .refused .aborted none (testCleared l t r s)
      else endLong (.laneTest l) .done .ok (some (testResultCode r)) (testCleared l t r s)) := by
  unfold endLaneTest
  rw [h]
  cases how with
  | ownCourse => exact absurd rfl hc
  | jam => rfl
  | abort => rfl

theorem testCleared_lsq (t : LaneTest) :
    ∃ hs, (testCleared l t r s).lsq.get l = { s.lsq.get l with holds := hs } := by
  obtain ⟨hs, h⟩ := setHold_lsq l (testRecords l t r s) .test false
  refine ⟨hs, h.trans ?_⟩
  unfold testRecords
  rw [emit_lsq]
  rfl

theorem testCleared_kept (t : LaneTest) : RaisedKept s (testCleared l t r s) := by
  have hr : RaisedKept s (testRecords l t r s) := by
    unfold testRecords
    refine RaisedKept.trans ?_ (emit_kept _ _ _ _ _ _ _)
    exact raisedKept_of_eq rfl
  exact (hr.trans (setHold_kept l .test false _)).trans (raisedKept_of_eq rfl)

theorem endLaneTest_lsq (hc : how ≠ .ownCourse) :
    ∃ hs, (endLaneTest l r how s).lsq.get l = { s.lsq.get l with holds := hs } := by
  cases ht : s.hmu.tests.get l with
  | none =>
    rw [endLaneTest_none l r s ht]
    exact ⟨_, rfl⟩
  | some t =>
    obtain ⟨hs, h⟩ := testCleared_lsq l r s t
    refine ⟨hs, ?_⟩
    rw [endLaneTest_of_some l r s ht hc, ← h]
    have hraise : ∀ v : State, (raise .testDone v).lsq = v.lsq := fun _ => rfl
    rw [hraise]
    split
    · rw [endLong_lsq]
    · rw [endLong_lsq]

theorem endLaneTest_kept (hc : how ≠ .ownCourse) : RaisedKept s (endLaneTest l r how s) := by
  cases ht : s.hmu.tests.get l with
  | none =>
    rw [endLaneTest_none l r s ht]
    exact RaisedKept.refl s
  | some t =>
    rw [endLaneTest_of_some l r s ht hc]
    refine ((testCleared_kept l r s t).trans ?_).trans (raise_kept _ _)
    exact raisedKept_ite (endLong_kept _ _ _ _ _) (endLong_kept _ _ _ _ _)

end

/-! ### What a jam stop leaves -/

/-- What the jam stop may change after the gate outputs are off. -/
theorem stopLane_afterGates (l : LaneId) (s : State) :
    Only (fun p => p ≠ .gates l) (gatesOff l (setLane l .stopped s)) (stopLane l s) := by
  unfold stopLane
  dsimp only
  apply laneEvent_only
  · apply raise_only
    · apply endLaneTest_only
      · apply dropWarming_only
        · apply endPending_only
          · apply clipPrint_only
            · apply clipPrint_only (h := only_refl _ _) <;> simp
            all_goals simp
          all_goals simp
        all_goals simp
      all_goals simp
    · simp
  all_goals simp

theorem stopLane_channel (l : LaneId) (g : Gate) (s : State) :
    (channel l g (stopLane l s)).output = false ∧ (channel l g (stopLane l s)).hold = none := by
  have h : (stopLane l s).gsq.get l = (gatesOff l (setLane l .stopped s)).gsq.get l :=
    stopLane_afterGates l s (.gates l) (by simp)
  rw [channel_congr l g h, channel_gatesOff]
  exact ⟨rfl, rfl⟩

theorem dropWarming_lsq (l : LaneId) (s : State) :
    (dropWarming l s).lsq.get l = { s.lsq.get l with lampWarm := none, warmStep := none, idle := 0 } := by
  unfold dropWarming
  simp

/-- The state before the test of a stopped lane is ended (R135). -/
def stoppedBeforeTest (l : LaneId) (s : State) : State :=
  dropWarming l (endPending l .refused .jammed none
    (clipPrint l .far (clipPrint l .near (gatesOff l (setLane l .stopped s)))))

theorem stopLane_eq (l : LaneId) (s : State) :
    stopLane l s = laneEvent l (laneMode l s) .stopped .jam
      (raise .jam (endLaneTest l .abortedByItem .jam (stoppedBeforeTest l s))) := rfl

theorem clipped_leaves (l : LaneId) (s : State) :
    Only (fun p => p = .track l ∨ p = .heads l ∨ p = .tally l ∨ p = .gates l) s
      (clipPrint l .far (clipPrint l .near (gatesOff l s))) := by
  apply clipPrint_only
  · apply clipPrint_only
    · apply gatesOff_only (h := only_refl _ _)
      simp
    all_goals simp
  all_goals simp

/-- The lane's record after a jam stop: STOPPED, no pending order, no warming step, the lamps as they were (R135). -/
theorem stopLane_lsq (l : LaneId) (s : State) :
    laneMode l (stopLane l s) = .stopped ∧ ((stopLane l s).lsq.get l).pendingOrder = none ∧
      ((stopLane l s).lsq.get l).lamp = (s.lsq.get l).lamp := by
  obtain ⟨hs, r, hset⟩ := setLane_lsq l s .stopped
  have hclip := lsq_of_only l (clipped_leaves l (setLane l .stopped s)) (by simp) (by simp)
  obtain ⟨hs', htest⟩ := endLaneTest_lsq l .abortedByItem (stoppedBeforeTest l s) (how := .jam) (by decide)
  have hlast : (stopLane l s).lsq.get l =
      (endLaneTest l .abortedByItem .jam (stoppedBeforeTest l s)).lsq.get l := by
    rw [stopLane_eq]
    unfold laneEvent
    rw [emit_lsq]
    rfl
  unfold laneMode
  rw [hlast, htest, stoppedBeforeTest, dropWarming_lsq, endPending_lsq, hclip, hset]
  exact ⟨rfl, rfl, rfl⟩

theorem stopLane_raised (l : LaneId) (s : State) :
    raisedIn .jam (stopLane l s) ∧ raisedIn .laneState (stopLane l s) := by
  have hdrop : ∀ u, RaisedKept u (dropWarming l u) := fun u =>
    raisedKept_of_only (ps := fun p => p ≠ .raised)
      (by apply dropWarming_only (h := only_refl _ _) <;> simp) (by simp)
  have hclip := raisedKept_of_only (clipped_leaves l (setLane l .stopped s)) (by simp)
  have hbefore : RaisedKept (setLane l .stopped s) (stoppedBeforeTest l s) :=
    (hclip.trans (endPending_kept l _ _ _ _)).trans (hdrop _)
  have htest := hbefore.trans (endLaneTest_kept l .abortedByItem (stoppedBeforeTest l s) (how := .jam) (by decide))
  rw [stopLane_eq]
  refine ⟨laneEvent_kept _ _ _ _ _ _ (raisedIn_raise .jam _), laneEvent_kept _ _ _ _ _ _ (raise_kept .jam _ _ ?_)⟩
  exact htest _ (raisedIn_setLane l .stopped s)

theorem laneMode_congr (l : LaneId) {s t : State} (h : t.lsq.get l = s.lsq.get l) : laneMode l t = laneMode l s := by
  unfold laneMode
  rw [h]

theorem jam_of_delivers {l : LaneId} {s : State} (y : Eye) (c : Nat) (h : delivers (laneMode l s) = true) :
    jam l y c s = stopLane l (emit .jam (some l) (eyeCode y).val 0 c 0 s) := by
  unfold jam
  dsimp only
  rw [laneMode_congr l (congrArg (fun q => q.get l) (emit_lsq s _ _ _ _ _ _)), if_pos h]

/-- A jam declared in a lane that delivers edges stops it (R22, R135). -/
theorem stoppedByJam_of_jam {l : LaneId} (old : State) {s : State} (y : Eye) (c : Nat)
    (h : delivers (laneMode l s) = true) : StoppedByJam l (settle old (jam l y c s)) := by
  rw [jam_of_delivers y c h]
  generalize emit .jam (some l) (eyeCode y).val 0 c 0 s = u
  obtain ⟨hm, hp, -⟩ := stopLane_lsq l u
  obtain ⟨hj, hl⟩ := stopLane_raised l u
  refine ⟨by rw [settle_laneMode, hm], fun g => ?_, by rw [settle_lsq_pendingOrder, hp], reported_settle _ _ hj,
    reported_settle _ _ hl⟩
  rw [channel_congr l g (s := stopLane l u) (by rw [settle_gsq])]
  exact stopLane_channel l g u

/-- R125: where the idle timer does not count, it stands at zero after the event. -/
theorem settle_idle {l : LaneId} (old : State) {s : State} (h : idleCounts l s = false) :
    ((settle old s).lsq.get l).idle = 0 := by
  have hself : ∀ u, idleCounts l u = false → ((settleIdle l u).lsq.get l).idle = 0 := by
    intro u hu
    unfold settleIdle
    rw [hu]
    simp
  have hother : ∀ k u, k ≠ l → (settleIdle k u).lsq.get l = u.lsq.get l := by
    intro k u hk
    rcases settleIdle_or k u with e | e
    · rw [e]
    · rw [e]
      simp [PerLane.get_upd_other _ _ (Ne.symm hk)]
  unfold settle
  rw [settleMsi_lsq, settleStatus_lsq]
  cases l with
  | lane0 => rw [hother .lane1 _ (by decide), hself s h]
  | lane1 =>
    refine hself _ ?_
    have e := hother .lane0 s (by decide)
    unfold idleCounts at h ⊢
    rw [e, settleIdle_track]
    rw [show geometry .lane1 (settleIdle .lane0 s) = geometry .lane1 s by simp [geometry]]
    exact h

end Sys2Proof.Machine

open Sys2Proof Sys2Proof.Machine

/-- Settles O14, by what an accepted edge leaves of the eyes and a jam stop of the lane. -/
theorem eyesGoLightOrStayBlocked : Obligations.EyesGoLightOrStayBlocked := by
  refine ⟨fun l y held s hy hd hh => ?_, fun l y s hd hc hn hm => ?_⟩
  · have hcomes : edgeComes l y false held s = true := by
      unfold edgeComes
      rw [hd]
      split at hh <;> simp_all
    have hexec : exec (.eyeTrailingEdge l y held) s = .next (settle s (acceptEdge l y false s)) := by
      have h : exec (.eyeTrailingEdge l y held) s =
        eventWithin (y != .e) (edgeComes l y false held s) (acceptEdge l y false) s := rfl
      rw [h, eventWithin_ok _ _ (by simpa using hy), event_of _ _ hcomes]
    refine ⟨_, hexec, ?_, fun z hz => ?_⟩
    · rw [eyeState_congr l y (s := acceptEdge l y false s) (by rw [settle_eyes]), acceptEdge, eyeState_updEye]
      rfl
    · rw [eyeState_congr l z (s := acceptEdge l y false s) (by rw [settle_eyes]), acceptEdge,
        eyeState_updEye_other l _ s hz]
  · obtain ⟨u, hu⟩ : ∃ u, u = updEye l y (fun q => { q with declared := true }) s := ⟨_, rfl⟩
    have hmode : laneMode l u = laneMode l s := by rw [hu]; rfl
    have hdel : delivers (laneMode l u) = true := by rw [hmode, hm]
    have hexec : exec (.blockedEye l y) s = .next (settle s (jam l y 0 u)) := by
      have h : exec (.blockedEye l y) s = execBlockedEye l y s := rfl
      rw [h]
      unfold execBlockedEye
      dsimp only
      rw [event_of _ _ (by simp [hd, hc, hn, hm]), hu]
    obtain ⟨hstop, hgates, hpend, hjam, hstate⟩ := stoppedByJam_of_jam s y 0 hdel
    have heyes : (jam l y 0 u).eyes.get l = u.eyes.get l := by
      have h : Only (fun p => p ≠ .eyes l) u (jam l y 0 u) := by
        apply jam_only (h := only_refl _ _) <;> simp
      exact h (.eyes l) (by simp)
    have hlamp : ((jam l y 0 u).lsq.get l).lamp = (s.lsq.get l).lamp := by
      rw [jam_of_delivers y 0 hdel]
      obtain ⟨-, -, h⟩ := stopLane_lsq l (emit .jam (some l) (eyeCode y).val 0 0 0 u)
      rw [h, emit_lsq, hu]
      rfl
    refine ⟨_, hexec, hstop, ?_, hgates, hpend, ?_, by rw [settle_lsq_lamp, hlamp], hjam, hstate⟩
    · rw [eyeState_congr l y (s := jam l y 0 u) (by rw [settle_eyes]), eyeState_congr l y heyes, hu, eyeState_updEye]
    · refine settle_idle s ?_
      rw [settle_laneMode] at hstop
      have h : ((jam l y 0 u).lsq.get l).mode = .stopped := hstop
      simp [idleCounts, h]

end

