-- ==== Sys2Proof/Proofs/EndOfEntries.lean ====
section
/-! The end of an entry (R23): what leaving the queue counts, the drain test behind it, and the losses at an eye with the
jam they may declare (R19, R21, R22). -/

namespace Sys2Proof.Machine

/-! ### Counts beside UNJOURNALLED -/

/-- A record is counted at most as UNJOURNALLED (R156). -/
theorem recordWithoutPage_getD (r : Rec) (k : LaneId) (s : State) {i : Nat} (h : i ≠ 105) :
    ((recordWithoutPage r s).tally.get k).getD i 0 = (s.tally.get k).getD i 0 := by
  cases r with
  | item l _ _ => exact countUp_getD_other l k _ (by simpa [tallyPlace] using Ne.symm h)
  | event _ => rfl

theorem placeRecord_getD (r : Rec) (k : LaneId) (s : State) {i : Nat} (h : i ≠ 105) :
    ((placeRecord r s).tally.get k).getD i 0 = (s.tally.get k).getD i 0 := by
  have hc : (closePage .full s).tally.get k = s.tally.get k := by
    have hp : Only (fun p => p = .raised ∨ p = .journal) s (closePage .full s) := by
      apply closePage_only (h := only_refl _ _) <;> simp
    exact hp (.tally k) (by simp)
  unfold placeRecord
  split
  · exact recordWithoutPage_getD r k s h
  · split
    · rfl
    · dsimp only
      split
      · rw [recordWithoutPage_getD r k _ h, hc]
      · rw [← hc]; rfl

/-! ### Leaving the queue -/

section
variable {l : LaneId} {n : Nat} {s : State} {e : Entry}

/-- The state of a lane whose entry has left the queue and been counted, before its item record is made. -/
def leftQueue (l : LaneId) (n : Nat) (o : ItemOutcome) (s : State) : State :=
  countUp l (.outcome o) (discardTrace l n
    (updTrack l (fun t => { t with queue := t.queue.filter (fun x => x.serial != n) }) s))

theorem leaveQueue_of_some (o : ItemOutcome) (he : findEntry l n s = some e) :
    leaveQueue l n o s = queueFullTest l (placeRecord (.item l s.clock.ms (finalEntry e o)) (leftQueue l n o s)) := by
  unfold leaveQueue
  rw [he]
  rfl

theorem queueFullTest_leaves (l : LaneId) (s : State) :
    Only (fun p => p = .raised ∨ p = .lane l) s (queueFullTest l s) := by
  apply queueFullTest_only (h := only_refl _ _) <;> simp

theorem placeRecord_leaves (r : Rec) (s : State) :
    Only (fun p => p = .raised ∨ p = .journal ∨ ∃ k, p = .tally k) s (placeRecord r s) := by
  apply placeRecord_only (h := only_refl _ _) <;> simp

/-- An entry that leaves the queue is the only one to leave it. -/
theorem leaveQueue_track (o : ItemOutcome) (he : findEntry l n s = some e) :
    (leaveQueue l n o s).track.get l =
      { s.track.get l with queue := (s.track.get l).queue.filter (fun x => x.serial != n) } := by
  rw [leaveQueue_of_some o he]
  have h1 : ∀ u, (queueFullTest l u).track.get l = u.track.get l :=
    fun u => queueFullTest_leaves l u (.track l) (by simp)
  have h2 : ∀ r u, (placeRecord r u).track.get l = u.track.get l :=
    fun r u => placeRecord_leaves r u (.track l) (by simp)
  rw [h1, h2, leftQueue, countUp_track]
  exact PerLane.get_upd_self _ _ _

/-- It is counted with its outcome, and no count but UNJOURNALLED moves beside. -/
theorem leaveQueue_getD (o : ItemOutcome) (he : findEntry l n s = some e) {i : Nat} (hi : i ≠ 105) :
    ((leaveQueue l n o s).tally.get l).getD i 0 = ((countUp l (.outcome o) s).tally.get l).getD i 0 := by
  rw [leaveQueue_of_some o he]
  have h1 : ∀ u, (queueFullTest l u).tally.get l = u.tally.get l :=
    fun u => queueFullTest_leaves l u (.tally l) (by simp)
  have h2 : (leftQueue l n o s).tally.get l = (countUp l (.outcome o) s).tally.get l := by
    obtain ⟨j, hj, -⟩ := outcome_place o
    rw [leftQueue, countUp_tally l _ hj, countUp_tally l _ hj]
    rfl
  rw [h1, placeRecord_getD _ _ _ hi, h2]

theorem queueFullTest_laneMode (l : LaneId) (s : State) : laneMode l (queueFullTest l s) = laneMode l s := by
  unfold queueFullTest
  split
  · obtain ⟨hs, h⟩ := setHold_lsq l s .queueFull false
    unfold laneMode
    rw [h]
  · rfl

theorem leaveQueue_laneMode (o : ItemOutcome) (he : findEntry l n s = some e) :
    laneMode l (leaveQueue l n o s) = laneMode l s := by
  rw [leaveQueue_of_some o he, queueFullTest_laneMode]
  refine laneMode_congr l ?_
  rw [lsq_of_only l (placeRecord_leaves _ _) (by simp) (by simp)]
  unfold leftQueue countUp
  split <;> rfl

end

/-! ### The drain test -/

theorem drainTest_leaves (l : LaneId) (s : State) :
    Only (fun p => p ∈ .raised :: .lane l :: .idle l :: orderParts) s (drainTest l s) := by
  apply drainTest_only (h := only_refl _ _) <;> simp [orderParts]

theorem drainTest_track (l : LaneId) (s : State) : (drainTest l s).track.get l = s.track.get l :=
  drainTest_leaves l s (.track l) (by simp [orderParts])

theorem drainTest_tally (l : LaneId) (s : State) : (drainTest l s).tally.get l = s.tally.get l :=
  drainTest_leaves l s (.tally l) (by simp [orderParts])

/-- R131: the drain test takes a lane from DRAINING to READY or leaves its state. -/
theorem drainTest_laneMode (l : LaneId) (s : State) :
    laneMode l (drainTest l s) = laneMode l s ∨ laneMode l s = .draining ∧ laneMode l (drainTest l s) = .ready := by
  unfold drainTest
  split
  next h =>
    obtain ⟨hs, r, hc⟩ := changeLane_lsq l s .ready .drainDone
    refine Or.inr ⟨h.1, ?_⟩
    unfold laneMode
    rw [endPending_lsq, laneEndClose_lsq, hc]
  · exact Or.inl rfl

/-! ### Losses -/

theorem map_filter_serial (n : Nat) (q : List Entry) :
    (q.filter (fun x => x.serial != n)).map (fun x => x.serial) = (q.map (fun x => x.serial)).filter (· != n) := by
  rw [List.filter_map]
  rfl

theorem map_map_serial {φ : Entry → Entry} {q : List Entry} (h : ∀ e ∈ q, (φ e).serial = e.serial) :
    (q.map φ).map (fun x => x.serial) = q.map (fun x => x.serial) := by
  rw [List.map_map]
  exact List.map_congr_left h

/-- What keeps the serials of a lane's queue and its jam counts. -/
theorem Steady.serials {r : Entry → Entry → Prop} (hr : EntryOrder r) {s t : State} {l : LaneId} (h : Steady r s t)
    (hk : Machine.trackOk (s.track.get l) = true) :
    (t.track.get l).queue.map (fun x => x.serial) = (s.track.get l).queue.map (fun x => x.serial) ∧
      (t.track.get l).cancelJam = (s.track.get l).cancelJam ∧ (t.track.get l).endJam = (s.track.get l).endJam := by
  obtain ⟨φ, ht, hφ⟩ := h.track l hk
  rw [ht]
  exact ⟨map_map_serial (fun e he => hr.serial _ _ (hφ e he)), rfl, rfl⟩

/-- The state of a lane after an entry is lost and before the loss is counted at its eye (R23). -/
def lostEntry (l : LaneId) (n : Nat) (j : JamEye) (s : State) : State :=
  blockEvent l .tracking (emit .lost (some l) (eyeCode (jamEyeOf j)).val n 0 0 (finalise l n .lost s))

theorem loseEntry_eq (l : LaneId) (n : Nat) (j : JamEye) (s : State) :
    loseEntry l n j s = countLoss l j (lostEntry l n j s) := rfl

section
variable {l : LaneId} {n : Nat} {s : State} {e : Entry}

/-- What the loss of an entry leaves: the rest of the queue in place, the jam counts, one more LOST, the geometry, and a
lane that delivers as it did or has drained. -/
theorem lostEntry_spec (j : JamEye) (hk : trackOk (s.track.get l) = true) (hn : (s.tally.get l).length = 106)
    (he : findEntry l n s = some e) :
    trackOk ((lostEntry l n j s).track.get l) = true ∧
      ((lostEntry l n j s).track.get l).queue.map (fun x => x.serial) =
        ((s.track.get l).queue.map (fun x => x.serial)).filter (· != n) ∧
      ((lostEntry l n j s).track.get l).cancelJam = (s.track.get l).cancelJam ∧
      ((lostEntry l n j s).track.get l).endJam = (s.track.get l).endJam ∧
      ((lostEntry l n j s).tally.get l).getD 95 0 = satAdd32 ((s.tally.get l).getD 95 0) 1 ∧
      geometry l (lostEntry l n j s) = geometry l s ∧
      (laneMode l (lostEntry l n j s) = laneMode l s ∨
        laneMode l s = .draining ∧ laneMode l (lostEntry l n j s) = .ready) := by
  obtain ⟨u, hu⟩ : ∃ u, u = dropItem l e s := ⟨_, rfl⟩
  have hcalm : Calm s u := by rw [hu]; exact dropItem_calm l e s
  obtain ⟨x, hx, -⟩ := Steady.findEntry advanced_order hcalm hk he
  have hfin : finalise l n .lost s = drainTest l (leaveQueue l n .lost u) := by
    unfold finalise
    rw [he, hu]
    rfl
  have hdef : lostEntry l n j s = blockEvent l .tracking (emit .lost (some l) (eyeCode (jamEyeOf j)).val n 0 0
      (drainTest l (leaveQueue l n .lost u))) := by rw [← hfin]; rfl
  have htrack : (lostEntry l n j s).track.get l = (leaveQueue l n .lost u).track.get l := by
    have h : (lostEntry l n j s).track = (emit .lost (some l) (eyeCode (jamEyeOf j)).val n 0 0
      (drainTest l (leaveQueue l n .lost u))).track := by rw [hdef]; rfl
    rw [h, emit_track, drainTest_track]
  obtain ⟨hser, hcancel, hend⟩ := hcalm.serials advanced_order hk
  rw [htrack, leaveQueue_track .lost hx]
  refine ⟨trackOk_filter _ (hcalm.trackOk advanced_order hk), ?_, hcancel, hend, ?_, ?_, ?_⟩
  · dsimp only
    rw [map_filter_serial, hser]
  · have h : (lostEntry l n j s).tally = (emit .lost (some l) (eyeCode (jamEyeOf j)).val n 0 0
      (drainTest l (leaveQueue l n .lost u))).tally := by rw [hdef]; rfl
    rw [h, emit_tally, drainTest_tally, leaveQueue_getD .lost hx (by decide),
      countUp_getD_self l u (c := .outcome .lost) (i := 95) rfl (by rw [hcalm.length, hn]; decide),
      hcalm.tally l 95 (by simp)]
  · have h : Only (fun p => p ≠ .geom l) s (lostEntry l n j s) := by
      unfold lostEntry
      apply blockEvent_only
      · apply emit_only
        · apply finalise_only (h := only_refl _ _) <;> simp
        all_goals simp
      · simp
    exact h (.geom l) (by simp)
  · have hmode : laneMode l (leaveQueue l n .lost u) = laneMode l s := by
      rw [leaveQueue_laneMode .lost hx]
      refine laneMode_congr l ?_
      have h : Only (fun p => p ≠ .lane l ∧ p ≠ .idle l) s u := by
        rw [hu]
        apply dropItem_only (h := only_refl _ _) <;> simp
      exact lsq_of_only l h (by simp) (by simp)
    have hlane : laneMode l (lostEntry l n j s) = laneMode l (drainTest l (leaveQueue l n .lost u)) := by
      refine laneMode_congr l ?_
      have h : (lostEntry l n j s).lsq = (emit .lost (some l) (eyeCode (jamEyeOf j)).val n 0 0
        (drainTest l (leaveQueue l n .lost u))).lsq := by rw [hdef]; rfl
      rw [h, emit_lsq]
    rw [hlane, ← hmode]
    exact drainTest_laneMode l _

theorem delivers_of_lost {a b : LaneMode} (h : b = a ∨ a = .draining ∧ b = .ready) (ha : delivers a = true) :
    delivers b = true := by
  rcases h with rfl | ⟨-, rfl⟩
  · exact ha
  · rfl

theorem not_stopped_of_lost {a b : LaneMode} (h : b = a ∨ a = .draining ∧ b = .ready) (ha : a ≠ .stopped) :
    b ≠ .stopped := by
  rcases h with rfl | ⟨-, rfl⟩
  · exact ha
  · decide

theorem updJam_jamCount (l : LaneId) (j : JamEye) (f : Nat → Nat) (s : State) :
    jamCount l j (updJam l j f s) = f (jamCount l j s) := by
  cases j <;> simp [jamCount, updJam]

theorem updJam_queue (l : LaneId) (j : JamEye) (f : Nat → Nat) (s : State) :
    ((updJam l j f s).track.get l).queue = (s.track.get l).queue := by
  cases j <;> simp [updJam]

theorem trackOk_updJam {l : LaneId} {s : State} (j : JamEye) (f : Nat → Nat) (h : trackOk (s.track.get l) = true) :
    trackOk ((updJam l j f s).track.get l) = true := by
  cases j <;> simpa [updJam, trackOk] using h

/-- A loss below the threshold is counted and declares nothing (R22). -/
theorem countLoss_below {j : JamEye} (h : min (jamCount l j s + 1) 7 < (geometry l s).jamThreshold) :
    countLoss l j s = updJam l j (fun n => min (n + 1) 7) s := by
  have hg : geometry l (updJam l j (fun n => min (n + 1) 7) s) = geometry l s := rfl
  unfold countLoss
  dsimp only
  rw [updJam_jamCount, hg, if_neg (by omega)]

/-- A loss at or above the threshold declares a jam (R22). -/
theorem countLoss_reached {j : JamEye} (h : (geometry l s).jamThreshold ≤ min (jamCount l j s + 1) 7) :
    countLoss l j s = jam l (jamEyeOf j) 1 (updJam l j (fun n => min (n + 1) 7) s) := by
  have hg : geometry l (updJam l j (fun n => min (n + 1) 7) s) = geometry l s := rfl
  unfold countLoss
  dsimp only
  rw [updJam_jamCount, hg, if_pos h]

theorem jamCount_congr {t : State} (j : JamEye) (hc : (t.track.get l).cancelJam = (s.track.get l).cancelJam)
    (he : (t.track.get l).endJam = (s.track.get l).endJam) : jamCount l j t = jamCount l j s := by
  cases j <;> simp [jamCount, hc, he]

/-- What a loss below the threshold leaves after its event (R19, R21, R22). -/
theorem loseEntry_below (j : JamEye) (hk : trackOk (s.track.get l) = true) (hn : (s.tally.get l).length = 106)
    (hm : laneMode l s ≠ .stopped) (he : findEntry l n s = some e)
    (hj : jamCount l j s + 1 < (geometry l s).jamThreshold) (ht : (geometry l s).jamThreshold ≤ 7) :
    ((settle s (loseEntry l n j s)).track.get l).queue.map (fun x => x.serial) =
        ((s.track.get l).queue.map (fun x => x.serial)).filter (· != n) ∧
      jamCount l j (settle s (loseEntry l n j s)) = jamCount l j s + 1 ∧
      ((settle s (loseEntry l n j s)).tally.get l).getD 95 0 = satAdd32 ((s.tally.get l).getD 95 0) 1 ∧
      laneMode l (settle s (loseEntry l n j s)) ≠ .stopped := by
  obtain ⟨-, hser, hcan, hend, htal, hgeo, hmode⟩ := lostEntry_spec j hk hn he
  have hcount := jamCount_congr j hcan hend
  rw [loseEntry_eq, countLoss_below (by rw [hcount, hgeo]; omega)]
  refine ⟨?_, ?_, ?_, ?_⟩
  · rw [settle_track, updJam_queue, hser]
  · rw [jamCount_congr (s := updJam l j (fun n => min (n + 1) 7) (lostEntry l n j s)) j (by rw [settle_track])
      (by rw [settle_track]), updJam_jamCount, hcount]
    omega
  · rw [settle_tally]
    exact htal
  · rw [settle_laneMode]
    exact not_stopped_of_lost hmode hm

/-- What a loss that reaches the threshold leaves after its event (R19, R21, R22, R135). -/
theorem loseEntry_reached (j : JamEye) (hk : trackOk (s.track.get l) = true) (hn : (s.tally.get l).length = 106)
    (hm : delivers (laneMode l s) = true) (he : findEntry l n s = some e)
    (hj : (geometry l s).jamThreshold ≤ jamCount l j s + 1) (ht : (geometry l s).jamThreshold ≤ 7) :
    ((settle s (loseEntry l n j s)).track.get l).queue.map (fun x => x.serial) =
        ((s.track.get l).queue.map (fun x => x.serial)).filter (· != n) ∧
      jamCount l j (settle s (loseEntry l n j s)) = min (jamCount l j s + 1) 7 ∧
      ((settle s (loseEntry l n j s)).tally.get l).getD 95 0 = satAdd32 ((s.tally.get l).getD 95 0) 1 ∧
      StoppedByJam l (settle s (loseEntry l n j s)) := by
  obtain ⟨hok, hser, hcan, hend, htal, hgeo, hmode⟩ := lostEntry_spec j hk hn he
  have hcount := jamCount_congr j hcan hend
  obtain ⟨u, hu⟩ : ∃ u, u = updJam l j (fun n => min (n + 1) 7) (lostEntry l n j s) := ⟨_, rfl⟩
  have hloss : loseEntry l n j s = jam l (jamEyeOf j) 1 u := by
    rw [loseEntry_eq, countLoss_reached (by rw [hcount, hgeo]; omega), hu]
  have hcalm := jam_calm l (jamEyeOf j) 1 u
  have huok : trackOk (u.track.get l) = true := by rw [hu]; exact trackOk_updJam j _ hok
  obtain ⟨hs, hc, hd⟩ := hcalm.serials advanced_order huok
  have hdel : delivers (laneMode l u) = true := by
    have h : laneMode l u = laneMode l (lostEntry l n j s) := by rw [hu]; rfl
    rw [h]
    exact delivers_of_lost hmode hm
  rw [hloss]
  refine ⟨?_, ?_, ?_, stoppedByJam_of_jam s _ _ hdel⟩
  · rw [settle_track, hs, hu, updJam_queue, hser]
  · rw [jamCount_congr (s := jam l (jamEyeOf j) 1 u) j (by rw [settle_track]) (by rw [settle_track]),
      jamCount_congr j hc hd, hu, updJam_jamCount, hcount]
  · have htu : u.tally.get l = (lostEntry l n j s).tally.get l := by rw [hu]; rfl
    rw [settle_tally, hcalm.tally l 95 (by simp), htu, htal]

end

end Sys2Proof.Machine

open Sys2Proof Sys2Proof.Machine

/-- Settles O21, by what the loss of an entry leaves below the jam threshold and at it. -/
theorem lossesLeaveTheQueue : Obligations.LossesLeaveTheQueue := by
  intro l h s e hk hn hm he
  have hcancel : e.delivered = true → e.cancelEye = none → e.cancelPassed = ⟨true, true⟩ → planBank e = h →
      exec (.lostAtCancelEye l e.serial) s = .next (settle s (loseEntry l e.serial (.cancel h) s)) := by
    intro hd hc hp hb
    have hx := entryEvent_of (comes := fun e => e.delivered && e.cancelEye.isNone && e.cancelPassed.near &&
      e.cancelPassed.far) (fun e s => loseEntry l e.serial (.cancel (planBank e)) s) hm he (by simp [hd, hc, hp])
    rw [hb] at hx
    exact hx
  have hend : ∀ p, e.cancelEye = some (h, p) → e.pocketSeen = none →
      (s.belt.get l).counter = posAdd e.leadE ((geometry l s).endPos.get h + (geometry l s).eyeTolerance + 1) →
      exec (.lostAtEndEye l e.serial) s = .next (settle s (loseEntry l e.serial (.pathEnd h) s)) := by
    intro p hc hp hpos
    have hw : eyeWindowPasses l (endEyeOf h) e s = true := by
      cases h <;> simp [eyeWindowPasses, stationOf, endEyeOf, isNow, counter, hpos, PerSide.get]
    have hexec : exec (.lostAtEndEye l e.serial) s = execLostAtEndEye l e.serial s := rfl
    rw [hexec]
    unfold execLostAtEndEye
    rw [entryEvent_of _ hm he (by rw [hc]; simp [hp, hw]), hc]
  exact ⟨fun h1 h2 h3 h4 h5 h6 => ⟨_, hcancel h1 h2 h3 h4, loseEntry_below (.cancel h) hk hn hm he h5 h6⟩,
    fun h1 h2 h3 h4 h5 h6 h7 => ⟨_, hcancel h1 h2 h3 h4, loseEntry_reached (.cancel h) hk hn h7 he h5 h6⟩,
    fun p h1 h2 h3 h4 h5 => ⟨_, hend p h1 h2 h3, loseEntry_below (.pathEnd h) hk hn hm he h4 h5⟩,
    fun p h1 h2 h3 h4 h5 h6 => ⟨_, hend p h1 h2 h3, loseEntry_reached (.pathEnd h) hk hn h6 he h4 h5⟩⟩

end

