-- ==== Sys2Proof/Proofs/PocketArrivals.lean ====
section
/-! Arrivals at the pocket eyes (R20, R109, R113): what the Pocket Router keeps of a pocket's record, and the end of the
entry that is expected there. -/

namespace Sys2Proof.Machine

/-! ### A pocket's record -/

theorem allPockets_pocketCode (p : Pocket) : allPockets.getD (pocketCode p).val .n1 = p := by cases p <;> rfl

theorem pocketCode_ne {p q : Pocket} (h : q ≠ p) : pocketCode q ≠ pocketCode p :=
  fun e => h (by rw [← allPockets_pocketCode q, e, allPockets_pocketCode])

@[simp] theorem pocketRec_updPocket (l : LaneId) (p : Pocket) (f : PocketRec → PocketRec) (s : State) :
    pocketRec l p (updPocket l p f s) = f (pocketRec l p s) := by
  simp [pocketRec]

theorem pocketRec_updPocket_other (l : LaneId) {p q : Pocket} (f : PocketRec → PocketRec) (s : State) (h : q ≠ p) :
    pocketRec l q (updPocket l p f s) = pocketRec l q s := by
  simp [pocketRec, vget_vupd_other _ _ (pocketCode_ne h)]

theorem pocketRec_congr (l : LaneId) (p : Pocket) {s t : State} (h : t.pkr.get l = s.pkr.get l) :
    pocketRec l p t = pocketRec l p s := by
  simp [pocketRec, h]

theorem setPocketState_rec (l : LaneId) (p : Pocket) (st : PocketState) (s : State) :
    pocketRec l p (setPocketState l p st s) = { pocketRec l p s with state := st } := by
  unfold setPocketState
  split
  next h => rw [← h]
  · exact pocketRec_updPocket l p _ s

/-- The tests behind an arrival and the warn flag leave a pocket's fill and its reservations. -/
def SameLoad (l : LaneId) (p : Pocket) (s t : State) : Prop :=
  (pocketRec l p t).fill = (pocketRec l p s).fill ∧ (pocketRec l p t).reservations = (pocketRec l p s).reservations

theorem SameLoad.trans {l : LaneId} {p : Pocket} {s t u : State} (h : SameLoad l p s t) (k : SameLoad l p t u) :
    SameLoad l p s u := ⟨k.1.trans h.1, k.2.trans h.2⟩

theorem sameLoad_of_pkr {l : LaneId} {p : Pocket} {s t : State} (h : t.pkr.get l = s.pkr.get l) : SameLoad l p s t := by
  unfold SameLoad
  rw [pocketRec_congr l p h]
  exact ⟨rfl, rfl⟩

theorem fullTest_load (l : LaneId) (p : Pocket) (s : State) : SameLoad l p s (fullTest l p s) := by
  unfold fullTest SameLoad
  dsimp only
  split
  · rw [setPocketState_rec]; exact ⟨rfl, rfl⟩
  · exact ⟨rfl, rfl⟩

theorem drainedTest_load (l : LaneId) (p : Pocket) (s : State) : SameLoad l p s (drainedTest l p s) := by
  unfold drainedTest SameLoad
  dsimp only
  split
  · rw [setPocketState_rec]; exact ⟨rfl, rfl⟩
  · exact ⟨rfl, rfl⟩

theorem followWarn_load (l : LaneId) (p : Pocket) (s : State) : SameLoad l p s (followWarn l p s) := by
  unfold followWarn SameLoad
  dsimp only
  split
  · exact ⟨rfl, rfl⟩
  · have h : ∀ f, pocketRec l p (raise .pocket (updPocket l p f s)) = f (pocketRec l p s) :=
      fun f => pocketRec_updPocket l p f s
    rw [h]
    exact ⟨rfl, rfl⟩

theorem endReached_load (l : LaneId) (p : Pocket) (was : Bool) (s : State) : SameLoad l p s (endReached l p was s) := by
  have h : Only (fun q => q = .raised ∨ q = .lane l ∨ q = .journal) s (endReached l p was s) := by
    apply endReached_only (h := only_refl _ _) <;> simp
  exact sameLoad_of_pkr (h (.pockets l) (by simp))

theorem countUp_pkr (l : LaneId) (c : Tally) (s : State) : (countUp l c s).pkr = s.pkr := by
  unfold countUp; split <;> rfl

/-- R109: an arrival of a letter a gated pocket is reserved for: its fill takes it and the reservation is gone. -/
theorem gatedArrival_reserved {l : LaneId} {q : Pocket} {n : Nat} {s : State} (ho : (pocketRec l q s).state ≠ .out)
    (hn : n ∈ (pocketRec l q s).reservations) :
    (pocketRec l q (gatedArrival l q n s)).fill = (pocketRec l q s).fill + 1 ∧
      (pocketRec l q (gatedArrival l q n s)).reservations =
        (pocketRec l q s).reservations.filter (· != n) := by
  unfold gatedArrival
  dsimp only
  rw [if_neg ho]
  obtain ⟨u, hu⟩ : ∃ u, u = countUp l (.pocket q) (updPocket l q (fun r =>
    { r with
      reservations := r.reservations.filter (· != n),
      fill := if ((pocketRec l q s).state != .out && (decide (n ∈ (pocketRec l q s).reservations) ||
        decide ((pocketRec l q s).fill + (pocketRec l q s).reservations.length < (pocketRec l q s).capacity))) = true
        then r.fill + 1 else r.fill }) s) := ⟨_, rfl⟩
  have hload := ((fullTest_load l q u).trans (followWarn_load l q _)).trans (drainedTest_load l q _)
  rw [← hu]
  obtain ⟨hf, hr⟩ := hload
  rw [hf, hr, hu, pocketRec_congr l q (congrArg (fun p => p.get l) (countUp_pkr l _ _)), pocketRec_updPocket]
  simp [ho, hn]

/-- R113: an arrival at an end pocket that is not OUT. -/
theorem endArrival_fill {l : LaneId} {q : Pocket} (n : Nat) {s : State} (ho : (pocketRec l q s).state ≠ .out)
    (hf : (pocketRec l q s).fill < 65535) :
    (pocketRec l q (endArrival l q n s)).fill = (pocketRec l q s).fill + 1 := by
  unfold endArrival
  dsimp only
  rw [if_neg ho]
  obtain ⟨u, hu⟩ : ∃ u, u = countUp l (.pocket q) (updPocket l q (fun r =>
    { r with fill := min (r.fill + 1) 65535 }) s) := ⟨_, rfl⟩
  rw [← hu]
  obtain ⟨hfill, -⟩ := (followWarn_load l q u).trans (endReached_load l q (decide
    ((pocketRec l q s).capacity ≤ (pocketRec l q s).fill)) _)
  rw [hfill, hu, pocketRec_congr l q (congrArg (fun p => p.get l) (countUp_pkr l _ _)), pocketRec_updPocket]
  exact Nat.min_eq_left (by omega)

/-- An arrival is counted for its pocket, and nothing else is counted. -/
theorem pocketArrival_tally (l : LaneId) (q : Pocket) (n : Nat) (s : State) :
    (pocketArrival l q n s).tally.get l = (countUp l (.pocket q) s).tally.get l := by
  have hplace : tallyPlace (.pocket q) = some (85 + (pocketCode q).val) := rfl
  have hcount : ∀ u : State, u.tally = s.tally →
      (countUp l (.pocket q) u).tally.get l = (countUp l (.pocket q) s).tally.get l := by
    intro u hu
    rw [countUp_tally l u hplace, countUp_tally l s hplace, hu]
  have hafter : ∀ u, (drainedTest l q (followWarn l q (fullTest l q u))).tally.get l = u.tally.get l := by
    intro u
    have h : Only (fun p => p = .raised ∨ p = .pockets l) u (drainedTest l q (followWarn l q (fullTest l q u))) := by
      apply drainedTest_only
      · apply followWarn_only
        · apply fullTest_only (h := only_refl _ _) <;> simp
        all_goals simp
      all_goals simp
    exact h (.tally l) (by simp)
  have hend : ∀ b u, (endReached l q b (followWarn l q u)).tally.get l = u.tally.get l := by
    intro b u
    have h : Only (fun p => p = .raised ∨ p = .pockets l ∨ p = .lane l ∨ p = .journal) u
        (endReached l q b (followWarn l q u)) := by
      apply endReached_only
      · apply followWarn_only (h := only_refl _ _) <;> simp
      all_goals simp
    exact h (.tally l) (by simp)
  unfold pocketArrival
  split
  · unfold gatedArrival
    dsimp only
    rw [hafter]
    refine hcount _ ?_
    split
    · rw [emit_tally]; rfl
    · rfl
  · unfold endArrival
    dsimp only
    split
    · exact hcount _ (emit_tally _ _ _ _ _ _ s)
    · rw [hend]
      exact hcount _ rfl

theorem pocketArrival_track (l : LaneId) (q : Pocket) (n : Nat) (s : State) :
    (pocketArrival l q n s).track.get l = s.track.get l := by
  have h : Only (fun p => p ≠ .track l) s (pocketArrival l q n s) := by
    apply pocketArrival_only (h := only_refl _ _) <;> simp
  exact h (.track l) (by simp)

/-! ### The end of the entry -/

/-- R20, R23: the outcome at a pocket. -/
def pocketOutcome (q : Pocket) : ItemOutcome := if q.gated then .sorted else .ended

theorem pocketOutcome_place (q : Pocket) : tallyPlace (.outcome (pocketOutcome q)) = some (if q.gated then 93 else 94) := by
  cases q <;> rfl

section
variable {l : LaneId} {n : Nat} {s : State} {e : Entry}

theorem finalise_of_some {o : ItemOutcome} (ho : o ≠ .lost) (he : findEntry l n s = some e) :
    finalise l n o s = drainTest l (leaveQueue l n o s) := by
  unfold finalise
  rw [he]
  dsimp only
  rw [if_neg ho]

theorem leaveQueue_pkr (o : ItemOutcome) :
    (leaveQueue l n o s).pkr.get l = s.pkr.get l := by
  have h : Only (fun p => p ≠ .pockets l) s (leaveQueue l n o s) := by
    apply leaveQueue_only (h := only_refl _ _) <;> simp
  exact h (.pockets l) (by simp)

theorem drainTest_pkr (l : LaneId) (s : State) : (drainTest l s).pkr.get l = s.pkr.get l :=
  drainTest_leaves l s (.pockets l) (by simp [orderParts])

end

theorem filter_map_serial (n : Nat) (f : Entry → Entry) (q : List Entry) (hf : ∀ e, (f e).serial = e.serial) :
    (q.map (fun x => if x.serial = n then f x else x)).filter (fun x => x.serial != n) =
      q.filter (fun x => x.serial != n) := by
  induction q with
  | nil => rfl
  | cons e q ih =>
    by_cases h : e.serial = n
    · have hfe : (f e).serial = n := by rw [hf, h]
      simp only [List.map_cons, h, if_true, List.filter_cons, hfe, bne_self_eq_false, Bool.false_eq_true, if_false]
      exact ih
    · simp only [List.map_cons, h, if_false, List.filter_cons, ih]

end Sys2Proof.Machine

open Sys2Proof Sys2Proof.Machine

/-- Settles O22, by what the Pocket Router takes of an arrival and what the end of the entry leaves. -/
theorem arrivalAtAPocketEye : Obligations.ArrivalAtAPocketEye := by
  intro l q s e hk hn hd hg hm hlen hfind hexp hout hres hfill
  obtain ⟨p, hp⟩ : ∃ p, p = ((s.belt.get l).samples.getD 0 ⟨0, 0, 0⟩).pos := ⟨_, rfl⟩
  have hexec := arrivalEvent_of (body := arrivePocket l q) hd hg hm hlen
  rw [← hp] at hexec hfind
  obtain ⟨u, hu⟩ : ∃ u, u = acceptEdge l (pocketEye q) true s := ⟨_, rfl⟩
  rw [← hu] at hexec
  have hmatch : matchEntry l (pocketEye q) p
      (fun e => e.cancelEye.map (fun c => c.1) == some (pocketSide q) && e.pocketSeen.isNone) u = some e := by
    rw [← hfind, hu]; rfl
  obtain ⟨v, hv⟩ : ∃ v, v = countBlock l .pocketAccuracy (clearEndJam l q
    (updEntry l e.serial (fun x => { x with pocketSeen := some q }) u)) := ⟨_, rfl⟩
  have hbody : arrivePocket l q p u = finalise l e.serial (pocketOutcome q) (pocketArrival l q e.serial v) := by
    unfold arrivePocket
    dsimp only
    rw [hmatch]
    dsimp only
    rw [hexp, ← hv, if_neg (show ¬(e.reroute.isNone && q != q) = true by simp)]
    rfl
  have hvq : (v.track.get l).queue = (s.track.get l).queue.map (fun x =>
      if x.serial = e.serial then { x with pocketSeen := some q } else x) := by
    have hclear : ∀ w, ((clearEndJam l q w).track.get l).queue = (w.track.get l).queue := by
      intro w
      unfold clearEndJam
      split
      · rfl
      · exact updJam_queue l _ _ w
    rw [hv, countBlock_track, hclear, updEntry_track, hu]
    rfl
  have hvf : findEntry l e.serial (pocketArrival l q e.serial v) = some { e with pocketSeen := some q } := by
    have hes : findEntry l e.serial s = some e := findEntry_of_mem hk (List.mem_of_find?_eq_some hfind)
    have h : findEntry l e.serial (updEntry l e.serial (fun x => { x with pocketSeen := some q }) s) =
        some { e with pocketSeen := some q } := by
      rw [findEntry_updEntry, hes]
      · rfl
      · exact fun _ => rfl
    rw [← h]
    unfold findEntry
    rw [pocketArrival_track, hvq, updEntry_track]
  have ho : pocketOutcome q ≠ .lost := by cases q <;> decide
  have hvt : v.tally.get l = s.tally.get l := by
    have hclear : ∀ w, (clearEndJam l q w).tally = w.tally := by
      intro w; unfold clearEndJam; split <;> rfl
    rw [hv, countBlock_tally, hclear, hu]
    rfl
  have hvp : pocketRec l q v = pocketRec l q s := by
    have hclear : ∀ w, (clearEndJam l q w).pkr = w.pkr := by
      intro w; unfold clearEndJam; split <;> rfl
    refine pocketRec_congr l q ?_
    rw [hv, countBlock_pkr, hclear, hu]
    rfl
  rw [hbody, finalise_of_some ho hvf] at hexec
  have hrec : pocketRec l q (settle s (drainTest l (leaveQueue l e.serial (pocketOutcome q)
      (pocketArrival l q e.serial v)))) = pocketRec l q (pocketArrival l q e.serial v) :=
    pocketRec_congr l q (by rw [settle_pkr, drainTest_pkr, leaveQueue_pkr])
  have hplace : tallyPlace (.pocket q) = some (85 + (pocketCode q).val) := rfl
  have hcode := (pocketCode q).isLt
  refine ⟨_, hexec, ?_, ?_, ?_, ?_, fun hgate => ?_⟩
  · rw [settle_track, drainTest_track, leaveQueue_track _ hvf, pocketArrival_track, hvq]
    exact filter_map_serial _ _ _ (fun _ => rfl)
  · rw [settle_tally, drainTest_tally, leaveQueue_getD _ hvf (by split <;> decide),
      countUp_getD_self l _ (pocketOutcome_place q) (by
        rw [pocketArrival_tally, countUp_length, hvt, hn]; split <;> decide), pocketArrival_tally,
      countUp_getD_other l l v (by rw [hplace, ne_eq, Option.some.injEq]; split <;> omega), hvt]
  · rw [settle_tally, drainTest_tally, leaveQueue_getD _ hvf (by omega),
      countUp_getD_other l l _ (by rw [pocketOutcome_place, ne_eq, Option.some.injEq]; split <;> omega), pocketArrival_tally,
      countUp_getD_self l v hplace (by rw [hvt, hn]; omega), hvt]
  · rw [hrec]
    unfold pocketArrival
    rw [← hvp] at hout hres hfill ⊢
    split
    next hgate => exact (gatedArrival_reserved hout (hres hgate)).1
    · exact endArrival_fill e.serial hout hfill
  · rw [hrec]
    unfold pocketArrival
    rw [← hvp] at hout hres ⊢
    rw [if_pos hgate]
    exact (gatedArrival_reserved hout (hres hgate)).2

end

