-- ==== Sys2Proof/Proofs/SamplesAndJobs.lean ====
section
/-! Samples and the scorer queue: what a sample adds to its entry's trace, the job of a full trace (R26, R28, R41), and the
verdict that a completed job records (R13, R44). -/

namespace Sys2Proof.Machine

/-! ### Traces -/

theorem traceOf_congr (l : LaneId) (n : Nat) {s t : State} (h : t.sfe.get l = s.sfe.get l) :
    traceOf l n t = traceOf l n s := by
  unfold traceOf
  rw [h]

/-- R26: a sample stands at the end of its entry's trace, which the first one opens. -/
theorem traceOf_addSample (l : LaneId) (n : Nat) (row : List Nat) (s : State) :
    traceOf l n (addSample l n row s) = traceOf l n s ++ [row] := by
  have hmap : ∀ ts : List Trace, ts.find? (fun t => t.serial == n) = none →
      (ts ++ [({ serial := n, samples := [row] } : Trace)]).find? (fun t => t.serial == n) =
        some { serial := n, samples := [row] } := by
    intro ts h
    rw [List.find?_append, h]
    simp
  have hset : ∀ (ts : List Trace) t, ts.find? (fun t => t.serial == n) = some t →
      (ts.map (fun t => if t.serial = n then { t with samples := t.samples ++ [row] } else t)).find?
        (fun t => t.serial == n) = some { t with samples := t.samples ++ [row] } := by
    intro ts t h
    induction ts with
    | nil => cases h
    | cons a ts ih =>
      by_cases ha : a.serial = n
      · simp_all
      · simp only [List.find?_cons, beq_eq_false_iff_ne.mpr ha] at h
        simp only [List.map_cons, ha, if_false, List.find?_cons, beq_eq_false_iff_ne.mpr ha]
        exact ih h
  unfold traceOf addSample
  rw [updSfe_sfe, PerLane.get_upd_self]
  dsimp only
  generalize (s.sfe.get l).traces = ts
  cases hf : ts.find? (fun t => t.serial == n) with
  | none =>
    have hany : ¬ ts.any (fun t => t.serial == n) = true := by
      rw [List.find?_eq_none] at hf
      simpa using hf
    rw [if_neg hany, hmap ts hf]
    rfl
  | some t =>
    have hany : ts.any (fun t => t.serial == n) = true :=
      List.any_eq_true.mpr ⟨t, List.mem_of_find?_eq_some hf, by simpa using List.find?_some hf⟩
    rw [if_pos hany, hset ts t hf]

/-- R25: a discarded trace is empty. -/
theorem traceOf_discardTrace (l : LaneId) (n : Nat) (s : State) : traceOf l n (discardTrace l n s) = [] := by
  unfold traceOf discardTrace
  rw [updSfe_sfe, PerLane.get_upd_self]
  dsimp only
  have h : ((s.sfe.get l).traces.filter (fun t => t.serial != n)).find? (fun t => t.serial == n) = none := by
    rw [List.find?_eq_none]
    intro t ht
    simpa using (List.mem_filter.mp ht).2
  rw [h]

theorem freeRow_spec (n : Nat) : (freeRow n).length = 12 ∧ ∀ x ∈ freeRow n, x ≤ 1023 := by
  refine ⟨by simp [freeRow], fun x hx => ?_⟩
  obtain ⟨i, -, rfl⟩ := List.mem_map.mp hx
  omega

/-! ### Taking a sample -/

theorem findEntry_setStage {l : LaneId} {n : Nat} {s : State} {e : Entry} (g : Stage) (he : findEntry l n s = some e) :
    findEntry l n (updEntry l n (fun x => { x with stage := g }) s) = some { e with stage := g } := by
  rw [findEntry_updEntry, he]
  · rfl
  · exact fun _ => rfl

/-- The scorer takes no job while it scores one (R43). -/
theorem takeJob_scoring {s : State} (h : s.msc.scoring.isSome = true) : takeJob s = s := by
  unfold takeJob
  cases s.msc.jobs.length with
  | zero => rfl
  | succ n =>
    obtain ⟨k, hk⟩ := Option.isSome_iff_exists.mp h
    unfold takeJobs
    rw [hk]
    cases s.msc.jobs with
    | nil => rfl
    | cons j rest => rfl

/-- With room in the queue and a job being scored, a job joins the tail (R41). -/
theorem postJob_scoring {l : LaneId} {e : Entry} {s : State} (tr : List (List Nat)) (h : s.msc.jobs.length < 8)
    (hs : s.msc.scoring.isSome = true) :
    postJob l e tr s = updMsc (fun m =>
      { m with
        jobs := m.jobs ++ [{ lane := l, serial := e.serial, length := e.length.getD 0, trace := tr,
                             deadline := jobDeadline l e s, detail := (geometry l s).journalDetail }],
        idleRunning := false }) s := by
  unfold postJob
  rw [if_pos h]
  exact takeJob_scoring hs

section
variable {l : LaneId} {s : State} {e : Entry} {r : List (BitVec 12)}

/-- The state after a sample is kept, before a full trace is handed on (R26). -/
def sampled (l : LaneId) (e : Entry) (r : List (BitVec 12)) (s : State) : State :=
  addSample l e.serial (calibrateAll (s.sfe.get l).pairs r)
    (updEntry l e.serial (fun x => { x with stage := .scanning }) s)

theorem sampled_trace (l : LaneId) (e : Entry) (r : List (BitVec 12)) (s : State) :
    traceOf l e.serial (sampled l e r s) = traceOf l e.serial s ++ [calibrateAll (s.sfe.get l).pairs r] := by
  unfold sampled
  rw [traceOf_addSample]
  rfl

theorem sampled_entry (he : findEntry l e.serial s = some e) :
    findEntry l e.serial (sampled l e r s) = some { e with stage := .scanning } := findEntry_setStage .scanning he

/-- A sample that is not the last stays with its entry. -/
theorem keepSample_more (h : e.length ≠ some ((traceOf l e.serial s).length + 1)) : keepSample l e r s = sampled l e r s := by
  have hl : (traceOf l e.serial (sampled l e r s)).length = (traceOf l e.serial s).length + 1 := by
    rw [sampled_trace]; simp
  unfold keepSample
  dsimp only
  exact if_neg (by rw [← hl] at h; exact h)

/-- The last sample hands the trace on (R28, R41). -/
theorem keepSample_last (h : e.length = some ((traceOf l e.serial s).length + 1)) :
    keepSample l e r s = postJob l e (traceOf l e.serial (sampled l e r s)) (discardTrace l e.serial
      (updEntry l e.serial (fun x => { x with stage := .queued }) (sampled l e r s))) := by
  have hl : (traceOf l e.serial (sampled l e r s)).length = (traceOf l e.serial s).length + 1 := by
    rw [sampled_trace]; simp
  unfold keepSample
  dsimp only
  exact if_pos (by rw [← hl] at h; exact h)

/-- A sample that is due is taken (R26). -/
theorem execSampleTaken_due (hr : r.length = 12) (he : findEntry l e.serial s = some e)
    (hd : sampleDue l e s = true) :
    exec (.sampleTaken l e.serial r) s = .next (settle s (takeSample l e r s)) := by
  have hexec : exec (.sampleTaken l e.serial r) s = execSampleTaken l e.serial r s := rfl
  rw [hexec]
  unfold execSampleTaken
  rw [if_pos (by simp [readingsOk, hr]), he]
  exact event_of _ _ hd

end

/-! ### The verdict of a job -/

theorem reportVerdict_lasting (l : LaneId) (k : VerdictKind) (s : State) : Lasting s (reportVerdict l k s) :=
  lasting_of_only (by apply reportVerdict_only (h := only_refl _ _) <;> simp [offBooks])

/-- What stands of an entry to which the scorer returns a verdict (R13, R44). -/
theorem findEntry_returnVerdict {l : LaneId} {n : Nat} {s : State} {e : Entry} (v : Verdict)
    (hk : trackOk (s.track.get l) = true) (he : findEntry l n s = some e) :
    ∃ f, findEntry l n (returnVerdict l n v s) = some f ∧ f.verdict = some (e.verdict.getD v) := by
  have hg : findEntry l n (giveVerdict l n v s) = some (given v e) := by
    rw [findEntry_giveVerdict, he]; rfl
  have hlast := (deliverAll_lasting l (giveVerdict l n v s)).trans (reportVerdict_lasting l v.kind _)
  obtain ⟨f, hf, hff⟩ := Steady.findEntry follows_order hlast
    (Steady.trackOk follows_order (giveVerdict_lasting l n v s) hk) hg
  exact ⟨f, hf, by rw [hff.verdict (by rw [given_verdict]; rfl), given_verdict]⟩

theorem returnVerdict_msc (l : LaneId) (n : Nat) (v : Verdict) (s : State) : (returnVerdict l n v s).msc = s.msc := by
  have h : Only (fun p => p ≠ .scorer) s (returnVerdict l n v s) := by
    apply returnVerdict_only (h := only_refl _ _) <;> simp
  exact h .scorer (by simp)

theorem takeJob_empty {s : State} (h : s.msc.jobs = []) : takeJob s = s := by
  unfold takeJob
  rw [h]
  rfl

end Sys2Proof.Machine

open Sys2Proof Sys2Proof.Machine

/-- Settles O25, by the cases of a sample: in reference mode, one of more to come, and the last. -/
theorem sampleTakenEffect : Obligations.SampleTakenEffect := by
  intro l s e r hr hm he hstage h291 hlen hpos
  have hdue : sampleDue l e s = true := by
    have hw : sampleWanted e.length (traceOf l e.serial s).length = true := by
      unfold sampleWanted
      split
      · simpa using h291
      next n hn => simp [hlen n hn, h291]
    have hst : (e.stage == .entering || e.stage == .scanning) = true := by
      rcases hstage with h | h <;> simp [h]
    simp [sampleDue, hw, hst, (moves_iff l s).mpr hm, isNow, counter, hpos]
  have hexec := execSampleTaken_due hr he hdue
  have htr : ∀ u, traceOf l e.serial (settle s u) = traceOf l e.serial u :=
    fun u => traceOf_congr l _ (by rw [settle_sfe])
  refine ⟨fun href => ?_, fun href hmore => ?_, fun href hlast hroom hscore => ?_⟩
  · obtain ⟨hl, hv⟩ := freeRow_spec s.freeCount
    have hbody : takeSample l e r s = missSample l e s := by simp [takeSample, href]
    rw [hbody] at hexec
    refine ⟨_, { e with stage := .scanning }, freeRow s.freeCount, hexec, ?_, hl, hv, ?_, rfl, ?_⟩
    · rw [htr, missSample, traceOf_addSample]
      rfl
    · rw [findEntry_settle]
      exact findEntry_setStage .scanning he
    · rw [settle_msc]
      rfl
  · have hbody : takeSample l e r s = sampled l e r s := by simp [takeSample, href, keepSample_more hmore]
    rw [hbody] at hexec
    refine ⟨_, { e with stage := .scanning }, hexec, by rw [htr, sampled_trace], ?_, rfl, ?_⟩
    · rw [findEntry_settle, sampled_entry he]
    · rw [settle_msc]
      rfl
  · have hbody : takeSample l e r s = keepSample l e r s := by simp [takeSample, href]
    rw [hbody, keepSample_last hlast, postJob_scoring _ (by exact hroom) (by exact hscore)] at hexec
    refine ⟨_, { lane := l, serial := e.serial, length := e.length.getD 0,
                 trace := traceOf l e.serial (sampled l e r s), deadline := jobDeadline l e s,
                 detail := (geometry l s).journalDetail },
      { e with stage := .queued }, hexec, ?_, rfl, rfl, by rw [hlast]; rfl, sampled_trace l e r s, rfl, ?_, ?_, rfl⟩
    · rw [settle_msc]
      rfl
    · rw [htr]
      exact traceOf_discardTrace l e.serial _
    · rw [findEntry_settle]
      have h := findEntry_setStage .queued (sampled_entry (r := r) he)
      exact h

/-- Settles O30: the first verdict an entry receives is kept through its delivery and through what is delivered after it. -/
theorem scoringReturnsTheVerdict : Obligations.ScoringReturnsTheVerdict := by
  intro s j rest k e hj hs hk he
  obtain ⟨u, hu⟩ : ∃ u, u = updMsc (fun m => { m with jobs := rest, scoring := none }) s := ⟨_, rfl⟩
  have hbody : completeJob s = takeJob (returnVerdict j.lane j.serial (jobVerdict j k s) u) := by
    unfold completeJob
    rw [hj, hs, hu]
  have hexec : exec .scoringComplete s = .next (settle s (completeJob s)) :=
    event_of _ _ (by simp [hj, hs])
  rw [hbody] at hexec
  have huk : trackOk (u.track.get j.lane) = true := by rw [hu]; exact hk
  obtain ⟨x, hx, hv⟩ := findEntry_returnVerdict (jobVerdict j k s) huk (e := e) (n := j.serial) (by rw [hu]; exact he)
  obtain ⟨f, hf, hff⟩ := Steady.findEntry follows_order (takeJob_lasting _)
    (Steady.trackOk follows_order (returnVerdict_lasting j.lane j.serial (jobVerdict j k s) u) huk) hx
  refine ⟨_, f, hexec, by rw [findEntry_settle, hf], ?_, fun hrest => ?_⟩
  · rw [hff.verdict (by rw [hv]; rfl), hv]
    rfl
  · have hmsc := returnVerdict_msc j.lane j.serial (jobVerdict j k s) u
    rw [settle_msc, takeJob_empty (by rw [hmsc, hu]; exact hrest), hmsc, hu]
    exact ⟨hrest, rfl⟩

end

