-- ==== Sys2Proof/Proofs/PrintStarts.lean ====
section
/-! PRINT_START (R96, R97): the print that is made, and the one that is not and sends its item to the end pocket. -/

namespace Sys2Proof.Machine

/-! ### Sending an item on where no other window waits -/

section
variable {l : LaneId} {g : Gate} {s : State}

/-- The removal of an item's window loads nothing where no second window waits at the gate (R75, R79). -/
theorem gateWork_remove (n : Nat) (h : (channel l g s).windows.length ≤ 1) :
    gateWork l [.remove n g] s = (removeWindow l n g s).1 := by
  have hrun : gateWork l [.remove n g] s =
      runWork l 1999 ((removeWindow l n g s).2 ++ []) (removeWindow l n g s).1 := rfl
  have hnil : ∀ u, runWork l 1999 [] u = u := fun _ => rfl
  have hload : ∀ u, (channel l g u).windows = [] → runWork l 1999 [.load g] u = u := by
    intro u hu
    have hone : runWork l 1999 [.load g] u = runWork l 1998 ((loadHead l g u).2 ++ []) (loadHead l g u).1 := rfl
    rw [hone]
    unfold loadHead
    rw [hu]
    rfl
  rw [hrun]
  unfold removeWindow
  split
  · exact hnil s
  next w hw =>
    split
    · exact hnil s
    · dsimp only
      split
      · refine hload _ ?_
        have hc : ∀ f v, channel l g (updEntry l n f v) = channel l g v := fun _ _ => rfl
        rw [hc, channel_updChannel]
        dsimp only
        have hwin : (channel l g s).windows = [w] := by
          have hm := List.mem_of_find?_eq_some hw
          generalize (channel l g s).windows = ws at *
          match ws, h, hm with
          | [x], _, hm => rw [List.mem_singleton.mp hm]
        rw [hwin]
        have hc := List.find?_some hw
        simpa using hc
      · exact hnil _

theorem removeWindow_leaves (l : LaneId) (n : Nat) (g : Gate) (s : State) :
    Only (fun p => p = .gates l ∨ p = .track l) s (removeWindow l n g s).1 := by
  apply removeWindow_only (h := only_refl _ _) <;> simp

theorem releaseAt_leaves (l : LaneId) (q : Pocket) (n : Nat) (s : State) :
    Only (fun p => p = .raised ∨ p = .pockets l) s (releaseAt l q n s) := by
  apply releaseAt_only (h := only_refl _ _) <;> simp

/-- The removal rule strikes at most a window from the item's plan (R79). -/
theorem findEntry_removeWindow {n : Nat} {e : Entry} (he : findEntry l n s = some e) :
    ∃ f, findEntry l n (removeWindow l n g s).1 = some f ∧ f = { e with plan := f.plan } := by
  unfold removeWindow
  split
  · exact ⟨e, he, rfl⟩
  · split
    · exact ⟨e, he, rfl⟩
    · refine ⟨strikeWindow g e, ?_, rfl⟩
      rw [findEntry_updEntry]
      · rw [findEntry_congr (s := s) n (by rfl), he]
        rfl
      · exact fun _ => rfl

/-- An item sent to its end pocket where no second window waits at any gate: windows may be struck from its plan, and
what is not a gate, a pocket or the queue stands (R97). -/
theorem sendToEnd_single {n : Nat} {e : Entry} (hw : ∀ g, (channel l g s).windows.length ≤ 1)
    (he : findEntry l n s = some e) :
    Only (fun p => p = .gates l ∨ p = .track l ∨ p = .raised ∨ p = .pockets l) s (sendToEnd l n s) ∧
      ∃ f, findEntry l n (sendToEnd l n s) = some f ∧ f = { e with plan := f.plan } := by
  have hstay : Only (fun p => p = .gates l ∨ p = .track l ∨ p = .raised ∨ p = .pockets l) s s ∧
      ∃ f, findEntry l n s = some f ∧ f = { e with plan := f.plan } := ⟨only_refl _ _, e, he, rfl⟩
  unfold sendToEnd
  rw [he]
  dsimp only
  split
  · exact hstay
  next p _ =>
    split
    · exact hstay
    next g _ =>
      split
      next hh =>
        obtain ⟨f, hf, hfe⟩ := findEntry_removeWindow (g := g) he
        have hr := only_mono (removeWindow_leaves l n g s)
          (qs := fun p => p = .gates l ∨ p = .track l ∨ p = .raised ∨ p = .pockets l) (fun q hq => by tauto)
        rw [gateWork_remove n (hw g), hf]
        dsimp only
        split
        · exact ⟨hr, f, hf, hfe⟩
        · have hq := releaseAt_leaves l p.pocket n (removeWindow l n g s).1
          refine ⟨only_trans hr (only_mono hq (fun q h => by tauto)), f, ?_, hfe⟩
          rw [findEntry_congr n (hq (.track l) (by simp)), hf]
      · exact hstay

end

/-! ### A print not made -/

/-- What a print not made leaves where no second window waits at any gate: the print is off its head's list, its item
uncancelled with the cause, and the cause counted (R96, R97). -/
theorem refusePrint_single {l : LaneId} {s : State} {n : Nat} {e : Entry} {i : Nat} (d : Side) (c : UncancelledCause)
    (hw : ∀ g, (channel l g s).windows.length ≤ 1) (he : findEntry l n s = some e)
    (hi : tallyPlace (.uncancelled c) = some i) (hn : i < (s.tally.get l).length) :
    (∃ f, findEntry l n (refusePrint l d n c s) = some f ∧ f.printResult = some (.uncancelled c) ∧
        f.reroute = e.reroute) ∧
      (head l d (refusePrint l d n c s)).prints = (head l d s).prints.filter (fun x => x.serial != n) ∧
      ((refusePrint l d n c s).tally.get l).getD i 0 = satAdd32 ((s.tally.get l).getD i 0) 1 := by
  obtain ⟨u, hu⟩ : ∃ u, u = countUp l (.uncancelled c)
      (updEntry l n (fun e => { e with printResult := some (.uncancelled c) }) (updHead l d (removePrint n) s)) :=
    ⟨_, rfl⟩
  have hdef : refusePrint l d n c s = sendToEnd l n u := by rw [hu]; rfl
  have hgsq : u.gsq = s.gsq := by rw [hu]; unfold countUp; rw [hi]; rfl
  have hcnu : u.cnu = (updHead l d (removePrint n) s).cnu := by rw [hu]; unfold countUp; rw [hi]; rfl
  have huw : ∀ g, (channel l g u).windows.length ≤ 1 := by
    intro g
    rw [channel_congr l g (congrArg (fun q => q.get l) hgsq)]
    exact hw g
  have hue : findEntry l n u = some { e with printResult := some (.uncancelled c) } := by
    rw [findEntry_congr (s := updEntry l n (fun e => { e with printResult := some (.uncancelled c) })
      (updHead l d (removePrint n) s)) n (by rw [hu, countUp_track]), findEntry_updEntry]
    · rw [findEntry_congr (s := s) n (by rfl), he]
      rfl
    · exact fun _ => rfl
  obtain ⟨honly, f, hf, hfe⟩ := sendToEnd_single huw hue
  rw [hdef]
  refine ⟨⟨f, hf, by rw [hfe], by rw [hfe]⟩, ?_, ?_⟩
  · have h : (sendToEnd l n u).cnu.get l = u.cnu.get l := honly (.heads l) (by simp)
    have hh : head l d (sendToEnd l n u) = head l d (updHead l d (removePrint n) s) := by
      unfold head
      rw [h, hcnu]
    rw [hh, head_updHead]
    rfl
  · have h : (sendToEnd l n u).tally.get l = u.tally.get l := honly (.tally l) (by simp)
    rw [h, hu]
    exact countUp_getD_self l _ hi hn

end Sys2Proof.Machine

open Sys2Proof Sys2Proof.Machine

/-- Settles O36, by the three cases of a print start at a head that prints nothing. -/
theorem printStartEffect : Obligations.PrintStartEffect := by
  intro l h s p e hm hp hno hk he hn hw
  have hearlier : endEarlier l h s = s := by
    have hnone : printingOf (head l h s) = none := by
      unfold printingOf
      rw [List.find?_eq_none]
      intro x hx
      simpa using hno x hx
    unfold endEarlier
    rw [hnone]
  have hexec : exec (.printStart l h) s = .next (settle s (startPrint l h p s)) := by
    have hx : exec (.printStart l h) s = execPrintStart l h s := rfl
    rw [hx]
    unfold execPrintStart startingPrint
    rw [hp]
    exact event_of _ _ ((moves_iff l s).mpr hm)
  have hhead : ∀ u, head l h (settle s u) = head l h u := fun u => by simp [head]
  have hrefused : ∀ c i, tallyPlace (.uncancelled c) = some i → i < 106 →
      startPrint l h p s = refusePrint l h p.serial c s → ∃ t f, exec (.printStart l h) s = .next t ∧
        findEntry l p.serial t = some f ∧ f.printResult = some (.uncancelled c) ∧ f.reroute = e.reroute ∧
        (head l h t).prints = (head l h s).prints.filter (fun x => x.serial != p.serial) ∧
        (t.tally.get l).getD i 0 = satAdd32 ((s.tally.get l).getD i 0) 1 := by
    intro c i hi hlt hstart
    obtain ⟨⟨f, hf, hr, hc⟩, hprints, htally⟩ := refusePrint_single h c hw he hi (by rw [hn]; exact hlt)
    rw [hstart] at hexec
    exact ⟨_, f, hexec, by rw [findEntry_settle, hf], hr, hc, by rw [hhead, hprints], by rw [settle_tally, htally]⟩
  refine ⟨fun hspit => ?_, fun hspit c hc => ⟨fun hslot => ?_, fun i hslot hcol => ?_⟩⟩
  · refine hrefused .spitBusy 83 rfl (by decide) ?_
    unfold startPrint
    dsimp only
    rw [hearlier, if_pos hspit]
  · have hstart : startPrint l h p s = refusePrint l h p.serial .rasterLate s := by
      unfold startPrint
      dsimp only
      rw [hearlier, if_neg (by simp [hspit]), hc]
      dsimp only
      rw [hslot]
    obtain ⟨t, f, ht, hf, hr, -, hprints, htally⟩ := hrefused .rasterLate 84 rfl (by decide) hstart
    exact ⟨t, f, ht, hf, hr, hprints, htally⟩
  · have hstart : startPrint l h p s = writePrinted l p p.clipped c.count (updHead l h (fun d => { d with
        prints := d.prints.map (fun x => if x.serial = p.serial then
          { p with state := .printing, image := some (i, c.count) } else x) }) s) := by
      unfold startPrint
      dsimp only
      rw [hearlier, if_neg (by simp [hspit]), hc]
      dsimp only
      rw [hslot]
      unfold beginPrint
      dsimp only
      rw [if_neg (by omega)]
    rw [hstart] at hexec
    refine ⟨_, hexec, ?_, ?_, fun m hm => ?_⟩
    · rw [hhead, writePrinted, updEntry_head, head_updHead]
    · rw [settle_track, writePrinted, updEntry_track]
      rfl
    · rw [settle_track, writePrinted, updEntry_track_other _ _ _ hm]
      rfl

end

