-- ==== Sys2Proof/Proofs/Purges.lean ====
section
/-! The purge of a lane that CLEAR and ABORT have in common (R24, R81, R106, R110): the reservations of its letters, its
queue, and what of the lane it leaves. -/

namespace Sys2Proof.Machine

/-! ### Reservations -/

/-- R110: a pocket's record after a serial's reservation is released there. -/
def releasedRec (n : Nat) (r : PocketRec) : PocketRec :=
  if n ∈ r.reservations then
    { r with
      reservations := r.reservations.filter (· != n),
      state := if r.state = .draining ∧ r.reservations.filter (· != n) = [] then .readyToSwap else r.state }
  else r

theorem drainedTest_rec (l : LaneId) (p : Pocket) (s : State) :
    pocketRec l p (drainedTest l p s) = { pocketRec l p s with
      state := if (pocketRec l p s).state = .draining ∧ (pocketRec l p s).reservations = [] then .readyToSwap
        else (pocketRec l p s).state } := by
  unfold drainedTest
  dsimp only
  split
  · rw [setPocketState_rec]
  · rfl

theorem setPocketState_other (l : LaneId) {p q : Pocket} (st : PocketState) (s : State) (h : q ≠ p) :
    pocketRec l q (setPocketState l p st s) = pocketRec l q s := by
  unfold setPocketState
  split
  · rfl
  · exact pocketRec_updPocket_other l _ s h

theorem pocketRec_releaseAt (l : LaneId) (p : Pocket) (n : Nat) (s : State) :
    pocketRec l p (releaseAt l p n s) = releasedRec n (pocketRec l p s) := by
  unfold releaseAt releasedRec
  split
  · rw [drainedTest_rec, pocketRec_updPocket]
  · rfl

theorem pocketRec_releaseAt_other (l : LaneId) {p q : Pocket} (n : Nat) (s : State) (h : q ≠ p) :
    pocketRec l q (releaseAt l p n s) = pocketRec l q s := by
  unfold releaseAt
  split
  · unfold drainedTest
    dsimp only
    split
    · rw [setPocketState_other l _ _ h, pocketRec_updPocket_other l _ s h]
    · exact pocketRec_updPocket_other l _ s h
  · rfl

theorem pocketRec_foldl_releaseAt (l : LaneId) (q : Pocket) (n : Nat) (ps : List Pocket) (s : State) (h : ps.Nodup) :
    pocketRec l q (ps.foldl (fun s p => releaseAt l p n s) s) =
      if q ∈ ps then releasedRec n (pocketRec l q s) else pocketRec l q s := by
  induction ps generalizing s with
  | nil => rfl
  | cons p ps ih =>
    obtain ⟨hp, hps⟩ := List.nodup_cons.mp h
    rw [List.foldl_cons, ih _ hps]
    by_cases hq : q = p
    · subst hq
      simp [hp, pocketRec_releaseAt]
    · simp [hq, pocketRec_releaseAt_other l n s hq]

theorem mem_gatedPockets (q : Pocket) : q ∈ gatedPockets ↔ q.gated = true := by cases q <;> decide

/-- R110: the release of a letter's reservations. -/
theorem pocketRec_releaseReservation (l : LaneId) (q : Pocket) (n : Nat) (s : State) :
    pocketRec l q (releaseReservation l n s) =
      if q.gated = true then releasedRec n (pocketRec l q s) else pocketRec l q s := by
  unfold releaseReservation
  rw [pocketRec_foldl_releaseAt l q n _ s (by decide)]
  simp only [mem_gatedPockets]

/-- The release of a run of serials: a DRAINING pocket whose list it empties is READY_TO_SWAP. -/
theorem foldl_releasedRec (ns : List Nat) (r : PocketRec) :
    ns.foldl (fun r n => releasedRec n r) r = { r with
      reservations := r.reservations.filter (fun n => ns.all (fun m => m != n)),
      state := if r.state = .draining ∧ r.reservations ≠ [] ∧ (∀ n ∈ r.reservations, n ∈ ns) then .readyToSwap
        else r.state } := by
  induction ns generalizing r with
  | nil =>
    obtain ⟨c, f, res, st, d, w, t, b⟩ := r
    cases res with
    | nil => simp
    | cons n ns =>
      simp only [List.foldl_nil, List.all_nil, List.filter_true, List.not_mem_nil, imp_false]
      rw [if_neg (fun h => h.2.2 n (List.mem_cons_self ..))]
  | cons m ns ih =>
    rw [List.foldl_cons, ih]
    unfold releasedRec
    split
    next hm =>
      have hfilter : (r.reservations.filter (· != m)).filter (fun n => ns.all (fun k => k != n)) =
          r.reservations.filter (fun n => (m :: ns).all (fun k => k != n)) := by
        rw [List.filter_filter]
        refine List.filter_congr (fun n _ => ?_)
        rw [List.all_cons, Bool.and_comm]
        congr 1
        exact bne_comm
      have hall : (∀ n ∈ r.reservations.filter (· != m), n ∈ ns) ↔ ∀ n ∈ r.reservations, n ∈ m :: ns := by
        simp only [List.mem_filter, bne_iff_ne, ne_eq, List.mem_cons]
        constructor
        · intro h n hn
          by_cases hnm : n = m
          · exact Or.inl hnm
          · exact Or.inr (h n ⟨hn, hnm⟩)
        · rintro h n ⟨hn, hnm⟩
          exact (h n hn).resolve_left hnm
      have hne : r.reservations ≠ [] := List.ne_nil_of_mem hm
      dsimp only
      rw [hfilter]
      congr 1
      by_cases hd : r.state = .draining
      · by_cases he : r.reservations.filter (· != m) = []
        · have hyes : ∀ n ∈ r.reservations, n ∈ m :: ns := hall.mp (by rw [he]; simp)
          rw [if_pos (show r.state = .draining ∧ r.reservations.filter (· != m) = [] from ⟨hd, he⟩),
            if_neg (fun h => absurd h.1 (by decide)), if_pos ⟨hd, hne, hyes⟩]
        · rw [if_neg (show ¬(r.state = .draining ∧ r.reservations.filter (· != m) = []) from fun h => he h.2)]
          simp only [hd, he, hne, ne_eq, not_false_eq_true, true_and, hall]
      · simp [hd]
    next hm =>
      have hfilter : r.reservations.filter (fun n => ns.all (fun k => k != n)) =
          r.reservations.filter (fun n => (m :: ns).all (fun k => k != n)) := by
        refine List.filter_congr (fun n hn => ?_)
        have hnm : m ≠ n := fun h => hm (h ▸ hn)
        simp [hnm]
      have hall : (∀ n ∈ r.reservations, n ∈ ns) ↔ ∀ n ∈ r.reservations, n ∈ m :: ns := by
        refine forall₂_congr (fun n hn => ?_)
        have hnm : n ≠ m := fun h => hm (h ▸ hn)
        simp [hnm]
      rw [hfilter]
      simp only [hall]

/-! ### What of the lane a purge leaves -/

/-- From one state to another of a lane's records: of the sequencer's the hold reasons alone have changed, of the Scan
Front End's the traces, no trim and no wet state of a head, and no reason raised is lost. -/
structure Purging (l : LaneId) (s t : State) : Prop where
  lsq : ∃ hs, t.lsq.get l = { s.lsq.get l with holds := hs }
  raised : RaisedKept s t
  heads : ∀ h, (head l h t).trim = (head l h s).trim ∧ (head l h t).wet = (head l h s).wet
  scan : ∃ ts, t.sfe.get l = { s.sfe.get l with traces := ts }

section
variable {l : LaneId} {s t u : State}

theorem Purging.refl (l : LaneId) (s : State) : Purging l s s :=
  ⟨⟨_, rfl⟩, RaisedKept.refl s, fun _ => ⟨rfl, rfl⟩, ⟨_, rfl⟩⟩

theorem Purging.trans (h : Purging l s t) (k : Purging l t u) : Purging l s u := by
  obtain ⟨hs, hl⟩ := h.lsq
  obtain ⟨ks, kl⟩ := k.lsq
  obtain ⟨ht, hf⟩ := h.scan
  obtain ⟨kt, kf⟩ := k.scan
  refine ⟨⟨ks, by rw [kl, hl]⟩, h.raised.trans k.raised, fun d => ?_, ⟨kt, by rw [kf, hf]⟩⟩
  exact ⟨(k.heads d).1.trans (h.heads d).1, (k.heads d).2.trans (h.heads d).2⟩

/-- What leaves the lane's sequencer, Scan Front End and heads. -/
theorem purging_of_only {ps : Part → Prop} (h : Only ps s t) (hr : RaisedKept s t) (h1 : ¬ ps (.lane l))
    (h2 : ¬ ps (.idle l)) (h3 : ¬ ps (.heads l)) (h4 : ¬ ps (.sfe l)) : Purging l s t := by
  have hheads : t.cnu.get l = s.cnu.get l := h (.heads l) h3
  have hscan : t.sfe.get l = s.sfe.get l := h (.sfe l) h4
  refine ⟨⟨_, lsq_of_only l h h1 h2⟩, hr, fun d => ?_, ⟨_, hscan⟩⟩
  unfold head
  rw [hheads]
  exact ⟨rfl, rfl⟩

theorem purging_foldl {α : Type} (f : State → α → State) (h : ∀ s x, Purging l s (f s x)) (xs : List α) (s : State) :
    Purging l s (xs.foldl f s) := by
  induction xs generalizing s with
  | nil => exact Purging.refl l s
  | cons x xs ih => exact (h s x).trans (ih _)

theorem setHold_purging (l : LaneId) (r : HoldReason) (on : Bool) (s : State) : Purging l s (setHold l r on s) := by
  have h : Only (fun p => p = .lane l ∨ p = .raised) s (setHold l r on s) := by
    apply setHold_only (h := only_refl _ _) <;> simp
  have hheads : (setHold l r on s).cnu.get l = s.cnu.get l := h (.heads l) (by simp)
  have hscan : (setHold l r on s).sfe.get l = s.sfe.get l := h (.sfe l) (by simp)
  refine ⟨setHold_lsq l s r on, setHold_kept l r on s, fun d => ?_, ⟨_, hscan⟩⟩
  unfold head
  rw [hheads]
  exact ⟨rfl, rfl⟩

theorem updHead_purging (l : LaneId) (d : Side) (f : Head → Head) (s : State)
    (hf : ∀ x, (f x).trim = x.trim ∧ (f x).wet = x.wet) : Purging l s (updHead l d f s) := by
  refine ⟨⟨_, rfl⟩, raisedKept_of_eq rfl, fun k => ?_, ⟨_, rfl⟩⟩
  by_cases hk : k = d
  · subst hk
    rw [head_updHead]
    exact hf _
  · rw [head_updHead_other l f s hk]
    exact ⟨rfl, rfl⟩

theorem withdrawAt_purging (l : LaneId) (d : Side) (n : Nat) (s : State) : Purging l s (withdrawAt l d n s) := by
  have hu := updHead_purging l d (fun x =>
    { x with prints := x.prints.filter (fun p => p.serial != n || p.state == .printing) }) s (fun _ => ⟨rfl, rfl⟩)
  have he : ∀ f v, Purging l v (updEntry l n f v) := fun f v =>
    purging_of_only (ps := fun p => p = .track l) (updEntry_only l n f (only_refl _ _) rfl) (raisedKept_of_eq rfl)
      (by simp) (by simp) (by simp) (by simp)
  unfold withdrawAt
  dsimp only
  split
  · exact hu.trans (he _ _)
  · exact hu

theorem setPocketState_kept (l : LaneId) (p : Pocket) (st : PocketState) (s : State) :
    RaisedKept s (setPocketState l p st s) := by
  unfold setPocketState
  refine raisedKept_ite (RaisedKept.refl s) ?_
  have h : RaisedKept s (updPocket l p (fun r => { r with state := st }) s) := raisedKept_of_eq rfl
  exact h.trans (raise_kept _ _)

theorem releaseAt_purging (l : LaneId) (p : Pocket) (n : Nat) (s : State) : Purging l s (releaseAt l p n s) := by
  have hkept : RaisedKept s (releaseAt l p n s) := by
    unfold releaseAt drainedTest
    dsimp only
    have h : ∀ f, RaisedKept s (updPocket l p f s) := fun f => raisedKept_of_eq rfl
    exact raisedKept_ite (raisedKept_ite ((h _).trans (setPocketState_kept l p _ _)) (h _)) (RaisedKept.refl s)
  exact purging_of_only (releaseAt_leaves l p n s) hkept (by simp) (by simp) (by simp) (by simp)

theorem leaveQueue_purging (l : LaneId) (n : Nat) (o : ItemOutcome) (s : State) :
    Purging l s (leaveQueue l n o s) := by
  have hleft : Purging l s (leftQueue l n o s) := by
    have h : ∀ v, Purging l v (countUp l (.outcome o) v) := fun v =>
      purging_of_only (ps := fun p => p = .tally l) (countUp_only l _ (only_refl _ _) rfl)
        (raisedKept_of_eq (by unfold countUp; split <;> rfl)) (by simp) (by simp) (by simp) (by simp)
    have hd : Purging l s (discardTrace l n
        (updTrack l (fun t => { t with queue := t.queue.filter (fun x => x.serial != n) }) s)) := by
      refine ⟨⟨_, rfl⟩, raisedKept_of_eq rfl, fun _ => ⟨rfl, rfl⟩,
        ⟨(s.sfe.get l).traces.filter (fun t => t.serial != n), ?_⟩⟩
      unfold discardTrace
      rw [updSfe_sfe, PerLane.get_upd_self]
      rfl
    exact hd.trans (h _)
  have hrec : ∀ r v, Purging l v (placeRecord r v) := fun r v =>
    purging_of_only (placeRecord_leaves r v) (placeRecord_kept r v) (by simp) (by simp) (by simp) (by simp)
  have hfull : ∀ v, Purging l v (queueFullTest l v) := by
    intro v
    unfold queueFullTest
    split
    · exact setHold_purging l _ _ v
    · exact Purging.refl l v
  cases he : findEntry l n s with
  | none =>
    unfold leaveQueue
    rw [he]
    exact Purging.refl l s
  | some e =>
    rw [leaveQueue_of_some o he]
    exact (hleft.trans (hrec _ _)).trans (hfull _)

theorem purgeEntry_purging (l : LaneId) (e : Entry) (s : State) : Purging l s (purgeEntry l e s) := by
  have hw : Only (fun p => p = .track l ∨ p = .gates l) s (purgeWindows l e s) := by
    apply purgeWindows_only (h := only_refl _ _) <;> simp
  have h1 : Purging l s (purgeWindows l e s) :=
    purging_of_only hw (raisedKept_of_only hw (by simp)) (by simp) (by simp) (by simp) (by simp)
  have h2 := (h1.trans (withdrawAt_purging l .near e.serial _)).trans (withdrawAt_purging l .far e.serial _)
  have h3 := h2.trans (purging_foldl (fun s p => releaseAt l p e.serial s)
    (fun v p => releaseAt_purging l p e.serial v) gatedPockets _)
  exact h3.trans (leaveQueue_purging l e.serial .purged _)

/-! ### The purged queue -/

/-- The serials that stay are those of the other entries; of the rest of the track record nothing changes. -/
theorem purgeEntry_track (e : Entry) (hk : trackOk (s.track.get l) = true) :
    trackOk ((purgeEntry l e s).track.get l) = true ∧
      ((purgeEntry l e s).track.get l).queue.map (fun x => x.serial) =
        ((s.track.get l).queue.map (fun x => x.serial)).filter (· != e.serial) ∧
      ((purgeEntry l e s).track.get l).lastSerial = (s.track.get l).lastSerial := by
  obtain ⟨u, hu⟩ : ∃ u, u = releaseReservation l e.serial (withdrawPrint l e.serial (purgeWindows l e s)) := ⟨_, rfl⟩
  have hcalm : Calm s u := by
    rw [hu]
    exact ((purgeWindows_calm l e s).trans (withdrawPrint_calm l e.serial _)).trans
      (releaseReservation_calm l e.serial _)
  obtain ⟨φ, ht, hφ⟩ := hcalm.track l hk
  have hser : (u.track.get l).queue.map (fun x => x.serial) = (s.track.get l).queue.map (fun x => x.serial) := by
    rw [ht]
    exact map_map_serial (fun x hx => advanced_order.serial _ _ (hφ x hx))
  have hlast : (u.track.get l).lastSerial = (s.track.get l).lastSerial := by rw [ht]
  have huk := hcalm.trackOk advanced_order hk
  have hdef : purgeEntry l e s = leaveQueue l e.serial .purged u := by rw [hu]; rfl
  rw [hdef]
  cases he : findEntry l e.serial u with
  | none =>
    have hsame : leaveQueue l e.serial .purged u = u := by
      unfold leaveQueue
      rw [he]
    rw [hsame]
    refine ⟨huk, ?_, hlast⟩
    rw [hser]
    symm
    rw [List.filter_eq_self, ← hser]
    intro n hn
    obtain ⟨x, hx, rfl⟩ := List.mem_map.mp hn
    have hnot := List.find?_eq_none.mp he x hx
    simpa using hnot
  | some x =>
    rw [leaveQueue_track .purged he]
    refine ⟨trackOk_filter _ huk, ?_, hlast⟩
    dsimp only
    rw [map_filter_serial, hser]

theorem foldl_purgeEntry_track (es : List Entry) (hk : trackOk (s.track.get l) = true) :
    ((es.foldl (fun s e => purgeEntry l e s) s).track.get l).queue.map (fun x => x.serial) =
        ((s.track.get l).queue.map (fun x => x.serial)).filter (fun n => es.all (fun e => e.serial != n)) ∧
      ((es.foldl (fun s e => purgeEntry l e s) s).track.get l).lastSerial = (s.track.get l).lastSerial := by
  induction es generalizing s with
  | nil => simp
  | cons e es ih =>
    obtain ⟨hok, hser, hlast⟩ := purgeEntry_track e hk
    obtain ⟨h1, h2⟩ := ih hok
    rw [List.foldl_cons]
    refine ⟨?_, h2.trans hlast⟩
    rw [h1, hser, List.filter_filter]
    refine List.filter_congr (fun n _ => ?_)
    rw [List.all_cons, Bool.and_comm]
    congr 1
    exact bne_comm

theorem foldl_purgeEntry_pockets (q : Pocket) (es : List Entry) (s : State) :
    pocketRec l q (es.foldl (fun s e => purgeEntry l e s) s) =
      if q.gated = true then (es.map (fun e => e.serial)).foldl (fun r n => releasedRec n r) (pocketRec l q s)
      else pocketRec l q s := by
  have hone : ∀ e v, pocketRec l q (purgeEntry l e v) =
      if q.gated = true then releasedRec e.serial (pocketRec l q v) else pocketRec l q v := by
    intro e v
    have hbefore : Only (fun p => p ≠ .pockets l) v (withdrawPrint l e.serial (purgeWindows l e v)) := by
      apply withdrawPrint_only
      · apply purgeWindows_only (h := only_refl _ _) <;> simp
      all_goals simp
    unfold purgeEntry
    rw [pocketRec_congr l q (leaveQueue_pkr (l := l) (n := e.serial) .purged), pocketRec_releaseReservation,
      pocketRec_congr l q (hbefore (.pockets l) (by simp))]
  induction es generalizing s with
  | nil => simp
  | cons e es ih =>
    rw [List.foldl_cons, ih, hone]
    split <;> rfl

end

end Sys2Proof.Machine
end

