-- ==== Sys2Proof/Proofs/PurgedLane.lean ====
section
/-! The purged lane: what the purge of CLEAR and ABORT leaves of the queue, the heads, the gates and the pockets, and the
operations after it that keep this. -/

namespace Sys2Proof.Machine

/-! ### Heads and gates -/

theorem head_updBoth (l : LaneId) (h : Side) (f : Head → Head) (s : State) :
    head l h (updHead l .far f (updHead l .near f s)) = f (head l h s) := by
  cases h with
  | near => rw [head_updHead_other l f _ (by decide), head_updHead]
  | far => rw [head_updHead, head_updHead_other l f s (by decide)]

theorem emptyWaiting_keeps (i : Fin 2) (d : Head) :
    (emptyWaiting i d).prints = d.prints ∧ (emptyWaiting i d).verify = d.verify ∧ (emptyWaiting i d).trim = d.trim ∧
      (emptyWaiting i d).wet = d.wet := by
  unfold emptyWaiting
  split <;> exact ⟨rfl, rfl, rfl, rfl⟩

theorem head_clearPrints (l : LaneId) (h : Side) (s : State) :
    (head l h (clearPrints l s)).prints = [] ∧ (head l h (clearPrints l s)).verify = [] ∧
      (head l h (clearPrints l s)).trim = (head l h s).trim ∧ (head l h (clearPrints l s)).wet = (head l h s).wet := by
  unfold clearPrints
  dsimp only
  rw [head_updBoth]
  obtain ⟨h1, h2, h3, h4⟩ := emptyWaiting_keeps 1 (emptyWaiting 0 { head l h s with prints := [], verify := [] })
  obtain ⟨k1, k2, k3, k4⟩ := emptyWaiting_keeps 0 { head l h s with prints := [], verify := [] }
  exact ⟨h1.trans k1, h2.trans k2, h3.trans k3, h4.trans k4⟩

theorem channel_gatesClear (l : LaneId) (g : Gate) (s : State) :
    channel l g (gatesClear l s) = { channel l g s with
      windows := [], lastClosed := none, output := false, hold := none } := by
  unfold gatesClear
  rw [channel_foldl l g _ _ _ (by decide), if_pos (mem_allGates g)]

/-! ### The purged lane -/

section
variable {l : LaneId} {s t u : State}

/-- What of a lane's letters is gone after a purge is gone after whatever leaves its track record, counter, gates,
pockets, print lists and QUEUE_FULL. -/
theorem purged_of_same (h : Purged l s t) (ht : u.track.get l = t.track.get l) (hb : u.belt.get l = t.belt.get l)
    (hg : u.gsq.get l = t.gsq.get l) (hp : u.pkr.get l = t.pkr.get l)
    (hh : ∀ d, (head l d u).prints = (head l d t).prints ∧ (head l d u).verify = (head l d t).verify)
    (hq : holdSet l .queueFull u = holdSet l .queueFull t) : Purged l s u := by
  obtain ⟨h1, h2, h3, h4, h5, h6, h7, h8, h9⟩ := h
  refine ⟨by rw [ht, h1], by rw [ht, h2], by rw [ht, h3], by rw [hb, h4], fun d => ?_, fun g => ?_, by rw [hq, h7], ?_, ?_⟩
  · obtain ⟨hp', hv'⟩ := hh d
    rw [ht, hp', hv']
    exact h5 d
  · rw [channel_congr l g hg]
    exact h6 g
  · intro p
    rw [pocketRec_congr l p hp]
    exact h8 p
  · intro p
    rw [pocketRec_congr l p hp]
    exact h9 p

theorem setHold_leaves (l : LaneId) (r : HoldReason) (on : Bool) (s : State) :
    Only (fun p => p = .lane l ∨ p = .raised) s (setHold l r on s) := by
  apply setHold_only (h := only_refl _ _) <;> simp

/-- Every letter of a well-kept queue is purged, and its reservations are released (R24, R110). -/
theorem purge_spec (hk : trackOk (s.track.get l) = true) :
    ((purge l s).track.get l).queue = [] ∧ ((purge l s).track.get l).lastTrail = none ∧
      ((purge l s).track.get l).lastSerial = (s.track.get l).lastSerial ∧
      ((purge l s).track.get l).cancelJam = ⟨0, 0⟩ ∧ ((purge l s).track.get l).endJam = ⟨0, 0⟩ ∧
      holdSet l .queueFull (purge l s) = false ∧ ReservationsReleased l s (purge l s) ∧ Purging l s (purge l s) := by
  obtain ⟨u, hu⟩ : ∃ u, u = (s.track.get l).queue.foldl (fun s e => purgeEntry l e s) s := ⟨_, rfl⟩
  obtain ⟨v, hv⟩ : ∃ v, v = updTrack l (fun t => { t with
      lastTrail := none, cancelJam := ⟨0, 0⟩, endJam := ⟨0, 0⟩ }) u := ⟨_, rfl⟩
  have hdef : purge l s = setHold l .queueFull false v := by rw [hv, hu]; rfl
  have hset := setHold_leaves l .queueFull false v
  have htrack : (purge l s).track.get l = { u.track.get l with
      lastTrail := none, cancelJam := ⟨0, 0⟩, endJam := ⟨0, 0⟩ } := by
    have h : (setHold l .queueFull false v).track.get l = v.track.get l := hset (.track l) (by simp)
    rw [hdef, h, hv, updTrack_track, PerLane.get_upd_self]
  obtain ⟨hser, hlast⟩ := foldl_purgeEntry_track (s.track.get l).queue hk
  rw [← hu] at hser hlast
  have hempty : (u.track.get l).queue = [] := by
    rw [← List.map_eq_nil_iff (f := fun x : Entry => x.serial), hser, List.filter_eq_nil_iff]
    intro n hn hall
    obtain ⟨e, he, rfl⟩ := List.mem_map.mp hn
    have h := List.all_eq_true.mp hall e he
    simp at h
  have hpockets : ∀ p, pocketRec l p (purge l s) = if p.gated = true then
      ((s.track.get l).queue.map (fun e => e.serial)).foldl (fun r n => releasedRec n r) (pocketRec l p s)
      else pocketRec l p s := by
    intro p
    have h : (setHold l .queueFull false v).pkr.get l = v.pkr.get l := hset (.pockets l) (by simp)
    rw [hdef, pocketRec_congr l p h, ← foldl_purgeEntry_pockets, ← hu, hv]
    rfl
  refine ⟨by rw [htrack]; exact hempty, by rw [htrack], by rw [htrack]; exact hlast, by rw [htrack], by rw [htrack],
    by rw [hdef]; exact setHold_same l v _ _, ⟨fun p hp => ?_, fun p hp => ?_⟩, ?_⟩
  · have hmem : ∀ n, n ∈ (s.track.get l).queue.map (fun e => e.serial) ↔ ∃ e ∈ (s.track.get l).queue, e.serial = n :=
      fun n => List.mem_map
    rw [hpockets, if_pos hp, foldl_releasedRec]
    simp only [hmem, List.all_map, Function.comp_def]
    refine ⟨trivial, fun hall => ?_⟩
    rw [List.filter_eq_nil_iff]
    intro n hn hno
    obtain ⟨e, he, hen⟩ := hall n hn
    have h := List.all_eq_true.mp hno e he
    simp [hen] at h
  · rw [hpockets, if_neg (by simp [hp])]
  · rw [hdef]
    refine Purging.trans ?_ (setHold_purging l .queueFull false v)
    rw [hv, hu]
    refine (purging_foldl (fun s e => purgeEntry l e s) (fun w e => purgeEntry_purging l e w)
      (s.track.get l).queue s).trans ?_
    exact purging_of_only (ps := fun p => p = .track l) (updTrack_only l _ (only_refl _ _) rfl) (raisedKept_of_eq rfl)
      (by simp) (by simp) (by simp) (by simp)

/-- What CLEAR and ABORT have in common leaves a purged lane (R24, R45, R81, R106). -/
theorem purgeLane_spec (hk : trackOk (s.track.get l) = true) : Purged l s (purgeLane l s) ∧ Purging l s (purgeLane l s) := by
  obtain ⟨h1, h2, h3, h4, h5, h6, h7, h8⟩ := purge_spec hk
  obtain ⟨u, hu⟩ : ∃ u, u = gatesClear l (removeJobs l (purge l s)) := ⟨_, rfl⟩
  have hgates : Only (fun p => p = .gates l ∨ p = .scorer) (purge l s) u := by
    rw [hu]
    apply gatesClear_only
    · apply removeJobs_only (h := only_refl _ _)
      simp
    · simp
  have hall : Only (fun p => p = .gates l ∨ p = .scorer ∨ p = .heads l) (purge l s) (purgeLane l s) := by
    have hdef : purgeLane l s = clearPrints l u := by rw [hu]; rfl
    rw [hdef]
    apply clearPrints_only
    · exact only_mono hgates (fun p hp => by tauto)
    · simp
  have hdef : purgeLane l s = clearPrints l u := by rw [hu]; rfl
  have hbelt : Only (fun p => p ≠ .belt l) s (purgeLane l s) := by
    apply purgeLane_only (h := only_refl _ _) <;> simp
  have htrack : (purgeLane l s).track.get l = (purge l s).track.get l := hall (.track l) (by simp)
  have hpkr : (purgeLane l s).pkr.get l = (purge l s).pkr.get l := hall (.pockets l) (by simp)
  have hlsq := lsq_of_only l hall (by simp) (by simp)
  refine ⟨⟨by rw [htrack, h1], by rw [htrack, h2], by rw [htrack, h3], ?_, fun d => ?_, fun g => ?_, ?_, ?_, ?_⟩, ?_⟩
  · have h : (purgeLane l s).belt.get l = s.belt.get l := hbelt (.belt l) (by simp)
    rw [h]
  · obtain ⟨hp, hv, -, -⟩ := head_clearPrints l d u
    rw [htrack, h4, h5, hdef]
    exact ⟨by cases d <;> rfl, by cases d <;> rfl, hp, hv⟩
  · have h : Only (fun p => p = .heads l) u (clearPrints l u) := by
      apply clearPrints_only (h := only_refl _ _)
      simp
    rw [hdef, channel_congr l g (h (.gates l) (by simp)), hu, channel_gatesClear]
    exact ⟨rfl, rfl, rfl⟩
  · unfold holdSet at h6 ⊢
    rw [hlsq, h6]
  · intro p
    rw [pocketRec_congr l p hpkr]
    exact h7.1 p
  · intro p
    rw [pocketRec_congr l p hpkr]
    exact h7.2 p
  · refine h8.trans ⟨⟨_, hlsq⟩, raisedKept_of_only hall (by simp), fun d => ?_, ⟨_, hall (.sfe l) (by simp)⟩⟩
    obtain ⟨-, -, ht, hw⟩ := head_clearPrints l d u
    have hcnu : u.cnu.get l = (purge l s).cnu.get l := hgates (.heads l) (by simp)
    rw [hdef, ht, hw]
    unfold head
    rw [hcnu]
    exact ⟨rfl, rfl⟩

end

/-! ### Hold reasons that stand -/

section
variable {l : LaneId} {r : HoldReason} {s : State}

theorem holdSet_congr (l : LaneId) (r : HoldReason) {s t : State} (h : (t.lsq.get l).holds = (s.lsq.get l).holds) :
    holdSet l r t = holdSet l r s := by
  unfold holdSet
  rw [h]

/-- A change of lane state takes out WAKE at most (R133). -/
theorem holdSet_changeLane (m : LaneMode) (c : LaneCause) (h : r ≠ .wake) :
    holdSet l r (changeLane l m c s) = holdSet l r s := by
  have hset : holdSet l r (setLane l m s) = holdSet l r s := by
    refine setLane_induct (P := fun u => holdSet l r u = holdSet l r s) l m s ?_ (fun u hu => ?_) (fun o u hu => ?_)
      (fun u hu => ?_)
    · exact holdSet_congr l r (by simp [raise])
    · rw [setHold_other l u false h, hu]
    · obtain ⟨q, hq⟩ := beginRise_lsq l u o
      rw [holdSet_congr l r (s := u) (by rw [hq]), hu]
    · have hd := lsq_of_only l (restartDark_only l (only_refl (fun p => p = .eyes l) u) rfl) (by simp) (by simp)
      rw [holdSet_congr l r (s := u) (by rw [hd]), hu]
  unfold changeLane laneEvent
  rw [holdSet_congr l r (s := setLane l m s) (by rw [emit_lsq]), hset]

theorem holdSet_endLaneTest (t : TestResult) {how : TestExit} (hc : how ≠ .ownCourse) (h : r ≠ .test) :
    holdSet l r (endLaneTest l t how s) = holdSet l r s := by
  cases ht : s.hmu.tests.get l with
  | none => rw [endLaneTest_none l t s ht]
  | some q =>
    have hlsq : (endLaneTest l t how s).lsq = (testCleared l q t s).lsq := by
      rw [endLaneTest_of_some l t s ht hc]
      have hraise : ∀ v : State, (raise .testDone v).lsq = v.lsq := fun _ => rfl
      rw [hraise]
      split <;> exact endLong_lsq _ _ _ _ _
    have hrec : (testRecords l q t s).lsq = s.lsq := by
      unfold testRecords
      rw [emit_lsq]
      rfl
    have hcleared : holdSet l r (testCleared l q t s) = holdSet l r (setHold l .test false (testRecords l q t s)) := rfl
    rw [holdSet_congr l r (s := testCleared l q t s) (by rw [hlsq]), hcleared, setHold_other l _ false h,
      holdSet_congr l r (s := s) (by rw [hrec])]

/-- An ended test is out of the hold-reason set (R172). -/
theorem holdSet_test_endLaneTest (t : TestResult) {how : TestExit} {q : LaneTest} (hc : how ≠ .ownCourse)
    (ht : s.hmu.tests.get l = some q) : holdSet l .test (endLaneTest l t how s) = false := by
  have hlsq : (endLaneTest l t how s).lsq = (testCleared l q t s).lsq := by
    rw [endLaneTest_of_some l t s ht hc]
    have hraise : ∀ v : State, (raise .testDone v).lsq = v.lsq := fun _ => rfl
    rw [hraise]
    split <;> exact endLong_lsq _ _ _ _ _
  have hcleared : holdSet l .test (testCleared l q t s) =
      holdSet l .test (setHold l .test false (testRecords l q t s)) := rfl
  rw [holdSet_congr l .test (s := testCleared l q t s) (by rw [hlsq]), hcleared, setHold_same]

end

end Sys2Proof.Machine
end

