-- ==== Sys2Proof/Proofs/AbortedLane.lean ====
section
/-! CLEAR and ABORT of a lane (R136, R137), stage by stage: the units that ABORT resets, the test and the pending order
it ends, and the end of the order itself. -/

namespace Sys2Proof.Machine

/-! ### The end of an order -/

/-- From one state to another nothing of host memory, the order unit, the clock and the windows has changed. -/
def OrdersKept (s t : State) : Prop :=
  Only (fun p => p ≠ .mem ∧ p ≠ .orders ∧ p ≠ .clock ∧ p ≠ .windows) s t

section
variable {s t : State}

theorem OrdersKept.mem (h : OrdersKept s t) : t.mem = s.mem := h .mem (by simp)
theorem OrdersKept.ocu (h : OrdersKept s t) : t.ocu = s.ocu := h .orders (by simp)
theorem OrdersKept.clock (h : OrdersKept s t) : t.clock = s.clock := h .clock (by simp)

theorem OrdersKept.allowed (h : OrdersKept s t) (k : Access) (a n : Nat) : allowed k a n t = allowed k a n s := by
  have hw : t.mwu = s.mwu := h .windows (by simp)
  unfold Machine.allowed
  rw [hw]

/-- An order whose work left the order unit alone has ended. -/
theorem ended_of_kept (st : BlockState) (code : ResultCode) {b : OrderBlock} (h : OrdersKept s t)
    (hb : s.ocu.current = some b) (hw : allowed .orderStateWrite (b.addr + 12) 8 s = true) :
    Ended b st code none s.mem s (settle s (finishWith st code none [] t)) := by
  rw [← h.mem]
  exact ended_settle st code none (by rw [h.ocu, hb]) (by rw [h.allowed, hw]) h.clock (by rw [h.ocu]) (by rw [h.ocu])
    (by rw [h.ocu])

end

/-- The end of an order in an event changes none of the lane's own records. -/
theorem finished_only (old : State) (st : BlockState) (code : ResultCode) (d : Option Nat) (u : State) :
    changesOnly orderParts u (settle old (finishWith st code d [] u)) := by
  refine settle_only old ?_ (fun p hp => Or.inl hp)
  apply finishWith_only (h := only_refl _ _) <;> simp [orderParts]

theorem finished_current (old : State) (st : BlockState) (code : ResultCode) (d : Option Nat) (u : State) :
    (settle old (finishWith st code d [] u)).ocu.current = none := by
  have hleave : ∀ w v, (stopIfHalted (leaveBlock w v)).ocu.current = none := by
    intro w v
    unfold stopIfHalted
    split <;> rfl
  rw [settle_ocu]
  unfold finishWith
  split
  · assumption
  · exact hleave _ _

/-- The lane's record after the end of an order, but for its idle timer. -/
theorem lsq_finished (l : LaneId) (old : State) (st : BlockState) (code : ResultCode) (d : Option Nat) (u : State) :
    ∃ n, (settle old (finishWith st code d [] u)).lsq.get l = { u.lsq.get l with idle := n } := by
  have h : { (settle old (finishWith st code d [] u)).lsq.get l with idle := 0 } = { u.lsq.get l with idle := 0 } :=
    finished_only old st code d u (.lane l) (by simp [eventEnd, orderParts])
  refine ⟨((settle old (finishWith st code d [] u)).lsq.get l).idle, ?_⟩
  generalize (settle old (finishWith st code d [] u)).lsq.get l = a at *
  generalize u.lsq.get l = b at *
  cases a
  cases b
  simp_all

/-- A purged lane is purged after the end of the order that purged it. -/
theorem purged_finished {l : LaneId} {s u : State} (st : BlockState) (code : ResultCode) (d : Option Nat)
    (h : Purged l s u) : Purged l s (settle s (finishWith st code d [] u)) := by
  have hf := finished_only s st code d u
  have hheads := hf (.heads l) (by simp [eventEnd, orderParts])
  refine purged_of_same h (hf (.track l) (by simp [eventEnd, orderParts])) (hf (.belt l) (by simp [eventEnd, orderParts]))
    (hf (.gates l) (by simp [eventEnd, orderParts])) (hf (.pockets l) (by simp [eventEnd, orderParts]))
    (fun k => ?_) ?_
  · unfold head
    rw [show (settle s (finishWith st code d [] u)).cnu.get l = u.cnu.get l from hheads]
    exact ⟨rfl, rfl⟩
  · obtain ⟨n, hn⟩ := lsq_finished l s st code d u
    exact holdSet_congr l _ (by rw [hn])

theorem head_finished (l : LaneId) (k : Side) (old : State) (st : BlockState) (code : ResultCode) (d : Option Nat)
    (u : State) : head l k (settle old (finishWith st code d [] u)) = head l k u := by
  have hheads : (settle old (finishWith st code d [] u)).cnu.get l = u.cnu.get l :=
    finished_only old st code d u (.heads l) (by simp [eventEnd, orderParts])
  unfold head
  rw [hheads]

theorem reported_finished {a : Attn} {u : State} (old : State) (st : BlockState) (code : ResultCode) (d : Option Nat)
    (h : raisedIn a u) : reported a (settle old (finishWith st code d [] u)) :=
  reported_settle a old (finishWith_kept st code d [] u a h)

/-- The one long order of the list, ended, and then the order taken: both are final, the long one first (R182). -/
theorem endedWithLong_of_kept {s x u : State} {b : OrderBlock} {o : LongOrder} (hx : OrdersKept s x)
    (hu : OrdersKept (endLong o.key .refused .aborted none x) u) (hb : s.ocu.current = some b)
    (ho : s.ocu.longList = [o]) (hwo : allowed .orderStateWrite (o.addr + 12) 8 s = true)
    (hwb : allowed .orderStateWrite (b.addr + 12) 8 s = true) :
    EndedWithLong o .refused .aborted none b s (settle s (finishWith .done .ok none [] u)) := by
  obtain ⟨v, hv⟩ : ∃ v, v = updOcu (fun u => { u with longList := u.longList.filter (fun q => q.key != o.key) }) x :=
    ⟨_, rfl⟩
  have hend : endLong o.key .refused .aborted none x =
      finalWrite (longLane o.key) o.addr o.notify .refused .aborted none [] v := by
    unfold endLong
    rw [hx.ocu, ho, hv]
    simp
  have hvocu : v.ocu = { s.ocu with longList := [] } := by
    rw [hv]
    show ({ x.ocu with longList := x.ocu.longList.filter (fun q => q.key != o.key) } : Ocu) = _
    rw [hx.ocu, ho]
    simp
  have hvmem : v.mem = s.mem := by rw [hv]; exact hx.mem
  have hvclock : v.clock = s.clock := by rw [hv]; exact hx.clock
  have hva : ∀ a, allowed .orderStateWrite a 8 v = allowed .orderStateWrite a 8 s := by
    intro a
    rw [hv]
    exact hx.allowed .orderStateWrite a 8
  obtain ⟨d, n, -, hw⟩ := finalWrite_allowed (longLane o.key) o.addr o.notify .refused .aborted none
    (by rw [hva, hwo])
  rw [hend, hw] at hu
  have hua : allowed .orderStateWrite (b.addr + 12) 8 u = true := by
    rw [hu.allowed, ← hwb, ← hva]
    rfl
  obtain ⟨e, m, -, hf⟩ := finishWith_allowed .done .ok none (b := b) (by rw [hu.ocu, hvocu]; exact hb) hua
  rw [hf]
  refine ⟨⟨d, e, by simp, ?_⟩, ?_, ?_, ?_⟩
  · simp only [settle_mem, hu.mem, hu.clock, hvmem, hvclock]
    rfl
  · simp only [settle_ocu, hu.ocu, hvocu]
  · simp only [settle_ocu, hu.ocu, hvocu]
  · simp only [settle_ocu]

/-! ### CLEAR -/

section
variable {l : LaneId} {s : State}

/-- A stopped lane that is cleared is purged and READY, its heads as they were (R136). -/
theorem clearLane_spec (hk : trackOk (s.track.get l) = true) :
    Purged l s (clearLane l s) ∧ laneMode l (clearLane l s) = .ready ∧
      (∀ d, (head l d (clearLane l s)).trim = (head l d s).trim ∧ (head l d (clearLane l s)).wet = (head l d s).wet) ∧
      raisedIn .laneState (clearLane l s) ∧ OrdersKept s (clearLane l s) := by
  obtain ⟨hp, hg⟩ := purgeLane_spec hk
  have hall : Only (fun p => p = .eyes l ∨ p = .raised ∨ p = .lane l ∨ p = .idle l ∨ p = .journal) (purgeLane l s)
      (clearLane l s) := by
    apply changeLane_only
    · apply restartDark_only (h := only_refl _ _)
      simp
    all_goals simp
  have hdark := lsq_of_only l (restartDark_only l (only_refl (fun p => p = .eyes l) (purgeLane l s)) rfl) (by simp)
    (by simp)
  have hheads : (clearLane l s).cnu.get l = (purgeLane l s).cnu.get l := hall (.heads l) (by simp)
  have hhead : ∀ d, head l d (clearLane l s) = head l d (purgeLane l s) := by
    intro d
    unfold head
    rw [hheads]
  obtain ⟨hs, r, hlsq⟩ := changeLane_lsq l (restartDark l (purgeLane l s)) .ready .clear
  refine ⟨?_, ?_, fun d => ?_, ?_, ?_⟩
  · refine purged_of_same hp (hall (.track l) (by simp)) (hall (.belt l) (by simp)) (hall (.gates l) (by simp))
      (hall (.pockets l) (by simp)) (fun d => by rw [hhead]; exact ⟨rfl, rfl⟩) ?_
    rw [← holdSet_congr l .queueFull (congrArg Lsq.holds hdark)]
    exact holdSet_changeLane .ready .clear (by decide)
  · unfold laneMode clearLane
    rw [hlsq]
  · rw [hhead]
    exact hg.heads d
  · exact laneEvent_kept _ _ _ _ _ _ (raisedIn_setLane l .ready _)
  · apply clearLane_only (h := only_refl _ _) <;> simp

end

/-! ### The stages of ABORT -/

/-- R36, R39, R101, R102: the heads and the Scan Front End at ABORT. -/
def abortUnits (l : LaneId) (s : State) : State := abortScan l (coldHeads l (clearTrims l s))

/-- R137: the warming steps, the lamps and WAKE at ABORT. -/
def abortLevels (l : LaneId) (s : State) : State :=
  setHold l .wake false (updLsq l (fun q => { q with lamp := .dark, rise := none, warmed := false }) (dropWarming l s))

/-- R137, R172: what ABORT does to a purged lane: its units, its test, its lamps and its pending order. -/
def abortPurged (l : LaneId) (s : State) : State :=
  endPending l .refused .aborted none (abortLevels l (endLaneTest l .abortedByHost .abort (abortUnits l s)))

theorem abortLane_eq (l : LaneId) (s : State) :
    abortLane l s = laneEvent l (laneMode l s) .off .abort (abortPurged l (purgeLane l (setLane l .off s))) := rfl

/-- A Scan Front End with no calibration, no request and no reference mode. -/
def ScanAtRest (f : Sfe) : Prop :=
  f.longRequest = none ∧ f.longRun = none ∧ f.shortRun = none ∧ f.due = false ∧ f.refMode = false ∧
    f.refRequest = none

section
variable (l : LaneId) (s : State)

theorem head_of_only {ps : Part → Prop} {s t : State} (d : Side) (h : Only ps s t) (hp : ¬ ps (.heads l)) :
    head l d t = head l d s := by
  have hheads : t.cnu.get l = s.cnu.get l := h (.heads l) hp
  unfold head
  rw [hheads]

theorem head_setHold (r : HoldReason) (on : Bool) (d : Side) : head l d (setHold l r on s) = head l d s :=
  head_of_only l d (setHold_leaves l r on s) (by simp)

/-- A head made COLD (R102, R104, R105). -/
def coldRec (d : Head) : Head :=
  { d with wet := .cold, spitTicks := 0, pendingSpit := false, age := 0, gapRequest := none, warmRequest := false }

theorem head_coldHeads (d : Side) : head l d (coldHeads l s) = coldRec (head l d s) := by
  have hone : ∀ k u, coldHead l k u = followGapSpit l (updHead l k coldRec u) := fun _ _ => rfl
  have hgap : ∀ u, head l d (followGapSpit l u) = head l d u := fun u => head_setHold l u _ _ d
  unfold coldHeads
  rw [hone, hone, hgap]
  cases d with
  | near => rw [head_updHead_other l _ _ (by decide), hgap, head_updHead]
  | far => rw [head_updHead, hgap, head_updHead_other l _ _ (by decide)]

theorem head_clearTrims (d : Side) :
    head l d (clearTrims l s) = { head l d s with trim := 0, sum := 0, kept := 0 } := by
  unfold clearTrims
  dsimp only
  rw [head_updBoth]

theorem abortScan_leaves : Only (fun p => p = .sfe l ∨ p = .lane l ∨ p = .raised) s (abortScan l s) := by
  apply abortScan_only (h := only_refl _ _) <;> simp

/-- ABORT clears the trims, cools the heads and leaves their lists (R101, R102). -/
theorem head_abortUnits (d : Side) :
    head l d (abortUnits l s) = coldRec { head l d s with trim := 0, sum := 0, kept := 0 } := by
  unfold abortUnits
  rw [head_of_only l d (abortScan_leaves l _) (by simp), head_coldHeads, head_clearTrims]

theorem coldHeads_holds {r : HoldReason} (h : r ≠ .gapSpit) : holdSet l r (coldHeads l s) = holdSet l r s := by
  have hone : ∀ k u, holdSet l r (coldHead l k u) = holdSet l r u := by
    intro k u
    have hu : coldHead l k u = setHold l .gapSpit _ (updHead l k coldRec u) := rfl
    rw [hu, setHold_other l _ _ h]
    rfl
  unfold coldHeads
  rw [hone, hone]

theorem abortUnits_holds {r : HoldReason} (hg : r ≠ .gapSpit) (hc : r ≠ .gapCal) :
    holdSet l r (abortUnits l s) = holdSet l r s := by
  have h : holdSet l r (abortUnits l s) = holdSet l r (coldHeads l (clearTrims l s)) := by
    unfold abortUnits abortScan
    dsimp only
    rw [setHold_other l _ _ hc]
    rfl
  rw [h, coldHeads_holds l _ hg]
  rfl

theorem abortUnits_gapCal : holdSet l .gapCal (abortUnits l s) = false := setHold_same l _ _ _

theorem abortUnits_lsq : ∃ hs, (abortUnits l s).lsq.get l = { s.lsq.get l with holds := hs } := by
  have hone : ∀ k u, ∃ hs, (coldHead l k u).lsq.get l = { u.lsq.get l with holds := hs } := fun k u =>
    setHold_lsq l (updHead l k coldRec u) .gapSpit _
  obtain ⟨h1, e1⟩ := hone .near (clearTrims l s)
  obtain ⟨h2, e2⟩ := hone .far (coldHead l .near (clearTrims l s))
  have e3 : ∃ hs, (abortUnits l s).lsq.get l = { (coldHeads l (clearTrims l s)).lsq.get l with holds := hs } := by
    unfold abortUnits abortScan
    exact setHold_lsq l (updSfe l _ _) .gapCal false
  obtain ⟨h3, e3⟩ := e3
  refine ⟨h3, ?_⟩
  unfold coldHeads at e3
  rw [e3, e2, e1]
  rfl

theorem abortUnits_scan : ScanAtRest ((abortUnits l s).sfe.get l) ∧
    ((abortUnits l s).sfe.get l).pairs = (s.sfe.get l).pairs := by
  have hcold : (coldHeads l (clearTrims l s)).sfe.get l = s.sfe.get l := by
    have h : Only (fun p => p = .heads l ∨ p = .lane l ∨ p = .raised) s (coldHeads l (clearTrims l s)) := by
      apply coldHeads_only
      · apply clearTrims_only (h := only_refl _ _)
        simp
      all_goals simp
    exact h (.sfe l) (by simp)
  unfold abortUnits abortScan
  dsimp only
  rw [show ∀ v : State, (setHold l .gapCal false v).sfe.get l = v.sfe.get l from
    fun v => setHold_leaves l .gapCal false v (.sfe l) (by simp), updSfe_sfe, PerLane.get_upd_self, hcold]
  exact ⟨⟨rfl, rfl, rfl, rfl, rfl, rfl⟩, rfl⟩

theorem abortUnits_only :
    Only (fun p => p = .raised ∨ p = .sfe l ∨ p = .heads l ∨ p = .lane l) s (abortUnits l s) := by
  unfold abortUnits
  apply abortScan_only
  · apply coldHeads_only
    · apply clearTrims_only (h := only_refl _ _)
      simp
    all_goals simp
  all_goals simp

theorem abortUnits_kept : RaisedKept s (abortUnits l s) := by
  have hone : ∀ k u, RaisedKept u (coldHead l k u) := fun k u =>
    (raisedKept_of_eq (t := updHead l k coldRec u) rfl).trans (setHold_kept l .gapSpit _ _)
  have hscan : ∀ u, RaisedKept u (abortScan l u) := by
    intro u
    unfold abortScan
    refine RaisedKept.trans ?_ (setHold_kept l .gapCal false _)
    exact raisedKept_of_eq rfl
  have htrims : RaisedKept s (clearTrims l s) := raisedKept_of_eq rfl
  exact ((htrims.trans (hone _ _)).trans (hone _ _)).trans (hscan _)

/-! ### The test -/

theorem endLaneTest_leaves (r : TestResult) (how : TestExit) :
    Only (fun p => p ∈ .raised :: .idle l :: testParts l) s (endLaneTest l r how s) := by
  apply endLaneTest_only (h := only_refl _ _) <;> simp [testParts, orderParts]

/-- The end of a test changes nothing of a Scan Front End at rest (R172). -/
theorem endLaneTest_scan (r : TestResult) {how : TestExit} (hc : how ≠ .ownCourse) (h : ScanAtRest (s.sfe.get l)) :
    (endLaneTest l r how s).sfe.get l = s.sfe.get l := by
  cases ht : s.hmu.tests.get l with
  | none => rw [endLaneTest_none l r s ht]
  | some t =>
    have hend : ∀ st c d u, (endLong (.laneTest l) st c d u).sfe.get l = u.sfe.get l := by
      intro st c d u
      have h : Only (fun p => p ∈ .raised :: orderParts) u (endLong (.laneTest l) st c d u) := by
        apply endLong_only (h := only_refl _ _) <;> simp [orderParts]
      exact h (.sfe l) (by simp [orderParts])
    have hcleared : (testCleared l t r s).sfe.get l = (testRecords l t r s).sfe.get l :=
      setHold_leaves l .test false (testRecords l t r s) (.sfe l) (by simp)
    have hrecords : (testRecords l t r s).sfe.get l = s.sfe.get l := by
      obtain ⟨h1, h2, -, -, h5, h6⟩ := h
      unfold testRecords
      rw [show ∀ c k j n a b (v : State), (emit c k j n a b v).sfe.get l = v.sfe.get l from
        fun c k j n a b v => emit_only (ps := fun p => p = .raised ∨ p = .journal) c k j n a b (only_refl _ v)
          (by simp) (by simp) (.sfe l) (by simp)]
      show ((s.sfe.upd l _).get l) = _
      rw [PerLane.get_upd_self]
      generalize s.sfe.get l = f at *
      cases f
      simp_all
    rw [endLaneTest_of_some l r s ht hc]
    show (ite _ _ _ : State).sfe.get l = _
    split <;> rw [hend, hcleared, hrecords]

/-- The state from which the order of a test that ABORT ends becomes final is the cleared one (R172). -/
theorem endLaneTest_abort {q : LaneTest} (h : s.hmu.tests.get l = some q) :
    endLaneTest l .abortedByHost .abort s = raise .testDone
      (endLong (.laneTest l) .refused .aborted none (testCleared l q .abortedByHost s)) := by
  rw [endLaneTest_of_some l _ s h (by decide), if_pos rfl]

theorem endLaneTest_afterCleared {q : LaneTest} (h : s.hmu.tests.get l = some q) :
    Only (fun p => p ∈ .raised :: orderParts) (testCleared l q .abortedByHost s)
      (endLaneTest l .abortedByHost .abort s) := by
  rw [endLaneTest_abort l s h]
  apply raise_only
  · apply endLong_only (h := only_refl _ _) <;> simp [orderParts]
  · simp

/-- An ended test stands in the log, at the pointer (R173). -/
theorem logged_testRecords (q : LaneTest) (r : TestResult) :
    Logged (laneTestKind q.kind) (some l) r s.clock.ms (testRecords l q r s) := by
  have hemit : ∀ c k j n a b (v : State), (emit c k j n a b v).hmu.log = v.hmu.log ∧
      (emit c k j n a b v).hmu.pointer = v.hmu.pointer := by
    intro c k j n a b v
    obtain ⟨h1, h2, -, -⟩ := emit_only (ps := fun p => p = .raised ∨ p = .journal) c k j n a b (only_refl _ v)
      (by simp) (by simp) .tests (by simp)
    exact ⟨h1, h2⟩
  unfold Logged testRecords
  rw [(hemit _ _ _ _ _ _ _).1, (hemit _ _ _ _ _ _ _).2]
  unfold writeLog
  simp only [updHmu_hmu, vget_vupd_self, Option.some.injEq, exists_eq_left']
  exact ⟨trivial, trivial, trivial, trivial⟩

theorem logged_of_only {ps : Part → Prop} {k : TestKind} {n : Option LaneId} {r : TestResult} {m : Ms} {s t : State}
    (h : Only ps s t) (hp : ¬ ps .tests) (hl : Logged k n r m s) : Logged k n r m t := by
  obtain ⟨h1, h2, -, -⟩ := h .tests hp
  unfold Logged at hl ⊢
  rw [h1, h2]
  exact hl

/-- The end of a test by ABORT takes it out of the hold reasons, with its log entry and TEST_DONE (R172). -/
theorem endLaneTest_spec {q : LaneTest} (h : s.hmu.tests.get l = some q) :
    holdSet l .test (endLaneTest l .abortedByHost .abort s) = false ∧
      raisedIn .testDone (endLaneTest l .abortedByHost .abort s) ∧
      Logged (laneTestKind q.kind) (some l) .abortedByHost s.clock.ms (endLaneTest l .abortedByHost .abort s) := by
  refine ⟨holdSet_test_endLaneTest _ (by decide) h, ?_, ?_⟩
  · rw [endLaneTest_abort l s h]
    exact raisedIn_raise _ _
  · refine logged_of_only (endLaneTest_afterCleared l s h) (by simp [orderParts]) ?_
    have hset : Logged (laneTestKind q.kind) (some l) .abortedByHost s.clock.ms
        (setHold l .test false (testRecords l q .abortedByHost s)) :=
      logged_of_only (setHold_leaves l .test false _) (by simp) (logged_testRecords l s q .abortedByHost)
    exact hset

theorem endLaneTest_tests : (endLaneTest l .abortedByHost .abort s).hmu.tests.get l = none := by
  cases ht : s.hmu.tests.get l with
  | none => rw [endLaneTest_none l _ s ht, ht]
  | some q =>
    obtain ⟨-, -, h, -⟩ := endLaneTest_afterCleared l s ht .tests (by simp [orderParts])
    rw [h]
    show (PerLane.get (PerLane.upd _ l _) l) = none
    rw [PerLane.get_upd_self]

end

end Sys2Proof.Machine
end

