-- ==== Sys2Proof/Proofs/ClearAndAbort.lean ====
section
/-! LANE_CONTROL CLEAR and ABORT: ABORT from end to end, and what both leave when their order has ended. -/

namespace Sys2Proof.Machine

section
variable (l : LaneId) (s : State)

/-! ### After the test -/

theorem abortLevels_only :
    Only (fun p => p = .raised ∨ p = .sfe l ∨ p = .heads l ∨ p = .lane l ∨ p = .idle l) s (abortLevels l s) := by
  unfold abortLevels
  apply setHold_only
  · apply updLsq_only
    · apply dropWarming_only (h := only_refl _ _) <;> simp
    all_goals simp
  all_goals simp

/-- The lamps DARK, no warming step, warmed clear (R123, R127, R137). -/
theorem abortLevels_lsq : ∃ hs, (abortLevels l s).lsq.get l = { s.lsq.get l with
    lampWarm := none, warmStep := none, idle := 0, lamp := .dark, rise := none, warmed := false, holds := hs } := by
  obtain ⟨hs, h⟩ := setHold_lsq l (updLsq l (fun q => { q with lamp := .dark, rise := none, warmed := false })
    (dropWarming l s)) .wake false
  refine ⟨hs, ?_⟩
  unfold abortLevels
  rw [h, updLsq_lsq, PerLane.get_upd_self, dropWarming_lsq]

theorem abortLevels_holds {r : HoldReason} (h : r ≠ .wake) : holdSet l r (abortLevels l s) = holdSet l r s := by
  unfold abortLevels
  rw [setHold_other l _ _ h]
  refine holdSet_congr l r ?_
  rw [updLsq_lsq, PerLane.get_upd_self, dropWarming_lsq]

theorem abortLevels_wake : holdSet l .wake (abortLevels l s) = false := setHold_same l _ _ _

theorem abortLevels_kept : RaisedKept s (abortLevels l s) := by
  have h : RaisedKept s (updLsq l (fun q => { q with lamp := .dark, rise := none, warmed := false })
      (dropWarming l s)) := raisedKept_of_eq rfl
  exact h.trans (setHold_kept l .wake false _)

theorem head_abortLevels (d : Side) :
    head l d (abortLevels l s) = { head l d s with warmRequest := false } := by
  have hdrop : head l d (dropWarming l s) = { head l d s with warmRequest := false } := by
    unfold dropWarming
    dsimp only
    rw [head_updBoth]
    rfl
  unfold abortLevels
  rw [head_setHold]
  exact hdrop

/-- A Scan Front End at rest stays as it is (R33). -/
theorem abortLevels_scan (h : ScanAtRest (s.sfe.get l)) : (abortLevels l s).sfe.get l = s.sfe.get l := by
  have hset : (abortLevels l s).sfe.get l = (dropWarming l s).sfe.get l :=
    setHold_leaves l .wake false _ (.sfe l) (by simp)
  have hdrop : (dropWarming l s).sfe.get l = { s.sfe.get l with longRequest := none, longRun := none } := by
    unfold dropWarming
    simp
  obtain ⟨h1, h2, -, -, -, -⟩ := h
  rw [hset, hdrop]
  generalize s.sfe.get l = f at *
  cases f
  simp_all

/-! ### ABORT of a purged lane -/

/-- The state in which the test of the lane is ended. -/
def testEnded (l : LaneId) (s : State) : State := endLaneTest l .abortedByHost .abort (abortUnits l s)

theorem abortPurged_eq :
    abortPurged l s = endPending l .refused .aborted none (abortLevels l (testEnded l s)) := rfl

theorem abortUnits_ordersKept : OrdersKept s (abortUnits l s) :=
  only_mono (abortUnits_only l s) (fun p hp => by rcases hp with rfl | rfl | rfl | rfl <;> simp)

theorem abortUnits_tests : (abortUnits l s).hmu.tests = s.hmu.tests :=
  (abortUnits_only l s .tests (by simp)).2.2.1

theorem abortLevels_ordersKept : OrdersKept s (abortLevels l s) :=
  only_mono (abortLevels_only l s) (fun p hp => by rcases hp with rfl | rfl | rfl | rfl | rfl <;> simp)

theorem endPending_leaves (st : BlockState) (c : ResultCode) (d : Option Nat) :
    Only (fun p => p ∈ [.raised, .lane l, .idle l] ++ orderParts) s (endPending l st c d s) := by
  apply endPending_only (h := only_refl _ _) <;> simp [orderParts]

theorem abortPurged_only : Only (fun p => p ∈ [.raised, .idle l, .heads l] ++ testParts l) s (abortPurged l s) := by
  rw [abortPurged_eq]
  refine only_trans (t := abortLevels l (testEnded l s)) ?_ ?_
  · refine only_trans (t := testEnded l s) ?_ ?_
    · refine only_trans (t := abortUnits l s) ?_ ?_
      · exact only_mono (abortUnits_only l s) (fun p hp => by
          rcases hp with rfl | rfl | rfl | rfl <;> simp [testParts])
      · exact only_mono (endLaneTest_leaves l _ _ _) (fun p hp => by
          simp only [List.mem_cons, List.mem_append] at hp ⊢
          tauto)
    · exact only_mono (abortLevels_only l _) (fun p hp => by
        rcases hp with rfl | rfl | rfl | rfl | rfl <;> simp [testParts])
  · exact only_mono (endPending_leaves l _ _ _ _) (fun p hp => by
      simp only [testParts, List.mem_cons, List.mem_append] at hp ⊢
      tauto)

/-- The lane's record after ABORT, but for its idle timer, hold reasons, and what no clause of R137 names. -/
theorem abortPurged_lsq : ∃ hs, (abortPurged l s).lsq.get l = { s.lsq.get l with
    lampWarm := none, warmStep := none, idle := 0, lamp := .dark, rise := none, warmed := false, holds := hs,
    pendingOrder := none } := by
  obtain ⟨h1, e1⟩ := abortUnits_lsq l s
  obtain ⟨h2, e2⟩ := endLaneTest_lsq l .abortedByHost (abortUnits l s) (how := .abort) (by decide)
  obtain ⟨h3, e3⟩ := abortLevels_lsq l (testEnded l s)
  refine ⟨h3, ?_⟩
  rw [abortPurged_eq, endPending_lsq, e3, testEnded, e2, e1]

theorem abortPurged_holds {r : HoldReason} (h : r ≠ .wake) :
    holdSet l r (abortPurged l s) = holdSet l r (testEnded l s) := by
  rw [← abortLevels_holds l (testEnded l s) h, abortPurged_eq]
  exact holdSet_congr l r (by rw [endPending_lsq])

theorem abortPurged_wake : holdSet l .wake (abortPurged l s) = false := by
  rw [← abortLevels_wake l (testEnded l s), abortPurged_eq]
  exact holdSet_congr l _ (by rw [endPending_lsq])

theorem abortPurged_gapCal : holdSet l .gapCal (abortPurged l s) = false := by
  rw [abortPurged_holds l s (by decide), testEnded, holdSet_endLaneTest _ (by decide) (by decide), abortUnits_gapCal]

theorem abortPurged_queueFull : holdSet l .queueFull (abortPurged l s) = holdSet l .queueFull s := by
  rw [abortPurged_holds l s (by decide), testEnded, holdSet_endLaneTest _ (by decide) (by decide),
    abortUnits_holds l s (by decide) (by decide)]

/-- Both heads COLD with trim 0, their lists as they were (R101, R102). -/
theorem head_abortPurged (d : Side) : (head l d (abortPurged l s)).trim = 0 ∧
    (head l d (abortPurged l s)).wet = .cold ∧ (head l d (abortPurged l s)).prints = (head l d s).prints ∧
    (head l d (abortPurged l s)).verify = (head l d s).verify := by
  have h : head l d (abortPurged l s) =
      { coldRec { head l d s with trim := 0, sum := 0, kept := 0 } with warmRequest := false } := by
    rw [abortPurged_eq, head_of_only l d (endPending_leaves l _ _ _ _) (by simp [orderParts]), head_abortLevels,
      testEnded, head_of_only l d (endLaneTest_leaves l _ _ _) (by simp [testParts, orderParts]), head_abortUnits]
  rw [h]
  exact ⟨rfl, rfl, rfl, rfl⟩

/-- The Scan Front End after ABORT is at rest, with its correction pairs as they were (R137). -/
theorem abortPurged_scan : ScanAtRest ((abortPurged l s).sfe.get l) ∧
    ((abortPurged l s).sfe.get l).pairs = (s.sfe.get l).pairs := by
  obtain ⟨hrest, hpairs⟩ := abortUnits_scan l s
  have htest : (testEnded l s).sfe.get l = (abortUnits l s).sfe.get l :=
    endLaneTest_scan l _ _ (by decide) hrest
  have h : (abortPurged l s).sfe.get l = (abortUnits l s).sfe.get l := by
    rw [abortPurged_eq, show (endPending l .refused .aborted none (abortLevels l (testEnded l s))).sfe.get l = _ from
      endPending_leaves l _ _ _ _ (.sfe l) (by simp [orderParts]), abortLevels_scan l _ (by rw [htest]; exact hrest), htest]
  rw [h]
  exact ⟨hrest, hpairs⟩

theorem testEnded_tests : (testEnded l s).hmu.tests.get l = none := endLaneTest_tests l _

theorem afterTest_only :
    Only (fun p => p ∈ [.raised, .sfe l, .heads l, .lane l, .idle l] ++ orderParts) (testEnded l s)
      (abortPurged l s) := by
  rw [abortPurged_eq]
  refine only_trans (t := abortLevels l (testEnded l s)) ?_ ?_
  · exact only_mono (abortLevels_only l _) (fun p hp => by rcases hp with rfl | rfl | rfl | rfl | rfl <;> simp)
  · exact only_mono (endPending_leaves l _ _ _ _) (fun p hp => by
      simp only [List.mem_cons, List.mem_append] at hp ⊢
      tauto)

theorem abortPurged_tests : (abortPurged l s).hmu.tests.get l = none := by
  obtain ⟨-, -, h, -⟩ := afterTest_only l s .tests (by simp [orderParts])
  rw [h, testEnded_tests]

theorem afterTest_kept : RaisedKept (testEnded l s) (abortPurged l s) :=
  (abortLevels_kept l _).trans (endPending_kept l _ _ _ _)

theorem abortPurged_kept : RaisedKept s (abortPurged l s) :=
  ((abortUnits_kept l s).trans (endLaneTest_kept l _ _ (by decide))).trans (afterTest_kept l s)

/-- The test that ABORT ends: out of the hold reasons, reported and logged (R172, R173). -/
theorem abortPurged_test {q : LaneTest} (h : s.hmu.tests.get l = some q) :
    holdSet l .test (abortPurged l s) = false ∧ raisedIn .testDone (abortPurged l s) ∧
      Logged (laneTestKind q.kind) (some l) .abortedByHost s.clock.ms (abortPurged l s) := by
  have hclock := (abortUnits_ordersKept l s).clock
  obtain ⟨h1, h2, h3⟩ := endLaneTest_spec l (abortUnits l s) (q := q) (by rw [abortUnits_tests, h])
  rw [hclock] at h3
  exact ⟨(abortPurged_holds l s (by decide)).trans h1, afterTest_kept l s _ h2,
    logged_of_only (afterTest_only l s) (by simp [orderParts]) h3⟩

/-- Without a test and a pending order ABORT leaves the order unit alone. -/
theorem abortPurged_ordersKept (hp : (s.lsq.get l).pendingOrder = none) (ht : s.hmu.tests.get l = none) :
    OrdersKept s (abortPurged l s) := by
  have htest : testEnded l s = abortUnits l s := endLaneTest_none l _ _ (by rw [abortUnits_tests, ht])
  have hpend : ((abortLevels l (abortUnits l s)).lsq.get l).pendingOrder = none := by
    obtain ⟨h1, e1⟩ := abortUnits_lsq l s
    obtain ⟨h2, e2⟩ := abortLevels_lsq l (abortUnits l s)
    rw [e2, e1]
    exact hp
  have hsame : abortPurged l s = abortLevels l (abortUnits l s) := by
    rw [abortPurged_eq, htest]
    unfold endPending
    rw [hpend]
    rfl
  rw [hsame]
  exact only_trans (abortUnits_ordersKept l s) (abortLevels_ordersKept l _)

/-- With a test and no pending order the one order that ABORT makes final is the test's. -/
theorem abortPurged_endsTest {q : LaneTest} (hp : (s.lsq.get l).pendingOrder = none)
    (ht : s.hmu.tests.get l = some q) :
    ∃ x, OrdersKept s x ∧ OrdersKept (endLong (.laneTest l) .refused .aborted none x) (abortPurged l s) := by
  obtain ⟨x, hx⟩ : ∃ x, x = testCleared l q .abortedByHost (abortUnits l s) := ⟨_, rfl⟩
  have hcleared : OrdersKept (abortUnits l s) x := by
    have hrec : OrdersKept (abortUnits l s) (testRecords l q .abortedByHost (abortUnits l s)) := by
      unfold testRecords
      apply emit_only
      · apply writeLog_only
        · apply withdrawIdle_only
          · apply updSfe_only (h := only_refl _ _)
            simp
          · simp
        · simp
      all_goals simp
    have hset : OrdersKept (abortUnits l s)
        (setHold l .test false (testRecords l q .abortedByHost (abortUnits l s))) := by
      apply setHold_only (h := hrec) <;> simp
    have hupd : OrdersKept (setHold l .test false (testRecords l q .abortedByHost (abortUnits l s))) x := by
      rw [hx]
      unfold testCleared
      apply updHmu_only (h := only_refl _ _) <;> simp
    exact only_trans hset hupd
  have htest : testEnded l s = raise .testDone (endLong (.laneTest l) .refused .aborted none x) := by
    rw [hx]
    exact endLaneTest_abort l _ (by rw [abortUnits_tests, ht])
  have hpend : ((abortLevels l (testEnded l s)).lsq.get l).pendingOrder = none := by
    obtain ⟨h1, e1⟩ := abortUnits_lsq l s
    obtain ⟨h2, e2⟩ := endLaneTest_lsq l .abortedByHost (abortUnits l s) (how := .abort) (by decide)
    obtain ⟨h3, e3⟩ := abortLevels_lsq l (testEnded l s)
    rw [e3, testEnded, e2, e1]
    exact hp
  have hsame : abortPurged l s = abortLevels l (testEnded l s) := by
    rw [abortPurged_eq]
    unfold endPending
    rw [hpend]
    rfl
  refine ⟨x, only_trans (abortUnits_ordersKept l s) hcleared, ?_⟩
  rw [hsame]
  refine only_trans (t := testEnded l s) ?_ (abortLevels_ordersKept l _)
  rw [htest]
  apply raise_only (h := only_refl _ _)
  simp

/-- With a pending order and no test the one order that ABORT makes final is the pending one. -/
theorem abortPurged_endsPending (hp : (s.lsq.get l).pendingOrder.isSome = true) (ht : s.hmu.tests.get l = none) :
    ∃ x, OrdersKept s x ∧ OrdersKept (endLong (.laneOrder l) .refused .aborted none x) (abortPurged l s) := by
  have htest : testEnded l s = abortUnits l s := endLaneTest_none l _ _ (by rw [abortUnits_tests, ht])
  obtain ⟨x, hx⟩ : ∃ x, x = updLsq l (fun q => { q with pendingOrder := none }) (abortLevels l (abortUnits l s)) :=
    ⟨_, rfl⟩
  have hpend : ((abortLevels l (abortUnits l s)).lsq.get l).pendingOrder.isSome = true := by
    obtain ⟨h1, e1⟩ := abortUnits_lsq l s
    obtain ⟨h2, e2⟩ := abortLevels_lsq l (abortUnits l s)
    rw [e2, e1]
    exact hp
  have hsame : abortPurged l s = endLong (.laneOrder l) .refused .aborted none x := by
    rw [abortPurged_eq, htest, hx]
    unfold endPending
    rw [if_pos hpend]
  refine ⟨x, ?_, by rw [hsame]; exact only_refl _ _⟩
  refine only_trans (abortUnits_ordersKept l s) (only_trans (abortLevels_ordersKept l _) ?_)
  rw [hx]
  apply updLsq_only (h := only_refl _ _) <;> simp

/-! ### ABORT from end to end -/

/-- The lane with its letters purged, before ABORT resets its units. -/
def offAndPurged (l : LaneId) (s : State) : State := purgeLane l (setLane l .off s)

theorem laneEvent_leaves (a b : LaneMode) (c : LaneCause) :
    Only (fun p => p = .raised ∨ p = .journal) s (laneEvent l a b c s) := by
  apply laneEvent_only (h := only_refl _ _) <;> simp

theorem setLane_off_only : Only (fun p => p = .raised ∨ p = .lane l ∨ p = .idle l) s (setLane l .off s) := by
  apply setLane_only (h := only_refl _ _) <;> simp

theorem offAndPurged_ordersKept : OrdersKept s (offAndPurged l s) := by
  unfold offAndPurged
  apply purgeLane_only
  · apply setLane_only (h := only_refl _ _) <;> simp
  all_goals simp

theorem offAndPurged_tests : (offAndPurged l s).hmu.tests = s.hmu.tests := by
  have h : Only (fun p => p ≠ .tests) s (offAndPurged l s) := by
    unfold offAndPurged
    apply purgeLane_only
    · apply setLane_only (h := only_refl _ _) <;> simp
    all_goals simp
  exact (h .tests (by simp)).2.2.1

variable {l s}

/-- A purge judged from a state with the same track record, counter and pockets. -/
theorem purged_of_before {r t : State} (h : Purged l r t) (ht : r.track.get l = s.track.get l)
    (hb : r.belt.get l = s.belt.get l) (hp : r.pkr.get l = s.pkr.get l) : Purged l s t := by
  unfold Purged ReservationsReleased at h ⊢
  simp only [ht, hb, pocketRec_congr l _ hp] at h
  exact h

theorem offAndPurged_purged (hk : trackOk (s.track.get l) = true) : Purged l s (offAndPurged l s) := by
  have hoff := setLane_off_only l s
  have ht : (setLane l .off s).track.get l = s.track.get l := hoff (.track l) (by simp)
  exact purged_of_before (purgeLane_spec (by rw [ht, hk])).1 ht (hoff (.belt l) (by simp)) (hoff (.pockets l) (by simp))

theorem offAndPurged_purging (hk : trackOk (s.track.get l) = true) :
    Purging l (setLane l .off s) (offAndPurged l s) := by
  have ht : (setLane l .off s).track.get l = s.track.get l := setLane_off_only l s (.track l) (by simp)
  exact (purgeLane_spec (by rw [ht, hk])).2

theorem offAndPurged_lsq (hk : trackOk (s.track.get l) = true) :
    ∃ hs r, (offAndPurged l s).lsq.get l = { s.lsq.get l with mode := .off, holds := hs, rise := r } := by
  obtain ⟨h1, r1, e1⟩ := setLane_lsq l s .off
  obtain ⟨h2, e2⟩ := (offAndPurged_purging hk).lsq
  exact ⟨h2, r1, by rw [e2, e1]⟩

theorem offAndPurged_pairs (hk : trackOk (s.track.get l) = true) :
    ((offAndPurged l s).sfe.get l).pairs = (s.sfe.get l).pairs := by
  have hoff : (setLane l .off s).sfe.get l = s.sfe.get l := setLane_off_only l s (.sfe l) (by simp)
  obtain ⟨ts, e⟩ := (offAndPurged_purging hk).scan
  rw [e, hoff]

theorem abortLane_raised (hk : trackOk (s.track.get l) = true) : raisedIn .laneState (abortLane l s) := by
  rw [abortLane_eq]
  refine laneEvent_kept _ _ _ _ _ _ (abortPurged_kept l _ _ ((offAndPurged_purging hk).raised _ ?_))
  exact raisedIn_setLane l .off s

theorem abortLane_afterPurge :
    Only (fun p => p = .raised ∨ p = .journal) (abortPurged l (offAndPurged l s)) (abortLane l s) :=
  laneEvent_leaves l _ _ _ _

theorem abortLane_lsq_eq : (abortLane l s).lsq = (abortPurged l (offAndPurged l s)).lsq := by
  rw [abortLane_eq]
  exact emit_lsq _ _ _ _ _ _ _

theorem abortLane_holds (r : HoldReason) :
    holdSet l r (abortLane l s) = holdSet l r (abortPurged l (offAndPurged l s)) :=
  holdSet_congr l r (by rw [abortLane_lsq_eq])

/-- The lane's record after ABORT (R137). -/
theorem abortLane_lsq (hk : trackOk (s.track.get l) = true) : ∃ hs, (abortLane l s).lsq.get l = { s.lsq.get l with
    mode := .off, lampWarm := none, warmStep := none, idle := 0, lamp := .dark, rise := none, warmed := false,
    holds := hs, pendingOrder := none } := by
  obtain ⟨h1, r1, e1⟩ := offAndPurged_lsq hk
  obtain ⟨h2, e2⟩ := abortPurged_lsq l (offAndPurged l s)
  exact ⟨h2, by rw [abortLane_lsq_eq, e2, e1]⟩

theorem head_abortLane (d : Side) :
    head l d (abortLane l s) = head l d (abortPurged l (offAndPurged l s)) :=
  head_of_only l d abortLane_afterPurge (by simp)

/-- ABORT purges the lane (R24, R81, R106, R110). -/
theorem abortLane_purged (hk : trackOk (s.track.get l) = true) : Purged l s (abortLane l s) := by
  have h : Only (fun p => p ∈ [.raised, .idle l, .heads l] ++ testParts l) (offAndPurged l s) (abortLane l s) := by
    refine only_trans (abortPurged_only l _) (only_mono abortLane_afterPurge (fun p hp => ?_))
    rcases hp with rfl | rfl <;> simp [testParts, orderParts]
  refine purged_of_same (offAndPurged_purged hk) (h (.track l) (by simp [testParts, orderParts]))
    (h (.belt l) (by simp [testParts, orderParts])) (h (.gates l) (by simp [testParts, orderParts]))
    (h (.pockets l) (by simp [testParts, orderParts])) (fun d => ?_) ?_
  · obtain ⟨-, -, hp, hv⟩ := head_abortPurged l (offAndPurged l s) d
    rw [head_abortLane]
    exact ⟨hp, hv⟩
  · rw [abortLane_holds, abortPurged_queueFull]

theorem abortLane_heads (d : Side) :
    (head l d (abortLane l s)).trim = 0 ∧ (head l d (abortLane l s)).wet = .cold := by
  obtain ⟨ht, hw, -, -⟩ := head_abortPurged l (offAndPurged l s) d
  rw [head_abortLane]
  exact ⟨ht, hw⟩

theorem abortLane_scan (hk : trackOk (s.track.get l) = true) : ScanAtRest ((abortLane l s).sfe.get l) ∧
    ((abortLane l s).sfe.get l).pairs = (s.sfe.get l).pairs := by
  have h : (abortLane l s).sfe.get l = (abortPurged l (offAndPurged l s)).sfe.get l :=
    abortLane_afterPurge (.sfe l) (by simp)
  obtain ⟨h1, h2⟩ := abortPurged_scan l (offAndPurged l s)
  rw [h, ← offAndPurged_pairs hk]
  exact ⟨h1, h2⟩

theorem abortLane_tests : (abortLane l s).hmu.tests.get l = none := by
  obtain ⟨-, -, h, -⟩ := (abortLane_afterPurge (l := l) (s := s)) .tests (by simp)
  rw [h, abortPurged_tests]

/-- The test that ABORT ends (R172). -/
theorem abortLane_test {q : LaneTest} (h : s.hmu.tests.get l = some q) :
    holdSet l .test (abortLane l s) = false ∧ raisedIn .testDone (abortLane l s) ∧
      Logged (laneTestKind q.kind) (some l) .abortedByHost s.clock.ms (abortLane l s) := by
  obtain ⟨h1, h2, h3⟩ := abortPurged_test l (offAndPurged l s) (q := q) (by rw [offAndPurged_tests, h])
  rw [(offAndPurged_ordersKept l s).clock] at h3
  refine ⟨by rw [abortLane_holds, h1], ?_, logged_of_only abortLane_afterPurge (by simp) h3⟩
  rw [abortLane_eq]
  exact laneEvent_kept _ _ _ _ _ _ h2

theorem abortLane_ordersKept_after : OrdersKept (abortPurged l (offAndPurged l s)) (abortLane l s) :=
  only_mono abortLane_afterPurge (fun p hp => by rcases hp with rfl | rfl <;> simp)

theorem offAndPurged_pending (hk : trackOk (s.track.get l) = true) :
    ((offAndPurged l s).lsq.get l).pendingOrder = (s.lsq.get l).pendingOrder := by
  obtain ⟨hs, r, e⟩ := offAndPurged_lsq hk
  rw [e]

theorem abortLane_ordersKept (hk : trackOk (s.track.get l) = true) (hp : (s.lsq.get l).pendingOrder = none)
    (ht : s.hmu.tests.get l = none) : OrdersKept s (abortLane l s) :=
  only_trans (only_trans (offAndPurged_ordersKept l s) (abortPurged_ordersKept l _
    (by rw [offAndPurged_pending hk, hp]) (by rw [offAndPurged_tests, ht]))) abortLane_ordersKept_after

/-- The one order that ABORT makes final, of the lane's test or the pending one (R137, R172). -/
theorem abortLane_endsLong (hk : trackOk (s.track.get l) = true) {key : LongKey}
    (h : (key = .laneTest l ∧ (s.hmu.tests.get l).isSome = true ∧ (s.lsq.get l).pendingOrder = none) ∨
      (key = .laneOrder l ∧ (s.lsq.get l).pendingOrder.isSome = true ∧ s.hmu.tests.get l = none)) :
    ∃ x, OrdersKept s x ∧ OrdersKept (endLong key .refused .aborted none x) (abortLane l s) := by
  have hstart := offAndPurged_ordersKept l s
  rcases h with ⟨rfl, ht, hp⟩ | ⟨rfl, hp, ht⟩
  · obtain ⟨q, hq⟩ := Option.isSome_iff_exists.mp ht
    obtain ⟨x, hx, hend⟩ := abortPurged_endsTest l (offAndPurged l s) (q := q) (by rw [offAndPurged_pending hk, hp])
      (by rw [offAndPurged_tests, hq])
    exact ⟨x, only_trans hstart hx, only_trans hend abortLane_ordersKept_after⟩
  · obtain ⟨x, hx, hend⟩ := abortPurged_endsPending l (offAndPurged l s) (by rw [offAndPurged_pending hk, hp])
      (by rw [offAndPurged_tests, ht])
    exact ⟨x, only_trans hstart hx, only_trans hend abortLane_ordersKept_after⟩

end

/-! ### The orders -/

section
variable {l : LaneId} {s : State} {b : OrderBlock}

theorem laneOfIndex_laneCode (l : LaneId) : laneOfIndex (laneCode l) = some l := by cases l <;> rfl

/-- A taken LANE_CONTROL of a lane acts on that lane (R129). -/
theorem laneControl_of_taken {a : LaneAction} (act : LaneId → State → State)
    (h : Taken b (.laneControl (laneCode l) a) s) : laneControl a act s = .next (settle s (act l s)) := by
  obtain ⟨hc, hb, hf⟩ := h
  have hbody : currentBody s = some (.laneControl (laneCode l) a) := by
    unfold currentBody
    rw [hf, hc, ← hb]
    rfl
  unfold laneControl
  rw [hbody]
  dsimp only
  rw [if_pos rfl, event_of _ _ rfl, laneOfIndex_laneCode]

theorem clear_of_stopped (h : Taken b (.laneControl (laneCode l) .clear) s) (hm : laneMode l s = .stopped) :
    exec .laneControlClear s = .next (settle s (finishWith .done .ok none [] (clearLane l s))) := by
  show laneControl .clear clearStopped s = _
  rw [laneControl_of_taken clearStopped h]
  unfold clearStopped
  rw [hm]
  rfl

theorem clear_of_other (h : Taken b (.laneControl (laneCode l) .clear) s) (hm : laneMode l s ≠ .stopped) :
    exec .laneControlClear s = .next (settle s (finishWith .refused .busy none [] s)) := by
  show laneControl .clear clearStopped s = _
  rw [laneControl_of_taken clearStopped h]
  unfold clearStopped
  split
  next h => exact absurd h hm
  all_goals rfl

theorem abort_of_taken (h : Taken b (.laneControl (laneCode l) .abort) s) :
    exec .laneControlAbort s = .next (settle s (finishWith .done .ok none [] (abortLane l s))) :=
  laneControl_of_taken _ h

end

end Sys2Proof.Machine

open Sys2Proof Sys2Proof.Machine

/-- Settles O48. CLEAR ends with `clearLane_spec`; ABORT is taken stage by stage, and its clauses read off the lemmas of
`abortLane`, which the end of the order itself leaves. -/
theorem laneControlClearAndAbort : Obligations.LaneControlClearAndAbort := by
  intro l b s hw hk
  refine ⟨fun h hm => ?_, fun h hm => ?_, fun h => ?_⟩
  · obtain ⟨hp, hmode, hheads, hraised, hkept⟩ := clearLane_spec hk
    obtain ⟨n, hlsq⟩ := lsq_finished l s .done .ok none (clearLane l s)
    refine ⟨_, none, clear_of_stopped h hm, ended_of_kept .done .ok hkept h.1 hw, ?_, purged_finished _ _ _ hp,
      fun d => ?_, reported_finished _ _ _ _ hraised⟩
    · unfold laneMode at hmode ⊢
      rw [hlsq]
      exact hmode
    · rw [head_finished]
      exact hheads d
  · obtain ⟨n, hlsq⟩ := lsq_finished l s .refused .busy none s
    refine ⟨_, none, clear_of_other h hm, ended_of_kept .refused .busy (only_refl _ s) h.1 hw, ?_, ?_⟩
    · exact perLane_ext (fun i => finished_only s .refused .busy none s (.track i) (by simp [eventEnd, orderParts]))
    · unfold laneMode
      rw [hlsq]
  · obtain ⟨n, hend⟩ := lsq_finished l s .done .ok none (abortLane l s)
    obtain ⟨hs, hlane⟩ := abortLane_lsq hk
    have hlsq := hend
    rw [hlane] at hlsq
    have hholds : ∀ r, holdSet l r (settle s (finishWith .done .ok none [] (abortLane l s))) =
        holdSet l r (abortPurged l (offAndPurged l s)) := fun r => by
      rw [← abortLane_holds]
      exact holdSet_congr l r (by rw [hend])
    have hfin := finished_only s .done .ok none (abortLane l s)
    have hsfe : (settle s (finishWith .done .ok none [] (abortLane l s))).sfe.get l = (abortLane l s).sfe.get l :=
      hfin (.sfe l) (by simp [eventEnd, orderParts])
    obtain ⟨-, -, htests, -⟩ := hfin .tests (by simp [eventEnd, orderParts])
    obtain ⟨⟨h1, h2, h3, h4, h5, h6⟩, hpairs⟩ := abortLane_scan hk
    rw [← hsfe] at h1 h2 h3 h4 h5 h6 hpairs
    refine ⟨_, none, abort_of_taken h, purged_finished _ _ _ (abortLane_purged hk), ?_, ?_, ?_, ?_, ?_, ?_, ?_,
      fun d => ?_, h2, h3, h4, h5, h6, hpairs, ?_, ?_, reported_finished _ _ _ _ (abortLane_raised hk),
      finished_current _ _ _ _ _, fun hp ht => ended_of_kept .done .ok (abortLane_ordersKept hk hp ht) h.1 hw,
      fun q hq => ?_, fun o ho hwo hkey => ?_⟩
    · unfold laneMode
      rw [hlsq]
    · rw [hlsq]
    · rw [hlsq]
    · rw [hlsq]
    · rw [hlsq]
    · rw [hlsq]
    · rw [htests, abortLane_tests]
    · rw [head_finished]
      exact abortLane_heads d
    · rw [hholds, abortPurged_gapCal]
    · rw [hholds, abortPurged_wake]
    · obtain ⟨k1, k2, k3⟩ := abortLane_test hq
      refine ⟨?_, reported_finished _ _ _ _ k2, logged_of_only hfin (by simp [eventEnd, orderParts]) k3⟩
      rw [hholds, ← abortLane_holds, k1]
    · obtain ⟨x, hx, hu⟩ := abortLane_endsLong hk hkey
      exact endedWithLong_of_kept hx hu h.1 ho hwo hw
end

