-- ==== Sys2Proof/Proofs/ScanFrontEnd.lean ====
section
/-! The Scan Front End of a lane: calibrated values and gains (R27, R32), the near and clear points of the last edges, and
the starts of the calibrations (R30, R31, R35). -/

namespace Sys2Proof.Machine

/-! ### Calibrated values -/

theorem calibrated_le (p : CalPair) (r : Nat) : calibrated p r ≤ 1023 := by
  unfold calibrated
  omega

/-- A reading at or below the offset has value 0: the product is not positive. -/
theorem calibrated_of_le {p : CalPair} {r : Nat} (h : r ≤ p.offset) : calibrated p r = 0 := by
  have hprod : ((r : Int) - p.offset) * p.gain ≤ 0 := Int.mul_nonpos_of_nonpos_of_nonneg (by omega) (by omega)
  have hquot : (((r : Int) - p.offset) * p.gain).tdiv 256 ≤ 0 := by
    rw [← Int.neg_nonneg, ← Int.neg_tdiv]
    exact Int.tdiv_nonneg (by omega) (by decide)
  unfold calibrated
  omega

/-- Above the offset the truncated quotient is that of natural numbers. -/
theorem calibrated_of_ge {p : CalPair} {r : Nat} (h : p.offset ≤ r) :
    calibrated p r = min 1023 ((r - p.offset) * p.gain / 256) := by
  have hquot : (((r : Int) - p.offset) * p.gain).tdiv 256 = ((r - p.offset) * p.gain / 256 : Nat) := by
    rw [← Int.ofNat_sub h]
    rfl
  unfold calibrated
  rw [hquot]
  omega

theorem calibrateAll_getElem? {pairs : List CalPair} {readings : List (BitVec 12)} {i : Nat} {p : CalPair}
    {r : BitVec 12} (hp : pairs[i]? = some p) (hr : readings[i]? = some r) :
    (calibrateAll pairs readings)[i]? = some (calibrated p r.toNat) := by
  have hz : (pairs.zip readings)[i]? = some (p, r) := List.getElem?_zip_eq_some.mpr ⟨hp, hr⟩
  simp [calibrateAll, hz]

/-! ### Gains -/

theorem gainOf_low {d : Int} (h : d ≤ 200) : gainOf d = 1023 ∧ gainClamped d = true := by simp [gainOf, gainClamped, h]

theorem gainOf_high {d : Int} (h : 3201 ≤ d) : gainOf d = 64 ∧ gainClamped d = true := by
  have h1 : ¬ d ≤ 200 := by omega
  have h2 : 3200 < d := by omega
  simp [gainOf, gainClamped, h1, h2]

theorem gainOf_mid {d : Int} (h1 : 201 ≤ d) (h2 : d ≤ 3200) :
    gainOf d = 204800 / d.toNat ∧ gainClamped d = false := by
  have h3 : ¬ d ≤ 200 := by omega
  have h4 : ¬ 3200 < d := by omega
  simp [gainOf, gainClamped, h3, h4]

/-- Every gain lies in 64..1,023: within 201..3,200 the quotient does too. -/
theorem gainOf_range (d : Int) : 64 ≤ gainOf d ∧ gainOf d ≤ 1023 := by
  rcases Int.lt_or_le d 201 with h | h
  · rw [(gainOf_low (by omega)).1]; decide
  · rcases Int.lt_or_le 3200 d with h' | h'
    · rw [(gainOf_high (by omega)).1]; decide
    · rw [(gainOf_mid h h').1]
      exact ⟨(Nat.le_div_iff_mul_le (by omega)).mpr (by omega), Nat.div_le_of_le_mul (by omega)⟩

/-! ### Near and clear points -/

section
variable (l : LaneId) (s : State)

theorem emit_leaves (c : EventCode) (k : Option LaneId) (j n a b : Nat) :
    Only (fun p => p = .raised ∨ p = .journal) s (emit c k j n a b s) := by
  apply emit_only (h := only_refl _ _) <;> simp

theorem emit_sfe (c : EventCode) (k : Option LaneId) (j n a b : Nat) : (emit c k j n a b s).sfe = s.sfe :=
  perLane_ext (fun i => emit_leaves s c k j n a b (.sfe i) (by simp))

/-- A letter that comes near ends both calibrations and changes nothing else of the Scan Front End (R33, R36). -/
theorem comeNear_sfe :
    (comeNear l s).sfe.get l = { s.sfe.get l with longRun := none, shortRun := none } := by
  have hstep : (comeNear l s).sfe.get l = { s.sfe.get l with
      longRun := if (s.sfe.get l).longRun.isSome then none else (s.sfe.get l).longRun,
      shortRun := if (s.sfe.get l).shortRun.isSome then none else (s.sfe.get l).shortRun } := by
    unfold comeNear calAbandoned
    dsimp only
    split <;> split <;> simp [emit_sfe]
  have hnone : ∀ o : Option Nat, (if o.isSome then none else o) = none := by
    intro o
    cases o <;> rfl
  rw [hstep, hnone, hnone]

/-- With no calibration running nothing is abandoned. -/
theorem comeNear_idle (h1 : (s.sfe.get l).longRun = none) (h2 : (s.sfe.get l).shortRun = none) : comeNear l s = s := by
  simp [comeNear, h1, h2]

theorem comeNear_long (h1 : (s.sfe.get l).longRun.isSome = true) (h2 : (s.sfe.get l).shortRun = none) :
    comeNear l s = calAbandoned l 0 (updSfe l (fun f => { f with longRun := none }) s) := by
  simp [comeNear, h1, h2]

theorem comeNear_short (h1 : (s.sfe.get l).shortRun.isSome = true) (h2 : (s.sfe.get l).longRun = none) :
    comeNear l s = calAbandoned l 1 (updSfe l (fun f => { f with shortRun := none }) s) := by
  simp [comeNear, h1, h2]

end

section
variable {l : LaneId} {s : State} {m : EdgeMark}

/-- The last lead with its near point reached. -/
def leadReached (l : LaneId) (m : EdgeMark) (s : State) : State :=
  updSfe l (fun f => { f with lastLead := some { m with reached := true } }) s

theorem nearPointReached_of (hm : m.reached = false) (h : (s.sfe.get l).lastLead = some m)
    (hc : (s.belt.get l).counter = nearPoint l m s) :
    exec (.nearPointReached l) s = .next (settle s (comeNear l (leadReached l m s))) := by
  have he : exec (.nearPointReached l) s = execNearPointReached l s := rfl
  rw [he]
  unfold execNearPointReached
  rw [h]
  exact event_of _ _ (by simp [hm, isNow, counter, hc])

theorem clearPointReached_of (hm : m.reached = false) (h : (s.sfe.get l).lastTrail = some m)
    (hc : (s.belt.get l).counter = clearPoint l m s) :
    exec (.clearPointReached l) s =
      .next (settle s (updSfe l (fun f => { f with lastTrail := some { m with reached := true } }) s)) := by
  have he : exec (.clearPointReached l) s = execClearPointReached l s := rfl
  rw [he]
  unfold execClearPointReached
  rw [h]
  exact event_of _ _ (by simp [hm, isNow, counter, hc])

/-! ### Starts of calibrations -/

theorem markPassed_of {o : Option EdgeMark} (h : ∀ m, o = some m → m.reached = true) : markPassed o = true := by
  cases o with
  | none => rfl
  | some m => exact h m rfl

theorem quiet_of (hd : (eyeState l .e s).dark = false) (ht : ∀ m, (s.sfe.get l).lastTrail = some m → m.reached = true)
    (hl : ∀ m, (s.sfe.get l).lastLead = some m → m.reached = true) : quiet l s = true := by
  simp [quiet, hd, markPassed_of ht, markPassed_of hl]

end

end Sys2Proof.Machine

open Sys2Proof Sys2Proof.Machine

/-- Settles O23. A letter that comes near is read off the lemmas of `comeNear`, by which calibration runs; the other three
events are their one update. -/
theorem apertureAndCalibrationStarts : Obligations.ApertureAndCalibrationStarts := by
  refine ⟨fun l s m hm => ⟨fun h hc => ?_, fun h hc => ?_⟩, fun l s hd ht hlead hlong hshort => ?_⟩
  · refine ⟨_, nearPointReached_of hm h hc, ?_, fun h1 h2 => ?_, fun h1 h2 => ?_, fun h1 h2 => ?_⟩
    · rw [settle_sfe, comeNear_sfe]
      simp [leadReached]
    · rw [settle_jrn, comeNear_idle l _ (by simpa [leadReached] using h1) (by simpa [leadReached] using h2)]
      rfl
    · rw [settle_jrn, comeNear_long l _ (by simpa [leadReached] using h1) (by simpa [leadReached] using h2)]
      exact emit_jrn _ _ _ _ _ _ rfl rfl
    · rw [settle_jrn, comeNear_short l _ (by simpa [leadReached] using h1) (by simpa [leadReached] using h2)]
      exact emit_jrn _ _ _ _ _ _ rfl rfl
  · exact ⟨_, clearPointReached_of hm h hc, by simp, by simp⟩
  · have hquiet : quiet l s = true := quiet_of hd ht hlead
    refine ⟨fun hr => ⟨settle s (updSfe l (fun f => { f with longRun := some 0 }) s), ?_, by simp⟩,
      fun hdue hlamp hw ht => ⟨settle s (updSfe l (fun f => { f with shortRun := some 0 }) s), ?_, by simp⟩⟩
    · exact event_of _ _ (by simp [hr, hlong, hshort, hquiet])
    · exact event_of _ _ (by simp [shortMayStart, hdue, hlamp, hw, ht, hlong, hshort, hquiet])

/-- Settles O24, by the sign of the reading less the offset, and by the three ranges of the difference. -/
theorem calibratedValuesAndGains : Obligations.CalibratedValuesAndGains := by
  refine ⟨⟨fun p r => ⟨calibrated_le p r, calibrated_of_le, calibrated_of_ge⟩, fun _ _ _ _ _ => calibrateAll_getElem?,
    fun p xs => rfl⟩, fun d => ⟨fun h => gainOf_low h.2, fun h => ?_, gainOf_high, fun h => gainOf_low (by omega),
    gainOf_range d⟩, fun m => ⟨rfl, rfl⟩⟩
  obtain ⟨hg, hc⟩ := gainOf_mid h.1 h.2
  refine ⟨?_, hc⟩
  rw [hg, Int.natCast_ediv, Int.toNat_of_nonneg (by omega)]
  rfl
end

