-- ==== Sys2Proof/Proofs/OwnCourse.lean ====
section
/-! The end of a lane test by its own course or by the abort flag (R172), the end of a class audit, and a long order that
ends in the event in which the order in progress does (R182). -/

namespace Sys2Proof.Machine

/-! ### The way out of TESTING -/

/-- R172, step 4: a lane in TESTING becomes READY. -/
def leftTesting (l : LaneId) (s : State) : State :=
  if laneMode l s = .testing then changeLane l .ready .test s else s

section
variable (l : LaneId) (s : State)

theorem leftTesting_leaves :
    Only (fun p => p = .raised ∨ p = .lane l ∨ p = .idle l ∨ p = .journal) s (leftTesting l s) := by
  unfold leftTesting
  split
  · apply changeLane_only (h := only_refl _ _) <;> simp
  · exact only_refl _ s

theorem leftTesting_holds {r : HoldReason} (h : r ≠ .wake) : holdSet l r (leftTesting l s) = holdSet l r s := by
  unfold leftTesting
  split
  · exact holdSet_changeLane .ready .test h
  · rfl

theorem leftTesting_laneMode (h : laneMode l s = .testing) : laneMode l (leftTesting l s) = .ready := by
  obtain ⟨hs, r, hc⟩ := changeLane_lsq l s .ready .test
  unfold leftTesting
  rw [if_pos h]
  unfold laneMode
  rw [hc]

end

/-! ### The log -/

/-- A log entry stands at the pointer once it is written (R173). -/
theorem logged_writeLog (e : LogEntry) (s : State) : Logged e.kind e.lane e.result e.time (writeLog e s) := by
  unfold Logged writeLog
  simp only [updHmu_hmu, vget_vupd_self, Option.some.injEq, exists_eq_left']
  exact ⟨trivial, trivial, trivial, trivial⟩

/-- The log says the same where it and its pointer are the same. -/
theorem logged_congr {k : TestKind} {n : Option LaneId} {r : TestResult} {m : Ms} {s t : State}
    (h1 : t.hmu.log = s.hmu.log) (h2 : t.hmu.pointer = s.hmu.pointer) (h : Logged k n r m s) : Logged k n r m t := by
  unfold Logged at h ⊢
  rw [h1, h2]
  exact h

/-! ### The end of a lane test -/

/-- R172, step 1: what the end of a test leaves of the Scan Front End. -/
def scanReleased (t : LaneTest) (f : Sfe) : Sfe :=
  { f with
    refMode := false, refRequest := none,
    longRequest := if t.kind = .calibrate then none else f.longRequest,
    longRun := if t.kind = .calibrate then none else f.longRun }

/-- R172: the test with its records made, the lane out of TESTING, and the test out of the hold reasons and of the Health
Monitor Unit. -/
def testReturned (l : LaneId) (t : LaneTest) (r : TestResult) (s : State) : State :=
  updHmu (fun h => { h with tests := h.tests.upd l (fun _ => none) })
    (setHold l .test false (leftTesting l (testRecords l t r s)))

section
variable {l : LaneId} {s : State} {t : LaneTest} (r : TestResult)

theorem endLaneTest_ownCourse (h : s.hmu.tests.get l = some t) :
    endLaneTest l r .ownCourse s = raise .testDone
      (endLong (.laneTest l) .done .ok (some (testResultCode r)) (testReturned l t r s)) := by
  unfold endLaneTest
  rw [h]
  simp only [true_and, reduceCtorEq, if_false]
  rfl

theorem testRecords_leaves : Only (fun p => p ∈ [.raised, .journal, .tests, .scorer, .sfe l]) s (testRecords l t r s) := by
  unfold testRecords
  apply emit_only
  · apply writeLog_only
    · apply withdrawIdle_only
      · apply updSfe_only (h := only_refl _ _)
        simp
      · simp
    · simp
  all_goals simp

theorem testRecords_sfe : (testRecords l t r s).sfe.get l = scanReleased t (s.sfe.get l) := by
  unfold testRecords
  rw [emit_sfe]
  exact PerLane.get_upd_self _ _ _

theorem testReturned_leaves : Only (fun p => p ∈ [.raised, .lane l, .idle l, .journal, .tests]) (testRecords l t r s)
    (testReturned l t r s) := by
  unfold testReturned
  apply updHmu_only
  · apply setHold_only
    · exact only_mono (leftTesting_leaves l _) (fun p hp => by rcases hp with rfl | rfl | rfl | rfl <;> simp)
    all_goals simp
  all_goals simp

theorem endLaneTest_afterReturned (h : s.hmu.tests.get l = some t) :
    Only (fun p => p ∈ .raised :: orderParts) (testReturned l t r s) (endLaneTest l r .ownCourse s) := by
  rw [endLaneTest_ownCourse r h]
  apply raise_only
  · apply endLong_only (h := only_refl _ _) <;> simp [orderParts]
  · simp

theorem testReturned_ordersKept : OrdersKept s (testReturned l t r s) :=
  only_trans (only_mono (testRecords_leaves r) (fun p hp => by
    simp only [List.mem_cons, List.not_mem_nil, or_false] at hp
    rcases hp with rfl | rfl | rfl | rfl | rfl <;> simp))
    (only_mono (testReturned_leaves r) (fun p hp => by
      simp only [List.mem_cons, List.not_mem_nil, or_false] at hp
      rcases hp with rfl | rfl | rfl | rfl | rfl <;> simp))

section
variable (h : s.hmu.tests.get l = some t)
include h

theorem ownCourse_sfe : (endLaneTest l r .ownCourse s).sfe.get l = scanReleased t (s.sfe.get l) := by
  rw [← testRecords_sfe r, ← show (testReturned l t r s).sfe.get l = _ from testReturned_leaves r (.sfe l) (by simp)]
  exact endLaneTest_afterReturned r h (.sfe l) (by simp [orderParts])

theorem ownCourse_tests : (endLaneTest l r .ownCourse s).hmu.tests.get l = none := by
  obtain ⟨-, -, ht, -⟩ := endLaneTest_afterReturned r h .tests (by simp [orderParts])
  rw [ht]
  exact PerLane.get_upd_self _ _ _

theorem ownCourse_lsq : (endLaneTest l r .ownCourse s).lsq.get l =
    (setHold l .test false (leftTesting l (testRecords l t r s))).lsq.get l := by
  have hend : (endLaneTest l r .ownCourse s).lsq.get l = (testReturned l t r s).lsq.get l :=
    lsq_of_only l (endLaneTest_afterReturned r h) (by simp [orderParts]) (by simp [orderParts])
  exact hend

theorem ownCourse_test : holdSet l .test (endLaneTest l r .ownCourse s) = false := by
  rw [holdSet_congr l .test (congrArg Lsq.holds (ownCourse_lsq r h)), setHold_same]

theorem ownCourse_holds {q : HoldReason} (h1 : q ≠ .test) (h2 : q ≠ .wake) :
    holdSet l q (endLaneTest l r .ownCourse s) = holdSet l q s := by
  have hrec : (testRecords l t r s).lsq.get l = s.lsq.get l := lsq_of_only l (testRecords_leaves r) (by simp) (by simp)
  rw [holdSet_congr l q (congrArg Lsq.holds (ownCourse_lsq r h)), setHold_other l _ _ h1, leftTesting_holds l _ h2,
    holdSet_congr l q (congrArg Lsq.holds hrec)]

/-- A lane in TESTING is READY after the end of its test (R172). -/
theorem ownCourse_laneMode (hm : laneMode l s = .testing) : laneMode l (endLaneTest l r .ownCourse s) = .ready := by
  have hrec : (testRecords l t r s).lsq.get l = s.lsq.get l := lsq_of_only l (testRecords_leaves r) (by simp) (by simp)
  obtain ⟨hs, hset⟩ := setHold_lsq l (leftTesting l (testRecords l t r s)) .test false
  rw [laneMode_congr l (ownCourse_lsq r h), ← leftTesting_laneMode l _ ((laneMode_congr l hrec).trans hm)]
  unfold laneMode
  rw [hset]

theorem ownCourse_raised : raisedIn .testDone (endLaneTest l r .ownCourse s) := by
  rw [endLaneTest_ownCourse r h]
  exact raisedIn_raise _ _

theorem ownCourse_logged :
    Logged (laneTestKind t.kind) (some l) r s.clock.ms (endLaneTest l r .ownCourse s) := by
  refine logged_of_only (endLaneTest_afterReturned r h) (by simp [orderParts]) ?_
  have hset : Logged (laneTestKind t.kind) (some l) r s.clock.ms
      (setHold l .test false (leftTesting l (testRecords l t r s))) :=
    logged_of_only (setHold_leaves l .test false _) (by simp)
      (logged_of_only (leftTesting_leaves l _) (by simp) (logged_testRecords l s t r))
  exact logged_congr rfl rfl hset

end

end

/-! ### The end of a class audit -/

section
variable {s : State} {a : Audit} (r : TestResult)

theorem auditRecords_ordersKept : OrdersKept s (auditRecords a r s) := by
  apply auditRecords_only (h := only_refl _ _) <;> simp

theorem endAudit_abortedByHost (h : s.hmu.audit = some a) :
    endAudit .abortedByHost s = raise .testDone
      (endLong .audit .done .ok (some (testResultCode .abortedByHost)) (auditRecords a .abortedByHost s)) := by
  unfold endAudit
  rw [h]
  rfl

theorem endAudit_afterRecords (h : s.hmu.audit = some a) :
    Only (fun p => p ∈ .raised :: orderParts) (auditRecords a .abortedByHost s) (endAudit .abortedByHost s) := by
  rw [endAudit_abortedByHost h]
  apply raise_only
  · apply endLong_only (h := only_refl _ _) <;> simp [orderParts]
  · simp

theorem auditRecords_logged : Logged .classAudit none r s.clock.ms (auditRecords a r s) := by
  have hlog : ∀ (e : LogEntry) (c : EventCode) (j n x y : Nat) (u : State),
      Logged e.kind e.lane e.result e.time (emit c none j n x y (writeLog e u)) := fun e c j n x y u =>
    logged_of_only (emit_leaves _ c none j n x y) (by simp) (logged_writeLog e u)
  exact logged_congr rfl rfl (hlog
    { kind := .classAudit, lane := none, result := r, tens := a.tens, time := s.clock.ms,
      checkpoint := auditCheckpoint a r } .testEnd _ _ _ _ _)

/-- The audit's request for idle work is withdrawn (R167). -/
theorem auditRecords_idle : .audit ∉ (auditRecords a r s).msc.idleRequests := by
  have h : (auditRecords a r s).msc = (withdrawIdle .audit s).msc :=
    emit_leaves _ _ _ _ _ _ _ .scorer (by simp)
  rw [h]
  simp [withdrawIdle]

end

/-! ### A long order that ends -/

/-- What the end of the one long order of the list leaves when its final state write is allowed. -/
theorem endLong_single (st : BlockState) (code : ResultCode) (detail : Option Nat) {o : LongOrder} {s : State}
    (ho : s.ocu.longList = [o]) (hw : allowed .orderStateWrite (o.addr + 12) 8 s = true) :
    ∃ d n r, (∀ x, detail = some x → d = x) ∧ endLong o.key st code detail s = { s with
      mem := memWriteN s.mem (o.addr + 12) (orderStateBytes st (resultCode code) d s.clock.ms.toNat), freeCount := n,
      ocu := { s.ocu with longList := [], completed := satAdd32 s.ocu.completed 1, lastOrder := o.addr },
      raised := r } := by
  have hlist : updOcu (fun u => { u with longList := u.longList.filter (fun q => q.key != o.key) }) s =
      { s with ocu := { s.ocu with longList := [] } } := by
    simp [updOcu, ho]
  have hend : endLong o.key st code detail s = finalWrite (longLane o.key) o.addr o.notify st code detail []
      { s with ocu := { s.ocu with longList := [] } } := by
    unfold endLong
    rw [hlist, ho, List.find?_cons_of_pos (by simp)]
  obtain ⟨d, n, hd, h⟩ := finalWrite_allowed (longLane o.key) o.addr o.notify st code detail
    (s := { s with ocu := { s.ocu with longList := [] } }) hw
  exact ⟨d, n, if o.notify then s.raised ||| attnBit .orderNotify else s.raised, hd, hend.trans h⟩

/-- The one long order of the list ends in the event, and the order in progress after it (R182). -/
theorem endedWithLong_of_single (st : BlockState) (code : ResultCode) (detail : Option Nat) {s x u : State}
    {b : OrderBlock} {o : LongOrder} (hx : OrdersKept s x) (hu : OrdersKept (endLong o.key st code detail x) u)
    (hb : s.ocu.current = some b) (ho : s.ocu.longList = [o])
    (hwo : allowed .orderStateWrite (o.addr + 12) 8 s = true)
    (hwb : allowed .orderStateWrite (b.addr + 12) 8 s = true) :
    EndedWithLong o st code detail b s (settle s (finishWith .done .ok none [] u)) := by
  obtain ⟨d, n, r, hd, h⟩ := endLong_single st code detail (by rw [hx.ocu, ho]) (by rw [hx.allowed, hwo])
  rw [h] at hu
  have hallowed : allowed .orderStateWrite (b.addr + 12) 8 u = true := by
    rw [hu.allowed, ← hwb, ← hx.allowed]
    rfl
  obtain ⟨e, m, -, hf⟩ := finishWith_allowed .done .ok none (b := b) (by rw [hu.ocu, hx.ocu]; exact hb) hallowed
  rw [hf]
  refine ⟨⟨d, e, fun c hc => hd c hc, ?_⟩, ?_, ?_, ?_⟩
  · simp only [settle_mem, hu.mem, hu.clock, hx.mem, hx.clock]
    rfl
  · simp only [settle_ocu, hu.ocu]
  · simp only [settle_ocu, hu.ocu, hx.ocu]
  · simp only [settle_ocu]

end Sys2Proof.Machine
end

