-- ==== Sys2Proof/Proofs/LaneTests.lean ====
section
/-! The self-tests of a lane: the steps of the REFERENCE test (R168, R169), and the orders that start and abort a test
(R138, R166, R170). -/

namespace Sys2Proof.Machine

/-! ### A test that ends in its own event -/

section
variable {l : LaneId} {s u : State} {q : LaneTest}

/-- A test that its own course has ended: off the Health Monitor Unit, the reference mode off, reported and logged
(R172). -/
theorem testEnd_settle (r : TestResult) (h : u.hmu.tests.get l = some q) (hk : u.clock = s.clock) :
    (settle s (endLaneTest l r .ownCourse u)).hmu.tests.get l = none ∧
      ((settle s (endLaneTest l r .ownCourse u)).sfe.get l).refMode = false ∧
      reported .testDone (settle s (endLaneTest l r .ownCourse u)) ∧
      Logged (laneTestKind q.kind) (some l) r s.clock.ms (settle s (endLaneTest l r .ownCourse u)) := by
  refine ⟨?_, ?_, reported_settle _ _ (ownCourse_raised r h), ?_⟩
  · rw [settle_hmu, ownCourse_tests r h]
  · rw [settle_sfe, ownCourse_sfe r h]
    rfl
  · rw [← hk]
    exact logged_congr (by rw [settle_hmu]) (by rw [settle_hmu]) (ownCourse_logged r h)

/-! ### The steps of the REFERENCE test -/

theorem toStep_tests (n : Nat) (h : s.hmu.tests.get l = some q) :
    (toStep l n s).hmu.tests.get l = some { q with step := n } := by
  unfold toStep
  rw [updHmu_hmu, PerLane.get_upd_self, h]
  rfl

theorem calCheckPasses_iff (f : Sfe) (r : List (List (BitVec 12))) : calCheckPasses f r = true ↔
    f.lastLong.isSome = true ∧ ∀ x ∈ f.pairs.zip r, 776 ≤ checkMean x.1 x.2 ∧ checkMean x.1 x.2 ≤ 824 := by
  simp only [calCheckPasses, inRange, Bool.and_eq_true, List.all_eq_true, decide_eq_true_eq]

theorem completeCalCheck_fail {r : List (List (BitVec 12))} (h : ¬ calCheckPasses (s.sfe.get l) r = true) :
    completeCalCheck l r s =
      endLaneTest l .failFrontEnd .ownCourse (updSfe l (fun f => { f with refRequest := none }) s) := by
  unfold completeCalCheck
  rw [if_neg h]

theorem completeCalCheck_pass {r : List (List (BitVec 12))} (h : calCheckPasses (s.sfe.get l) r = true) :
    completeCalCheck l r s = toStep l 2 (updSfe l (fun f => { f with refRequest := some (.trace 1 0) })
      (updSfe l (fun f => { f with refRequest := none }) s)) := by
  unfold completeCalCheck
  rw [if_pos h]

/-- Item `i` is scored in step `i + 1` (R168). -/
theorem judgeStep_strengths {i : Nat} (h9 : i < 9) (hs : strengthsExpected i (syntheticFigures (s.sfe.get l) i) = false) :
    judgeStep l (i + 1) s = endLaneTest l .failFrontEnd .ownCourse s := by
  unfold judgeStep
  rw [if_neg (by omega)]
  simp [hs]

theorem judgeStep_verdict {i : Nat} (h9 : i < 9) (hs : strengthsExpected i (syntheticFigures (s.sfe.get l) i) = true)
    (hv : verdictExpected 24 i (judge builtInTable 240 (syntheticFigures (s.sfe.get l) i)) = false) :
    judgeStep l (i + 1) s = endLaneTest l .failScorer .ownCourse s := by
  unfold judgeStep
  rw [if_neg (by omega)]
  simp [hs, hv]

theorem judgeStep_next {i : Nat} (h9 : i < 9) (hs : strengthsExpected i (syntheticFigures (s.sfe.get l) i) = true)
    (hv : verdictExpected 24 i (judge builtInTable 240 (syntheticFigures (s.sfe.get l) i)) = true) :
    judgeStep l (i + 1) s = nextItem l (i + 1) s := by
  unfold judgeStep
  rw [if_neg (by omega)]
  simp [hs, hv]

/-- The built-in class set names each of its eight items (R169), so that step 10 passes. -/
theorem consistencyPasses_holds : consistencyPasses = true := by decide

theorem judgeStep_last : judgeStep l 10 s = endLaneTest l .pass .ownCourse s := by
  unfold judgeStep
  rw [if_pos rfl, if_pos consistencyPasses_holds]

theorem nextItem_tests (n : Nat) (h : s.hmu.tests.get l = some q) :
    (nextItem l n s).hmu.tests.get l = some { q with step := n + 1 } := by
  rw [← toStep_tests (n + 1) h]
  unfold nextItem
  dsimp only
  split <;> rfl

theorem nextItem_last : (nextItem l 9 s).msc.idleRequests = s.msc.idleRequests ++ [.laneItem l] := rfl

theorem nextItem_trace {n : Nat} (h : n ≠ 9) : ((nextItem l n s).sfe.get l).refRequest = some (.trace n 0) := by
  unfold nextItem
  dsimp only
  rw [if_neg h, updSfe_sfe, PerLane.get_upd_self]

theorem refCalCheckComplete_of {r : List (List (BitVec 12))} {n : Nat}
    (hr : (s.sfe.get l).refRequest = some (.calCheck n)) (hn : 320 ≤ n) (ho : measureOk r = true) :
    exec (.refCalCheckComplete l r) s = .next (settle s (completeCalCheck l r s)) := by
  have he : exec (.refCalCheckComplete l r) s = execRefCalCheckComplete l r s := rfl
  rw [he]
  unfold execRefCalCheckComplete
  rw [eventWithin_ok _ _ ho, hr]
  exact event_of _ _ (decide_eq_true hn)

theorem syntheticTraceDone_of {i n : Nat} (hr : (s.sfe.get l).refRequest = some (.trace i n)) (hn : 240 ≤ n) :
    exec (.syntheticTraceDone l) s =
      .next (settle s (askIdle (.laneItem l) (updSfe l (fun f => { f with refRequest := none }) s))) := by
  have he : exec (.syntheticTraceDone l) s = execSyntheticTraceDone l s := rfl
  rw [he]
  unfold execSyntheticTraceDone
  rw [hr]
  exact event_of _ _ (decide_eq_true hn)

theorem syntheticItemScored_of (h : s.hmu.tests.get l = some q) (hi : s.msc.idleRunning = true)
    (hh : s.msc.idleRequests.head? = some (.laneItem l)) :
    exec (.syntheticItemScored l) s = .next (settle s (judgeStep l q.step (idleDone s))) := by
  have he : exec (.syntheticItemScored l) s = execSyntheticItemScored l s := rfl
  rw [he]
  unfold execSyntheticItemScored
  rw [h]
  exact event_of _ _ (by simp [idleOn, hi, hh])

end

/-! ### The start of a test -/

section
variable {l : LaneId} {b : OrderBlock} {s : State}

theorem currentBody_of_taken {body : OrderBody} (h : Taken b body s) : currentBody s = some body := by
  obtain ⟨hc, hb, hf⟩ := h
  unfold currentBody
  rw [hf, hc, ← hb]
  rfl

theorem startLaneTest_ready (start : LaneId → State → State) (ht : s.hmu.tests.get l = none)
    (hm : laneMode l s = .ready) : startLaneTest (laneCode l) start s = orderTaken (.laneTest l) (start l s) := by
  simp [startLaneTest, laneOfIndex_laneCode, ht, hm]

theorem startLaneTest_busy (start : LaneId → State → State)
    (h : (s.hmu.tests.get l).isSome = true ∨ laneMode l s ≠ .ready) :
    startLaneTest (laneCode l) start s = finishWith .refused .busy none [] s := by
  unfold startLaneTest
  rw [laneOfIndex_laneCode]
  dsimp only
  split
  · rfl
  next ht => rw [if_neg (h.resolve_left ht)]; rfl

theorem selfTestReference_of {n a : Nat} {sp : List (Nat × Nat)}
    (h : Taken b (.selfTest .reference (laneCode l) n sp a) s) :
    exec .selfTestReference s = .next (settle s (startLaneTest (laneCode l) startReference s)) := by
  have he : exec .selfTestReference s = execSelfTestReference s := rfl
  rw [he]
  unfold execSelfTestReference
  rw [currentBody_of_taken h]
  rfl

theorem selfTestCalibrate_of {n a : Nat} {sp : List (Nat × Nat)}
    (h : Taken b (.selfTest .calibrate (laneCode l) n sp a) s) :
    exec .selfTestCalibrate s = .next (settle s (startLaneTest (laneCode l) startCalibrate s)) := by
  have he : exec .selfTestCalibrate s = execSelfTestCalibrate s := rfl
  rw [he]
  unfold execSelfTestCalibrate
  rw [currentBody_of_taken h]
  rfl

theorem enterTesting_ordersKept (k : LaneTestKind) : OrdersKept s (enterTesting l k s) := by
  apply enterTesting_only (h := only_refl _ _) <;> simp

theorem enterTesting_laneMode (k : LaneTestKind) : laneMode l (enterTesting l k s) = .testing := by
  obtain ⟨hs, r, hc⟩ := changeLane_lsq l s .testing .test
  obtain ⟨hs', hset⟩ := setHold_lsq l (changeLane l .testing .test s) .test true
  show ((setHold l .test true (changeLane l .testing .test s)).lsq.get l).mode = .testing
  rw [hset, hc]

theorem enterTesting_raised (k : LaneTestKind) : raisedIn .laneState (enterTesting l k s) :=
  setHold_kept l .test true _ _ (laneEvent_kept _ _ _ _ _ _ (raisedIn_setLane l .testing s))

/-- A test that has been started: the lane is in TESTING with TEST in the set, the test runs its first step, and the order
waits TAKEN (R138, R166, R182); `f` is what the kind of test asks of the Scan Front End. -/
theorem testStart_settle (k : LaneTestKind) (f : Sfe → Sfe) (hb : s.ocu.current = some b)
    (hw : allowed .orderStateWrite (b.addr + 12) 8 s = true) :
    ∃ t, settle s (orderTaken (.laneTest l) (updSfe l f (enterTesting l k s))) = t ∧ laneMode l t = .testing ∧
      holdSet l .test t = true ∧ t.hmu.tests.get l = some { kind := k, step := 1 } ∧
      t.sfe.get l = f (s.sfe.get l) ∧ t.ocu.current = none ∧ reported .laneState t ∧
      t.ocu.longList = s.ocu.longList ++ [⟨.laneTest l, b.addr, b.kind, b.notify⟩] := by
  have hkept : OrdersKept s (updSfe l f (enterTesting l k s)) := by
    apply updSfe_only _ _ (enterTesting_ordersKept k)
    simp
  have hsfe : (enterTesting l k s).sfe.get l = s.sfe.get l := by
    have h : Only (fun p => p ≠ .sfe l) s (enterTesting l k s) := by
      apply enterTesting_only (h := only_refl _ _) <;> simp
    exact h (.sfe l) (by simp)
  obtain ⟨c, d, n, h⟩ := orderTaken_allowed (.laneTest l) (by rw [hkept.ocu, hb]) (by rw [hkept.allowed, hw])
  refine ⟨_, rfl, ?_, ?_, ?_, ?_, ?_, ?_, ?_⟩ <;> rw [h]
  · rw [settle_laneMode]
    exact enterTesting_laneMode k
  · rw [settle_holdSet]
    exact setHold_same l (changeLane l .testing .test s) .test true
  · rw [settle_hmu]
    exact PerLane.get_upd_self _ _ _
  · simp [hsfe]
  · rw [settle_ocu]
  · exact reported_settle _ _ (enterTesting_raised k)
  · rw [settle_ocu, hkept.ocu]

/-- An order that ends leaves the Health Monitor Unit alone. -/
theorem finished_hmu (st : BlockState) (code : ResultCode) (d : Option Nat) {old u : State} (hb : u.ocu.current = some b)
    (hw : allowed .orderStateWrite (b.addr + 12) 8 u = true) :
    (settle old (finishWith st code d [] u)).hmu = u.hmu := by
  obtain ⟨v, n, -, h⟩ := finishWith_allowed st code d hb hw
  rw [h, settle_hmu]

/-- A test refused BUSY changes nothing beside its order. -/
theorem busy_settle (hb : s.ocu.current = some b) (hw : allowed .orderStateWrite (b.addr + 12) 8 s = true) :
    Ended b .refused .busy none s.mem s (settle s (finishWith .refused .busy none [] s)) ∧
      (settle s (finishWith .refused .busy none [] s)).hmu = s.hmu ∧
      laneMode l (settle s (finishWith .refused .busy none [] s)) = laneMode l s := by
  obtain ⟨n, hl⟩ := lsq_finished l s .refused .busy none s
  refine ⟨ended_of_kept _ _ (only_refl _ s) hb hw, finished_hmu _ _ _ hb hw, ?_⟩
  unfold laneMode
  rw [hl]

/-! ### The abort flag -/

theorem selfTestAbort_of {k : TestKind} {n : Nat} (h : Taken b (.selfTestAbort k n) s) :
    exec .selfTestAbort s = .next (settle s (abortTest k n s)) := by
  have he : exec .selfTestAbort s = execSelfTestAbort s := rfl
  rw [he]
  unfold execSelfTestAbort
  rw [currentBody_of_taken h]
  rfl

theorem abortTest_lane (k : LaneTestKind) (n : Nat) : abortTest (laneTestKind k) n s = abortLaneTest k n s := by
  cases k <;> rfl

theorem abortLaneTest_nothing {k : LaneTestKind} (h : ∀ q, s.hmu.tests.get l = some q → q.kind ≠ k) :
    abortLaneTest k (laneCode l) s = finishWith .done .ok (some nothingDetail) [] s := by
  unfold abortLaneTest
  rw [laneOfIndex_laneCode]
  dsimp only
  split
  · rfl
  next q hq => rw [if_neg (h q hq)]; rfl

theorem abortLaneTest_some {q : LaneTest} (h : s.hmu.tests.get l = some q) : abortLaneTest q.kind (laneCode l) s =
    finishWith .done .ok none [] (endLaneTest l .abortedByHost .ownCourse s) := by
  unfold abortLaneTest
  rw [laneOfIndex_laneCode]
  dsimp only
  rw [h]
  dsimp only
  rw [if_pos rfl]
  rfl

theorem abortTest_audit {n : Nat} {a : Audit} (h : s.hmu.audit = some a) : abortTest .classAudit n s =
    finishWith .done .ok none [] (endAudit .abortedByHost s) := by
  unfold abortTest
  dsimp only
  rw [h]
  rfl

theorem abortTest_noAudit {n : Nat} (h : s.hmu.audit = none) : abortTest .classAudit n s =
    finishWith .done .ok (some nothingDetail) [] s := by
  unfold abortTest
  dsimp only
  rw [h]
  rfl

/-- An abort flag that finds no test of its kind is DONE with NOTHING (R166). -/
theorem nothing_settle (hb : s.ocu.current = some b) (hw : allowed .orderStateWrite (b.addr + 12) 8 s = true) :
    Ended b .done .ok (some nothingDetail) s.mem s (settle s (finishWith .done .ok (some nothingDetail) [] s)) ∧
      (settle s (finishWith .done .ok (some nothingDetail) [] s)).hmu = s.hmu :=
  ⟨ended_settle _ _ _ hb hw rfl rfl rfl rfl, finished_hmu _ _ _ hb hw⟩

end

end Sys2Proof.Machine

open Sys2Proof Sys2Proof.Machine

/-- Settles O32: a step that goes on is read off its updates, and every step that ends the test off `testEnd_settle`. -/
theorem referenceTestSteps : Obligations.ReferenceTestSteps := by
  intro l s q hq hkind
  have hkind' : laneTestKind q.kind = .reference := by rw [hkind]; rfl
  refine ⟨fun n r hr hn ho => ⟨_, refCalCheckComplete_of hr hn ho, fun hlong hmeans => ?_, fun ⟨x, hx, hout⟩ => ?_,
    fun hlong => ?_⟩, fun i n hr hn => ⟨_, syntheticTraceDone_of hr hn, ?_, ?_⟩,
    fun hi hh => ⟨_, syntheticItemScored_of hq hi hh, fun i hstep h9 h0 hs hv => ?_, fun i hstep h9 h0 hs => ?_,
      fun i hstep h9 h0 hs hv => ?_, fun hstep => ?_⟩⟩
  · rw [completeCalCheck_pass ((calCheckPasses_iff _ _).mpr ⟨hlong, hmeans⟩), settle_sfe, settle_hmu]
    exact ⟨by simp [toStep], toStep_tests 2 hq⟩
  · have hfail : ¬ calCheckPasses (s.sfe.get l) r = true := fun h => by
      have hin := ((calCheckPasses_iff _ _).mp h).2 x hx
      omega
    obtain ⟨h1, h2, h3, h4⟩ := testEnd_settle (s := s) (u := updSfe l (fun f => { f with refRequest := none }) s)
      .failFrontEnd hq rfl
    rw [hkind'] at h4
    rw [completeCalCheck_fail hfail]
    exact ⟨h1, h2, h3, h4⟩
  · have hfail : ¬ calCheckPasses (s.sfe.get l) r = true := fun h => by
      have hsome := ((calCheckPasses_iff _ _).mp h).1
      simp [hlong] at hsome
    obtain ⟨h1, h2, h3, -⟩ := testEnd_settle (s := s) (u := updSfe l (fun f => { f with refRequest := none }) s)
      .failFrontEnd hq rfl
    rw [completeCalCheck_fail hfail]
    exact ⟨h1, h2, h3⟩
  · rw [settle_msc]; rfl
  · rw [settle_sfe]; simp [askIdle]
  · rw [hstep, judgeStep_next (s := idleDone s) h9 hs hv, settle_hmu, settle_msc, settle_sfe]
    refine ⟨nextItem_tests (i + 1) hq, ?_⟩
    split
    next h8 => subst h8; exact nextItem_last
    next h8 => exact nextItem_trace (by omega)
  · obtain ⟨h1, -, h3, h4⟩ := testEnd_settle (s := s) (u := idleDone s) .failFrontEnd hq rfl
    rw [hkind'] at h4
    rw [hstep, judgeStep_strengths (s := idleDone s) h9 hs]
    exact ⟨h1, h3, h4⟩
  · obtain ⟨h1, -, h3, h4⟩ := testEnd_settle (s := s) (u := idleDone s) .failScorer hq rfl
    rw [hkind'] at h4
    rw [hstep, judgeStep_verdict (s := idleDone s) h9 hs hv]
    exact ⟨h1, h3, h4⟩
  · obtain ⟨h1, -, h3, e, he, hk, -, hres, -⟩ := testEnd_settle (s := s) (u := idleDone s) .pass hq rfl
    rw [hstep, judgeStep_last]
    exact ⟨h1, h3, e, he, hk.trans hkind', hres⟩

/-- Settles O60. A start is `testStart_settle`, a refusal `busy_settle`; an abort is the end of the test or of the audit,
whose order becomes final before the aborting one. -/
theorem laneSelfTestOrders : Obligations.LaneSelfTestOrders := by
  refine ⟨fun l b s n a sp hw => ⟨fun h ht hm => ?_, fun h ht hm => ?_, fun hbusy => ⟨fun h => ?_, fun h => ?_⟩⟩,
    fun l b s k hw h => ⟨fun hno => ?_, fun q hq hk => ?_⟩, fun b s n hw h => ⟨fun hno => ?_, fun hsome => ?_⟩⟩
  · obtain ⟨t, he, h1, h2, h3, h4, h5, h6, h7⟩ := testStart_settle (l := l) .reference
      (fun f => { f with refMode := true, refRequest := some (.calCheck 0) }) h.1 hw
    refine ⟨t, ?_, h1, h2, h3, by rw [h4], by rw [h4], h5, h6, h7⟩
    rw [selfTestReference_of h, startLaneTest_ready startReference ht hm, ← he]
    rfl
  · obtain ⟨t, he, h1, h2, h3, h4, h5, h6, h7⟩ := testStart_settle (l := l) .calibrate
      (fun f => { f with longRequest := some .selfTest }) h.1 hw
    refine ⟨t, ?_, h1, h2, h3, by rw [h4], h5, h6, h7⟩
    rw [selfTestCalibrate_of h, startLaneTest_ready startCalibrate ht hm, ← he]
    rfl
  · exact ⟨_, none, by rw [selfTestReference_of h, startLaneTest_busy _ hbusy], busy_settle h.1 hw⟩
  · exact ⟨_, none, by rw [selfTestCalibrate_of h, startLaneTest_busy _ hbusy], busy_settle h.1 hw⟩
  · exact ⟨_, by rw [selfTestAbort_of h, abortTest_lane, abortLaneTest_nothing hno], nothing_settle h.1 hw⟩
  · subst hk
    obtain ⟨u, hu⟩ : ∃ u, u = endLaneTest l .abortedByHost .ownCourse s := ⟨_, rfl⟩
    have hfin := finished_only s .done .ok none u
    obtain ⟨-, -, htests, -⟩ := hfin .tests (by simp [eventEnd, orderParts])
    have hsfe : (settle s (finishWith .done .ok none [] u)).sfe.get l = u.sfe.get l :=
      hfin (.sfe l) (by simp [eventEnd, orderParts])
    obtain ⟨m, hlsq⟩ := lsq_finished l s .done .ok none u
    have hscan := ownCourse_sfe .abortedByHost hq
    rw [← hu] at hscan
    rw [hscan] at hsfe
    refine ⟨_, by rw [selfTestAbort_of h, abortTest_lane, abortLaneTest_some hq, ← hu], ?_, by rw [hsfe]; rfl,
      by rw [hsfe]; rfl, fun hc => ?_, ?_, fun hm => ?_, finished_current _ _ _ _ _, ?_, ?_, fun o ho hkey hwo => ?_⟩
    · rw [htests, hu, ownCourse_tests _ hq]
    · rw [hsfe]
      simp [scanReleased, hc]
    · rw [holdSet_congr l .test (s := u) (by rw [hlsq]), hu, ownCourse_test _ hq]
    · rw [← ownCourse_laneMode .abortedByHost hq hm, ← hu]
      unfold laneMode
      rw [hlsq]
    · exact reported_finished _ _ _ _ (hu ▸ ownCourse_raised _ hq)
    · exact logged_of_only hfin (by simp [eventEnd, orderParts]) (hu ▸ ownCourse_logged _ hq)
    · refine endedWithLong_of_single _ _ _ (testReturned_ordersKept .abortedByHost (l := l) (t := q)) ?_ h.1 ho hwo hw
      rw [hu, hkey, endLaneTest_ownCourse _ hq]
      exact raise_only _ (only_refl _ _) (by simp)
  · exact ⟨_, by rw [selfTestAbort_of h, abortTest_noAudit hno], nothing_settle h.1 hw⟩
  · obtain ⟨a, ha⟩ := Option.isSome_iff_exists.mp hsome
    have hfin := finished_only s .done .ok none (endAudit .abortedByHost s)
    have hend := endAudit_afterRecords ha
    obtain ⟨-, -, -, haudit⟩ := hfin .tests (by simp [eventEnd, orderParts])
    obtain ⟨-, -, -, haudit'⟩ := hend .tests (by simp [orderParts])
    have hmsc : (settle s (finishWith .done .ok none [] (endAudit .abortedByHost s))).msc =
        (auditRecords a .abortedByHost s).msc :=
      (hfin .scorer (by simp [eventEnd, orderParts])).trans (hend .scorer (by simp [orderParts]))
    refine ⟨_, by rw [selfTestAbort_of h, abortTest_audit ha], ?_, ?_, finished_current _ _ _ _ _, ?_, ?_,
      fun o ho hkey hwo => ?_⟩
    · rw [haudit, haudit']
      rfl
    · rw [hmsc]
      exact auditRecords_idle _
    · exact reported_finished _ _ _ _ (by rw [endAudit_abortedByHost ha]; exact raisedIn_raise _ _)
    · exact logged_of_only hfin (by simp [eventEnd, orderParts])
        (logged_of_only hend (by simp [orderParts]) (auditRecords_logged _))
    · refine endedWithLong_of_single _ _ _ (auditRecords_ordersKept .abortedByHost (a := a)) ?_ h.1 ho hwo hw
      rw [hkey, endAudit_abortedByHost ha]
      exact raise_only _ (only_refl _ _) (by simp)
end

