-- ==== Sys2Proof/Proofs/Calibrations.lean ====
section
/-! The completion of calibrations (R29, R31, R32, R35) and the calibration timer with the hold of GAP_CAL (R34, R37). -/

namespace Sys2Proof.Machine

/-! ### Hold reasons that an evaluation and the end of WARMING leave -/

section
variable (l : LaneId) {r : HoldReason} (s : State)

theorem holdSet_emit (c : EventCode) (k : Option LaneId) (j n a b : Nat) :
    holdSet l r (emit c k j n a b s) = holdSet l r s := holdSet_congr l r (by rw [emit_lsq])

theorem holdSet_endPending (st : BlockState) (c : ResultCode) (d : Option Nat) :
    holdSet l r (endPending l st c d s) = holdSet l r s := holdSet_congr l r (by rw [endPending_lsq])

theorem holdSet_drainTest (h : r ≠ .wake) : holdSet l r (drainTest l s) = holdSet l r s := by
  unfold drainTest
  split
  · have hclose : ∀ u, holdSet l r (laneEndClose u) = holdSet l r u := fun u =>
      holdSet_congr l r (by rw [laneEndClose_lsq])
    rw [holdSet_endPending, hclose, holdSet_changeLane _ _ h]
  · rfl

/-- A retirement takes out WAKE at most (R139). -/
theorem holdSet_retireLane (h : r ≠ .wake) : holdSet l r (retireLane l s) = holdSet l r s := by
  have hflag : holdSet l r (updLsq l (fun q => { q with retired := true }) s) = holdSet l r s :=
    holdSet_congr l r (by simp)
  unfold retireLane
  split
  · rfl
  · dsimp only
    split
    · rw [holdSet_drainTest l _ h, holdSet_changeLane _ _ h, hflag]
    · rw [holdSet_endPending, hflag]
    · exact hflag

theorem holdSet_retireRecord (a : AttrId) (h : r ≠ .wake) : holdSet l r (retireRecord l a s) = holdSet l r s := by
  have helement : ∀ u, holdSet l r (retireElement l a u) = holdSet l r u := by
    intro u
    cases a with
    | lampReserve => exact holdSet_retireLane l u h
    | tracking => exact holdSet_retireLane l u h
    | _ => rfl
  unfold retireRecord
  dsimp only
  rw [helement, holdSet_emit]
  rfl

theorem holdSet_healthHold (h : r ≠ .health) : holdSet l r (healthHold l s) = holdSet l r s := setHold_other l s _ h

/-- An evaluation changes HEALTH and WAKE at most (R161 to R163). -/
theorem holdSet_evaluate (a : AttrId) (raw normal : Int) (h1 : r ≠ .health) (h2 : r ≠ .wake) :
    holdSet l r (evaluate l a raw normal s) = holdSet l r s := by
  have hfail : ∀ u, holdSet l r (enterFailing l a u) = holdSet l r u := by
    intro u
    unfold enterFailing
    dsimp only
    split
    · rw [holdSet_emit]; rfl
    · rw [holdSet_healthHold l _ h1, holdSet_emit]; rfl
    · rw [holdSet_retireRecord l _ a h2, holdSet_emit]; rfl
  have htest : ∀ u, holdSet l r (failingTest l a u) = holdSet l r u := by
    intro u
    unfold failingTest
    split
    · exact hfail u
    · rw [holdSet_healthHold l _ h1]; rfl
    · rfl
  unfold evaluate
  dsimp only
  rw [htest]
  rfl

/-- Entering RUNNING changes WAKE at most (R130, R133). -/
theorem holdSet_startRunning (h : r ≠ .wake) : holdSet l r (startRunning l s) = holdSet l r s := by
  have hset : holdSet l r (setLane l .running s) = holdSet l r s := by
    have hevent : holdSet l r (changeLane l .running .order s) = holdSet l r (setLane l .running s) :=
      holdSet_emit l _ _ _ _ _ _ _
    exact hevent.symm.trans (holdSet_changeLane .running .order h)
  unfold startRunning
  dsimp only
  split
  · exact hset
  · rw [setHold_other l _ _ h, hset]

theorem holdSet_warmHeads (h : r ≠ .wake) : holdSet l r (warmHeads l s) = holdSet l r s := by
  have hwarm : ∀ u, holdSet l r (warmTest l u) = holdSet l r u := by
    intro u
    have hflag : holdSet l r (updLsq l (fun q => { q with warmed := true, warmStep := none }) u) = holdSet l r u :=
      holdSet_congr l r (by simp)
    unfold warmTest
    dsimp only
    split
    · split
      · rw [holdSet_changeLane _ _ h, hflag]
      · rw [laneEvent, holdSet_emit, holdSet_endPending, holdSet_startRunning l _ h, hflag]
    · rfl
  unfold warmHeads
  dsimp only
  rw [hwarm]
  exact holdSet_congr l r (by simp [updHead])

end

/-! ### The work that every calibration ends with -/

section
variable (l : LaneId) (s : State)

theorem evaluate_sfe (a : AttrId) (raw normal : Int) : (evaluate l a raw normal s).sfe.get l = s.sfe.get l := by
  have h : Only (fun p => p ≠ .sfe l) s (evaluate l a raw normal s) := by
    apply evaluate_only (h := only_refl _ _) <;> simp
  exact h (.sfe l) (by simp)

theorem setHold_sfe (r : HoldReason) (on : Bool) : (setHold l r on s).sfe.get l = s.sfe.get l :=
  setHold_leaves l r on s (.sfe l) (by simp)

/-- A calibration that is done (R34): the new pairs, the timer restarted, due, the age and the gap hold cleared. -/
def calDone (pairs : List CalPair) (period : Nat) (f : Sfe) : Sfe :=
  { f with pairs := pairs, calTicks := 0, calPeriod := period, due := false, dueAge := 0, wakeMark := false,
           gapHold := none }

/-- R29, R35, R159: the new pairs with their records and LAMP_RESERVE, before the calibration counts as done. -/
def calRecorded (l : LaneId) (kind : Nat) (pairs : List CalPair) (clamped : Nat) (s : State) : State :=
  let s1 := emit .calDone (some l) noSubject 0 kind 0 (updSfe l (fun f => { f with pairs := pairs }) s)
  let g : Nat := (pairs.map (fun p => p.gain)).foldl max 0
  evaluate l .lampReserve g (lampReserveValue g)
    (if clamped = 0 then s1 else emit .calClamped (some l) noSubject 0 clamped 0 s1)

/-- R34, R37: the calibration done, with CAL_CURRENCY evaluated and GAP_CAL out of the set. -/
def calSettled (l : LaneId) (s : State) : State :=
  setHold l .gapCal false (evaluate l .calCurrency 0 (calCurrencyValue 0) (calFinished l s))

theorem finishCalibration_eq (kind : Nat) (pairs : List CalPair) (clamped : Nat) :
    finishCalibration l kind pairs clamped s =
      if (s.sfe.get l).wakeMark then setHold l .wake false (calSettled l (calRecorded l kind pairs clamped s))
      else calSettled l (calRecorded l kind pairs clamped s) := rfl

theorem calRecorded_sfe (kind : Nat) (pairs : List CalPair) (clamped : Nat) :
    (calRecorded l kind pairs clamped s).sfe.get l = { s.sfe.get l with pairs := pairs } := by
  unfold calRecorded
  dsimp only
  rw [evaluate_sfe]
  split <;> simp [emit_sfe]

theorem calSettled_sfe :
    (calSettled l s).sfe.get l = calDone (s.sfe.get l).pairs (geometry l s).calInterval (s.sfe.get l) := by
  unfold calSettled calFinished
  rw [setHold_sfe, evaluate_sfe, updSfe_sfe, PerLane.get_upd_self]
  rfl

theorem finishCalibration_sfe (kind : Nat) (pairs : List CalPair) (clamped : Nat) :
    ∃ n, (finishCalibration l kind pairs clamped s).sfe.get l = calDone pairs n (s.sfe.get l) := by
  refine ⟨(geometry l (calRecorded l kind pairs clamped s)).calInterval, ?_⟩
  have hdone := calSettled_sfe l (calRecorded l kind pairs clamped s)
  rw [calRecorded_sfe] at hdone
  rw [finishCalibration_eq]
  split
  · rw [setHold_sfe, hdone]; rfl
  · rw [hdone]; rfl

/-- GAP_CAL is out of the set after a calibration (R37). -/
theorem finishCalibration_gapCal (kind : Nat) (pairs : List CalPair) (clamped : Nat) :
    holdSet l .gapCal (finishCalibration l kind pairs clamped s) = false := by
  have hdone : ∀ u, holdSet l .gapCal (calSettled l u) = false := fun u => setHold_same l _ _ _
  rw [finishCalibration_eq]
  split
  · rw [setHold_other l _ _ (by decide), hdone]
  · exact hdone _

/-! ### The requester of a long calibration -/

/-- Telling the requester does nothing, goes on with WARMING, or ends the lane's test (R31, R127, R170). -/
theorem tellRequester_cases (r : Option CalRequester) (n : Nat) :
    tellRequester l r n s = s ∨ tellRequester l r n s = warmHeads l s ∨
      ∃ t x, s.hmu.tests.get l = some t ∧ tellRequester l r n s = endLaneTest l x .ownCourse s := by
  match r with
  | none => exact Or.inl rfl
  | some .warming =>
    by_cases hm : laneMode l s = .warming
    · exact Or.inr (Or.inl (if_pos hm))
    · exact Or.inl (if_neg hm)
  | some .selfTest =>
    cases ht : s.hmu.tests.get l with
    | none => exact Or.inl (endLaneTest_none l _ s ht)
    | some t => exact Or.inr (Or.inr ⟨t, _, rfl, rfl⟩)

/-- Of the Scan Front End the requester takes at most what the end of a test takes (R172). -/
theorem tellRequester_sfe (r : Option CalRequester) (n : Nat) :
    (tellRequester l r n s).sfe.get l = s.sfe.get l ∨
      ∃ t, (tellRequester l r n s).sfe.get l = scanReleased t (s.sfe.get l) := by
  rcases tellRequester_cases l s r n with h | h | ⟨t, x, ht, h⟩ <;> rw [h]
  · exact Or.inl rfl
  · have hwarm : Only (fun p => p ≠ .sfe l) s (warmHeads l s) := by
      apply warmHeads_only (h := only_refl _ _) <;> simp
    exact Or.inl (hwarm (.sfe l) (by simp))
  · exact Or.inr ⟨t, ownCourse_sfe x ht⟩

theorem tellRequester_gapCal (r : Option CalRequester) (n : Nat) :
    holdSet l .gapCal (tellRequester l r n s) = holdSet l .gapCal s := by
  rcases tellRequester_cases l s r n with h | h | ⟨t, x, ht, h⟩ <;> rw [h]
  · exact holdSet_warmHeads (r := .gapCal) l s (by decide)
  · exact ownCourse_holds x ht (by decide) (by decide)

end

/-! ### The new pairs -/

theorem meansOf_targets (dark reference : List (List (BitVec 12))) :
    (meansOf dark reference).map targetPair = (dark.zip reference).map (fun q =>
      { offset := (q.1.map (·.toNat)).sum / 64,
        gain := gainOf (((q.2.map (·.toNat)).sum / 64 : Nat) - ((q.1.map (·.toNat)).sum / 64 : Nat) : Int) }) := by
  unfold meansOf
  rw [List.map_map]
  rfl

/-- A step toward a target is the difference clamped to the limit (R35). -/
theorem stepToward_eq (limit old target : Nat) :
    (stepToward limit old target : Int) = old + max (-(limit : Int)) (min limit ((target : Int) - old)) := by
  unfold stepToward
  omega

theorem measureOk_length {r : List (List (BitVec 12))} (h : measureOk r = true) : r.length = 12 := by
  unfold measureOk at h
  simp only [Bool.and_eq_true, beq_iff_eq] at h
  exact h.1

/-- The pairs of a short calibration from the old ones and the readings (R35). -/
def steppedPairs (pairs : List CalPair) (dark reference : List (List (BitVec 12))) : List CalPair :=
  (pairs.zip (meansOf dark reference)).map (fun q => steppedPair q.1 (targetPair q.2))

theorem steppedPairs_length {pairs : List CalPair} {dark reference : List (List (BitVec 12))}
    (hp : pairs.length = 12) (hd : measureOk dark = true) (hr : measureOk reference = true) :
    (steppedPairs pairs dark reference).length = 12 := by
  simp [steppedPairs, meansOf, hp, measureOk_length hd, measureOk_length hr]

theorem steppedPairs_getElem? {pairs : List CalPair} {dark reference : List (List (BitVec 12))} {i : Nat}
    {old : CalPair} {d r : List (BitVec 12)} (ho : pairs[i]? = some old) (hd : dark[i]? = some d)
    (hr : reference[i]? = some r) : (steppedPairs pairs dark reference)[i]? =
      some (steppedPair old (targetPair { dark := meanOf d, reference := meanOf r })) := by
  have hm : (meansOf dark reference)[i]? = some { dark := meanOf d, reference := meanOf r } := by
    have hz : (dark.zip reference)[i]? = some (d, r) := List.getElem?_zip_eq_some.mpr ⟨hd, hr⟩
    simp [meansOf, hz]
  have hz : (pairs.zip (meansOf dark reference))[i]? = some (old, _) := List.getElem?_zip_eq_some.mpr ⟨ho, hm⟩
  simp [steppedPairs, hz]

/-! ### The events -/

section
variable {l : LaneId} {s : State} {dark reference : List (List (BitVec 12))} {n : Nat}

theorem longCalComplete_of (hd : measureOk dark = true) (hr : measureOk reference = true)
    (hl : (s.sfe.get l).longRun = some n) (hn : 4000 ≤ n) :
    exec (.longCalComplete l dark reference) s = .next (settle s (completeLongCal l dark reference s)) := by
  have he : exec (.longCalComplete l dark reference) s = execLongCalComplete l dark reference s := rfl
  rw [he]
  unfold execLongCalComplete
  rw [eventWithin_ok _ _ (by rw [hd, hr]; rfl), hl]
  exact event_of _ _ (decide_eq_true hn)

theorem shortCalComplete_of (hd : measureOk dark = true) (hr : measureOk reference = true)
    (hl : (s.sfe.get l).shortRun = some n) (hn : 160 ≤ n) :
    exec (.shortCalComplete l dark reference) s = .next (settle s (completeShortCal l dark reference s)) := by
  have he : exec (.shortCalComplete l dark reference) s = execShortCalComplete l dark reference s := rfl
  rw [he]
  unfold execShortCalComplete
  rw [eventWithin_ok _ _ (by rw [hd, hr]; rfl), hl]
  exact event_of _ _ (decide_eq_true hn)

/-- A long calibration is a finished one of which its requester is then told (R29, R31, R34). -/
theorem completeLongCal_eq (l : LaneId) (s : State) (dark reference : List (List (BitVec 12))) :
    ∃ u p, completeLongCal l dark reference s =
        tellRequester l (s.sfe.get l).longRequest (clampedCount (meansOf dark reference)) u ∧
      u.sfe.get l = calDone ((meansOf dark reference).map targetPair) p { s.sfe.get l with
        longRequest := none, longRun := none, lastLong := some (meansOf dark reference) } ∧
      holdSet l .gapCal u = false := by
  obtain ⟨p, hfin⟩ := finishCalibration_sfe l
    (updSfe l (fun f => { f with longRequest := none, longRun := none, lastLong := some (meansOf dark reference) }) s)
    0 ((meansOf dark reference).map targetPair) (clampedCount (meansOf dark reference))
  rw [updSfe_sfe, PerLane.get_upd_self] at hfin
  exact ⟨_, p, rfl, hfin, finishCalibration_gapCal l _ _ _ _⟩

theorem completeLongCal_sfe (l : LaneId) (s : State) (dark reference : List (List (BitVec 12))) :
    ((completeLongCal l dark reference s).sfe.get l).pairs = (meansOf dark reference).map targetPair ∧
      ((completeLongCal l dark reference s).sfe.get l).longRun = none ∧
      ((completeLongCal l dark reference s).sfe.get l).longRequest = none ∧
      ((completeLongCal l dark reference s).sfe.get l).due = false ∧
      ((completeLongCal l dark reference s).sfe.get l).dueAge = 0 ∧
      ((completeLongCal l dark reference s).sfe.get l).calTicks = 0 ∧
      ((completeLongCal l dark reference s).sfe.get l).gapHold = none := by
  obtain ⟨u, p, heq, hfin, -⟩ := completeLongCal_eq l s dark reference
  rw [heq]
  rcases tellRequester_sfe l u (s.sfe.get l).longRequest (clampedCount (meansOf dark reference)) with h | ⟨t, h⟩
  · rw [h, hfin]
    simp [calDone]
  · rw [h, hfin]
    simp [scanReleased, calDone]

theorem completeLongCal_gapCal (l : LaneId) (s : State) (dark reference : List (List (BitVec 12))) :
    holdSet l .gapCal (completeLongCal l dark reference s) = false := by
  obtain ⟨u, p, heq, -, hgap⟩ := completeLongCal_eq l s dark reference
  rw [heq, tellRequester_gapCal, hgap]

theorem completeShortCal_sfe (l : LaneId) (s : State) (dark reference : List (List (BitVec 12))) :
    ∃ n, (completeShortCal l dark reference s).sfe.get l =
      calDone (steppedPairs (s.sfe.get l).pairs dark reference) n { s.sfe.get l with shortRun := none } := by
  obtain ⟨n, hfin⟩ := finishCalibration_sfe l (updSfe l (fun f => { f with shortRun := none }) s) 1
    (steppedPairs (s.sfe.get l).pairs dark reference) (clampedCount (meansOf dark reference))
  rw [updSfe_sfe, PerLane.get_upd_self] at hfin
  exact ⟨n, hfin⟩

/-! ### The calibration timer -/

theorem gapCalTest_sfe (l : LaneId) (s : State) :
    ∃ g, (gapCalTest l s).sfe.get l = { s.sfe.get l with gapHold := g } ∧
      (4 ≤ (s.sfe.get l).dueAge → holdSet l .gapCal s = false → g = some 0) := by
  unfold gapCalTest
  split
  · exact ⟨some 0, by rw [setHold_sfe, updSfe_sfe, PerLane.get_upd_self], fun _ _ => rfl⟩
  next h => exact ⟨_, rfl, fun h1 h2 => absurd ⟨h1, h2⟩ h⟩

/-- An age of 4 or more has GAP_CAL in the set (R37). -/
theorem gapCalTest_gapCal (h : 4 ≤ (s.sfe.get l).dueAge) : holdSet l .gapCal (gapCalTest l s) = true := by
  unfold gapCalTest
  split
  · rw [setHold_same]
  next hno => simpa [h] using hno

/-- R34: the Scan Front End after an expiry of the calibration timer, before the test of R37. -/
def calExpired (period : Nat) (f : Sfe) : Sfe :=
  { f with calTicks := 0, calPeriod := period, due := true,
           dueAge := if f.due then min (f.dueAge + 1) 255 else f.dueAge }

theorem calExpiry_eq (l : LaneId) (s : State) : ∃ u, calExpiry l s = gapCalTest l u ∧
    u.sfe.get l = calExpired (geometry l s).calInterval (s.sfe.get l) ∧ holdSet l .gapCal u = holdSet l .gapCal s := by
  refine ⟨_, rfl, ?_, ?_⟩
  · rw [evaluate_sfe, updSfe_sfe, PerLane.get_upd_self]
    rfl
  · rw [holdSet_evaluate l _ _ _ _ (by decide) (by decide)]
    rfl

theorem calIntervalExpiry_of (hm : laneMode l s = .running) (hl : (s.lsq.get l).lamp = .on)
    (hn : 20000 * (s.sfe.get l).calPeriod ≤ (s.sfe.get l).calTicks) :
    exec (.calIntervalExpiry l) s = .next (settle s (calExpiry l s)) :=
  event_of _ _ (by simp [calCounts, hm, hl, ticksPerSecond, hn])

theorem gapCalHoldExpiry_of (hg : (s.sfe.get l).gapHold = some n) (hn : 5000 ≤ n) :
    exec (.gapCalHoldExpiry l) s =
      .next (settle s (setHold l .gapCal false (updSfe l (fun f => { f with gapHold := none }) s))) := by
  have he : exec (.gapCalHoldExpiry l) s = execGapCalHoldExpiry l s := rfl
  rw [he]
  unfold execGapCalHoldExpiry
  rw [hg]
  exact event_of _ _ (decide_eq_true hn)

end

end Sys2Proof.Machine

open Sys2Proof Sys2Proof.Machine

/-- Settles O26, by what a finished calibration leaves and, for a long one, by what its requester leaves of that. -/
theorem calibrationsComplete : Obligations.CalibrationsComplete := by
  refine ⟨fun l s dark reference n hd hr hrun hn => ?_, fun l s dark reference n hd hr hrun hn hlen => ?_⟩
  · obtain ⟨h1, h2, h3, h4, h5, h6, h7⟩ := completeLongCal_sfe l s dark reference
    refine ⟨_, longCalComplete_of hd hr hrun hn, ?_⟩
    rw [settle_sfe, settle_holdSet]
    exact ⟨h1.trans (meansOf_targets dark reference), h2, h3, h4, h5, h6, h7, completeLongCal_gapCal l s dark reference⟩
  · obtain ⟨p, hsfe⟩ := completeShortCal_sfe l s dark reference
    refine ⟨_, shortCalComplete_of hd hr hrun hn, ?_⟩
    rw [settle_sfe, settle_holdSet, hsfe]
    refine ⟨steppedPairs_length hlen hd hr, fun i old d r target ho hdi hri htarget => ?_, rfl, rfl, rfl, rfl,
      finishCalibration_gapCal l _ _ _ _⟩
    subst htarget
    exact ⟨_, steppedPairs_getElem? ho hdi hri, stepToward_eq 16 _ _, stepToward_eq 32 _ _⟩

/-- Settles O27: the expiry is its update followed by the test of R37, which an evaluation between them leaves as it is. -/
theorem calibrationTimerAndGapHold : Obligations.CalibrationTimerAndGapHold := by
  refine fun l s => ⟨fun hm hl hn => ?_, fun n hg hn => ⟨_, gapCalHoldExpiry_of hg hn, ?_, ?_⟩⟩
  · obtain ⟨u, hu, hsfe, hhold⟩ := calExpiry_eq l s
    obtain ⟨g, htest, hgap⟩ := gapCalTest_sfe l u
    refine ⟨_, calIntervalExpiry_of hm hl hn, ?_⟩
    rw [settle_sfe, settle_holdSet, hu, htest, ← hhold]
    exact ⟨by rw [hsfe]; rfl, by rw [hsfe]; rfl, by rw [hsfe]; rfl, by rw [hsfe]; rfl, gapCalTest_gapCal, hgap⟩
  · rw [settle_sfe, setHold_sfe, updSfe_sfe, PerLane.get_upd_self]
  · rw [settle_holdSet, setHold_same]
end

