-- ==== Sys2Proof/Proofs/Figures.lean ====
section
/-! The figures of a strip and band (R52, R53): the highest and the lowest of the windowed sums, and the first index at
which the highest stands. -/

namespace Sys2Proof.Machine

/-! ### The highest and the lowest of a list, as the model folds them -/

theorem foldl_max_le_iff (xs : List Nat) (a m : Nat) : xs.foldl max a ≤ m ↔ a ≤ m ∧ ∀ x ∈ xs, x ≤ m := by
  induction xs generalizing a with
  | nil => simp
  | cons y ys ih => simp [ih, and_assoc]

theorem le_foldl_min_iff (xs : List Nat) (a m : Nat) : m ≤ xs.foldl min a ↔ m ≤ a ∧ ∀ x ∈ xs, m ≤ x := by
  induction xs generalizing a with
  | nil => simp
  | cons y ys ih => simp [ih, and_assoc]

theorem le_foldl_max {xs : List Nat} (a : Nat) {x : Nat} (h : x ∈ xs) : x ≤ xs.foldl max a :=
  ((foldl_max_le_iff xs a _).mp le_rfl).2 x h

theorem foldl_min_le {xs : List Nat} (a : Nat) {x : Nat} (h : x ∈ xs) : xs.foldl min a ≤ x :=
  ((le_foldl_min_iff xs a _).mp le_rfl).2 x h

theorem foldl_max_eq_or_mem (xs : List Nat) (a : Nat) : xs.foldl max a = a ∨ xs.foldl max a ∈ xs := by
  induction xs generalizing a with
  | nil => simp
  | cons y ys ih =>
    simp only [List.foldl_cons, List.mem_cons]
    rcases ih (max a y) with h | h
    · rcases max_choice a y with hc | hc
      · exact .inl (h.trans hc)
      · exact .inr (.inl (h.trans hc))
    · exact .inr (.inr h)

theorem foldl_min_eq_or_mem (xs : List Nat) (a : Nat) : xs.foldl min a = a ∨ xs.foldl min a ∈ xs := by
  induction xs generalizing a with
  | nil => simp
  | cons y ys ih =>
    simp only [List.foldl_cons, List.mem_cons]
    rcases ih (min a y) with h | h
    · rcases min_choice a y with hc | hc
      · exact .inl (h.trans hc)
      · exact .inr (.inl (h.trans hc))
    · exact .inr (.inr h)

theorem foldl_max_mem {xs : List Nat} (h : xs ≠ []) : xs.foldl max 0 ∈ xs := by
  obtain ⟨x, hx⟩ := List.exists_mem_of_ne_nil xs h
  rcases foldl_max_eq_or_mem xs 0 with h0 | hm
  · have hle : x ≤ xs.foldl max 0 := le_foldl_max 0 hx
    have hx0 : x = xs.foldl max 0 := by omega
    exact hx0 ▸ hx
  · exact hm

/-! ### The first index of a value -/

theorem firstIndex_spec {v : Nat} {xs : List Nat} (h : v ∈ xs) :
    xs[firstIndex v xs]? = some v ∧ ∀ j < firstIndex v xs, xs[j]? ≠ some v := by
  induction xs with
  | nil => simp at h
  | cons x r ih =>
    unfold firstIndex
    split
    next hx => simp [hx]
    next hx =>
      obtain ⟨hat, hbefore⟩ := ih ((List.mem_cons.mp h).resolve_left (Ne.symm hx))
      refine ⟨by simpa using hat, fun j hj => ?_⟩
      cases j with
      | zero => simpa using hx
      | succ j => simpa using hbefore j (by omega)

/-! ### The windowed sums -/

/-- R52: the windowed sum S(j). -/
def windowSum (w : Nat) (xs : List Nat) (j : Nat) : Nat := ((xs.drop j).take w).sum

/-- R53: the peak of the windowed sums, P. -/
def peakSum (w : Nat) (xs : List Nat) : Nat := (windowSums w xs).foldl max 0

/-- R53: the base of the windowed sums, B. -/
def baseSum (w : Nat) (xs : List Nat) : Nat := (windowSums w xs).foldl min (peakSum w xs)

theorem figureOf_eq (w : Nat) (xs : List Nat) : figureOf w xs =
    { strength := (peakSum w xs - baseSum w xs) / w,
      centre := firstIndex (peakSum w xs) (windowSums w xs) + w / 2 } := rfl

section
variable {w : Nat} {xs : List Nat}

theorem windowSums_getElem?_iff {j v : Nat} :
    (windowSums w xs)[j]? = some v ↔ j + w ≤ xs.length ∧ windowSum w xs j = v := by
  have hlen : j < xs.length + 1 - w ↔ j + w ≤ xs.length := by omega
  simp [windowSums, windowSum, List.getElem?_eq_some_iff, hlen]

theorem mem_windowSums {v : Nat} : v ∈ windowSums w xs ↔ ∃ j, j + w ≤ xs.length ∧ windowSum w xs j = v := by
  simp only [List.mem_iff_getElem?, windowSums_getElem?_iff]

theorem windowSums_ne_nil (hw : w ≤ xs.length) : windowSums w xs ≠ [] :=
  List.ne_nil_of_mem (mem_windowSums.mpr ⟨0, by omega, rfl⟩)

theorem peakSum_mem (hw : w ≤ xs.length) : peakSum w xs ∈ windowSums w xs := foldl_max_mem (windowSums_ne_nil hw)

theorem baseSum_mem (hw : w ≤ xs.length) : baseSum w xs ∈ windowSums w xs := by
  rcases foldl_min_eq_or_mem (windowSums w xs) (peakSum w xs) with h | h
  · exact (show baseSum w xs = peakSum w xs from h) ▸ peakSum_mem hw
  · exact h

theorem windowSum_le (hx : ∀ x ∈ xs, x ≤ 1023) (j : Nat) : windowSum w xs j ≤ 1023 * w := by
  have hsum : windowSum w xs j ≤ ((xs.drop j).take w).length • 1023 :=
    List.sum_le_card_nsmul _ _ fun x h => hx x (List.mem_of_mem_drop (List.mem_of_mem_take h))
  have hlen : ((xs.drop j).take w).length ≤ w := List.length_take_le _ _
  rw [smul_eq_mul] at hsum
  omega

/-- The strength stays within the range of a sample (R53). -/
theorem figureOf_strength_le (h8 : 8 ≤ w) (hw : w ≤ xs.length) (hx : ∀ x ∈ xs, x ≤ 1023) :
    (figureOf w xs).strength ≤ 1023 := by
  obtain ⟨j, -, hj⟩ := mem_windowSums.mp (peakSum_mem hw)
  have hp : peakSum w xs ≤ 1023 * w := hj ▸ windowSum_le hx j
  rw [figureOf_eq]
  exact Nat.div_le_of_le_mul (by rw [Nat.mul_comm]; omega)

end

/-- The figures of a trace stand strip by strip, the bands of a strip in their order (2.1). -/
theorem traceFigures_getElem? (w : Nat) (trace : List (List Nat)) {strip band : Nat} (hs : strip < 4) (hb : band < 3) :
    ((traceFigures w trace)[strip]?.bind (fun fs => fs[band]?)) =
      some (figureOf w (channelTrace trace (3 * strip + band))) := by
  simp [traceFigures, hs, hb]

end Sys2Proof.Machine

open Sys2Proof Sys2Proof.Machine

/-- Settles O28: the peak and the base are windowed sums that bound every other, and the centre lies half a window behind
the first one that is the peak. -/
theorem figuresOfATrace : Obligations.FiguresOfATrace := by
  refine ⟨fun w xs h8 hw hx => ?_, fun w trace strip band hs hb => traceFigures_getElem? w trace hs hb⟩
  obtain ⟨hat, hbefore⟩ := firstIndex_spec (peakSum_mem hw)
  obtain ⟨hi, hpeak⟩ := windowSums_getElem?_iff.mp hat
  have hcentre : (figureOf w xs).centre = firstIndex (peakSum w xs) (windowSums w xs) + w / 2 := rfl
  refine ⟨peakSum w xs, baseSum w xs, _, fun j hj => ?_, hi, hpeak, fun j hj hsum => ?_, mem_windowSums.mp (baseSum_mem hw),
    rfl, hcentre, figureOf_strength_le h8 hw hx, by omega, by omega⟩
  · have hmem : windowSum w xs j ∈ windowSums w xs := mem_windowSums.mpr ⟨j, hj, rfl⟩
    exact ⟨foldl_min_le _ hmem, le_foldl_max _ hmem⟩
  · exact hbefore j hj (windowSums_getElem?_iff.mpr ⟨by omega, hsum⟩)
end

