-- ==== Sys2Proof/Proofs/BestCandidate.lean ====
section
/-! Candidates (R54 to R56), the order of the ranked ones (R57) and the verdict (R58, R59): each function of the scoring
said once by what its members or its result are. -/

namespace Sys2Proof.Machine

/-! ### Candidates on a strip -/

section
variable {k : ClassEntry} {fs : List Figure}

theorem bandPairs_getElem?_iff {i : Nat} {q : Bounds × Figure} :
    (bandPairs k fs)[i]? = some q ↔ k.bands[i]? = some q.1 ∧ fs[i]? = some q.2 := List.getElem?_zip_eq_some

theorem mem_bandPairs {q : Bounds × Figure} :
    q ∈ bandPairs k fs ↔ ∃ i : Nat, k.bands[i]? = some q.1 ∧ fs[i]? = some q.2 := by
  simp only [List.mem_iff_getElem?, bandPairs_getElem?_iff]

theorem mem_requiredFigures {f : Figure} : f ∈ requiredFigures k fs ↔
    ∃ (i : Nat) (b : Bounds), k.bands[i]? = some b ∧ fs[i]? = some f ∧ 0 < b.lo := by
  simp only [requiredFigures, List.mem_map, List.mem_filter, mem_bandPairs, decide_eq_true_eq]
  constructor
  · rintro ⟨⟨b, g⟩, ⟨⟨i, hb, hg⟩, hlo⟩, rfl⟩
    exact ⟨i, b, hb, hg, hlo⟩
  · rintro ⟨i, b, hb, hf, hlo⟩
    exact ⟨(b, f), ⟨⟨i, hb, hf⟩, hlo⟩, rfl⟩

/-- The spread of a list, as R54 takes it, is within a tolerance when each pair is. -/
theorem spread_le_iff (cs : List Nat) (d : Nat) :
    cs.foldl max 0 - cs.foldl min (cs.foldl max 0) ≤ d ↔ ∀ x ∈ cs, ∀ y ∈ cs, x ≤ y + d := by
  constructor
  · intro h x hx y hy
    have hmax : x ≤ cs.foldl max 0 := le_foldl_max 0 hx
    have hmin : cs.foldl min (cs.foldl max 0) ≤ y := foldl_min_le _ hy
    omega
  · intro h
    rcases foldl_max_eq_or_mem cs 0 with hmax | hmax
    · omega
    · rcases foldl_min_eq_or_mem cs (cs.foldl max 0) with hmin | hmin
      · omega
      · have hd := h _ hmax _ hmin
        omega

/-- R54, read band by band. -/
theorem isCandidate_iff : isCandidate k fs = true ↔ k.enabled = true ∧
    (∀ (i : Nat) (b : Bounds) (f : Figure), k.bands[i]? = some b → fs[i]? = some f →
      b.lo ≤ f.strength ∧ f.strength ≤ b.hi) ∧
    (∀ (i j : Nat) (b d : Bounds) (f g : Figure), k.bands[i]? = some b → fs[i]? = some f → k.bands[j]? = some d →
      fs[j]? = some g → 0 < b.lo → 0 < d.lo → f.centre ≤ g.centre + k.tolerance) := by
  simp only [isCandidate, Bool.and_eq_true, List.all_eq_true, decide_eq_true_eq, spread_le_iff, List.forall_mem_map,
    and_assoc]
  refine and_congr_right fun _ => and_congr ⟨fun h i b f hb hf => ?_, fun h q hq => ?_⟩
    ⟨fun h i j b d f g hb hf hd hg hlo hlo' => ?_, fun h f hf g hg => ?_⟩
  · exact h (b, f) (mem_bandPairs.mpr ⟨i, hb, hf⟩)
  · obtain ⟨i, hb, hf⟩ := mem_bandPairs.mp hq
    exact h i q.1 q.2 hb hf
  · exact h f (mem_requiredFigures.mpr ⟨i, b, hb, hf, hlo⟩) g (mem_requiredFigures.mpr ⟨j, d, hd, hg, hlo'⟩)
  · obtain ⟨i, b, hb, hf, hlo⟩ := mem_requiredFigures.mp hf
    obtain ⟨j, d, hd, hg, hlo'⟩ := mem_requiredFigures.mp hg
    exact h i j b d f g hb hf hd hg hlo hlo'

/-! ### The mark centre -/

theorem strongest_mem {g : Figure} (h : strongest fs = some g) : g ∈ fs := by
  induction fs generalizing g with
  | nil => simp [strongest] at h
  | cons f r ih =>
    unfold strongest at h
    split at h
    · simp_all
    next x hx =>
      split at h
      · simp_all
      · exact List.mem_cons_of_mem _ (ih (Option.some.inj h ▸ hx))

/-- The strongest figure is the one above every figure before it and not below one behind it. -/
theorem strongest_of_append {f : Figure} {before behind : List Figure} (hb : ∀ g ∈ before, g.strength < f.strength)
    (ha : ∀ g ∈ behind, g.strength ≤ f.strength) : strongest (before ++ f :: behind) = some f := by
  induction before with
  | nil =>
    simp only [List.nil_append, strongest]
    split
    · rfl
    next g hg => rw [if_pos (ha g (strongest_mem hg))]
  | cons x r ih =>
    have hx : x.strength < f.strength := hb x List.mem_cons_self
    simp only [List.cons_append, strongest, ih fun g hg => hb g (List.mem_cons_of_mem _ hg)]
    rw [if_neg (by omega)]

/-- R55: the centre is that of the required band with the highest strength, the first of equals. -/
theorem candidateCentre_of_strongest {i : Nat} {b : Bounds} {f : Figure} (hb : k.bands[i]? = some b)
    (hf : fs[i]? = some f) (hlo : 0 < b.lo)
    (hmax : ∀ (j : Nat) (d : Bounds) (g : Figure), k.bands[j]? = some d → fs[j]? = some g → 0 < d.lo →
      g.strength ≤ f.strength ∧ (j < i → g.strength < f.strength)) : candidateCentre k fs = f.centre := by
  have hat : (bandPairs k fs)[i]? = some (b, f) := bandPairs_getElem?_iff.mpr ⟨hb, hf⟩
  obtain ⟨hi, hget⟩ := List.getElem?_eq_some_iff.mp hat
  have hsplit : bandPairs k fs = (bandPairs k fs).take i ++ (b, f) :: (bandPairs k fs).drop (i + 1) := by
    rw [← hget, ← List.drop_eq_getElem_cons hi, List.take_append_drop]
  have hreq : requiredFigures k fs =
      ((((bandPairs k fs).take i).filter (fun q => 0 < q.1.lo)).map fun q => q.2) ++
        f :: ((((bandPairs k fs).drop (i + 1)).filter (fun q => 0 < q.1.lo)).map fun q => q.2) := by
    conv_lhs => rw [requiredFigures, hsplit]
    simp [hlo]
  have hstrong : strongest (requiredFigures k fs) = some f := by
    rw [hreq]
    refine strongest_of_append (fun g hg => ?_) (fun g hg => ?_)
    · simp only [List.mem_map, List.mem_filter, decide_eq_true_eq, List.mem_take_iff_getElem] at hg
      obtain ⟨q, ⟨⟨j, hj, hq⟩, hd⟩, rfl⟩ := hg
      obtain ⟨hd', hg'⟩ := bandPairs_getElem?_iff.mp (List.getElem?_eq_some_iff.mpr ⟨by omega, hq⟩)
      exact (hmax j q.1 q.2 hd' hg' hd).2 (by omega)
    · simp only [List.mem_map, List.mem_filter, decide_eq_true_eq] at hg
      obtain ⟨q, ⟨hq, hd⟩, rfl⟩ := hg
      obtain ⟨j, hd', hg'⟩ := mem_bandPairs.mp (List.mem_of_mem_drop hq)
      exact (hmax j q.1 q.2 hd' hg' hd).1
  rw [candidateCentre, hstrong]

/-! ### The score -/

/-- R56: the margins of all bands of a class on a strip. -/
def margins (k : ClassEntry) (fs : List Figure) : List Nat :=
  (bandPairs k fs).flatMap (fun q => bandMargins q.1 q.2.strength)

theorem mem_margins {m : Nat} : m ∈ margins k fs ↔
    ∃ (i : Nat) (b : Bounds) (f : Figure), k.bands[i]? = some b ∧ fs[i]? = some f ∧
      ((0 < b.lo ∧ m = f.strength - b.lo) ∨ (b.hi < 1023 ∧ m = b.hi - f.strength)) := by
  simp only [margins, bandMargins, List.mem_flatMap, mem_bandPairs, List.mem_append, List.mem_ite_nil_right,
    List.mem_singleton]
  constructor
  · rintro ⟨⟨b, f⟩, ⟨i, hb, hf⟩, hm⟩
    exact ⟨i, b, f, hb, hf, hm⟩
  · rintro ⟨i, b, f, hb, hf, hm⟩
    exact ⟨(b, f), ⟨i, hb, hf⟩, hm⟩

theorem candidateScore_le {m : Nat} (h : m ∈ margins k fs) : candidateScore k fs ≤ m := foldl_min_le 1023 h

/-- With strengths in range every margin that applies is below 1,023, so the smallest is the score. -/
theorem candidateScore_mem (hs : ∀ f ∈ fs, f.strength ≤ 1023) (hne : margins k fs ≠ []) :
    candidateScore k fs ∈ margins k fs := by
  refine (foldl_min_eq_or_mem (margins k fs) 1023).resolve_left fun h => ?_
  obtain ⟨m, hm⟩ := List.exists_mem_of_ne_nil _ hne
  have hle : 1023 ≤ m := h ▸ foldl_min_le 1023 hm
  obtain ⟨i, b, f, -, hf, hcase⟩ := mem_margins.mp hm
  have hstrength := hs f (List.mem_of_getElem? hf)
  omega

end

/-! ### The candidates of a table -/

/-- The candidate that a class makes on a strip (R55, R56). -/
def candidateOf (n k : Nat) (e : ClassEntry) (strip : Nat) (fs : List Figure) : Candidate :=
  { index := k, entry := e, strip := strip, score := candidateScore e fs, centre := candidateCentre e fs,
    presentation := presentationOf n strip (candidateCentre e fs) }

theorem mem_candidates {n : Nat} {es : List ClassEntry} {figs : List (List Figure)} {c : Candidate} :
    c ∈ candidates n es figs ↔ ∃ (k : Nat) (e : ClassEntry) (strip : Nat) (fs : List Figure), 1 ≤ k ∧
      es[k - 1]? = some e ∧ figs[strip]? = some fs ∧ isCandidate e fs = true ∧ c = candidateOf n k e strip fs := by
  simp only [candidates, List.mem_flatMap, List.mem_filterMap, Option.ite_none_right_eq_some, Option.some.injEq]
  constructor
  · rintro ⟨⟨e, k⟩, hk, ⟨fs, strip⟩, hs, hc, rfl⟩
    obtain ⟨h1, he⟩ := List.mk_mem_zipIdx_iff_le_and_getElem?_sub.mp hk
    exact ⟨k, e, strip, fs, h1, he, List.mk_mem_zipIdx_iff_getElem?.mp hs, hc, rfl⟩
  · rintro ⟨k, e, strip, fs, h1, he, hs, hc, rfl⟩
    exact ⟨(e, k), List.mk_mem_zipIdx_iff_le_and_getElem?_sub.mpr ⟨h1, he⟩, (fs, strip),
      List.mk_mem_zipIdx_iff_getElem?.mpr hs, hc, rfl⟩

/-- The candidates of one class on one strip: at most the one it makes there. -/
theorem mem_candidates_at {n k strip : Nat} {es : List ClassEntry} {figs : List (List Figure)} {e : ClassEntry}
    {fs : List Figure} (h1 : 1 ≤ k) (he : es[k - 1]? = some e) (hs : figs[strip]? = some fs) (c : Candidate) :
    (c ∈ candidates n es figs ∧ c.index = k ∧ c.strip = strip) ↔
      isCandidate e fs = true ∧ c = candidateOf n k e strip fs := by
  rw [mem_candidates]
  constructor
  · rintro ⟨⟨k', e', strip', fs', -, he', hs', hc, rfl⟩, rfl, rfl⟩
    obtain rfl : e' = e := Option.some.inj (he'.symm.trans he)
    obtain rfl : fs' = fs := Option.some.inj (hs'.symm.trans hs)
    exact ⟨hc, rfl⟩
  · rintro ⟨hc, rfl⟩
    exact ⟨⟨k, e, strip, fs, h1, he, hs, hc, rfl⟩, rfl, rfl⟩

theorem presentationOf_eq (n strip centre : Nat) : presentationOf n strip centre =
    (if 2 * centre < n then (if strip = 0 then some .a else if strip = 3 then some .d else none)
      else (if strip = 1 then some .b else if strip = 2 then some .c else none)) := by
  unfold presentationOf
  split
  · split <;> simp_all
  · split <;> simp_all

/-! ### The best candidate -/

/-- R57: the keys in their order, each deciding between candidates equal in all keys before it. -/
theorem standsBefore_iff (a b : Candidate) : standsBefore a b = true ↔
    b.entry.priority < a.entry.priority ∨ (b.entry.priority = a.entry.priority ∧
      (b.score < a.score ∨ (b.score = a.score ∧ (a.index < b.index ∨ (a.index = b.index ∧ a.strip < b.strip))))) := by
  unfold standsBefore
  split
  · simp; omega
  · split
    · simp; omega
    · split <;> simp <;> omega

/-- R57 orders candidates totally up to equal keys: not standing before one another is transitive. -/
theorem not_standsBefore_trans {a b c : Candidate} (hab : ¬ standsBefore a b = true) (hbc : ¬ standsBefore b c = true) :
    ¬ standsBefore a c = true := by
  rw [standsBefore_iff] at *
  omega

theorem bestCandidate_eq_none_iff (cs : List Candidate) : bestCandidate cs = none ↔ cs = [] := by
  cases cs with
  | nil => simp [bestCandidate]
  | cons c r =>
    unfold bestCandidate
    split
    · simp
    · split <;> simp

/-- R57: the best candidate is a member before which no member stands. -/
theorem bestCandidate_spec {cs : List Candidate} {b : Candidate} (h : bestCandidate cs = some b) :
    b ∈ cs ∧ ∀ c ∈ cs, ¬ standsBefore c b = true := by
  have irrefl : ∀ c, ¬ standsBefore c c = true := fun c => by rw [standsBefore_iff]; omega
  induction cs generalizing b with
  | nil => simp [bestCandidate] at h
  | cons x r ih =>
    unfold bestCandidate at h
    split at h
    next hr =>
      obtain rfl := (bestCandidate_eq_none_iff r).mp hr
      obtain rfl := Option.some.inj h
      simpa using irrefl x
    next d hd =>
      obtain ⟨hmem, hfirst⟩ := ih hd
      split at h
      next hdx =>
        obtain rfl := Option.some.inj h
        have hxd : ¬ standsBefore x d = true := by
          rw [standsBefore_iff] at *
          omega
        exact ⟨List.mem_cons_of_mem _ hmem, List.forall_mem_cons.mpr ⟨hxd, hfirst⟩⟩
      next hdx =>
        obtain rfl := Option.some.inj h
        exact ⟨List.mem_cons_self,
          List.forall_mem_cons.mpr ⟨irrefl x, fun c hc => not_standsBefore_trans (hfirst c hc) hdx⟩⟩

/-! ### The verdict -/

/-- R56: the candidates that have a presentation. -/
def rankedCandidates (t : ClassTable) (n : Nat) (figs : List (List Figure)) : List Candidate :=
  (candidates n t.entries figs).filter (fun c => c.presentation.isSome)

section
variable {t : ClassTable} {n : Nat} {figs : List (List Figure)} {b : Candidate}

theorem mem_rankedCandidates {c : Candidate} :
    c ∈ rankedCandidates t n figs ↔ c ∈ candidates n t.entries figs ∧ c.presentation.isSome = true := List.mem_filter

theorem isRival_iff {margin : Nat} {c : Candidate} : isRival margin b c = true ↔
    c.presentation ≠ b.presentation ∧ c.entry.priority = b.entry.priority ∧ b.score ≤ c.score + margin := by
  simp only [isRival, Bool.and_eq_true, bne_iff_ne, beq_iff_eq, decide_eq_true_eq, and_assoc]

theorem judge_unranked (h : rankedCandidates t n figs = []) : judge t n figs =
    { kind := if (candidates n t.entries figs).isEmpty then .noMark else .offCorner, faced := none, detail := none } := by
  have hbest := (bestCandidate_eq_none_iff _).mpr h
  unfold rankedCandidates at hbest
  simp only [judge, hbest]

theorem judge_ranked (h : bestCandidate (rankedCandidates t n figs) = some b) : judge t n figs =
    if (rankedCandidates t n figs).any (isRival t.margin b) then { kind := .ambiguous, faced := none, detail := none }
    else { kind := .faced, faced := b.presentation.map (facedInfo t.generation b), detail := none } := by
  unfold rankedCandidates at *
  simp only [judge, h]

/-- A verdict that is not FACED carries its kind alone (R59). -/
theorem judge_faced_of_ne (h : (judge t n figs).kind ≠ .faced) : (judge t n figs).faced = none := by
  cases hb : bestCandidate (rankedCandidates t n figs) with
  | none => rw [judge_unranked ((bestCandidate_eq_none_iff _).mp hb)]
  | some b =>
    rw [judge_ranked hb] at h ⊢
    split
    · rfl
    next hr => simp [hr] at h

theorem judge_ambiguous {c : Candidate} (h : bestCandidate (rankedCandidates t n figs) = some b)
    (hc : c ∈ rankedCandidates t n figs) (hr : isRival t.margin b c = true) : (judge t n figs).kind = .ambiguous := by
  rw [judge_ranked h, if_pos (List.any_eq_true.mpr ⟨c, hc, hr⟩)]

theorem judge_faced (h : bestCandidate (rankedCandidates t n figs) = some b)
    (hno : ∀ c ∈ rankedCandidates t n figs, ¬ isRival t.margin b c = true) :
    (judge t n figs).kind = .faced ∧ ∃ p, b.presentation = some p ∧
      (judge t n figs).faced = some (facedInfo t.generation b p) := by
  obtain ⟨p, hp⟩ := Option.isSome_iff_exists.mp (mem_rankedCandidates.mp (bestCandidate_spec h).1).2
  have hany : ¬ (rankedCandidates t n figs).any (isRival t.margin b) = true := fun ha => by
    obtain ⟨c, hc, hr⟩ := List.any_eq_true.mp ha
    exact hno c hc hr
  rw [judge_ranked h, if_neg hany]
  exact ⟨rfl, p, hp, by rw [hp]; rfl⟩

end

end Sys2Proof.Machine

open Sys2Proof Sys2Proof.Machine

/-- Settles O29: the candidates by membership, the best one by the order of the keys, the verdict by the best one and its
rivals. -/
theorem bestCandidateAndVerdict : Obligations.BestCandidateAndVerdict := by
  refine ⟨fun n es figs k strip e fs h1 he hs => ⟨?_, fun c hc hk hstrip => ?_⟩,
    fun cs => ⟨bestCandidate_eq_none_iff cs, fun b hb => ⟨(bestCandidate_spec hb).1, fun c hc hne => ?_⟩⟩,
    fun t n figs => ⟨fun hnone => ?_, fun hne hoff => ?_, judge_faced_of_ne, fun c hc => ?_, fun b hb => ⟨?_, fun hno => ?_⟩⟩⟩
  · simp only [mem_candidates_at h1 he hs, ← isCandidate_iff, exists_and_left, exists_eq, and_true]
  · obtain ⟨-, rfl⟩ := (mem_candidates_at h1 he hs c).mp ⟨hc, hk, hstrip⟩
    refine ⟨rfl, fun i b f hb hf hlo hmax => candidateCentre_of_strongest hb hf hlo hmax, presentationOf_eq _ _ _,
      fun i b f hb hf => ⟨fun hlo => ?_, fun hhi => ?_⟩, fun hrange ⟨i, b, f, hb, hf, hbound⟩ => ?_⟩
    · exact candidateScore_le (mem_margins.mpr ⟨i, b, f, hb, hf, .inl ⟨hlo, rfl⟩⟩)
    · exact candidateScore_le (mem_margins.mpr ⟨i, b, f, hb, hf, .inr ⟨hhi, rfl⟩⟩)
    · refine mem_margins.mp (candidateScore_mem hrange ?_)
      rcases hbound with hlo | hhi
      · exact List.ne_nil_of_mem (mem_margins.mpr ⟨i, b, f, hb, hf, .inl ⟨hlo, rfl⟩⟩)
      · exact List.ne_nil_of_mem (mem_margins.mpr ⟨i, b, f, hb, hf, .inr ⟨hhi, rfl⟩⟩)
  · have hnot := (bestCandidate_spec hb).2 c hc
    rw [standsBefore_iff] at hnot
    omega
  · rw [judge_unranked (by rw [rankedCandidates, hnone]; rfl), hnone]
    rfl
  · rw [judge_unranked (List.filter_eq_nil_iff.mpr fun c hc => by simp [hoff c hc])]
    simp [hne]
  · obtain ⟨k, e, strip, fs, h1, he, -, hcand, rfl⟩ := mem_candidates.mp hc
    exact ⟨(isCandidate_iff.mp hcand).1, h1, he⟩
  · rintro ⟨c, hc, hsome, hpres, hprio, hscore⟩
    exact judge_ambiguous hb (mem_rankedCandidates.mpr ⟨hc, hsome⟩) (isRival_iff.mpr ⟨hpres, hprio, hscore⟩)
  · refine judge_faced hb fun c hc hr => ?_
    obtain ⟨hmem, hsome⟩ := mem_rankedCandidates.mp hc
    obtain ⟨hpres, hprio, hscore⟩ := isRival_iff.mp hr
    have hlt := hno c hmem hsome hpres hprio
    omega
end

