-- ==== Sys2Proof/Proofs/ClassAudit.lean ====
section
/-! Idle work (R63, R167) and the class audit: the order that starts it (R61, R166), and the completed evaluation of a class
(R62, R63, R171). -/

namespace Sys2Proof.Machine

/-! ### Idle work -/

section
variable {s : State}

theorem idleWorkStart_of (hj : s.msc.jobs = []) (hs : s.msc.scoring = none) (hr : s.msc.idleRequests ≠ [])
    (hi : s.msc.idleRunning = false) : exec .idleWorkStart s = .next (settle s (startIdle s)) :=
  event_of _ _ (by simp [hj, hs, hr, hi])

theorem startIdle_msc : (startIdle s).msc = { s.msc with idleRunning := true } := by
  unfold startIdle
  dsimp only
  split <;> rfl

theorem startIdle_tests : (startIdle s).hmu.tests = s.hmu.tests := by
  unfold startIdle
  dsimp only
  split <;> rfl

/-- The class of an audit is under evaluation from the start of its idle work (log entry 72). -/
theorem startIdle_audit {r : IdleRequest} {rest : List IdleRequest} (h : s.msc.idleRequests = r :: rest) :
    (startIdle s).hmu.audit =
      if r = .audit then s.hmu.audit.map (fun a => { a with begun := true }) else s.hmu.audit := by
  unfold startIdle
  rw [h]
  cases r <;> simp

end

/-! ### The start of an audit -/

section
variable {b : OrderBlock} {s : State} {n a : Nat} {spans : List (Nat × Nat)}

theorem selfTestClassAudit_of {lane : Nat} (h : Taken b (.selfTest .classAudit lane n spans a) s) :
    exec .selfTestClassAudit s = .next (settle s (startAudit n spans a s)) := by
  have he : exec .selfTestClassAudit s = execSelfTestClassAudit s := rfl
  rw [he]
  unfold execSelfTestClassAudit
  rw [currentBody_of_taken h]
  rfl

theorem startAudit_busy (hn : n ≤ 4) (h : s.hmu.audit.isSome = true) :
    startAudit n spans a s = finishWith .refused .busy none [] s := by
  unfold startAudit
  rw [if_neg (by omega), if_pos h]
  rfl

theorem startAudit_notConfigured (hn : n ≤ 4) (h : s.hmu.audit = none) (hc : s.msc.current = none) :
    startAudit n spans a s = finishWith .refused .notConfigured none [] s := by
  unfold startAudit
  rw [if_neg (by omega), h, hc]
  rfl

/-- An audit of a set that is not empty waits TAKEN and asks for idle work (R61, R166). -/
theorem startAudit_begins {c : ClassTable} (hn : n ≤ 4) (h : s.hmu.audit = none) (hc : s.msc.current = some c)
    (hspans : ∀ q ∈ spans.take n, q.1 ≤ q.2 ∧ 1 ≤ q.1 ∧ q.2 ≤ c.entries.length) (hset : auditSet c (spans.take n) ≠ []) :
    startAudit n spans a s = orderTaken .audit (askIdle .audit
      (updHmu (fun m => { m with audit := some (newAudit c.generation (auditSet c (spans.take n)) a) }) s)) := by
  have hok : ¬ (spans.take n).any (fun q => !spanOk c.entries.length q) = true := by
    simp only [List.any_eq_true, not_exists, not_and, Bool.not_eq_true', Bool.not_eq_false]
    intro q hq
    obtain ⟨h1, h2, h3⟩ := hspans q hq
    simp [spanOk, h1, h2, h3]
  have hleft : (newAudit c.generation (auditSet c (spans.take n)) a).left.isEmpty = false :=
    List.isEmpty_eq_false_iff.mpr hset
  unfold startAudit
  rw [if_neg (by omega), h, hc]
  dsimp only
  rw [if_neg hok, hleft]
  rfl

end

/-! ### The end of an audit -/

section
variable {s : State} {a : Audit} (r : TestResult)

theorem endAudit_done (h : s.hmu.audit = some a) (hr : r ≠ .abortedByFault) : endAudit r s =
    raise .testDone (endLong .audit .done .ok (some (testResultCode r)) (auditRecords a r s)) := by
  unfold endAudit
  rw [h]
  dsimp only
  rw [if_neg hr]

theorem auditRecords_msc : (auditRecords a r s).msc = (withdrawIdle .audit s).msc :=
  emit_leaves _ _ _ _ _ _ _ .scorer (by simp)

end

/-! ### The evaluation of a class -/

/-- The state in which a class's result entry has been written and the audit has gone on (R63). -/
def auditWritten (a : Audit) (s : State) : State :=
  updHmu (fun h => { h with audit := some (auditStep a) })
    (writeBytes a.nextAddr (auditEntry (a.left.headD 0) (auditResult (a.left.headD 0) s)) (idleDone s))

section
variable {s : State} {a : Audit}

theorem auditEvalComplete_of (h : s.hmu.audit = some a) (hi : s.msc.idleRunning = true)
    (hr : s.msc.idleRequests.head? = some .audit) :
    exec .auditEvalComplete s = .next (settle s (completeAudit a s)) := by
  have he : exec .auditEvalComplete s = execAuditEvalComplete s := rfl
  rw [he]
  unfold execAuditEvalComplete
  rw [h]
  exact event_of _ _ (by simp [idleOn, hi, hr])

theorem completeAudit_allowed (hw : allowed .snapshotWrite a.nextAddr 4 s = true) : completeAudit a s =
    if (auditStep a).left.isEmpty then endAudit .pass (auditWritten a s) else askIdle .audit (auditWritten a s) := by
  have hw' : allowed .snapshotWrite a.nextAddr 4 (idleDone s) = true := hw
  unfold completeAudit
  dsimp only
  rw [if_pos hw']
  rfl

theorem auditResult_of {k : Nat} {c : ClassTable} {x : ClassEntry} (hc : s.msc.current = some c)
    (hx : c.entries[k - 1]? = some x) : auditResult k s = auditWinner c x := by
  simp only [auditResult, hc, hx]

theorem auditWritten_mem {k : Nat} {left : List Nat} {c : ClassTable} {x : ClassEntry} (hl : a.left = k :: left)
    (hc : s.msc.current = some c) (hx : c.entries[k - 1]? = some x) :
    (auditWritten a s).mem = memWriteN s.mem a.nextAddr (auditEntry k (auditWinner c x)) := by
  rw [← auditResult_of hc hx]
  unfold auditWritten
  rw [hl]
  rfl

theorem auditStep_eq {k : Nat} {left : List Nat} (hl : a.left = k :: left) : auditStep a =
    { a with left := left, nextAddr := a.nextAddr + 4, lastWritten := k,
             tens := (10 * left.length + a.total - 1) / a.total } := by
  simp [auditStep, hl]

/-- An audit that passes in its own event is over, its long order DONE with that result (R171, R172). -/
theorem auditPassed {u : State} {o : LongOrder} (h : u.hmu.audit = some a) (ho : u.ocu.longList = [o])
    (hk : o.key = .audit) (hw : allowed .orderStateWrite (o.addr + 12) 8 u = true) :
    ∃ t, settle s (endAudit .pass u) = t ∧
      t.mem = memWriteN u.mem (o.addr + 12)
        (orderStateBytes .done (resultCode .ok) (testResultCode .pass) u.clock.ms.toNat) ∧
      t.ocu = { u.ocu with longList := [], completed := satAdd32 u.ocu.completed 1, lastOrder := o.addr } ∧
      t.hmu.audit = none ∧ t.msc.idleRequests = u.msc.idleRequests.filter (fun q => q != .audit) ∧
      reported .testDone t ∧ Logged .classAudit none .pass u.clock.ms t := by
  have hkept : OrdersKept u (auditRecords a .pass u) := auditRecords_ordersKept _
  obtain ⟨d, n, r, hd, hend⟩ := endLong_single .done .ok (some (testResultCode .pass))
    (by rw [hkept.ocu, ho]) (by rw [hkept.allowed, hw])
  rw [hk] at hend
  have hover : endAudit .pass u = raise .testDone
      (endLong .audit .done .ok (some (testResultCode .pass)) (auditRecords a .pass u)) := endAudit_done _ h (by decide)
  refine ⟨_, rfl, ?_, ?_, ?_, ?_, reported_settle _ _ ?_, logged_congr ?_ ?_ (auditRecords_logged .pass (a := a))⟩
  · rw [settle_mem, hover, hend, raise_mem, hkept.mem, hkept.clock, hd _ rfl]
  · rw [settle_ocu, hover, hend, raise_ocu, hkept.ocu]
  · rw [settle_hmu, hover, hend]
    rfl
  · rw [settle_msc, hover, hend, raise_msc, auditRecords_msc]
    rfl
  · rw [hover]
    exact raisedIn_raise _ _
  · rw [settle_hmu, hover, hend, raise_hmu]
  · rw [settle_hmu, hover, hend, raise_hmu]

end

end Sys2Proof.Machine

open Sys2Proof Sys2Proof.Machine

/-- Settles O31. A start is the TAKEN write after the audit is set up; an evaluation writes its entry first, and then asks
for the next class or ends the audit. -/
theorem idleWorkAndTheAudit : Obligations.IdleWorkAndTheAudit := by
  refine ⟨fun s r rest hj hs hr hi => ?_, fun b s lane n a spans h hw hn => ⟨fun c hc hno hspans hset => ?_,
    fun hno hc => ?_, fun hsome => ?_⟩, fun s a k left c x o entry ha hl hi hr hc hx hw ho hk hwo hentry => ?_⟩
  · refine ⟨_, idleWorkStart_of hj hs (by simp [hr]) hi, ?_, ?_, ?_⟩
    · rw [settle_msc, startIdle_msc]
    · rw [settle_hmu, startIdle_tests]
    · rw [settle_hmu, startIdle_audit hr]
  · obtain ⟨v, d, m, ht⟩ := orderTaken_allowed .audit (b := b) (s := askIdle .audit (updHmu (fun m =>
      { m with audit := some (newAudit c.generation (auditSet c (spans.take n)) a) }) s)) h.1 hw
    refine ⟨_, by rw [selfTestClassAudit_of h, startAudit_begins hn hno hc hspans hset, ht], ?_, ?_, ?_, ?_⟩
    · rw [settle_hmu]
      rfl
    · rw [settle_msc]
      rfl
    · rw [settle_ocu]
    · rw [settle_ocu]
      rfl
  · exact ⟨_, none, by rw [selfTestClassAudit_of h, startAudit_notConfigured hn hno hc],
      ended_of_kept _ _ (only_refl _ s) h.1 hw, finished_hmu _ _ _ h.1 hw⟩
  · exact ⟨_, none, by rw [selfTestClassAudit_of h, startAudit_busy hn hsome],
      ended_of_kept _ _ (only_refl _ s) h.1 hw, finished_hmu _ _ _ h.1 hw⟩
  · have hmem : (auditWritten a s).mem = memWriteN s.mem a.nextAddr entry := by
      rw [auditWritten_mem hl hc hx, hentry]
      rfl
    have hidle : (auditWritten a s).msc.idleRequests = [] := by
      show s.msc.idleRequests.drop 1 = []
      rw [hr]
      rfl
    refine ⟨_, by rw [auditEvalComplete_of ha hi (by rw [hr]; rfl), completeAudit_allowed hw, auditStep_eq hl],
      fun hleft => ?_, fun hleft => ?_⟩
    · rw [if_neg (by simpa using hleft), settle_mem, settle_hmu, settle_msc]
      refine ⟨hmem, congrArg some (auditStep_eq hl), ?_, rfl⟩
      show (auditWritten a s).msc.idleRequests ++ [.audit] = [.audit]
      rw [hidle]
      rfl
    · obtain ⟨t, ht, h1, h2, h3, h4, h5, h6⟩ := auditPassed (s := s) (u := auditWritten a s) rfl ho hk hwo
      obtain ⟨e, he, hkind, -, hres, -⟩ := h6
      rw [if_pos (by simpa using hleft), ht]
      rw [hmem] at h1
      rw [hidle] at h4
      exact ⟨h1, by rw [h2], h3, by rw [h2], by rw [h2]; rfl, h4, h5, e, he, hkind, hres⟩
end

