-- ==== Sys2Proof/Proofs/TablesAndGeometry.lean ====
section
/-! Class tables, taken at once or staged (R47 to R50), the staged table that applies (R50, R64), and the geometry of a lane
(R119, R190). -/

namespace Sys2Proof.Machine

/-! ### A refused order -/

section
variable {b : OrderBlock} {s : State}

/-- An order refused at once changes nothing beside its order: no table, no geometry, no pocket. -/
theorem refused_settle (code : ResultCode) (hb : s.ocu.current = some b)
    (hw : allowed .orderStateWrite (b.addr + 12) 8 s = true) :
    Ended b .refused code none s.mem s (settle s (finishWith .refused code none [] s)) ∧
      (settle s (finishWith .refused code none [] s)).msc = s.msc ∧
      (settle s (finishWith .refused code none [] s)).geom = s.geom ∧
      (settle s (finishWith .refused code none [] s)).pkr = s.pkr := by
  obtain ⟨d, n, -, h⟩ := finishWith_allowed .refused code none hb hw
  refine ⟨ended_of_kept _ _ (only_refl _ s) hb hw, ?_, ?_, ?_⟩ <;> simp [h]

end

/-! ### The checks of a class table -/

section
variable {b : OrderBlock} {s : State} {a n mode : Nat}

theorem loadClasses_of (h : Taken b (.loadClasses a n mode) s) :
    exec .loadClasses s = .next (settle s (loadClasses a n mode s)) := by
  have he : exec .loadClasses s = execLoadClasses s := rfl
  rw [he]
  unfold execLoadClasses
  rw [currentBody_of_taken h]
  rfl

theorem tableRead_allowed (h : allowed .tableRead a n s = true) : tableRead a n s = some (readBytes a n s) := by
  unfold tableRead
  rw [if_pos h]

section
variable (hr : allowed .tableRead a (8 + 24 * n) s = true) (h1 : 1 ≤ n) (h64 : n ≤ 64)
include hr h1 h64

theorem loadClasses_badChecksum (hk : checksumOk (readBytes a (8 + 24 * n) s) = false) :
    loadClasses a n mode s = finishWith .refused .badChecksum none [] s := by
  have hrange : inRange 1 64 n = true := by simp [inRange, h1, h64]
  unfold loadClasses
  rw [tableRead_allowed hr]
  dsimp only
  rw [hrange, hk]
  rfl

/-- An image that passes the checks meets the mode and a table already staged (R47). -/
theorem loadClasses_checked (hk : checksumOk (readBytes a (8 + 24 * n) s) = true)
    (hf : firstBad (classTableFields n (readBytes a (8 + 24 * n) s)) = none) (hm : mode ≤ 1) :
    loadClasses a n mode s = if s.msc.staged.isSome then finishWith .refused .busy none [] s
      else acceptTable n mode (readBytes a (8 + 24 * n) s) s := by
  have hrange : inRange 1 64 n = true := by simp [inRange, h1, h64]
  unfold loadClasses
  rw [tableRead_allowed hr]
  dsimp only
  rw [hrange, hk, hf]
  dsimp only
  rw [if_neg (by decide), if_neg (by decide), if_neg (by omega)]
  rfl

end

end

/-! ### The gap -/

theorem noneScanned_iff (l : LaneId) (s : State) :
    noneScanned l s = true ↔ ∀ e ∈ (s.track.get l).queue, e.stage ≠ .entering ∧ e.stage ≠ .scanning := by
  simp only [noneScanned, List.all_eq_true, Bool.and_eq_true, bne_iff_ne]

theorem atGap_iff (s : State) : atGap s = true ↔ s.msc.jobs = [] ∧ s.msc.scoring = none ∧
    ∀ l, ∀ e ∈ (s.track.get l).queue, e.stage ≠ .entering ∧ e.stage ≠ .scanning := by
  have hlanes : (∀ l, noneScanned l s = true) ↔ noneScanned .lane0 s = true ∧ noneScanned .lane1 s = true :=
    ⟨fun h => ⟨h _, h _⟩, fun h l => by cases l; exacts [h.1, h.2]⟩
  simp only [← noneScanned_iff, hlanes, atGap, Bool.and_eq_true, List.isEmpty_iff, Option.isNone_iff_eq_none, and_assoc]

/-! ### A table that becomes current -/

/-- The end of an audit, where one runs, leaves none, and of the scorer the tables and the jobs (R171, R172). -/
theorem endAudit_leaves {r : TestResult} (hr : r ≠ .abortedByFault) (s : State) : (endAudit r s).hmu.audit = none ∧
    (endAudit r s).msc.current = s.msc.current ∧ (endAudit r s).msc.staged = s.msc.staged ∧
    (endAudit r s).msc.jobs = s.msc.jobs := by
  cases ha : s.hmu.audit with
  | none =>
    have hsame : endAudit r s = s := by
      unfold endAudit
      rw [ha]
    rw [hsame]
    exact ⟨ha, rfl, rfl, rfl⟩
  | some a =>
    have hend : Only (fun p => p ∈ .raised :: orderParts) (auditRecords a r s) (endAudit r s) := by
      rw [endAudit_done r ha hr]
      apply raise_only
      · apply endLong_only (h := only_refl _ _) <;> simp [orderParts]
      · simp
    obtain ⟨-, -, -, haudit⟩ := hend .tests (by simp [orderParts])
    have hmsc := hend .scorer (by simp [orderParts])
    rw [haudit, hmsc, auditRecords_msc]
    exact ⟨rfl, rfl, rfl, rfl⟩

/-- With no audit to end, a table that becomes current changes nothing else (R64). -/
theorem tableCurrent_noAudit (k : ClassTable) {s : State} (h : s.hmu.audit = none) :
    tableCurrent k s = updMsc (fun m => { m with current := some k }) s := by
  unfold tableCurrent endAudit
  rw [updMsc_hmu, h]

/-! ### A table that is taken -/

/-- R48: the table that an accepted image makes, with the next generation. -/
def nextTable (n : Nat) (image : List Byte) (s : State) : ClassTable := classTableOf (nextGeneration s.msc.lastGen) n image

/-- R48: the scorer with the accepted table current. -/
def tableTaken (n : Nat) (image : List Byte) (s : State) : State :=
  updMsc (fun m => { m with lastGen := nextGeneration s.msc.lastGen, current := some (nextTable n image s) }) s

/-- R50: the scorer with the accepted table staged. -/
def tableStaged (n : Nat) (image : List Byte) (s : State) : State :=
  updMsc (fun m => { m with lastGen := nextGeneration s.msc.lastGen, staged := some (nextTable n image s) }) s

section
variable {b : OrderBlock} {s : State} {n mode : Nat} {image : List Byte}

theorem acceptTable_now (h : mode = 0 ∨ atGap s = true) (ha : s.hmu.audit = none) :
    acceptTable n mode image s = finishWith .done .ok none [] (tableTaken n image s) := by
  unfold acceptTable
  dsimp only
  rw [if_pos h, tableCurrent_noAudit]
  · rfl
  · exact ha

theorem acceptTable_waits (hm : mode ≠ 0) (h : ¬ atGap s = true) :
    acceptTable n mode image s = orderTaken .staged (tableStaged n image s) := by
  unfold acceptTable
  dsimp only
  rw [if_neg (by simp [hm, h])]
  rfl

/-- A table taken at once is current when its order is DONE, and its generation is the last given (R48, R50). -/
theorem tableTaken_settle (h : mode = 0 ∨ atGap s = true) (ha : s.hmu.audit = none) (hb : s.ocu.current = some b)
    (hw : allowed .orderStateWrite (b.addr + 12) 8 s = true) :
    Ended b .done .ok none s.mem s (settle s (acceptTable n mode image s)) ∧
      (settle s (acceptTable n mode image s)).msc =
        { s.msc with lastGen := nextGeneration s.msc.lastGen, current := some (nextTable n image s) } := by
  have hkept : OrdersKept s (tableTaken n image s) := updMsc_only _ (only_refl _ s) (by simp)
  rw [acceptTable_now h ha]
  exact ⟨ended_of_kept _ _ hkept hb hw,
    finished_only s .done .ok none (tableTaken n image s) .scorer (by simp [eventEnd, orderParts])⟩

end

/-! ### The staged table -/

section
variable {s : State} {k : ClassTable}

theorem stagedTableApply_of (hk : s.msc.staged = some k) (h : atGap s = true) :
    exec .stagedTableApply s = .next (settle s (applyStaged k s)) := by
  have he : exec .stagedTableApply s = execStagedTableApply s := rfl
  rw [he]
  unfold execStagedTableApply
  rw [hk]
  exact event_of _ _ h

theorem applyStaged_leaves : Only (fun p => p ∈ .raised :: orderParts)
    (tableCurrent k (updMsc (fun m => { m with staged := none }) s)) (applyStaged k s) := by
  apply endLong_only (h := only_refl _ _) <;> simp [orderParts]

/-- The order of the staged table is DONE in the event in which the table applies, with no audit to end (R50). -/
theorem applyStaged_order {o : LongOrder} (ha : s.hmu.audit = none) (ho : s.ocu.longList = [o]) (hkey : o.key = .staged)
    (hw : allowed .orderStateWrite (o.addr + 12) 8 s = true) : ∃ d,
      (applyStaged k s).mem = memWriteN s.mem (o.addr + 12) (orderStateBytes .done 0 d s.clock.ms.toNat) ∧
      (applyStaged k s).ocu =
        { s.ocu with longList := [], completed := satAdd32 s.ocu.completed 1, lastOrder := o.addr } := by
  obtain ⟨d, n, r, -, hend⟩ := endLong_single .done .ok none (o := o)
    (s := updMsc (fun m => { m with current := some k }) (updMsc (fun m => { m with staged := none }) s)) ho hw
  unfold applyStaged
  rw [tableCurrent_noAudit, ← hkey, hend]
  · exact ⟨d, rfl, rfl⟩
  · exact ha

end

/-! ### The geometry -/

/-- R190: the lane with its geometry replaced and its fire histories emptied. -/
def geometryReplaced (l : LaneId) (g : Geometry) (s : State) : State :=
  allGates.foldl (fun s x => updChannel l x (fun c => { c with history := [] }) s)
    { s with geom := s.geom.upd l (fun _ => g) }

/-- R119: the pockets have taken their capacities together, and the flags of each have followed. -/
def capacitiesFollowed (l : LaneId) (g : Geometry) (s : State) : State :=
  let t := (allPockets.zip g.capacities).foldl (fun s q => setCapacity l q.1 q.2 s) (geometryReplaced l g s)
  allPockets.foldl (fun t p => followCapacity l p (atCapacity l p s) t) t

section
variable (l : LaneId) (g : Geometry) (s : State)

theorem acceptGeometry_eq : acceptGeometry l g s = finishWith .done .ok none [] (capacitiesFollowed l g s) := rfl

theorem geometryReplaced_only : Only (fun p => p = .geom l ∨ p = .gates l) s (geometryReplaced l g s) := by
  refine only_foldl _ _ (fun p hp => ?_) (fun u x h => updChannel_only l x _ h (Or.inr rfl))
  cases p <;> simp_all [agree]
  rename_i k
  exact PerLane.get_upd_other _ _ hp

theorem geometryReplaced_geometry : geometry l (geometryReplaced l g s) = g := by
  have hgates : Only (fun p => p = .gates l) { s with geom := s.geom.upd l (fun _ => g) } (geometryReplaced l g s) :=
    only_foldl _ _ (only_refl _ _) (fun u x h => updChannel_only l x _ h rfl)
  have hgeom : geometry l (geometryReplaced l g s) = (s.geom.upd l (fun _ => g)).get l := hgates (.geom l) (by simp)
  rw [hgeom, PerLane.get_upd_self]

theorem geometryReplaced_history (x : Gate) : (channel l x (geometryReplaced l g s)).history = [] := by
  unfold geometryReplaced
  rw [channel_foldl l x _ _ _ (by decide), if_pos (mem_allGates x)]

theorem capacitiesFollowed_only : Only (fun p => p ∈ [.raised, .pockets l, .lane l, .journal]) (geometryReplaced l g s)
    (capacitiesFollowed l g s) := by
  refine only_foldl _ _ (only_foldl _ _ (only_refl _ _) fun u q h => ?_) fun u p h => ?_
  · exact setCapacity_only l q.1 q.2 h (by simp)
  · apply followCapacity_only (h := h) <;> simp

theorem capacitiesFollowed_ordersKept : OrdersKept s (capacitiesFollowed l g s) :=
  only_trans (only_mono (geometryReplaced_only l g s) (fun p hp => by rcases hp with rfl | rfl <;> simp))
    (only_mono (capacitiesFollowed_only l g s) (fun p hp => by
      simp only [List.mem_cons, List.not_mem_nil, or_false] at hp
      rcases hp with rfl | rfl | rfl | rfl <;> simp))

/-- Beside its order, an accepted geometry changes only the lane's geometry, gates, pockets and record. -/
theorem acceptGeometry_leaves (old : State) : Only (fun p => p ∈ eventEnd ∨
      p ∈ [.geom l, .gates l, .pockets l, .lane l] ++ orderParts) s (settle old (acceptGeometry l g s)) := by
  refine settle_only old ?_ (fun p hp => Or.inl hp)
  apply acceptGeometry_only (h := only_refl _ _) <;> simp [eventEnd, orderParts]

/-- What the event of an accepted geometry leaves of what R190 replaces. -/
theorem acceptGeometry_replaces (old : State) : geometry l (settle old (acceptGeometry l g s)) = g ∧
    ∀ x, (channel l x (settle old (acceptGeometry l g s))).history = [] := by
  have hfin : changesOnly orderParts (capacitiesFollowed l g s) (settle old (acceptGeometry l g s)) :=
    finished_only old .done .ok none _
  have hcap := capacitiesFollowed_only l g s
  have hgeom : geometry l (settle old (acceptGeometry l g s)) = geometry l (geometryReplaced l g s) :=
    (hfin (.geom l) (by simp [eventEnd, orderParts])).trans (hcap (.geom l) (by simp))
  have hgates : (settle old (acceptGeometry l g s)).gsq.get l = (geometryReplaced l g s).gsq.get l :=
    (hfin (.gates l) (by simp [eventEnd, orderParts])).trans (hcap (.gates l) (by simp))
  exact ⟨hgeom.trans (geometryReplaced_geometry l g s),
    fun x => by rw [channel_congr l x hgates, geometryReplaced_history]⟩

theorem acceptGeometry_ended {b : OrderBlock} (hb : s.ocu.current = some b)
    (hw : allowed .orderStateWrite (b.addr + 12) 8 s = true) :
    Ended b .done .ok none s.mem s (settle s (acceptGeometry l g s)) := by
  rw [acceptGeometry_eq]
  exact ended_of_kept _ _ (capacitiesFollowed_ordersKept l g s) hb hw

end

section
variable {b : OrderBlock} {s : State} {a : Nat} {l : LaneId}

theorem loadGeometry_of {i : Nat} (h : Taken b (.loadGeometry a i) s) :
    exec .loadGeometry s = .next (settle s (loadGeometry a i s)) := by
  have he : exec .loadGeometry s = execLoadGeometry s := rfl
  rw [he]
  unfold execLoadGeometry
  rw [currentBody_of_taken h]
  rfl

theorem loadGeometry_badChecksum (hr : allowed .tableRead a 168 s = true)
    (hk : checksumOk (readBytes a 168 s) = false) :
    loadGeometry a (laneCode l) s = finishWith .refused .badChecksum none [] s := by
  unfold loadGeometry
  rw [laneOfIndex_laneCode]
  dsimp only
  rw [tableRead_allowed hr]
  dsimp only
  rw [hk]
  rfl

theorem loadGeometry_accepts (hr : allowed .tableRead a 168 s = true) (hk : checksumOk (readBytes a 168 s) = true)
    (hm : laneMode l s = .off ∨ laneMode l s = .ready ∨ laneMode l s = .standby)
    (hf : firstBad (geometryFields l (readBytes a 168 s) s) = none) :
    loadGeometry a (laneCode l) s = acceptGeometry l (geometryOf (readBytes a 168 s)) s := by
  have htakes : takesGeometry (laneMode l s) = true := by rcases hm with h | h | h <;> rw [h] <;> rfl
  unfold loadGeometry
  rw [laneOfIndex_laneCode]
  dsimp only
  rw [tableRead_allowed hr]
  dsimp only
  rw [hk, htakes, hf]
  rfl

end

end Sys2Proof.Machine

open Sys2Proof Sys2Proof.Machine

/-- Settles O57. Each order is refused by `refused_settle`, or is its own work and then the end, or the wait, of its
order. -/
theorem tablesAndGeometry : Obligations.TablesAndGeometry := by
  refine ⟨fun b s hw => ⟨fun a n h hr h1 h64 => ⟨fun hk hf hstaged ha => ?_, fun hk => ?_⟩,
    fun a n mode h hr h1 h64 hk hf => ⟨fun hm hstaged => ?_, fun hm hstaged ha hjobs hscoring hscan => ?_,
      fun hm hstaged hbusy => ?_⟩,
    fun a l h hr => ⟨fun hk hm hf => ?_, fun hk => ?_⟩⟩, fun s k hk hjobs hscoring hscan => ?_⟩
  · obtain ⟨hend, hmsc⟩ := tableTaken_settle (n := n) (image := readBytes a (8 + 24 * n) s) (mode := 0) (.inl rfl) ha h.1 hw
    refine ⟨_, none, by rw [loadClasses_of h, loadClasses_checked hr h1 h64 hk hf (by omega), hstaged]; rfl, hend, ?_⟩
    rw [hmsc]
    exact ⟨rfl, rfl, rfl, rfl⟩
  · obtain ⟨hend, hmsc, -, -⟩ := refused_settle .badChecksum h.1 hw
    exact ⟨_, none, by rw [loadClasses_of h, loadClasses_badChecksum hr h1 h64 hk], hend, hmsc⟩
  · obtain ⟨hend, hmsc, -, -⟩ := refused_settle .busy h.1 hw
    exact ⟨_, none, by rw [loadClasses_of h, loadClasses_checked hr h1 h64 hk hf hm, if_pos hstaged], hend, hmsc⟩
  · subst hm
    obtain ⟨hend, hmsc⟩ := tableTaken_settle (n := n) (image := readBytes a (8 + 24 * n) s) (mode := 1)
      (.inr ((atGap_iff s).mpr ⟨hjobs, hscoring, hscan⟩)) ha h.1 hw
    refine ⟨_, none, by rw [loadClasses_of h, loadClasses_checked hr h1 h64 hk hf le_rfl, hstaged]; rfl, hend, ?_⟩
    rw [hmsc]
    exact ⟨hstaged, rfl⟩
  · subst hm
    have hgap : ¬ atGap s = true := fun hg => by
      obtain ⟨hjobs, hscoring, hscan⟩ := (atGap_iff s).mp hg
      rcases hbusy with hj | hs | ⟨l, e, he, hstage⟩
      · exact hj hjobs
      · simp [hscoring] at hs
      · exact hstage.elim (hscan l e he).1 (hscan l e he).2
    obtain ⟨c, x, m, ht⟩ := orderTaken_allowed .staged (b := b)
      (s := tableStaged n (readBytes a (8 + 24 * n) s) s) h.1 hw
    refine ⟨_, by rw [loadClasses_of h, loadClasses_checked hr h1 h64 hk hf le_rfl, hstaged, if_neg (by simp),
      acceptTable_waits (by decide) hgap, ht], ?_, ?_, ?_, ?_, ?_, ?_, c, x, m, ?_⟩
    · rw [settle_msc]
      rfl
    · rw [settle_ocu]
    · rw [settle_ocu]
    · rw [settle_ocu]
      rfl
    · rw [settle_ocu]
      rfl
    · rw [settle_hmu]
      rfl
    · rw [settle_mem]
      rfl
  · obtain ⟨hgeom, hhist⟩ := acceptGeometry_replaces l (geometryOf (readBytes a 168 s)) s s
    have hleaves := acceptGeometry_leaves l (geometryOf (readBytes a 168 s)) s s
    refine ⟨_, none, by rw [loadGeometry_of h, loadGeometry_accepts hr hk hm hf],
      acceptGeometry_ended l _ s h.1 hw, hgeom, hhist, ?_, ?_, fun k hkl => ?_⟩
    · exact perLane_ext fun k => hleaves (.track k) (by simp [orderParts])
    · exact perLane_ext fun k => hleaves (.belt k) (by simp [orderParts])
    · exact hleaves (.geom k) (by simp [eventEnd, orderParts, hkl])
  · obtain ⟨hend, -, hgeom, hpkr⟩ := refused_settle .badChecksum h.1 hw
    exact ⟨_, none, by rw [loadGeometry_of h, loadGeometry_badChecksum hr hk], hend, hgeom, hpkr⟩
  · obtain ⟨haudit, hcur, hstaged, hjobs'⟩ := endAudit_leaves (r := .tableChanged) (by decide)
      (updMsc (fun m => { m with current := some k }) (updMsc (fun m => { m with staged := none }) s))
    have hleaves := applyStaged_leaves (s := s) (k := k)
    obtain ⟨-, -, -, haudit'⟩ := hleaves .tests (by simp [orderParts])
    have hmsc := hleaves .scorer (by simp [orderParts])
    refine ⟨_, stagedTableApply_of hk ((atGap_iff s).mpr ⟨hjobs, hscoring, hscan⟩), ?_, ?_, ?_, ?_,
      fun o ho hkey ha hwo => ?_⟩
    · rw [settle_msc, hmsc]
      exact hcur
    · rw [settle_msc, hmsc]
      exact hstaged
    · rw [settle_msc, hmsc]
      exact hjobs'.trans hjobs
    · rw [settle_hmu, haudit']
      exact haudit
    · obtain ⟨d, hmem, hocu⟩ := applyStaged_order (k := k) ha ho hkey hwo
      rw [settle_ocu, settle_mem, hocu]
      exact ⟨rfl, rfl, rfl, d, hmem⟩
end

