-- ==== Sys2Proof/Proofs/GateWindows.lean ====
section
/-! The windows of a gate's list that fire, are suppressed and close (R75 to R77): the load of the window behind the one
that closed, and what the work of an event leaves of a gate without windows and of the windows that the plans hold. -/

namespace Sys2Proof.Machine

/-! ### The load of a next window that is ahead -/

section
variable {l : LaneId} {g : Gate} {s : State}

theorem gateWork_load (h : (loadHead l g s).2 = []) : gateWork l [.load g] s = (loadHead l g s).1 := by
  have hrun : gateWork l [.load g] s = runWork l 1999 ((loadHead l g s).2 ++ []) (loadHead l g s).1 := rfl
  rw [hrun, h]
  rfl

/-- R75: a head whose on position is ahead is ARMED; an empty list has nothing to load. -/
theorem loadHead_ahead (h : ∀ v, (channel l g s).windows.head? = some v →
      v.state = .queued ∧ ahead v.onPos (counter l s) = true) :
    (loadHead l g s).2 = [] ∧ (loadHead l g s).1.track = s.track ∧
      channel l g (loadHead l g s).1 = { channel l g s with
        windows := setHeadState .armed (channel l g s).windows } := by
  unfold loadHead
  split
  next hw =>
    rw [hw]
    exact ⟨rfl, rfl, by rw [setHeadState, ← hw]⟩
  next v vs hw =>
    obtain ⟨hq, ha⟩ := h v (by rw [hw]; rfl)
    dsimp only
    rw [if_neg (by simp [hq]), if_pos (Or.inr ha)]
    exact ⟨rfl, rfl, by rw [channel_updChannel, hw]⟩

/-- R77: what the close of a head leaves where the next window has its on position ahead. -/
theorem closeHead_next {w : Window} {ws : List Window} (off : Pos) (hw : (channel l g s).windows = w :: ws)
    (hn : ∀ v, ws.head? = some v → v.state = .queued ∧ ahead v.onPos (counter l s) = true) :
    (closeHead l g w off s).track = s.track ∧ channel l g (closeHead l g w off s) = { channel l g s with
      windows := setHeadState .armed ws, lastClosed := some ⟨off, w.items.getLastD 0⟩, output := false,
      hold := none } := by
  obtain ⟨u, hu⟩ : ∃ u, u = updChannel l g (fun c => { c with
    windows := c.windows.drop 1, lastClosed := some ⟨off, w.items.getLastD 0⟩, output := false, hold := none }) s :=
    ⟨_, rfl⟩
  have hclose : closeHead l g w off s = gateWork l [.load g] u := by rw [hu]; rfl
  have hc : channel l g u = { channel l g s with
      windows := ws, lastClosed := some ⟨off, w.items.getLastD 0⟩, output := false, hold := none } := by
    rw [hu, channel_updChannel, hw]
    rfl
  have hcounter : counter l u = counter l s := by rw [hu]; rfl
  obtain ⟨hnil, htrack, hchan⟩ := loadHead_ahead (l := l) (g := g) (s := u) (by rw [hc, hcounter]; exact hn)
  rw [hclose, gateWork_load hnil]
  exact ⟨by rw [htrack, hu]; rfl, by rw [hchan, hc]⟩

/-! ### The on-event -/

/-- R76: the fire budget is spent where the history holds maxFires times or more, all within the fire window. -/
theorem budgetSpent_iff (r : Geometry) (history : List Ms) (now : Ms) : budgetSpent r history now = true ↔
    r.maxFires ≤ history.length ∧ ∀ t ∈ history, (now - t).toNat < r.fireWindow := by
  simp [budgetSpent, firesWithin, List.length_filter_eq_length_iff]

theorem gateOnEvent_of {w : Window} {ws : List Window} (hw : (channel l g s).windows = w :: ws)
    (ha : w.state = .armed) (ho : w.onPos = counter l s) (hm : laneMode l s ≠ .stopped) :
    exec (.gateOnEvent l g) s = .next (settle s (gateWork l (onEvent l g w s).2 (onEvent l g w s).1)) := by
  have hexec : exec (.gateOnEvent l g) s = execGateOnEvent l g s := rfl
  rw [hexec]
  unfold execGateOnEvent
  rw [hw]
  exact event_of _ _ (by simp [(moves_iff l s).mpr hm, ha, ho, isNow])

/-- R76: a head that fires. -/
theorem channel_fireHead {w : Window} {ws : List Window} (hw : (channel l g s).windows = w :: ws) :
    channel l g (fireHead l g s) = { channel l g s with
      windows := { w with state := .active } :: ws, output := true,
      history := addFire (geometry l s).maxFires (channel l g s).history s.clock.ms,
      hold := some ⟨0, (vget (geometry l s).gates (gateCode g)).maxHold⟩ } := by
  unfold fireHead
  rw [channel_updChannel, hw]
  rfl

end

/-! ### Windows struck, never given -/

theorem holdsWindow_strikeWindow_self (g : Gate) (e : Entry) : holdsWindow (strikeWindow g e) g = false := by
  unfold holdsWindow strikeWindow
  cases e.plan <;> simp

theorem holdsWindow_of_strikeWindow {g k : Gate} {e : Entry} (h : holdsWindow (strikeWindow g e) k = true) :
    holdsWindow e k = true := by
  unfold holdsWindow strikeWindow at *
  cases hp : e.plan with
  | none => simp [hp] at h
  | some p =>
    simp only [hp, Option.map_some, List.any_eq_true, List.mem_filter] at h ⊢
    obtain ⟨w, ⟨hw, -⟩, hk⟩ := h
    exact ⟨w, hw, hk⟩

/-- What gate work keeps to (R75, R79): a gate without windows stands as it is, and every entry of the lane's queue is one
of the queue before, holding windows only at gates where it held one. -/
structure Striking (l : LaneId) (s t : State) : Prop where
  channel : ∀ g, (channel l g s).windows = [] → channel l g t = channel l g s
  entry : ∀ f ∈ (t.track.get l).queue, ∃ e ∈ (s.track.get l).queue, e.serial = f.serial ∧
    ∀ g, holdsWindow f g = true → holdsWindow e g = true

section
variable {l : LaneId} {s t u : State}

theorem striking_of_eq (hg : t.gsq.get l = s.gsq.get l) (ht : t.track.get l = s.track.get l) : Striking l s t :=
  ⟨fun g _ => channel_congr l g hg, fun f hf => ⟨f, by rw [← ht]; exact hf, rfl, fun _ h => h⟩⟩

theorem Striking.refl (l : LaneId) (s : State) : Striking l s s := striking_of_eq rfl rfl

theorem Striking.trans (h : Striking l s t) (k : Striking l t u) : Striking l s u where
  channel g hg := by
    have ht := h.channel g hg
    rw [k.channel g (by rw [ht]; exact hg), ht]
  entry f hf := by
    obtain ⟨e, he, hes, heg⟩ := k.entry f hf
    obtain ⟨d, hd, hds, hdg⟩ := h.entry e he
    exact ⟨d, hd, hds.trans hes, fun g hg => hdg g (heg g hg)⟩

theorem striking_of_only {ps : Part → Prop} (h : Only ps s t) (h1 : ¬ ps (.gates l)) (h2 : ¬ ps (.track l)) :
    Striking l s t := striking_of_eq (h (.gates l) h1) (h (.track l) h2)

theorem striking_foldl {α : Type} (f : State → α → State) (h : ∀ s x, Striking l s (f s x)) (xs : List α) (s : State) :
    Striking l s (xs.foldl f s) := by
  induction xs generalizing s with
  | nil => exact Striking.refl l s
  | cons x xs ih => exact (h s x).trans (ih _)

theorem updEntry_striking (n : Nat) (f : Entry → Entry) (s : State) (hs : ∀ e, (f e).serial = e.serial)
    (hg : ∀ e g, holdsWindow (f e) g = true → holdsWindow e g = true) : Striking l s (updEntry l n f s) where
  channel _ _ := rfl
  entry x hx := by
    rw [updEntry_track] at hx
    obtain ⟨e, he, rfl⟩ := List.mem_map.mp hx
    refine ⟨e, he, ?_⟩
    split
    · exact ⟨(hs e).symm, hg e⟩
    · exact ⟨rfl, fun _ h => h⟩

theorem strike_striking (n : Nat) (g : Gate) (s : State) : Striking l s (updEntry l n (strikeWindow g) s) :=
  updEntry_striking n _ s (fun _ => rfl) (fun _ _ => holdsWindow_of_strikeWindow)

theorem updChannel_striking {g : Gate} (f : Channel → Channel) (h : (channel l g s).windows ≠ []) :
    Striking l s (updChannel l g f s) where
  channel _ hk := channel_updChannel_other l f s (fun e => h (e ▸ hk))
  entry f hf := ⟨f, hf, rfl, fun _ h => h⟩

theorem dropHead_striking {g : Gate} (ns : List Nat) (h : (channel l g s).windows ≠ []) :
    Striking l s (dropHead l g ns s) :=
  (updChannel_striking _ h).trans (striking_foldl _ (fun u n => strike_striking n g u) ns _)

theorem onEvent_striking {g : Gate} (w : Window) (h : (channel l g s).windows ≠ []) :
    Striking l s (onEvent l g w s).1 := by
  unfold onEvent
  split
  · exact dropHead_striking w.items h
  · exact updChannel_striking _ h

theorem loadHead_striking (g : Gate) (s : State) : Striking l s (loadHead l g s).1 := by
  unfold loadHead
  split
  · exact Striking.refl l s
  next w ws hw =>
    have hne : (channel l g s).windows ≠ [] := by rw [hw]; exact List.cons_ne_nil w ws
    dsimp only
    split
    · exact Striking.refl l s
    · split
      · exact updChannel_striking _ hne
      · split
        · exact onEvent_striking w hne
        · exact dropHead_striking w.items hne

theorem removeWindow_striking (n : Nat) (g : Gate) (s : State) : Striking l s (removeWindow l n g s).1 := by
  unfold removeWindow
  split
  · exact Striking.refl l s
  next w hw =>
    split
    · exact Striking.refl l s
    · exact (updChannel_striking _ (List.ne_nil_of_mem (List.mem_of_find?_eq_some hw))).trans (strike_striking n g _)

theorem writeCause_striking (n : Nat) (c : RerouteCause) (j : Nat) (s : State) : Striking l s (writeCause l n c j s) := by
  have hcause : Striking l s (updEntry l n (fun e => { e with reroute := some c }) s) :=
    updEntry_striking n _ s (fun _ => rfl) (fun _ _ h => h)
  have honly : Only (fun p => p ∈ [.raised, .track l, .tally l, .attrs l, .journal]) s (writeCause l n c j s) := by
    apply writeCause_only (h := only_refl _ _) <;> simp
  exact hcause.trans (striking_of_eq (honly (.gates l) (by simp))
    (congrArg (fun q => q.get l) (writeCause_track l n c j s)))

theorem rerouteItem_striking (n : Nat) (c : RerouteCause) (j : Nat) (s : State) :
    Striking l s (rerouteItem l n c j s).1 := by
  unfold rerouteItem
  split
  · exact Striking.refl l s
  · dsimp only
    split
    · have honly : Only (fun p => p = .raised ∨ p = .journal) s (secondCause l n c j s) := by
        apply secondCause_only (h := only_refl _ _) <;> simp
      exact striking_of_only honly (by simp) (by simp)
    · exact writeCause_striking n c j s

theorem withdrawAt_striking (d : Side) (n : Nat) (s : State) : Striking l s (withdrawAt l d n s) := by
  have hhead : ∀ f, Striking l s (updHead l d f s) := fun f => striking_of_eq rfl rfl
  unfold withdrawAt
  dsimp only
  split
  · exact (hhead _).trans (updEntry_striking n _ _ (fun _ => rfl) (fun _ _ h => h))
  · exact hhead _

theorem releaseReservation_striking (n : Nat) (s : State) : Striking l s (releaseReservation l n s) := by
  have honly : Only (fun p => p = .raised ∨ p = .pockets l) s (releaseReservation l n s) := by
    apply releaseReservation_only (h := only_refl _ _) <;> simp
  exact striking_of_only honly (by simp) (by simp)

theorem oneWork_striking (w : GateWork) (s : State) : Striking l s (oneWork l w s).1 := by
  cases w with
  | load g => exact loadHead_striking g s
  | reroute n c j => exact rerouteItem_striking n c j s
  | remove n g => exact removeWindow_striking n g s
  | release n =>
    exact ((withdrawAt_striking .near n s).trans (withdrawAt_striking .far n _)).trans (releaseReservation_striking n _)

theorem runWork_striking (n : Nat) (ws : List GateWork) (s : State) : Striking l s (runWork l n ws s) := by
  induction n generalizing ws s with
  | zero => exact Striking.refl l s
  | succ n ih =>
    cases ws with
    | nil => exact Striking.refl l s
    | cons w ws => exact (oneWork_striking w s).trans (ih _ _)

/-! ### A suppressed window of one item -/

theorem findEntry_updEntry_some {n : Nat} {f : Entry → Entry} {e : Entry} (he : findEntry l n s = some e)
    (hf : ∀ e, (f e).serial = e.serial) : findEntry l n (updEntry l n f s) = some (f e) := by
  rw [findEntry_updEntry l n f s hf, he]
  rfl

/-- R78: the first step of a reroute leaves the item the cause it has, or the one it is rerouted with. -/
theorem findEntry_rerouteItem {n : Nat} {e : Entry} (c : RerouteCause) (j : Nat) (he : findEntry l n s = some e) :
    findEntry l n (rerouteItem l n c j s).1 = some { e with reroute := some (e.reroute.getD c) } := by
  unfold rerouteItem
  rw [he]
  dsimp only
  cases hr : e.reroute with
  | some d =>
    have hsecond : (secondCause l n c j s).track = s.track := by
      unfold secondCause
      split
      · exact emit_track _ _ _ _ _ _ s
      · rfl
    simp only [Option.isSome_some, if_true, Option.getD_some]
    rw [findEntry_congr n (congrArg (fun q => q.get l) hsecond), he, ← hr]
  | none =>
    simp only [Option.isSome_none, Bool.false_eq_true, if_false, Option.getD_none]
    rw [findEntry_congr n (congrArg (fun q => q.get l) (writeCause_track l n c j s))]
    exact findEntry_updEntry_some he (fun _ => rfl)

/-- R76: what the suppression of the only window of a gate leaves of the gate and of the window's one item. -/
theorem suppressed_spec {g : Gate} {w : Window} {e : Entry} (hk : trackOk (s.track.get l) = true)
    (hw : (channel l g s).windows = [w]) (hi : w.items = [e.serial]) (he : findEntry l e.serial s = some e)
    (hb : budgetSpent (geometry l s) (channel l g s).history s.clock.ms = true) :
    channel l g (gateWork l (onEvent l g w s).2 (onEvent l g w s).1) = { channel l g s with windows := [] } ∧
      ∃ f, findEntry l e.serial (gateWork l (onEvent l g w s).2 (onEvent l g w s).1) = some f ∧
        f.reroute = some (e.reroute.getD .gateSuppressed) ∧ holdsWindow f g = false := by
  obtain ⟨u, hu⟩ : ∃ u, u = dropHead l g [e.serial] s := ⟨_, rfl⟩
  obtain ⟨v, hv⟩ : ∃ v, v = (rerouteItem l e.serial .gateSuppressed (gateCode g).val u).1 := ⟨_, rfl⟩
  obtain ⟨z, hz⟩ : ∃ z, z = gateWork l (onEvent l g w s).2 (onEvent l g w s).1 := ⟨_, rfl⟩
  have hwork : ∃ ws, z = runWork l 1999 ws v := by
    rw [hz, hv, hu]
    unfold onEvent
    rw [if_pos hb, hi]
    exact ⟨_, rfl⟩
  obtain ⟨ws, hzv⟩ := hwork
  have huc : channel l g u = { channel l g s with windows := [] } := by
    have hdrop : channel l g u = channel l g (updChannel l g (fun c => { c with windows := c.windows.drop 1 }) s) := by
      rw [hu]; rfl
    rw [hdrop, channel_updChannel, hw]
    rfl
  have hue : findEntry l e.serial u = some (strikeWindow g e) := by
    have hdrop : u = updEntry l e.serial (strikeWindow g)
        (updChannel l g (fun c => { c with windows := c.windows.drop 1 }) s) := by rw [hu]; rfl
    rw [hdrop]
    exact findEntry_updEntry_some ((findEntry_congr (s := s) e.serial rfl).trans he) (fun _ => rfl)
  have huk : trackOk (u.track.get l) = true := by
    rw [hu]; exact (dropHead_calm l g _ s).trackOk advanced_order hk
  have hvk : trackOk (v.track.get l) = true := by
    rw [hv]; exact (rerouteItem_calm l _ _ _ u).trackOk advanced_order huk
  have hvz : Striking l u z := by
    rw [hzv, hv]; exact (rerouteItem_striking _ _ _ u).trans (runWork_striking 1999 ws _)
  have hve : findEntry l e.serial v = some { strikeWindow g e with
      reroute := some (e.reroute.getD .gateSuppressed) } := by
    rw [hv]; exact findEntry_rerouteItem _ _ hue
  have hcalm : Calm v z := by rw [hzv]; exact runWork_calm l 1999 ws v
  obtain ⟨f, hf, hadv⟩ := Steady.findEntry advanced_order hcalm hvk hve
  rw [← hz]
  refine ⟨by rw [hvz.channel g (by rw [huc]), huc], f, hf, hadv.reroute rfl, ?_⟩
  obtain ⟨x, hx, hxs, hxg⟩ := hvz.entry f (findEntry_mem hf)
  have hxe : x = strikeWindow g e := by
    refine eq_of_serial_eq huk hx (findEntry_mem hue) ?_
    rw [hxs, findEntry_serial hf, findEntry_serial hue]
  by_contra hh
  have hheld := hxg g (by simpa using hh)
  rw [hxe, holdsWindow_strikeWindow_self] at hheld
  exact absurd hheld (by simp)

theorem channel_settle (l : LaneId) (g : Gate) (old s : State) : channel l g (settle old s) = channel l g s :=
  channel_congr l g (by rw [settle_gsq])

end

end Sys2Proof.Machine

open Sys2Proof Sys2Proof.Machine

/-- Settles O34, by the fire budget: with fires left the head fires; with none left the reroute of the suppressed item and
the gate work behind it leave the emptied gate and give the item no window. -/
theorem gateOnEventEffect : Obligations.GateOnEventEffect := by
  intro l g s w ws hw ha ho hm
  have hexec := gateOnEvent_of hw ha ho hm
  refine ⟨fun hleft => ?_, fun hfull hwithin hws hk e hi he => ?_⟩
  · have hbudget : ¬ budgetSpent (geometry l s) (channel l g s).history s.clock.ms = true := by
      rw [budgetSpent_iff]
      rintro ⟨hmax, hall⟩
      obtain hlen | ⟨x, hx, hlate⟩ := hleft
      · omega
      · have := hall x hx
        omega
    have hfire : gateWork l (onEvent l g w s).2 (onEvent l g w s).1 = fireHead l g s := by
      unfold onEvent
      rw [if_neg hbudget]
      rfl
    rw [hfire] at hexec
    refine ⟨_, hexec, ?_, by rw [settle_track]; rfl, fun k hkg => ?_⟩
    · rw [channel_settle, channel_fireHead hw]
      rfl
    · rw [channel_settle]
      exact channel_updChannel_other l _ s hkg
  · subst hws
    obtain ⟨hc, f, hf, hr, hh⟩ := suppressed_spec hk hw hi he ((budgetSpent_iff _ _ _).mpr ⟨hfull, hwithin⟩)
    exact ⟨_, f, hexec, by rw [channel_settle, hc], by rw [channel_settle, hc], by rw [findEntry_settle, hf], hr, hh⟩

/-- Settles O35, by the one close of a head that both events bring about. -/
theorem gateWindowCloses : Obligations.GateWindowCloses := by
  intro l g s w ws hw ha hn
  refine ⟨fun hm ho => ?_, fun h hh hlim => ?_⟩
  · obtain ⟨htrack, hchan⟩ := closeHead_next w.offPos hw hn
    have hexec : exec (.gateWindowClose l g) s = .next (settle s (closeHead l g w w.offPos s)) := by
      have hx : exec (.gateWindowClose l g) s = execGateWindowClose l g s := rfl
      rw [hx]
      unfold execGateWindowClose
      rw [hw]
      have hnow : isNow w.offPos (counter l s) = true := by simpa [isNow, counter] using ho
      exact event_of _ _ (by rw [(moves_iff l s).mpr hm, ha, hnow]; rfl)
    exact ⟨_, hexec, by rw [channel_settle, hchan], by rw [settle_track, htrack]⟩
  · obtain ⟨htrack, hchan⟩ := closeHead_next (counter l s) hw hn
    have hexec : exec (.gateHoldExpiry l g) s = .next (settle s (closeHead l g w (counter l s) s)) := by
      have hx : exec (.gateHoldExpiry l g) s = execGateHoldExpiry l g s := rfl
      rw [hx]
      unfold execGateHoldExpiry
      rw [hw, hh]
      exact event_of _ _ (by simp [ha, hlim])
    exact ⟨_, hexec, by rw [channel_settle, hchan]; rfl, by rw [settle_track, htrack]⟩

end

