-- ==== Sys2Proof/Proofs/TraysAndButtons.lean ====
section
/-! The tray switches and swap buttons (R114 to R117): a swap request by the state it finds the pocket in, the tray taken out
with the item reserved there sent on or standing (R79), and the tray put back. -/

namespace Sys2Proof.Machine

/-! ### Swap requests -/

section
variable {l : LaneId} {p : Pocket} {s : State}

theorem pocketRec_settle (l : LaneId) (p : Pocket) (old s : State) : pocketRec l p (settle old s) = pocketRec l p s :=
  pocketRec_congr l p (by rw [settle_pkr])

theorem setPocketState_raised {st : PocketState} (h : (pocketRec l p s).state ≠ st) :
    raisedIn .pocket (setPocketState l p st s) := by
  unfold setPocketState
  rw [if_neg h]
  exact raisedIn_raise _ _

theorem drainedTest_kept (l : LaneId) (p : Pocket) (s : State) : RaisedKept s (drainedTest l p s) :=
  raisedKept_ite (setPocketState_kept l p _ s) (RaisedKept.refl s)

/-- R115: the state that a swap request makes of a pocket's. -/
def swappedState (r : PocketRec) : PocketState :=
  match r.state with
  | .opened | .full | .disabled => if r.reservations = [] then .readyToSwap else .draining
  | x => x

/-- R115: what a swap request leaves of a pocket, and that a change of its state is reported. -/
theorem swapPocket_spec (l : LaneId) (p : Pocket) (s : State) :
    pocketRec l p (swapPocket l p s) = { pocketRec l p s with
      state := swappedState (pocketRec l p s),
      staysDisabled := (pocketRec l p s).staysDisabled || (pocketRec l p s).state == .disabled } ∧
    (swappedState (pocketRec l p s) ≠ (pocketRec l p s).state → raisedIn .pocket (swapPocket l p s)) := by
  have hrec : ∀ u, pocketRec l p (drainedTest l p (setPocketState l p .draining u)) = { pocketRec l p u with
      state := if (pocketRec l p u).reservations = [] then .readyToSwap else .draining } := by
    intro u
    rw [drainedTest_rec, setPocketState_rec]
    simp
  have hraised : ∀ u, (pocketRec l p u).state ≠ .draining →
      raisedIn .pocket (drainedTest l p (setPocketState l p .draining u)) := fun u hu =>
    drainedTest_kept l p _ _ (setPocketState_raised hu)
  unfold swapPocket swappedState
  cases hst : (pocketRec l p s).state with
  | opened | full =>
    refine ⟨?_, fun _ => hraised s (by simp [hst])⟩
    rw [hrec]
    simp
  | disabled =>
    refine ⟨?_, fun _ => hraised _ (by simp [hst])⟩
    rw [hrec, pocketRec_updPocket]
    simp
  | draining | readyToSwap | out =>
    refine ⟨?_, fun h => absurd rfl h⟩
    generalize pocketRec l p s = r at hst
    cases r
    simp_all

/-- R114: the accepted level alone. -/
def buttonRead (l : LaneId) (p : Pocket) (pressed : Bool) (s : State) : State :=
  updPocket l p (fun r => { r with button := pressed }) s

theorem buttonRead_rec (l : LaneId) (p : Pocket) (pressed : Bool) (s : State) :
    pocketRec l p (buttonRead l p pressed s) = { pocketRec l p s with button := pressed } :=
  pocketRec_updPocket l p _ s

theorem swapRequest_of {pressed : Bool} {held : Nat} (hg : p.gated = true) (hb : (pocketRec l p s).button ≠ pressed)
    (ha : buttonAccepted held s = true) : exec (.swapRequest l p pressed held) s =
      .next (settle s (if pressed && s.clock.started then swapPocket l p (buttonRead l p pressed s)
        else buttonRead l p pressed s)) := by
  have hexec : exec (.swapRequest l p pressed held) s = execSwapRequest l p pressed held s := rfl
  rw [hexec]
  unfold execSwapRequest
  rw [eventWithin_ok _ _ hg]
  exact event_of _ _ (by simp [hb, ha])

end

/-! ### The tray out -/

section
variable {l : LaneId} {p : Pocket} {s : State}

/-- R116: the tray out and its event written, before any item is sent on. -/
def trayTaken (l : LaneId) (p : Pocket) (s : State) : State :=
  emit .trayOut (some l) (pocketCode p).val 0 (pocketStateCode (pocketRec l p s).state) 0
    (setPocketState l p .out (updPocket l p (fun q =>
      { q with tray := false, staysDisabled := q.staysDisabled || q.state == .disabled }) s))

theorem trayTaken_leaves (l : LaneId) (p : Pocket) (s : State) :
    Only (fun q => q = .raised ∨ q = .journal ∨ q = .pockets l) s (trayTaken l p s) := by
  apply emit_only (h := setPocketState_only l p .out (updPocket_only l p _ (only_refl _ s) _) _ _) <;> simp

theorem trayTaken_rec (l : LaneId) (p : Pocket) (s : State) : pocketRec l p (trayTaken l p s) = { pocketRec l p s with
    tray := false, state := .out,
    staysDisabled := (pocketRec l p s).staysDisabled || (pocketRec l p s).state == .disabled } := by
  unfold trayTaken
  rw [pocketRec_congr l p (emit_leaves _ _ _ _ _ _ _ (.pockets l) (by simp)), setPocketState_rec, pocketRec_updPocket]

theorem setPocketState_jrn (l : LaneId) (p : Pocket) (st : PocketState) (s : State) :
    (setPocketState l p st s).jrn = s.jrn := by
  unfold setPocketState; split <;> rfl

theorem setPocketState_clock (l : LaneId) (p : Pocket) (st : PocketState) (s : State) :
    (setPocketState l p st s).clock = s.clock := by
  unfold setPocketState; split <;> rfl

theorem trayTaken_jrn (l : LaneId) (p : Pocket) (s : State) : (trayTaken l p s).jrn =
    (emit .trayOut (some l) (pocketCode p).val 0 (pocketStateCode (pocketRec l p s).state) 0 s).jrn :=
  emit_jrn _ _ _ _ _ _ (by rw [setPocketState_jrn]; rfl) (by rw [setPocketState_clock]; rfl)

theorem trayTaken_raised (h : (pocketRec l p s).state ≠ .out) : raisedIn .pocket (trayTaken l p s) :=
  emit_kept _ _ _ _ _ _ _ _ (setPocketState_raised (by rw [pocketRec_updPocket]; exact h))

theorem trayOut_empty (h : (pocketRec l p s).reservations = []) : trayOut l p s = trayTaken l p s := by
  unfold trayOut
  dsimp only
  rw [h]
  split
  · rfl
  · exact ite_self _

theorem trayOut_reserved {g : Gate} {n : Nat} (hg : pocketGate p = some g) (hs : (pocketRec l p s).state ≠ .readyToSwap)
    (h : (pocketRec l p s).reservations = [n]) : trayOut l p s = sendOn l p g n (trayTaken l p s) := by
  unfold trayOut
  dsimp only
  rw [h, hg]
  exact if_neg hs

theorem trayOut_of {held : Nat} (ht : (pocketRec l p s).tray = true) (hh : 20 ≤ held) :
    exec (.trayOut l p held) s = .next (settle s (trayOut l p s)) := by
  have hexec : exec (.trayOut l p held) s = execTrayOut l p held s := rfl
  rw [hexec]
  exact event_of _ _ (by simp [ht, inputHeld, hh])

end

/-! ### The item reserved at a pocket whose tray is out -/

section
variable {l : LaneId} {p : Pocket} {g : Gate} {n : Nat} {s : State} {e : Entry} {w : Window}

/-- R79: an item's window removed from a gate's list and struck from its plan. -/
def windowRemoved (l : LaneId) (n : Nat) (g : Gate) (s : State) : State :=
  updEntry l n (strikeWindow g)
    (updChannel l g (fun c => { c with windows := c.windows.filter (fun w => !w.items.contains n) }) s)

/-- R79: a window that is ACTIVE or serves more items than one stands. -/
theorem removeWindow_stands (hw : (channel l g s).windows.find? (fun v => v.items.contains n) = some w)
    (h : w.state = .active ∨ w.items.length ≠ 1) : removeWindow l n g s = (s, []) := by
  unfold removeWindow
  rw [hw]
  exact if_pos h

theorem removeWindow_removes (hw : (channel l g s).windows.find? (fun v => v.items.contains n) = some w)
    (hst : w.state ≠ .active) (hn : w.items.length = 1) : removeWindow l n g s =
      (windowRemoved l n g s, if w.state = .armed then [.load g] else []) := by
  unfold removeWindow
  rw [hw]
  exact if_neg (by simp [hst, hn])

/-- R79: the window of one item goes, and nothing is loaded behind it where it was QUEUED or the only one. -/
theorem gateWork_removes (hw : (channel l g s).windows.find? (fun v => v.items.contains n) = some w)
    (hst : w.state = .queued ∨ (w.state = .armed ∧ (channel l g s).windows = [w])) (hn : w.items.length = 1) :
    gateWork l [.remove n g] s = windowRemoved l n g s := by
  obtain hq | ⟨ha, hone⟩ := hst
  · have hrun : gateWork l [.remove n g] s =
        runWork l 1999 ((removeWindow l n g s).2 ++ []) (removeWindow l n g s).1 := rfl
    rw [hrun, removeWindow_removes hw (by simp [hq]) hn, hq]
    rfl
  · rw [gateWork_remove n (by simp [hone]), removeWindow_removes hw (by simp [ha]) hn]

/-- R79, R116: where the window stands the reservation does. -/
theorem sendOn_stands (he : findEntry l n s = some e) (hh : holdsWindow e g = true)
    (hw : (channel l g s).windows.find? (fun v => v.items.contains n) = some w)
    (h : w.state = .active ∨ w.items.length ≠ 1) : sendOn l p g n s = s := by
  have hwork : gateWork l [.remove n g] s = s := by
    have hrun : gateWork l [.remove n g] s =
        runWork l 1999 ((removeWindow l n g s).2 ++ []) (removeWindow l n g s).1 := rfl
    rw [hrun, removeWindow_stands hw h]
    rfl
  unfold sendOn
  rw [he]
  dsimp only
  rw [hwork, he]
  simp [hh]

/-- R116: with the window goes the reservation, and a second TRAY_OUT event is written. -/
theorem sendOn_removes (he : findEntry l n s = some e) (hh : holdsWindow e g = true)
    (hr : n ∈ (pocketRec l p s).reservations)
    (hw : (channel l g s).windows.find? (fun v => v.items.contains n) = some w)
    (hst : w.state = .queued ∨ (w.state = .armed ∧ (channel l g s).windows = [w])) (hn : w.items.length = 1) :
    sendOn l p g n s =
      emit .trayOut (some l) (pocketCode p).val n 6 0 (releaseAt l p n (windowRemoved l n g s)) := by
  have hstruck : findEntry l n (windowRemoved l n g s) = some (strikeWindow g e) :=
    findEntry_updEntry_some ((findEntry_congr n rfl).trans he) (fun _ => rfl)
  unfold sendOn
  rw [he]
  dsimp only
  rw [gateWork_removes hw hst hn, hstruck]
  simp [hr, hh, holdsWindow_strikeWindow_self]

/-- R116: a tray taken out under a reserved item whose window stands. -/
theorem trayOut_stands (hg : pocketGate p = some g) (hs : (pocketRec l p s).state ≠ .readyToSwap)
    (hr : (pocketRec l p s).reservations = [n]) (he : findEntry l n s = some e) (hh : holdsWindow e g = true)
    (hw : (channel l g s).windows.find? (fun v => v.items.contains n) = some w)
    (h : w.state = .active ∨ w.items.length ≠ 1) : trayOut l p s = trayTaken l p s := by
  have honly := trayTaken_leaves l p s
  rw [trayOut_reserved hg hs hr]
  refine sendOn_stands ((findEntry_congr n (honly (.track l) (by simp))).trans he) hh ?_ h
  rw [channel_congr l g (honly (.gates l) (by simp))]
  exact hw

/-- R116: a tray taken out under a reserved item whose window goes: what is left of the pocket, the item, the gate and the
journal. -/
theorem trayOut_sent (hg : pocketGate p = some g) (hs : (pocketRec l p s).state ≠ .readyToSwap)
    (hr : (pocketRec l p s).reservations = [n]) (he : findEntry l n s = some e) (hh : holdsWindow e g = true)
    (hw : (channel l g s).windows.find? (fun v => v.items.contains n) = some w)
    (hst : w.state = .queued ∨ (w.state = .armed ∧ (channel l g s).windows = [w])) (hn : w.items.length = 1) :
    pocketRec l p (trayOut l p s) = { pocketRec l p s with
        tray := false, state := .out, reservations := [],
        staysDisabled := (pocketRec l p s).staysDisabled || (pocketRec l p s).state == .disabled } ∧
      findEntry l n (trayOut l p s) = some (strikeWindow g e) ∧
      (channel l g (trayOut l p s)).windows = (channel l g s).windows.filter (fun v => !v.items.contains n) ∧
      (trayOut l p s).jrn = (emit .trayOut (some l) (pocketCode p).val n 6 0
        (emit .trayOut (some l) (pocketCode p).val 0 (pocketStateCode (pocketRec l p s).state) 0 s)).jrn := by
  have honly := trayTaken_leaves l p s
  have hrec := trayTaken_rec l p s
  have hjrn := trayTaken_jrn l p s
  rw [trayOut_reserved hg hs hr]
  generalize trayTaken l p s = u at *
  have hchan : channel l g u = channel l g s := channel_congr l g (honly (.gates l) (by simp))
  have hue : findEntry l n u = some e := (findEntry_congr n (honly (.track l) (by simp))).trans he
  rw [sendOn_removes hue hh (by rw [hrec, hr]; simp) (by rw [hchan]; exact hw) (by rw [hchan]; exact hst) hn]
  have hrelease := releaseAt_leaves l p n (windowRemoved l n g u)
  have hemit := emit_leaves (releaseAt l p n (windowRemoved l n g u)) .trayOut (some l) (pocketCode p).val n 6 0
  refine ⟨?_, ?_, ?_, ?_⟩
  · have hremoved : pocketRec l p (windowRemoved l n g u) = pocketRec l p u := rfl
    rw [pocketRec_congr l p (hemit (.pockets l) (by simp)), pocketRec_releaseAt, hremoved, hrec]
    simp [releasedRec, hr]
  · rw [findEntry_congr n (hemit (.track l) (by simp)), findEntry_congr n (hrelease (.track l) (by simp))]
    exact findEntry_updEntry_some ((findEntry_congr n rfl).trans hue) (fun _ => rfl)
  · have hremoved : channel l g (windowRemoved l n g u) = channel l g (updChannel l g (fun c => { c with
        windows := c.windows.filter (fun w => !w.items.contains n) }) u) := rfl
    rw [channel_congr l g (hemit (.gates l) (by simp)), channel_congr l g (hrelease (.gates l) (by simp)), hremoved,
      channel_updChannel, hchan]
  · refine emit_jrn _ _ _ _ _ _ ((hrelease .journal (by simp)).trans hjrn) ?_
    have hfirst := emit_leaves s .trayOut (some l) (pocketCode p).val 0 (pocketStateCode (pocketRec l p s).state) 0
    rw [hrelease .clock (by simp), hfirst .clock (by simp)]
    exact honly .clock (by simp)

end

/-! ### The tray back in -/

section
variable {l : LaneId} {p : Pocket} {s : State}

theorem trayIn_of {held : Nat} (ht : (pocketRec l p s).tray = false) (hh : 20 ≤ held) :
    exec (.trayIn l p held) s = .next (settle s (trayIn l p s)) := by
  have hexec : exec (.trayIn l p held) s = execTrayIn l p held s := rfl
  rw [hexec]
  exact event_of _ _ (by simp [ht, inputHeld, hh])

/-- R117: the pocket's record and state with the tray back, before the end pockets' hold and the event. -/
def trayBack (l : LaneId) (p : Pocket) (s : State) : State :=
  setPocketState l p (if p.gated && (pocketRec l p s).staysDisabled then .disabled else .opened)
    (updPocket l p (fun q => { q with fill := 0, warn := false, staysDisabled := false })
      (updPocket l p (fun q => { q with tray := true }) s))

theorem trayIn_eq (h : (pocketRec l p s).state = .out) : trayIn l p s =
    emit .trayIn (some l) (pocketCode p).val 0 0 0
      (if p.gated then trayBack l p s else endReleased l (trayBack l p s)) := by
  unfold trayIn
  exact if_neg (not_not_intro h)

theorem trayBack_rec (l : LaneId) (p : Pocket) (s : State) : pocketRec l p (trayBack l p s) = { pocketRec l p s with
    tray := true, fill := 0, warn := false, staysDisabled := false,
    state := if p.gated && (pocketRec l p s).staysDisabled then .disabled else .opened } := by
  unfold trayBack
  rw [setPocketState_rec, pocketRec_updPocket, pocketRec_updPocket]

theorem trayBack_raised (h : (pocketRec l p s).state = .out) : raisedIn .pocket (trayBack l p s) := by
  refine setPocketState_raised ?_
  rw [pocketRec_updPocket, pocketRec_updPocket]
  dsimp only
  rw [h]
  split <;> decide

/-- What follows of END_FULL (R113) leaves the pocket, the journal and the reasons raised. -/
theorem endReleased_keeps (l : LaneId) (s : State) :
    Only (fun q => q = .raised ∨ q = .lane l) s (endReleased l s) ∧ RaisedKept s (endReleased l s) := by
  constructor
  · apply endReleased_only (h := only_refl _ _) <;> simp
  · exact raisedKept_ite (setHold_kept l _ _ s) (RaisedKept.refl s)

/-- R117: what the tray back leaves of an OUT pocket. -/
theorem trayIn_spec (h : (pocketRec l p s).state = .out) :
    pocketRec l p (trayIn l p s) = pocketRec l p (trayBack l p s) ∧
      (trayIn l p s).jrn = (emit .trayIn (some l) (pocketCode p).val 0 0 0 s).jrn ∧ raisedIn .pocket (trayIn l p s) := by
  obtain ⟨u, hu⟩ : ∃ u, u = if p.gated then trayBack l p s else endReleased l (trayBack l p s) := ⟨_, rfl⟩
  have hkeep : Only (fun q => q = .raised ∨ q = .lane l) (trayBack l p s) u ∧ RaisedKept (trayBack l p s) u := by
    rw [hu]
    split
    · exact ⟨only_refl _ _, RaisedKept.refl _⟩
    · exact endReleased_keeps l _
  obtain ⟨honly, hkept⟩ := hkeep
  have hjrn : u.jrn = s.jrn := (honly .journal (by simp)).trans (setPocketState_jrn _ _ _ _)
  have hclock : u.clock = s.clock := (honly .clock (by simp)).trans (setPocketState_clock _ _ _ _)
  rw [trayIn_eq h, ← hu]
  refine ⟨?_, emit_jrn _ _ _ _ _ _ hjrn hclock, emit_kept _ _ _ _ _ _ u _ (hkept _ (trayBack_raised h))⟩
  rw [pocketRec_congr l p (emit_leaves u _ _ _ _ _ _ (.pockets l) (by simp)),
    pocketRec_congr l p (honly (.pockets l) (by simp))]

end

end Sys2Proof.Machine

open Sys2Proof Sys2Proof.Machine

/-- Settles O42, by what a swap request, a tray-out and a tray-in make of the pocket's record, and by the removal rule for
the one item reserved at a pocket whose tray is out. -/
theorem traysAndSwapButtons : Obligations.TraysAndSwapButtons := by
  refine ⟨fun l p held s hg hc hh pressed hb => ?_, fun l p held s hg hh hc => ?_, fun l p held s hh => ?_⟩
  · refine ⟨_, swapRequest_of hg hb (by simp [buttonAccepted, hc, hh]), ?_⟩
    rw [pocketRec_settle, hc, Bool.and_false, if_neg Bool.false_ne_true, buttonRead_rec]
  · have haccepted : buttonAccepted held s = true := by simp [buttonAccepted, inputHeld, hh]
    refine ⟨fun hb => ?_, fun hb => ?_⟩
    · have hexec := swapRequest_of (pressed := true) hg (by rw [hb]; decide) haccepted
      obtain ⟨hrec, hraised⟩ := swapPocket_spec l p (buttonRead l p true s)
      rw [hc, Bool.and_true, if_pos rfl] at hexec
      rw [buttonRead_rec] at hrec hraised
      refine ⟨_, hexec, (pocketRec_settle l p s _).trans hrec, fun hne => reported_settle _ _ (hraised ?_)⟩
      rw [pocketRec_settle, hrec] at hne
      exact hne
    · refine ⟨_, swapRequest_of hg (by rw [hb]; decide) haccepted, ?_⟩
      rw [pocketRec_settle, Bool.false_and, if_neg Bool.false_ne_true, buttonRead_rec]
  · refine ⟨fun ht hr ho => ?_, fun g e w ht hg ho hs hr he hhold hw => ⟨fun hn hst => ?_, fun hst => ?_⟩, fun ht ho => ?_⟩
    · have hrec := (pocketRec_settle l p s _).trans (trayTaken_rec l p s)
      have hexec := trayOut_of ht hh
      rw [trayOut_empty hr] at hexec
      refine ⟨_, hexec, hrec, by rw [settle_jrn, trayTaken_jrn], ?_, reported_settle _ _ (trayTaken_raised ho)⟩
      unfold pocketLamp
      rw [hrec]
      simp
    · obtain ⟨hrec, hentry, hwin, hjrn⟩ := trayOut_sent hg hs hr he hhold hw hst hn
      exact ⟨_, _, trayOut_of ht hh, by rw [pocketRec_settle, hrec], by rw [findEntry_settle, hentry],
        holdsWindow_strikeWindow_self g e, by rw [channel_settle, hwin], by rw [settle_jrn, hjrn]⟩
    · have honly := trayTaken_leaves l p s
      have hexec := trayOut_of ht hh
      rw [trayOut_stands hg hs hr he hhold hw hst] at hexec
      exact ⟨_, hexec, by rw [pocketRec_settle, trayTaken_rec],
        by rw [settle_track]; exact perLane_ext (fun k => honly (.track k) (by simp)),
        by rw [channel_settle, channel_congr l g (honly (.gates l) (by simp))], by rw [settle_jrn, trayTaken_jrn]⟩
    · obtain ⟨hrec, hjrn, hraised⟩ := trayIn_spec ho
      refine ⟨_, trayIn_of ht hh, ?_, by rw [settle_jrn, hjrn], reported_settle _ _ hraised⟩
      rw [pocketRec_settle, hrec, trayBack_rec]
      simp

end

