-- ==== Sys2Proof/Proofs/AppendedWindows.lean ====
section
/-! The append of a letter's window at a gate (R68, R72 to R74): with nothing to compare it with, against the last window of
the list or the last closed record, and its merge into the last window. -/

namespace Sys2Proof.Machine

/-! ### A window pushed at the tail -/

section
variable {l : LaneId} {g : Gate} {e : Entry} {s : State}

/-- The window that a letter's span makes in a gate's list (R72). -/
def spanWindow (w : PlanWindow) (n : Nat) : Window := { onPos := w.onPos, offPos := w.offPos, items := [n], state := .queued }

/-- The state after the push of a letter's window at a gate's list. -/
def windowPushed (l : LaneId) (g : Gate) (e : Entry) (s : State) : State :=
  updChannel l g (fun c => { c with windows := c.windows ++ [spanWindow (windowFor l g e s) e.serial] }) s

theorem pushWindow_of (h : (channel l g s).windows.length < 8) :
    pushWindow l (windowFor l g e s) e.serial s = some (windowPushed l g e s) := if_pos h

theorem pushWindow_full (h : 8 ≤ (channel l g s).windows.length) :
    pushWindow l (windowFor l g e s) e.serial s = none := if_neg (Nat.not_lt.mpr h)

theorem channel_windowPushed (l : LaneId) (g : Gate) (e : Entry) (s : State) : channel l g (windowPushed l g e s) =
    { channel l g s with windows := (channel l g s).windows ++ [spanWindow (windowFor l g e s) e.serial] } :=
  channel_updChannel l g _ s

theorem channel_windowPushed_other {k : Gate} (h : k ≠ g) : channel l k (windowPushed l g e s) = channel l k s :=
  channel_updChannel_other l _ s h

theorem windowPushed_leaves (l : LaneId) (g : Gate) (e : Entry) (s : State) :
    Only (fun p => p = .gates l) s (windowPushed l g e s) := by
  apply updChannel_only (h := only_refl _ _); rfl

end

/-! ### What the window is compared with -/

theorem previousOf_last {c : Channel} {ws : List Window} {w : Window} (on : Pos) (h : c.windows = ws ++ [w]) :
    previousOf c on = some { off := w.offPos, newest := w.items.getLastD 0, mergeable := w.state != .active } := by
  simp [previousOf, h]

theorem previousOf_nothing {c : Channel} (on : Pos) (h : c.windows = []) (hr : c.lastClosed = none) :
    previousOf c on = none := by
  simp [previousOf, h, hr]

theorem previousOf_record {c : Channel} {r : LastClosed} {on : Pos} (h : c.windows = []) (hr : c.lastClosed = some r)
    (hn : dist on r.offPos ≤ 65535 ∨ dist r.offPos on ≤ 65535) :
    previousOf c on = some { off := r.offPos, newest := r.newest, mergeable := false } := by
  simp [previousOf, h, hr, hn]

/-- R73: a last closed record more than 65,535 counts away on both sides does not bear on the new window. -/
theorem previousOf_far {c : Channel} {r : LastClosed} {on : Pos} (h : c.windows = []) (hr : c.lastClosed = some r)
    (h1 : 65535 < dist on r.offPos) (h2 : 65535 < dist r.offPos on) : previousOf c on = none := by
  simp [previousOf, h, hr, Nat.not_le.mpr h1, Nat.not_le.mpr h2]

/-! ### The append -/

section
variable {l : LaneId} {g : Gate} {e : Entry} {s : State} {p : Previous}

theorem appendWindow_pushes (h : previousOf (channel l g s) (windowFor l g e s).onPos = none)
    (hn : (channel l g s).windows.length < 8) :
    appendWindow l g e s = some (windowPushed l g e s, windowFor l g e s) := by
  unfold appendWindow
  dsimp only
  rw [h]
  dsimp only
  rw [pushWindow_of hn]
  rfl

/-- R68, R72: the append to an empty list without a last closed record. -/
theorem appendWindow_empty (h : (channel l g s).windows = []) (hr : (channel l g s).lastClosed = none) :
    appendWindow l g e s = some (windowPushed l g e s, windowFor l g e s) :=
  appendWindow_pushes (previousOf_nothing _ h hr) (by simp [h])

/-- R73: with release enough and the last letter between clear of the new window the window is pushed. -/
theorem appendWindow_released (h : previousOf (channel l g s) (windowFor l g e s).onPos = some p)
    (hr : (toCounts l (gateTimes l g s).minRelease s : Int) ≤ signedDist (windowFor l g e s).onPos p.off)
    (hc : ∀ x, (liesBetween l g p.newest e.serial s).getLast? = some x →
      ahead (clearPosition l g x s) (windowFor l g e s).onPos = false) :
    appendWindow l g e s = (pushWindow l (windowFor l g e s) e.serial s).map (fun t => (t, windowFor l g e s)) := by
  unfold appendWindow
  dsimp only
  rw [h]
  dsimp only
  rw [if_pos hr]
  cases hl : (liesBetween l g p.newest e.serial s).getLast? with
  | none => rfl
  | some x =>
    dsimp only
    rw [if_neg (by simp [hc x hl])]

/-- R73: a letter between that would not be clear of the new window makes the append fail. -/
theorem appendWindow_blocked {x : Entry} (h : previousOf (channel l g s) (windowFor l g e s).onPos = some p)
    (hr : (toCounts l (gateTimes l g s).minRelease s : Int) ≤ signedDist (windowFor l g e s).onPos p.off)
    (hl : (liesBetween l g p.newest e.serial s).getLast? = some x)
    (ha : ahead (clearPosition l g x s) (windowFor l g e s).onPos = true) : appendWindow l g e s = none := by
  unfold appendWindow
  dsimp only
  rw [h]
  dsimp only
  rw [if_pos hr, hl]
  dsimp only
  rw [if_pos ha]
  rfl

/-- R74: with too short a release the window is merged, where nothing lies between and the last window may be merged
into, and fails otherwise. -/
theorem appendWindow_short (h : previousOf (channel l g s) (windowFor l g e s).onPos = some p)
    (hr : signedDist (windowFor l g e s).onPos p.off < (toCounts l (gateTimes l g s).minRelease s : Int)) :
    appendWindow l g e s =
      (if (liesBetween l g p.newest e.serial s).isEmpty && p.mergeable then
        mergeWindow l (windowFor l g e s) e.serial (toCounts l (gateTimes l g s).maxHold s) s
      else none).map (fun t => (t, windowFor l g e s)) := by
  unfold appendWindow
  dsimp only
  rw [h]
  dsimp only
  rw [if_neg (Int.not_le.mpr hr)]

end

/-! ### The merge -/

theorem changeLast_append (f : Window → Window) (ws : List Window) (w : Window) :
    changeLast f (ws ++ [w]) = ws ++ [f w] := by
  induction ws with
  | nil => rfl
  | cons v vs ih =>
    cases vs with
    | nil => rfl
    | cons x xs => exact congrArg (v :: ·) ih

section
variable {l : LaneId} {s : State} {ws : List Window} {last : Window} {w : PlanWindow} {n maxHold : Nat}

/-- R74: a merge within maxHold and eight items. -/
theorem mergeWindow_of (h : (channel l w.gate s).windows = ws ++ [last]) (hd : dist w.offPos last.onPos ≤ maxHold)
    (hn : last.items.length < 8) : ∃ t, mergeWindow l w n maxHold s = some t ∧
      channel l w.gate t = { channel l w.gate s with
        windows := ws ++ [{ last with offPos := w.offPos, items := last.items ++ [n] }] } := by
  unfold mergeWindow
  rw [h, List.getLast?_concat]
  dsimp only
  rw [if_pos ⟨hd, hn⟩]
  refine ⟨_, rfl, ?_⟩
  rw [channel_updChannel, h, changeLast_append]

theorem mergeWindow_none (h : (channel l w.gate s).windows = ws ++ [last])
    (hn : maxHold < dist w.offPos last.onPos ∨ 8 ≤ last.items.length) : mergeWindow l w n maxHold s = none := by
  unfold mergeWindow
  rw [h, List.getLast?_concat]
  dsimp only
  exact if_neg (by omega)

end

/-! ### Against the last window of a list -/

section
variable {l : LaneId} {g : Gate} {e : Entry} {s : State} {ws : List Window} {w : Window}

/-- R73: behind the last window with release enough. -/
theorem appendWindow_behind (hw : (channel l g s).windows = ws ++ [w])
    (hr : (toCounts l (gateTimes l g s).minRelease s : Int) ≤ signedDist (windowFor l g e s).onPos w.offPos)
    (hc : ∀ x, (liesBetween l g (w.items.getLastD 0) e.serial s).getLast? = some x →
      ahead (clearPosition l g x s) (windowFor l g e s).onPos = false) (hn : ws.length < 7) :
    appendWindow l g e s = some (windowPushed l g e s, windowFor l g e s) := by
  rw [appendWindow_released (previousOf_last _ hw) hr hc, pushWindow_of (by simp [hw]; omega)]
  rfl

/-- R73: behind the last window a letter that is not clear, or a list of eight, makes the append fail. -/
theorem appendWindow_behind_none (hw : (channel l g s).windows = ws ++ [w])
    (hr : (toCounts l (gateTimes l g s).minRelease s : Int) ≤ signedDist (windowFor l g e s).onPos w.offPos)
    (h : (∃ x, (liesBetween l g (w.items.getLastD 0) e.serial s).getLast? = some x ∧
      ahead (clearPosition l g x s) (windowFor l g e s).onPos = true) ∨ 7 ≤ ws.length) : appendWindow l g e s = none := by
  have hprev := previousOf_last (windowFor l g e s).onPos hw
  by_cases hb : ∃ x, (liesBetween l g (w.items.getLastD 0) e.serial s).getLast? = some x ∧
      ahead (clearPosition l g x s) (windowFor l g e s).onPos = true
  · obtain ⟨x, hl, ha⟩ := hb
    exact appendWindow_blocked hprev hr hl ha
  · have hclear : ∀ x, (liesBetween l g (w.items.getLastD 0) e.serial s).getLast? = some x →
        ahead (clearPosition l g x s) (windowFor l g e s).onPos = false := by
      intro x hl
      by_contra ha
      exact hb ⟨x, hl, by simpa using ha⟩
    have hlen := h.resolve_left hb
    rw [appendWindow_released hprev hr hclear, pushWindow_full (by simp [hw]; omega)]
    rfl

/-- R74: the merge into the last window. -/
theorem appendWindow_merges (hw : (channel l g s).windows = ws ++ [w])
    (hr : signedDist (windowFor l g e s).onPos w.offPos < (toCounts l (gateTimes l g s).minRelease s : Int))
    (hb : liesBetween l g (w.items.getLastD 0) e.serial s = []) (ha : w.state ≠ .active)
    (hd : dist (windowFor l g e s).offPos w.onPos ≤ toCounts l (gateTimes l g s).maxHold s) (hn : w.items.length < 8) :
    ∃ t, appendWindow l g e s = some (t, windowFor l g e s) ∧ channel l g t = { channel l g s with
      windows := ws ++ [{ w with offPos := (windowFor l g e s).offPos, items := w.items ++ [e.serial] }] } := by
  obtain ⟨t, ht, hc⟩ := mergeWindow_of (w := windowFor l g e s) (n := e.serial) hw hd hn
  refine ⟨t, ?_, hc⟩
  rw [appendWindow_short (previousOf_last _ hw) hr, hb, if_pos (by simpa using ha), ht]
  rfl

/-- R74: with too short a release and no merge the append fails. -/
theorem appendWindow_merges_none (hw : (channel l g s).windows = ws ++ [w])
    (hr : signedDist (windowFor l g e s).onPos w.offPos < (toCounts l (gateTimes l g s).minRelease s : Int))
    (h : liesBetween l g (w.items.getLastD 0) e.serial s ≠ [] ∨ w.state = .active ∨
      toCounts l (gateTimes l g s).maxHold s < dist (windowFor l g e s).offPos w.onPos ∨ 8 ≤ w.items.length) :
    appendWindow l g e s = none := by
  rw [appendWindow_short (previousOf_last _ hw) hr]
  split
  next hm =>
    simp only [Bool.and_eq_true, List.isEmpty_iff, bne_iff_ne] at hm
    obtain ⟨hnil, hstate⟩ := hm
    rw [mergeWindow_none (w := windowFor l g e s) hw ((h.resolve_left (not_not_intro hnil)).resolve_left hstate)]
    rfl
  · rfl

end

/-! ### Against the last closed record -/

section
variable {l : LaneId} {g : Gate} {e : Entry} {s : State} {r : LastClosed}

/-- R73: a last closed record out of reach, or one with release enough and nothing between. -/
theorem appendWindow_afterRecord (hw : (channel l g s).windows = []) (hc : (channel l g s).lastClosed = some r)
    (h : 65535 < dist (windowFor l g e s).onPos r.offPos ∧ 65535 < dist r.offPos (windowFor l g e s).onPos ∨
      (toCounts l (gateTimes l g s).minRelease s : Int) ≤ signedDist (windowFor l g e s).onPos r.offPos ∧
        liesBetween l g r.newest e.serial s = []) :
    appendWindow l g e s = some (windowPushed l g e s, windowFor l g e s) := by
  have hlen : (channel l g s).windows.length < 8 := by simp [hw]
  by_cases hnear : dist (windowFor l g e s).onPos r.offPos ≤ 65535 ∨ dist r.offPos (windowFor l g e s).onPos ≤ 65535
  · obtain ⟨hr, hb⟩ := h.resolve_left (by omega)
    rw [appendWindow_released (previousOf_record hw hc hnear) hr (by simp [hb]), pushWindow_of hlen]
    rfl
  · exact appendWindow_pushes (previousOf_far hw hc (by omega) (by omega)) hlen

/-- R73: no window is merged into a closed one. -/
theorem appendWindow_afterRecord_none (hw : (channel l g s).windows = []) (hc : (channel l g s).lastClosed = some r)
    (hn : dist (windowFor l g e s).onPos r.offPos ≤ 65535 ∨ dist r.offPos (windowFor l g e s).onPos ≤ 65535)
    (hr : signedDist (windowFor l g e s).onPos r.offPos < (toCounts l (gateTimes l g s).minRelease s : Int)) :
    appendWindow l g e s = none := by
  rw [appendWindow_short (previousOf_record hw hc hn) hr]
  simp

end

end Sys2Proof.Machine
end

