-- ==== Sys2Proof/Proofs/FacingPlans.lean ====
section
/-! The facing planner (R65 to R70, R93): the tests that make a plan REJECT, the choice of a pocket with its reservation, and
the plan of a letter whose tests pass, with its windows and its print. -/

namespace Sys2Proof.Machine

/-! ### The tests of the plan -/

section
variable {l : LaneId} {e : Entry} {v : Verdict} {info : FacedInfo} {s : State}

theorem planVerdict_unfaced (h : v.kind ≠ .faced) : planVerdict l e v s = (s, rejectPlan (.verdict v.kind)) := by
  unfold planVerdict
  split
  next hk _ => exact absurd hk h
  · rfl

theorem planVerdict_faced (h : v.kind = .faced) (hf : v.faced = some info) :
    planVerdict l e v s = planFaced l e info s := by
  unfold planVerdict
  rw [h, hf]

theorem planFaced_headFails {c : PlanCause} (h : headStep l info.style (facing info.presentation).2 s = some c) :
    planFaced l e info s = (s, rejectPlan c) := by
  unfold planFaced
  dsimp only
  rw [h]

theorem planFaced_gateFails {c : PlanCause} (hh : headStep l info.style (facing info.presentation).2 s = none)
    (h : gateStep l (facing info.presentation).1 (facing info.presentation).2 s = some c) :
    planFaced l e info s = (s, rejectPlan c) := by
  unfold planFaced
  dsimp only
  rw [hh, h]

theorem headStep_unprinted {bank : Side} (h : info.style = 0) : headStep l info.style bank s = none := if_pos h

theorem headStep_retired {bank : Side} (h : info.style ≠ 0) (hr : (head l bank s).retired = true) :
    headStep l info.style bank s = some .headRetired := by
  unfold headStep
  dsimp only
  rw [if_neg h, if_pos hr]

theorem headStep_cold {bank : Side} (h : info.style ≠ 0) (hr : (head l bank s).retired = false)
    (hw : (head l bank s).wet = .cold) : headStep l info.style bank s = some .headCold := by
  simp [headStep, h, hr, hw]

theorem headStep_dry {bank : Side} (h : info.style ≠ 0) (hr : (head l bank s).retired = false)
    (hw : (head l bank s).wet = .dry) : headStep l info.style bank s = some .headDry := by
  simp [headStep, h, hr, hw]

theorem headStep_listFull {bank : Side} (h : info.style ≠ 0) (hr : (head l bank s).retired = false)
    (hw : (head l bank s).wet = .ready) (hn : 16 ≤ (head l bank s).prints.length) :
    headStep l info.style bank s = some .printListFull := by
  simp [headStep, h, hr, hw, Nat.not_lt.mpr hn]

theorem headStep_passes {bank : Side} (h : info.style ≠ 0) (hr : (head l bank s).retired = false)
    (hw : (head l bank s).wet = .ready) (hn : (head l bank s).prints.length < 16) :
    headStep l info.style bank s = none := by
  simp [headStep, h, hr, hw, hn]

theorem gateStep_none {flip : Bool} {bank : Side} (hf : flip = true → (s.gsq.get l).flipRetired = false)
    (hb : bank = .far → (s.gsq.get l).bankRetired = false) : gateStep l flip bank s = none := by
  refine if_neg ?_
  simp only [Bool.or_eq_true, Bool.and_eq_true, beq_iff_eq]
  rintro (⟨h, hr⟩ | ⟨h, hr⟩)
  · rw [hf h] at hr; cases hr
  · rw [hb h] at hr; cases hr

theorem gateStep_retired {flip : Bool} {bank : Side}
    (h : (flip = true ∧ (s.gsq.get l).flipRetired = true) ∨ (bank = .far ∧ (s.gsq.get l).bankRetired = true)) :
    gateStep l flip bank s = some .gateRetired := if_pos (by simpa using h)

end

/-! ### The appends of a plan -/

section
variable {l : LaneId} {e : Entry} {info : FacedInfo} {s : State}

theorem planFaced_flipBusy (hh : headStep l info.style (facing info.presentation).2 s = none)
    (hg : gateStep l (facing info.presentation).1 (facing info.presentation).2 s = none)
    (hf : (facing info.presentation).1 = true) (ha : appendWindow l .flip e s = none) :
    planFaced l e info s = gateBusyReject l .flip e s := by
  unfold planFaced
  dsimp only
  rw [hh, hg, hf]
  simp [appendWhen, ha]

theorem planFaced_bankBusy (hh : headStep l info.style .far s = none) (hg : gateStep l false .far s = none)
    (hp : facing info.presentation = (false, .far)) (ha : appendWindow l .bank e s = none) :
    planFaced l e info s = gateBusyReject l .bank e s := by
  unfold planFaced
  dsimp only
  rw [hp, hh, hg]
  simp [appendWhen, ha]

/-- R66 to R70: the plan of a letter whose tests pass and whose windows at the flip and bank gates are appended. -/
theorem planFaced_passes {flip : Bool} {bank : Side} {s1 s2 : State} {w1 w2 : List PlanWindow}
    (hp : facing info.presentation = (flip, bank)) (hh : headStep l info.style bank s = none)
    (hg : gateStep l flip bank s = none) (h1 : appendWhen flip l .flip e s = some (s1, w1))
    (h2 : appendWhen (bank == .far) l .bank e s1 = some (s2, w2)) :
    planFaced l e info s = ((pocketStep l bank e info (postPrint l bank e info s2)).1, {
      reject := false, cause := (pocketStep l bank e info (postPrint l bank e info s2)).2.cause, flip := flip,
      bank := bank, print := planPrint l bank e info s2,
      pocket := (pocketStep l bank e info (postPrint l bank e info s2)).2.pocket,
      windows := w1 ++ w2 ++ (pocketStep l bank e info (postPrint l bank e info s2)).2.windows }) := by
  unfold planFaced
  dsimp only
  rw [hp, hh, hg]
  dsimp only
  rw [h1]
  dsimp only
  rw [h2]

/-- R66: a letter of style 0 that is faced as it lies needs no window but its pocket's, and no print. -/
theorem planFaced_straight (hp : facing info.presentation = (false, .near)) (hs : info.style = 0) :
    planFaced l e info s = ((pocketStep l .near e info s).1, {
      reject := false, cause := (pocketStep l .near e info s).2.cause, flip := false, bank := .near, print := none,
      pocket := (pocketStep l .near e info s).2.pocket, windows := (pocketStep l .near e info s).2.windows }) := by
  have hpost : postPrint l .near e info s = s := if_pos hs
  have hprint : planPrint l .near e info s = none := if_pos hs
  have h := planFaced_passes (l := l) (e := e) (s := s) hp (headStep_unprinted hs)
    (gateStep_none (by simp) (by simp)) rfl rfl
  rw [hpost, hprint] at h
  exact h

end

/-! ### The choice of a pocket -/

section
variable {l : LaneId} {bank : Side} {e : Entry} {info : FacedInfo} {s : State}

theorem choosePocket_primary (h : pocketRoom l (bankPocket bank info.pocketPrimary) s = true) :
    choosePocket l bank info s = some (bankPocket bank info.pocketPrimary) := if_pos h

theorem choosePocket_alternate (h : pocketRoom l (bankPocket bank info.pocketPrimary) s = false)
    (hn : info.pocketAlternate ≠ 0) (ha : pocketRoom l (bankPocket bank info.pocketAlternate) s = true) :
    choosePocket l bank info s = some (bankPocket bank info.pocketAlternate) := by
  unfold choosePocket
  rw [if_neg (by simp [h]), if_pos ⟨hn, ha⟩]

theorem choosePocket_none (h : pocketRoom l (bankPocket bank info.pocketPrimary) s = false)
    (ha : info.pocketAlternate = 0 ∨ pocketRoom l (bankPocket bank info.pocketAlternate) s = false) :
    choosePocket l bank info s = none := by
  unfold choosePocket
  rw [if_neg (by simp [h]), if_neg]
  rintro ⟨hn, hr⟩
  rw [ha.resolve_left hn] at hr
  cases hr

/-- R70: no room in either pocket. -/
theorem pocketStep_full (h : choosePocket l bank info s = none) : pocketStep l bank e info s =
    (emit .pocketFull (some l) (pocketCode (bankPocket bank info.pocketPrimary)).val e.serial 0 0 s,
      { pocket := endPocket bank, cause := some .pocketFull, windows := [] }) := by
  unfold pocketStep
  dsimp only
  rw [h]

/-- R70: the chosen pocket's gate takes no window. -/
theorem pocketStep_busy {p : Pocket} {g : Gate} (h : choosePocket l bank info s = some p) (hg : pocketGate p = some g)
    (ha : appendWindow l g e s = none) : pocketStep l bank e info s =
    (emit .gateBusy (some l) (gateCode g).val e.serial 0 0 s,
      { pocket := endPocket bank, cause := some .gateBusy, windows := [] }) := by
  unfold pocketStep
  dsimp only
  rw [h]
  dsimp only
  rw [hg]
  dsimp only
  rw [ha]

/-- R70, R108: the chosen pocket is reserved and its gate's window appended. -/
theorem pocketStep_reserves {p : Pocket} {g : Gate} {t : State} {w : PlanWindow}
    (h : choosePocket l bank info s = some p) (hg : pocketGate p = some g) (ha : appendWindow l g e s = some (t, w)) :
    pocketStep l bank e info s = (reserve l p e.serial t, { pocket := p, cause := none, windows := [w] }) := by
  unfold pocketStep
  dsimp only
  rw [h]
  dsimp only
  rw [hg]
  dsimp only
  rw [ha]

end

/-! ### Reservations -/

theorem mem_insertSerial (n m : Nat) (ns : List Nat) : m ∈ insertSerial n ns ↔ m = n ∨ m ∈ ns := by
  induction ns with
  | nil => simp [insertSerial]
  | cons k ns ih =>
    unfold insertSerial
    split
    · exact List.mem_cons
    · rw [List.mem_cons, ih, List.mem_cons]
      tauto

theorem reserve_leaves (l : LaneId) (p : Pocket) (n : Nat) (s : State) :
    Only (fun q => q = .raised ∨ q = .pockets l) s (reserve l p n s) := by
  apply reserve_only (h := only_refl _ _) <;> simp

/-- R108: a reserved pocket has the serial in its list and its fill as it was. -/
theorem reserve_spec (l : LaneId) (p : Pocket) (n : Nat) (s : State) :
    (pocketRec l p (reserve l p n s)).fill = (pocketRec l p s).fill ∧
      ∀ m, m ∈ (pocketRec l p (reserve l p n s)).reservations ↔ m = n ∨ m ∈ (pocketRec l p s).reservations := by
  obtain ⟨hfill, hres⟩ := fullTest_load l p (updPocket l p (fun r =>
    { r with reservations := insertSerial n r.reservations }) s)
  rw [pocketRec_updPocket] at hfill hres
  refine ⟨hfill, fun m => ?_⟩
  have hlist : (pocketRec l p (reserve l p n s)).reservations = insertSerial n (pocketRec l p s).reservations := hres
  rw [hlist]
  exact mem_insertSerial n m _

/-! ### The print -/

section
variable {l : LaneId} {bank : Side} {e : Entry} {info : FacedInfo} {s t : State}

theorem printFor_congr (hg : t.geom.get l = s.geom.get l) (hp : t.pmc = s.pmc) :
    printFor l bank e info t = printFor l bank e info s := by
  unfold printFor styleOf geometry
  rw [hg, hp]

/-- R93: start, columns and clipping of a posted print, over the integers. -/
theorem printFor_spans (l : LaneId) (bank : Side) (e : Entry) (info : FacedInfo) (s : State) :
    ((printFor l bank e info s).startMm : Int) =
        max ((info.markCentre : Int) - (printFor l bank e info s).anchor) (geometry l s).edgeMargin ∧
      ((printFor l bank e info s).columns : Int) = max 0 (min ((printFor l bank e info s).width : Int)
        ((e.length.getD 0 : Int) - (geometry l s).edgeMargin - (printFor l bank e info s).startMm)) ∧
      (printFor l bank e info s).clipped =
        decide ((printFor l bank e info s).columns < (printFor l bank e info s).width) := by
  unfold printFor printColumns
  dsimp only
  refine ⟨by omega, by omega, rfl⟩

/-- R84, R93: an undefined style is planned with a width of 16 and no anchor. -/
theorem printFor_size (l : LaneId) (bank : Side) (e : Entry) (info : FacedInfo) (s : State) :
    ((printFor l bank e info s).width, (printFor l bank e info s).anchor) =
      if (styleOf info.style s).kind = .none then (16, 0)
      else (((styleOf info.style s).images.get bank).width, ((styleOf info.style s).images.get bank).anchor) := by
  unfold printFor
  dsimp only
  split <;> rfl

end

/-! ### Windows appended to empty lists -/

section
variable {l : LaneId} {g : Gate} {e : Entry} {s t : State} {need : Bool}

theorem windowFor_congr (hg : t.geom.get l = s.geom.get l) (hb : t.belt.get l = s.belt.get l) :
    windowFor l g e t = windowFor l g e s := by
  unfold windowFor toCounts gateTimes geometry
  rw [hg, hb]

/-- The state after an append that a plan may not need, to an empty list. -/
def pushedWhen (need : Bool) (l : LaneId) (g : Gate) (e : Entry) (s : State) : State :=
  if need then windowPushed l g e s else s

theorem pushedWhen_leaves (need : Bool) (l : LaneId) (g : Gate) (e : Entry) (s : State) :
    Only (fun p => p = .gates l) s (pushedWhen need l g e s) :=
  only_ite _ (windowPushed_leaves l g e s) (only_refl _ s)

theorem channel_pushedWhen_other {k : Gate} (h : k ≠ g) : channel l k (pushedWhen need l g e s) = channel l k s := by
  unfold pushedWhen
  split
  · exact channel_windowPushed_other h
  · rfl

theorem appendWhen_empty (h : need = true → (channel l g s).windows = [] ∧ (channel l g s).lastClosed = none) :
    appendWhen need l g e s = some (pushedWhen need l g e s, if need then [windowFor l g e s] else []) := by
  cases need with
  | false => rfl
  | true =>
    obtain ⟨hw, hc⟩ := h rfl
    simp [appendWhen, appendWindow_empty hw hc, pushedWhen]

theorem pocketGate_ne {p : Pocket} (h : pocketGate p = some g) : g ≠ .flip ∧ g ≠ .bank := by
  cases p <;> cases h <;> decide

end

/-! ### The plan of a letter whose gates are idle -/

section
variable {l : LaneId} {flip : Bool} {bank : Side} {g : Gate} {e : Entry} {info : FacedInfo} {s : State}

/-- The state in which the pocket is chosen: the windows at the flip and bank gates pushed and the print posted. -/
def facedPosted (l : LaneId) (flip : Bool) (bank : Side) (e : Entry) (info : FacedInfo) (s : State) : State :=
  postPrint l bank e info (pushedWhen (bank == .far) l .bank e (pushedWhen flip l .flip e s))

theorem facedPushed_leaves (l : LaneId) (flip : Bool) (bank : Side) (e : Entry) (s : State) :
    Only (fun p => p = .gates l) s (pushedWhen (bank == .far) l .bank e (pushedWhen flip l .flip e s)) :=
  only_trans (pushedWhen_leaves _ l .flip e s) (pushedWhen_leaves _ l .bank e _)

theorem facedPosted_leaves (l : LaneId) (flip : Bool) (bank : Side) (e : Entry) (info : FacedInfo) (s : State) :
    Only (fun p => p = .gates l ∨ p = .heads l) s (facedPosted l flip bank e info s) := by
  refine only_trans (only_mono (facedPushed_leaves l flip bank e s) (fun p hp => Or.inl hp)) ?_
  apply postPrint_only (h := only_refl _ _)
  exact Or.inr rfl

/-- R68, R69: what the gates hold when the pocket is chosen. -/
theorem channel_facedPosted (l : LaneId) (flip : Bool) (bank : Side) (e : Entry) (info : FacedInfo) (s : State) :
    (∀ k, k ≠ .flip → k ≠ .bank → channel l k (facedPosted l flip bank e info s) = channel l k s) ∧
      (flip = true → (channel l .flip s).windows = [] →
        (channel l .flip (facedPosted l flip bank e info s)).windows =
          [spanWindow (windowFor l .flip e s) e.serial]) ∧
      (bank = .far → (channel l .bank s).windows = [] →
        (channel l .bank (facedPosted l flip bank e info s)).windows =
          [spanWindow (windowFor l .bank e s) e.serial]) := by
  have hpost : ∀ k, channel l k (facedPosted l flip bank e info s) =
      channel l k (pushedWhen (bank == .far) l .bank e (pushedWhen flip l .flip e s)) := by
    intro k
    refine channel_congr l k ?_
    unfold facedPosted postPrint
    split <;> rfl
  refine ⟨fun k hf hb => ?_, fun hflip hw => ?_, fun hbank hw => ?_⟩
  · rw [hpost, channel_pushedWhen_other hb, channel_pushedWhen_other hf]
  · rw [hpost, channel_pushedWhen_other (by decide), hflip]
    have hpush : pushedWhen true l .flip e s = windowPushed l .flip e s := rfl
    rw [hpush, channel_windowPushed, hw]
    rfl
  · have hflip := pushedWhen_leaves flip l .flip e s
    have hpush : ∀ u, pushedWhen (Side.far == .far) l .bank e u = windowPushed l .bank e u := fun _ => rfl
    rw [hpost, hbank, hpush, channel_windowPushed, channel_pushedWhen_other (by decide), hw,
      windowFor_congr (hflip (.geom l) (by simp)) (hflip (.belt l) (by simp))]
    rfl

/-- R93: the print at the tail of the bank's head. -/
theorem head_facedPosted (l : LaneId) (flip : Bool) (bank : Side) (e : Entry) (s : State) (hs : info.style ≠ 0) :
    (head l bank (facedPosted l flip bank e info s)).prints = (head l bank s).prints ++ [printFor l bank e info s] := by
  have honly := facedPushed_leaves l flip bank e s
  unfold facedPosted postPrint
  rw [if_neg hs, head_updHead, printFor_congr (honly (.geom l) (by simp)) (honly .postmark (by simp))]
  have hhead := head_of_only l bank honly (by simp)
  rw [hhead]

/-- What the plan of a letter asks of its tests and its gates: a head that is ready with room in its list, and gates that
are not retired and have nothing to compare the letter's windows with (R66 to R70, R73). -/
structure IdleFacing (l : LaneId) (flip : Bool) (bank : Side) (g : Gate) (info : FacedInfo) (s : State) : Prop where
  facing : Machine.facing info.presentation = (flip, bank)
  passes : headStep l info.style bank s = none
  flipIdle : flip = true → (s.gsq.get l).flipRetired = false ∧ (channel l .flip s).windows = [] ∧
    (channel l .flip s).lastClosed = none
  bankIdle : bank = .far → (s.gsq.get l).bankRetired = false ∧ (channel l .bank s).windows = [] ∧
    (channel l .bank s).lastClosed = none
  room : pocketRoom l (bankPocket bank info.pocketPrimary) s = true
  gate : pocketGate (bankPocket bank info.pocketPrimary) = some g
  windows : (channel l g s).windows = []
  lastClosed : (channel l g s).lastClosed = none

/-- The state after the plan: the pocket gate's window pushed and the pocket reserved. -/
def facedPlanned (l : LaneId) (flip : Bool) (bank : Side) (g : Gate) (e : Entry) (info : FacedInfo) (s : State) :
    State :=
  reserve l (bankPocket bank info.pocketPrimary) e.serial (windowPushed l g e (facedPosted l flip bank e info s))

/-- R66 to R70: the plan. -/
theorem planFaced_idle (h : IdleFacing l flip bank g info s) :
    planFaced l e info s = (facedPlanned l flip bank g e info s, {
      reject := false, cause := none, flip := flip, bank := bank, print := planPrint l bank e info s,
      pocket := bankPocket bank info.pocketPrimary,
      windows := (if flip then [windowFor l .flip e s] else []) ++
        (if bank = .far then [windowFor l .bank e s] else []) ++ [windowFor l g e s] }) := by
  have honly := facedPosted_leaves l flip bank e info s
  have hpushed := facedPushed_leaves l flip bank e s
  have hflip := pushedWhen_leaves flip l .flip e s
  obtain ⟨hgf, hgb⟩ := pocketGate_ne h.gate
  have hchan := (channel_facedPosted l flip bank e info s).1 g hgf hgb
  have hroom : pocketRoom l (bankPocket bank info.pocketPrimary) (facedPosted l flip bank e info s) = true := by
    unfold pocketRoom
    rw [pocketRec_congr l _ (honly (.pockets l) (by simp))]
    exact h.room
  have happend := appendWindow_empty (l := l) (g := g) (e := e) (s := facedPosted l flip bank e info s)
    (by rw [hchan]; exact h.windows) (by rw [hchan]; exact h.lastClosed)
  have hplan := planFaced_passes (e := e) h.facing h.passes
    (gateStep_none (fun hf => (h.flipIdle hf).1) (fun hb => (h.bankIdle hb).1))
    (appendWhen_empty (fun hf => (h.flipIdle hf).2))
    (appendWhen_empty (need := bank == .far) (fun hb => by
      rw [channel_pushedWhen_other (by decide)]
      exact (h.bankIdle (by simpa using hb)).2))
  have hpocket := pocketStep_reserves (choosePocket_primary hroom) h.gate happend
  have hprint : planPrint l bank e info (pushedWhen (bank == .far) l .bank e (pushedWhen flip l .flip e s)) =
      planPrint l bank e info s := by
    unfold planPrint
    rw [printFor_congr (hpushed (.geom l) (by simp)) (hpushed .postmark (by simp))]
  unfold facedPosted at hpocket
  rw [hpocket, hprint] at hplan
  rw [hplan, windowFor_congr (g := .bank) (hflip (.geom l) (by simp)) (hflip (.belt l) (by simp))]
  have hpost := windowFor_congr (g := g) (e := e) (honly (.geom l) (by simp)) (honly (.belt l) (by simp))
  unfold facedPosted at hpost
  rw [hpost]
  cases bank <;> rfl

/-- R68: the windows that the gates of the plan hold after it. -/
theorem channel_facedPlanned (h : IdleFacing l flip bank g info s) {k : Gate}
    (hk : k = g ∨ (k = .flip ∧ flip = true) ∨ (k = .bank ∧ bank = .far)) :
    (channel l k (facedPlanned l flip bank g e info s)).windows = [spanWindow (windowFor l k e s) e.serial] := by
  obtain ⟨hgf, hgb⟩ := pocketGate_ne h.gate
  obtain ⟨hother, hflip, hbank⟩ := channel_facedPosted l flip bank e info s
  have honly := facedPosted_leaves l flip bank e info s
  have hreserve : channel l k (facedPlanned l flip bank g e info s) =
      channel l k (windowPushed l g e (facedPosted l flip bank e info s)) :=
    channel_congr l k (reserve_leaves l _ _ _ (.gates l) (by simp))
  rw [hreserve]
  obtain rfl | ⟨rfl, hf⟩ | ⟨rfl, hb⟩ := hk
  · rw [channel_windowPushed, hother k hgf hgb, h.windows,
      windowFor_congr (honly (.geom l) (by simp)) (honly (.belt l) (by simp))]
    rfl
  · rw [channel_windowPushed_other hgf.symm, hflip hf (h.flipIdle hf).2.1]
  · rw [channel_windowPushed_other hgb.symm, hbank hb (h.bankIdle hb).2.1]

/-- R108: the pocket of the plan after it. -/
theorem pocketRec_facedPlanned (l : LaneId) (flip : Bool) (bank : Side) (g : Gate) (e : Entry) (info : FacedInfo)
    (s : State) :
    (pocketRec l (bankPocket bank info.pocketPrimary) (facedPlanned l flip bank g e info s)).fill =
        (pocketRec l (bankPocket bank info.pocketPrimary) s).fill ∧
      ∀ n, n ∈ (pocketRec l (bankPocket bank info.pocketPrimary) (facedPlanned l flip bank g e info s)).reservations ↔
        n = e.serial ∨ n ∈ (pocketRec l (bankPocket bank info.pocketPrimary) s).reservations := by
  have honly := facedPosted_leaves l flip bank e info s
  have hpocket : pocketRec l (bankPocket bank info.pocketPrimary)
      (windowPushed l g e (facedPosted l flip bank e info s)) = pocketRec l (bankPocket bank info.pocketPrimary) s :=
    pocketRec_congr l _ (honly (.pockets l) (by simp))
  have hspec := reserve_spec l (bankPocket bank info.pocketPrimary) e.serial
    (windowPushed l g e (facedPosted l flip bank e info s))
  rw [hpocket] at hspec
  exact hspec

/-- The plan of a straight letter of style 0 leaves all but the gates and the pockets. -/
theorem facedPlanned_straight_leaves (l : LaneId) (g : Gate) (e : Entry) (s : State) (hs : info.style = 0) :
    Only (fun q => q = .gates l ∨ q = .raised ∨ q = .pockets l) s (facedPlanned l false .near g e info s) := by
  have hposted : facedPosted l false .near e info s = s := if_pos hs
  unfold facedPlanned
  rw [hposted]
  exact only_trans (only_mono (windowPushed_leaves l g e s) (fun _ hq => Or.inl hq))
    (only_mono (reserve_leaves l _ _ _) (fun _ hq => Or.inr hq))

/-- R93: the print of the plan after it. -/
theorem head_facedPlanned (l : LaneId) (flip : Bool) (bank : Side) (g : Gate) (e : Entry) (s : State)
    (hs : info.style ≠ 0) : (head l bank (facedPlanned l flip bank g e info s)).prints =
      (head l bank s).prints ++ [printFor l bank e info s] := by
  have hreserve : head l bank (facedPlanned l flip bank g e info s) =
      head l bank (windowPushed l g e (facedPosted l flip bank e info s)) :=
    head_of_only l bank (reserve_leaves l _ _ _) (by simp)
  rw [hreserve, head_of_only l bank (windowPushed_leaves l g e _) (by simp)]
  exact head_facedPosted l flip bank e s hs

end

end Sys2Proof.Machine

open Sys2Proof Sys2Proof.Machine

/-- Settles O33: the REJECT tests one by one, the append by what it is compared with, and the plan by the pocket that its
last step chooses. -/
theorem plansAndWindows : Obligations.PlansAndWindows := by
  refine ⟨⟨rfl, rfl, rfl, rfl⟩, fun l e v s => ⟨planVerdict_unfaced, fun info hk hf hs => ?_, fun info hk hf hs hg => ?_,
    fun c => ⟨rfl, rfl, rfl, rfl, rfl, rfl, rfl⟩⟩, fun l g e s hw hc => ?_, fun l e v info s hk hf hp hs h1 ho hr hw hc => ?_,
    fun l e v info s flip h g st width anchor hk hf hs hp hret hwet hlen hflip hbank hroom hg hw hc hst hsize => ?_,
    fun l g e s w ws between minRelease maxHold hw hb hmin hmax => ?_, fun l g e s r hw hc => ?_,
    fun l e v info s hk hf hs hflip hbank => ?_⟩
  · rw [planVerdict_faced hk hf]
    exact ⟨fun hret => planFaced_headFails (headStep_retired hs hret), fun hret =>
      ⟨fun hwet => planFaced_headFails (headStep_cold hs hret hwet),
        fun hwet => planFaced_headFails (headStep_dry hs hret hwet),
        fun hwet hlen => planFaced_headFails (headStep_listFull hs hret hwet hlen)⟩⟩
  · rw [planVerdict_faced hk hf]
    exact planFaced_gateFails (headStep_unprinted hs) (gateStep_retired hg)
  · refine ⟨_, _, appendWindow_empty hw hc, rfl, rfl, rfl, ?_, fun k hkg => channel_windowPushed_other hkg⟩
    rw [channel_windowPushed, hw]
    rfl
  · have hidle : IdleFacing l false .near .n1 info s :=
      { facing := by rw [hp]; rfl
        passes := headStep_unprinted hs
        flipIdle := by simp
        bankIdle := by simp
        room := by rw [h1]; simp [pocketRoom, bankPocket, ho, hr]
        gate := by rw [h1]; rfl
        windows := hw
        lastClosed := hc }
    have hpocket : bankPocket .near info.pocketPrimary = .n1 := by rw [h1]; rfl
    have hprint : planPrint l .near e info s = none := if_pos hs
    obtain ⟨hfill, hres⟩ := pocketRec_facedPlanned l false .near .n1 e info s
    have hplan := planFaced_idle (e := e) hidle
    have honly := facedPlanned_straight_leaves l .n1 e s hs
    rw [hprint, hpocket] at hplan
    rw [hpocket] at hfill hres
    refine ⟨_, _, (planVerdict_faced hk hf).trans hplan, rfl, hfill, hres, channel_facedPlanned hidle (Or.inl rfl), ?_, ?_⟩
    · exact perLane_ext (fun k => honly (.track k) (by simp))
    · exact perLane_ext (fun k => honly (.heads k) (by simp))
  · have hidle : IdleFacing l flip h g info s :=
      { facing := hp
        passes := headStep_passes hs hret hwet hlen
        flipIdle := hflip
        bankIdle := hbank
        room := hroom
        gate := hg
        windows := hw
        lastClosed := hc }
    obtain ⟨hstart, hcolumns, hclipped⟩ := printFor_spans l h e info s
    have hprintSize := printFor_size l h e info s
    rw [← hst, ← hsize] at hprintSize
    obtain ⟨hwd, han⟩ := Prod.mk.inj hprintSize
    have hprint : planPrint l h e info s =
        some { head := h, style := info.style, generation := (printFor l h e info s).generation } := if_neg hs
    have hplan := planFaced_idle (e := e) hidle
    rw [hprint] at hplan
    rw [hwd] at hcolumns hclipped
    rw [han] at hstart
    exact ⟨_, _, (planVerdict_faced hk hf).trans hplan, head_facedPlanned l flip h g e s hs, rfl, rfl, by rw [hst]; rfl, rfl,
      hwd, han, by rw [hst]; rfl, hstart, hcolumns, hclipped, fun k => channel_facedPlanned hidle,
      (pocketRec_facedPlanned l flip h g e info s).2⟩
  · subst hb hmin hmax
    refine ⟨fun hr hclear hlen => ⟨_, appendWindow_behind hw hr hclear hlen, ?_⟩, appendWindow_behind_none hw,
      appendWindow_merges hw, appendWindow_merges_none hw⟩
    rw [channel_windowPushed, hw, List.append_assoc]
    rfl
  · exact ⟨fun h1 h2 => ⟨_, appendWindow_afterRecord hw hc (Or.inl ⟨h1, h2⟩)⟩, appendWindow_afterRecord_none hw hc,
      fun hr hb => ⟨_, appendWindow_afterRecord hw hc (Or.inr ⟨hr, hb⟩)⟩⟩
  · rw [planVerdict_faced hk hf]
    refine ⟨fun hp ha => ?_, fun hp ha => ?_, fun hp => ⟨fun hno halt => ?_, fun hno hn halt g t w hg ha => ?_,
      fun hroom g hg ha => ?_⟩⟩
    · exact planFaced_flipBusy (headStep_unprinted hs) (gateStep_none (fun _ => hflip) (fun _ => hbank)) hp ha
    · exact planFaced_bankBusy (headStep_unprinted hs) (gateStep_none (fun _ => hflip) (fun _ => hbank)) hp ha
    · rw [planFaced_straight hp hs, pocketStep_full (choosePocket_none hno halt)]
      rfl
    · rw [planFaced_straight hp hs, pocketStep_reserves (choosePocket_alternate hno hn halt) hg ha]
    · rw [planFaced_straight hp hs, pocketStep_busy (choosePocket_primary hroom) hg ha]
      rfl

end

