-- ==== Sys2Proof/Proofs/PrintsAndVerify.lean ====
section
/-! The end of a print (R96, R100), the raster loads (R98, R99) and the verify eye with its trim (R100, R101). -/

namespace Sys2Proof.Machine

/-! ### Heads beside their own operations -/

section
variable (l : LaneId) (h : Side) (s : State)

theorem head_settle (old : State) : head l h (settle old s) = head l h s := by
  unfold head
  rw [settle_cnu]

theorem head_emit (c : EventCode) (k : Option LaneId) (j n a b : Nat) : head l h (emit c k j n a b s) = head l h s :=
  head_of_only l h (emit_leaves s c k j n a b) (by simp)

theorem head_countUp (c : Tally) : head l h (countUp l c s) = head l h s :=
  head_of_only l h (countUp_only (ps := fun p => p = .tally l) l c (only_refl _ s) rfl) (by simp)

/-- A head has changed in its retired flag at most. -/
def RetiredOnly (s t : State) : Prop := ∃ r, head l h t = { head l h s with retired := r }

variable {l h s}

theorem retiredOnly_of_eq {t : State} (e : head l h t = head l h s) : RetiredOnly l h s t := ⟨(head l h s).retired, e⟩

theorem RetiredOnly.trans {t u : State} (e : RetiredOnly l h s t) (f : RetiredOnly l h t u) : RetiredOnly l h s u := by
  obtain ⟨r, hr⟩ := e
  obtain ⟨q, hq⟩ := f
  exact ⟨q, by rw [hq, hr]⟩

variable (l h s)

theorem retireElement_retiredOnly (a : AttrId) : RetiredOnly l h s (retireElement l a s) := by
  have hlane : head l h (retireLane l s) = head l h s := by
    refine head_of_only (ps := fun p => p ≠ .heads l) l h ?_ (by simp)
    apply retireLane_only (h := only_refl _ _) <;> simp
  have hflag : ∀ k, RetiredOnly l h s (updHead l k (fun d => { d with retired := true }) s) := by
    intro k
    by_cases hk : h = k
    · exact hk ▸ ⟨true, head_updHead l h _ s⟩
    · exact retiredOnly_of_eq (head_updHead_other l _ s hk)
  cases a with
  | lampReserve | tracking => exact retiredOnly_of_eq hlane
  | nearHeadWet => exact hflag .near
  | farHeadWet => exact hflag .far
  | flipAccuracy | bankAccuracy | pocketAccuracy | nearHeadAlign | farHeadAlign | timeliness | calCurrency =>
    exact retiredOnly_of_eq rfl

/-- The failing test sets the retired flag of a head at most (R161 to R163). -/
theorem failingTest_retiredOnly (a : AttrId) : RetiredOnly l h s (failingTest l a s) := by
  have hhold : ∀ u, head l h (healthHold l u) = head l h u := fun u => head_setHold l u _ _ h
  have hfailing : head l h (emit .attrFailing (some l) (attrCode a) 0 (attr l a s).normalized 0
      (raise .health (updAttr l a (fun r => { r with state := .failing }) s))) = head l h s := head_emit l h _ _ _ _ _ _ _
  have hretire : ∀ u, RetiredOnly l h u (retireRecord l a u) := fun u =>
    (retiredOnly_of_eq (head_emit l h (raise .health (updAttr l a (fun r => { r with state := .retired }) u))
      .attrRetired (some l) (attrCode a) 0 (attr l a u).normalized 0)).trans (retireElement_retiredOnly l h _ a)
  unfold failingTest
  split
  · unfold enterFailing
    dsimp only
    split
    · exact retiredOnly_of_eq hfailing
    · exact retiredOnly_of_eq ((hhold _).trans hfailing)
    · exact (retiredOnly_of_eq hfailing).trans (hretire _)
  · exact retiredOnly_of_eq (hhold _)
  · exact retiredOnly_of_eq rfl

/-- An evaluation sets the retired flag of a head at most (R158, R163). -/
theorem evaluate_retiredOnly (a : AttrId) (raw normal : Int) : RetiredOnly l h s (evaluate l a raw normal s) :=
  (retiredOnly_of_eq rfl).trans (failingTest_retiredOnly l h _ a)

end

/-! ### The end of a print -/

section
variable {l : LaneId} {h : Side} {p : Print} {i : Fin 2} {c : PrintCount} {s : State}

theorem enterVerify_room (x : Pos) (hv : (head l h s).verify.length < 8) :
    enterVerify l h x s = updHead l h (fun d => { d with verify := d.verify ++ [x] }) s := if_pos hv

/-- R96, R99: the head after the end of a print from slot `i`, before the verify entry. -/
def printTakenOff (l : LaneId) (h : Side) (serial : Nat) (i : Fin 2) (s : State) : State :=
  updHead l h (emptyWaiting i) (updHead l h (removePrint serial) s)

theorem printTakenOff_lists (l : LaneId) (h : Side) (n : Nat) (i : Fin 2) (s : State) :
    (head l h (printTakenOff l h n i s)).prints = (head l h s).prints.filter (fun x => x.serial != n) ∧
      (head l h (printTakenOff l h n i s)).verify = (head l h s).verify := by
  obtain ⟨hprints, hverify, -, -⟩ := emptyWaiting_keeps i (removePrint n (head l h s))
  unfold printTakenOff
  rw [head_updHead, head_updHead, hprints, hverify]
  exact ⟨rfl, rfl⟩

/-- R96, R100: a print of at least one column that ends with room in the verify list. -/
theorem endPrint_printed (clipped : Bool) (hi : p.image = some (i, c)) (hc : 0 < p.columns)
    (hv : (head l h s).verify.length < 8) : endPrint l h p clipped s =
      countUp l (.print c) (writePrinted l p clipped c
        (updHead l h (fun d => { d with verify := d.verify ++ [posAdd p.start (geometry l s).verifyOffset] })
          (printTakenOff l h p.serial i s))) := by
  have hroom : (head l h (printTakenOff l h p.serial i s)).verify.length < 8 := by
    rw [(printTakenOff_lists l h p.serial i s).2]
    exact hv
  unfold endPrint
  rw [hi]
  dsimp only
  rw [if_neg (by omega)]
  exact congrArg (fun u => countUp l (.print c) (writePrinted l p clipped c u)) (enterVerify_room _ hroom)

theorem printEnd_of (hm : laneMode l s ≠ .stopped) (hp : printingOf (head l h s) = some p)
    (ha : counter l s = posAdd p.start (4 * p.columns)) :
    exec (.printEnd l h) s = .next (settle s (endPrint l h p p.clipped s)) := by
  have he : exec (.printEnd l h) s = execPrintEnd l h s := rfl
  rw [he]
  unfold execPrintEnd
  rw [hp]
  exact event_of _ _ (by rw [(moves_iff l s).mpr hm, ha]; simp [isNow, printEndPos])

end

/-! ### Raster loads -/

section
variable {l : LaneId} {h : Side} {s : State}

theorem rasterLoadStart_of {c : ImageChoice} {i : Fin 2} (hl : (head l h s).load = none)
    (hc : missingImage l h s = some c) (hi : loadSlot l h s = some i) :
    exec (.rasterLoadStart l h) s = .next (settle s (startLoad l h s)) :=
  event_of _ _ (by simp [hl, hc, hi])

/-- R98: the head whose load engine has begun to load a chosen image into a slot. -/
theorem head_startLoad {c : ImageChoice} {i : Fin 2} (hc : missingImage l h s = some c)
    (hi : loadSlot l h s = some i) : head l h (startLoad l h s) = { head l h s with
      load := some { slot := i, ticks := 0, void := false },
      slots := vupd (head l h s).slots i (fun _ =>
        { key := some c.key, ready := false, image := c.raster, emptyAfter := false }) } := by
  unfold startLoad
  rw [hc, hi]
  exact head_updHead l h _ s

theorem rasterLoadComplete_of {q : Load} (hl : (head l h s).load = some q) (hn : 30 ≤ q.ticks) :
    exec (.rasterLoadComplete l h) s = .next (settle s (finishLoad l h s)) := by
  have he : exec (.rasterLoadComplete l h) s = execRasterLoadComplete l h s := rfl
  rw [he]
  unfold execRasterLoadComplete
  rw [hl]
  exact event_of _ _ (decide_eq_true hn)

/-- R98, R99: the head whose load is done: the slot ready, or empty where the load was made void. -/
theorem head_finishLoad {q : Load} (hl : (head l h s).load = some q) : head l h (finishLoad l h s) = { head l h s with
    load := none,
    slots := vupd (head l h s).slots q.slot (fun x => if q.void then Slot.emptied else { x with ready := true }) } := by
  unfold finishLoad
  rw [hl]
  dsimp only
  rw [head_updHead]
  cases q.void <;> rfl

end

/-! ### The verify eye -/

section
variable {l : LaneId} {h : Side} {s : State} {x p : Pos} {rest : List Pos}

theorem verifyEdge_of (hd : (eyeState l (verifyEyeOf h) s).dark = false) (hg : (geometry l s).eyeFilter = true)
    (hm : delivers (laneMode l s) = true) (hn : (s.belt.get l).samples.length = 4) :
    exec (.verifyEdge l h 4) s = .next (settle s (compareVerify l h ((s.belt.get l).samples.getD 0 ⟨0, 0, 0⟩).pos
      (acceptEdge l (verifyEyeOf h) true s))) := by
  have he : exec (.verifyEdge l h 4) s = execVerifyEdge l h 4 s := rfl
  rw [he]
  unfold execVerifyEdge
  rw [event_of _ _ (edgeComes_filtered (d := true) hd hg)]
  dsimp only
  rw [acceptEdge_laneMode, if_pos hm, captured, capturedSample_filtered hg hn]

theorem verifyMiss_tally (l : LaneId) (s : State) :
    (verifyMiss l s).tally.get l = (s.tally.get l).set 104 (satAdd32 ((s.tally.get l).getD 104 0) 1) :=
  countUp_tally l s rfl

theorem head_verifyMiss (l : LaneId) (h : Side) (s : State) : head l h (verifyMiss l s) = head l h s :=
  head_countUp l h s _

/-- R100: the head with a sample kept, the oldest verify entry gone. -/
def sampleKept (e : Int) (rest : List Pos) (d : Head) : Head :=
  { d with sum := d.sum + e, kept := d.kept + 1, verify := rest }

theorem compareVerify_keeps (hv : (head l h s).verify = x :: rest) (he : (signedDist p x).natAbs ≤ 64) :
    compareVerify l h p s = trimTest l h (updHead l h (sampleKept (signedDist p x) rest) s) := by
  unfold compareVerify
  rw [hv]
  exact if_pos he

theorem compareVerify_misses (hv : (head l h s).verify = x :: rest) (he : 64 < (signedDist p x).natAbs) :
    compareVerify l h p s = verifyMiss l s := by
  unfold compareVerify
  rw [hv]
  exact if_neg (by omega)

theorem trimTest_waits (hk : (head l h s).kept < 16) : trimTest l h s = s := if_pos hk

/-- R101: sixteen kept samples move the trim and are forgotten. -/
theorem trimTest_moves (hk : 16 ≤ (head l h s).kept) : ∃ r, head l h (trimTest l h s) =
    { head l h s with trim := newTrim (head l h s).trim (head l h s).sum, sum := 0, kept := 0, retired := r } := by
  obtain ⟨r, hr⟩ := evaluate_retiredOnly l h
    (updHead l h (fun d => { d with trim := newTrim (head l h s).trim (head l h s).sum, sum := 0, kept := 0 }) s)
    (headAlignId h) (newTrim (head l h s).trim (head l h s).sum)
    (headAlignValue (newTrim (head l h s).trim (head l h s).sum))
  rw [head_updHead] at hr
  unfold trimTest
  dsimp only
  rw [if_neg (by omega)]
  exact ⟨r, hr⟩

theorem verifyEntryExpiry_of (hm : laneMode l s ≠ .stopped) (hv : (head l h s).verify = x :: rest)
    (hc : (s.belt.get l).counter = x + 65) : exec (.verifyEntryExpiry l h) s =
      .next (settle s (verifyMiss l (updHead l h (fun d => { d with verify := rest }) s))) := by
  have he : exec (.verifyEntryExpiry l h) s = execVerifyEntryExpiry l h s := rfl
  rw [he]
  unfold execVerifyEntryExpiry
  rw [hv]
  exact event_of _ _ (by rw [(moves_iff l s).mpr hm]; simp [isNow, posAdd, counter, hc])

end

end Sys2Proof.Machine

open Sys2Proof Sys2Proof.Machine

/-- Settles O37, by the three updates that the end of a print makes. -/
theorem printEndEffect : Obligations.PrintEndEffect := by
  intro l h s p i c hm hp hi hc hcounter hv
  obtain ⟨hprints, hverify⟩ := printTakenOff_lists l h p.serial i s
  have hexec := printEnd_of hm hp hcounter
  rw [endPrint_printed p.clipped hi hc hv] at hexec
  refine ⟨_, hexec, ?_, ?_, ?_, ?_⟩
  · rw [head_settle, head_countUp, writePrinted, updEntry_head, head_updHead, hprints]
  · rw [head_settle, head_countUp, writePrinted, updEntry_head, head_updHead, hverify]
  · rw [settle_track, countUp_track, writePrinted, updEntry_track]
    rfl
  · rw [settle_tally]
    cases c <;> exact countUp_tally l _ rfl

/-- Settles O38, by what the start and the end of a load leave of the head. -/
theorem rasterLoads : Obligations.RasterLoads := by
  refine fun l h s => ⟨fun c i hl hc hi => ⟨_, rasterLoadStart_of hl hc hi, ?_⟩,
    fun q hl hn => ⟨_, rasterLoadComplete_of hl hn, ?_⟩⟩
  · rw [head_settle, head_startLoad hc hi]
  · rw [head_settle, head_finishLoad hl]

/-- Settles O39: an edge is a kept sample, which a sixteenth turns into a trim, or a miss; so is an entry that expires. -/
theorem verifyEyes : Obligations.VerifyEyes := by
  refine ⟨fun l h s x rest hd hg hm hn hv => ⟨fun he => ?_, fun he => ?_⟩, fun l h s x rest hm hv hc => ?_⟩
  · have hexec := verifyEdge_of hd hg hm hn
    rw [compareVerify_keeps (s := acceptEdge l (verifyEyeOf h) true s) hv he] at hexec
    refine ⟨_, hexec, ?_⟩
    rw [head_settle]
    generalize signedDist ((s.belt.get l).samples.getD 0 ⟨0, 0, 0⟩).pos x = e
    have hkept : head l h (updHead l h (sampleKept e rest) (acceptEdge l (verifyEyeOf h) true s)) =
        sampleKept e rest (head l h s) := head_updHead l h _ _
    by_cases hk : (head l h s).kept < 15
    · rw [trimTest_waits (by rw [hkept]; exact Nat.succ_lt_succ hk), hkept]
      exact ⟨rfl, fun _ => ⟨rfl, rfl, rfl⟩, fun h15 => absurd hk (by omega)⟩
    · obtain ⟨r, hr⟩ := trimTest_moves (l := l) (h := h)
        (s := updHead l h (sampleKept e rest) (acceptEdge l (verifyEyeOf h) true s))
        (by rw [hkept]; exact Nat.succ_le_succ (by omega))
      rw [hr, hkept]
      exact ⟨rfl, fun h15 => absurd h15 hk, fun _ => ⟨rfl, rfl, rfl⟩⟩
  · have hexec := verifyEdge_of hd hg hm hn
    rw [compareVerify_misses (s := acceptEdge l (verifyEyeOf h) true s) hv he] at hexec
    exact ⟨_, hexec, by rw [head_settle, head_verifyMiss]; rfl, by rw [settle_tally, verifyMiss_tally]; rfl⟩
  · refine ⟨_, verifyEntryExpiry_of hm hv hc, ?_, ?_⟩
    · rw [head_settle, head_verifyMiss, head_updHead]
    · rw [settle_tally, verifyMiss_tally]
      rfl

end

