-- ==== Sys2Proof/Proofs/KeepWet.lean ====
section
/-! The keep-wet schedule of a head: the spit timer with its pending age and gap requests (R102, R104, R105), fast mode
(R92), and the spits (R103). -/

namespace Sys2Proof.Machine

/-! ### Gap requests -/

section
variable (l : LaneId) (h : Side) (s : State)

theorem head_followGapSpit : head l h (followGapSpit l s) = head l h s := head_setHold l s _ _ h

/-- R104: GAP_SPIT stands as the gap requests of the two heads do. -/
theorem followGapSpit_gapSpit : holdSet l .gapSpit (followGapSpit l s) =
    ((head l .near s).gapRequest.isSome || (head l .far s).gapRequest.isSome) := setHold_same l s _ _

/-- A head's gap request puts GAP_SPIT in the set (R104). -/
theorem followGapSpit_requested (hg : (head l h s).gapRequest.isSome = true) :
    holdSet l .gapSpit (followGapSpit l s) = true := by
  rw [followGapSpit_gapSpit]
  cases h with
  | near => rw [hg, Bool.true_or]
  | far => rw [hg, Bool.or_true]

/-- With no gap request of one head GAP_SPIT stands as the other head's does (R104). -/
theorem followGapSpit_other {k : Side} (hk : k ≠ h) (hg : (head l h s).gapRequest = none) :
    holdSet l .gapSpit (followGapSpit l s) = (head l k s).gapRequest.isSome := by
  rw [followGapSpit_gapSpit]
  cases h <;> cases k <;> simp_all

end

/-! ### An expiry of the spit timer -/

/-- R102: the head after an expiry of its spit timer, before the tests of R104 and R105. -/
def spitExpired (period : Nat) (d : Head) : Head :=
  { d with spitTicks := 0, spitPeriod := period, pendingSpit := true,
           age := if d.pendingSpit then min (d.age + 1) 255 else d.age }

section
variable (l : LaneId) (h : Side) (s : State)

/-- An expiry is its update followed by the tests of R104 and R105; the record between them may retire the head. -/
theorem spitExpiry_eq : ∃ u r, spitExpiry l h s = dryTest l h (gapRequestTest l h u) ∧
    head l h u = { spitExpired (effectiveInterval l h s) (head l h s) with retired := r } := by
  obtain ⟨u, hu⟩ : ∃ u, u = updHead l h (fun d =>
    { d with pendingSpit := true, age := if d.pendingSpit then min (d.age + 1) 255 else d.age })
    (restartSpitTimer l h s) := ⟨_, rfl⟩
  have hhead : head l h u = spitExpired (effectiveInterval l h s) (head l h s) := by
    rw [hu, head_updHead, restartSpitTimer, head_updHead]
    rfl
  obtain ⟨r, hr⟩ := evaluate_retiredOnly l h u (headWetId h) (head l h u).age (headWetValue (head l h u).age)
  refine ⟨_, r, ?_, hr.trans (by rw [hhead])⟩
  rw [hu]
  rfl

/-- R104: the test raises the gap request of an age of 4 or more, and changes nothing else of the head. -/
theorem head_gapRequestTest : ∃ g, head l h (gapRequestTest l h s) = { head l h s with gapRequest := g } ∧
    (4 ≤ (head l h s).age → g.isSome = true) := by
  unfold gapRequestTest
  dsimp only
  split
  · exact ⟨some 0, by rw [head_emit, head_followGapSpit, head_updHead], fun _ => rfl⟩
  next hno => exact ⟨_, rfl, fun ha => Option.isSome_iff_ne_none.mpr (fun hg => hno ⟨ha, hg⟩)⟩

/-- R104: with a gap request raised GAP_SPIT is in the set. -/
theorem gapRequestTest_gapSpit (ha : 4 ≤ (head l h s).age) (hg : (head l h s).gapRequest = none) :
    holdSet l .gapSpit (gapRequestTest l h s) = true := by
  unfold gapRequestTest
  dsimp only
  rw [if_pos ⟨ha, hg⟩, holdSet_emit]
  exact followGapSpit_requested l h _ (by rw [head_updHead]; rfl)

/-- R105: the age of 8 makes a READY head DRY. -/
theorem head_dryTest : head l h (dryTest l h s) = { head l h s with
    wet := if (head l h s).age = 8 ∧ (head l h s).wet = .ready then .dry else (head l h s).wet } := by
  unfold dryTest
  split
  · rw [head_emit, head_updHead]
  · rfl

theorem holdSet_dryTest (r : HoldReason) : holdSet l r (dryTest l h s) = holdSet l r s := by
  unfold dryTest
  split
  · rw [holdSet_emit]
    rfl
  · rfl

/-- R102, R104, R105: the head after an expiry. -/
theorem head_spitExpiry : ∃ g r, (4 ≤ (spitExpired (effectiveInterval l h s) (head l h s)).age → g.isSome = true) ∧
    head l h (spitExpiry l h s) = { spitExpired (effectiveInterval l h s) (head l h s) with
      gapRequest := g, retired := r,
      wet := if (spitExpired (effectiveInterval l h s) (head l h s)).age = 8 ∧ (head l h s).wet = .ready then .dry
        else (head l h s).wet } := by
  obtain ⟨u, r, heq, hu⟩ := spitExpiry_eq l h s
  obtain ⟨g, htest, hg⟩ := head_gapRequestTest l h u
  rw [hu] at htest hg
  exact ⟨g, r, hg, by rw [heq, head_dryTest, htest]; rfl⟩

/-- R104: an expiry that raises the gap request has GAP_SPIT in the set. -/
theorem spitExpiry_gapSpit (ha : 4 ≤ (spitExpired (effectiveInterval l h s) (head l h s)).age)
    (hg : (head l h s).gapRequest = none) : holdSet l .gapSpit (spitExpiry l h s) = true := by
  obtain ⟨u, r, heq, hu⟩ := spitExpiry_eq l h s
  rw [heq, holdSet_dryTest]
  exact gapRequestTest_gapSpit l h u (by rw [hu]; exact ha) (by rw [hu]; exact hg)

variable {l h s}

theorem spitTimerExpiry_of (hw : (head l h s).wet ≠ .cold)
    (hn : 20 * (head l h s).spitPeriod ≤ (head l h s).spitTicks) :
    exec (.spitTimerExpiry l h) s = .next (settle s (spitExpiry l h s)) :=
  event_of _ _ (by simp [hw, ticksPerMs, hn])

theorem headTempReading_of {temp : Nat} (ht : temp ≤ 100) (hn : 20000 ≤ (head l h s).tempTicks) :
    exec (.headTempReading l h temp) s = .next (settle s (updHead l h (fun d =>
      { d with lastTemp := temp, tempTicks := 0, fast := fastMode (spitSetting l h s) d.fast temp }) s)) := by
  have he : exec (.headTempReading l h temp) s = execHeadTempReading l h temp s := rfl
  rw [he]
  unfold execHeadTempReading
  rw [eventWithin_ok (ok := tempOk temp) _ _ (decide_eq_true ht)]
  exact event_of _ _ (decide_eq_true hn)

end

/-! ### Spits -/

section
variable {l : LaneId} {h : Side} {s : State} {n : Nat}

theorem spitGapTimeout_of (hg : (head l h s).gapRequest = some n) (hn : 5000 ≤ n) :
    exec (.spitGapTimeout l h) s =
      .next (settle s (followGapSpit l (updHead l h (fun d => { d with gapRequest := none }) s))) := by
  have he : exec (.spitGapTimeout l h) s = execSpitGapTimeout l h s := rfl
  rw [he]
  unfold execSpitGapTimeout
  rw [hg]
  exact event_of _ _ (decide_eq_true hn)

theorem spitTime_iff (l : LaneId) (h : Side) (s : State) : spitTime l h s = true ↔
    ∀ p ∈ (head l h s).prints, ∀ d, nextStart l h p s = some d → (s.belt.get l).speed ≤ 16 * d := by
  unfold spitTime
  rw [List.all_eq_true]
  refine forall₂_congr fun p _ => ?_
  cases nextStart l h p s <;> simp

theorem spitStart_of (hrun : (head l h s).spitRun = none) (hr : spitRequest (head l h s) = true)
    (hm : laneMode l s ≠ .stopped) (ho : laneMode l s ≠ .off) (hp : ∀ p ∈ (head l h s).prints, p.state ≠ .printing)
    (ht : spitTime l h s = true) : exec (.spitStart l h) s =
      .next (settle s (updHead l h (fun d => { d with spitRun := some 0 }) s)) :=
  event_of _ _ (by simpa [spitMayStart, hrun, hr, hm, ho, ht] using hp)

theorem spitComplete_of (hrun : (head l h s).spitRun = some n) (hn : 60 ≤ n) :
    exec (.spitComplete l h) s = .next (settle s (completeSpit l h s)) := by
  have he : exec (.spitComplete l h) s = execSpitComplete l h s := rfl
  rw [he]
  unfold execSpitComplete
  rw [hrun]
  exact event_of _ _ (decide_eq_true hn)

variable (l h s)

/-- R105: a DRY head, or a COLD one in its warming spit, becomes READY. -/
theorem head_wetTest : ∃ w, head l h (wetTest l h s) = { head l h s with
    wet := if (head l h s).wet = .dry ∨ ((head l h s).wet = .cold ∧ (head l h s).warmRequest = true) then .ready
      else (head l h s).wet,
    warmRequest := w } := by
  unfold wetTest
  dsimp only
  split
  · exact ⟨false, by rw [head_emit, head_updHead]⟩
  · exact ⟨_, rfl⟩

theorem head_warmTest : head l h (warmTest l s) = head l h s := by
  refine head_of_only (ps := fun p => p ≠ .heads l) l h ?_ (by simp)
  apply warmTest_only (h := only_refl _ _) <;> simp

/-- R102, R103: the head after a spit, before the wet test. -/
def spitDone (period : Nat) (d : Head) : Head :=
  { d with spitRun := none, pendingSpit := false, age := 0, gapRequest := none, spitTicks := 0, spitPeriod := period }

/-- R102, R103, R105: the head after a spit. -/
theorem head_completeSpit : ∃ period r w, head l h (completeSpit l h s) = { spitDone period (head l h s) with
    retired := r,
    wet := if (head l h s).wet = .dry ∨ ((head l h s).wet = .cold ∧ (head l h s).warmRequest = true) then .ready
      else (head l h s).wet,
    warmRequest := w } := by
  obtain ⟨v, hv⟩ : ∃ v, v = updHead l h (fun d =>
    { d with spitRun := none, pendingSpit := false, age := 0, gapRequest := none }) s := ⟨_, rfl⟩
  have hdone : head l h (followGapSpit l (restartSpitTimer l h v)) =
      spitDone (effectiveInterval l h v) (head l h s) := by
    rw [head_followGapSpit, restartSpitTimer, head_updHead, hv, head_updHead]
    rfl
  obtain ⟨r, hr⟩ := evaluate_retiredOnly l h (followGapSpit l (restartSpitTimer l h v)) (headWetId h) 0 (headWetValue 0)
  obtain ⟨w, hw⟩ := head_wetTest l h
    (evaluate l (headWetId h) 0 (headWetValue 0) (followGapSpit l (restartSpitTimer l h v)))
  rw [hr, hdone] at hw
  have hcomplete : completeSpit l h s = warmTest l (wetTest l h
      (evaluate l (headWetId h) 0 (headWetValue 0) (followGapSpit l (restartSpitTimer l h v)))) := by
    rw [hv]
    rfl
  exact ⟨_, r, w, by rw [hcomplete, head_warmTest, hw]; rfl⟩

end

end Sys2Proof.Machine

open Sys2Proof Sys2Proof.Machine

/-- Settles O40, by what the tests of R104 and R105 leave of a head whose spit timer has expired. -/
theorem spitTimerAndTemperature : Obligations.SpitTimerAndTemperature := by
  refine ⟨fun l h s hw hn => ?_, fun l h temp s ht hn => ⟨_, headTempReading_of ht hn, ?_⟩⟩
  · obtain ⟨g, r, hg, hhead⟩ := head_spitExpiry l h s
    have hgap := spitExpiry_gapSpit l h s
    refine ⟨_, spitTimerExpiry_of hw hn, ?_⟩
    rw [head_settle, settle_holdSet, hhead]
    refine ⟨rfl, rfl, rfl, hg, fun h8 => ?_, fun h8 => if_neg (fun hdry => h8 hdry.1), hgap, rfl⟩
    have hwet : (head l h s).wet = .ready ∨ (head l h s).wet = .dry := by
      cases hc : (head l h s).wet <;> simp_all
    rcases hwet with hready | hdry
    · exact if_pos ⟨h8, hready⟩
    · exact (if_neg (fun hr => by simp [hdry] at hr)).trans hdry
  · rw [head_settle, head_updHead]
    exact ⟨rfl, rfl, rfl, rfl, rfl⟩

/-- Settles O41, by what GAP_SPIT follows and by what a completed spit leaves of its head. -/
theorem spitsRun : Obligations.SpitsRun := by
  refine ⟨fun l h s => ⟨fun n hg hn => ⟨_, spitGapTimeout_of hg hn, ?_, fun k hk => ?_⟩,
    fun hrun hr hm ho hp ht => ⟨_, spitStart_of hrun hr hm ho hp ((spitTime_iff l h s).mpr ht), ?_⟩⟩,
    fun l h s n hrun hn => ?_⟩
  · rw [head_settle, head_followGapSpit, head_updHead]
  · rw [settle_holdSet, followGapSpit_other l h _ hk (by rw [head_updHead]), head_updHead_other l _ s hk]
  · rw [head_settle, head_updHead]
  · obtain ⟨period, r, w, hhead⟩ := head_completeSpit l h s
    refine ⟨_, spitComplete_of hrun hn, ?_⟩
    rw [head_settle, hhead]
    exact ⟨rfl, rfl, rfl, rfl, rfl, rfl, rfl, rfl⟩

end

