-- ==== Sys2Proof/Proofs/Generations.lean ====
section
/-! The date clock (R86), rolls and compositions (R88), the generations that become current and are dropped (R89), and the
orders SET_CLOCK and LOAD_STYLES (R84, R85, R87). -/

namespace Sys2Proof.Machine

/-! ### The date clock -/

/-- R86: the date clock one second on. -/
def nextSecond (p : Pmc) : Pmc :=
  let q := if p.seconds + 1 < 86400 then { p with seconds := p.seconds + 1 }
    else
      let d := nextDay p.year p.month p.day
      { p with seconds := 0, year := d.1, month := d.2.1, day := d.2.2 }
  { q with clockTicks := q.clockTicks - ticksPerSecond }

theorem nextSecond_before {p : Pmc} (h : p.seconds + 1 < 86400) :
    nextSecond p = { p with seconds := p.seconds + 1, clockTicks := p.clockTicks - ticksPerSecond } := by
  unfold nextSecond
  rw [if_pos h]

theorem nextSecond_midnight {p : Pmc} {y m d : Nat} (h : 86400 ≤ p.seconds + 1)
    (hn : nextDay p.year p.month p.day = (y, m, d)) : nextSecond p =
      { p with seconds := 0, year := y, month := m, day := d, clockTicks := p.clockTicks - ticksPerSecond } := by
  unfold nextSecond
  rw [if_neg (by omega), hn]

/-- One second on, the date clock alone has moved. -/
theorem nextSecond_clock (p : Pmc) : ∃ y m d, nextSecond p = { p with
    seconds := if p.seconds + 1 < 86400 then p.seconds + 1 else 0, year := y, month := m, day := d,
    clockTicks := p.clockTicks - ticksPerSecond } := by
  by_cases h : p.seconds + 1 < 86400
  · exact ⟨p.year, p.month, p.day, by rw [nextSecond_before h, if_pos h]⟩
  · exact ⟨_, _, _, by rw [nextSecond_midnight (by omega) rfl, if_neg h]⟩

theorem nextDay_inMonth {y m d : Nat} (h : d < monthLength y m) : nextDay y m d = (y, m, d + 1) := if_pos h

theorem nextDay_monthEnd {y m d : Nat} (h : d = monthLength y m) (hm : m < 12) : nextDay y m d = (y, m + 1, 1) := by
  unfold nextDay
  rw [if_neg (by omega), if_pos hm]

theorem nextDay_yearEnd {y m d : Nat} (h : d = monthLength y m) (hm : m = 12) (hy : y < 2099) :
    nextDay y m d = (y + 1, 1, 1) := by
  unfold nextDay
  rw [if_neg (by omega), if_neg (by omega), if_pos hy]

/-- The period starts differ exactly where the whole periods passed do (R86). -/
theorem periodStartOf_eq_iff {p a b : Nat} (hp : 0 < p) :
    periodStartOf p a = periodStartOf p b ↔ a / (60 * p) = b / (60 * p) :=
  Nat.mul_left_inj (by omega)

theorem clockSecond_eq (s : State) : clockSecond s =
    if periodStartOf s.pmc.period (nextSecond s.pmc).seconds ≠ periodStartOf s.pmc.period s.pmc.seconds then
      roll .period (updPmc nextSecond s)
    else updPmc nextSecond s := by
  have hsecond : updPmc (fun p => { p with clockTicks := p.clockTicks - ticksPerSecond })
      (if s.pmc.seconds + 1 < 86400 then updPmc (fun p => { p with seconds := p.seconds + 1 }) s
      else updPmc (fun p => { p with
        seconds := 0, year := (nextDay s.pmc.year s.pmc.month s.pmc.day).1,
        month := (nextDay s.pmc.year s.pmc.month s.pmc.day).2.1,
        day := (nextDay s.pmc.year s.pmc.month s.pmc.day).2.2 }) s) = updPmc nextSecond s := by
    have hset : updPmc nextSecond s = { s with pmc := nextSecond s.pmc } := rfl
    by_cases h : s.pmc.seconds + 1 < 86400
    · rw [hset, nextSecond_before h, if_pos h]
      rfl
    · rw [hset, nextSecond_midnight (by omega) rfl, if_neg h]
      rfl
  unfold clockSecond
  dsimp only
  rw [hsecond]
  rfl

/-! ### Slots of a dropped generation -/

section
variable {d : Head} {i j : Fin 2}

theorem slotOf_setSlot_self (i : Fin 2) (v : Slot) (d : Head) : slotOf (setSlot i v d) i = v := vget_vupd_self _ _ _

theorem slotOf_setSlot_other (v : Slot) (d : Head) (h : j ≠ i) : slotOf (setSlot i v d) j = slotOf d j :=
  vget_vupd_other _ _ h

/-- A slot that is neither loaded nor printed from is emptied at once (R99). -/
theorem emptySlot_idle (hl : d.load = none) (hp : printingSlot d ≠ some i) :
    emptySlot i d = setSlot i Slot.emptied d := by
  unfold emptySlot
  rw [if_neg hp, hl]

/-- With no load running, the emptying of a slot leaves the prints, the load engine and the other slot. -/
theorem emptySlot_keeps (hl : d.load = none) : (emptySlot j d).load = none ∧ (emptySlot j d).prints = d.prints ∧
    (i ≠ j → slotOf (emptySlot j d) i = slotOf d i) := by
  unfold emptySlot
  split
  · exact ⟨hl, rfl, fun h => vget_vupd_other _ _ h⟩
  · rw [hl]
    exact ⟨hl, rfl, slotOf_setSlot_other Slot.emptied d⟩

/-- R89: a slot of a head emptied where it holds an image of a dropped generation. -/
def dropSlot (n : Nat) (i : Fin 2) (d : Head) : Head :=
  match (slotOf d i).key with
  | some (.full _ g) => if g = n then emptySlot i d else d
  | _ => d

theorem dropSlot_cases (n : Nat) (i : Fin 2) (d : Head) : dropSlot n i d = d ∨ dropSlot n i d = emptySlot i d := by
  unfold dropSlot
  split
  · split
    · exact Or.inr rfl
    · exact Or.inl rfl
  · exact Or.inl rfl

theorem dropSlot_keeps (n : Nat) (hl : d.load = none) : (dropSlot n j d).load = none ∧
    (dropSlot n j d).prints = d.prints ∧ (i ≠ j → slotOf (dropSlot n j d) i = slotOf d i) := by
  rcases dropSlot_cases n j d with h | h <;> rw [h]
  · exact ⟨hl, rfl, fun _ => rfl⟩
  · exact emptySlot_keeps hl

theorem dropSlot_dropped {n st : Nat} (hl : d.load = none) (hp : printingSlot d ≠ some i)
    (hk : (slotOf d i).key = some (.full st n)) : (slotOf (dropSlot n i d) i).key = none := by
  have hdrop : dropSlot n i d = emptySlot i d := by
    unfold dropSlot
    rw [hk]
    exact if_pos rfl
  rw [hdrop, emptySlot_idle hl hp, slotOf_setSlot_self]
  rfl

theorem head_allSlots (f : Fin 2 → Head → Head) (l : LaneId) (h : Side) (s : State) :
    head l h (allSlots f s) = f 1 (f 0 (head l h s)) := by
  cases l <;> cases h <;> rfl

theorem head_dropImages (n : Nat) (l : LaneId) (h : Side) (s : State) :
    head l h (dropImages n s) = dropSlot n 1 (dropSlot n 0 (head l h s)) := head_allSlots (dropSlot n) l h s

/-- R89, R99: an idle slot with an image of the dropped generation is empty. -/
theorem dropImages_dropped {n st : Nat} {l : LaneId} {h : Side} {s : State} (hl : (head l h s).load = none)
    (hp : printingSlot (head l h s) ≠ some i) (hk : (slotOf (head l h s) i).key = some (.full st n)) :
    (slotOf (head l h (dropImages n s)) i).key = none := by
  obtain ⟨hload, hprints, hother⟩ := dropSlot_keeps (i := i) (j := 0) n hl
  rw [head_dropImages]
  match i with
  | 0 =>
    rw [(dropSlot_keeps (i := 0) (j := 1) n hload).2.2 (by decide)]
    exact dropSlot_dropped hl hp hk
  | 1 =>
    refine dropSlot_dropped (st := st) hload ?_ (by rw [hother (by decide), hk])
    have hsame : (dropSlot n 0 (head l h s)).prints = (head l h s).prints := hprints
    unfold printingSlot
    rw [hsame]
    exact hp

end

/-! ### A generation becomes current -/

/-- R89: the store with a generation current and the one before it previous. -/
def shelved (g : Generation) (s : State) : State := updPmc (fun p => { p with current := some g, previous := p.current }) s

section
variable {g : Generation} {s : State}

/-- The parts that the records and the slots of a new generation may change, beside the store. -/
theorem becomeCurrent_leaves (g : Generation) (s : State) :
    Only (fun p => p = .raised ∨ p = .free ∨ p = .journal ∨ ∃ k, p = .heads k) (shelved g s) (becomeCurrent g s) := by
  have hgen : ∀ u, Only (fun p => p = .raised ∨ p = .free ∨ p = .journal ∨ ∃ k, p = .heads k) u (genRollEvent g u) := by
    intro u
    apply genRollEvent_only (h := only_refl _ _) <;> simp
  unfold becomeCurrent
  dsimp only
  split
  · exact hgen _
  next d _ =>
    apply emit_only
    · exact only_trans (dropImages_only d.number (only_refl _ _) (by simp)) (hgen _)
    all_goals simp

theorem becomeCurrent_pmc (g : Generation) (s : State) :
    (becomeCurrent g s).pmc = { s.pmc with current := some g, previous := s.pmc.current } :=
  becomeCurrent_leaves g s .postmark (by simp)

/-- The GEN_ROLL record of a generation with a date (R88). -/
def genRolled (g : Generation) (s : State) : State :=
  emit .genRoll none noSubject 0 (g.number + 65536 * rollCauseCode g.cause)
    ((g.year - 2000) + 128 * g.month + 2048 * g.day + 65536 * (g.periodStart / 60)) s

theorem genRollEvent_set (hg : g.unset = false) (s : State) : genRollEvent g s = genRolled g s := by
  unfold genRollEvent
  rw [hg]
  rfl

theorem becomeCurrent_first (hp : s.pmc.previous = none) : becomeCurrent g s = genRollEvent g (shelved g s) := by
  unfold becomeCurrent
  dsimp only
  rw [hp]
  rfl

theorem becomeCurrent_drops {d : Generation} (hp : s.pmc.previous = some d) : becomeCurrent g s =
    emit .genDropped none noSubject 0 d.number 0 (genRollEvent g (dropImages d.number (shelved g s))) := by
  unfold becomeCurrent
  dsimp only
  rw [hp]
  rfl

/-- With no generation before, the records are GEN_ROLL alone and the heads stand (R89). -/
theorem becomeCurrent_first_records {t : State} (hp : t.pmc.previous = none) (hg : g.unset = false)
    (hj : t.jrn = s.jrn) (hc : t.clock = s.clock) :
    (becomeCurrent g t).cnu = t.cnu ∧ (becomeCurrent g t).jrn = (genRolled g s).jrn := by
  rw [becomeCurrent_first hp, genRollEvent_set hg]
  exact ⟨perLane_ext (fun k => emit_leaves _ _ _ _ _ _ _ (.heads k) (by simp)), emit_jrn _ _ _ _ _ _ hj hc⟩

/-- The generation before the previous one is dropped: GEN_DROPPED follows GEN_ROLL, and no idle slot keeps an image of
it (R89, R99). -/
theorem becomeCurrent_drops_records {t : State} {d : Generation} (hp : t.pmc.previous = some d) (hg : g.unset = false)
    (hj : t.jrn = s.jrn) (hc : t.clock = s.clock) :
    (becomeCurrent g t).jrn = (emit .genDropped none noSubject 0 d.number 0 (genRolled g s)).jrn ∧
      ∀ l h, head l h (becomeCurrent g t) = head l h (dropImages d.number t) := by
  have hdrop := dropImages_only (ps := fun p => ∃ k, p = .heads k) d.number (only_refl _ (shelved g t)) (by simp)
  have hleave : ∀ u, (genRolled g u).clock = u.clock := fun u => emit_leaves u _ _ _ _ _ _ .clock (by simp)
  have hclock : (dropImages d.number (shelved g t)).clock = s.clock := (hdrop .clock (by simp)).trans hc
  rw [becomeCurrent_drops hp, genRollEvent_set hg]
  refine ⟨emit_jrn _ _ _ _ _ _ (emit_jrn _ _ _ _ _ _ ((hdrop .journal (by simp)).trans hj) hclock) ?_, fun l h => ?_⟩
  · rw [hleave, hleave, hclock]
  · rw [head_emit, genRolled, head_emit, head_dropImages, head_dropImages]
    rfl

end

/-! ### Rolls -/

/-- R88: the FULL styles that a roll composes: none while the clock is unset. -/
def rolledStyles (s : State) : List (Nat × Style) := if s.pmc.clockSet then fullStyles s else []

/-- R88: the generation that a roll makes. -/
def rolledGeneration (c : RollCause) (s : State) : Generation :=
  { number := nextGeneration s.pmc.lastGen, unset := !s.pmc.clockSet, office := s.pmc.office, year := s.pmc.year,
    month := s.pmc.month, day := s.pmc.day, periodStart := periodStartOf s.pmc.period s.pmc.seconds, cause := c,
    styles := rolledStyles s }

/-- R88: the composer with the number given and no composition running. -/
def rollBegun (s : State) : State :=
  updPmc (fun p => { p with lastGen := nextGeneration s.pmc.lastGen, composing := none }) s

section
variable (c : RollCause) {s : State}

theorem roll_atOnce (h : rolledStyles s = []) : roll c s = becomeCurrent (rolledGeneration c s) (rollBegun s) :=
  if_pos (List.isEmpty_iff.mpr h)

theorem roll_composes (h : rolledStyles s ≠ []) : roll c s = updPmc (fun p => { p with
    composing := some { generation := rolledGeneration c s, ticks := 0, need := 40 * (rolledStyles s).length } })
    (rollBegun s) := if_neg (fun he => h (List.isEmpty_iff.mp he))

theorem roll_atOnce_pmc (h : rolledStyles s = []) : (roll c s).pmc = { s.pmc with
    lastGen := nextGeneration s.pmc.lastGen, composing := none, current := some (rolledGeneration c s),
    previous := s.pmc.current } := by
  rw [roll_atOnce c h, becomeCurrent_pmc]
  rfl

/-- A roll gives the next number and leaves the clock, the styles and the settings (R88). -/
theorem roll_pmc (s : State) : ∃ x y z, (roll c s).pmc = { s.pmc with
    lastGen := nextGeneration s.pmc.lastGen, current := x, previous := y, composing := z } := by
  by_cases h : rolledStyles s = []
  · exact ⟨_, _, _, roll_atOnce_pmc c h⟩
  · exact ⟨_, _, _, by rw [roll_composes c h]; rfl⟩

theorem roll_clock (s : State) : (roll c s).pmc.seconds = s.pmc.seconds ∧ (roll c s).pmc.year = s.pmc.year ∧
    (roll c s).pmc.month = s.pmc.month ∧ (roll c s).pmc.day = s.pmc.day := by
  obtain ⟨x, y, z, h⟩ := roll_pmc c s
  rw [h]
  exact ⟨rfl, rfl, rfl, rfl⟩

theorem roll_ordersKept (s : State) : OrdersKept s (roll c s) := by
  apply roll_only (h := only_refl _ _) <;> simp

/-- A style set has FULL styles to compose where one of its styles is FULL (R88). -/
theorem fullStyles_eq_nil_iff (s : State) : fullStyles s = [] ↔ ∀ x ∈ s.pmc.styles, x.kind ≠ .full := by
  unfold fullStyles
  rw [List.filter_eq_nil_iff, List.forall_mem_map, List.forall_mem_zipIdx]
  simp only [beq_iff_eq]
  exact (List.forall_mem_iff_forall_getElem (P := fun x : Style => x.kind ≠ .full)).symm

theorem rolledStyles_set (h : s.pmc.clockSet = true) : rolledStyles s = fullStyles s := if_pos h

theorem rolledStyles_unset (h : s.pmc.clockSet = false) : rolledStyles s = [] := if_neg (by simp [h])

end

/-! ### The events of the clock and the composer -/

section
variable {s : State}

theorem clockSecond_of (hs : s.pmc.clockSet = true) (hn : 20000 ≤ s.pmc.clockTicks) :
    exec .clockSecond s = .next (settle s (clockSecond s)) :=
  event_of _ _ (by simp [hs, ticksPerSecond, hn])

/-- R86: the date clock after the event of a second, whether or not a period begins. -/
theorem clockSecond_clock (s : State) : (clockSecond s).pmc.seconds = (nextSecond s.pmc).seconds ∧
    (clockSecond s).pmc.year = (nextSecond s.pmc).year ∧ (clockSecond s).pmc.month = (nextSecond s.pmc).month ∧
    (clockSecond s).pmc.day = (nextSecond s.pmc).day := by
  rw [clockSecond_eq, ← updPmc_pmc nextSecond s]
  generalize updPmc nextSecond s = u
  split
  · exact roll_clock .period u
  · exact ⟨rfl, rfl, rfl, rfl⟩

/-- R86: within a cancel period a second makes no roll. -/
theorem clockSecond_within (h : (nextSecond s.pmc).seconds / (60 * s.pmc.period) = s.pmc.seconds / (60 * s.pmc.period)) :
    clockSecond s = updPmc nextSecond s := by
  have hstart : periodStartOf s.pmc.period (nextSecond s.pmc).seconds = periodStartOf s.pmc.period s.pmc.seconds :=
    congrArg (· * (60 * s.pmc.period)) h
  rw [clockSecond_eq, if_neg (not_not_intro hstart)]

/-- R86: at a period boundary a second makes a roll. -/
theorem clockSecond_boundary (hp : 0 < s.pmc.period)
    (h : (nextSecond s.pmc).seconds / (60 * s.pmc.period) ≠ s.pmc.seconds / (60 * s.pmc.period)) :
    clockSecond s = roll .period (updPmc nextSecond s) := by
  rw [clockSecond_eq, if_pos (fun he => h ((periodStartOf_eq_iff hp).mp he))]

variable {c : Composition}

theorem compositionComplete_of (hc : s.pmc.composing = some c) (hn : c.need ≤ c.ticks) :
    exec .compositionComplete s =
      .next (settle s (becomeCurrent c.generation (updPmc (fun p => { p with composing := none }) s))) := by
  have he : exec .compositionComplete s = execCompositionComplete s := rfl
  rw [he]
  unfold execCompositionComplete
  rw [event_of _ _ (by rw [hc]; exact decide_eq_true hn)]
  unfold finishComposition
  rw [hc]

end

/-! ### Styles and clock orders -/

section
variable {b : OrderBlock} {s : State} {y m d sec p : Nat}

theorem clockOk_iff : clockOk y m d sec p = true ↔
    2000 ≤ y ∧ y ≤ 2099 ∧ 1 ≤ m ∧ m ≤ 12 ∧ 1 ≤ d ∧ d ≤ monthLength y m ∧ sec ≤ 86399 ∧ 1 ≤ p ∧ p ≤ 60 := by
  simp [clockOk, inRange, and_assoc]

theorem setClock_of (h : Taken b (.setClock y m d sec p) s) :
    exec .setClock s = .next (settle s (setClock y m d sec p s)) := by
  have he : exec .setClock s = execSetClock s := rfl
  rw [he]
  unfold execSetClock
  rw [currentBody_of_taken h]
  rfl

/-- R87: the composer with a clock set and its roll made. -/
def clockTaken (y m d sec p : Nat) (s : State) : State :=
  roll .clock (updPmc (fun q =>
    { q with year := y, month := m, day := d, seconds := sec, period := p, clockSet := true, clockTicks := 0 }) s)

theorem clockTaken_ordersKept (y m d sec p : Nat) (s : State) : OrdersKept s (clockTaken y m d sec p s) :=
  only_trans (updPmc_only _ (only_refl _ s) (by simp)) (roll_ordersKept .clock _)

theorem setClock_accepts (h : clockOk y m d sec p = true) :
    setClock y m d sec p s = finishWith .done .ok none [] (clockTaken y m d sec p s) := if_pos h

theorem setClock_refuses (h : ¬ clockOk y m d sec p = true) :
    setClock y m d sec p s = finishWith .refused .badField none [] s := if_neg h

/-- The end of an order leaves the composer. -/
theorem finished_pmc (old : State) (st : BlockState) (code : ResultCode) (d : Option Nat) (u : State) :
    (settle old (finishWith st code d [] u)).pmc = u.pmc :=
  finished_only old st code d u .postmark (by simp [eventEnd, orderParts])

variable {a len : Nat}

theorem loadStyles_of (h : Taken b (.loadStyles a) s) : exec .loadStyles s = .next (settle s (loadStyles a s)) := by
  have he : exec .loadStyles s = execLoadStyles s := rfl
  rw [he]
  unfold execLoadStyles
  rw [currentBody_of_taken h]
  rfl

/-- R85: the composer with a style set taken. -/
def stylesTaken (b : List Byte) (s : State) : State :=
  updPmc (fun p => { p with
    styles := (List.range 7).map (styleAt b), office := b.take 6,
    settings := ⟨⟨spitAt b 0, spitAt b 1⟩, ⟨spitAt b 2, spitAt b 3⟩⟩ }) s

/-- R85, R92, R99: the roll of an accepted style set, its BARS slots emptied and fast mode decided anew. -/
def stylesRolled (b : List Byte) (s : State) : State := redecideFast (emptyBars (roll .styles (stylesTaken b s)))

theorem acceptStyles_eq (b : List Byte) (s : State) :
    acceptStyles b s = finishWith .done .ok none [] (stylesRolled b s) := rfl

theorem stylesRolled_leaves (b : List Byte) (s : State) :
    Only (fun p => ∃ k, p = .heads k) (roll .styles (stylesTaken b s)) (stylesRolled b s) := by
  apply redecideFast_only
  · apply emptyBars_only (h := only_refl _ _)
    simp
  · simp

theorem stylesRolled_ordersKept (b : List Byte) (s : State) : OrdersKept s (stylesRolled b s) :=
  only_trans (only_trans (updPmc_only _ (only_refl _ s) (by simp)) (roll_ordersKept .styles _))
    (only_mono (stylesRolled_leaves b s) (by rintro _ ⟨k, rfl⟩; simp))

theorem stylesRolled_pmc (b : List Byte) (s : State) : (stylesRolled b s).pmc = (roll .styles (stylesTaken b s)).pmc :=
  stylesRolled_leaves b s .postmark (by simp)

theorem stylesTaken_settings (b : List Byte) (s : State) (l : LaneId) (h : Side) :
    spitSetting l h (stylesTaken b s) = spitAt b (2 * laneCode l + sideCode h) := by
  cases l <;> cases h <;> rfl

section
variable (ht : allowed .tableRead a 144 s = true) (hf : field (readBytes a 144 s) 24 4 = len) (hl : 144 ≤ len)
  (hr : allowed .tableRead a len s = true)
include ht hf hl hr

theorem loadStyles_accepts (hk : checksumOk (readBytes a len s) = true)
    (hb : firstBad (styleSetFields (readBytes a len s) len) = none) (hc : spitConflict (readBytes a len s) = none) :
    loadStyles a s = acceptStyles (readBytes a len s) s := by
  unfold loadStyles
  rw [tableRead_allowed ht]
  dsimp only
  rw [hf, Nat.max_eq_left hl, tableRead_allowed hr]
  dsimp only
  rw [hk, hb, hc]
  rfl

theorem loadStyles_badChecksum (hk : checksumOk (readBytes a len s) = false) :
    loadStyles a s = finishWith .refused .badChecksum none [] s := by
  unfold loadStyles
  rw [tableRead_allowed ht]
  dsimp only
  rw [hf, Nat.max_eq_left hl, tableRead_allowed hr]
  dsimp only
  rw [hk]
  rfl

end

end

end Sys2Proof.Machine

open Sys2Proof Sys2Proof.Machine

/-- Settles O49, by the date clock of the next second with the roll of a period boundary, and by what a generation that
becomes current leaves of the store, the slots and the journal. -/
theorem clockAndGenerations : Obligations.ClockAndGenerations := by
  refine ⟨fun s hset hn => ?_, fun s c hc hn hunset => ?_⟩
  · obtain ⟨hsec, hyear, hmonth, hday⟩ := clockSecond_clock s
    obtain ⟨y, m, d, hclock⟩ := nextSecond_clock s.pmc
    have hdate : ∀ {y m d}, 86400 ≤ s.pmc.seconds + 1 → nextDay s.pmc.year s.pmc.month s.pmc.day = (y, m, d) →
        (clockSecond s).pmc.year = y ∧ (clockSecond s).pmc.month = m ∧ (clockSecond s).pmc.day = d := by
      intro y m d hlate hnext
      rw [hyear, hmonth, hday, nextSecond_midnight hlate hnext]
      exact ⟨rfl, rfl, rfl⟩
    have hstyles : rolledStyles (updPmc nextSecond s) = [] ↔ ∀ x ∈ s.pmc.styles, x.kind ≠ .full := by
      have hsame : (updPmc nextSecond s).pmc.styles = s.pmc.styles ∧
          (updPmc nextSecond s).pmc.clockSet = s.pmc.clockSet := by
        rw [updPmc_pmc, hclock]
        exact ⟨rfl, rfl⟩
      rw [rolledStyles_set (hsame.2.trans hset), fullStyles_eq_nil_iff, hsame.1]
    refine ⟨_, clockSecond_of hset hn, ?_⟩
    rw [settle_pmc, settle_cnu]
    refine ⟨by rw [hsec, hclock], fun hlt => ?_, fun hlate hd => hdate hlate (nextDay_inMonth hd),
      fun hlate hd hm hy => hdate hlate (nextDay_yearEnd hd hm hy), fun hlate hd hm => hdate hlate (nextDay_monthEnd hd hm),
      fun hlate hy hm hd => hdate hlate (by rw [hy, hm, hd]; rfl), fun hsame => ?_, fun hp hne => ?_⟩
    · rw [hyear, hmonth, hday, nextSecond_before hlt]
      exact ⟨rfl, rfl, rfl⟩
    · rw [hsec] at hsame
      rw [clockSecond_within hsame, updPmc_pmc, updPmc_cnu, hclock]
      exact ⟨rfl, rfl, rfl⟩
    · rw [hsec] at hne
      obtain ⟨u, hu⟩ : ∃ u, u = updPmc nextSecond s := ⟨_, rfl⟩
      have hkept : u.pmc.lastGen = s.pmc.lastGen ∧ u.pmc.current = s.pmc.current ∧ u.pmc.clockSet = true := by
        rw [hu, updPmc_pmc, hclock]
        exact ⟨rfl, rfl, hset⟩
      obtain ⟨hgen, hcur, hclockSet⟩ := hkept
      rw [clockSecond_boundary hp hne]
      rw [← hu] at hstyles ⊢
      obtain ⟨x, y, z, hroll⟩ := roll_pmc .period u
      refine ⟨by rw [hroll, ← hgen]; rfl, fun hno => ?_, fun hsome => ?_⟩
      · rw [roll_atOnce_pmc .period (hstyles.mpr hno)]
        exact ⟨_, rfl, rfl, by rw [rolledGeneration, hclockSet]; rfl, hcur⟩
      · obtain ⟨x, hx, hfull⟩ := hsome
        rw [roll_composes .period (fun hnil => hstyles.mp hnil x hx hfull)]
        exact ⟨hcur, _, rfl, rfl, rfl⟩
  · refine ⟨_, compositionComplete_of hc hn, ?_⟩
    rw [settle_pmc, settle_cnu, settle_jrn, becomeCurrent_pmc]
    refine ⟨rfl, rfl, rfl, rfl, fun hp => becomeCurrent_first_records hp hunset rfl rfl, fun d hp => ?_,
      fun d hp l h i st hl hprint hk => ?_⟩
    · exact (becomeCurrent_drops_records (s := s) (t := updPmc (fun p => { p with composing := none }) s) hp hunset
        rfl rfl).1
    · obtain ⟨-, hheads⟩ := becomeCurrent_drops_records (s := s)
        (t := updPmc (fun p => { p with composing := none }) s) hp hunset rfl rfl
      rw [head_settle, hheads]
      exact dropImages_dropped hl hprint hk

/-- Settles O50. An accepted order is its roll and then the end of the order; a refused one is its end alone. -/
theorem clockAndStyleOrders : Obligations.ClockAndStyleOrders := by
  refine ⟨fun b s y m d sec p h hw => ⟨fun hy1 hy2 hm1 hm2 hd1 hd2 hs hp1 hp2 => ?_, fun hbad => ?_⟩,
    fun b s a len h hw ht hf hl hr => ⟨fun hk hb hc => ?_, fun hk => ?_⟩⟩
  · have hexec := setClock_of h
    rw [setClock_accepts (clockOk_iff.mpr ⟨hy1, hy2, hm1, hm2, hd1, hd2, hs, hp1, hp2⟩)] at hexec
    obtain ⟨x, y', z, hroll⟩ := roll_pmc .clock (updPmc (fun q =>
      { q with year := y, month := m, day := d, seconds := sec, period := p, clockSet := true, clockTicks := 0 }) s)
    refine ⟨_, none, hexec, ended_of_kept _ _ (clockTaken_ordersKept y m d sec p s) h.1 hw, ?_⟩
    rw [finished_pmc, clockTaken, hroll]
    exact ⟨rfl, rfl, rfl, rfl, rfl, rfl, rfl, rfl⟩
  · have hexec := setClock_of h
    rw [setClock_refuses (by rw [clockOk_iff]; omega)] at hexec
    exact ⟨_, none, hexec, ended_of_kept _ _ (only_refl _ s) h.1 hw, finished_pmc _ _ _ _ _⟩
  · have hexec := loadStyles_of h
    rw [loadStyles_accepts ht hf hl hr hk hb hc, acceptStyles_eq] at hexec
    obtain ⟨x, y, z, hroll⟩ := roll_pmc .styles (stylesTaken (readBytes a len s) s)
    have hpmc := (finished_pmc s .done .ok none (stylesRolled (readBytes a len s) s)).trans (stylesRolled_pmc _ s)
    refine ⟨_, none, hexec, ended_of_kept _ _ (stylesRolled_ordersKept _ s) h.1 hw, ?_, ?_, fun l k => ?_, ?_, fun hset => ?_⟩
    · rw [hpmc, hroll]
      rfl
    · rw [hpmc, hroll]
      rfl
    · rw [← stylesTaken_settings _ s, spitSetting, hpmc, hroll]
      rfl
    · rw [hpmc, hroll]
      rfl
    · rw [hpmc, roll_atOnce_pmc .styles (s := stylesTaken (readBytes a len s) s) (rolledStyles_unset hset)]
      exact ⟨_, rfl, by rw [rolledGeneration]; exact congrArg not hset, rfl⟩
  · have hexec := loadStyles_of h
    rw [loadStyles_badChecksum ht hf hl hr hk] at hexec
    exact ⟨_, none, hexec, ended_of_kept _ _ (only_refl _ s) h.1 hw, finished_pmc _ _ _ _ _⟩

end

