-- ==== Sys2Proof/Proofs/PocketOrders.lean ====
section
/-! POCKET_CONTROL on a gated pocket (R111, R115, R118, R119, 6.5): the records that the four actions leave, and the end
of their order with or without the detail NOTHING. -/

namespace Sys2Proof.Machine

section
variable {l : LaneId} {p : Pocket} {s : State} {b : OrderBlock}

/-! ### The order -/

/-- An order whose work left the order unit alone has ended with the detail it names. -/
theorem ended_of_kept_detail (st : BlockState) (code : ResultCode) (d : Option Nat) {u : State} (h : OrdersKept s u)
    (hb : s.ocu.current = some b) (hw : allowed .orderStateWrite (b.addr + 12) 8 s = true) :
    Ended b st code d s.mem s (settle s (finishWith st code d [] u)) := by
  rw [← h.mem]
  exact ended_settle st code d (by rw [h.ocu, hb]) (by rw [h.allowed, hw]) h.clock (by rw [h.ocu]) (by rw [h.ocu])
    (by rw [h.ocu])

theorem pocketRec_finished (l : LaneId) (p : Pocket) (old : State) (st : BlockState) (code : ResultCode)
    (d : Option Nat) (u : State) : pocketRec l p (settle old (finishWith st code d [] u)) = pocketRec l p u :=
  pocketRec_congr l p (finished_only old st code d u (.pockets l) (by simp [eventEnd, orderParts]))

section
variable {a : PocketAction} {act : LaneId → Pocket → Nat → State → State} {i cap : Nat}
  (h : Taken b (.pocketControl (laneCode l) i a cap) s) (hi : pocketOfIndex i = some p) (hg : p.gated = true)
include h hi hg

/-- A taken POCKET_CONTROL of a gated pocket acts on that pocket. -/
theorem pocketControl_of_taken : pocketControl a act s = .next (settle s (act l p cap s)) := by
  unfold pocketControl
  rw [currentBody_of_taken h]
  dsimp only
  rw [if_pos rfl, event_of _ _ rfl, laneOfIndex_laneCode, hi]
  simp [hg]

/-- What an action that answers DONE says of its detail and of the pocket's record holds after the end of its order. -/
theorem pocketControl_done {Leaves : Option Nat → PocketRec → Prop}
    (hw : allowed .orderStateWrite (b.addr + 12) 8 s = true)
    (hact : ∃ d u, act l p cap s = orderDone d u ∧ OrdersKept s u ∧ Leaves d (pocketRec l p u)) :
    ∃ t d, pocketControl a act s = .next t ∧ Ended b .done .ok d s.mem s t ∧ Leaves d (pocketRec l p t) := by
  obtain ⟨d, u, hu, hkept, hleaves⟩ := hact
  refine ⟨_, d, pocketControl_of_taken h hi hg, ?_⟩
  rw [hu, orderDone, pocketRec_finished]
  exact ⟨ended_of_kept_detail _ _ d hkept h.1 hw, hleaves⟩

end

theorem setPocketState_ordersKept (l : LaneId) (p : Pocket) (st : PocketState) (s : State) :
    OrdersKept s (setPocketState l p st s) := by
  apply setPocketState_only (h := only_refl _ _) <;> simp

theorem updPocket_ordersKept (l : LaneId) (p : Pocket) (f : PocketRec → PocketRec) (s : State) :
    OrdersKept s (updPocket l p f s) :=
  updPocket_only l p f (only_refl _ s) (by simp)

/-! ### DISABLE and ENABLE -/

/-- R111: a pocket's record after the test for FULL. -/
theorem fullTest_rec (l : LaneId) (p : Pocket) (s : State) :
    pocketRec l p (fullTest l p s) = { pocketRec l p s with
      state := if (pocketRec l p s).state = .opened ∧
          (pocketRec l p s).capacity ≤ (pocketRec l p s).fill + (pocketRec l p s).reservations.length then .full
        else (pocketRec l p s).state } := by
  unfold fullTest
  dsimp only
  split
  · rw [setPocketState_rec]
  · rfl

/-- R118: what DISABLE answers and makes of the record `r`. -/
def DisableLeaves (r : PocketRec) (d : Option Nat) (q : PocketRec) : Prop :=
  match r.state with
  | .opened | .full => q = { r with state := .disabled }
  | .disabled => q = r ∧ d = some nothingDetail
  | _ => q = { r with staysDisabled := true }

theorem disablePocket_spec (l : LaneId) (p : Pocket) (s : State) : ∃ d u, disablePocket l p s = orderDone d u ∧
    OrdersKept s u ∧ DisableLeaves (pocketRec l p s) d (pocketRec l p u) := by
  unfold disablePocket DisableLeaves
  cases hst : (pocketRec l p s).state with
  | opened | full => exact ⟨_, _, rfl, setPocketState_ordersKept l p _ s, setPocketState_rec l p _ s⟩
  | disabled => exact ⟨_, _, rfl, only_refl _ s, rfl, rfl⟩
  | draining | readyToSwap | out => exact ⟨_, _, rfl, updPocket_ordersKept l p _ s, by simp [hst]⟩

/-- R111, R118: what ENABLE answers and makes of the record `r`. -/
def EnableLeaves (r : PocketRec) (d : Option Nat) (q : PocketRec) : Prop :=
  match r.state with
  | .opened | .full => q = r ∧ d = some nothingDetail
  | .disabled => q = { r with state := if r.capacity ≤ r.fill + r.reservations.length then .full else .opened }
  | _ => q = { r with staysDisabled := false } ∧ (r.staysDisabled = false → d = some nothingDetail)

theorem enablePocket_spec (l : LaneId) (p : Pocket) (s : State) : ∃ d u, enablePocket l p s = orderDone d u ∧
    OrdersKept s u ∧ EnableLeaves (pocketRec l p s) d (pocketRec l p u) := by
  unfold enablePocket EnableLeaves
  cases hst : (pocketRec l p s).state with
  | opened | full => exact ⟨_, _, rfl, only_refl _ s, rfl, rfl⟩
  | disabled =>
    refine ⟨_, _, rfl, ?_, ?_⟩
    · apply fullTest_only (h := setPocketState_ordersKept l p _ s) <;> simp
    · rw [fullTest_rec, setPocketState_rec]
      simp
  | draining | readyToSwap | out =>
    cases hd : (pocketRec l p s).staysDisabled with
    | true => exact ⟨_, _, rfl, updPocket_ordersKept l p _ s, by simp [hst]⟩
    | false => exact ⟨_, _, rfl, only_refl _ s, by rw [← hst, ← hd], fun _ => rfl⟩

/-! ### SWAP -/

/-- R115, 6.5: what SWAP answers and makes of the record `r`. -/
def SwapLeaves (r : PocketRec) (d : Option Nat) (q : PocketRec) : Prop :=
  match r.state with
  | .opened | .full | .disabled => q.state = if r.reservations = [] then .readyToSwap else .draining
  | _ => q = r ∧ d = some nothingDetail

theorem swapOrder_spec (l : LaneId) (p : Pocket) (s : State) :
    ∃ d u, (if swapActs (pocketRec l p s).state then orderDone none (swapPocket l p s) else orderNothing s) =
      orderDone d u ∧ OrdersKept s u ∧ SwapLeaves (pocketRec l p s) d (pocketRec l p u) := by
  have hkept : OrdersKept s (swapPocket l p s) := by
    apply swapPocket_only (h := only_refl _ _) <;> simp
  have hstate : (pocketRec l p (swapPocket l p s)).state = swappedState (pocketRec l p s) :=
    congrArg PocketRec.state (swapPocket_spec l p s).1
  unfold SwapLeaves
  unfold swappedState at hstate
  cases hst : (pocketRec l p s).state with
  | opened | full | disabled =>
    rw [hst] at hstate
    exact ⟨_, _, rfl, hkept, hstate⟩
  | draining | readyToSwap | out => exact ⟨_, _, rfl, only_refl _ s, rfl, rfl⟩

/-! ### SET_CAPACITY -/

/-- R112: a pocket's record after its warn flag has followed. -/
theorem followWarn_rec (l : LaneId) (p : Pocket) (s : State) :
    pocketRec l p (followWarn l p s) = { pocketRec l p s with
      warn := decide (warnLevel (pocketRec l p s).capacity (geometry l s).warnPercent ≤ (pocketRec l p s).fill) } := by
  unfold followWarn
  dsimp only
  split
  next h => rw [← h]
  · exact pocketRec_updPocket l p _ s

/-- R111, R119: the state that a new capacity makes of a gated pocket's. -/
def capacityState (r : PocketRec) (cap : Nat) : PocketState :=
  if r.state = .full ∧ r.fill + r.reservations.length < cap then .opened
  else if r.state = .opened ∧ cap ≤ r.fill + r.reservations.length then .full
  else r.state

/-- R119: a gated pocket's record after it has taken a capacity. -/
theorem applyCapacity_rec (hg : p.gated = true) (cap : Nat) :
    pocketRec l p (applyCapacity l p cap s) = { pocketRec l p s with
      capacity := cap, state := capacityState (pocketRec l p s) cap,
      warn := decide (warnLevel cap (geometry l s).warnPercent ≤ (pocketRec l p s).fill) } := by
  have hset : pocketRec l p (setCapacity l p cap s) = { pocketRec l p s with capacity := cap } :=
    pocketRec_updPocket l p _ s
  have hgeom : geometry l (setCapacity l p cap s) = geometry l s :=
    setCapacity_only l p cap (only_refl (fun q => q = .pockets l) s) rfl (.geom l) (by simp)
  unfold applyCapacity followCapacity capacityState
  dsimp only
  rw [if_pos hg, hset]
  split
  · rw [setPocketState_rec, followWarn_rec, hset, hgeom]
  · rw [fullTest_rec, followWarn_rec, hset, hgeom]

theorem capacityOk_iff (hg : p.gated = true) (cap : Nat) : capacityOk l p cap s = true ↔
    50 ≤ cap ∧ cap ≤ 5000 ∧ (pocketRec l p s).fill + (pocketRec l p s).reservations.length ≤ cap := by
  simp [capacityOk, inRange, hg, and_assoc]

/-- R111, R112, R119: what SET_CAPACITY makes of the record `r`. -/
def CapacityLeaves (r : PocketRec) (cap percent : Nat) (q : PocketRec) : Prop :=
  q.capacity = cap ∧ q.fill = r.fill ∧ q.warn = decide (warnLevel cap percent ≤ r.fill) ∧
  (r.state = .full → r.fill + r.reservations.length < cap → q.state = .opened) ∧
  (r.state = .opened → r.fill + r.reservations.length = cap → q.state = .full)

theorem applyCapacity_leaves (hg : p.gated = true) (cap : Nat) : CapacityLeaves (pocketRec l p s) cap
    (geometry l s).warnPercent (pocketRec l p (applyCapacity l p cap s)) := by
  unfold CapacityLeaves
  rw [applyCapacity_rec hg]
  refine ⟨rfl, rfl, rfl, fun hst hlt => ?_, fun hst heq => ?_⟩
  · exact if_pos ⟨hst, hlt⟩
  · simp [capacityState, hst, heq]

theorem capacityOrder_spec (hg : p.gated = true) {cap : Nat} (hok : capacityOk l p cap s = true) :
    ∃ d u, (if capacityOk l p cap s then orderDone none (applyCapacity l p cap s)
        else orderRefused .badField none s) = orderDone d u ∧ OrdersKept s u ∧
      CapacityLeaves (pocketRec l p s) cap (geometry l s).warnPercent (pocketRec l p u) := by
  refine ⟨_, _, if_pos hok, ?_, applyCapacity_leaves hg cap⟩
  apply applyCapacity_only (h := only_refl _ _) <;> simp

/-- R119: a SET_CAPACITY with a capacity that the pocket may not take is refused. -/
theorem setCapacity_refuses {i cap : Nat} (h : Taken b (.pocketControl (laneCode l) i .setCapacity cap) s)
    (hi : pocketOfIndex i = some p) (hg : p.gated = true) (hbad : ¬ capacityOk l p cap s = true) :
    exec .pocketControlSetCapacity s = .next (settle s (finishWith .refused .badField none [] s)) := by
  show pocketControl .setCapacity _ s = _
  rw [pocketControl_of_taken h hi hg, if_neg hbad]
  rfl

end

end Sys2Proof.Machine

open Sys2Proof Sys2Proof.Machine

/-- Settles O43. Each action answers DONE with what its relation says of the pocket's record, and `pocketControl_done`
carries that to the end of the order; a capacity that the pocket may not take is refused at once. -/
theorem pocketControlOrders : Obligations.PocketControlOrders := by
  intro l i cap p b s hi hg hw
  refine ⟨fun h => ?_, fun h => ?_, fun h => ?_, fun h => ⟨fun hlow hhigh hfits => ?_, fun hbad => ?_⟩⟩
  · exact pocketControl_done (Leaves := DisableLeaves (pocketRec l p s)) h hi hg hw (disablePocket_spec l p s)
  · exact pocketControl_done (Leaves := EnableLeaves (pocketRec l p s)) h hi hg hw (enablePocket_spec l p s)
  · exact pocketControl_done (Leaves := SwapLeaves (pocketRec l p s)) h hi hg hw (swapOrder_spec l p s)
  · exact pocketControl_done
      (Leaves := fun _ => CapacityLeaves (pocketRec l p s) cap (geometry l s).warnPercent) h hi hg hw
      (capacityOrder_spec hg ((capacityOk_iff hg cap).mpr ⟨hlow, hhigh, hfits⟩))
  · obtain ⟨hended, -, -, hpkr⟩ := refused_settle .badField h.1 hw
    exact ⟨_, none, setCapacity_refuses h hi hg (by rw [capacityOk_iff hg]; omega), hended, hpkr⟩

end

