-- ==== Sys2Proof/Proofs/OneHead.lean ====
section
/-! The frame within the Cancelling Unit: a command of one head changes no other head of either lane (R92 to R105). -/

namespace Sys2Proof.Machine

/-- From one state to another every head but one stands. -/
def OtherHeads (l : LaneId) (h : Side) (s t : State) : Prop := ∀ k d, (k, d) ≠ (l, h) → head k d t = head k d s

/-- What holds before an event and after its body with the end of the event holds after it. -/
theorem event_carries {P : State → Prop} {comes : Bool} {body : State → State} {s t : State}
    (h : event comes body s = .next t) (h0 : P s) (hb : P (settle s (body s))) : P t := by
  rcases event_next h with ⟨-, rfl⟩ | ⟨-, rfl⟩ <;> assumption

theorem eventWithin_next {ok comes : Bool} {body : State → State} {s t : State}
    (h : eventWithin ok comes body s = .next t) : event comes body s = .next t := by
  cases ok with
  | true => exact h
  | false => cases h

theorem entryEvent_carries {P : State → Prop} {l : LaneId} {n : Nat} {comes : Entry → Bool}
    {body : Entry → State → State} {s t : State} (h : entryEvent l n comes body s = .next t) (h0 : P s)
    (hb : ∀ e, P (settle s (body e s))) : P t := by
  unfold entryEvent at h
  split at h
  · cases h; exact h0
  · exact event_carries h h0 (hb _)

/-! ### What leaves every other head -/

section
variable {l : LaneId} {h : Side} {s t u : State}

theorem otherHeads_refl (s : State) : OtherHeads l h s s := fun _ _ _ => rfl

theorem OtherHeads.trans (h1 : OtherHeads l h s t) (h2 : OtherHeads l h t u) : OtherHeads l h s u :=
  fun k d hne => (h2 k d hne).trans (h1 k d hne)

theorem otherHeads_of_only {ps : Part → Prop} (hO : Only ps s t) (hp : ∀ k, ¬ ps (.heads k)) : OtherHeads l h s t :=
  fun k d _ => head_of_only k d hO (hp k)

theorem otherHeads_settle (old : State) (h1 : OtherHeads l h s t) : OtherHeads l h s (settle old t) :=
  fun k d hne => (head_settle k d t old).trans (h1 k d hne)

theorem updHead_otherHeads (f : Head → Head) (s : State) : OtherHeads l h s (updHead l h f s) := by
  intro k d hne
  by_cases hk : k = l
  · subst hk
    exact head_updHead_other k f s (fun hd => hne (by rw [hd]))
  · unfold head
    rw [updHead_cnu, PerLane.get_upd_other _ _ hk]

theorem emit_otherHeads (c : EventCode) (k : Option LaneId) (j n a b : Nat) (s : State) :
    OtherHeads l h s (emit c k j n a b s) := otherHeads_of_only (emit_leaves s c k j n a b) (by simp)

theorem setHold_otherHeads (r : HoldReason) (on : Bool) (s : State) : OtherHeads l h s (setHold l r on s) :=
  otherHeads_of_only (setHold_leaves l r on s) (by simp)

theorem countUp_otherHeads (c : Tally) (s : State) : OtherHeads l h s (countUp l c s) :=
  otherHeads_of_only (countUp_only (ps := fun p => p = .tally l) l c (only_refl _ s) rfl) (by simp)

theorem updEntry_otherHeads (n : Nat) (f : Entry → Entry) (s : State) : OtherHeads l h s (updEntry l n f s) :=
  fun _ _ _ => rfl

theorem withdrawAt_otherHeads (n : Nat) (s : State) : OtherHeads l h s (withdrawAt l h n s) := by
  unfold withdrawAt
  dsimp only
  split
  · exact (updHead_otherHeads _ s).trans (updEntry_otherHeads n _ _)
  · exact updHead_otherHeads _ s

/-! ### Evaluations of a head's own records -/

/-- The measures of one head retire that head alone (R163). -/
theorem retireElement_otherHeads {a : AttrId} (ha : a = headWetId h ∨ a = headAlignId h) (s : State) :
    OtherHeads l h s (retireElement l a s) := by
  rcases ha with rfl | rfl
  · cases h <;> exact updHead_otherHeads _ s
  · cases h <;> exact otherHeads_refl s

theorem failingTest_otherHeads {a : AttrId} (ha : a = headWetId h ∨ a = headAlignId h) (s : State) :
    OtherHeads l h s (failingTest l a s) := by
  have hattr : ∀ f u, OtherHeads l h u (raise .health (updAttr l a f u)) := fun _ _ _ _ _ => rfl
  have hhold : ∀ u, OtherHeads l h u (healthHold l u) := fun u => setHold_otherHeads _ _ u
  have hfailing := (hattr (fun r => { r with state := .failing }) s).trans
    (emit_otherHeads .attrFailing (some l) (attrCode a) 0 (attr l a s).normalized 0 _)
  unfold failingTest
  split
  · unfold enterFailing
    dsimp only
    split
    · exact hfailing
    · exact hfailing.trans (hhold _)
    · exact hfailing.trans (((hattr _ _).trans (emit_otherHeads _ _ _ _ _ _ _)).trans (retireElement_otherHeads ha _))
  · exact (hattr _ s).trans (hhold _)
  · exact otherHeads_refl s

theorem evaluate_otherHeads {a : AttrId} (ha : a = headWetId h ∨ a = headAlignId h) (raw normal : Int) (s : State) :
    OtherHeads l h s (evaluate l a raw normal s) := failingTest_otherHeads ha _

/-! ### Prints, loads and the verify eye -/

theorem verifyMiss_otherHeads (s : State) : OtherHeads l h s (verifyMiss l s) := countUp_otherHeads _ s

theorem enterVerify_otherHeads (x : Pos) (s : State) : OtherHeads l h s (enterVerify l h x s) := by
  unfold enterVerify
  split
  · exact updHead_otherHeads _ s
  · exact (updHead_otherHeads _ s).trans (verifyMiss_otherHeads _)

theorem endPrint_otherHeads (p : Print) (clipped : Bool) (s : State) : OtherHeads l h s (endPrint l h p clipped s) := by
  have hlist := updHead_otherHeads (l := l) (h := h) (removePrint p.serial) s
  unfold endPrint
  dsimp only
  split
  · exact hlist
  next q _ =>
    have hslot := hlist.trans (updHead_otherHeads (emptyWaiting q.1) _)
    refine OtherHeads.trans ?_ ((updEntry_otherHeads _ _ _).trans (countUp_otherHeads _ _))
    split
    · exact hslot
    · exact hslot.trans (enterVerify_otherHeads _ _)

theorem startLoad_otherHeads (s : State) : OtherHeads l h s (startLoad l h s) := by
  unfold startLoad
  split
  · exact updHead_otherHeads _ s
  · exact otherHeads_refl s

theorem finishLoad_otherHeads (s : State) : OtherHeads l h s (finishLoad l h s) := by
  unfold finishLoad
  split
  · exact otherHeads_refl s
  · exact updHead_otherHeads _ s

theorem trimTest_otherHeads (s : State) : OtherHeads l h s (trimTest l h s) := by
  unfold trimTest
  dsimp only
  split
  · exact otherHeads_refl s
  · exact (updHead_otherHeads _ s).trans (evaluate_otherHeads (Or.inr rfl) _ _ _)

theorem compareVerify_otherHeads (x : Pos) (s : State) : OtherHeads l h s (compareVerify l h x s) := by
  unfold compareVerify
  split
  · exact verifyMiss_otherHeads s
  · dsimp only
    split
    · exact (updHead_otherHeads _ s).trans (trimTest_otherHeads _)
    · exact verifyMiss_otherHeads s

/-! ### The keep-wet schedule -/

theorem followGapSpit_otherHeads (s : State) : OtherHeads l h s (followGapSpit l s) := setHold_otherHeads _ _ s

theorem gapRequestTest_otherHeads (s : State) : OtherHeads l h s (gapRequestTest l h s) := by
  unfold gapRequestTest
  dsimp only
  split
  · exact ((updHead_otherHeads _ s).trans (followGapSpit_otherHeads _)).trans (emit_otherHeads _ _ _ _ _ _ _)
  · exact otherHeads_refl s

theorem dryTest_otherHeads (s : State) : OtherHeads l h s (dryTest l h s) := by
  unfold dryTest
  split
  · exact (updHead_otherHeads _ s).trans (emit_otherHeads _ _ _ _ _ _ _)
  · exact otherHeads_refl s

theorem wetTest_otherHeads (s : State) : OtherHeads l h s (wetTest l h s) := by
  unfold wetTest
  dsimp only
  split
  · exact (updHead_otherHeads _ s).trans (emit_otherHeads _ _ _ _ _ _ _)
  · exact otherHeads_refl s

theorem warmTest_otherHeads (s : State) : OtherHeads l h s (warmTest l s) := by
  refine otherHeads_of_only (ps := fun p => ∀ k, p ≠ .heads k) ?_ (by simp)
  apply warmTest_only (h := only_refl _ _) <;> simp

theorem restartSpitTimer_otherHeads (s : State) : OtherHeads l h s (restartSpitTimer l h s) := updHead_otherHeads _ s

theorem spitExpiry_otherHeads (s : State) : OtherHeads l h s (spitExpiry l h s) :=
  (((((restartSpitTimer_otherHeads s).trans (updHead_otherHeads _ _)).trans
    (evaluate_otherHeads (Or.inl rfl) _ _ _)).trans (gapRequestTest_otherHeads _)).trans (dryTest_otherHeads _))

theorem completeSpit_otherHeads (s : State) : OtherHeads l h s (completeSpit l h s) :=
  ((((((updHead_otherHeads _ s).trans (restartSpitTimer_otherHeads _)).trans (followGapSpit_otherHeads _)).trans
    (evaluate_otherHeads (Or.inl rfl) _ _ _)).trans (wetTest_otherHeads _)).trans (warmTest_otherHeads _))

/-! ### The rows of one head -/

theorem event_otherHeads {comes : Bool} {body : State → State} (he : event comes body s = .next t)
    (hb : OtherHeads l h s (body s)) : OtherHeads l h s t :=
  event_carries (P := OtherHeads l h s) he (otherHeads_refl s) (otherHeads_settle s hb)

theorem passCancelWindow_otherHeads (e : Entry) (s : State) : OtherHeads l h s (passCancelWindow l h e s) := by
  have hmark := updEntry_otherHeads (l := l) (h := h) e.serial
    (fun x => { x with cancelPassed := x.cancelPassed.upd h (fun _ => true) }) s
  unfold passCancelWindow
  dsimp only
  split
  · exact hmark
  · exact hmark.trans (withdrawAt_otherHeads _ _)

theorem execVerifyEdge_otherHeads {n : Nat} (he : execVerifyEdge l h n s = .next t) : OtherHeads l h s t := by
  refine event_otherHeads he ?_
  have hedge : OtherHeads l h s (acceptEdge l (verifyEyeOf h) true s) := fun _ _ _ => rfl
  dsimp only
  split
  · exact hedge.trans (compareVerify_otherHeads _ _)
  · exact hedge

theorem execVerifyEntryExpiry_otherHeads (he : execVerifyEntryExpiry l h s = .next t) : OtherHeads l h s t := by
  unfold execVerifyEntryExpiry at he
  split at he
  · cases he; exact otherHeads_refl s
  · exact event_otherHeads he ((updHead_otherHeads _ s).trans (verifyMiss_otherHeads _))

theorem execPrintEnd_otherHeads (he : execPrintEnd l h s = .next t) : OtherHeads l h s t := by
  unfold execPrintEnd at he
  split at he
  · cases he; exact otherHeads_refl s
  · exact event_otherHeads he (endPrint_otherHeads _ _ s)

theorem execCancelWindowPassed_otherHeads {n : Nat} (he : execCancelWindowPassed l n h s = .next t) :
    OtherHeads l h s t :=
  entryEvent_carries he (otherHeads_refl s) (fun e => otherHeads_settle s (passCancelWindow_otherHeads e s))

theorem execRasterLoadStart_otherHeads (he : execRasterLoadStart l h s = .next t) : OtherHeads l h s t :=
  event_otherHeads he (startLoad_otherHeads s)

theorem execRasterLoadComplete_otherHeads (he : execRasterLoadComplete l h s = .next t) : OtherHeads l h s t :=
  event_otherHeads he (finishLoad_otherHeads s)

theorem execSpitTimerExpiry_otherHeads (he : execSpitTimerExpiry l h s = .next t) : OtherHeads l h s t :=
  event_otherHeads he (spitExpiry_otherHeads s)

theorem execSpitGapTimeout_otherHeads (he : execSpitGapTimeout l h s = .next t) : OtherHeads l h s t :=
  event_otherHeads he ((updHead_otherHeads _ s).trans (followGapSpit_otherHeads _))

theorem execSpitStart_otherHeads (he : execSpitStart l h s = .next t) : OtherHeads l h s t :=
  event_otherHeads he (updHead_otherHeads _ s)

theorem execSpitComplete_otherHeads (he : execSpitComplete l h s = .next t) : OtherHeads l h s t :=
  event_otherHeads he (completeSpit_otherHeads s)

theorem execHeadTempReading_otherHeads {n : Nat} (he : execHeadTempReading l h n s = .next t) : OtherHeads l h s t :=
  event_otherHeads (eventWithin_next he) (updHead_otherHeads _ s)

/-- A command of one head changes no other head. -/
theorem exec_otherHeads {c : Instr} (he : exec c s = .next t) (hc : ownHead c = some (l, h)) : OtherHeads l h s t := by
  cases c
  case cancelWindowPassed => cases hc; exact execCancelWindowPassed_otherHeads he
  case verifyEdge => cases hc; exact execVerifyEdge_otherHeads he
  case verifyEntryExpiry => cases hc; exact execVerifyEntryExpiry_otherHeads he
  case printEnd => cases hc; exact execPrintEnd_otherHeads he
  case rasterLoadStart => cases hc; exact execRasterLoadStart_otherHeads he
  case rasterLoadComplete => cases hc; exact execRasterLoadComplete_otherHeads he
  case spitTimerExpiry => cases hc; exact execSpitTimerExpiry_otherHeads he
  case spitGapTimeout => cases hc; exact execSpitGapTimeout_otherHeads he
  case spitStart => cases hc; exact execSpitStart_otherHeads he
  case spitComplete => cases hc; exact execSpitComplete_otherHeads he
  case headTempReading => cases hc; exact execHeadTempReading_otherHeads he
  all_goals cases hc

end

end Sys2Proof.Machine
end

