-- ==== Sys2Proof/Proofs/OnePocket.lean ====
section
/-! The frame within the Pocket Router: a command of one pocket, and an order that names one, changes no other pocket of
either lane (R115 to R119). -/

namespace Sys2Proof.Machine

/-- From one state to another every pocket but one stands. -/
def OtherPockets (l : LaneId) (p : Pocket) (s t : State) : Prop :=
  ∀ k q, (k, q) ≠ (l, p) → pocketRec k q t = pocketRec k q s

section
variable {l : LaneId} {p : Pocket} {s t u : State}

/-! ### What leaves every other pocket -/

theorem otherPockets_refl (s : State) : OtherPockets l p s s := fun _ _ _ => rfl

theorem OtherPockets.trans (h1 : OtherPockets l p s t) (h2 : OtherPockets l p t u) : OtherPockets l p s u :=
  fun k q hne => (h2 k q hne).trans (h1 k q hne)

theorem otherPockets_of_only {ps : Part → Prop} (h : Only ps s t) (hp : ∀ k, ¬ ps (.pockets k)) :
    OtherPockets l p s t := fun k q _ => pocketRec_congr k q (h (.pockets k) (hp k))

theorem otherPockets_settle (old : State) (h : OtherPockets l p s t) : OtherPockets l p s (settle old t) :=
  fun k q hne => (pocketRec_settle k q old t).trans (h k q hne)

theorem updPocket_otherPockets (f : PocketRec → PocketRec) (s : State) : OtherPockets l p s (updPocket l p f s) := by
  intro k q hne
  by_cases hk : k = l
  · subst hk
    exact pocketRec_updPocket_other k f s (fun hq => hne (by rw [hq]))
  · exact pocketRec_congr k q (PerLane.get_upd_other _ _ hk)

theorem setPocketState_otherPockets (st : PocketState) (s : State) : OtherPockets l p s (setPocketState l p st s) := by
  unfold setPocketState
  split
  · exact otherPockets_refl s
  · exact updPocket_otherPockets _ s

theorem followWarn_otherPockets (s : State) : OtherPockets l p s (followWarn l p s) := by
  unfold followWarn
  dsimp only
  split
  · exact otherPockets_refl s
  · exact updPocket_otherPockets _ s

theorem fullTest_otherPockets (s : State) : OtherPockets l p s (fullTest l p s) := by
  unfold fullTest
  dsimp only
  split
  · exact setPocketState_otherPockets _ s
  · exact otherPockets_refl s

theorem drainedTest_otherPockets (s : State) : OtherPockets l p s (drainedTest l p s) := by
  unfold drainedTest
  dsimp only
  split
  · exact setPocketState_otherPockets _ s
  · exact otherPockets_refl s

theorem swapPocket_otherPockets (s : State) : OtherPockets l p s (swapPocket l p s) := by
  have hdrain : ∀ u, OtherPockets l p u (drainedTest l p (setPocketState l p .draining u)) := fun u =>
    (setPocketState_otherPockets _ u).trans (drainedTest_otherPockets _)
  unfold swapPocket
  split
  · exact hdrain s
  · exact hdrain s
  · exact (updPocket_otherPockets _ s).trans (hdrain _)
  all_goals exact otherPockets_refl s

theorem emit_otherPockets (c : EventCode) (k : Option LaneId) (j n a b : Nat) (s : State) :
    OtherPockets l p s (emit c k j n a b s) := otherPockets_of_only (emit_leaves s c k j n a b) (by simp)

theorem endReached_otherPockets (was : Bool) (s : State) : OtherPockets l p s (endReached l p was s) := by
  refine otherPockets_of_only (ps := fun x => ∀ k, x ≠ .pockets k) ?_ (by simp)
  apply endReached_only (h := only_refl _ _) <;> simp

theorem endReleased_otherPockets (s : State) : OtherPockets l p s (endReleased l s) := by
  refine otherPockets_of_only (ps := fun x => ∀ k, x ≠ .pockets k) ?_ (by simp)
  apply endReleased_only (h := only_refl _ _) <;> simp

theorem applyCapacity_otherPockets (cap : Nat) (s : State) : OtherPockets l p s (applyCapacity l p cap s) := by
  have hset : OtherPockets l p s (setCapacity l p cap s) := updPocket_otherPockets _ s
  have hwarn := hset.trans (followWarn_otherPockets _)
  unfold applyCapacity followCapacity
  dsimp only
  split
  · split
    · exact hwarn.trans (setPocketState_otherPockets _ _)
    · exact hwarn.trans (fullTest_otherPockets _)
  · exact (hwarn.trans (endReached_otherPockets _ _)).trans (endReleased_otherPockets _)

theorem trayIn_otherPockets (s : State) : OtherPockets l p s (trayIn l p s) := by
  have htray := updPocket_otherPockets (l := l) (p := p) (fun q => { q with tray := true }) s
  unfold trayIn
  dsimp only
  split
  · exact htray
  · refine OtherPockets.trans ?_ (emit_otherPockets _ _ _ _ _ _ _)
    split
    · exact (htray.trans (updPocket_otherPockets _ _)).trans (setPocketState_otherPockets _ _)
    · exact ((htray.trans (updPocket_otherPockets _ _)).trans (setPocketState_otherPockets _ _)).trans
        (endReleased_otherPockets _)

/-! ### The rows of one pocket -/

theorem event_otherPockets {comes : Bool} {body : State → State} (h : event comes body s = .next t)
    (hb : OtherPockets l p s (body s)) : OtherPockets l p s t :=
  event_carries (P := OtherPockets l p s) h (otherPockets_refl s) (otherPockets_settle s hb)

theorem execSwapRequest_otherPockets {pressed : Bool} {n : Nat} (h : execSwapRequest l p pressed n s = .next t) :
    OtherPockets l p s t := by
  refine event_otherPockets (eventWithin_next h) ?_
  have hread := updPocket_otherPockets (l := l) (p := p) (fun r => { r with button := pressed }) s
  dsimp only
  split
  · exact hread.trans (swapPocket_otherPockets _)
  · exact hread

theorem execTrayIn_otherPockets {n : Nat} (h : execTrayIn l p n s = .next t) : OtherPockets l p s t :=
  event_otherPockets h (trayIn_otherPockets s)

/-- A command of one pocket changes no other pocket. -/
theorem exec_otherPockets {c : Instr} (h : exec c s = .next t) (hc : ownPocket c = some (l, p)) :
    OtherPockets l p s t := by
  cases c
  case swapRequest => cases hc; exact execSwapRequest_otherPockets h
  case trayIn => cases hc; exact execTrayIn_otherPockets h
  all_goals cases hc

/-! ### The orders of one pocket -/

theorem finishWith_otherPockets (st : BlockState) (code : ResultCode) (d : Option Nat) (s : State) :
    OtherPockets l p s (finishWith st code d [] s) := by
  refine otherPockets_of_only (ps := fun x => ∀ k, x ≠ .pockets k) ?_ (by simp)
  apply finishWith_only (h := only_refl _ _) <;> simp

theorem disablePocket_otherPockets (s : State) : OtherPockets l p s (disablePocket l p s) := by
  unfold disablePocket
  split
  · exact (setPocketState_otherPockets _ s).trans (finishWith_otherPockets _ _ _ _)
  · exact (setPocketState_otherPockets _ s).trans (finishWith_otherPockets _ _ _ _)
  · exact finishWith_otherPockets _ _ _ s
  all_goals exact (updPocket_otherPockets _ s).trans (finishWith_otherPockets _ _ _ _)

theorem enablePocket_otherPockets (s : State) : OtherPockets l p s (enablePocket l p s) := by
  have hstays : OtherPockets l p s (if (pocketRec l p s).staysDisabled then
      orderDone none (updPocket l p (fun r => { r with staysDisabled := false }) s) else orderNothing s) := by
    split
    · exact (updPocket_otherPockets _ s).trans (finishWith_otherPockets _ _ _ _)
    · exact finishWith_otherPockets _ _ _ s
  unfold enablePocket
  split
  · exact finishWith_otherPockets _ _ _ s
  · exact finishWith_otherPockets _ _ _ s
  · exact ((setPocketState_otherPockets _ s).trans (fullTest_otherPockets _)).trans (finishWith_otherPockets _ _ _ _)
  all_goals exact hstays

theorem swapOrder_otherPockets (s : State) : OtherPockets l p s
    (if swapActs (pocketRec l p s).state then orderDone none (swapPocket l p s) else orderNothing s) := by
  split
  · exact (swapPocket_otherPockets s).trans (finishWith_otherPockets _ _ _ _)
  · exact finishWith_otherPockets _ _ _ s

theorem capacityOrder_otherPockets (cap : Nat) (s : State) : OtherPockets l p s
    (if capacityOk l p cap s then orderDone none (applyCapacity l p cap s) else orderRefused .badField none s) := by
  split
  · exact (applyCapacity_otherPockets cap s).trans (finishWith_otherPockets _ _ _ _)
  · exact finishWith_otherPockets _ _ _ s

/-- The body of the order in progress is that of the block the chain has taken. -/
theorem currentBody_block {b : OrderBlock} {body : OrderBody} (hb : s.ocu.current = some b)
    (h : currentBody s = some body) : b.body = body := by
  unfold currentBody at h
  rw [hb] at h
  split at h
  · cases h
  · exact Option.some.inj h

/-- A POCKET_CONTROL row changes no pocket but the one its block names, of any lane. -/
theorem pocketControl_otherPocket {a x : PocketAction} {act : LaneId → Pocket → Nat → State → State} {b : OrderBlock}
    {i j n : Nat} (h : pocketControl a act s = .next t) (hact : ∀ k m, OtherPockets k p s (act k p m s))
    (hb : s.ocu.current = some b) (hbody : b.body = .pocketControl i j x n) (hj : pocketOfIndex j = some p) :
    ∀ k q, q ≠ p → pocketRec k q t = pocketRec k q s := by
  have hkeep : ∀ m, OtherPockets m p s t → ∀ k q, q ≠ p → pocketRec k q t = pocketRec k q s :=
    fun m hm k q hq => hm k q (fun he => hq (congrArg Prod.snd he))
  unfold pocketControl at h
  split at h
  next i' j' x' n' hcur =>
    cases hbody.symm.trans (currentBody_block hb hcur)
    split at h
    · rw [hj] at h
      cases hi : laneOfIndex i with
      | none => exact hkeep .lane0 (event_otherPockets h (by rw [hi]; exact finishWith_otherPockets _ _ _ s))
      | some m =>
        refine hkeep m (event_otherPockets h ?_)
        rw [hi]
        dsimp only
        split
        · exact finishWith_otherPockets _ _ _ s
        · exact hact m n
    · cases h; exact fun _ _ _ => rfl
  · cases h; exact fun _ _ _ => rfl

end

end Sys2Proof.Machine
end

