-- ==== Sys2Proof/Proofs/OrderLanes.lean ====
section
/-! The frame of the order rows by lane: an order that names a lane leaves every part of the other one (R107, R129), and an
order that names a pocket every other pocket. -/

namespace Sys2Proof.Machine

/-- The parts that work on one lane may change: all but those of the other lane. -/
def besideLane (l : LaneId) (p : Part) : Prop := ∀ k, p ∈ lanePartsOf k → k = l

theorem eventEnd_besideLane (l : LaneId) : ∀ p ∈ eventEnd, besideLane l p := by
  simp [eventEnd, besideLane, lanePartsOf]

section
variable {l : LaneId} {s t : State} {b : OrderBlock}

theorem event_besideLane {comes : Bool} {body : State → State} (h : event comes body s = .next t)
    (hb : Only (besideLane l) s (body s)) : Only (besideLane l) s t :=
  event_carries (P := Only (besideLane l) s) h (only_refl _ s) (settle_only s hb (eventEnd_besideLane l))

theorem finishWith_besideLane (st : BlockState) (code : ResultCode) (d : Option Nat) {u : State}
    (h : Only (besideLane l) s u) : Only (besideLane l) s (finishWith st code d [] u) := by
  apply finishWith_only (h := h) <;> simp [besideLane, lanePartsOf]

/-! ### What each order does on its lane -/

theorem loadGeometry_besideLane {i : Nat} (a : Nat) (hi : laneOfIndex i = some l) :
    Only (besideLane l) s (loadGeometry a i s) := by
  have hrefused : ∀ c d, Only (besideLane l) s (orderRefused c d s) :=
    fun c d => finishWith_besideLane _ c d (only_refl _ s)
  unfold loadGeometry
  rw [hi]
  dsimp only
  split
  · apply orderFaulted_only (h := only_refl _ _) <;> simp [besideLane, lanePartsOf]
  · split
    · exact hrefused _ _
    · split
      · exact hrefused _ _
      · split
        · exact hrefused _ _
        · apply acceptGeometry_only (h := only_refl _ _) <;> simp [besideLane, lanePartsOf]

theorem tallySnapshot_besideLane {i : Nat} (a z : Nat) (hi : laneOfIndex i = some l) :
    Only (besideLane l) s (tallySnapshot a i z s) := by
  have hwrite : ∀ bs, Only (besideLane l) s (writeBytes a bs s) := fun bs =>
    writeBytes_only a bs (only_refl _ s) (by simp [besideLane, lanePartsOf])
  unfold tallySnapshot
  rw [hi]
  dsimp only
  split
  · exact finishWith_besideLane _ _ _ (only_refl _ s)
  · split
    · refine finishWith_besideLane _ _ _ ?_
      split
      · exact zeroTally_only l (hwrite _) (by simp [besideLane, lanePartsOf])
      · exact hwrite _
    · apply orderFaulted_only (h := only_refl _ _) <;> simp [besideLane, lanePartsOf]

theorem startLaneTest_besideLane {i : Nat} {start : LaneId → State → State} (hi : laneOfIndex i = some l)
    (h : Only (besideLane l) s (start l s)) : Only (besideLane l) s (startLaneTest i start s) := by
  have hsame : startLaneTest i start s = startLaneTest i (fun _ => start l) s := by
    unfold startLaneTest
    rw [hi]
  rw [hsame]
  apply startLaneTest_only (h := only_refl _ _) (h7 := fun _ => h) <;> simp [besideLane, lanePartsOf]

theorem abortLaneTest_besideLane {i : Nat} (k : LaneTestKind) (hi : laneOfIndex i = some l) :
    Only (besideLane l) s (abortLaneTest k i s) := by
  unfold abortLaneTest
  rw [hi]
  dsimp only
  split
  · exact finishWith_besideLane _ _ _ (only_refl _ s)
  · split
    · refine finishWith_besideLane _ _ _ ?_
      apply endLaneTest_only (h := only_refl _ _) <;> simp [besideLane, lanePartsOf]
    · exact finishWith_besideLane _ _ _ (only_refl _ s)

theorem holdOrder_besideLane (s : State) : Only (besideLane l) s
    (if holdSet l .host s then orderNothing s else orderDone none (setHold l .host true s)) := by
  split
  · exact finishWith_besideLane _ _ _ (only_refl _ s)
  · exact finishWith_besideLane _ _ _
      (setHold_only l _ _ (only_refl _ s) (by simp [besideLane, lanePartsOf]) (by simp [besideLane, lanePartsOf]))

theorem releaseOrder_besideLane (s : State) : Only (besideLane l) s
    (if holdSet l .host s then orderDone none (setHold l .host false s) else orderNothing s) := by
  split
  · exact finishWith_besideLane _ _ _
      (setHold_only l _ _ (only_refl _ s) (by simp [besideLane, lanePartsOf]) (by simp [besideLane, lanePartsOf]))
  · exact finishWith_besideLane _ _ _ (only_refl _ s)

theorem swapOrder_besideLane (p : Pocket) (s : State) : Only (besideLane l) s
    (if swapActs (pocketRec l p s).state then orderDone none (swapPocket l p s) else orderNothing s) := by
  split
  · refine finishWith_besideLane _ _ _ ?_
    apply swapPocket_only (h := only_refl _ _) <;> simp [besideLane, lanePartsOf]
  · exact finishWith_besideLane _ _ _ (only_refl _ s)

theorem capacityOrder_besideLane (p : Pocket) (n : Nat) (s : State) : Only (besideLane l) s
    (if capacityOk l p n s then orderDone none (applyCapacity l p n s) else orderRefused .badField none s) := by
  split
  · refine finishWith_besideLane _ _ _ ?_
    apply applyCapacity_only (h := only_refl _ _) <;> simp [besideLane, lanePartsOf]
  · exact finishWith_besideLane _ _ _ (only_refl _ s)

/-! ### The rows -/

variable (hb : s.ocu.current = some b)
include hb

/-- A LANE_CONTROL row does nothing on a block of another order. -/
theorem laneControl_idle {a : LaneAction} {x : PocketAction} {act : LaneId → State → State} {i j n : Nat} (h : laneControl a act s = .next t)
    (hbody : b.body = .pocketControl i j x n) : s = t := by
  unfold laneControl at h
  split at h
  next hcur => cases hbody.symm.trans (currentBody_block hb hcur)
  · cases h; rfl

section
variable (hl : orderLaneOf b.body = some l)
include hl

theorem execLoadGeometry_besideLane (h : execLoadGeometry s = .next t) : Only (besideLane l) s t := by
  unfold execLoadGeometry at h
  split at h
  next a i hcur =>
    rw [currentBody_block hb hcur] at hl
    exact event_besideLane h (loadGeometry_besideLane a hl)
  · cases h; exact only_refl _ s

theorem execTallySnapshot_besideLane (h : execTallySnapshot s = .next t) : Only (besideLane l) s t := by
  unfold execTallySnapshot at h
  split at h
  next a i z hcur =>
    rw [currentBody_block hb hcur] at hl
    exact event_besideLane h (tallySnapshot_besideLane a z hl)
  · cases h; exact only_refl _ s

theorem execSelfTestReference_besideLane (h : execSelfTestReference s = .next t) : Only (besideLane l) s t := by
  unfold execSelfTestReference at h
  split at h
  next hcur =>
    rw [currentBody_block hb hcur] at hl
    refine event_besideLane h (startLaneTest_besideLane hl ?_)
    apply startReference_only (h := only_refl _ _) <;> simp [besideLane, lanePartsOf]
  · cases h; exact only_refl _ s

theorem execSelfTestCalibrate_besideLane (h : execSelfTestCalibrate s = .next t) : Only (besideLane l) s t := by
  unfold execSelfTestCalibrate at h
  split at h
  next hcur =>
    rw [currentBody_block hb hcur] at hl
    refine event_besideLane h (startLaneTest_besideLane hl ?_)
    apply startCalibrate_only (h := only_refl _ _) <;> simp [besideLane, lanePartsOf]
  · cases h; exact only_refl _ s

theorem execSelfTestAbort_besideLane (h : execSelfTestAbort s = .next t) : Only (besideLane l) s t := by
  unfold execSelfTestAbort at h
  split at h
  next k i hcur =>
    rw [currentBody_block hb hcur] at hl
    cases k with
    | reference => exact event_besideLane h (abortLaneTest_besideLane .reference hl)
    | calibrate => exact event_besideLane h (abortLaneTest_besideLane .calibrate hl)
    | classAudit => cases hl
  · cases h; exact only_refl _ s

/-- A LANE_CONTROL row changes nothing of the lane it does not name. -/
theorem laneControl_besideLane {a : LaneAction} {act : LaneId → State → State} (h : laneControl a act s = .next t)
    (hact : Only (besideLane l) s (act l s)) : Only (besideLane l) s t := by
  unfold laneControl at h
  split at h
  next i a' hcur =>
    rw [currentBody_block hb hcur] at hl
    have hi : laneOfIndex i = some l := hl
    split at h
    · refine event_besideLane h ?_
      rw [hi]
      exact hact
    · cases h; exact only_refl _ s
  · cases h; exact only_refl _ s

/-- A POCKET_CONTROL row changes nothing of the lane it does not name. -/
theorem pocketControl_besideLane {a : PocketAction} {act : LaneId → Pocket → Nat → State → State}
    (h : pocketControl a act s = .next t) (hact : ∀ p n, Only (besideLane l) s (act l p n s)) :
    Only (besideLane l) s t := by
  have hrefused := finishWith_besideLane .refused .badField none (only_refl (besideLane l) s)
  unfold pocketControl at h
  split at h
  next i j a' n hcur =>
    rw [currentBody_block hb hcur] at hl
    have hi : laneOfIndex i = some l := hl
    split at h
    · refine event_besideLane h ?_
      rw [hi]
      cases pocketOfIndex j with
      | none => exact hrefused
      | some p =>
        dsimp only
        split
        · exact hrefused
        · exact hact p n
    · cases h; exact only_refl _ s
  · cases h; exact only_refl _ s

/-- An order row changes nothing of the lane its block does not name: the rows whose blocks name no lane do nothing on one
that does. -/
theorem exec_besideLane {c : Instr} (hc : isOrderRow c = true) (h : exec c s = .next t) : Only (besideLane l) s t := by
  cases c
  case loadGeometry => exact execLoadGeometry_besideLane hb hl h
  case tallySnapshot => exact execTallySnapshot_besideLane hb hl h
  case selfTestReference => exact execSelfTestReference_besideLane hb hl h
  case selfTestCalibrate => exact execSelfTestCalibrate_besideLane hb hl h
  case selfTestAbort => exact execSelfTestAbort_besideLane hb hl h
  case laneControlRun =>
    refine laneControl_besideLane hb hl h ?_
    apply runLane_only (h := only_refl _ _) <;> simp [besideLane, lanePartsOf]
  case laneControlDrain =>
    refine laneControl_besideLane hb hl h ?_
    apply drainLane_only (h := only_refl _ _) <;> simp [besideLane, lanePartsOf]
  case laneControlStandby =>
    refine laneControl_besideLane hb hl h ?_
    apply standby_only (h := only_refl _ _) <;> simp [besideLane, lanePartsOf]
  case laneControlOff =>
    refine laneControl_besideLane hb hl h ?_
    apply switchOff_only (h := only_refl _ _) <;> simp [besideLane, lanePartsOf]
  case laneControlClear =>
    refine laneControl_besideLane hb hl h ?_
    apply clearStopped_only (h := only_refl _ _) <;> simp [besideLane, lanePartsOf]
  case laneControlAbort =>
    refine laneControl_besideLane hb hl h (finishWith_besideLane _ _ _ ?_)
    apply abortLane_only (h := only_refl _ _) <;> simp [besideLane, lanePartsOf]
  case laneControlHold => exact laneControl_besideLane hb hl h (holdOrder_besideLane s)
  case laneControlRelease => exact laneControl_besideLane hb hl h (releaseOrder_besideLane s)
  case pocketControlDisable =>
    refine pocketControl_besideLane hb hl h (fun p _ => ?_)
    apply disablePocket_only (h := only_refl _ _) <;> simp [besideLane, lanePartsOf]
  case pocketControlEnable =>
    refine pocketControl_besideLane hb hl h (fun p _ => ?_)
    apply enablePocket_only (h := only_refl _ _) <;> simp [besideLane, lanePartsOf]
  case pocketControlSwap => exact pocketControl_besideLane hb hl h (fun p _ => swapOrder_besideLane p s)
  case pocketControlSetCapacity => exact pocketControl_besideLane hb hl h (fun p n => capacityOrder_besideLane p n s)
  case configurePort | setWindows | identify | loadClasses | loadStyles | setClock | loadThresholds | givePages
    | flushJournal | healthSnapshot | selfTestClassAudit =>
    simp only [exec, execConfigurePort, execSetWindows, execIdentify, execLoadClasses, execLoadStyles, execSetClock,
      execLoadThresholds, execGivePages, execFlushJournal, execHealthSnapshot, execSelfTestClassAudit] at h
    split at h
    next hcur =>
      rw [currentBody_block hb hcur] at hl
      cases hl
    · cases h; exact only_refl _ s
  all_goals cases hc

end

/-- An order row changes no pocket but the one its block names: the rows of other orders do nothing on a block of
POCKET_CONTROL. -/
theorem exec_otherPocket {c : Instr} {i j n : Nat} {a : PocketAction} {p : Pocket}
    (hbody : b.body = .pocketControl i j a n) (hj : pocketOfIndex j = some p) (hc : isOrderRow c = true)
    (h : exec c s = .next t) : ∀ k q, q ≠ p → pocketRec k q t = pocketRec k q s := by
  cases c
  case pocketControlDisable =>
    exact pocketControl_otherPocket h (fun k _ => disablePocket_otherPockets s) hb hbody hj
  case pocketControlEnable =>
    exact pocketControl_otherPocket h (fun k _ => enablePocket_otherPockets s) hb hbody hj
  case pocketControlSwap => exact pocketControl_otherPocket h (fun k _ => swapOrder_otherPockets s) hb hbody hj
  case pocketControlSetCapacity =>
    exact pocketControl_otherPocket h (fun k m => capacityOrder_otherPockets m s) hb hbody hj
  case laneControlRun | laneControlDrain | laneControlStandby | laneControlOff | laneControlClear | laneControlAbort
    | laneControlHold | laneControlRelease =>
    exact laneControl_idle hb h hbody ▸ fun _ _ _ => rfl
  case configurePort | setWindows | identify | loadClasses | loadGeometry | loadStyles | setClock | loadThresholds
    | givePages | flushJournal | tallySnapshot | healthSnapshot | selfTestReference | selfTestCalibrate
    | selfTestClassAudit | selfTestAbort =>
    simp only [exec, execConfigurePort, execSetWindows, execIdentify, execLoadClasses, execLoadGeometry, execLoadStyles,
      execSetClock, execLoadThresholds, execGivePages, execFlushJournal, execTallySnapshot, execHealthSnapshot,
      execSelfTestReference, execSelfTestCalibrate, execSelfTestClassAudit, execSelfTestAbort] at h
    split at h
    next hcur => cases hbody.symm.trans (currentBody_block hb hcur)
    · cases h; exact fun _ _ _ => rfl
  all_goals cases hc

end

end Sys2Proof.Machine

open Sys2Proof Sys2Proof.Machine

/-- Settles O4: the parts by `exec_touches`, the other heads and pockets of a row of one head or pocket, and for an order
the other lane and the other pockets. -/
theorem everyCommandChangesOnlyItsParts : Obligations.EveryCommandChangesOnlyItsParts := by
  intro c s t h
  refine ⟨exec_touches h, ?_, ?_, fun hc b hb => ⟨fun l hl k hk p hp => ?_, fun i j a n p hbody hj => ?_⟩⟩
  · rintro ⟨l, d⟩ hq
    exact exec_otherHeads h hq
  · rintro ⟨l, p⟩ hq
    exact exec_otherPockets h hq
  · exact exec_besideLane hb hl hc h p (fun hbeside => hk (hbeside k hp))
  · exact exec_otherPocket hb hbody hj hc h
end

