-- ==== Sys2Proof/Proofs/LampsAndFeed.lean ====
section
/-! The lamp power of a lane (R123): the end of the lamp warm and of a rise (R127), the idle timer (R125), the feeder's
request (R126), and feed permission (R134). -/

namespace Sys2Proof.Machine

/-! ### Feed permission -/

section
variable {l : LaneId} {s : State}

/-- R134: a lane permits feed only RUNNING with an empty hold-reason set. -/
theorem feedPermit_iff (l : LaneId) (s : State) :
    feedPermit l s = true ↔ laneMode l s = .running ∧ ∀ r, holdSet l r s = false := by
  have hall : (∀ r, holdSet l r s = false) ↔ holdSet l .gapCal s = false ∧ holdSet l .gapSpit s = false ∧
      holdSet l .endFull s = false ∧ holdSet l .queueFull s = false ∧ holdSet l .health s = false ∧
      holdSet l .host s = false ∧ holdSet l .wake s = false ∧ holdSet l .test s = false := by
    refine ⟨fun h => ⟨h _, h _, h _, h _, h _, h _, h _, h _⟩, fun ⟨h0, h1, h2, h3, h4, h5, h6, h7⟩ r => ?_⟩
    cases r <;> assumption
  rw [hall]
  simp [feedPermit, and_assoc]

theorem feedPermit_of_hold {r : HoldReason} (h : holdSet l r s = true) : feedPermit l s = false := by
  refine Bool.eq_false_iff.mpr (fun hp => ?_)
  have hr := ((feedPermit_iff l s).mp hp).2 r
  rw [h] at hr
  cases hr

/-! ### The lamps -/

/-- R123: a lamp level below ON is taken at once, and a rise cancelled. -/
theorem lampTo_lsq (l : LaneId) (level : LampPower) (s : State) :
    (lampTo l level s).lsq.get l = { s.lsq.get l with lamp := level, rise := none } := by
  have hset : (updLsq l (fun q => { q with lamp := level, rise := none }) s).lsq.get l =
      { s.lsq.get l with lamp := level, rise := none } := PerLane.get_upd_self _ _ _
  unfold lampTo
  dsimp only
  split
  · split
    · rw [emit_lsq]; exact hset
    · exact hset
  · exact hset

theorem lampTo_leaves (l : LaneId) (level : LampPower) (s : State) :
    Only (fun p => p ∈ [.raised, .sfe l, .lane l, .idle l, .journal]) s (lampTo l level s) := by
  apply lampTo_only (h := only_refl _ _) <;> simp

theorem lampTo_kept (l : LaneId) (level : LampPower) (s : State) : RaisedKept s (lampTo l level s) := by
  unfold lampTo
  dsimp only
  split
  · split
    · refine RaisedKept.trans ?_ (emit_kept _ _ _ _ _ _ _)
      exact raisedKept_of_eq rfl
    · exact raisedKept_of_eq rfl
  · exact raisedKept_of_eq rfl

/-- R28: with an empty queue no entry is scanned when the lamp power leaves ON. -/
theorem loseScanning_empty (h : (s.track.get l).queue = []) : loseScanning l s = s := by
  simp [loseScanning, deliverAll, deliverRun, h]

theorem beginRise_of_dim (outside : Bool) (hd : (s.lsq.get l).lamp = .dim) (hr : (s.lsq.get l).rise = none) :
    ((beginRise l outside s).lsq.get l).rise = some ⟨0, outside⟩ := by
  simp [beginRise, hd, hr]

theorem beginRise_of_not_dim (outside : Bool) (h : (s.lsq.get l).lamp ≠ .dim) : beginRise l outside s = s := by
  simp [beginRise, h]

/-! ### The end of a rise -/

theorem finishRise_lsq (l : LaneId) (r : Rise) (s : State) : ∃ w, (finishRise l r s).lsq.get l =
    { s.lsq.get l with lamp := .on, rise := none, warmStep := w } := by
  have hon : ∀ u : State, u.lsq = (updLsq l (fun q => { q with lamp := .on, rise := none }) s).lsq →
      u.lsq.get l = { s.lsq.get l with lamp := .on, rise := none } := fun u hu => by
    rw [hu]; exact PerLane.get_upd_self _ _ _
  unfold finishRise
  dsimp only
  split
  · refine ⟨some .calibration, ?_⟩
    unfold warmCalibration
    rw [updSfe_lsq, updLsq_lsq, PerLane.get_upd_self, hon _ (by split <;> rfl)]
  · exact ⟨(s.lsq.get l).warmStep, hon _ (by split <;> rfl)⟩

/-- R34: what the end of a rise made outside WARMING asks of the Scan Front End. -/
def wakeAsked (r : Rise) (f : Sfe) : Sfe := if r.outside then { f with due := true, wakeMark := true } else f

theorem finishRise_sfe (l : LaneId) (r : Rise) (s : State) : ∃ q, (finishRise l r s).sfe.get l =
    { wakeAsked r (s.sfe.get l) with longRequest := q } := by
  have hwake : ∀ u : State, (if r.outside then askWake l u else u).sfe.get l = wakeAsked r (u.sfe.get l) := fun u => by
    unfold askWake wakeAsked
    split
    · exact PerLane.get_upd_self _ _ _
    · rfl
  unfold finishRise
  dsimp only
  split
  · refine ⟨some .warming, ?_⟩
    unfold warmCalibration
    rw [updSfe_sfe, PerLane.get_upd_self, updLsq_sfe, hwake]
    rfl
  · exact ⟨(wakeAsked r (s.sfe.get l)).longRequest, hwake _⟩

/-! ### The rows -/

theorem lampWarmComplete_of {n : Nat} (h : (s.lsq.get l).lampWarm = some n) (hn : 40000 ≤ n) :
    exec (.lampWarmComplete l) s =
      .next (settle s (warmCalibration l (updLsq l (fun q => { q with lampWarm := none }) s))) := by
  have he : exec (.lampWarmComplete l) s = execLampWarmComplete l s := rfl
  rw [he]
  unfold execLampWarmComplete
  rw [h]
  exact event_of _ _ (decide_eq_true hn)

theorem lampRiseComplete_of {r : Rise} (h : (s.lsq.get l).rise = some r) (hn : 1000 ≤ r.ticks) :
    exec (.lampRiseComplete l) s = .next (settle s (finishRise l r s)) := by
  have he : exec (.lampRiseComplete l) s = execLampRiseComplete l s := rfl
  rw [he]
  unfold execLampRiseComplete
  rw [h]
  exact event_of _ _ (decide_eq_true hn)

theorem idleTimerExpiry_of (hc : idleCounts l s = true) (hq : (s.track.get l).queue = [])
    (hn : 20000 * (geometry l s).idleTime ≤ (s.lsq.get l).idle) :
    exec (.idleTimerExpiry l) s = .next (settle s (setHold l .wake true (lampTo l .dim s))) := by
  have he : exec (.idleTimerExpiry l) s = execIdleTimerExpiry l s := rfl
  rw [he]
  unfold execIdleTimerExpiry
  rw [event_of _ _ (by simp [hc, ticksPerSecond, hn]), loseScanning_empty hq]

theorem feedReqChange_of {level : Bool} {held : Nat} (hm : laneMode l s = .running) (hf : (s.lsq.get l).feedReq ≠ level)
    (hh : 5 ≤ held) : exec (.feedReqChange l level held) s = .next (settle s
      (if level then beginRise l true (updLsq l (fun q => { q with feedReq := level }) s)
        else updLsq l (fun q => { q with feedReq := level }) s)) := by
  have he : exec (.feedReqChange l level held) s = execFeedReqChange l level held s := rfl
  rw [he]
  unfold execFeedReqChange
  rw [event_of _ _ (by simp [hf, hh])]
  simp only [hm, and_true]

/-- R125: what the idle timer's expiry leaves. -/
theorem idled_spec (hm : laneMode l s = .running) (t : State) (ht : t = settle s (setHold l .wake true (lampTo l .dim s))) :
    (t.lsq.get l).lamp = .dim ∧ holdSet l .wake t = true ∧ laneMode l t = .running ∧ (t.lsq.get l).idle = 0 ∧
      feedPermit l t = false := by
  obtain ⟨u, hu⟩ : ∃ u, u = setHold l .wake true (lampTo l .dim s) := ⟨_, rfl⟩
  obtain ⟨hs, hset⟩ := setHold_lsq l (lampTo l .dim s) .wake true
  have hlsq : u.lsq.get l = { s.lsq.get l with lamp := .dim, rise := none, holds := hs } := by
    rw [hu, hset, lampTo_lsq]
  have hwake : holdSet l .wake (settle s u) = true := by rw [settle_holdSet, hu, setHold_same]
  rw [ht, ← hu]
  refine ⟨by rw [settle_lsq_lamp, hlsq], hwake, ?_, settle_idle s ?_, feedPermit_of_hold hwake⟩
  · rw [settle_laneMode, ← hm]
    unfold laneMode
    rw [hlsq]
  · simp [idleCounts, hlsq]

/-- R126: what an accepted rise of FEED_REQ leaves on a RUNNING lane. -/
theorem fed_spec (s : State) (l : LaneId) (t : State)
    (ht : t = settle s (beginRise l true (updLsq l (fun q => { q with feedReq := true }) s))) :
    (t.lsq.get l).feedReq = true ∧ (t.lsq.get l).lamp = (s.lsq.get l).lamp ∧
      ((s.lsq.get l).lamp = .dim → (s.lsq.get l).rise = none → (t.lsq.get l).rise = some ⟨0, true⟩) ∧
      ((s.lsq.get l).lamp = .on → (t.lsq.get l).rise = (s.lsq.get l).rise) := by
  obtain ⟨u, hu⟩ : ∃ u, u = updLsq l (fun q => { q with feedReq := true }) s := ⟨_, rfl⟩
  have hlsq : u.lsq.get l = { s.lsq.get l with feedReq := true } := hu ▸ PerLane.get_upd_self _ _ _
  obtain ⟨r, hr⟩ := beginRise_lsq l u true
  rw [ht, ← hu]
  refine ⟨by rw [settle_lsq_feedReq, hr, hlsq], by rw [settle_lsq_lamp, hr, hlsq], fun hd hn => ?_, fun hon => ?_⟩
  · rw [settle_lsq_rise]
    exact beginRise_of_dim true (by rw [hlsq]; exact hd) (by rw [hlsq]; exact hn)
  · rw [settle_lsq_rise, beginRise_of_not_dim true (by rw [hlsq]; simp [hon]), hlsq]

end

end Sys2Proof.Machine

open Sys2Proof Sys2Proof.Machine

/-- Settles O44: the end of the warm and of a rise read off `warmCalibration` and `finishRise`, the idle timer's expiry off
`idled_spec`, the feeder's request off `fed_spec`. -/
theorem lampsIdleAndFeedRequest : Obligations.LampsIdleAndFeedRequest := by
  refine ⟨fun l s => ⟨fun n hw hn => ⟨_, lampWarmComplete_of hw hn, ?_⟩, fun r hr hn => ⟨_, lampRiseComplete_of hr hn, ?_⟩⟩,
    fun l s hm => ⟨fun hon hq hf hi hn => ⟨_, idleTimerExpiry_of ?_ hq hn, idled_spec hm _ rfl⟩, fun held hf hh => ?_,
      fun held hf hh => ?_⟩⟩
  · rw [settle_lsq_lampWarm, settle_lsq_warmStep, settle_sfe, settle_laneMode]
    simp [warmCalibration, laneMode]
  · obtain ⟨w, hlsq⟩ := finishRise_lsq l r s
    obtain ⟨q, hsfe⟩ := finishRise_sfe l r s
    rw [settle_lsq_lamp, settle_lsq_rise, settle_laneMode, settle_sfe, hsfe]
    refine ⟨by rw [hlsq], by rw [hlsq], ?_, fun ho => ?_, fun ho => ?_⟩
    · unfold laneMode
      rw [hlsq]
    · simp [wakeAsked, ho]
    · simp [wakeAsked, ho]
  · have hmode : (s.lsq.get l).mode = .running := hm
    simp [idleCounts, hmode, hon, hq, hf, hi]
  · exact ⟨_, feedReqChange_of hm (by simp [hf]) hh, fed_spec s l _ rfl⟩
  · refine ⟨_, feedReqChange_of hm (by simp [hf]) hh, ?_⟩
    rw [settle_lsq_feedReq, settle_lsq_rise]
    simp
end

