-- ==== Sys2Proof/Proofs/LaneChanges.lean ====
section
/-! Changes of lane state by order (R129 to R133): what entering WARMING, RUNNING, DRAINING, STANDBY and OFF leaves of the
lane, and what the end or the TAKEN write of the order leaves after it. -/

namespace Sys2Proof.Machine

section
variable {l : LaneId} {s t u : State} {b : OrderBlock}

/-! ### The lane after the end of an order -/

section
variable (l) (old : State) (st : BlockState) (code : ResultCode) (d : Option Nat) (u : State)

theorem laneMode_finished : laneMode l (settle old (finishWith st code d [] u)) = laneMode l u := by
  obtain ⟨n, h⟩ := lsq_finished l old st code d u
  unfold laneMode
  rw [h]

theorem holdSet_finished (r : HoldReason) : holdSet l r (settle old (finishWith st code d [] u)) = holdSet l r u := by
  obtain ⟨n, h⟩ := lsq_finished l old st code d u
  exact holdSet_congr l r (by rw [h])

end

/-- An order refused at once changes nothing beside its order. -/
theorem refused_at_once (l : LaneId) (code : ResultCode) (hb : s.ocu.current = some b)
    (hw : allowed .orderStateWrite (b.addr + 12) 8 s = true) :
    Ended b .refused code none s.mem s (settle s (orderRefused code none s)) ∧
      laneMode l (settle s (orderRefused code none s)) = laneMode l s :=
  ⟨ended_of_kept .refused code (only_refl _ s) hb hw, laneMode_finished l s .refused code none s⟩

/-- R129: an order with nothing to do is DONE and changes nothing beside it. -/
theorem nothing_at_once (hb : s.ocu.current = some b) (hw : allowed .orderStateWrite (b.addr + 12) 8 s = true) :
    Ended b .done .ok (some nothingDetail) s.mem s (settle s (orderNothing s)) ∧
      changesOnly orderParts s (settle s (orderNothing s)) :=
  ⟨(nothing_settle hb hw).1, finished_only s .done .ok (some nothingDetail) s⟩

/-! ### The order that waits TAKEN -/

/-- The end of an event changes of a lane's record the idle timer at most (R125). -/
theorem lsq_settle (l : LaneId) (old s : State) : ∃ n, (settle old s).lsq.get l = { s.lsq.get l with idle := n } := by
  have h : { (settle old s).lsq.get l with idle := 0 } = { s.lsq.get l with idle := 0 } :=
    settle_only (ps := fun p => p ∈ eventEnd) old (only_refl _ s) (fun _ hp => hp) (.lane l) (by simp [eventEnd])
  refine ⟨((settle old s).lsq.get l).idle, ?_⟩
  generalize (settle old s).lsq.get l = a at *
  generalize s.lsq.get l = b at *
  cases a
  cases b
  simp_all

/-- R121, R182: an order that has become the lane's pending one: it waits TAKEN in the list of long orders, and nothing of
the lane but its record of it has changed from the state `u` in which it was taken. -/
def Pended (l : LaneId) (p : PendingLane) (b : OrderBlock) (s u t : State) : Prop :=
  (∃ n, t.lsq.get l = { u.lsq.get l with pendingOrder := some p, idle := n }) ∧ t.sfe = u.sfe ∧
  t.ocu.current = none ∧ t.ocu.phase = .link ∧ t.ocu.completed = s.ocu.completed ∧
  t.ocu.longList = s.ocu.longList ++ [⟨.laneOrder l, b.addr, b.kind, b.notify⟩] ∧
  (∃ c x n, t.mem = memWriteN s.mem (b.addr + 12) (orderStateBytes .taken c x n)) ∧
  (∀ a, raisedIn a u → reported a t)

theorem pended_settle (p : PendingLane) (hu : OrdersKept s u) (hb : s.ocu.current = some b)
    (hw : allowed .orderStateWrite (b.addr + 12) 8 s = true) : Pended l p b s u (settle s (pendOrder l p u)) := by
  have hkept : OrdersKept s (updLsq l (fun q => { q with pendingOrder := some p }) u) := by
    apply updLsq_only (h := hu) <;> simp
  obtain ⟨c, d, n, h⟩ := orderTaken_allowed (.laneOrder l) (by rw [hkept.ocu, hb]) (by rw [hkept.allowed, hw])
  obtain ⟨m, hm⟩ := lsq_settle l s (pendOrder l p u)
  refine ⟨⟨m, ?_⟩, ?_, ?_, ?_, ?_, ?_, ⟨c, d, n, ?_⟩, fun a ha => ?_⟩
  · rw [hm, pendOrder, h]
    exact congrArg (fun q : Lsq => { q with idle := m }) (PerLane.get_upd_self _ _ _)
  · rw [settle_sfe, pendOrder, h]; rfl
  · rw [settle_ocu, pendOrder, h]
  · rw [settle_ocu, pendOrder, h]
  · rw [settle_ocu, pendOrder, h, hkept.ocu]
  · rw [settle_ocu, pendOrder, h, hkept.ocu]
  · rw [settle_mem, pendOrder, h, hkept.mem]
  · rw [pendOrder, h]
    exact reported_settle a s ha

/-! ### Changes of lane state -/

theorem changeLane_laneMode (l : LaneId) (m : LaneMode) (c : LaneCause) (s : State) :
    laneMode l (changeLane l m c s) = m := by
  obtain ⟨hs, r, h⟩ := changeLane_lsq l s m c
  unfold laneMode
  rw [h]

theorem changeLane_raised (l : LaneId) (m : LaneMode) (c : LaneCause) (s : State) :
    raisedIn .laneState (changeLane l m c s) := laneEvent_kept _ _ _ _ _ _ (raisedIn_setLane l m s)

theorem changeLane_ordersKept (l : LaneId) (m : LaneMode) (c : LaneCause) (s : State) :
    OrdersKept s (changeLane l m c s) := by
  apply changeLane_only (h := only_refl _ _) <;> simp

/-- A change to a state other than WARMING changes the lane alone. -/
theorem changeLane_leaves {m : LaneMode} (hm : m ≠ .warming) (c : LaneCause) :
    Only (fun p => p ∈ [.raised, .lane l, .idle l, .journal]) s (changeLane l m c s) := by
  apply changeLane_only (h := only_refl _ _) <;> simp [hm]

theorem restartDark_lsq (l : LaneId) (s : State) : (restartDark l s).lsq.get l = s.lsq.get l :=
  lsq_of_only l (restartDark_only l (only_refl (fun p => p = .eyes l) s) rfl) (by simp) (by simp)

theorem beginRise_holds (l : LaneId) (outside : Bool) (r : HoldReason) (s : State) :
    holdSet l r (beginRise l outside s) = holdSet l r s := by
  obtain ⟨q, h⟩ := beginRise_lsq l s outside
  exact holdSet_congr l r (by rw [h])

theorem laneEvent_holds (l : LaneId) (old new : LaneMode) (c : LaneCause) (r : HoldReason) (s : State) :
    holdSet l r (laneEvent l old new c s) = holdSet l r s := holdSet_congr l r (by rw [laneEvent, emit_lsq])

/-- R122, R133: the lane's state, LANE_STATE raised, and WAKE out where the lane leaves RUNNING. -/
def modeTaken (l : LaneId) (m : LaneMode) (s : State) : State :=
  let s1 := raise .laneState (updLsq l (fun q => { q with mode := m }) s)
  if laneMode l s = .running ∧ m ≠ .running then setHold l .wake false s1 else s1

/-- R7, R123: what a state that is entered asks of the lamps and of the dark measurements. -/
def lampsAimed (l : LaneId) (m : LaneMode) (s : State) : State :=
  let s1 := if aimsOn m then beginRise l (m != .warming) s else s
  if m = .warming then restartDark l s1 else s1

theorem setLane_eq (l : LaneId) (m : LaneMode) (s : State) : setLane l m s = lampsAimed l m (modeTaken l m s) := rfl

theorem lampsAimed_holds (l : LaneId) (m : LaneMode) (r : HoldReason) (s : State) :
    holdSet l r (lampsAimed l m s) = holdSet l r s := by
  have hrise : holdSet l r (if aimsOn m then beginRise l (m != .warming) s else s) = holdSet l r s := by
    split
    · exact beginRise_holds l _ r s
    · rfl
  unfold lampsAimed
  dsimp only
  split
  · rw [holdSet_congr l r (congrArg Lsq.holds (restartDark_lsq l _)), hrise]
  · exact hrise

/-- R133: WAKE leaves the set when the lane leaves RUNNING. -/
theorem changeLane_fromRunning {m : LaneMode} (c : LaneCause) (hr : laneMode l s = .running) (hm : m ≠ .running) :
    holdSet l .wake (changeLane l m c s) = false := by
  rw [changeLane, laneEvent_holds, setLane_eq, lampsAimed_holds, modeTaken, if_pos ⟨hr, hm⟩, setHold_same]

/-- WAKE stays out of the set at a change of lane state. -/
theorem changeLane_wake_out (m : LaneMode) (c : LaneCause) (h : holdSet l .wake s = false) :
    holdSet l .wake (changeLane l m c s) = false := by
  rw [changeLane, laneEvent_holds, setLane_eq, lampsAimed_holds, modeTaken]
  split
  · exact setHold_same l _ _ _
  · rw [← h]
    exact holdSet_congr l .wake (by simp)

theorem modeTaken_lamp (l : LaneId) (m : LaneMode) (s : State) :
    ((modeTaken l m s).lsq.get l).lamp = (s.lsq.get l).lamp := by
  unfold modeTaken
  dsimp only
  split
  · rw [setHold_lamp]; simp
  · simp

/-- R123: a state that aims for lamps ON begins a rise from DIM, or leaves the one in progress. -/
theorem setLane_rises {m : LaneMode} (hm : aimsOn m = true) (hd : (s.lsq.get l).lamp = .dim) :
    ((setLane l m s).lsq.get l).rise.isSome = true := by
  obtain ⟨v, hv⟩ : ∃ v, v = modeTaken l m s := ⟨_, rfl⟩
  have hlamp : (v.lsq.get l).lamp = .dim := by rw [hv, modeTaken_lamp, hd]
  have hbegin : ((beginRise l (m != .warming) v).lsq.get l).rise.isSome = true := by
    cases hr : (v.lsq.get l).rise with
    | none => rw [beginRise_of_dim _ hlamp hr]; rfl
    | some r => simp [beginRise, hr]
  rw [setLane_eq, ← hv, lampsAimed, if_pos hm]
  split
  · rw [restartDark_lsq]; exact hbegin
  · exact hbegin

/-! ### Entering WARMING -/

/-- R127: the lane in WARMING, before what its first step asks of the lamps. -/
def warmingEntered (l : LaneId) (s : State) : State :=
  updLsq l (fun q => { q with warmStep := some .lamps }) (changeLane l .warming .order s)

theorem warmingEntered_lsq (l : LaneId) (s : State) :
    (warmingEntered l s).lsq.get l = { (changeLane l .warming .order s).lsq.get l with warmStep := some .lamps } :=
  PerLane.get_upd_self _ _ _

theorem startWarming_dark (h : (s.lsq.get l).lamp = .dark) : startWarming l s =
    updLsq l (fun q => { q with lamp := .on, lampWarm := some 0 }) (warmingEntered l s) := by
  unfold startWarming
  rw [h]
  rfl

theorem startWarming_dim (h : (s.lsq.get l).lamp = .dim) : startWarming l s = warmingEntered l s := by
  unfold startWarming
  rw [h]
  rfl

theorem startWarming_on (h : (s.lsq.get l).lamp = .on) :
    startWarming l s = warmCalibration l (warmingEntered l s) := by
  unfold startWarming
  rw [h]
  rfl

theorem startWarming_ordersKept (l : LaneId) (s : State) : OrdersKept s (startWarming l s) := by
  apply startWarming_only (h := only_refl _ _) <;> simp

theorem startWarming_laneMode (l : LaneId) (s : State) : laneMode l (startWarming l s) = .warming := by
  have hin : ((warmingEntered l s).lsq.get l).mode = .warming := by
    rw [warmingEntered_lsq]
    exact changeLane_laneMode l .warming .order s
  unfold laneMode
  cases hl : (s.lsq.get l).lamp with
  | dark => rw [startWarming_dark hl, updLsq_lsq, PerLane.get_upd_self, hin]
  | dim => rw [startWarming_dim hl, hin]
  | on => rw [startWarming_on hl, warmCalibration, updSfe_lsq, updLsq_lsq, PerLane.get_upd_self, hin]

theorem startWarming_raised (l : LaneId) (s : State) : raisedIn .laneState (startWarming l s) := by
  have hraised := changeLane_raised l .warming .order s
  cases hl : (s.lsq.get l).lamp with
  | dark => rw [startWarming_dark hl]; exact hraised
  | dim => rw [startWarming_dim hl]; exact hraised
  | on => rw [startWarming_on hl]; exact hraised

theorem startWarming_rises (h : (s.lsq.get l).lamp = .dim) : ((startWarming l s).lsq.get l).rise.isSome = true := by
  rw [startWarming_dim h, warmingEntered_lsq, changeLane, laneEvent, emit_lsq]
  exact setLane_rises rfl h

/-- R127, R130: a RUN that enters WARMING. -/
theorem runWarming_spec (hb : s.ocu.current = some b) (hw : allowed .orderStateWrite (b.addr + 12) 8 s = true) :
    WarmingBegun l b s (settle s (runWarming l s)) := by
  obtain ⟨⟨n, hlsq⟩, hsfe, h1, h2, h3, h4, h5, h6⟩ :=
    pended_settle (l := l) .run (startWarming_ordersKept l s) hb hw
  have hmode := startWarming_laneMode l s
  unfold laneMode at hmode
  unfold WarmingBegun laneMode runWarming
  rw [hlsq, hsfe]
  refine ⟨hmode, rfl, h1, h2, h3, h6 _ (startWarming_raised l s), h4, h5, fun hd => ?_, fun hd => ?_, fun hd => ?_⟩
  · rw [startWarming_dark hd, updLsq_lsq, PerLane.get_upd_self]
    exact ⟨rfl, rfl⟩
  · exact startWarming_rises hd
  · rw [startWarming_on hd, warmCalibration, updSfe_sfe, PerLane.get_upd_self]

/-! ### Entering RUNNING -/

theorem enterRunning_ordersKept (l : LaneId) (c : LaneCause) (s : State) : OrdersKept s (enterRunning l c s) := by
  apply enterRunning_only (h := only_refl _ _) <;> simp

theorem startRunning_laneMode (l : LaneId) (s : State) : laneMode l (startRunning l s) = .running := by
  obtain ⟨hs, r, h⟩ := setLane_lsq l s .running
  obtain ⟨hs', h'⟩ := setHold_lsq l (setLane l .running s) .wake true
  unfold startRunning laneMode
  dsimp only
  split
  · rw [h]
  · rw [h', h]

theorem enterRunning_laneMode (l : LaneId) (c : LaneCause) (s : State) : laneMode l (enterRunning l c s) = .running := by
  rw [← startRunning_laneMode l s]
  exact laneMode_congr l (by rw [enterRunning, laneEvent, emit_lsq])

theorem enterRunning_raised (l : LaneId) (c : LaneCause) (s : State) : raisedIn .laneState (enterRunning l c s) := by
  have hstart : RaisedKept (setLane l .running s) (startRunning l s) :=
    raisedKept_ite (RaisedKept.refl _) (setHold_kept l .wake true _)
  exact laneEvent_kept _ _ _ _ _ _ (hstart _ (raisedIn_setLane l .running s))

/-- R130: WAKE is in the set of a lane that becomes RUNNING with the lamps not yet ON. -/
theorem enterRunning_wake (c : LaneCause) (h : (s.lsq.get l).lamp ≠ .on) :
    holdSet l .wake (enterRunning l c s) = true := by
  obtain ⟨hs, r, hset⟩ := setLane_lsq l s .running
  have hlamp : ((setLane l .running s).lsq.get l).lamp ≠ .on := by rw [hset]; exact h
  rw [enterRunning, laneEvent_holds, startRunning, if_neg hlamp, setHold_same]

/-! ### Draining -/

/-- R131: a lane with no pending order whose queue is empty as it enters DRAINING goes on to READY. -/
theorem drainTest_ready (hm : laneMode l s = .draining) (hq : (s.track.get l).queue = [])
    (hp : (s.lsq.get l).pendingOrder = none) :
    drainTest l s = laneEndClose (changeLane l .ready .drainDone s) := by
  obtain ⟨hs, r, h⟩ := changeLane_lsq l s .ready .drainDone
  have hnone : ((laneEndClose (changeLane l .ready .drainDone s)).lsq.get l).pendingOrder = none := by
    rw [laneEndClose_lsq, h, ← hp]
  unfold drainTest endPending
  rw [if_pos ⟨hm, hq⟩, hnone]
  rfl

theorem laneEndClose_ordersKept (s : State) : OrdersKept s (laneEndClose s) := by
  apply laneEndClose_only (h := only_refl _ _) <;> simp

theorem laneEndClose_kept (s : State) : RaisedKept s (laneEndClose s) := by
  unfold laneEndClose
  split
  · exact raisedKept_ite (RaisedKept.refl s) (closePage_kept _ s)
  · exact RaisedKept.refl s

/-- R131: a RUNNING lane with an empty queue that drains is READY at once, WAKE out of the set. -/
theorem drained_spec (hm : laneMode l s = .running) (hq : (s.track.get l).queue = [])
    (hp : (s.lsq.get l).pendingOrder = none) (hu : u = drainTest l (changeLane l .draining .order s)) :
    OrdersKept s u ∧ laneMode l u = .ready ∧ holdSet l .wake u = false ∧ raisedIn .laneState u := by
  obtain ⟨v, hv⟩ : ∃ v, v = changeLane l .draining .order s := ⟨_, rfl⟩
  obtain ⟨hs, r, hlsq⟩ := changeLane_lsq l s .draining .order
  have htrack : v.track.get l = s.track.get l := by
    rw [hv]
    exact changeLane_leaves (by decide) .order (.track l) (by simp)
  have hready : u = laneEndClose (changeLane l .ready .drainDone v) := by
    rw [hu, ← hv]
    exact drainTest_ready (by rw [hv]; exact changeLane_laneMode l _ _ s) (by rw [htrack, hq])
      (by rw [hv, hlsq, ← hp])
  have hkept : OrdersKept s v := by rw [hv]; exact changeLane_ordersKept l _ _ s
  have hwake : holdSet l .wake v = false := by rw [hv]; exact changeLane_fromRunning .order hm (by decide)
  rw [hready]
  refine ⟨only_trans (only_trans hkept (changeLane_ordersKept l _ _ v)) (laneEndClose_ordersKept _), ?_, ?_,
    laneEndClose_kept _ _ (changeLane_raised l _ _ v)⟩
  · rw [laneMode_congr l (s := changeLane l .ready .drainDone v) (by rw [laneEndClose_lsq]), changeLane_laneMode]
  · rw [← changeLane_wake_out .ready .drainDone hwake]
    exact holdSet_congr l .wake (by rw [laneEndClose_lsq])

/-! ### STANDBY and OFF -/

/-- R132: what STANDBY and OFF change of a lane with no letter, before OFF cools the heads. -/
def rested (l : LaneId) (m : LaneMode) (level : LampPower) (s : State) : State :=
  lampTo l level (changeLane l m .order s)

theorem rested_leaves {m : LaneMode} (hm : m ≠ .warming) (level : LampPower) :
    Only (fun p => p ∈ [.raised, .sfe l, .lane l, .idle l, .journal]) s (rested l m level s) :=
  only_trans (only_mono (changeLane_leaves hm .order) (fun p hp => by
    simp only [List.mem_cons] at hp ⊢
    tauto)) (lampTo_leaves l level _)

theorem rested_lsq (l : LaneId) (m : LaneMode) (level : LampPower) (s : State) : ∃ hs,
    (rested l m level s).lsq.get l = { s.lsq.get l with mode := m, holds := hs, lamp := level, rise := none } := by
  obtain ⟨hs, r, h⟩ := changeLane_lsq l s m .order
  exact ⟨hs, by rw [rested, lampTo_lsq, h]⟩

theorem rested_raised (l : LaneId) (m : LaneMode) (level : LampPower) (s : State) :
    raisedIn .laneState (rested l m level s) := lampTo_kept l level _ _ (changeLane_raised l m .order s)

theorem rested_ordersKept {m : LaneMode} (hm : m ≠ .warming) (level : LampPower) :
    OrdersKept s (rested l m level s) :=
  only_mono (rested_leaves hm level) (fun p hp => by
    simp only [List.mem_cons, List.not_mem_nil, or_false] at hp
    rcases hp with rfl | rfl | rfl | rfl | rfl <;> simp)

theorem standbyLane_empty (hq : (s.track.get l).queue = []) : standbyLane l s = rested l .standby .dim s := by
  unfold standbyLane
  rw [loseScanning_empty hq]
  rfl

theorem offLane_empty (hq : (s.track.get l).queue = []) :
    offLane l s = coldHeads l (updLsq l (fun q => { q with warmed := false }) (rested l .off .dark s)) := by
  unfold offLane
  rw [loseScanning_empty hq]
  rfl

theorem coldHead_lsq (l : LaneId) (h : Side) (s : State) :
    ∃ hs, (coldHead l h s).lsq.get l = { s.lsq.get l with holds := hs } :=
  setHold_lsq l (updHead l h coldRec s) .gapSpit _

theorem coldHeads_lsq (l : LaneId) (s : State) :
    ∃ hs, (coldHeads l s).lsq.get l = { s.lsq.get l with holds := hs } := by
  obtain ⟨h1, e1⟩ := coldHead_lsq l .near s
  obtain ⟨h2, e2⟩ := coldHead_lsq l .far (coldHead l .near s)
  exact ⟨h2, by rw [coldHeads, e2, e1]⟩

theorem coldHeads_kept (l : LaneId) (s : State) : RaisedKept s (coldHeads l s) := by
  have hone : ∀ h u, RaisedKept u (coldHead l h u) := fun h u =>
    (raisedKept_of_eq (t := updHead l h coldRec u) rfl).trans (setHold_kept l .gapSpit _ _)
  exact (hone _ _).trans (hone _ _)

/-- R102, R132: a lane with no letter that goes OFF. -/
theorem offLane_spec (hq : (s.track.get l).queue = []) :
    OrdersKept s (offLane l s) ∧ raisedIn .laneState (offLane l s) ∧
      (∃ hs, (offLane l s).lsq.get l =
        { s.lsq.get l with mode := .off, holds := hs, lamp := .dark, rise := none, warmed := false }) ∧
      ∀ h, (head l h (offLane l s)).wet = .cold ∧ (head l h (offLane l s)).gapRequest = none := by
  obtain ⟨u, hu⟩ : ∃ u, u = updLsq l (fun q => { q with warmed := false }) (rested l .off .dark s) := ⟨_, rfl⟩
  obtain ⟨h1, e1⟩ := rested_lsq l .off .dark s
  obtain ⟨h2, e2⟩ := coldHeads_lsq l u
  have hlsq : u.lsq.get l = { (rested l .off .dark s).lsq.get l with warmed := false } :=
    hu ▸ PerLane.get_upd_self _ _ _
  have hkept : OrdersKept s u := by
    rw [hu]
    apply updLsq_only (h := rested_ordersKept (by decide) .dark) <;> simp
  have hraised : raisedIn .laneState u := hu ▸ rested_raised l .off .dark s
  rw [offLane_empty hq, ← hu]
  refine ⟨?_, coldHeads_kept l u _ hraised, ⟨h2, by rw [e2, hlsq, e1]⟩, fun h => ?_⟩
  · apply coldHeads_only (h := hkept) <;> simp
  · rw [head_coldHeads]
    exact ⟨rfl, rfl⟩

/-! ### HOLD and RELEASE -/

theorem setHold_raised {r : HoldReason} {on : Bool} (h : holdSet l r s ≠ on) :
    raisedIn .holdChange (setHold l r on s) := by
  unfold setHold
  rw [if_neg h]
  exact raisedIn_raise _ _

theorem setHold_of_same {r : HoldReason} {on : Bool} (h : holdSet l r s = on) : setHold l r on s = s := if_pos h

theorem setHold_laneMode (l : LaneId) (r : HoldReason) (on : Bool) (s : State) :
    laneMode l (setHold l r on s) = laneMode l s := by
  obtain ⟨hs, h⟩ := setHold_lsq l s r on
  unfold laneMode
  rw [h]

/-- R133: the detail of a HOLD or RELEASE that finds HOST as it asks for it is NOTHING. -/
def hostDetail (l : LaneId) (on : Bool) (s : State) : Option Nat :=
  if holdSet l .host s = on then some nothingDetail else none

/-- R133: what a HOLD or a RELEASE leaves after the end of its order. -/
theorem hostHold_settle (on : Bool) (hb : s.ocu.current = some b)
    (hw : allowed .orderStateWrite (b.addr + 12) 8 s = true)
    (ht : t = settle s (orderDone (hostDetail l on s) (setHold l .host on s))) :
    Ended b .done .ok (hostDetail l on s) s.mem s t ∧ holdSet l .host t = on ∧ laneMode l t = laneMode l s ∧
      (∀ r, r ≠ .host → holdSet l r t = holdSet l r s) ∧ (holdSet l .host s ≠ on → reported .holdChange t) := by
  have hkept : OrdersKept s (setHold l .host on s) := by
    apply setHold_only (h := only_refl _ _) <;> simp
  rw [ht]
  unfold orderDone
  refine ⟨ended_of_kept_detail _ _ _ hkept hb hw, ?_, ?_, fun r hr => ?_, fun hne => ?_⟩
  · rw [holdSet_finished, setHold_same]
  · rw [laneMode_finished, setHold_laneMode]
  · rw [holdSet_finished, setHold_other l s on hr]
  · exact reported_finished _ _ _ _ (setHold_raised hne)

end

end Sys2Proof.Machine
end

