-- ==== Sys2Proof/Proofs/LaneOrders.lean ====
section
/-! LANE_CONTROL RUN, DRAIN, STANDBY, OFF, HOLD and RELEASE (R129 to R134): what each order comes to in each lane state. -/

namespace Sys2Proof.Machine

section
variable {l : LaneId} {s : State} {b : OrderBlock}

/-! ### The rows -/

theorem run_of (h : Taken b (.laneControl (laneCode l) .run) s) :
    exec .laneControlRun s = .next (settle s (runLane l s)) := laneControl_of_taken runLane h

theorem drain_of (h : Taken b (.laneControl (laneCode l) .drain) s) :
    exec .laneControlDrain s = .next (settle s (drainLane l s)) := laneControl_of_taken drainLane h

theorem standby_of (h : Taken b (.laneControl (laneCode l) .standby) s) :
    exec .laneControlStandby s = .next (settle s (standby l s)) := laneControl_of_taken standby h

theorem off_of (h : Taken b (.laneControl (laneCode l) .off) s) :
    exec .laneControlOff s = .next (settle s (switchOff l s)) := laneControl_of_taken switchOff h

theorem hold_of (h : Taken b (.laneControl (laneCode l) .hold) s) : exec .laneControlHold s =
    .next (settle s (orderDone (hostDetail l true s) (setHold l .host true s))) := by
  have he : exec .laneControlHold s = execLaneControlHold s := rfl
  rw [he, execLaneControlHold, laneControl_of_taken _ h, hostDetail]
  split
  next hh => rw [setHold_of_same hh]; rfl
  · rfl

theorem release_of (h : Taken b (.laneControl (laneCode l) .release) s) : exec .laneControlRelease s =
    .next (settle s (orderDone (hostDetail l false s) (setHold l .host false s))) := by
  have he : exec .laneControlRelease s = execLaneControlRelease s := rfl
  rw [he, execLaneControlRelease, laneControl_of_taken _ h, hostDetail]
  split
  next hh => rw [if_neg (by simp [hh])]
  next hh =>
    have hout : holdSet l .host s = false := by simpa using hh
    rw [if_pos hout, setHold_of_same hout]
    rfl

/-! ### RUN by lane state -/

section
variable (hc : s.msc.current.isSome = true) (hr : (s.lsq.get l).retired = false)

theorem runLane_notConfigured (h : s.msc.current = none) : runLane l s = orderRefused .notConfigured none s := by
  simp [runLane, h]

include hc

theorem runLane_retired (h : (s.lsq.get l).retired = true) : runLane l s = orderRefused .retired none s := by
  have hn : s.msc.current ≠ none := Option.isSome_iff_ne_none.mp hc
  simp [runLane, hn, h]

include hr

theorem runLane_off (hm : laneMode l s = .off) : runLane l s = runWarming l s := by
  have hn : s.msc.current ≠ none := Option.isSome_iff_ne_none.mp hc
  simp [runLane, hn, hr, hm]

theorem runLane_rest (hm : laneMode l s = .ready ∨ laneMode l s = .standby) : runLane l s = runReady l s := by
  have hn : s.msc.current ≠ none := Option.isSome_iff_ne_none.mp hc
  rcases hm with hm | hm <;> simp [runLane, hn, hr, hm]

theorem runLane_running (hm : laneMode l s = .running) : runLane l s = orderNothing s := by
  have hn : s.msc.current ≠ none := Option.isSome_iff_ne_none.mp hc
  simp [runLane, hn, hr, hm]

theorem runLane_busy (hm : laneMode l s = .warming ∨ laneMode l s = .draining ∨ laneMode l s = .stopped ∨
    laneMode l s = .testing) : runLane l s = orderRefused .busy none s := by
  have hn : s.msc.current ≠ none := Option.isSome_iff_ne_none.mp hc
  rcases hm with hm | hm | hm | hm <;> simp [runLane, hn, hr, hm]

end

/-- R130: a RUN from READY or STANDBY of a lane with warmed set. -/
theorem runReady_warmed (hb : s.ocu.current = some b) (hw : allowed .orderStateWrite (b.addr + 12) 8 s = true)
    (h : (s.lsq.get l).warmed = true) : ∃ t, settle s (runReady l s) = t ∧ Ended b .done .ok none s.mem s t ∧
      laneMode l t = .running ∧ reported .laneState t ∧ ((s.lsq.get l).lamp ≠ .on → holdSet l .wake t = true) := by
  refine ⟨settle s (finishWith .done .ok none [] (enterRunning l .order s)), ?_, ?_, ?_, ?_, fun hlamp => ?_⟩
  · rw [runReady, if_pos h]
    rfl
  · exact ended_of_kept .done .ok (enterRunning_ordersKept l .order s) hb hw
  · rw [laneMode_finished, enterRunning_laneMode]
  · exact reported_finished _ _ _ _ (enterRunning_raised l .order s)
  · rw [holdSet_finished, enterRunning_wake .order hlamp]

theorem runReady_unwarmed (h : (s.lsq.get l).warmed = false) : runReady l s = runWarming l s := by
  simp [runReady, h]

/-- R130: a RUN from READY or STANDBY: RUNNING, or WARMING where warmed is clear. -/
theorem run_atRest (h : Taken b (.laneControl (laneCode l) .run) s)
    (hw : allowed .orderStateWrite (b.addr + 12) 8 s = true) (hrun : runLane l s = runReady l s) :
    ((s.lsq.get l).warmed = true → ∃ t d, exec .laneControlRun s = .next t ∧ Ended b .done .ok d s.mem s t ∧
      laneMode l t = .running ∧ reported .laneState t ∧ ((s.lsq.get l).lamp ≠ .on → holdSet l .wake t = true)) ∧
    ((s.lsq.get l).warmed = false → ∃ t, exec .laneControlRun s = .next t ∧ WarmingBegun l b s t) := by
  have hexec := run_of h
  rw [hrun] at hexec
  refine ⟨fun hwarm => ?_, fun hcold => ⟨_, hexec, ?_⟩⟩
  · obtain ⟨t, ht, hspec⟩ := runReady_warmed (l := l) h.1 hw hwarm
    exact ⟨t, none, by rw [hexec, ht], hspec⟩
  · rw [runReady_unwarmed hcold]
    exact runWarming_spec h.1 hw

/-! ### DRAIN by lane state -/

theorem drainLane_resting (hm : laneMode l s = .off ∨ laneMode l s = .ready ∨ laneMode l s = .standby) :
    drainLane l s = orderNothing s := by
  rcases hm with hm | hm | hm <;> simp [drainLane, hm]

theorem drainLane_letters (hm : laneMode l s = .running) (hq : (s.track.get l).queue ≠ []) :
    drainLane l s = pendOrder l .drain (changeLane l .draining .order s) := by
  simp [drainLane, drainRunning, hm, hq]

theorem drainLane_empty (hm : laneMode l s = .running) (hq : (s.track.get l).queue = []) :
    drainLane l s = orderDone none (drainTest l (changeLane l .draining .order s)) := by
  simp [drainLane, drainRunning, hm, hq]

theorem drainLane_draining (hm : laneMode l s = .draining) (hp : (s.lsq.get l).pendingOrder = none) :
    drainLane l s = pendOrder l .drain s := by
  simp [drainLane, hm, hp]

theorem drainLane_pending (hm : laneMode l s = .draining) (hp : (s.lsq.get l).pendingOrder.isSome = true) :
    drainLane l s = orderRefused .busy none s := by
  simp [drainLane, hm, Option.isSome_iff_ne_none.mp hp]

theorem drainLane_busy (hm : laneMode l s = .warming ∨ laneMode l s = .stopped ∨ laneMode l s = .testing) :
    drainLane l s = orderRefused .busy none s := by
  rcases hm with hm | hm | hm <;> simp [drainLane, hm]

/-! ### STANDBY and OFF by lane state -/

theorem standby_enters (hm : laneMode l s = .ready) (hq : (s.track.get l).queue = []) :
    standby l s = orderDone none (rested l .standby .dim s) := by
  simp [standby, hm, hq, standbyLane_empty hq]

theorem standby_nothing (hm : laneMode l s = .standby) : standby l s = orderNothing s := by
  simp [standby, hm]

theorem standby_busy (h : (laneMode l s = .ready ∧ (s.track.get l).queue ≠ []) ∨
    (laneMode l s ≠ .ready ∧ laneMode l s ≠ .standby)) : standby l s = orderRefused .busy none s := by
  unfold standby
  rcases h with ⟨hm, hq⟩ | ⟨hr, hs⟩
  · simp [hm, hq]
  · split
    next hm => exact absurd hm hs
    next hm => exact absurd hm hr
    all_goals rfl

theorem switchOff_enters (hm : laneMode l s = .ready ∨ laneMode l s = .standby) (hq : (s.track.get l).queue = []) :
    switchOff l s = orderDone none (offLane l s) := by
  rcases hm with hm | hm <;> simp [switchOff, hm, hq]

theorem switchOff_nothing (hm : laneMode l s = .off) : switchOff l s = orderNothing s := by
  simp [switchOff, hm]

theorem switchOff_busy (h : (laneMode l s ≠ .off ∧ laneMode l s ≠ .ready ∧ laneMode l s ≠ .standby) ∨
    (laneMode l s ≠ .off ∧ (s.track.get l).queue ≠ [])) : switchOff l s = orderRefused .busy none s := by
  have hoff : laneMode l s ≠ .off := h.elim (fun h => h.1) (fun h => h.1)
  have hletters : laneMode l s = .ready ∨ laneMode l s = .standby → (s.track.get l).queue ≠ [] := fun hm =>
    h.elim (fun h => absurd hm (by simp [h.2.1, h.2.2])) (fun h => h.2)
  unfold switchOff
  split
  next hm => exact absurd hm hoff
  next hm => simp [hletters (Or.inl hm)]
  next hm => simp [hletters (Or.inr hm)]
  all_goals rfl

/-- R132: a READY lane with no letter that a STANDBY finds. -/
theorem standby_settle (hb : s.ocu.current = some b) (hw : allowed .orderStateWrite (b.addr + 12) 8 s = true) :
    ∃ t, settle s (orderDone none (rested l .standby .dim s)) = t ∧ Ended b .done .ok none s.mem s t ∧
      laneMode l t = .standby ∧ (t.lsq.get l).lamp = .dim ∧ (t.lsq.get l).rise = none ∧
      (∀ h, head l h t = head l h s) ∧ reported .laneState t := by
  obtain ⟨hs, hrest⟩ := rested_lsq l .standby .dim s
  obtain ⟨n, hlsq⟩ := lsq_finished l s .done .ok none (rested l .standby .dim s)
  rw [hrest] at hlsq
  refine ⟨settle s (finishWith .done .ok none [] (rested l .standby .dim s)), rfl,
    ended_of_kept .done .ok (rested_ordersKept (by decide) .dim) hb hw, ?_, by rw [hlsq], by rw [hlsq], fun h => ?_,
    reported_finished _ _ _ _ (rested_raised l .standby .dim s)⟩
  · unfold laneMode
    rw [hlsq]
  · rw [head_finished]
    exact head_of_only l h (rested_leaves (by decide) .dim) (by simp)

/-- R102, R132: a lane at rest with no letter that an OFF finds. -/
theorem switchOff_settle (hb : s.ocu.current = some b) (hw : allowed .orderStateWrite (b.addr + 12) 8 s = true)
    (hq : (s.track.get l).queue = []) :
    ∃ t, settle s (orderDone none (offLane l s)) = t ∧ Ended b .done .ok none s.mem s t ∧ laneMode l t = .off ∧
      (t.lsq.get l).lamp = .dark ∧ (t.lsq.get l).rise = none ∧ (t.lsq.get l).warmed = false ∧
      (∀ h, (head l h t).wet = .cold ∧ (head l h t).gapRequest = none) ∧ reported .laneState t := by
  obtain ⟨hkept, hraised, ⟨hs, hoff⟩, hheads⟩ := offLane_spec hq
  obtain ⟨n, hlsq⟩ := lsq_finished l s .done .ok none (offLane l s)
  rw [hoff] at hlsq
  refine ⟨settle s (finishWith .done .ok none [] (offLane l s)), rfl, ended_of_kept .done .ok hkept hb hw, ?_,
    by rw [hlsq], by rw [hlsq], by rw [hlsq], fun h => ?_, reported_finished _ _ _ _ hraised⟩
  · unfold laneMode
    rw [hlsq]
  · rw [head_finished]
    exact hheads h

end

end Sys2Proof.Machine

open Sys2Proof Sys2Proof.Machine

/-- Settles O45, by the lane states: a RUN enters WARMING with `runWarming_spec`, RUNNING with `run_atRest`, and is
refused or has nothing to do in the others. -/
theorem laneControlRun : Obligations.LaneControlRun := by
  intro l b s h hw
  refine ⟨fun hn => ?_, fun hc hr => ?_, fun hc hr => ?_⟩
  · exact ⟨_, none, by rw [run_of h, runLane_notConfigured hn], refused_at_once l .notConfigured h.1 hw⟩
  · exact ⟨_, none, by rw [run_of h, runLane_retired hc hr], refused_at_once l .retired h.1 hw⟩
  · have hbusy : runLane l s = orderRefused .busy none s → ∃ t d, exec .laneControlRun s = .next t ∧
        Ended b .refused .busy d s.mem s t ∧ laneMode l t = laneMode l s := fun hrun =>
      ⟨_, none, by rw [run_of h, hrun], refused_at_once l .busy h.1 hw⟩
    split
    next hm => exact ⟨_, by rw [run_of h, runLane_off hc hr hm], runWarming_spec h.1 hw⟩
    next hm => exact run_atRest h hw (runLane_rest hc hr (Or.inl hm))
    next hm => exact run_atRest h hw (runLane_rest hc hr (Or.inr hm))
    next hm => exact ⟨_, by rw [run_of h, runLane_running hc hr hm], nothing_at_once h.1 hw⟩
    next h1 h2 h3 h4 =>
      refine hbusy (runLane_busy hc hr ?_)
      cases hm : laneMode l s <;> simp_all

/-- Settles O46, by the lane states: a DRAIN that waits is `pended_settle`, one that ends at once `drained_spec`. -/
theorem laneControlDrain : Obligations.LaneControlDrain := by
  intro l b s h hw
  have hnothing : laneMode l s = .off ∨ laneMode l s = .ready ∨ laneMode l s = .standby →
      ∃ t, exec .laneControlDrain s = .next t ∧ Ended b .done .ok (some nothingDetail) s.mem s t ∧
        laneMode l t = laneMode l s := fun hm =>
    ⟨_, by rw [drain_of h, drainLane_resting hm], (nothing_at_once h.1 hw).1, laneMode_finished l s _ _ _ s⟩
  split
  next hm =>
    refine fun hp => ⟨fun hq => ?_, fun hq => ?_⟩
    · obtain ⟨⟨n, hlsq⟩, -, h1, h2, -, h4, h5, h6⟩ :=
        pended_settle (l := l) .drain (changeLane_ordersKept l .draining .order s) h.1 hw
      refine ⟨_, by rw [drain_of h, drainLane_letters hm hq], ?_, by rw [hlsq], h1, h2, h4, h5, ?_,
        h6 _ (changeLane_raised l .draining .order s)⟩
      · unfold laneMode
        rw [hlsq]
        exact changeLane_laneMode l .draining .order s
      · refine Eq.trans ?_ (changeLane_fromRunning .order hm (by decide : LaneMode.draining ≠ .running))
        unfold holdSet
        rw [hlsq]
    · obtain ⟨hkept, hmode, hwake, hraised⟩ := drained_spec hm hq hp rfl
      refine ⟨_, none, by rw [drain_of h, drainLane_empty hm hq]; rfl, ?_, ended_of_kept .done .ok hkept h.1 hw, ?_,
        reported_finished _ _ _ _ hraised⟩
      · rw [laneMode_finished, hmode]
      · rw [holdSet_finished, hwake]
  next hm => exact hm ▸ hnothing (Or.inl hm)
  next hm => exact hm ▸ hnothing (Or.inr (Or.inl hm))
  next hm => exact hm ▸ hnothing (Or.inr (Or.inr hm))
  next hm =>
    refine ⟨fun hp => ?_, fun hp => ?_⟩
    · obtain ⟨⟨n, hlsq⟩, -, h1, -, -, h4, h5, -⟩ := pended_settle (l := l) .drain (only_refl _ s) h.1 hw
      refine ⟨_, by rw [drain_of h, drainLane_draining hm hp], by rw [hlsq], ?_, h1, h4, h5⟩
      rw [← hm]
      unfold laneMode
      rw [hlsq]
    · obtain ⟨n, hlsq⟩ := lsq_finished l s .refused .busy none s
      obtain ⟨hended, hmode⟩ := refused_at_once l .busy h.1 hw
      exact ⟨_, none, by rw [drain_of h, drainLane_pending hm hp], hended, by rw [hmode, hm],
        by rw [orderRefused, hlsq]⟩
  next h1 h2 h3 h4 h5 =>
    have hbusy : laneMode l s = .warming ∨ laneMode l s = .stopped ∨ laneMode l s = .testing := by
      cases hm : laneMode l s <;> simp_all
    exact ⟨_, none, by rw [drain_of h, drainLane_busy hbusy], refused_at_once l .busy h.1 hw⟩

/-- Settles O47: STANDBY and OFF by the lane states, HOLD and RELEASE by `hostHold_settle`. -/
theorem laneControlRestAndHolds : Obligations.LaneControlRestAndHolds := by
  refine ⟨fun l b s hw => ⟨fun h => ⟨fun hm hq => ?_, fun hm => ?_, fun hbusy => ?_⟩,
    fun h => ⟨fun hm hq => ?_, fun hm => ?_, fun hbusy => ?_⟩⟩, fun l b s hw => ⟨fun h => ?_, fun h => ?_⟩⟩
  · obtain ⟨t, ht, hspec⟩ := standby_settle (l := l) h.1 hw
    exact ⟨t, none, by rw [standby_of h, standby_enters hm hq, ht], hspec⟩
  · exact ⟨_, by rw [standby_of h, standby_nothing hm], nothing_at_once h.1 hw⟩
  · exact ⟨_, none, by rw [standby_of h, standby_busy hbusy], refused_at_once l .busy h.1 hw⟩
  · obtain ⟨t, ht, hspec⟩ := switchOff_settle (l := l) h.1 hw hq
    exact ⟨t, none, by rw [off_of h, switchOff_enters hm hq, ht], hspec⟩
  · exact ⟨_, by rw [off_of h, switchOff_nothing hm], (nothing_at_once h.1 hw).1,
      (laneMode_finished l s _ _ _ s).trans hm⟩
  · exact ⟨_, none, by rw [off_of h, switchOff_busy hbusy], refused_at_once l .busy h.1 hw⟩
  · obtain ⟨hended, hhost, hmode, hother, hchange⟩ := hostHold_settle (l := l) true h.1 hw rfl
    exact ⟨_, _, hold_of h, hended, hhost, hmode, feedPermit_of_hold hhost, hother, fun hs => if_pos hs,
      fun hs => hchange (by simp [hs])⟩
  · obtain ⟨hended, hhost, hmode, hother, hchange⟩ := hostHold_settle (l := l) false h.1 hw rfl
    refine ⟨_, _, release_of h, hended, hhost, hmode, ?_, hother, fun hs => if_pos hs, fun hs => hchange (by simp [hs])⟩
    rw [feedPermit_iff, hmode]
    refine and_congr_right (fun _ => ⟨fun hall r hr => ?_, fun hall r => ?_⟩)
    · rw [← hother r hr, hall r]
    · by_cases hr : r = .host
      · rw [hr, hhost]
      · rw [hother r hr, hall r hr]
end

