-- ==== Sys2Proof/Proofs/JournalPages.lean ====
section
/-! The journal's pages and records (R147, R148, R156): when the next page is taken, what closing a page leaves, and where
a record goes that fits the current page, that does not, or that finds none. -/

namespace Sys2Proof.Machine

section
variable {s : State} {p : Page} {a : Nat} {rest : List Nat}

/-! ### Taking a page -/

/-- R147, R156: the journal with the page at the head of the free page FIFO current and the held events in it. -/
def pageTaken (a : Nat) (rest : List Nat) (j : Journal) : Journal :=
  { j with
    fifo := rest, nextSeq := nextSequence j.nextSeq, holding := [],
    page := some { addr := a, seq := j.nextSeq, recs := j.holding.map Rec.event, room := 4064 - 24 * j.holding.length } }

/-- Everything that the taking of a page can do. -/
theorem takePage_cases (s : State) : takePage s = s ∨ ∃ a rest, s.jrn.page = none ∧ s.jrn.fifo = a :: rest ∧
    (takePage s).jrn = pageTaken a rest s.jrn := by
  unfold takePage
  split
  next a rest hp hf =>
    split
    · refine Or.inr ⟨a, rest, hp, hf, ?_⟩
      dsimp only
      split <;> rfl
    · exact Or.inl rfl
  · exact Or.inl rfl

/-- A page is taken only where there is none. -/
theorem takePage_of_page (h : s.jrn.page = some p) : takePage s = s := by
  rcases takePage_cases s with hs | ⟨a, rest, hp, -⟩
  · exact hs
  · rw [h] at hp
    cases hp

theorem takePage_of_empty (h : s.jrn.fifo = []) : takePage s = s := by
  rcases takePage_cases s with hs | ⟨a, rest, -, hf, -⟩
  · exact hs
  · rw [h] at hf
    cases hf

/-- R147: with a closed page waiting, none is taken from a FIFO of 64 or more. -/
theorem takePage_of_full (hc : s.jrn.closing ≠ []) (hf : 64 ≤ s.jrn.fifo.length) : takePage s = s := by
  unfold takePage
  split
  next a rest _ hfifo =>
    rw [hfifo] at hf
    rw [if_neg (by simpa [hc] using hf)]
  · rfl

theorem takePage_takes (hp : s.jrn.page = none) (hf : s.jrn.fifo = a :: rest)
    (hc : s.jrn.closing = [] ∨ rest.length < 63) : (takePage s).jrn = pageTaken a rest s.jrn := by
  have hcond : (s.jrn.closing.isEmpty || decide ((a :: rest).length < 64)) = true := by
    rcases hc with hc | hc
    · simp [hc]
    · simpa using Or.inr (by omega)
  unfold takePage
  rw [hp, hf]
  dsimp only
  rw [if_pos hcond]
  split <;> rfl

theorem takePage_closing (s : State) : (takePage s).jrn.closing = s.jrn.closing := by
  rcases takePage_cases s with h | ⟨a, rest, -, -, h⟩
  · rw [h]
  · rw [h]
    rfl

/-! ### Closing a page -/

/-- R149: the journal with its current page closed and none taken yet. -/
def pageClosed (p : Page) (why : FillReason) (j : Journal) : Journal :=
  { j with page := none, closing := j.closing ++ [⟨p, why⟩] }

/-- A closed page makes place for the next one. -/
theorem closePage_of_page (why : FillReason) (h : s.jrn.page = some p) :
    (closePage why s).jrn = (takePage (updJrn (pageClosed p why) s)).jrn := by
  unfold closePage
  rw [h]
  dsimp only
  split <;> rfl

theorem closePage_takes (why : FillReason) (hp : s.jrn.page = some p) (hf : s.jrn.fifo = a :: rest)
    (hr : rest.length < 63) : (closePage why s).jrn = pageTaken a rest (pageClosed p why s.jrn) := by
  rw [closePage_of_page why hp]
  exact takePage_takes (s := updJrn (pageClosed p why) s) rfl hf (Or.inr hr)

theorem closePage_leavesNone (why : FillReason) (hp : s.jrn.page = some p)
    (hf : s.jrn.fifo = [] ∨ 64 ≤ s.jrn.fifo.length) : (closePage why s).jrn = pageClosed p why s.jrn := by
  rw [closePage_of_page why hp]
  rcases hf with hf | hf
  · rw [takePage_of_empty (s := updJrn (pageClosed p why) s) hf]
    rfl
  · rw [takePage_of_full (s := updJrn (pageClosed p why) s) (by simp [pageClosed]) hf]
    rfl

theorem closePage_closing (why : FillReason) (hp : s.jrn.page = some p) :
    (closePage why s).jrn.closing = s.jrn.closing ++ [⟨p, why⟩] := by
  rw [closePage_of_page why hp]
  exact takePage_closing _

/-! ### A record with no page -/

/-- R156: the holding list takes up to 16 events. -/
theorem recordWithoutPage_held (e : EventRec) (h : s.jrn.holding.length < 16) :
    (recordWithoutPage (.event e) s).jrn = { s.jrn with holding := s.jrn.holding ++ [e] } := if_pos h

/-- R156: a seventeenth event pushes out the oldest. -/
theorem recordWithoutPage_pushesOut (e : EventRec) (h : 16 ≤ s.jrn.holding.length) :
    (recordWithoutPage (.event e) s).jrn =
      { s.jrn with holding := s.jrn.holding.drop 1 ++ [e], dropped := satAdd32 s.jrn.dropped 1 } :=
  if_neg (Nat.not_lt.mpr h)

/-- R156: an item record with no page is counted, for the device and for its lane. -/
theorem recordWithoutPage_item (l : LaneId) (m : Ms) (e : Entry) :
    (recordWithoutPage (.item l m e) s).jrn = { s.jrn with unjournalled := satAdd32 s.jrn.unjournalled 1 } ∧
      (recordWithoutPage (.item l m e) s).tally.get l =
        (s.tally.get l).set 105 (satAdd32 ((s.tally.get l).getD 105 0) 1) :=
  ⟨rfl, countUp_tally l (c := .unjournalled) _ rfl⟩

/-! ### The placing of a record -/

variable {r : Rec}

theorem placeRecord_noPage (h : s.jrn.page = none) : placeRecord r s = recordWithoutPage r s := by
  unfold placeRecord
  rw [h]

/-- R148: a record that fits joins the current page. -/
theorem placeRecord_fits (hp : s.jrn.page = some p) (hr : recLength r ≤ p.room) : (placeRecord r s).jrn =
    { s.jrn with page := some { p with recs := p.recs ++ [r], room := p.room - recLength r } } := by
  unfold placeRecord
  rw [hp]
  dsimp only
  rw [if_pos hr, appendRecord, updJrn_jrn, hp]
  rfl

/-- R148: a record that does not fit closes the page and goes on to the page taken next. -/
theorem placeRecord_nextPage (hp : s.jrn.page = some p) (hr : p.room < recLength r) (hf : s.jrn.fifo = a :: rest)
    (hlen : rest.length < 63) : (placeRecord r s).jrn = { s.jrn with
      closing := s.jrn.closing ++ [⟨p, .full⟩], fifo := rest, holding := [], nextSeq := nextSequence s.jrn.nextSeq,
      page := some { addr := a, seq := s.jrn.nextSeq, recs := s.jrn.holding.map Rec.event ++ [r],
                     room := 4064 - 24 * s.jrn.holding.length - recLength r } } := by
  have hclose := closePage_takes .full hp hf hlen
  unfold placeRecord
  rw [hp]
  dsimp only
  rw [if_neg (Nat.not_le.mpr hr), hclose]
  dsimp only [pageTaken]
  rw [appendRecord, updJrn_jrn, hclose]
  rfl

/-- R148, R156: with no page to take it is handled as a record with no page. -/
theorem placeRecord_noNextPage (hp : s.jrn.page = some p) (hr : p.room < recLength r)
    (hf : s.jrn.fifo = [] ∨ 64 ≤ s.jrn.fifo.length) :
    (placeRecord r s).jrn = (recordWithoutPage r (updJrn (pageClosed p .full) s)).jrn := by
  have hclose := closePage_leavesNone .full hp hf
  unfold placeRecord
  rw [hp]
  dsimp only
  rw [if_neg (Nat.not_le.mpr hr), hclose]
  exact recordWithoutPage_jrn r hclose

end

/-! ### What the placing of an event leaves of the counts -/

/-- The counts of the journal that the status block shows, but for the dropped events: pages given, filled and held, and
items unjournalled (R186). -/
def pageCounts (j : Journal) : Nat × Nat × Nat × Nat := (j.given, j.filled, j.held, j.unjournalled)

section
variable {s : State}

theorem takePage_pageCounts (s : State) : pageCounts (takePage s).jrn = pageCounts s.jrn := by
  rcases takePage_cases s with h | ⟨a, rest, -, -, h⟩
  · rw [h]
  · rw [h]
    rfl

theorem takePage_dropped (s : State) : (takePage s).jrn.dropped = s.jrn.dropped := by
  rcases takePage_cases s with h | ⟨a, rest, -, -, h⟩
  · rw [h]
  · rw [h]
    rfl

theorem closePage_pageCounts (why : FillReason) (s : State) : pageCounts (closePage why s).jrn = pageCounts s.jrn := by
  cases hp : s.jrn.page with
  | none =>
    unfold closePage
    rw [hp]
  | some p =>
    rw [closePage_of_page why hp, takePage_pageCounts]
    rfl

/-- No event record is counted as an item, and none moves a page between the counts. -/
theorem placeRecord_event_pageCounts (e : EventRec) (s : State) :
    pageCounts (placeRecord (.event e) s).jrn = pageCounts s.jrn := by
  have hheld : ∀ u : State, pageCounts (recordWithoutPage (.event e) u).jrn = pageCounts u.jrn := by
    intro u
    rcases Nat.lt_or_ge u.jrn.holding.length 16 with h | h
    · rw [recordWithoutPage_held e h]
      rfl
    · rw [recordWithoutPage_pushesOut e h]
      rfl
  unfold placeRecord
  dsimp only
  split
  · exact hheld s
  · split
    · rfl
    · split
      · rw [hheld, closePage_pageCounts]
      · exact closePage_pageCounts .full s

theorem windowFault_pageCounts (lane : Option LaneId) (k : Access) (a : Nat) (s : State) :
    pageCounts (windowFault lane k a s).jrn = pageCounts s.jrn := placeRecord_event_pageCounts _ s

/-- R156: an event that the current page or the holding list has room for pushes out none. -/
theorem placeRecord_event_dropped (e : EventRec)
    (h : (∃ p, s.jrn.page = some p ∧ 24 ≤ p.room) ∨ (s.jrn.page = none ∧ s.jrn.holding.length < 16)) :
    (placeRecord (.event e) s).jrn.dropped = s.jrn.dropped := by
  rcases h with ⟨p, hp, hroom⟩ | ⟨hp, hheld⟩
  · rw [placeRecord_fits hp (r := .event e) hroom]
  · rw [placeRecord_noPage hp, recordWithoutPage_held e hheld]

end

end Sys2Proof.Machine
end

