-- ==== Sys2Proof/Proofs/PagesWrittenOut.lean ====
section
/-! PAGE_WRITE_OUT (R149, R150): the page as it goes out, and the count of a faulted page's records. -/

namespace Sys2Proof.Machine

/-! ### The records of a faulted page -/

/-- R150: a record that is lost with its page is counted. -/
def loseRecord (s : State) : Rec → State
  | .item l _ _ => countUp l .unjournalled (updJrn (fun j => { j with unjournalled := satAdd32 j.unjournalled 1 }) s)
  | .event _ => updJrn (fun j => { j with dropped := satAdd32 j.dropped 1 }) s

theorem countLost_eq (p : Page) (s : State) : countLost p s = p.recs.foldl loseRecord s := rfl

/-- A saturating count that each record of a kind raises by one counts the records of that kind; `I` is what the step
needs of the state, and keeps. -/
theorem foldl_loseRecord_count {I : State → Prop} {count : State → Nat} {kind : Rec → Bool}
    (keeps : ∀ u r, I u → I (loseRecord u r))
    (step : ∀ u r, I u → count (loseRecord u r) = if kind r then satAdd32 (count u) 1 else count u) (rs : List Rec)
    {s : State} (hI : I s) (hle : count s ≤ 4294967295) :
    count (rs.foldl loseRecord s) = min (count s + rs.countP kind) 4294967295 := by
  induction rs generalizing s with
  | nil => simpa using hle
  | cons r rs ih =>
    have hstep := step s r hI
    have hle' : count (loseRecord s r) ≤ 4294967295 := by
      rw [hstep]
      split
      · exact Nat.min_le_right _ _
      · exact hle
    rw [List.foldl_cons, ih (keeps s r hI) hle', hstep, List.countP_cons]
    unfold satAdd32
    split <;> omega

section
variable {s : State} (p : Page)

/-- The count of lost records changes nothing else of the journal. -/
theorem countLost_jrn (s : State) :
    ∃ u d, (countLost p s).jrn = { s.jrn with unjournalled := u, dropped := d } := by
  rw [countLost_eq]
  induction p.recs generalizing s with
  | nil => exact ⟨_, _, rfl⟩
  | cons r rs ih =>
    obtain ⟨u, d, h⟩ := ih (loseRecord s r)
    exact ⟨u, d, by rw [List.foldl_cons, h]; cases r <;> rfl⟩

theorem countLost_unjournalled (h : s.jrn.unjournalled ≤ 4294967295) : (countLost p s).jrn.unjournalled =
    min (s.jrn.unjournalled + p.recs.countP (fun r => (itemOf r).isSome)) 4294967295 := by
  rw [countLost_eq]
  exact foldl_loseRecord_count (I := fun _ => True) (count := fun u => u.jrn.unjournalled) (fun _ _ _ => trivial)
    (fun _ r _ => by cases r <;> rfl) p.recs trivial h

theorem countLost_dropped (h : s.jrn.dropped ≤ 4294967295) : (countLost p s).jrn.dropped =
    min (s.jrn.dropped + p.recs.countP (fun r => (itemOf r).isNone)) 4294967295 := by
  rw [countLost_eq]
  exact foldl_loseRecord_count (I := fun _ => True) (count := fun u => u.jrn.dropped) (fun _ _ _ => trivial)
    (fun _ r _ => by cases r <;> rfl) p.recs trivial h

theorem loseRecord_length (l : LaneId) (s : State) (r : Rec) :
    ((loseRecord s r).tally.get l).length = (s.tally.get l).length := by
  cases r with
  | item => exact countUp_length _ l .unjournalled _
  | event => rfl

/-- A lost item is counted unjournalled for its own lane. -/
theorem loseRecord_tally (l : LaneId) {s : State} (h : (s.tally.get l).length = 106) (r : Rec) :
    ((loseRecord s r).tally.get l).getD 105 0 =
      if (itemOf r).map (fun q => q.1) == some l then satAdd32 ((s.tally.get l).getD 105 0) 1
      else (s.tally.get l).getD 105 0 := by
  cases r with
  | item k m e =>
    by_cases hk : k = l
    · subst hk
      have hself := countUp_getD_self k (c := .unjournalled) (i := 105)
        (updJrn (fun j => { j with unjournalled := satAdd32 j.unjournalled 1 }) s) rfl (by simp [h])
      simpa [loseRecord, itemOf] using hself
    · have hother := countUp_tally_other (l := k) (k := l) .unjournalled
        (updJrn (fun j => { j with unjournalled := satAdd32 j.unjournalled 1 }) s) (Ne.symm hk)
      simp [loseRecord, itemOf, hk, hother]
  | event => rfl

theorem countLost_tally (l : LaneId) (hlen : (s.tally.get l).length = 106)
    (h : (s.tally.get l).getD 105 0 ≤ 4294967295) : ((countLost p s).tally.get l).getD 105 0 =
      min ((s.tally.get l).getD 105 0 + p.recs.countP (fun r => (itemOf r).map (fun q => q.1) == some l))
        4294967295 := by
  rw [countLost_eq]
  exact foldl_loseRecord_count (I := fun u => (u.tally.get l).length = 106)
    (count := fun u => (u.tally.get l).getD 105 0) (fun u r hu => (loseRecord_length l u r).trans hu)
    (fun u r hu => loseRecord_tally l hu r) p.recs hlen h

end

/-! ### The page as it goes out -/

/-- R149: the oldest closed page is in host memory and counted filled. -/
def pageWritten (c : ClosedPage) (s : State) : State :=
  raise .pageFilled (countFilled (writeBytes c.page.addr (pageHeader c) (writeBytes (c.page.addr + 32) (pageBody c.page) s)))

/-- R150: the oldest closed page is lost with its records, and a page may have been taken for the event to come. -/
def pageLost (c : ClosedPage) (s : State) : State := takePage (countFilled (countLost c.page s))

/-- R150, R185: the fault of a page whose write the windows refused. -/
def pageFaulted (c : ClosedPage) (s : State) : State := windowFault none .journalWrite c.page.addr (pageLost c s)

section
variable {c : ClosedPage} {rest : List ClosedPage} {s : State}

theorem pageWriteOut_of (h : s.jrn.closing = c :: rest) : exec .pageWriteOut s = .next (settle s (writeOutPage c s)) := by
  have he : exec .pageWriteOut s = execPageWriteOut s := rfl
  rw [he]
  unfold execPageWriteOut
  rw [h]
  rfl

theorem writeOutPage_written (h : allowed .journalWrite c.page.addr 4096 s = true) :
    writeOutPage c s = finishFlush c.page.seq (takePage (pageWritten c s)) := by
  unfold writeOutPage
  dsimp only
  rw [if_pos h]
  rfl

theorem writeOutPage_faulted (h : allowed .journalWrite c.page.addr 4096 s = false) :
    writeOutPage c s = finishFlush c.page.seq (takePage (pageFaulted c s)) := by
  unfold writeOutPage
  dsimp only
  rw [if_neg (by simp [h])]
  rfl

theorem finishFlush_other {n : Nat} (h : s.ocu.flushing ≠ some n) : finishFlush n s = s := if_neg h

theorem finishFlush_same {n : Nat} (h : s.ocu.flushing = some n) : finishFlush n s = orderDone none s := if_pos h

/-! ### What has gone out -/

theorem takePage_leaves (s : State) : Only (fun p => p = .raised ∨ p = .journal) s (takePage s) := by
  apply takePage_only (h := only_refl _ _) <;> simp

theorem pageWritten_leaves (c : ClosedPage) (s : State) :
    Only (fun p => p = .raised ∨ p = .journal ∨ p = .mem) s (takePage (pageWritten c s)) := by
  have hbody := writeBytes_only (c.page.addr + 32) (pageBody c.page)
    (only_refl (fun p => p = .raised ∨ p = .journal ∨ p = .mem) s) (by simp)
  have hfilled := countFilled_only (writeBytes_only c.page.addr (pageHeader c) hbody (by simp)) (by simp)
  exact takePage_only (raise_only .pageFilled hfilled (by simp)) (by simp) (by simp)

theorem pageFaulted_leaves (c : ClosedPage) (s : State) :
    Only (fun p => p = .raised ∨ p = .journal ∨ ∃ k, p = .tally k) s (takePage (pageFaulted c s)) := by
  have hlost := countLost_only c.page
    (only_refl (fun p => p = .raised ∨ p = .journal ∨ ∃ k, p = .tally k) s) (by simp) (by simp)
  have htaken := takePage_only (countFilled_only hlost (by simp)) (by simp) (by simp)
  exact takePage_only (windowFault_only none .journalWrite c.page.addr htaken (by simp) (by simp)) (by simp) (by simp)

theorem pageWritten_mem (c : ClosedPage) (s : State) : (takePage (pageWritten c s)).mem =
    memWriteN (memWriteN s.mem (c.page.addr + 32) (pageBody c.page)) c.page.addr (pageHeader c) := by
  have htake : (takePage (pageWritten c s)).mem = (pageWritten c s).mem := takePage_leaves _ .mem (by simp)
  rw [htake, pageWritten, raise_mem, countFilled, updJrn_mem, writeBytes_mem, writeBytes_mem]

theorem pageWritten_counts (c : ClosedPage) (s : State) :
    (takePage (pageWritten c s)).jrn.closing = s.jrn.closing.drop 1 ∧
      (takePage (pageWritten c s)).jrn.filled = satAdd32 s.jrn.filled 1 ∧
      (takePage (pageWritten c s)).jrn.held = s.jrn.held - 1 := by
  have hcounts := takePage_pageCounts (pageWritten c s)
  simp only [pageCounts, Prod.mk.injEq] at hcounts
  obtain ⟨-, hfilled, hheld, -⟩ := hcounts
  exact ⟨takePage_closing _, hfilled, hheld⟩

theorem pageWritten_raised (c : ClosedPage) (s : State) : raisedIn .pageFilled (takePage (pageWritten c s)) :=
  takePage_kept _ _ (raisedIn_raise _ _)

theorem pageFaulted_raised (c : ClosedPage) (s : State) : raisedIn .fault (takePage (pageFaulted c s)) :=
  takePage_kept _ _ (raisedIn_raise _ _)

theorem pageFaulted_pageCounts (c : ClosedPage) (s : State) : pageCounts (takePage (pageFaulted c s)).jrn =
    pageCounts (countFilled (countLost c.page s)).jrn := by
  rw [takePage_pageCounts, pageFaulted, windowFault_pageCounts, pageLost, takePage_pageCounts]

/-- A faulted page leaves the held count as it is counted filled, and its items are counted (R150). -/
theorem pageFaulted_counts (c : ClosedPage) (s : State) :
    (takePage (pageFaulted c s)).jrn.filled = satAdd32 s.jrn.filled 1 ∧
      (takePage (pageFaulted c s)).jrn.held = s.jrn.held - 1 ∧
      (takePage (pageFaulted c s)).jrn.unjournalled = (countLost c.page s).jrn.unjournalled := by
  have hcounts := pageFaulted_pageCounts c s
  obtain ⟨u, d, hlost⟩ := countLost_jrn c.page s
  simp only [pageCounts, countFilled, updJrn_jrn, Prod.mk.injEq] at hcounts
  obtain ⟨-, hfilled, hheld, hitems⟩ := hcounts
  rw [hfilled, hheld, hitems, hlost]
  exact ⟨rfl, rfl, rfl⟩

/-- R156: where the fault's own event finds room in the current page, or in the holding list with no page to take, the
faulted page's events are all that is dropped. -/
theorem pageFaulted_dropped (h : (∃ p, s.jrn.page = some p ∧ 24 ≤ p.room) ∨
    (s.jrn.page = none ∧ s.jrn.fifo = [] ∧ s.jrn.holding.length < 16)) :
    (takePage (pageFaulted c s)).jrn.dropped = (countLost c.page s).jrn.dropped := by
  obtain ⟨v, hv⟩ : ∃ v, v = countFilled (countLost c.page s) := ⟨_, rfl⟩
  obtain ⟨u, d, hlost⟩ := countLost_jrn c.page s
  have hjrn : v.jrn = { s.jrn with
      unjournalled := u, dropped := d, closing := s.jrn.closing.drop 1, filled := satAdd32 s.jrn.filled 1,
      held := s.jrn.held - 1 } := by
    rw [hv, countFilled, updJrn_jrn, hlost]
  have htake : takePage v = v := by
    rcases h with ⟨p, hp, -⟩ | ⟨-, hf, -⟩
    · exact takePage_of_page (p := p) (by rw [hjrn, hp])
    · exact takePage_of_empty (by rw [hjrn, hf])
  have hroom : (∃ p, v.jrn.page = some p ∧ 24 ≤ p.room) ∨ (v.jrn.page = none ∧ v.jrn.holding.length < 16) := by
    rw [hjrn]
    exact h.imp id (fun ⟨hp, _, hheld⟩ => ⟨hp, hheld⟩)
  rw [takePage_dropped, pageFaulted, pageLost, ← hv, htake]
  calc (windowFault none .journalWrite c.page.addr v).jrn.dropped
      = v.jrn.dropped := placeRecord_event_dropped _ hroom
    _ = (countLost c.page s).jrn.dropped := by rw [hv]; rfl

theorem pageFaulted_tally (c : ClosedPage) (s : State) :
    (takePage (pageFaulted c s)).tally = (countLost c.page s).tally := by
  have htake : ∀ u, (takePage u).tally = u.tally := fun u =>
    perLane_ext (fun k => takePage_leaves u (.tally k) (by simp))
  rw [htake, pageFaulted, windowFault, raise_tally, emit_tally, pageLost, htake]
  rfl

end

end Sys2Proof.Machine

open Sys2Proof Sys2Proof.Machine

/-- Settles O51: the placing of a record by the journal's own rules, the page that goes out by `pageWritten` and
`pageFaulted`. -/
theorem recordsAndPages : Obligations.RecordsAndPages := by
  refine ⟨fun r s => ⟨fun p => placeRecord_fits, fun p hp hr => ⟨fun a rest => placeRecord_nextPage hp hr, fun hf => ?_⟩,
    fun hp e he => ?_, fun hp l m e he => ?_⟩, fun s c rest hc hflush => ?_⟩
  · have hplace := placeRecord_noNextPage hp hr hf
    refine ⟨fun e he hheld => ?_, fun l m e he => ?_⟩
    · subst he
      rw [hplace]
      exact recordWithoutPage_held (s := updJrn (pageClosed p .full) s) e hheld
    · subst he
      rw [hplace]
      exact (recordWithoutPage_item l m e).1
  · subst he
    rw [placeRecord_noPage hp]
    exact ⟨recordWithoutPage_held e, recordWithoutPage_pushesOut e⟩
  · subst he
    rw [placeRecord_noPage hp]
    exact recordWithoutPage_item l m e
  · have hnoFlush : ∀ u : State, u.ocu = s.ocu → finishFlush c.page.seq u = u := fun u hu =>
      finishFlush_other (by rw [hu, hflush]; simp)
    refine ⟨fun hw => ?_, fun hw => ?_⟩
    · obtain ⟨hclosing, hfilled, hheld⟩ := pageWritten_counts c s
      refine ⟨_, by rw [pageWriteOut_of hc, writeOutPage_written hw,
          hnoFlush _ (pageWritten_leaves c s .orders (by simp))], ?_, ?_, ?_, ?_,
        reported_settle _ _ (pageWritten_raised c s)⟩
      · rw [settle_mem, pageWritten_mem]
      · rw [settle_jrn, hclosing, hc]
        rfl
      · rw [settle_jrn, hfilled]
      · rw [settle_jrn, hheld]
    · obtain ⟨hfilled, hheld, hitems⟩ := pageFaulted_counts c s
      have hmem : (takePage (pageFaulted c s)).mem = s.mem := pageFaulted_leaves c s .mem (by simp)
      refine ⟨_, by rw [pageWriteOut_of hc, writeOutPage_faulted hw,
          hnoFlush _ (pageFaulted_leaves c s .orders (by simp))], by rw [settle_mem, hmem], by rw [settle_jrn, hfilled],
        by rw [settle_jrn, hheld], reported_settle _ _ (pageFaulted_raised c s), fun hle => ?_, fun hle hroom => ?_,
        fun l hlen hle => ?_⟩
      · rw [settle_jrn, hitems, countLost_unjournalled c.page hle]
      · rw [settle_jrn, pageFaulted_dropped hroom, countLost_dropped c.page hle]
      · rw [settle_tally, pageFaulted_tally, countLost_tally c.page l hlen hle]
end

