-- ==== Sys2Proof/Proofs/PageOrders.lean ====
section
/-! GIVE_PAGES and FLUSH_JOURNAL (R146, R151), and the end of a flush in the event that writes its page out or faults it. -/

namespace Sys2Proof.Machine

/-! ### Orders that write host memory -/

/-- From one state to another nothing of the order unit, the clock and the windows has changed. -/
def OrderUnitKept (s t : State) : Prop := Only (fun p => p ≠ .orders ∧ p ≠ .clock ∧ p ≠ .windows) s t

section
variable {b : OrderBlock} {s u : State}

theorem OrdersKept.orderUnit (h : OrdersKept s u) : OrderUnitKept s u := only_mono h (fun _ ⟨_, hp⟩ => hp)

theorem OrderUnitKept.ocu (h : OrderUnitKept s u) : u.ocu = s.ocu := h .orders (by simp)

theorem OrderUnitKept.allowed (h : OrderUnitKept s u) (k : Access) (a n : Nat) : allowed k a n u = allowed k a n s := by
  have hw : u.mwu = s.mwu := h .windows (by simp)
  unfold Machine.allowed
  rw [hw]

/-- An order whose work left the order unit alone has ended, in host memory as that work left it. -/
theorem ended_of_orderUnitKept (st : BlockState) (code : ResultCode) (d : Option Nat) (h : OrderUnitKept s u)
    (hb : s.ocu.current = some b) (hw : allowed .orderStateWrite (b.addr + 12) 8 s = true) :
    Ended b st code d u.mem s (settle s (finishWith st code d [] u)) :=
  ended_settle st code d (by rw [h.ocu, hb]) (by rw [h.allowed, hw]) (h .clock (by simp)) (by rw [h.ocu])
    (by rw [h.ocu]) (by rw [h.ocu])

/-- An allowed end of an order leaves the journal alone. -/
theorem jrn_finished (old : State) (st : BlockState) (code : ResultCode) (d : Option Nat) (h : OrderUnitKept s u)
    (hb : s.ocu.current = some b) (hw : allowed .orderStateWrite (b.addr + 12) 8 s = true) :
    (settle old (finishWith st code d [] u)).jrn = u.jrn := by
  obtain ⟨x, n, -, hend⟩ := finishWith_allowed st code d (s := u) (by rw [h.ocu, hb]) (by rw [h.allowed, hw])
  rw [settle_jrn, hend]

/-- No flush waits once the order in progress has ended. -/
theorem finished_flushing (old : State) (st : BlockState) (code : ResultCode) (d : Option Nat) (h : OrderUnitKept s u)
    (hb : s.ocu.current = some b) (hw : allowed .orderStateWrite (b.addr + 12) 8 s = true) :
    (settle old (finishWith st code d [] u)).ocu.flushing = none := by
  obtain ⟨x, n, -, hend⟩ := finishWith_allowed st code d (s := u) (by rw [h.ocu, hb]) (by rw [h.allowed, hw])
  rw [settle_ocu, hend]

end

/-! ### GIVE_PAGES -/

/-- Fields that are all good have no first bad one. -/
theorem firstBad_zipIdx_none {α : Type} {xs : List α} {good : α → Bool} (h : ∀ x ∈ xs, good x = true) :
    firstBad ((xs.zipIdx).map (fun q => (q.2, good q.1))) = none := by
  simp only [firstBad, Option.map_eq_none_iff, List.find?_eq_none, List.mem_map]
  rintro _ ⟨q, hq, rfl⟩
  simp [h q.1 (List.fst_mem_of_mem_zipIdx hq)]

/-- R146: the journal with pages given. -/
def pagesGiven (pages : List Nat) (j : Journal) : Journal :=
  { j with fifo := j.fifo ++ pages, given := satAdd32 j.given pages.length, held := satAdd32 j.held pages.length }

/-- R146, R147: the pages have joined the FIFO, and one of them is current where there was none. -/
def pagesJoined (pages : List Nat) (s : State) : State := takePage (updJrn (pagesGiven pages) s)

section
variable {b : OrderBlock} {s : State} {a n : Nat} {pages : List Nat}

theorem acceptPages_eq (pages : List Nat) (s : State) :
    acceptPages pages s = finishWith .done .ok none [] (pagesJoined pages s) := rfl

theorem givePages_of (h : Taken b (.givePages a n) s) : exec .givePages s = .next (settle s (givePages a n s)) := by
  have he : exec .givePages s = execGivePages s := rfl
  rw [he]
  unfold execGivePages
  rw [currentBody_of_taken h]
  rfl

/-- A list of good pages is taken or refused by the room left for it (R146). -/
theorem givePages_checked (h1 : 1 ≤ n) (h64 : n ≤ 64) (hr : allowed .tableRead a (8 * n) s = true)
    (hp : ∀ x ∈ pageList (readBytes a (8 * n) s) n, pageOk s x = true) : givePages a n s =
      if pageRoom s < n then orderRefused .capacity (some (pageRoom s)) s
      else acceptPages (pageList (readBytes a (8 * n) s) n) s := by
  have hrange : inRange 1 64 n = true := by simp [inRange, h1, h64]
  unfold givePages
  rw [hrange, tableRead_allowed hr]
  dsimp only
  rw [firstBad_zipIdx_none hp]
  rfl

theorem pagesJoined_ordersKept (pages : List Nat) (s : State) : OrdersKept s (pagesJoined pages s) := by
  apply takePage_only
  · exact updJrn_only _ (only_refl _ s) (by simp)
  · simp
  · simp

theorem pagesJoined_counts (pages : List Nat) (s : State) :
    (pagesJoined pages s).jrn.given = satAdd32 s.jrn.given pages.length ∧
      (pagesJoined pages s).jrn.held = satAdd32 s.jrn.held pages.length := by
  have hcounts := takePage_pageCounts (updJrn (pagesGiven pages) s)
  simp only [pageCounts, Prod.mk.injEq] at hcounts
  obtain ⟨hgiven, -, hheld, -⟩ := hcounts
  exact ⟨hgiven, hheld⟩

theorem pagesJoined_fifo (h : s.jrn.page.isSome = true) : (pagesJoined pages s).jrn.fifo = s.jrn.fifo ++ pages := by
  obtain ⟨p, hp⟩ := Option.isSome_iff_exists.mp h
  rw [pagesJoined, takePage_of_page (s := updJrn (pagesGiven pages) s) hp]
  rfl

/-- R147: the first page given to a part that has none becomes current. -/
theorem pagesJoined_takes {x : Nat} {xs : List Nat} (hp : s.jrn.page = none) (hf : s.jrn.fifo = [])
    (hc : s.jrn.closing = []) :
    (pagesJoined (x :: xs) s).jrn = pageTaken x xs (pagesGiven (x :: xs) s.jrn) :=
  takePage_takes (s := updJrn (pagesGiven (x :: xs)) s) hp (by simp [pagesGiven, hf]) (Or.inl hc)

theorem pageList_cons (bs : List Byte) (h : 1 ≤ n) : ∃ xs, pageList bs n = field bs 0 8 :: xs := by
  obtain ⟨m, rfl⟩ : ∃ m, n = m + 1 := ⟨n - 1, by omega⟩
  exact ⟨_, by rw [pageList, List.range_succ_eq_map, List.map_cons]⟩

end

/-! ### FLUSH_JOURNAL -/

section
variable {b : OrderBlock} {s : State} {p : Page}

theorem flushJournal_of (h : Taken b .flushJournal s) : exec .flushJournal s = .next (settle s (flushJournal s)) := by
  have he : exec .flushJournal s = execFlushJournal s := rfl
  rw [he]
  unfold execFlushJournal
  rw [currentBody_of_taken h]
  rfl

theorem flushJournal_nothing (h : s.jrn.page = none ∨ ∃ p, s.jrn.page = some p ∧ p.recs = []) :
    flushJournal s = finishWith .done .ok (some nothingDetail) [] s := by
  unfold flushJournal
  rcases h with hp | ⟨p, hp, hr⟩
  · rw [hp]
    rfl
  · rw [hp]
    simp [hr, orderDone]

theorem flushJournal_closes (hp : s.jrn.page = some p) (hr : p.recs ≠ []) :
    flushJournal s = closePage .flush (updOcu (fun o => { o with flushing := some p.seq }) s) := by
  unfold flushJournal
  rw [hp]
  simp [hr]

theorem closePage_leaves (why : FillReason) (s : State) :
    Only (fun p => p = .raised ∨ p = .journal) s (closePage why s) := by
  apply closePage_only (h := only_refl _ _) <;> simp

end

/-! ### The end of a flush -/

section
variable {s : State}

theorem pageWritten_orderUnitKept (c : ClosedPage) (s : State) : OrderUnitKept s (takePage (pageWritten c s)) :=
  only_mono (pageWritten_leaves c s) (fun p hp => by rcases hp with rfl | rfl | rfl <;> simp)

theorem pageFaulted_ordersKept (c : ClosedPage) (s : State) : OrdersKept s (takePage (pageFaulted c s)) :=
  only_mono (pageFaulted_leaves c s) (fun p hp => by rcases hp with rfl | rfl | ⟨k, rfl⟩ <;> simp)

/-- R149, R150: the page is out, written or faulted; a flush that waits for it ends after this. -/
def pageOut (c : ClosedPage) (s : State) : State :=
  if allowed .journalWrite c.page.addr 4096 s then takePage (pageWritten c s) else takePage (pageFaulted c s)

theorem writeOutPage_eq (c : ClosedPage) (s : State) : writeOutPage c s = finishFlush c.page.seq (pageOut c s) := by
  unfold pageOut
  split
  next hw => exact writeOutPage_written hw
  next hw => exact writeOutPage_faulted (Bool.eq_false_of_not_eq_true hw)

theorem pageOut_orderUnitKept (c : ClosedPage) (s : State) : OrderUnitKept s (pageOut c s) := by
  unfold pageOut
  split
  · exact pageWritten_orderUnitKept c s
  · exact (pageFaulted_ordersKept c s).orderUnit

theorem pageOut_mem_written {c : ClosedPage} (h : allowed .journalWrite c.page.addr 4096 s = true) : (pageOut c s).mem =
    memWriteN (memWriteN s.mem (c.page.addr + 32) (pageBody c.page)) c.page.addr (pageHeader c) := by
  rw [pageOut, if_pos h, pageWritten_mem]

theorem pageOut_mem_faulted {c : ClosedPage} (h : allowed .journalWrite c.page.addr 4096 s = false) :
    (pageOut c s).mem = s.mem := by
  rw [pageOut, if_neg (by simp [h])]
  exact (pageFaulted_ordersKept c s).mem

end

end Sys2Proof.Machine

open Sys2Proof Sys2Proof.Machine

/-- Settles O52: GIVE_PAGES by `pagesJoined` or the room left, FLUSH_JOURNAL by the page it closes, and the end of a flush
by `pageOut`. -/
theorem pageOrders : Obligations.PageOrders := by
  refine fun b s hw => ⟨fun a n h h1 h64 hr hp => ?_, fun h => ⟨fun hnone => ?_, fun p hp hrecs => ?_⟩,
    fun c rest n hc hb hflush => ⟨fun hn => ?_, fun hn => ?_⟩⟩
  · obtain ⟨pages, hpages⟩ : ∃ pages, pages = pageList (readBytes a (8 * n) s) n := ⟨_, rfl⟩
    have hgood : ∀ x ∈ pageList (readBytes a (8 * n) s) n, pageOk s x = true := by
      simp only [pageList, List.mem_map, List.mem_range]
      rintro _ ⟨i, hi, rfl⟩
      simp [pageOk, hp i hi]
    have hgive := givePages_checked h1 h64 hr hgood
    rw [← hpages] at hgive
    have hlen : pages.length = n := by simp [hpages, pageList]
    have hroom : pageRoom s < n ↔ 64 < n + s.jrn.fifo.length + s.jrn.closing.length := by
      unfold pageRoom
      omega
    refine ⟨fun hfit => ?_, fun hover => ?_⟩
    · rw [if_neg (by omega), acceptPages_eq] at hgive
      have hkept := pagesJoined_ordersKept pages s
      have hjrn := jrn_finished s .done .ok none hkept.orderUnit h.1 hw
      obtain ⟨hgiven, hheld⟩ := pagesJoined_counts pages s
      refine ⟨_, none, by rw [givePages_of h, hgive], ended_of_kept .done .ok hkept h.1 hw, ?_, ?_, fun hsome => ?_,
        fun hnone hfifo hclosing => ?_⟩
      · rw [hjrn, hgiven, hlen]
      · rw [hjrn, hheld, hlen]
      · rw [hjrn, pagesJoined_fifo hsome, hpages]
        rfl
      · obtain ⟨xs, hxs⟩ := pageList_cons (readBytes a (8 * n) s) h1
        rw [hjrn, hpages, hxs, pagesJoined_takes hnone hfifo hclosing]
        exact ⟨_, rfl, rfl, rfl, rfl, rfl⟩
    · rw [if_pos (hroom.mpr hover)] at hgive
      exact ⟨_, by rw [givePages_of h, hgive]; rfl, ended_of_kept_detail .refused .capacity _ (only_refl _ s) h.1 hw,
        jrn_finished s .refused .capacity _ (only_refl _ s) h.1 hw⟩
  · exact ⟨_, by rw [flushJournal_of h, flushJournal_nothing hnone],
      ended_of_kept_detail .done .ok _ (only_refl _ s) h.1 hw, jrn_finished s .done .ok _ (only_refl _ s) h.1 hw⟩
  · obtain ⟨v, hv⟩ : ∃ v, v = updOcu (fun o => { o with flushing := some p.seq }) s := ⟨_, rfl⟩
    have hleaves := closePage_leaves .flush v
    have hocu : (closePage .flush v).ocu = v.ocu := hleaves .orders (by simp)
    have hmem : (closePage .flush v).mem = v.mem := hleaves .mem (by simp)
    refine ⟨_, by rw [flushJournal_of h, flushJournal_closes hp hrecs, ← hv], ?_, ?_, ?_, ?_⟩
    · rw [settle_jrn, closePage_closing .flush (p := p) (by rw [hv, updOcu_jrn, hp]), hv, updOcu_jrn]
    · rw [settle_ocu, hocu, hv, updOcu_ocu]
    · rw [settle_ocu, hocu, hv, updOcu_ocu]
      exact h.1
    · rw [settle_mem, hmem, hv, updOcu_mem]
  · have hkept := pageOut_orderUnitKept c s
    have hend : exec .pageWriteOut s = .next (settle s (finishWith .done .ok none [] (pageOut c s))) := by
      rw [pageWriteOut_of hc, writeOutPage_eq, finishFlush_same (by rw [hkept.ocu, hflush, hn])]
      rfl
    have hended := ended_of_orderUnitKept .done .ok none hkept hb hw
    refine ⟨_, none, hend, finished_flushing s .done .ok none hkept hb hw, fun hout => ?_, fun hout => ?_⟩
    · rw [← pageOut_mem_written hout]
      exact hended
    · rw [← pageOut_mem_faulted hout]
      exact hended
  · have hocu := (pageOut_orderUnitKept c s).ocu
    refine ⟨_, by rw [pageWriteOut_of hc, writeOutPage_eq, finishFlush_other (by rw [hocu, hflush]; simpa using hn)], ?_⟩
    rw [settle_ocu, hocu]
end

