-- ==== Sys2Proof/Proofs/SnapshotsAndIdentify.lean ====
section
/-! TALLY_SNAPSHOT, HEALTH_SNAPSHOT and IDENTIFY (R143, R144, R174, R189): what each order writes and ends with. -/

namespace Sys2Proof.Machine

section
variable {b : OrderBlock} {s : State} {a z : Nat} {l : LaneId}

/-! ### TALLY_SNAPSHOT -/

/-- R143, R144: the lane's tally image is in host memory, and the set is zeroed where the order asks for it. -/
def tallyWritten (a : Nat) (l : LaneId) (z : Nat) (s : State) : State :=
  if z = 1 then zeroTally l (writeBytes a (tallyImage l z s) s) else writeBytes a (tallyImage l z s) s

theorem tallySnapshot_of (h : Taken b (.tallySnapshot a (laneCode l) z) s) :
    exec .tallySnapshot s = .next (settle s (tallySnapshot a (laneCode l) z s)) := by
  have he : exec .tallySnapshot s = execTallySnapshot s := rfl
  rw [he]
  unfold execTallySnapshot
  rw [currentBody_of_taken h]
  rfl

theorem tallySnapshot_allowed (hz : z ≤ 1) (hw : allowed .snapshotWrite a 440 s = true) :
    tallySnapshot a (laneCode l) z s = finishWith .done .ok none [] (tallyWritten a l z s) := by
  unfold tallySnapshot
  rw [laneOfIndex_laneCode]
  dsimp only
  rw [if_neg (by omega), if_pos hw]
  rfl

theorem tallyWritten_orderUnitKept (a : Nat) (l : LaneId) (z : Nat) (s : State) :
    OrderUnitKept s (tallyWritten a l z s) := by
  have hbytes : OrderUnitKept s (writeBytes a (tallyImage l z s) s) :=
    writeBytes_only a _ (only_refl _ s) (by simp)
  unfold tallyWritten
  exact only_ite _ (zeroTally_only l hbytes (by simp)) hbytes

theorem zeroTally_mem (l : LaneId) (s : State) : (zeroTally l s).mem = s.mem := rfl

theorem tallyWritten_mem (a : Nat) (l : LaneId) (z : Nat) (s : State) :
    (tallyWritten a l z s).mem = memWriteN s.mem a (tallyImage l z s) := by
  unfold tallyWritten
  split
  · rw [zeroTally_mem, writeBytes_mem]
  · rw [writeBytes_mem]

theorem tallyWritten_tally (a : Nat) (l : LaneId) (z : Nat) (s : State) : (tallyWritten a l z s).tally.get l =
    if z = 1 then (List.replicate (s.tally.get l).length 0).set 0 (s.track.get l).queue.length else s.tally.get l := by
  unfold tallyWritten
  split
  · exact PerLane.get_upd_self _ _ _
  · rfl

/-! ### HEALTH_SNAPSHOT -/

theorem healthSnapshot_of (h : Taken b (.healthSnapshot a) s) :
    exec .healthSnapshot s = .next (settle s (healthSnapshot a s)) := by
  have he : exec .healthSnapshot s = execHealthSnapshot s := rfl
  rw [he]
  unfold execHealthSnapshot
  rw [currentBody_of_taken h]
  rfl

theorem healthSnapshot_allowed (hw : allowed .snapshotWrite a 792 s = true) :
    healthSnapshot a s = finishWith .done .ok none [] (writeBytes a (healthImage s) s) := if_pos hw

theorem hmu_finished (old : State) (st : BlockState) (code : ResultCode) (d : Option Nat) {u : State}
    (h : OrderUnitKept s u) (hb : s.ocu.current = some b)
    (hw : allowed .orderStateWrite (b.addr + 12) 8 s = true) :
    (settle old (finishWith st code d [] u)).hmu = u.hmu := by
  obtain ⟨x, n, -, hend⟩ := finishWith_allowed st code d (s := u) (by rw [h.ocu, hb]) (by rw [h.allowed, hw])
  rw [settle_hmu, hend]

/-! ### IDENTIFY -/

theorem identify_of (h : Taken b .identify s) :
    exec .identify s = .next (settle s (finishWith .done .ok none (identifyBody s) s)) := by
  have he : exec .identify s = execIdentify s := rfl
  rw [he]
  unfold execIdentify
  rw [currentBody_of_taken h]
  rfl

theorem identifyBody_isEmpty (s : State) : (identifyBody s).isEmpty = false := rfl

/-- R180: what follows the final state write of an order counts it and leaves host memory as it is. -/
theorem orderCompleted_spec (addr : Nat) (notify : Bool) (s : State) : (orderCompleted addr notify s).mem = s.mem ∧
    (orderCompleted addr notify s).ocu =
      { s.ocu with completed := satAdd32 s.ocu.completed 1, lastOrder := addr } := by
  unfold orderCompleted
  cases notify <;> exact ⟨rfl, rfl⟩

/-- The final state write of a block with a body, where the windows allow the whole of it (R189). -/
theorem finalWrite_body (lane : Option LaneId) (addr : Nat) (notify : Bool) (st : BlockState) (code : ResultCode)
    {extra : List Byte} (hx : extra.isEmpty = false) (hw : allowed .orderStateWrite (addr + 12) 52 s = true) :
    ∃ x, (finalWrite lane addr notify st code none extra s).mem =
        memWriteN (memWriteN s.mem (addr + 12) (orderStateBytes st (resultCode code) x s.clock.ms.toNat)) (addr + 24)
          extra ∧
      (finalWrite lane addr notify st code none extra s).ocu =
        { s.ocu with completed := satAdd32 s.ocu.completed 1, lastOrder := addr } := by
  refine ⟨(Config.freeValue s.freeCount).toNat % 65536, ?_⟩
  unfold finalWrite
  dsimp only
  simp only [hx, Bool.false_eq_true, if_false, hw, if_true]
  exact orderCompleted_spec addr notify _

/-- The chain goes on to the link of a block that has been written (R181). -/
theorem leaveBlock_written (s : State) : (stopIfHalted (leaveBlock true s)).mem = s.mem ∧
    (stopIfHalted (leaveBlock true s)).ocu.current = none ∧ (stopIfHalted (leaveBlock true s)).ocu.phase = .link ∧
    (stopIfHalted (leaveBlock true s)).ocu.completed = s.ocu.completed ∧
    (stopIfHalted (leaveBlock true s)).ocu.lastOrder = s.ocu.lastOrder := by
  unfold stopIfHalted
  split <;> exact ⟨rfl, rfl, rfl, rfl, rfl⟩

theorem finishWith_body (st : BlockState) (code : ResultCode) {extra : List Byte} (hx : extra.isEmpty = false)
    (hb : s.ocu.current = some b) (hw : allowed .orderStateWrite (b.addr + 12) 52 s = true) :
    finishWith st code none extra s = stopIfHalted (leaveBlock true
      (finalWrite (orderLaneOf b.body) b.addr b.notify st code none extra s)) := by
  unfold finishWith
  rw [hb]
  simp [hx, hw]

end

end Sys2Proof.Machine

open Sys2Proof Sys2Proof.Machine

/-- Settles O59: each snapshot is its write and then the end of its order, and IDENTIFY is the final state write with a
body. -/
theorem snapshotsAndIdentify : Obligations.SnapshotsAndIdentify := by
  refine fun b s => ⟨fun a l z h hz hw hsnap => ?_, fun a h hw hsnap => ?_, fun h hw => ?_⟩
  · have hend := ended_of_orderUnitKept .done .ok none (tallyWritten_orderUnitKept a l z s) h.1 hw
    rw [tallyWritten_mem] at hend
    have htally : (settle s (finishWith .done .ok none [] (tallyWritten a l z s))).tally.get l =
        (tallyWritten a l z s).tally.get l :=
      finished_only s .done .ok none (tallyWritten a l z s) (.tally l) (by simp [eventEnd, orderParts])
    exact ⟨_, none, by rw [tallySnapshot_of h, tallySnapshot_allowed hz hsnap], hend,
      htally.trans (tallyWritten_tally a l z s)⟩
  · have hkept : OrderUnitKept s (writeBytes a (healthImage s) s) := writeBytes_only a _ (only_refl _ s) (by simp)
    have hend := ended_of_orderUnitKept .done .ok none hkept h.1 hw
    rw [writeBytes_mem] at hend
    exact ⟨_, none, by rw [healthSnapshot_of h, healthSnapshot_allowed hsnap], hend,
      (hmu_finished s .done .ok none hkept h.1 hw).trans (writeBytes_hmu a _ s)⟩
  · obtain ⟨x, hmem, hocu⟩ := finalWrite_body (orderLaneOf b.body) b.addr b.notify .done .ok (identifyBody_isEmpty s) hw
    have hexec := identify_of h
    rw [finishWith_body .done .ok (identifyBody_isEmpty s) h.1 hw] at hexec
    obtain ⟨hleft, hcurrent, hphase, hcompleted, hlast⟩ := leaveBlock_written
      (finalWrite (orderLaneOf b.body) b.addr b.notify .done .ok none (identifyBody s) s)
    refine ⟨_, x, hexec, ?_, ?_, ?_, ?_, ?_⟩
    · rw [settle_mem, hleft, hmem]
      rfl
    · rw [settle_ocu, hcurrent]
    · rw [settle_ocu, hphase]
    · rw [settle_ocu, hcompleted, hocu]
    · rw [settle_ocu, hlast, hocu]
end

