-- ==== Sys2Proof/Proofs/HealthMeasures.lean ====
section
/-! The health records under the failing test (R161 to R163) and an evaluation (R158): the state that a record takes, the
records that stand, the retired flag of its element, and the orders, which only a retired lane with a pending order ends. -/

namespace Sys2Proof.Machine

/-! ### Records -/

theorem attrOfCode_attrCode (a : AttrId) : attrOfCode (attrCode a) = some a := by cases a <;> rfl

theorem attrIdx_injective {a b : AttrId} (h : attrIdx a = attrIdx b) : a = b := by
  have hcode : attrOfCode (attrCode a) = attrOfCode (attrCode b) := by rw [attrCode, h, attrCode]
  rw [attrOfCode_attrCode, attrOfCode_attrCode] at hcode
  exact Option.some.inj hcode

theorem mem_allAttrs (a : AttrId) : a ∈ allAttrs := by cases a <;> decide

/-- From one state to another every health record stands. -/
def AttrsKept (s t : State) : Prop := ∀ m b, attr m b t = attr m b s

/-- From one state to another a health record has become `r`, and every other one stands. -/
def Recorded (l : LaneId) (a : AttrId) (r : AttrRec) (s t : State) : Prop :=
  attr l a t = r ∧ ∀ m b, m ≠ l ∨ b ≠ a → attr m b t = attr m b s

section
variable {l : LaneId} {a : AttrId} {q r : AttrRec} {s t u : State}

theorem attrsKept_of_only {ps : Part → Prop} (h : Only ps s t) (hp : ∀ k, ¬ ps (.attrs k)) : AttrsKept s t := by
  intro m b
  have hm : t.hmu.attrs.get m = s.hmu.attrs.get m := h (.attrs m) (hp m)
  unfold attr
  rw [hm]

theorem recorded_self (l : LaneId) (a : AttrId) (s : State) : Recorded l a (attr l a s) s s := ⟨rfl, fun _ _ _ => rfl⟩

theorem updAttr_recorded (l : LaneId) (a : AttrId) (f : AttrRec → AttrRec) (s : State) :
    Recorded l a (f (attr l a s)) s (updAttr l a f s) := by
  refine ⟨by simp [attr, updAttr], fun m b h => ?_⟩
  by_cases hm : m = l
  · subst hm
    have hb : attrIdx b ≠ attrIdx a := fun e => h.elim (· rfl) (· (attrIdx_injective e))
    simp [attr, updAttr, vget_vupd_other _ _ hb]
  · simp [attr, updAttr, PerLane.get_upd_other _ _ hm]

theorem Recorded.kept (h : Recorded l a r s t) (k : AttrsKept t u) : Recorded l a r s u :=
  ⟨(k l a).trans h.1, fun m b hne => (k m b).trans (h.2 m b hne)⟩

theorem Recorded.trans (h : Recorded l a q s t) (k : Recorded l a r t u) : Recorded l a r s u :=
  ⟨k.1, fun m b hne => (k.2 m b hne).trans (h.2 m b hne)⟩

theorem emit_attrsKept (c : EventCode) (k : Option LaneId) (j n x y : Nat) (s : State) :
    AttrsKept s (emit c k j n x y s) := attrsKept_of_only (emit_leaves s c k j n x y) (by simp)

theorem healthHold_attrsKept (l : LaneId) (s : State) : AttrsKept s (healthHold l s) :=
  attrsKept_of_only (setHold_leaves l _ _ s) (by simp)

theorem retireElement_attrsKept (l : LaneId) (a : AttrId) (s : State) : AttrsKept s (retireElement l a s) := by
  refine attrsKept_of_only (ps := fun p => ∀ k, p ≠ .attrs k) ?_ (by simp)
  apply retireElement_only (h := only_refl _ _) <;> simp

end

/-! ### Retired flags -/

/-- From one state to another every retired flag stands. -/
def FlagsKept (s t : State) : Prop := ∀ m b, retiredFlag m b t = retiredFlag m b s

section
variable {s t u : State}

theorem FlagsKept.trans (h : FlagsKept s t) (k : FlagsKept t u) : FlagsKept s u := fun m b => (k m b).trans (h m b)

theorem flagsKept_of_only {ps : Part → Prop} (h : Only ps s t) (hg : ∀ k, ¬ ps (.gates k)) (hh : ∀ k, ¬ ps (.heads k))
    (hl : ∀ m, (t.lsq.get m).retired = (s.lsq.get m).retired) : FlagsKept s t := by
  intro m b
  have hgates : t.gsq.get m = s.gsq.get m := h (.gates m) (hg m)
  have hhead : ∀ k, head m k t = head m k s := fun k => head_of_only m k h (hh m)
  cases b <;> simp [retiredFlag, hgates, hhead, hl]

theorem emit_flagsKept (c : EventCode) (k : Option LaneId) (j n x y : Nat) (s : State) :
    FlagsKept s (emit c k j n x y s) :=
  flagsKept_of_only (emit_leaves s c k j n x y) (by simp) (by simp) (fun m => by rw [emit_lsq])

/-- A change of a lane's hold-reason set leaves the other lane's record. -/
theorem setHold_lsq_other {l m : LaneId} (r : HoldReason) (on : Bool) (s : State) (h : m ≠ l) :
    (setHold l r on s).lsq.get m = s.lsq.get m := by
  unfold setHold
  split
  · rfl
  · exact PerLane.get_upd_other _ _ h

theorem setHold_flagsKept (l : LaneId) (r : HoldReason) (on : Bool) (s : State) : FlagsKept s (setHold l r on s) := by
  refine flagsKept_of_only (setHold_leaves l r on s) (by simp) (by simp) (fun m => ?_)
  by_cases hm : m = l
  · obtain ⟨hs, h⟩ := setHold_lsq l s r on
    rw [hm, h]
  · rw [setHold_lsq_other r on s hm]

end

/-! ### The retirement of an element -/

section
variable (l : LaneId) (s : State)

/-- A drain that ends changes of the lane's record the mode, the pending order, the hold reasons and the rise at most. -/
theorem drainTest_lsq : ∃ m p hs r, (drainTest l s).lsq.get l =
    { s.lsq.get l with mode := m, pendingOrder := p, holds := hs, rise := r } := by
  unfold drainTest
  split
  · obtain ⟨hs, r, h⟩ := changeLane_lsq l s .ready .drainDone
    exact ⟨.ready, none, hs, r, by rw [endPending_lsq, laneEndClose_lsq, h]⟩
  · exact ⟨_, _, _, _, rfl⟩

/-- R139: a retired lane has its flag set. -/
theorem retireLane_retired : ((retireLane l s).lsq.get l).retired = true := by
  unfold retireLane
  split
  · assumption
  · dsimp only
    split
    · obtain ⟨m, p, hs, r, h⟩ :=
        drainTest_lsq l (changeLane l .draining .retire (updLsq l (fun q => { q with retired := true }) s))
      obtain ⟨hs', r', hc⟩ := changeLane_lsq l (updLsq l (fun q => { q with retired := true }) s) .draining .retire
      rw [h, hc]
      simp
    · rw [endPending_lsq]
      simp
    · simp

/-- R163: the element of a PREFAIL measure has its flag set. -/
theorem retireElement_flag {a : AttrId} (h : isPrefail a = true) :
    retiredFlag l a (retireElement l a s) = some true := by
  cases a with
  | lampReserve | tracking => exact congrArg some (retireLane_retired l s)
  | nearHeadWet | farHeadWet => simp [retiredFlag, retireElement]
  | flipAccuracy | bankAccuracy => simp [retiredFlag, retireElement]
  | pocketAccuracy | nearHeadAlign | farHeadAlign | timeliness | calCurrency => cases h

theorem drainTest_kept : RaisedKept s (drainTest l s) :=
  raisedKept_ite (((changeLane_kept l _ _ s).trans (laneEndClose_kept _)).trans (endPending_kept l _ _ _ _))
    (RaisedKept.refl s)

theorem retireLane_kept : RaisedKept s (retireLane l s) := by
  have hflag : RaisedKept s (updLsq l (fun q => { q with retired := true }) s) := raisedKept_of_eq rfl
  unfold retireLane
  split
  · exact RaisedKept.refl s
  · dsimp only
    split
    · exact (hflag.trans (changeLane_kept l _ _ _)).trans (drainTest_kept l _)
    · exact hflag.trans (endPending_kept l _ _ _ _)
    · exact hflag

theorem retireElement_kept (a : AttrId) : RaisedKept s (retireElement l a s) := by
  cases a with
  | lampReserve | tracking => exact retireLane_kept l s
  | _ => exact raisedKept_of_eq rfl

variable {l s}

theorem endPending_none (st : BlockState) (code : ResultCode) (d : Option Nat)
    (h : (s.lsq.get l).pendingOrder = none) : endPending l st code d s = s := by
  unfold endPending
  rw [h]
  rfl

theorem drainTest_ordersKept (h : (s.lsq.get l).pendingOrder = none) : OrdersKept s (drainTest l s) := by
  by_cases hc : laneMode l s = .draining ∧ (s.track.get l).queue = []
  · rw [drainTest_ready hc.1 hc.2 h]
    exact only_trans (changeLane_ordersKept l _ _ s) (laneEndClose_ordersKept _)
  · rw [drainTest, if_neg hc]
    exact only_refl _ s

/-- R139: the retirement of a lane without a pending order leaves the orders. -/
theorem retireLane_ordersKept (h : (s.lsq.get l).pendingOrder = none) : OrdersKept s (retireLane l s) := by
  have hflag : OrdersKept s (updLsq l (fun q => { q with retired := true }) s) := by
    apply updLsq_only (h := only_refl _ s) <;> simp
  have hnone : ((updLsq l (fun q => { q with retired := true }) s).lsq.get l).pendingOrder = none := by simpa using h
  unfold retireLane
  split
  · exact only_refl _ s
  · dsimp only
    split
    · obtain ⟨hs, r, hc⟩ := changeLane_lsq l (updLsq l (fun q => { q with retired := true }) s) .draining .retire
      exact only_trans (only_trans hflag (changeLane_ordersKept l _ _ _))
        (drainTest_ordersKept (by rw [hc]; exact hnone))
    · rw [endPending_none _ _ _ hnone]
      exact hflag
    · exact hflag

theorem retireElement_ordersKept (a : AttrId) (h : (s.lsq.get l).pendingOrder = none) :
    OrdersKept s (retireElement l a s) := by
  cases a with
  | lampReserve | tracking => exact retireLane_ordersKept h
  | flipAccuracy | bankAccuracy => exact updGsq_only l _ (only_refl _ s) (by simp)
  | nearHeadWet | farHeadWet => exact updHead_only l _ _ (only_refl _ s) (by simp)
  | pocketAccuracy | nearHeadAlign | farHeadAlign | timeliness | calCurrency => exact only_refl _ s

end

/-! ### A record that takes a state -/

/-- R161 to R163: from one state to another a record has taken a state. HEALTH is raised and every other record stands;
RETIRED sets the flag of the record's element and ends the pending order of a lane at most, and another state leaves every
flag and every order. -/
structure StateTaken (l : LaneId) (a : AttrId) (st : AttrState) (s t : State) : Prop where
  recorded : Recorded l a { attr l a s with state := st } s t
  health : raisedIn .health t
  kept : RaisedKept s t
  flags : st ≠ .retired → FlagsKept s t
  retired : st = .retired → isPrefail a = true → retiredFlag l a t = some true
  orders : st ≠ .retired ∨ (s.lsq.get l).pendingOrder = none → OrdersKept s t

/-- The record in a state, with HEALTH raised. -/
def stateMarked (l : LaneId) (a : AttrId) (st : AttrState) (s : State) : State :=
  raise .health (updAttr l a (fun r => { r with state := st }) s)

/-- R161: the record FAILING, with its event, before the action. -/
def markedFailing (l : LaneId) (a : AttrId) (s : State) : State :=
  emit .attrFailing (some l) (attrCode a) 0 (attr l a s).normalized 0 (stateMarked l a .failing s)

section
variable {l : LaneId} {a : AttrId} {st : AttrState} {s t u : State}

theorem stateMarked_recorded (l : LaneId) (a : AttrId) (st : AttrState) (s : State) :
    Recorded l a { attr l a s with state := st } s (stateMarked l a st s) :=
  (updAttr_recorded l a (fun r => { r with state := st }) s).kept (fun _ _ => rfl)

theorem stateMarked_ordersKept (l : LaneId) (a : AttrId) (st : AttrState) (s : State) :
    OrdersKept s (stateMarked l a st s) :=
  raise_only .health (updAttr_only l a _ (only_refl _ s) (by simp)) (by simp)

theorem stateMarked_kept (l : LaneId) (a : AttrId) (st : AttrState) (s : State) :
    RaisedKept s (stateMarked l a st s) := raisedKept_or rfl

theorem emit_ordersKept (c : EventCode) (k : Option LaneId) (j n x y : Nat) (s : State) :
    OrdersKept s (emit c k j n x y s) :=
  only_mono (emit_leaves s c k j n x y) (by rintro p (rfl | rfl | rfl) <;> simp)

theorem stateMarked_taken (l : LaneId) (a : AttrId) (s : State) (h : st ≠ .retired) :
    StateTaken l a st s (stateMarked l a st s) where
  recorded := stateMarked_recorded l a st s
  health := raisedIn_raise _ _
  kept := stateMarked_kept l a st s
  flags _ _ _ := rfl
  retired e := absurd e h
  orders _ := stateMarked_ordersKept l a st s

/-- What leaves every record, flag, order and reason raised keeps what a record has taken. -/
theorem StateTaken.then (h : StateTaken l a st s t) (ha : AttrsKept t u) (hr : RaisedKept t u) (hf : FlagsKept t u)
    (ho : OrdersKept t u) : StateTaken l a st s u where
  recorded := h.recorded.kept ha
  health := hr _ h.health
  kept := h.kept.trans hr
  flags hne := (h.flags hne).trans hf
  retired e hp := (hf l a).trans (h.retired e hp)
  orders e := only_trans (h.orders e) ho

theorem healthHold_ordersKept (l : LaneId) (s : State) : OrdersKept s (healthHold l s) :=
  healthHold_only l (only_refl _ s) (by simp) (by simp)

theorem StateTaken.healthHold (h : StateTaken l a st s t) : StateTaken l a st s (healthHold l t) :=
  h.then (healthHold_attrsKept l t) (setHold_kept l _ _ t) (setHold_flagsKept l _ _ t) (healthHold_ordersKept l t)

theorem markedFailing_taken (l : LaneId) (a : AttrId) (s : State) :
    StateTaken l a .failing s (markedFailing l a s) :=
  (stateMarked_taken l a s (by decide)).then (emit_attrsKept _ _ _ _ _ _ _) (emit_kept _ _ _ _ _ _ _)
    (emit_flagsKept _ _ _ _ _ _ _) (emit_ordersKept _ _ _ _ _ _ _)

theorem retireRecord_taken (l : LaneId) (a : AttrId) (s : State) :
    StateTaken l a .retired s (retireRecord l a s) := by
  obtain ⟨u, hu⟩ : ∃ u, u = emit .attrRetired (some l) (attrCode a) 0 (attr l a s).normalized 0
      (stateMarked l a .retired s) := ⟨_, rfl⟩
  have heq : retireRecord l a s = retireElement l a u := by rw [hu]; rfl
  have hkept : RaisedKept (stateMarked l a .retired s) u := hu ▸ emit_kept _ _ _ _ _ _ _
  have hall := hkept.trans (retireElement_kept l u a)
  have horders : OrdersKept s u :=
    hu ▸ only_trans (stateMarked_ordersKept l a .retired s) (emit_ordersKept _ _ _ _ _ _ _)
  have hlsq : u.lsq = s.lsq := by rw [hu, emit_lsq]; rfl
  rw [heq]
  exact {
    recorded := ((stateMarked_recorded l a .retired s).kept (hu ▸ emit_attrsKept _ _ _ _ _ _ _)).kept
      (retireElement_attrsKept l a u)
    health := hall _ (raisedIn_raise _ _)
    kept := (stateMarked_kept l a .retired s).trans hall
    flags := fun h => absurd rfl h
    retired := fun _ hp => retireElement_flag l u hp
    orders := fun h => only_trans horders
      (retireElement_ordersKept a (by rw [hlsq]; exact h.resolve_left (fun h => h rfl))) }

/-- R161, R163: a record that enters FAILING stays so, or goes on to RETIRED with action RETIRE. -/
theorem enterFailing_taken (l : LaneId) (a : AttrId) (s : State) :
    StateTaken l a (if (attr l a s).action = .retire then .retired else .failing) s (enterFailing l a s) := by
  have hfailing := markedFailing_taken l a s
  unfold enterFailing
  dsimp only
  cases (attr l a s).action with
  | report => exact hfailing
  | hold => exact hfailing.healthHold
  | retire =>
    have hretired := retireRecord_taken l a (markedFailing l a s)
    have hlsq : (markedFailing l a s).lsq = s.lsq := emit_lsq _ _ _ _ _ _ _
    have hrecorded := hretired.recorded
    rw [hfailing.recorded.1] at hrecorded
    exact {
      recorded := hfailing.recorded.trans hrecorded
      health := hretired.health
      kept := hfailing.kept.trans hretired.kept
      flags := fun h => absurd rfl h
      retired := hretired.retired
      orders := fun h => only_trans (hfailing.orders (.inl (by decide)))
        (hretired.orders (.inr (by rw [hlsq]; exact h.resolve_left (fun h => h rfl)))) }

end

/-! ### The failing test -/

/-- R161 to R163: the state that the failing test gives a record. -/
def testedState (r : AttrRec) : AttrState :=
  match r.state, isFailing r with
  | .retired, _ => .retired
  | .passing, true => if r.action = .retire then .retired else .failing
  | .failing, true => .failing
  | .passing, false | .failing, false => .passing

/-- A test that gives a record a state changes nothing where the record has it. -/
def Tested (l : LaneId) (a : AttrId) (st : AttrState) (s t : State) : Prop :=
  (t = s ∧ st = (attr l a s).state) ∨ (st ≠ (attr l a s).state ∧ StateTaken l a st s t)

section
variable {l : LaneId} {a : AttrId} {st : AttrState} {s t : State}

theorem Tested.recorded (h : Tested l a st s t) : Recorded l a { attr l a s with state := st } s t := by
  rcases h with ⟨rfl, rfl⟩ | ⟨-, h⟩
  · exact recorded_self l a t
  · exact h.recorded

theorem Tested.kept (h : Tested l a st s t) : RaisedKept s t := by
  rcases h with ⟨rfl, -⟩ | ⟨-, h⟩
  · exact RaisedKept.refl t
  · exact h.kept

theorem Tested.health (h : Tested l a st s t) (hne : st ≠ (attr l a s).state) : raisedIn .health t :=
  h.elim (fun hs => absurd hs.2 hne) (fun h => h.2.health)

theorem Tested.flags (h : Tested l a st s t) (hne : st ≠ .retired) : FlagsKept s t := by
  rcases h with ⟨rfl, -⟩ | ⟨-, h⟩
  · exact fun _ _ => rfl
  · exact h.flags hne

theorem Tested.retired (h : Tested l a st s t) (he : st = .retired) (hs : (attr l a s).state ≠ .retired)
    (hp : isPrefail a = true) : retiredFlag l a t = some true :=
  h.elim (fun hst => absurd (hst.2.symm.trans he) hs) (fun h => h.2.retired he hp)

/-- A test that retires no record, or one of a lane without a pending order, leaves the orders. -/
theorem Tested.orders (h : Tested l a st s t)
    (ho : st = .retired → (attr l a s).state ≠ .retired → (s.lsq.get l).pendingOrder = none) : OrdersKept s t := by
  rcases h with ⟨rfl, -⟩ | ⟨hne, h⟩
  · exact only_refl _ t
  · by_cases he : st = .retired
    · exact h.orders (.inr (ho he (fun hs => hne (he.trans hs.symm))))
    · exact h.orders (.inl he)

/-- R161: the failing test gives a record the state of `testedState`. -/
theorem failingTest_tested (l : LaneId) (a : AttrId) (s : State) :
    Tested l a (testedState (attr l a s)) s (failingTest l a s) := by
  unfold failingTest testedState
  cases hs : (attr l a s).state <;> cases hf : isFailing (attr l a s)
  case passing.true => exact .inr ⟨by rw [hs]; dsimp only; split <;> decide, enterFailing_taken l a s⟩
  case failing.false =>
    have hchange : AttrState.passing ≠ (attr l a s).state := by rw [hs]; decide
    exact .inr ⟨hchange, (stateMarked_taken (st := .passing) l a s (by decide)).healthHold⟩
  all_goals exact .inl ⟨rfl, hs.symm⟩

end

/-! ### Evaluations -/

/-- R158: the record of an evaluated measure before its failing test. -/
def evaluatedRecord (raw normal : Int) (r : AttrRec) : AttrRec :=
  { r with normalized := clampNormal normal, worst := min r.worst (clampNormal normal), raw := raw }

theorem clampNormal_eq (x : Int) : clampNormal x = (max 1 (min 253 x)).toNat := by
  unfold clampNormal
  split
  · omega
  · split <;> omega

section
variable (l : LaneId) (a : AttrId) (raw normal : Int) (s : State)

/-- R158: an evaluation is the failing test of the record with the new value. -/
theorem evaluate_tested : Tested l a (testedState (evaluatedRecord raw normal (attr l a s)))
    (updAttr l a (evaluatedRecord raw normal) s) (evaluate l a raw normal s) := by
  have h := failingTest_tested l a (updAttr l a (evaluatedRecord raw normal) s)
  rw [(updAttr_recorded l a (evaluatedRecord raw normal) s).1] at h
  exact h

theorem evaluate_attr : attr l a (evaluate l a raw normal s) =
    { evaluatedRecord raw normal (attr l a s) with
      state := testedState (evaluatedRecord raw normal (attr l a s)) } := by
  rw [(evaluate_tested l a raw normal s).recorded.1, (updAttr_recorded l a (evaluatedRecord raw normal) s).1]

variable {l a raw normal s}

/-- R163: a PASSING record with action RETIRE whose new value is below the threshold retires with its element. -/
theorem evaluate_retires (ha : (attr l a s).action = .retire) (hs : (attr l a s).state = .passing)
    (hn : clampNormal normal < (attr l a s).threshold) :
    (attr l a (evaluate l a raw normal s)).state = .retired ∧
      (isPrefail a = true → retiredFlag l a (evaluate l a raw normal s) = some true) := by
  have hretired : testedState (evaluatedRecord raw normal (attr l a s)) = .retired := by
    simp [testedState, evaluatedRecord, isFailing, ha, hs, hn]
  have hpassing : (attr l a (updAttr l a (evaluatedRecord raw normal) s)).state = .passing := by
    rw [(updAttr_recorded l a (evaluatedRecord raw normal) s).1]
    exact hs
  rw [evaluate_attr, hretired]
  exact ⟨rfl, (evaluate_tested l a raw normal s).retired hretired (by rw [hpassing]; decide)⟩

theorem testedState_retired {r : AttrRec} (h : r.state = .retired) : testedState r = .retired := by
  unfold testedState
  rw [h]

/-- R161: without RETIRE a record that is not RETIRED is FAILING below its threshold and PASSING at or above it. -/
theorem testedState_of_not_retire {r : AttrRec} (ha : r.action ≠ .retire) (hs : r.state ≠ .retired) :
    testedState r = if r.normalized < r.threshold then .failing else .passing := by
  cases hr : r.state with
  | retired => exact absurd hr hs
  | passing | failing => by_cases hf : r.normalized < r.threshold <;> simp [testedState, isFailing, hr, hf, ha]

end

end Sys2Proof.Machine
end

