-- ==== Sys2Proof/Proofs/HealthRecords.lean ====
section
/-! LOAD_THRESHOLDS of one entry (R164, R165): the record that the entry loads or restores, the lanes freed of a retirement,
the failing test of the load, and the hold reason HEALTH (R162). -/

namespace Sys2Proof.Machine

/-! ### The record that is loaded -/

/-- R165: the record with the entry's threshold and action. -/
def namedRecord (e : ThresholdEntry) (r : AttrRec) : AttrRec :=
  { r with threshold := e.threshold, action := attrActionOf e.action }

/-- R165: the record that a restore leaves. -/
def restoredRecord (e : ThresholdEntry) (r : AttrRec) : AttrRec :=
  { r with
    normalized := 100, state := .passing, worst := if e.carry = 1 then min e.worst 100 else 100,
    raw := if e.carry = 1 then e.raw else 0, blockCount := 0, blockEvents := 0 }

/-- R165: the record with the entry's threshold and action, restored where the entry asks for it. -/
def loadedRecord (e : ThresholdEntry) (r : AttrRec) : AttrRec :=
  if e.restore = 1 then restoredRecord e (namedRecord e r) else namedRecord e r

section
variable (e : ThresholdEntry) (r : AttrRec)

theorem loadedRecord_threshold : (loadedRecord e r).threshold = e.threshold := by
  unfold loadedRecord
  split <;> rfl

theorem loadedRecord_action : (loadedRecord e r).action = attrActionOf e.action := by
  unfold loadedRecord
  split <;> rfl

theorem loadedRecord_normalized : (loadedRecord e r).normalized = if e.restore = 1 then 100 else r.normalized := by
  unfold loadedRecord
  split <;> rfl

theorem loadedRecord_worst : (loadedRecord e r).worst =
    if e.restore = 1 then (if e.carry = 1 then min e.worst 100 else 100) else r.worst := by
  unfold loadedRecord
  split <;> rfl

theorem loadedRecord_raw : (loadedRecord e r).raw =
    if e.restore = 1 then (if e.carry = 1 then e.raw else 0) else r.raw := by
  unfold loadedRecord
  split <;> rfl

theorem loadedRecord_state : (loadedRecord e r).state = if e.restore = 1 then .passing else r.state := by
  unfold loadedRecord
  split <;> rfl

/-- Where a load leaves a RETIRED record in another state, it restores it. -/
theorem restores_of_loadedRecord (h : r.state = .retired) (hne : (loadedRecord e r).state ≠ .retired) :
    e.restore = 1 := by
  by_contra hr
  exact hne (by rw [loadedRecord_state, if_neg hr, h])

theorem attrActionOf_eq (n : Nat) :
    attrActionOf n = if n = 0 then .report else if n = 1 then .hold else .retire := by
  match n with
  | 0 | 1 | _ + 2 => rfl

theorem attrActionOf_retire {n : Nat} (h : n ≤ 2) : attrActionOf n = .retire ↔ n = 2 := by
  match n, h with
  | 0, _ | 1, _ | 2, _ => decide

end

/-! ### The entry applied to its record -/

section
variable {l : LaneId} {k : AttrId} {e : ThresholdEntry} {s t : State}

theorem restoreElement_leaves (l : LaneId) (k : AttrId) (s : State) :
    Only (fun p => p = .gates l ∨ p = .heads l) s (restoreElement l k s) := by
  apply restoreElement_only (h := only_refl _ _) <;> simp

/-- R163, R165: the flag of an element other than the lane is cleared. -/
theorem restoreElement_flag (s : State) (hp : isPrefail k = true) (h1 : k ≠ .lampReserve) (h2 : k ≠ .tracking) :
    retiredFlag l k (restoreElement l k s) = some false := by
  cases k with
  | lampReserve => exact absurd rfl h1
  | tracking => exact absurd rfl h2
  | flipAccuracy | bankAccuracy | nearHeadWet | farHeadWet => simp [retiredFlag, restoreElement]
  | pocketAccuracy | nearHeadAlign | farHeadAlign | timeliness | calCurrency => cases hp

theorem restoreRecord_leaves (l : LaneId) (k : AttrId) (e : ThresholdEntry) (s : State) :
    Only (fun p => p ∈ [.raised, .gates l, .heads l, .attrs l]) s (restoreRecord l k e s) := by
  apply restoreRecord_only (h := only_refl _ _) <;> simp

/-- R165: the record restored, with HEALTH where its state changes, before its element. -/
def recordRestored (l : LaneId) (k : AttrId) (e : ThresholdEntry) (s : State) : State :=
  if (attr l k s).state = .passing then updAttr l k (restoredRecord e) s
  else raise .health (updAttr l k (restoredRecord e) s)

theorem restoreRecord_eq (l : LaneId) (k : AttrId) (e : ThresholdEntry) (s : State) : restoreRecord l k e s =
    if (attr l k s).state = .retired then restoreElement l k (recordRestored l k e s) else recordRestored l k e s := rfl

/-- R165: a restore of a record that is not PASSING raises HEALTH. -/
theorem restoreRecord_health (h : (attr l k s).state ≠ .passing) : raisedIn .health (restoreRecord l k e s) := by
  have hraised : raisedIn .health (recordRestored l k e s) := by
    rw [recordRestored, if_neg h]
    exact raisedIn_raise _ _
  rw [restoreRecord_eq]
  split
  · exact raisedKept_of_only (restoreElement_leaves l k _) (by simp) _ hraised
  · exact hraised

theorem restoreRecord_recorded (l : LaneId) (k : AttrId) (e : ThresholdEntry) (s : State) :
    Recorded l k (restoredRecord e (attr l k s)) s (restoreRecord l k e s) := by
  have hrestored : Recorded l k (restoredRecord e (attr l k s)) s (recordRestored l k e s) := by
    unfold recordRestored
    split
    · exact updAttr_recorded l k (restoredRecord e) s
    · exact (updAttr_recorded l k (restoredRecord e) s).kept (fun _ _ => rfl)
  rw [restoreRecord_eq]
  split
  · exact hrestored.kept (attrsKept_of_only (restoreElement_leaves l k _) (by simp))
  · exact hrestored

theorem restoreRecord_flag (hs : (attr l k s).state = .retired) (hp : isPrefail k = true) (h1 : k ≠ .lampReserve)
    (h2 : k ≠ .tracking) : retiredFlag l k (restoreRecord l k e s) = some false := by
  rw [restoreRecord_eq, if_pos hs]
  exact restoreElement_flag _ hp h1 h2

section
variable (hl : laneOfIndex e.lane = some l) (hk : attrOfCode e.id = some k)
include hl hk

theorem applyThreshold_of : applyThreshold e s =
    if e.restore = 1 then restoreRecord l k e (updAttr l k (namedRecord e) s) else updAttr l k (namedRecord e) s := by
  unfold applyThreshold
  rw [hl, hk]
  rfl

theorem applyThreshold_recorded : Recorded l k (loadedRecord e (attr l k s)) s (applyThreshold e s) := by
  have hnamed := updAttr_recorded l k (namedRecord e) s
  rw [applyThreshold_of hl hk]
  unfold loadedRecord
  split
  · have hrestored := restoreRecord_recorded l k e (updAttr l k (namedRecord e) s)
    rw [hnamed.1] at hrestored
    exact hnamed.trans hrestored
  · exact hnamed

theorem applyThreshold_leaves :
    Only (fun p => p ∈ [.raised, .gates l, .heads l, .attrs l]) s (applyThreshold e s) := by
  have hnamed : Only (fun p => p ∈ [.raised, .gates l, .heads l, .attrs l]) s (updAttr l k (namedRecord e) s) :=
    updAttr_only l k _ (only_refl _ s) (by simp)
  rw [applyThreshold_of hl hk]
  exact only_ite _ (only_trans hnamed (restoreRecord_leaves l k e _)) hnamed

theorem applyThreshold_health (hr : e.restore = 1) (hs : (attr l k s).state ≠ .passing) :
    raisedIn .health (applyThreshold e s) := by
  rw [applyThreshold_of hl hk, if_pos hr]
  refine restoreRecord_health ?_
  rw [(updAttr_recorded l k _ s).1]
  exact hs

theorem applyThreshold_flag (hr : e.restore = 1) (hs : (attr l k s).state = .retired) (hp : isPrefail k = true)
    (h1 : k ≠ .lampReserve) (h2 : k ≠ .tracking) : retiredFlag l k (applyThreshold e s) = some false := by
  rw [applyThreshold_of hl hk, if_pos hr]
  refine restoreRecord_flag ?_ hp h1 h2
  rw [(updAttr_recorded l k _ s).1]
  exact hs

end

end

/-! ### The lanes freed -/

/-- R139, R165: each lane is free of its retirement when none of its measures holds it retired. -/
def lanesFreed (s : State) : State := freeLane .lane1 (freeLane .lane0 s)

/-- One of the two measures that retire a lane is RETIRED (R139). -/
def heldRetired (l : LaneId) (s : State) : Prop :=
  (attr l .lampReserve s).state = .retired ∨ (attr l .tracking s).state = .retired

section
variable (l : LaneId) (s : State)

theorem freeLane_leaves : Only (fun p => p = .lane l ∨ p = .idle l) s (freeLane l s) := by
  apply freeLane_only (h := only_refl _ _) <;> simp

theorem lanesFreed_leaves : Only (fun p => ∃ m, p = .lane m ∨ p = .idle m) s (lanesFreed s) :=
  only_trans (only_mono (freeLane_leaves .lane0 s) (fun _ h => ⟨_, h⟩))
    (only_mono (freeLane_leaves .lane1 _) (fun _ h => ⟨_, h⟩))

theorem lanesFreed_attrsKept : AttrsKept s (lanesFreed s) := attrsKept_of_only (lanesFreed_leaves s) (by simp)

theorem freeLane_lsq_other {m : LaneId} (h : l ≠ m) : (freeLane m s).lsq.get l = s.lsq.get l :=
  lsq_of_only l (freeLane_leaves m s) (by simp [h]) (by simp [h])

variable {l s}

theorem freeLane_held (h : heldRetired l s) : freeLane l s = s := if_pos h

theorem freeLane_free (h : ¬ heldRetired l s) : freeLane l s = updLsq l (fun q => { q with retired := false }) s :=
  if_neg h

/-- Of the two lanes' frees only its own changes a lane's record. -/
theorem lanesFreed_lsq (l : LaneId) (s : State) : (lanesFreed s).lsq.get l = (freeLane l s).lsq.get l := by
  cases l with
  | lane0 => exact freeLane_lsq_other .lane0 _ (by decide)
  | lane1 =>
    have hsame := freeLane_lsq_other .lane1 s (m := .lane0) (by decide)
    have hattr : AttrsKept s (freeLane .lane0 s) := attrsKept_of_only (freeLane_leaves .lane0 s) (by simp)
    have hheld : heldRetired .lane1 (freeLane .lane0 s) ↔ heldRetired .lane1 s := by
      unfold heldRetired
      rw [hattr, hattr]
    unfold lanesFreed
    by_cases h : heldRetired .lane1 s
    · rw [freeLane_held (hheld.mpr h), freeLane_held h, hsame]
    · rw [freeLane_free (mt hheld.mp h), freeLane_free h]
      simp [hsame]

theorem lanesFreed_pendingOrder (l : LaneId) (s : State) :
    ((lanesFreed s).lsq.get l).pendingOrder = (s.lsq.get l).pendingOrder := by
  rw [lanesFreed_lsq]
  by_cases h : heldRetired l s
  · rw [freeLane_held h]
  · rw [freeLane_free h]
    simp

/-- The flag of an element other than the lane stands. -/
theorem lanesFreed_flag {k : AttrId} (h1 : k ≠ .lampReserve) (h2 : k ≠ .tracking) :
    retiredFlag l k (lanesFreed s) = retiredFlag l k s := by
  have hgates : (lanesFreed s).gsq.get l = s.gsq.get l := lanesFreed_leaves s (.gates l) (by simp)
  have hhead : ∀ d, head l d (lanesFreed s) = head l d s := fun d => head_of_only l d (lanesFreed_leaves s) (by simp)
  cases k with
  | lampReserve => exact absurd rfl h1
  | tracking => exact absurd rfl h2
  | _ => simp [retiredFlag, hgates, hhead]

end

/-! ### The failing test of a load -/

/-- R161, R165: the state that the test after a load gives a record. One FAILING under its new threshold whose action is
RETIRE goes on to RETIRED (log entry 32). -/
def loadTestedState (r : AttrRec) : AttrState :=
  if r.state = .failing ∧ r.action = .retire ∧ isFailing r = true then .retired else testedState r

theorem testThreshold_tested {l : LaneId} {k : AttrId} {e : ThresholdEntry} (hl : laneOfIndex e.lane = some l)
    (hk : attrOfCode e.id = some k) (s : State) :
    Tested l k (loadTestedState (attr l k s)) s (testThreshold e s) := by
  unfold testThreshold loadTestedState
  rw [hl, hk]
  dsimp only
  split
  next h => exact .inr ⟨by rw [h.1]; decide, retireRecord_taken l k s⟩
  · exact failingTest_tested l k s

/-- R161, R165: a record that is not RETIRED is, after the test of a load, RETIRED or FAILING below its threshold, as its
action says, and PASSING at or above it. -/
theorem loadTestedState_eq (r : AttrRec) : loadTestedState r = if r.state = .retired then .retired
    else if r.normalized < r.threshold then (if r.action = .retire then .retired else .failing) else .passing := by
  unfold loadTestedState testedState
  by_cases hf : r.normalized < r.threshold <;> cases hs : r.state <;> simp [isFailing, hf]

theorem action_of_loadTestedState {r : AttrRec} (h : loadTestedState r = .retired) (hs : r.state ≠ .retired) :
    r.action = .retire := by
  by_contra ha
  rw [loadTestedState_eq, if_neg hs, if_neg ha] at h
  split at h <;> cases h

/-! ### The hold reason HEALTH -/

/-- R162: HEALTH of both lanes follows their records. -/
def healthFollowed (s : State) : State := healthHold .lane1 (healthHold .lane0 s)

section
variable (s : State)

theorem healthFollowed_attrsKept : AttrsKept s (healthFollowed s) :=
  fun m b => (healthHold_attrsKept .lane1 _ m b).trans (healthHold_attrsKept .lane0 s m b)

theorem healthFollowed_flagsKept : FlagsKept s (healthFollowed s) :=
  (setHold_flagsKept .lane0 _ _ s).trans (setHold_flagsKept .lane1 _ _ _)

theorem healthFollowed_kept : RaisedKept s (healthFollowed s) :=
  (setHold_kept .lane0 _ _ s).trans (setHold_kept .lane1 _ _ _)

theorem healthFollowed_ordersKept : OrdersKept s (healthFollowed s) :=
  only_trans (healthHold_ordersKept .lane0 s) (healthHold_ordersKept .lane1 _)

/-- R162: HEALTH stands where a record of the lane has action HOLD and state FAILING. -/
theorem healthHold_iff (l : LaneId) : holdSet l .health (healthHold l s) = true ↔
    ∃ a, (attr l a s).action = .hold ∧ (attr l a s).state = .failing := by
  unfold healthHold
  rw [setHold_same]
  simp [mem_allAttrs]

theorem healthFollowed_iff (m : LaneId) : holdSet m .health (healthFollowed s) = true ↔
    ∃ a, (attr m a s).action = .hold ∧ (attr m a s).state = .failing := by
  cases m with
  | lane0 =>
    have hsame : holdSet .lane0 .health (healthFollowed s) = holdSet .lane0 .health (healthHold .lane0 s) :=
      holdSet_congr _ _ (congrArg Lsq.holds (setHold_lsq_other _ _ _ (by decide)))
    rw [hsame, healthHold_iff]
  | lane1 =>
    have hattr := healthHold_attrsKept .lane0 s
    unfold healthFollowed
    rw [healthHold_iff]
    simp only [hattr .lane1 _]

end

/-! ### The end of the order -/

section
variable (old : State) (st : BlockState) (code : ResultCode) (d : Option Nat) (u : State)

theorem attrs_finished : AttrsKept u (settle old (finishWith st code d [] u)) :=
  attrsKept_of_only (finished_only old st code d u) (by simp [eventEnd, orderParts])

theorem flags_finished : FlagsKept u (settle old (finishWith st code d [] u)) := by
  refine flagsKept_of_only (finished_only old st code d u) (by simp [eventEnd, orderParts])
    (by simp [eventEnd, orderParts]) (fun m => ?_)
  obtain ⟨n, h⟩ := lsq_finished m old st code d u
  rw [h]

end

/-! ### The load of one entry -/

/-- R165: the state before the failing test of a load of one entry. -/
def entryApplied (e : ThresholdEntry) (s : State) : State := lanesFreed (applyThreshold e s)

/-- R165: the state in which the order of a load of one entry ends. -/
def entryLoaded (e : ThresholdEntry) (s : State) : State := healthFollowed (testThreshold e (entryApplied e s))

/-- The state after the event of a load of one entry. -/
def entrySettled (e : ThresholdEntry) (s : State) : State :=
  settle s (finishWith .done .ok none [] (entryLoaded e s))

section
variable {l : LaneId} {k : AttrId} {e : ThresholdEntry} {s : State}

/-- After its test a load changes neither a record nor a flag. -/
theorem entrySettled_attrsKept : AttrsKept (testThreshold e (entryApplied e s)) (entrySettled e s) :=
  fun m b => (attrs_finished s .done .ok none _ m b).trans (healthFollowed_attrsKept _ m b)

theorem entrySettled_flagsKept : FlagsKept (testThreshold e (entryApplied e s)) (entrySettled e s) :=
  (healthFollowed_flagsKept _).trans (flags_finished s .done .ok none _)

theorem entrySettled_holdSet (m : LaneId) : holdSet m .health (entrySettled e s) = true ↔
    ∃ a, (attr m a (entrySettled e s)).action = .hold ∧ (attr m a (entrySettled e s)).state = .failing := by
  simp only [entrySettled_attrsKept m _]
  exact (Bool.eq_iff_iff.mp (holdSet_finished m s .done .ok none (entryLoaded e s) .health)).trans
    (healthFollowed_iff _ m)

theorem entrySettled_reported {a : Attn} (h : raisedIn a (testThreshold e (entryApplied e s))) :
    reported a (entrySettled e s) := reported_finished s .done .ok none (healthFollowed_kept _ a h)

section
variable (hl : laneOfIndex e.lane = some l) (hk : attrOfCode e.id = some k)
include hl hk

theorem entryApplied_recorded : Recorded l k (loadedRecord e (attr l k s)) s (entryApplied e s) :=
  (applyThreshold_recorded hl hk).kept (lanesFreed_attrsKept _)

theorem entryApplied_tested : Tested l k (loadTestedState (loadedRecord e (attr l k s))) (entryApplied e s)
    (testThreshold e (entryApplied e s)) := by
  have h := testThreshold_tested hl hk (entryApplied e s)
  rw [(entryApplied_recorded hl hk).1] at h
  exact h

theorem applyThreshold_lsq : (applyThreshold e s).lsq.get l = s.lsq.get l :=
  lsq_of_only l (applyThreshold_leaves hl hk) (by simp) (by simp)

/-- R161, R165: the record after a load, and every other one. -/
theorem entrySettled_recorded : Recorded l k
    { loadedRecord e (attr l k s) with state := loadTestedState (loadedRecord e (attr l k s)) } s
    (entrySettled e s) := by
  have happlied := entryApplied_recorded (s := s) hl hk
  have htested := (entryApplied_tested (s := s) hl hk).recorded
  rw [happlied.1] at htested
  exact (happlied.trans htested).kept entrySettled_attrsKept

/-- R161, R165: the state of the record after a load. -/
theorem entrySettled_state (hact : e.action ≤ 2) : (attr l k (entrySettled e s)).state =
    if e.restore ≠ 1 ∧ (attr l k s).state = .retired then .retired
    else if (attr l k (entrySettled e s)).normalized < e.threshold then
      (if e.action = 2 then .retired else .failing)
    else .passing := by
  have hretired : (loadedRecord e (attr l k s)).state = .retired ↔ e.restore ≠ 1 ∧ (attr l k s).state = .retired := by
    rw [loadedRecord_state]
    by_cases hr : e.restore = 1 <;> simp [hr]
  rw [(entrySettled_recorded hl hk).1]
  dsimp only
  rw [loadTestedState_eq, loadedRecord_threshold, loadedRecord_action]
  simp only [attrActionOf_retire hact, hretired]

/-- R161, R165: each change of a record's state by a load raises HEALTH, the restore or the test. -/
theorem entrySettled_health (h : (attr l k (entrySettled e s)).state ≠ (attr l k s).state) :
    reported .health (entrySettled e s) := by
  have htested := entryApplied_tested (s := s) hl hk
  rw [(entrySettled_recorded hl hk).1] at h
  refine entrySettled_reported ?_
  by_cases hr : e.restore = 1 ∧ (attr l k s).state ≠ .passing
  · have hraised : RaisedKept (applyThreshold e s) (entryApplied e s) :=
      raisedKept_of_only (lanesFreed_leaves _) (by simp)
    exact htested.kept _ (hraised _ (applyThreshold_health hl hk hr.1 hr.2))
  · have hsame : (loadedRecord e (attr l k s)).state = (attr l k s).state := by
      rw [loadedRecord_state]
      split
      next h1 => exact (not_not.mp fun hne => hr ⟨h1, hne⟩).symm
      · rfl
    refine htested.health ?_
    rw [(entryApplied_recorded hl hk).1, hsame]
    exact h

/-- R163: the element of a record that the load retires has its flag set. -/
theorem entrySettled_retired (hact : attrActionOf e.action = .retire → isPrefail k = true)
    (ht : (attr l k (entrySettled e s)).state = .retired)
    (hs : (attr l k s).state ≠ .retired ∨ e.restore = 1) : retiredFlag l k (entrySettled e s) = some true := by
  rw [(entrySettled_recorded hl hk).1] at ht
  have hloaded : (loadedRecord e (attr l k s)).state ≠ .retired := by
    rw [loadedRecord_state]
    split
    · decide
    next h1 => exact hs.resolve_right h1
  have hretire := action_of_loadTestedState ht hloaded
  rw [loadedRecord_action] at hretire
  rw [entrySettled_flagsKept]
  exact (entryApplied_tested hl hk).retired ht (by rw [(entryApplied_recorded hl hk).1]; exact hloaded) (hact hretire)

/-- Where the load leaves the record in another state than RETIRED, its test leaves the flags. -/
theorem entrySettled_flag (ht : (attr l k (entrySettled e s)).state ≠ .retired) :
    retiredFlag l k (entrySettled e s) = retiredFlag l k (entryApplied e s) := by
  rw [(entrySettled_recorded hl hk).1] at ht
  exact (entrySettled_flagsKept l k).trans ((entryApplied_tested hl hk).flags ht l k)

/-- A load of a RETIRED record that leaves it in another state has restored it. -/
theorem restores_of_entrySettled (hs : (attr l k s).state = .retired)
    (ht : (attr l k (entrySettled e s)).state ≠ .retired) : e.restore = 1 := by
  rw [(entrySettled_recorded hl hk).1] at ht
  refine restores_of_loadedRecord e _ hs (fun h => ht ?_)
  rw [loadTestedState_eq, if_pos h]

/-- R165: an order whose load retires no lane with a pending order has ended. -/
theorem entrySettled_ended {b : OrderBlock} (hb : s.ocu.current = some b)
    (hw : allowed .orderStateWrite (b.addr + 12) 8 s = true)
    (h : e.action ≤ 1 ∨ (s.lsq.get l).pendingOrder = none) : Ended b .done .ok none s.mem s (entrySettled e s) := by
  have happlied : OrdersKept s (entryApplied e s) :=
    only_trans (only_mono (applyThreshold_leaves hl hk) (fun p hp => by
      simp only [List.mem_cons, List.not_mem_nil, or_false] at hp
      rcases hp with rfl | rfl | rfl | rfl <;> simp))
      (only_mono (lanesFreed_leaves _) (by rintro p ⟨m, rfl | rfl⟩ <;> simp))
  have htested := (entryApplied_tested (s := s) hl hk).orders (fun hst hne => ?_)
  · exact ended_of_kept .done .ok (only_trans (only_trans happlied htested) (healthFollowed_ordersKept _)) hb hw
  · rw [(entryApplied_recorded hl hk).1] at hne
    have hretire := action_of_loadTestedState hst hne
    rw [loadedRecord_action, attrActionOf_eq] at hretire
    unfold entryApplied
    rw [lanesFreed_pendingOrder, applyThreshold_lsq hl hk]
    refine h.resolve_left (fun hle => ?_)
    rcases Nat.le_one_iff_eq_zero_or_eq_one.mp hle with h0 | h0 <;> simp [h0] at hretire

/-- The retired flag of a lane after a restore that leaves the measure in another state than RETIRED (R139). -/
theorem entrySettled_laneFlag (hlane : k = .lampReserve ∨ k = .tracking)
    (ht : (attr l k (entrySettled e s)).state ≠ .retired) :
    retiredFlag l k (entrySettled e s) = some ((freeLane l (applyThreshold e s)).lsq.get l).retired := by
  rw [entrySettled_flag hl hk ht, ← lanesFreed_lsq]
  rcases hlane with rfl | rfl <;> rfl

/-- R139, R165: with one of a lane's two measures restored, the other one alone holds the lane retired. -/
theorem heldRetired_restored {j : AttrId} (hr : e.restore = 1)
    (hj : (k = .lampReserve ∧ j = .tracking) ∨ (k = .tracking ∧ j = .lampReserve)) :
    heldRetired l (applyThreshold e s) ↔ (attr l j s).state = .retired := by
  obtain ⟨hself, hothers⟩ := applyThreshold_recorded (s := s) hl hk
  have hpassing : (attr l k (applyThreshold e s)).state ≠ .retired := by
    rw [hself, loadedRecord_state, if_pos hr]
    decide
  have hother : attr l j (applyThreshold e s) = attr l j s :=
    hothers l j (.inr (by rcases hj with ⟨rfl, rfl⟩ | ⟨rfl, rfl⟩ <;> decide))
  unfold heldRetired
  rcases hj with ⟨rfl, rfl⟩ | ⟨rfl, rfl⟩
  · rw [hother]
    exact or_iff_right hpassing
  · rw [hother]
    exact or_iff_left hpassing

/-- R165: the lane of a restored measure is no longer retired where its other measure is not RETIRED. -/
theorem entrySettled_laneFreed {j : AttrId}
    (hj : (k = .lampReserve ∧ j = .tracking) ∨ (k = .tracking ∧ j = .lampReserve))
    (hs : (attr l k s).state = .retired) (ht : (attr l k (entrySettled e s)).state ≠ .retired)
    (ho : (attr l j s).state ≠ .retired) : retiredFlag l k (entrySettled e s) = some false := by
  have hheld := heldRetired_restored (s := s) hl hk (restores_of_entrySettled hl hk hs ht) hj
  rw [entrySettled_laneFlag hl hk (hj.imp And.left And.left) ht, freeLane_free (mt hheld.mp ho)]
  simp

/-- R165: the lane of a restored measure keeps its flag where its other measure is RETIRED. -/
theorem entrySettled_laneHeld {j : AttrId}
    (hj : (k = .lampReserve ∧ j = .tracking) ∨ (k = .tracking ∧ j = .lampReserve))
    (hs : (attr l k s).state = .retired) (ht : (attr l k (entrySettled e s)).state ≠ .retired)
    (ho : (attr l j s).state = .retired) : retiredFlag l k (entrySettled e s) = retiredFlag l k s := by
  have hheld := heldRetired_restored (s := s) hl hk (restores_of_entrySettled hl hk hs ht) hj
  rw [entrySettled_laneFlag hl hk (hj.imp And.left And.left) ht, freeLane_held (hheld.mpr ho), applyThreshold_lsq hl hk]
  rcases hj with ⟨rfl, -⟩ | ⟨rfl, -⟩ <;> rfl

/-- R165: the element of a restored measure is no longer retired; a lane only when its other measure is not RETIRED. -/
theorem entrySettled_freed (hs : (attr l k s).state = .retired)
    (ht : (attr l k (entrySettled e s)).state ≠ .retired) (hp : isPrefail k = true)
    (h1 : k = .lampReserve → (attr l .tracking s).state ≠ .retired)
    (h2 : k = .tracking → (attr l .lampReserve s).state ≠ .retired) :
    retiredFlag l k (entrySettled e s) = some false := by
  by_cases hlamp : k = .lampReserve
  · exact entrySettled_laneFreed hl hk (.inl ⟨hlamp, rfl⟩) hs ht (h1 hlamp)
  by_cases htrack : k = .tracking
  · exact entrySettled_laneFreed hl hk (.inr ⟨htrack, rfl⟩) hs ht (h2 htrack)
  · have hr := restores_of_entrySettled hl hk hs ht
    rw [entrySettled_flag hl hk ht, ← applyThreshold_flag hl hk hr hs hp hlamp htrack]
    exact lanesFreed_flag hlamp htrack

end

end

/-! ### The order -/

/-- Fields with no first bad one are all good. -/
theorem good_of_firstBad_none {fs : List (Nat × Bool)} (h : firstBad fs = none) {f : Nat × Bool} (hf : f ∈ fs) :
    f.2 = true := by
  simp only [firstBad, Option.map_eq_none_iff, List.find?_eq_none] at h
  simpa using h f hf

/-- R164: the action field of a good image of one entry. -/
theorem action_of_thresholdImage {b : List Byte} {k : AttrId} (h : firstBad (thresholdImageFields b 1) = none)
    (hk : attrOfCode (thresholdAt b 0).id = some k) :
    (thresholdAt b 0).action ≤ 2 ∧ ((thresholdAt b 0).action = 2 → isPrefail k = true) := by
  have hfield := good_of_firstBad_none h (f := (4, inRange 0 2 (thresholdAt b 0).action &&
    !((thresholdAt b 0).action == 2 && advisory (thresholdAt b 0).id))) (by
      simp [thresholdImageFields, thresholdFields])
  simpa [inRange, advisory, hk, imp_iff_not_or] using hfield

section
variable {b : OrderBlock} {s : State} {a : Nat}

theorem loadThresholds_of (h : Taken b (.loadThresholds a) s) :
    exec .loadThresholds s = .next (settle s (loadThresholds a s)) := by
  have he : exec .loadThresholds s = execLoadThresholds s := rfl
  rw [he]
  unfold execLoadThresholds
  rw [currentBody_of_taken h]
  rfl

/-- R164, R165: an order with a good image of one entry is its load and then the end of the order. -/
theorem loadThresholds_accepts (h4 : allowed .tableRead a 4 s = true) (h20 : allowed .tableRead a 20 s = true)
    (hn : field (readBytes a 4 s) 0 1 = 1) (hk : checksumOk (readBytes a 20 s) = true)
    (hf : firstBad (thresholdImageFields (readBytes a 20 s) 1) = none) : loadThresholds a s =
      finishWith .done .ok none [] (entryLoaded (thresholdAt (readBytes a 20 s) 0) s) := by
  unfold loadThresholds
  rw [tableRead_allowed h4]
  dsimp only
  rw [hn, tableRead_allowed h20]
  dsimp only
  rw [hk, hf]
  rfl

end

end Sys2Proof.Machine

open Sys2Proof Sys2Proof.Machine

/-- Settles O58: an accepted load of one entry is `entrySettled`, and an evaluation is the failing test of the record with
its new value. -/
theorem healthRecords : Obligations.HealthRecords := by
  refine ⟨fun b s a e l k h hw h4 h20 hn hsum hf he hl hk => ?_, fun l a raw normal s => ?_⟩
  · have hexec : exec .loadThresholds s = .next (entrySettled e s) := by
      rw [loadThresholds_of h, loadThresholds_accepts h4 h20 hn hsum hf, he]
      rfl
    obtain ⟨hrange, hprefail⟩ := action_of_thresholdImage hf (by rw [he]; exact hk)
    rw [he] at hrange hprefail
    obtain ⟨hself, hothers⟩ := entrySettled_recorded (s := s) hl hk
    refine ⟨entrySettled e s, none, hexec, entrySettled_ended hl hk h.1 hw, finished_current s _ _ _ _, ?_, ?_, ?_, ?_,
      ?_, entrySettled_state hl hk hrange, entrySettled_health hl hk, entrySettled_holdSet, fun ht hs => ?_,
      fun hs ht hp => ⟨entrySettled_freed hl hk hs ht hp, ?_⟩, hothers⟩
    · rw [hself]; exact loadedRecord_threshold e _
    · rw [hself]; exact (loadedRecord_action e _).trans (attrActionOf_eq _)
    · rw [hself]; exact loadedRecord_normalized e _
    · rw [hself]; exact loadedRecord_worst e _
    · rw [hself]; exact loadedRecord_raw e _
    · refine entrySettled_retired hl hk (fun ha => hprefail ?_) ht hs
      exact (attrActionOf_retire hrange).mp ha
    · rintro (⟨hlamp, ho⟩ | ⟨htrack, ho⟩)
      · exact entrySettled_laneHeld hl hk (.inl ⟨hlamp, rfl⟩) hs ht ho
      · exact entrySettled_laneHeld hl hk (.inr ⟨htrack, rfl⟩) hs ht ho
  · rw [← clampNormal_eq]
    refine ⟨?_, ?_, ?_, fun hs => ?_, fun ha hs => ?_, fun ha hs hn => ?_⟩
    · rw [evaluate_attr]; rfl
    · rw [evaluate_attr]; rfl
    · rw [evaluate_attr]; rfl
    · rw [evaluate_attr]; exact testedState_retired hs
    · rw [evaluate_attr]; exact testedState_of_not_retire ha hs
    · obtain ⟨hstate, hflag⟩ := evaluate_retires (raw := raw) ha hs hn
      refine ⟨hstate, ?_, ?_, ?_, ?_, ?_⟩
      · rintro (rfl | rfl) <;> exact Option.some.inj (hflag rfl)
      all_goals
        rintro rfl
        exact Option.some.inj (hflag rfl)
end
-- ==== Sys2Proof/Proofs/EventEnds.lean ====
section
/-! What the end of an event makes of the status unit, ATTN and the messages (R177, R178, R186), and the state after a
device reset (R175). -/

namespace Sys2Proof.Machine

section
variable (old s : State)

/-! ### The status write that is due, and the reasons -/

/-- R177, R186: whether a status write is due once an event has changed the contents to those of `s`. -/
def dueAfter (old s : State) : Bool := statusActive s && (s.stat.due || statusContents s != statusContents old)

/-- R177: the status unit at the end of an event: the reasons raised wait with those waiting while a write is due. -/
def statAfter (old s : State) : StatusUnit :=
  { s.stat with due := dueAfter old s, waiting := if dueAfter old s then s.stat.waiting ||| s.raised else 0 }

/-- R177: the registers at the end of an event, a message apart: with no write due the reasons are set in ATTN. -/
def pifAfter (old s : State) : Pif :=
  { s.pif with attn := if dueAfter old s then s.pif.attn else s.pif.attn ||| s.stat.waiting ||| s.raised }

theorem settleStatus_eq : settleStatus old s =
    { s with stat := statAfter old s, pif := pifAfter old s, raised := 0 } := by
  unfold statAfter pifAfter
  cases h : dueAfter old s with
  | true => exact if_pos h
  | false => exact if_neg (ne_true_of_eq_false h)

theorem settleIdle_kept (l : LaneId) : (settleIdle l s).stat = s.stat ∧ (settleIdle l s).pif = s.pif ∧
    statAfter old (settleIdle l s) = statAfter old s ∧ pifAfter old (settleIdle l s) = pifAfter old s := by
  rcases settleIdle_or l s with h | h
  · rw [h]
    exact ⟨rfl, rfl, rfl, rfl⟩
  · rw [h]
    cases l <;> exact ⟨rfl, rfl, rfl, rfl⟩

/-- An event's end up to the message. -/
def beforeMsi (old s : State) : State := settleStatus old (settleIdle .lane1 (settleIdle .lane0 s))

theorem beforeMsi_stat : (beforeMsi old s).stat = statAfter old s := by
  obtain ⟨-, -, h0, -⟩ := settleIdle_kept old s .lane0
  obtain ⟨-, -, h1, -⟩ := settleIdle_kept old (settleIdle .lane0 s) .lane1
  unfold beforeMsi
  rw [settleStatus_eq, ← h0, ← h1]

theorem beforeMsi_pif : (beforeMsi old s).pif = pifAfter old s := by
  obtain ⟨-, -, -, h0⟩ := settleIdle_kept old s .lane0
  obtain ⟨-, -, -, h1⟩ := settleIdle_kept old (settleIdle .lane0 s) .lane1
  unfold beforeMsi
  rw [settleStatus_eq, ← h0, ← h1]

theorem settle_stat : (settle old s).stat = statAfter old s := by
  have h : (settleMsi old (beforeMsi old s)).stat = (beforeMsi old s).stat := by
    unfold settleMsi
    split <;> rfl
  exact h.trans (beforeMsi_stat old s)

theorem settle_due : (settle old s).stat.due = dueAfter old s := by rw [settle_stat]; rfl

theorem settle_waiting :
    (settle old s).stat.waiting = if dueAfter old s then s.stat.waiting ||| s.raised else 0 := by
  rw [settle_stat]; rfl

theorem settle_attn : (settle old s).pif.attn =
    if dueAfter old s then s.pif.attn else s.pif.attn ||| s.stat.waiting ||| s.raised := by
  have h : (settleMsi old (beforeMsi old s)).pif.attn = (beforeMsi old s).pif.attn := by
    unfold settleMsi
    split <;> rfl
  exact h.trans (by rw [beforeMsi_pif]; rfl)

/-- With no reason raised or waiting the end of an event leaves ATTN. -/
theorem settle_attn_none {s : State} (hw : s.stat.waiting = 0) (hr : s.raised = 0) :
    (settle old s).pif.attn = s.pif.attn := by
  rw [settle_attn, hw, hr]
  split <;> simp

/-! ### Messages -/

/-- R178: an event that ends in `s` brings up a line of the interrupt, and a message is to be sent for it. -/
def sends (old s : State) : Prop := irqLines s &&& ~~~(irqLines old) ≠ 0 ∧ s.pif.msiEnable = true

theorem sends_settle : sends old (settle old s) ↔ sends old (beforeMsi old s) := by
  have hlines : irqLines (settleMsi old (beforeMsi old s)) = irqLines (beforeMsi old s) := by
    unfold settleMsi
    split <;> rfl
  have henable : (settleMsi old (beforeMsi old s)).pif.msiEnable = (beforeMsi old s).pif.msiEnable := by
    unfold settleMsi
    split <;> rfl
  show irqLines (settleMsi old (beforeMsi old s)) &&& _ ≠ 0 ∧ (settleMsi old (beforeMsi old s)).pif.msiEnable = true ↔ _
  rw [hlines, henable]
  rfl

variable {old s}

/-- R178: such an event sends one message. -/
theorem settle_pif_sends (h : sends old (settle old s)) : (settle old s).pif =
    { pifAfter old s with msiSent := s.pif.msiSent + 1, msiLast := some (s.pif.msiAddress, s.pif.msiData) } := by
  have hm : settleMsi old (beforeMsi old s) = { beforeMsi old s with pif := { (beforeMsi old s).pif with
      msiSent := (beforeMsi old s).pif.msiSent + 1,
      msiLast := some ((beforeMsi old s).pif.msiAddress, (beforeMsi old s).pif.msiData) } } :=
    if_pos ((sends_settle old s).mp h)
  have hs : settle old s = settleMsi old (beforeMsi old s) := rfl
  rw [hs, hm, beforeMsi_pif]
  rfl

/-- R178: any other event sends none. -/
theorem settle_pif_silent (h : ¬ sends old (settle old s)) : (settle old s).pif = pifAfter old s := by
  have hm : settleMsi old (beforeMsi old s) = beforeMsi old s := if_neg (fun hc => h ((sends_settle old s).mpr hc))
  have hs : settle old s = settleMsi old (beforeMsi old s) := rfl
  rw [hs, hm, beforeMsi_pif]

end

/-! ### A device reset -/

/-- With status writing off and IRQ_ENABLE 0 the end of a device reset changes nothing more. -/
theorem deviceReset_settled (s : State) : settle s (deviceReset s) = deviceReset s := by
  have hidle : ∀ l, settleIdle l (deviceReset s) = deviceReset s := fun l => by cases l <;> rfl
  have hdue : dueAfter s (deviceReset s) = false := rfl
  have hstatus : settleStatus s (deviceReset s) = deviceReset s := by
    rw [settleStatus_eq]
    unfold statAfter pifAfter
    rw [hdue]
    simp [deviceReset, State.reset, StatusUnit.reset, Pif.reset]
  have hmsi : settleMsi s (deviceReset s) = deviceReset s :=
    if_neg (fun h => h.1 (BitVec.zero_and (x := ~~~(irqLines s))))
  unfold settle
  rw [hidle, hidle, hstatus, hmsi]

theorem reset_safe : State.reset.safe := ⟨rfl, fun l => by cases l <;> rfl, rfl⟩

theorem reset_conserved (l : LaneId) : conserved l State.reset := by
  cases l <;> exact Or.inr (by rfl)

theorem vget_replicate {α : Type} {n : Nat} (x : α) (i : Fin n) : vget (Vector.replicate n x) i = x := by
  simp [vget]

theorem reset_channel (l : LaneId) (g : Gate) : channel l g State.reset = Channel.reset := by
  cases l <;> exact vget_replicate _ _

theorem reset_head (l : LaneId) (h : Side) : head l h State.reset = Head.reset := by
  cases l <;> cases h <;> rfl

theorem reset_pocketRec (l : LaneId) (p : Pocket) : ∃ n, pocketRec l p State.reset = PocketRec.reset n := by
  cases l <;> cases p <;> exact ⟨_, rfl⟩

theorem reset_holdSet (l : LaneId) (r : HoldReason) : holdSet l r State.reset = false := by
  cases l <;> exact vget_replicate _ _

end Sys2Proof.Machine

open Sys2Proof Sys2Proof.Machine

/-- Settles O8: the blocks of `State.reset` one by one, and a device reset with the end of its event. -/
theorem whatADeviceResetLeaves : Obligations.WhatADeviceResetLeaves := by
  refine ⟨⟨reset_safe, fun l => by cases l <;> rfl, rfl⟩, fun l => ?_, fun s => ?_⟩
  · refine ⟨?_, ?_, ?_, fun h => ?jams, ?_, ?_, ?_, ?_, ?_, fun g => ?channel, ?_, ?_, fun h => ?head, fun p => ?pocket,
      ?_, reset_conserved l, ?_, ?_, reset_holdSet l, ?_, ?_, rfl, rfl, rfl, rfl, rfl, rfl, rfl, rfl, rfl, rfl, rfl,
      rfl, rfl, rfl, rfl⟩
    case jams => cases l <;> cases h <;> exact ⟨rfl, rfl⟩
    case channel => rw [reset_channel]; exact ⟨rfl, rfl, rfl, rfl⟩
    case head => rw [reset_head]; exact ⟨rfl, rfl, rfl, rfl, rfl, rfl, rfl⟩
    case pocket =>
      obtain ⟨n, hn⟩ := reset_pocketRec l p
      rw [hn]
      exact ⟨rfl, rfl, rfl⟩
    all_goals cases l <;> rfl
  · have hreset : exec .reset s = .next (settle s (deviceReset s)) := rfl
    have hdevice : exec .deviceReset s = .next (settle s (deviceReset s)) := rfl
    rw [deviceReset_settled] at hreset hdevice
    exact ⟨deviceReset s, hdevice, hreset, rfl⟩
end

