-- ==== Sys2Proof/Proofs/RegisterPage.lean ====
section
/-! The register page (R175 to R178, R193): the bytes a read returns, the writes of the chain position, and which
register events send a message. -/

namespace Sys2Proof.Machine

/-! ### Reads -/

/-- R193: the bits of the bytes that a read asks for. -/
theorem selectBytes_bit (b : ByteSel) (v : BitVec 32) (i : Nat) :
    (selectBytes b v).getLsbD i = (v.getLsbD (8 * b.first + i) && decide (i < 8 * b.count)) := by
  have hhigh : ¬ i < 32 → v.getLsbD (8 * b.first + i) = false := fun h => BitVec.getLsbD_of_ge _ _ (by omega)
  unfold selectBytes
  rw [BitVec.getLsbD_and, BitVec.getLsbD_ushiftRight, BitVec.getLsbD_ofNat, Nat.testBit_two_pow_sub_one]
  by_cases h : i < 32
  · simp [h]
  · simp [h, hhigh h]

theorem selectBytes_inside {b : ByteSel} (v : BitVec 32) {i : Nat} (h : i < 8 * b.count) :
    (selectBytes b v).getLsbD i = v.getLsbD (8 * b.first + i) := by
  simp [selectBytes_bit, h]

theorem selectBytes_outside {b : ByteSel} (v : BitVec 32) {i : Nat} (h : 8 * b.count ≤ i) :
    (selectBytes b v).getLsbD i = false := by
  have hi : ¬ i < 8 * b.count := by omega
  simp [selectBytes_bit, hi]

/-- A read of the whole word returns it. -/
theorem selectBytes_whole (v : BitVec 32) : selectBytes ⟨0, 4⟩ v = v := by
  refine BitVec.eq_of_getLsbD_eq fun i hi => ?_
  rw [selectBytes_inside (b := ⟨0, 4⟩) v hi]
  simp

theorem registerWord_none (s : State) {o : Nat} (h : o ∉ [0x0, 0x4, 0x8, 0xC, 0x10]) : registerWord o s = 0 := by
  unfold registerWord
  split
  case h_6 => rfl
  all_goals exact absurd (by decide) h

theorem ctrlWord_bits (s : State) : (ctrlWord s).getLsbD 0 = s.pif.runChain ∧
    (ctrlWord s).getLsbD 1 = s.pif.irqEnable ∧ ∀ i, 2 ≤ i → (ctrlWord s).getLsbD i = false := by
  have hlow : ∀ b c : Bool, (BitVec.ofNat 32 (flagAt b 0 + flagAt c 1)).getLsbD 0 = b ∧
      (BitVec.ofNat 32 (flagAt b 0 + flagAt c 1)).getLsbD 1 = c := by decide
  have hsmall : flagAt s.pif.runChain 0 + flagAt s.pif.irqEnable 1 < 2 ^ 2 := by
    cases s.pif.runChain <;> cases s.pif.irqEnable <;> decide
  refine ⟨(hlow _ _).1, (hlow _ _).2, fun i hi => ?_⟩
  have hbit := Nat.testBit_lt_two_pow (hsmall.trans_le (Nat.pow_le_pow_right (by decide) hi))
  unfold ctrlWord
  rw [BitVec.getLsbD_ofNat, hbit, Bool.and_false]

/-- R193: a read of the low half latches the high half. -/
theorem exec_chainLoRead {b : ByteSel} (s : State) (hb : b.ok = true) : exec (.chainLoRead b) s = .next (settle s
    (updPif (fun p => { p with readData := registerRead 0x8 b s, latch := some (chainHigh s.ocu.position) }) s)) :=
  eventWithin_ok _ s hb

/-- R193: a read of the high half takes the latched half. -/
theorem exec_chainHiRead {b : ByteSel} (s : State) (hb : b.ok = true) : exec (.chainHiRead b) s = .next (settle s
    (updPif (fun p => { p with readData := registerRead 0xC b s, latch := none }) s)) :=
  eventWithin_ok _ s hb

/-! ### Writes of the chain position -/

section
variable (p : BitVec 64 → BitVec 64) {s : State}

/-- R176: a write to a half of the chain position takes effect while the chain is stopped. -/
theorem writeChain_stopped (hr : s.pif.runChain = false) (hc : s.ocu.current = none) :
    writeChain p s = { s with pif := { s.pif with latch := none },
                              ocu := { s.ocu with position := p s.ocu.position, phase := .take } } :=
  if_pos (by simp [chainStopped, hr, hc])

/-- R176: it is ignored while the chain runs or a short order is in progress. -/
theorem writeChain_ignored (h : s.pif.runChain = true ∨ s.ocu.current.isSome = true) :
    writeChain p s = { s with pif := { s.pif with latch := none } } := by
  refine if_neg ?_
  rcases h with h | h
  · simp [chainStopped, h]
  · simp [chainStopped, Option.isNone_eq_false_iff.mpr h]

theorem writeChain_latch (s : State) : (writeChain p s).pif.latch = none := by
  unfold writeChain
  dsimp only
  split <;> rfl

end

/-! ### Messages of a register event -/

/-- R178: an event that leaves no line up but those that were up sends no message. -/
theorem settle_msiSent_none {old s : State} (h : irqLines (settle old s) &&& ~~~(irqLines old) = 0) :
    (settle old s).pif.msiSent = s.pif.msiSent := by
  rw [settle_pif_silent (fun hc => hc.1 h)]
  rfl

theorem and_not_self_mask (a v m : BitVec 10) : a &&& ~~~v &&& m &&& ~~~(a &&& m) = 0#10 := by
  ext i hi
  simp
  grind

section
variable {s : State} (hr : s.raised = 0) (hw : s.stat.waiting = 0)
include hr hw

/-- With no reason raised or waiting, the end of an event that changed ATTN, IRQ_ENABLE or neither brings up the lines
that the two let through. -/
theorem irqLines_settle_registers (f : Pif → Pif) : irqLines (settle s (updPif f s)) =
    if (f s.pif).irqEnable then (f s.pif).attn &&& (f s.pif).mask else 0 := by
  unfold irqLines
  rw [settle_pif_irqEnable, settle_pif_mask, settle_attn_none (s := updPif f s) s hw hr]
  rfl

/-- R178: IRQ_ENABLE set sends one message when a masked flag is set. -/
theorem irqEnable_effect (he : s.pif.irqEnable = false) : ∃ t, exec .irqEnable s = .next t ∧
    t.pif.irqEnable = true ∧ t.pif.attn = s.pif.attn ∧ t.pif.runChain = s.pif.runChain ∧
    (s.pif.msiEnable = true → s.pif.attn &&& s.pif.mask ≠ 0 → t.pif.msiSent = s.pif.msiSent + 1 ∧
      t.pif.msiLast = some (s.pif.msiAddress, s.pif.msiData)) := by
  refine ⟨_, event_of _ s (by simp [he]), by simp [updPif], settle_attn_none _ hw hr, by simp [updPif],
    fun hm hflag => ?_⟩
  have hlines := irqLines_settle_registers hr hw (fun p => { p with irqEnable := true })
  have hsends : sends s (settle s (updPif (fun p => { p with irqEnable := true }) s)) := by
    refine ⟨?_, by simpa [updPif] using hm⟩
    have hnone : irqLines s = 0#10 := if_neg (ne_true_of_eq_false he)
    rw [hlines, hnone, BitVec.not_zero, BitVec.and_allOnes]
    exact hflag
  rw [settle_pif_sends hsends]
  exact ⟨rfl, rfl⟩

/-- R178: IRQ_ENABLE cleared sends none. -/
theorem irqDisable_effect (he : s.pif.irqEnable = true) : ∃ t, exec .irqDisable s = .next t ∧
    t.pif.irqEnable = false ∧ t.pif.attn = s.pif.attn ∧ t.pif.msiSent = s.pif.msiSent := by
  have hlines := irqLines_settle_registers hr hw (fun p => { p with irqEnable := false })
  refine ⟨_, event_of _ s he, by simp [updPif], settle_attn_none _ hw hr, settle_msiSent_none ?_⟩
  rw [hlines]
  simp

/-- R177: ATTN written clears the flags written 1, and sends no message. -/
theorem attnWrite_effect (v : BitVec 32) : ∃ t, exec (.attnWrite v) s = .next t ∧
    t.pif.attn = s.pif.attn &&& ~~~(v.setWidth 10) ∧ t.pif.msiSent = s.pif.msiSent ∧ t.ocu = s.ocu := by
  have hlines := irqLines_settle_registers hr hw (fun p => { p with attn := p.attn &&& ~~~(v.setWidth 10) })
  refine ⟨_, event_comes s, settle_attn_none _ hw hr, settle_msiSent_none ?_, by simp [updPif]⟩
  rw [hlines]
  unfold irqLines
  cases s.pif.irqEnable
  · simp
  · exact and_not_self_mask _ _ _

/-- R175, R193: an ignored write leaves the registers. -/
theorem registerWriteIgnored_effect {o w : Nat} (v : BitVec 32) (h : ignoredWrite o w = true) :
    ∃ t, exec (.registerWriteIgnored o w v) s = .next t ∧ t.pif = s.pif ∧ t.ocu = s.ocu ∧ t.mem = s.mem := by
  have hattn : (settle s s).pif.attn = s.pif.attn := settle_attn_none _ hw hr
  have hlines : irqLines (settle s s) = irqLines s := by simp [irqLines, hattn]
  have hsilent : ¬ sends s (settle s s) := fun hc => hc.1 (by rw [hlines]; simp)
  refine ⟨settle s s, (eventWithin_ok _ s h).trans (event_comes s), ?_, settle_ocu _ _, settle_mem _ _⟩
  rw [settle_pif_silent hsilent] at hattn ⊢
  show { s.pif with attn := (pifAfter s s).attn } = s.pif
  rw [hattn]

end

end Sys2Proof.Machine

open Sys2Proof Sys2Proof.Machine

/-- Settles O54: the chain position from `writeChain`, narrow reads from the bits of `selectBytes`, the messages from
the lines that the end of a register event brings up. -/
theorem registerReadsAndWrites : Obligations.RegisterReadsAndWrites := by
  refine ⟨fun v s => ⟨?lo, ?hi, ?readLo, ?readHi⟩, fun b s hb => ?narrow, fun o b s _ => ?bytes, fun s => ?words,
    fun s hr hw => ⟨irqEnable_effect hr hw, irqDisable_effect hr hw, attnWrite_effect hr hw,
      fun _ _ v h => registerWriteIgnored_effect hr hw v h⟩⟩
  case lo =>
    refine ⟨_, event_comes s, by simp [writeChain_latch], fun hrun hcur => ?_, fun h => ?_⟩
    · rw [writeChain_stopped _ hrun hcur, settle_ocu]; rfl
    · rw [writeChain_ignored _ h, settle_ocu]
  case hi =>
    refine ⟨_, event_comes s, by simp [writeChain_latch], fun hrun hcur => ?_, fun h => ?_⟩
    · rw [writeChain_stopped _ hrun hcur, settle_ocu]; rfl
    · rw [writeChain_ignored _ h, settle_ocu]
  case readLo =>
    refine ⟨_, exec_chainLoRead s (by decide), ?_, by simp [updPif, chainHigh], by simp [updPif]⟩
    rw [settle_pif_readData]
    exact selectBytes_whole _
  case readHi =>
    refine ⟨_, exec_chainHiRead s (by decide), ?_, by simp [updPif], by simp [updPif]⟩
    rw [settle_pif_readData]
    exact selectBytes_whole _
  case narrow =>
    refine ⟨_, _, exec_chainLoRead s hb, exec_chainHiRead s hb, fun i hi => ?_, fun i hi => ?_⟩ <;>
      rw [settle_pif_readData, settle_pif_readData]
    · exact ⟨selectBytes_inside _ hi, selectBytes_inside _ hi⟩
    · exact ⟨selectBytes_outside _ hi, selectBytes_outside _ hi⟩
  case bytes => exact ⟨fun i hi => selectBytes_inside _ hi, fun i hi => selectBytes_outside _ hi, registerWord_none s⟩
  case words =>
    obtain ⟨hrun, hirq, hrest⟩ := ctrlWord_bits s
    exact ⟨rfl, hrun, hirq, hrest, rfl⟩
end

