-- ==== Sys2Proof/Proofs/StatusWrites.lean ====
section
/-! STATUS_WRITE (R186, R187): the block written and the reasons set with it, and a write that the windows refuse. -/

namespace Sys2Proof.Machine

section
variable {ps : Part → Prop} {s t : State} (h : Only ps s t)
include h

theorem stat_of_only (h1 : ¬ ps .statusDue) (h2 : ¬ ps .statusUnit) : t.stat = s.stat := by
  obtain ⟨hdue, hwaiting⟩ := h .statusDue h1
  obtain ⟨haddr, hagain, hsuspended, hsince, hcount⟩ := h .statusUnit h2
  cases ht : t.stat
  cases hs : s.stat
  simp_all

theorem pif_of_only (h1 : ¬ ps .attn) (h2 : ¬ ps .msi) (h3 : ¬ ps .registers) : t.pif = s.pif := by
  have hattn : t.pif.attn = s.pif.attn := h .attn h1
  obtain ⟨hsent, hlast⟩ := h .msi h2
  obtain ⟨hrun, hirq, hmask, hlatch, hdata, henable, haddr, hmsi⟩ := h .registers h3
  cases ht : t.pif
  cases hs : s.pif
  simp_all

end

/-- R185: a refused access changes nothing but the journal and the reasons raised. -/
theorem windowFault_changes (lane : Option LaneId) (k : Access) (a : Nat) (s : State) :
    Only (fun p => p = .raised ∨ p = .journal) s (windowFault lane k a s) :=
  windowFault_only lane k a (only_refl _ _) (.inl rfl) (.inr rfl)

theorem or_and_self_right (x y : BitVec 10) : (x ||| y) &&& y = y := by
  ext i hi
  simp
  tauto

/-- Once `raise` has raised a reason the settled state reports it. -/
theorem reported_raise (a : Attn) (old s : State) : reported a (settle old (raise a s)) :=
  reported_settle a old (or_and_self_right _ _)

/-- R186: an allowed status write. -/
theorem writeStatus_allowed {a : Nat} {s : State} (h : allowed .statusWrite a 160 s = true) :
    writeStatus a s = { s with
      mem := memWriteN s.mem a (statusBlock (s.stat.updateCount + 1) s),
      stat := { s.stat with
        updateCount := s.stat.updateCount + 1, due := s.stat.again, again := false, sinceWrite := some 0,
        waiting := 0 },
      pif := { s.pif with attn := s.pif.attn ||| s.stat.waiting } } := by
  unfold writeStatus
  rw [if_pos h]
  dsimp only [writeBytes]

/-- R187: a refused one. -/
theorem writeStatus_refused {a : Nat} {s : State} (h : allowed .statusWrite a 160 s = false) :
    writeStatus a s = { windowFault none .statusWrite a s with
      stat := { s.stat with due := false, again := false, suspended := true, waiting := 0 },
      pif := { s.pif with attn := s.pif.attn ||| s.stat.waiting } } := by
  have hc := windowFault_changes none .statusWrite a s
  unfold writeStatus
  rw [if_neg (ne_true_of_eq_false h)]
  generalize windowFault none .statusWrite a s = u at hc ⊢
  have hstat : u.stat = s.stat := stat_of_only hc (by simp) (by simp)
  have hpif : u.pif = s.pif := pif_of_only hc (by simp) (by simp) (by simp)
  rw [← hstat, ← hpif]

section
variable {a : Nat} {s : State}

/-- A status write that is due and paced comes about. -/
theorem exec_statusWrite (ha : s.stat.addr = some a) (hdue : s.stat.due = true) (hs : s.stat.suspended = false)
    (hpace : ∀ n, s.stat.sinceWrite = some n → 20 ≤ n) :
    exec .statusWrite s = .next (settle s (writeStatus a s)) := by
  have hpaced : statusPaced s = true := by
    unfold statusPaced
    cases hn : s.stat.sinceWrite with
    | none => rfl
    | some n => exact decide_eq_true (hpace n hn)
  have hcomes : (s.stat.due && !s.stat.suspended && statusPaced s) = true := by simp [hdue, hs, hpaced]
  have hexec : exec .statusWrite s = execStatusWrite s := rfl
  rw [hexec, execStatusWrite, ha]
  exact event_of _ s hcomes

theorem statusWrite_allowed_effect (hraised : s.raised = 0)
    (hw : allowed .statusWrite a 160 s = true) (hagain : s.stat.again = false) :
    (settle s (writeStatus a s)).mem = memWriteN s.mem a (statusBlock (s.stat.updateCount + 1) s) ∧
    (settle s (writeStatus a s)).stat.updateCount = s.stat.updateCount + 1 ∧
    (settle s (writeStatus a s)).stat.due = false ∧ (settle s (writeStatus a s)).stat.sinceWrite = some 0 ∧
    (settle s (writeStatus a s)).stat.waiting = 0 ∧
    (settle s (writeStatus a s)).pif.attn = s.pif.attn ||| s.stat.waiting := by
  have hw' := writeStatus_allowed hw
  have hcontents : statusContents (writeStatus a s) = statusContents s := by rw [hw']; rfl
  have hdue : dueAfter s (writeStatus a s) = false := by
    have hnot : (writeStatus a s).stat.due = false := by rw [hw']; exact hagain
    simp [dueAfter, hcontents, hnot]
  refine ⟨?_, ?_, by rw [settle_due, hdue], ?_, by rw [settle_waiting, hdue]; rfl, ?_⟩
  · rw [settle_mem, hw']
  · rw [settle_stat_updateCount, hw']
  · rw [settle_stat_sinceWrite, hw']
  · rw [settle_attn, hdue, hw']
    simp [hraised]

theorem statusWrite_refused_effect (hw : allowed .statusWrite a 160 s = false) :
    (settle s (writeStatus a s)).mem = s.mem ∧ (settle s (writeStatus a s)).stat.suspended = true ∧
    (settle s (writeStatus a s)).stat.due = false ∧
    (settle s (writeStatus a s)).stat.updateCount = s.stat.updateCount ∧ reported .fault (settle s (writeStatus a s)) ∧
    (s.pif.attn ||| s.stat.waiting) &&& ~~~((settle s (writeStatus a s)).pif.attn) = 0 := by
  have hw' := writeStatus_refused hw
  have hmem : (windowFault none .statusWrite a s).mem = s.mem :=
    windowFault_changes none .statusWrite a s .mem (by simp)
  have hdue : dueAfter s (writeStatus a s) = false := by
    have hoff : statusActive (writeStatus a s) = false := by rw [hw']; simp [statusActive]
    simp [dueAfter, hoff]
  refine ⟨?_, ?_, by rw [settle_due, hdue], ?_, reported_settle _ _ ?_, ?_⟩
  · rw [settle_mem, hw', ← hmem]
  · rw [settle_stat_suspended, hw']
  · rw [settle_stat_updateCount, hw']
  · rw [hw']
    exact or_and_self_right _ _
  · rw [settle_attn, hdue, hw']
    ext i hi
    simp
    grind

end

end Sys2Proof.Machine

open Sys2Proof Sys2Proof.Machine

/-- Settles O53: the write does not change the contents, so that none is due after it; a refused one suspends status
writing, and the reasons are set. -/
theorem statusWriteEffect : Obligations.StatusWriteEffect := by
  intro s a ha hdue hs hpace hraised
  have hexec := exec_statusWrite ha hdue hs hpace
  exact ⟨fun hw hagain => ⟨_, hexec, statusWrite_allowed_effect hraised hw hagain⟩,
    fun hw => ⟨_, hexec, statusWrite_refused_effect hw⟩⟩
end

