-- ==== Sys2Proof/Proofs/PortAndWindowOrders.lean ====
section
/-! CONFIGURE_PORT, SET_WINDOWS and the window test (R184, R185, R187, R188). -/

namespace Sys2Proof.Machine

/-! ### The window test -/

/-- R185: before SET_WINDOWS only order reads and order state writes are allowed. -/
theorem allowed_unset (k : Access) (a n : Nat) {s : State} (h : s.mwu.windowsSet = false) :
    allowed k a n s = true ↔ k = .orderRead ∨ k = .orderStateWrite := by
  simp [allowed, h]

theorem windowAllows_iff (k : Access) (a n : Nat) (w : MemWindow) : windowAllows k a n w = true ↔
    w.base ≤ a ∧ a + n ≤ w.base + w.size ∧ accessUse w k = true ∧ (accessWrites k = true → w.writeProtect = false) := by
  unfold windowAllows
  cases accessWrites k <;> simp [and_assoc]

/-- R185: after it a window in use must allow the access. -/
theorem allowed_set (k : Access) (a n : Nat) {s : State} (h : s.mwu.windowsSet = true) :
    allowed k a n s = true ↔ ∃ w, some w ∈ s.mwu.windows ∧ w.base ≤ a ∧ a + n ≤ w.base + w.size ∧
      accessUse w k = true ∧ (accessWrites k = true → w.writeProtect = false) := by
  simp only [allowed, h, if_true, List.any_eq_true, ← windowAllows_iff]
  constructor
  · rintro ⟨_ | w, hmem, hw⟩
    · cases hw
    · exact ⟨w, hmem, hw⟩
  · rintro ⟨w, hmem, hw⟩
    exact ⟨some w, hmem, hw⟩

/-! ### Field checks -/

/-- The first bad element of a list is the first bad field of its indexed checks. -/
theorem firstBad_zipIdx_first {α : Type} {good : α → Bool} {x : α} (hx : good x = false) :
    ∀ (xs : List α) (k i : Nat), xs[i]? = some x → (∀ j y, j < i → xs[j]? = some y → good y = true) →
      firstBad ((xs.zipIdx k).map (fun q => (q.2, good q.1))) = some (k + i)
  | [], _, _, h, _ => by cases h
  | y :: ys, k, 0, h, _ => by
    obtain rfl : y = x := Option.some.inj h
    simp [firstBad, hx]
  | y :: ys, k, i + 1, h, hbefore => by
    have hy : good y = true := hbefore 0 y (by omega) rfl
    have hrest := firstBad_zipIdx_first hx ys (k + 1) i h (fun j z hj => hbefore (j + 1) z (by omega))
    rw [show k + (i + 1) = k + 1 + i by omega, ← hrest]
    simp [firstBad, hy]

theorem portFields_eq (a : Nat) (m : BitVec 16) (poll low : Nat) : portFields a m poll low =
    [(0, decide (a % 64 = 0)), (1, decide (m.toNat < 1024)), (2, decide (1 ≤ poll ∧ poll ≤ 255)),
      (3, decide (low ≤ 63))] := by
  simp [portFields, inRange, Bool.decide_and, beq_eq_decide]

section
variable {b : OrderBlock} {s : State}

/-! ### CONFIGURE_PORT -/

/-- R188: the port as configured, its order still to end. -/
def portConfigured (a : Nat) (m : BitVec 16) (poll low : Nat) (s : State) : State := { s with
  ocu := { s.ocu with pollInterval := poll }
  jrn := { s.jrn with lowWater := low }
  pif := { s.pif with mask := m.setWidth 10 }
  stat := { s.stat with addr := if a ≠ 0 then some a else none, suspended := false, due := decide (a ≠ 0),
                        again := decide (a ≠ 0) } }

theorem configurePort_eq (a : Nat) (m : BitVec 16) (poll low : Nat) (s : State) :
    configurePort a m poll low s = finishWith .done .ok none [] (portConfigured a m poll low s) := rfl

theorem exec_configurePort {a poll low : Nat} {m : BitVec 16} (h : Taken b (.configurePort a m poll low) s) :
    exec .configurePort s = .next (settle s (match firstBad (portFields a m poll low) with
      | some i => orderRefused .badField (some i) s
      | none =>
        if a ≠ 0 ∧ allowed .statusWrite a 160 s = false then orderFaulted .statusWrite a s
        else configurePort a m poll low s)) := by
  have he : exec .configurePort s = execConfigurePort s := rfl
  rw [he]
  unfold execConfigurePort
  rw [currentBody_of_taken h]
  rfl

/-- R188: an accepted CONFIGURE_PORT. -/
theorem configurePort_effect (a : Nat) (m : BitVec 16) (poll low : Nat) (hb : s.ocu.current = some b)
    (hw : allowed .orderStateWrite (b.addr + 12) 8 s = true) {t : State}
    (ht : t = settle s (configurePort a m poll low s)) :
    Ended b .done .ok none s.mem s t ∧ t.ocu.pollInterval = poll ∧ t.jrn.lowWater = low ∧
    t.pif.mask = m.setWidth 10 ∧ t.stat.addr = (if a = 0 then none else some a) ∧ t.stat.suspended = false ∧
    (a ≠ 0 → t.stat.due = true) ∧ (a = 0 → t.stat.due = false) := by
  rw [configurePort_eq] at ht
  have hended :=
    ended_settle .done .ok none (b := b) (s := s) (u := portConfigured a m poll low s) hb hw rfl rfl rfl rfl
  rw [← ht] at hended
  obtain ⟨d, n, -, hfin⟩ := finishWith_allowed .done .ok none (s := portConfigured a m poll low s) hb hw
  rw [hfin] at ht
  subst ht
  refine ⟨hended, by simp [portConfigured], by simp [portConfigured], by simp [portConfigured], ?_,
    by simp [portConfigured], fun ha => ?_, fun ha => ?_⟩
  · simp [portConfigured]
  · rw [settle_due]
    simp [dueAfter, statusActive, portConfigured, ha]
  · rw [settle_due]
    simp [dueAfter, statusActive, portConfigured, ha]

/-- An order refused with a field leaves everything but what the end of an order changes. -/
theorem refused_effect (i : Nat) (hb : s.ocu.current = some b) (hw : allowed .orderStateWrite (b.addr + 12) 8 s = true)
    {t : State} (ht : t = settle s (orderRefused .badField (some i) s)) :
    Ended b .refused .badField (some i) s.mem s t ∧ t.pif.mask = s.pif.mask ∧ t.stat.addr = s.stat.addr ∧
    t.jrn = s.jrn ∧ t.mwu = s.mwu ∧ t.ocu.pollInterval = s.ocu.pollInterval := by
  have hended := ended_settle .refused .badField (some i) (b := b) (s := s) (u := s) hb hw rfl rfl rfl rfl
  have hr : orderRefused .badField (some i) s = finishWith .refused .badField (some i) [] s := rfl
  obtain ⟨d, n, -, hfin⟩ := finishWith_allowed .refused .badField (some i) hb hw
  rw [← hr] at hended hfin
  rw [← ht] at hended
  rw [hfin] at ht
  subst ht
  exact ⟨hended, by simp, by simp, by simp, by simp, by simp⟩

/-! ### SET_WINDOWS -/

/-- R184, R187: the new windows taken and a suspension ended, the order still to end. -/
def windowsTaken (ds : List WindowDesc) (s : State) : State :=
  endSuspension { s with mwu := { windows := ds.map windowOf, windowsSet := true } }

theorem exec_setWindows {ds : List WindowDesc} (h : Taken b (.setWindows ds) s) :
    exec .setWindows s = .next (settle s (match firstBad ((ds.zipIdx).map (fun q => (q.2, descriptorOk q.1))) with
      | some i => orderRefused .badField (some i) s
      | none => finishWith .done .ok none [] (windowsTaken ds s))) := by
  have he : exec .setWindows s = execSetWindows s := rfl
  rw [he]
  unfold execSetWindows
  rw [currentBody_of_taken h]
  rfl

theorem setWindows_effect {ds : List WindowDesc} (hb : s.ocu.current = some b)
    (hw : allowed .orderStateWrite (b.addr + 12) 8
      { s with mwu := { windows := ds.map windowOf, windowsSet := true } } = true) {t : State}
    (ht : t = settle s (finishWith .done .ok none [] (windowsTaken ds s))) :
    Ended b .done .ok none s.mem s t ∧ t.mwu = { windows := ds.map windowOf, windowsSet := true } ∧
    t.stat.suspended = false := by
  have hended := ended_settle .done .ok none (b := b) (s := s) (u := windowsTaken ds s) hb hw rfl rfl rfl rfl
  obtain ⟨d, n, -, hfin⟩ := finishWith_allowed .done .ok none (s := windowsTaken ds s) hb hw
  rw [← ht] at hended
  rw [hfin] at ht
  subst ht
  exact ⟨hended, by simp [windowsTaken, endSuspension, updStat], by simp [windowsTaken, endSuspension, updStat]⟩

end

end Sys2Proof.Machine

open Sys2Proof Sys2Proof.Machine

/-- Settles O56: each order's checks decide its outcome, and the ends are those of `finishWith_allowed`. -/
theorem portAndWindows : Obligations.PortAndWindows := by
  refine ⟨fun b s a m poll low h hw => ⟨fun ha hm h1 h255 hlow hact => ?port, fun i hi => ?portRefused⟩,
    fun b s ds h => ⟨fun hgood hw => ?windows, fun i d hd hbad hbefore hw => ?windowsRefused⟩,
    fun k a n s => ⟨allowed_unset k a n, allowed_set k a n⟩⟩
  case port =>
    have hgood : firstBad (portFields a m poll low) = none := by
      rw [portFields_eq]
      simp [firstBad, ha, hm, h1, h255, hlow]
    have hallowed : ¬ (a ≠ 0 ∧ allowed .statusWrite a 160 s = false) := by
      rintro ⟨hne, hno⟩
      simp_all
    have hexec := exec_configurePort h
    rw [hgood] at hexec
    dsimp only at hexec
    rw [if_neg hallowed] at hexec
    exact ⟨_, none, hexec, configurePort_effect a m poll low h.1 hw rfl⟩
  case portRefused =>
    have hexec := exec_configurePort h
    rw [portFields_eq, hi] at hexec
    obtain ⟨hended, hmask, haddr, hjrn, -, hpoll⟩ := refused_effect i h.1 hw rfl
    exact ⟨_, hexec, hended, hmask, haddr, hjrn, hpoll⟩
  case windows =>
    have hexec := exec_setWindows h
    rw [firstBad_zipIdx_none hgood] at hexec
    exact ⟨_, none, hexec, setWindows_effect h.1 hw rfl⟩
  case windowsRefused =>
    have hfirst := firstBad_zipIdx_first hbad ds 0 i hd hbefore
    rw [Nat.zero_add] at hfirst
    have hexec := exec_setWindows h
    rw [hfirst] at hexec
    obtain ⟨hended, -, -, -, hmwu, -⟩ := refused_effect i h.1 hw rfl
    exact ⟨_, hexec, hended, hmwu⟩
end

