-- ==== Sys2Proof/Proofs/ChainReads.lean ====
section
/-! RUN_CHAIN and the reads of the chain (R176, R180, R181, R183): what each block state and each link makes of the
chain. -/

namespace Sys2Proof.Machine

/-! ### Fields as addresses -/

theorem fromLe_lt : ∀ bs : List Byte, fromLe bs < 256 ^ bs.length
  | [] => by decide
  | b :: bs => by
    have ih := fromLe_lt bs
    have hb : b.toNat < 256 := b.isLt
    simp only [fromLe, List.length_cons, Nat.pow_succ]
    omega

theorem field_lt (bs : List Byte) (off n : Nat) : field bs off n < 256 ^ n :=
  (fromLe_lt _).trans_le (Nat.pow_le_pow_right (by decide) (List.length_take_le _ _))

/-- A link of eight bytes is an address of 64 bits. -/
theorem link_toNat (bs : List Byte) : (BitVec.ofNat 64 (field bs 0 8)).toNat = field bs 0 8 := by
  rw [BitVec.toNat_ofNat]
  exact Nat.mod_eq_of_lt (field_lt bs 0 8)

/-! ### Faults and waits -/

/-- R183: what a chain fault leaves. -/
theorem chainFault_effect (cause : FaultCause) (a : Nat) (old s : State) {t : State}
    (ht : t = settle old (chainFault cause a s)) :
    t.pif.runChain = false ∧
    t.ocu = { s.ocu with chain := .faulted, faultCause := cause, faultAddr := a, waiting := false } ∧
    t.mem = s.mem ∧ reported .fault t := by
  subst ht
  exact ⟨settle_pif_runChain _ _, settle_ocu _ _, settle_mem _ _, reported_raise .fault old _⟩

/-- R180, R181: a wait begun. -/
theorem chainWait_ocu (old s : State) : (settle old (chainWait s)).ocu =
    { s.ocu with waiting := true, pollTicks := 0, pollLimit := s.ocu.pollInterval } := settle_ocu _ _

/-! ### Reading a block -/

/-- The state byte of the block at the chain position. -/
def blockByte (s : State) : Nat := field (readBytes (chainAddr s) 64 s) 12 1

section
variable {s : State} (ha : allowed .orderRead (chainAddr s) 64 s = true)
include ha

/-- R180: the block that is read is acted on by its state. -/
theorem readBlock_allowed : readBlock s = match blockStateOf (blockByte s) with
    | some .posted => takeBlock (orderBlock (chainAddr s) (readBytes (chainAddr s) 64 s)) s
    | some .empty => chainWait s
    | some .taken | some .done | some .refused => chainFault .staleLink (chainAddr s) s
    | none => chainFault .badState (chainAddr s) s := by
  unfold readBlock
  dsimp only
  rw [if_pos ha]
  rfl

theorem readBlock_empty (h : blockByte s = 0) : readBlock s = chainWait s := by
  rw [readBlock_allowed ha, h]
  rfl

/-- R180: a POSTED block of kind IDENTIFY is taken. -/
theorem readBlock_identify (h : blockByte s = 1) (hk : field (readBytes (chainAddr s) 64 s) 8 1 = 3) :
    ∃ b, b.addr = chainAddr s ∧ b.body = .identify ∧
      readBlock s = { s with ocu := { s.ocu with current := some b, waiting := false } } := by
  have hbody : (orderBlock (chainAddr s) (readBytes (chainAddr s) 64 s)).body = .identify := by
    unfold orderBlock
    dsimp only
    rw [hk]
    rfl
  refine ⟨_, rfl, hbody, ?_⟩
  have htake : readBlock s = takeBlock (orderBlock (chainAddr s) (readBytes (chainAddr s) 64 s)) s := by
    rw [readBlock_allowed ha, h]
    rfl
  rw [htake]
  unfold takeBlock
  rw [hbody]
  rfl

/-- R180, R181: a block that is not EMPTY or POSTED faults the chain. -/
theorem readBlock_faults (h : 2 ≤ blockByte s) : readBlock s =
    chainFault (if blockByte s ≤ 4 then .staleLink else .badState) (chainAddr s) s := by
  rw [readBlock_allowed ha]
  generalize blockByte s = n at h
  match n, h with
  | 2, _ => rfl
  | 3, _ => rfl
  | 4, _ => rfl
  | n + 5, _ => rfl

end

/-! ### Reading a link -/

/-- The link of the block at the chain position. -/
def linkOf (s : State) : Nat := field (readBytes (chainAddr s) 8 s) 0 8

/-- R181: the chain moved to the block that its link leads to. -/
def atLink (s : State) : State :=
  updOcu (fun o => { o with position := BitVec.ofNat 64 (linkOf s), phase := .take, waiting := false }) s

theorem chainAddr_atLink (s : State) : chainAddr (atLink s) = linkOf s := link_toNat _

theorem chainWait_atLink_ocu (old s : State) : (settle old (chainWait (atLink s))).ocu =
    { s.ocu with position := BitVec.ofNat 64 (linkOf s), phase := .take, waiting := true, pollTicks := 0,
                 pollLimit := s.ocu.pollInterval } := by
  rw [settle_ocu]
  dsimp only [chainWait, atLink, updOcu]

theorem allowed_of_windows (k : Access) (a n : Nat) {s t : State} (h : t.mwu = s.mwu) :
    allowed k a n t = allowed k a n s := by
  unfold allowed
  rw [h]

section
variable {s : State} (ha : allowed .orderRead (chainAddr s) 8 s = true)
include ha

/-- R181: what a link leads to. -/
theorem readLink_allowed : readLink s = if linkOf s = 0 then chainWait s
    else if linkOf s % 64 = 0 then readBlock (atLink s)
    else chainFault .badAddress (linkOf s) s := by
  unfold readLink
  dsimp only
  rw [if_pos ha]
  rfl

/-- R181: a good link to an EMPTY block leads to it, and the chain waits there. -/
theorem readLink_to_empty (h0 : linkOf s ≠ 0) (h64 : linkOf s % 64 = 0)
    (hb : allowed .orderRead (linkOf s) 64 s = true) (he : field (readBytes (linkOf s) 64 s) 12 1 = 0) :
    readLink s = chainWait (atLink s) := by
  have haddr := chainAddr_atLink s
  rw [readLink_allowed ha, if_neg h0, if_pos h64]
  have hwindows : (atLink s).mwu = s.mwu := by dsimp only [atLink, updOcu]
  have hmem : (atLink s).mem = s.mem := by dsimp only [atLink, updOcu]
  refine readBlock_empty ?_ ?_
  · rw [haddr, allowed_of_windows _ _ _ hwindows]
    exact hb
  · unfold blockByte readBytes
    rw [haddr, hmem]
    exact he

end

/-! ### RUN_CHAIN -/

/-- R176: the chain as it starts. -/
def chainStarted (s : State) : State := { s with
  pif := { s.pif with runChain := true }
  ocu := { s.ocu with chain := .running, faultCause := .none, faultAddr := 0 } }

section
variable {s : State} (hc : s.ocu.current = none) (hp : s.ocu.phase = .take)
include hc hp

theorem startChain_take : startChain s =
    if chainAddr s = 0 ∨ chainAddr s % 64 ≠ 0 then chainFault .badAddress (chainAddr s) (chainStarted s)
    else readBlock (chainStarted s) := by
  unfold startChain
  rw [hc, hp]
  rfl

/-- R176: a position that no block can have faults the chain. -/
theorem startChain_badAddress (h : s.ocu.position = 0 ∨ s.ocu.position.toNat % 64 ≠ 0) :
    startChain s = chainFault .badAddress (chainAddr s) (chainStarted s) := by
  rw [startChain_take hc hp, if_pos]
  refine h.imp_left fun h0 => ?_
  rw [chainAddr, h0]
  rfl

/-- R180: started at an EMPTY block the chain waits. -/
theorem startChain_empty (h0 : s.ocu.position ≠ 0) (h64 : s.ocu.position.toNat % 64 = 0)
    (ha : allowed .orderRead s.ocu.position.toNat 64 s = true)
    (he : field (readBytes s.ocu.position.toNat 64 s) 12 1 = 0) : startChain s = chainWait (chainStarted s) := by
  have hgood : ¬ (chainAddr s = 0 ∨ chainAddr s % 64 ≠ 0) := by
    rintro (hz | hz)
    · exact h0 (BitVec.eq_of_toNat_eq hz)
    · exact hz h64
  rw [startChain_take hc hp, if_neg hgood]
  exact readBlock_empty (s := chainStarted s) ha he

end

/-- R183: RUN_CHAIN_STOP. -/
theorem stopChain_ocu (old s : State) : (settle old (stopChain s)).ocu =
    { s.ocu with chain := if s.ocu.current.isNone then .stopped else s.ocu.chain, waiting := false } := settle_ocu _ _

/-! ### The commands that read the chain -/

/-- R180, R181: an expired poll timer, LOOK and CHAIN_LINK_READ make the read of the chain's phase. -/
theorem exec_chainRead {c : Instr} {s : State} (hr : s.pif.runChain = true) (hn : s.ocu.current = none)
    (h : (c = .look ∧ s.ocu.waiting = true) ∨
      (c = .pollTimerExpiry ∧ s.ocu.waiting = true ∧ 20 * s.ocu.pollLimit ≤ s.ocu.pollTicks) ∨
      (c = .chainLinkRead ∧ s.ocu.waiting = false ∧ s.ocu.phase = .link)) :
    exec c s = .next (settle s (chainRead s)) := by
  rcases h with ⟨rfl, hw⟩ | ⟨rfl, hw, hticks⟩ | ⟨rfl, hw, hp⟩
  · exact event_of _ s (by simp [hr, hw])
  · exact event_of _ s (by simp [hr, hw, ticksPerMs, hticks])
  · have hlink : chainRead s = readLink s := by
      unfold chainRead
      rw [hp]
    rw [hlink]
    exact event_of _ s (by simp [hr, hn, hw, hp])

end Sys2Proof.Machine

open Sys2Proof Sys2Proof.Machine

/-- Settles O55: by the state of the block read and the value of the link read. -/
theorem chainRunsAndReads : Obligations.ChainRunsAndReads := by
  refine ⟨fun s => ⟨fun hrun hcur hphase => ⟨fun hbad => ?badStart, fun h0 h64 ha he => ?emptyStart⟩,
      fun hrun => ?stop⟩,
    fun c s hrun hcur hcmd => ⟨fun hphase ha => ?link, fun hphase ha => ?take⟩⟩
  case badStart =>
    have hexec : exec .runChainStart s = .next (settle s (startChain s)) := event_of _ s (by simp [hrun])
    rw [startChain_badAddress hcur hphase hbad] at hexec
    obtain ⟨hstop, hocu, -, hfault⟩ := chainFault_effect .badAddress (chainAddr s) s (chainStarted s) rfl
    exact ⟨_, hexec, hstop, by rw [hocu], by rw [hocu], by rw [hocu]; rfl, by rw [hocu]; rfl,
      by rw [hocu]; exact hphase,
      hfault⟩
  case emptyStart =>
    have hexec : exec .runChainStart s = .next (settle s (startChain s)) := event_of _ s (by simp [hrun])
    rw [startChain_empty hcur hphase h0 h64 ha he] at hexec
    exact ⟨_, hexec, settle_pif_runChain _ _, chainWait_ocu _ _⟩
  case stop =>
    refine ⟨_, event_of _ s hrun, settle_pif_runChain _ _, ?_⟩
    rw [stopChain_ocu]
    refine ⟨rfl, rfl, rfl, rfl, fun hnone => by simp [hnone], fun hsome => ⟨?_, rfl⟩⟩
    simp [Option.isNone_eq_false_iff.mpr hsome]
  case link =>
    have hexec := exec_chainRead hrun hcur hcmd
    have hread : chainRead s = readLink s := by
      unfold chainRead
      rw [hphase]
    rw [hread] at hexec
    refine ⟨fun (h0 : linkOf s = 0) => ?_, fun (hbad : linkOf s % 64 ≠ 0) => ?_,
      fun a (hlink : linkOf s = a) h0 h64 hb he => ?_⟩
    · rw [readLink_allowed ha, if_pos h0] at hexec
      exact ⟨_, hexec, chainWait_ocu _ _⟩
    · have h0 : linkOf s ≠ 0 := fun h => hbad (by rw [h])
      rw [readLink_allowed ha, if_neg h0, if_neg hbad] at hexec
      obtain ⟨hstop, hocu, -, hfault⟩ := chainFault_effect .badAddress (linkOf s) s s rfl
      exact ⟨_, hexec, by rw [hocu], by rw [hocu], by rw [hocu], hstop, hfault⟩
    · subst hlink
      rw [readLink_to_empty ha h0 h64 hb he] at hexec
      exact ⟨_, hexec, chainWait_atLink_ocu _ _⟩
  case take =>
    have hexec := exec_chainRead hrun hcur hcmd
    have hread : chainRead s = readBlock s := by
      unfold chainRead
      rw [hphase]
    rw [hread] at hexec
    refine ⟨fun h0 => ?_, fun h1 hk => ?_, fun h2 => ?_⟩
    · rw [readBlock_empty ha h0] at hexec
      exact ⟨_, hexec, chainWait_ocu _ _⟩
    · obtain ⟨b, haddr, hbody, hblock⟩ := readBlock_identify ha h1 hk
      rw [hblock] at hexec
      exact ⟨_, hexec, b, settle_ocu _ _, haddr, hbody, settle_mem _ _⟩
    · rw [readBlock_faults ha h2] at hexec
      obtain ⟨hstop, hocu, hmem, hfault⟩ :=
        chainFault_effect (if blockByte s ≤ 4 then .staleLink else .badState) (chainAddr s) s s rfl
      exact ⟨_, hexec, by rw [hocu], by rw [hocu]; rfl, by rw [hocu]; rfl, by rw [hocu], by rw [hocu]; exact hphase,
        hstop,
        hmem, hfault⟩
end

