-- ==== Sys2Proof/Proofs/StoresWithin.lean ====
section
/-! What an event leaves of host memory outside a list of records, and of ATTN, the reasons waiting and the messages:
the relation `Within`, and what each operation of the blocks does to it (R177, R178, R180 to R182). -/

namespace Sys2Proof.Machine

/-- The addresses of the blocks whose orders are not final: the order in progress and the long orders (R180, R182). -/
def orderAddrs (s : State) : List Nat :=
  s.ocu.current.toList.map (fun b => b.addr) ++ s.ocu.longList.map (fun o => o.addr)

/-- From one state to another, with the end of the event still to come, only the records `rs` of host memory are stored
to; ATTN, the reasons waiting and the messages stand; and the state bytes of every order not yet final lie in `rs`. -/
structure Within (rs : List (Nat × Nat)) (s t : State) : Prop where
  attn : t.pif.attn = s.pif.attn
  waiting : t.stat.waiting = s.stat.waiting
  sent : t.pif.msiSent = s.pif.msiSent
  enable : t.pif.msiEnable = s.pif.msiEnable
  blocks : ∀ a ∈ orderAddrs t, (a + 12, 8) ∈ rs
  mem : ∀ a, (∀ r ∈ rs, a < r.1 ∨ r.1 + r.2 ≤ a) → memRead t.mem a = memRead s.mem a

/-- The parts that `Within` does not speak of. -/
def elsewhere (p : Part) : Prop := p ∉ [Part.attn, .msi, .statusDue, .registers, .mem, .orders]

section
variable {rs : List (Nat × Nat)} {s t u : State}

theorem Within.refl (h : ∀ a ∈ orderAddrs s, (a + 12, 8) ∈ rs) : Within rs s s :=
  ⟨rfl, rfl, rfl, rfl, h, fun _ _ => rfl⟩

/-- `Within` speaks of these parts of its later state alone. -/
theorem within_congr (hattn : u.pif.attn = t.pif.attn) (hwaiting : u.stat.waiting = t.stat.waiting)
    (hsent : u.pif.msiSent = t.pif.msiSent) (henable : u.pif.msiEnable = t.pif.msiEnable) (hocu : u.ocu = t.ocu)
    (hmem : u.mem = t.mem) : Within rs s u ↔ Within rs s t := by
  have haddrs : orderAddrs u = orderAddrs t := by rw [orderAddrs, orderAddrs, hocu]
  constructor
  · rintro ⟨h1, h2, h3, h4, h5, h6⟩
    exact ⟨hattn ▸ h1, hwaiting ▸ h2, hsent ▸ h3, henable ▸ h4, haddrs ▸ h5, hmem ▸ h6⟩
  · rintro ⟨h1, h2, h3, h4, h5, h6⟩
    exact ⟨hattn ▸ h1, hwaiting ▸ h2, hsent ▸ h3, henable ▸ h4, haddrs ▸ h5, hmem ▸ h6⟩

/-- A change of other parts is within what any change is within. -/
theorem within_iff (h : Only elsewhere t u) : Within rs s u ↔ Within rs s t := by
  obtain ⟨hsent, -⟩ := h .msi (by simp [elsewhere])
  obtain ⟨-, hwaiting⟩ := h .statusDue (by simp [elsewhere])
  obtain ⟨-, -, -, -, -, henable, -, -⟩ := h .registers (by simp [elsewhere])
  exact within_congr (h .attn (by simp [elsewhere])) hwaiting hsent henable (h .orders (by simp [elsewhere]))
    (h .mem (by simp [elsewhere]))

theorem within_ite {c : Prop} {_ : Decidable c} (ht : Within rs s t) (hu : Within rs s u) :
    Within rs s (if c then t else u) := by
  split <;> assumption

/-- Folding a step that is within the records is within them. -/
theorem within_foldl {α : Type} {f : State → α → State} (hf : ∀ t x, Within rs s t → Within rs s (f t x)) :
    ∀ (xs : List α) (t : State), Within rs s t → Within rs s (xs.foldl f t)
  | [], _, h => h
  | x :: xs, t, h => within_foldl hf xs (f t x) (hf t x h)

/-! ### Operations that leave memory, the orders and the registers -/

@[simp] theorem within_updTrack (l : LaneId) (f : Track → Track) : Within rs s (updTrack l f t) ↔ Within rs s t :=
  within_congr rfl rfl rfl rfl rfl rfl
@[simp] theorem within_updSfe (l : LaneId) (f : Sfe → Sfe) : Within rs s (updSfe l f t) ↔ Within rs s t :=
  within_congr rfl rfl rfl rfl rfl rfl
@[simp] theorem within_updGsq (l : LaneId) (f : Gsq → Gsq) : Within rs s (updGsq l f t) ↔ Within rs s t :=
  within_congr rfl rfl rfl rfl rfl rfl
@[simp] theorem within_updChannel (l : LaneId) (g : Gate) (f : Channel → Channel) :
    Within rs s (updChannel l g f t) ↔ Within rs s t :=
  within_congr rfl rfl rfl rfl rfl rfl
@[simp] theorem within_updHead (l : LaneId) (d : Side) (f : Head → Head) :
    Within rs s (updHead l d f t) ↔ Within rs s t :=
  within_congr rfl rfl rfl rfl rfl rfl
@[simp] theorem within_updPocket (l : LaneId) (q : Pocket) (f : PocketRec → PocketRec) :
    Within rs s (updPocket l q f t) ↔ Within rs s t :=
  within_congr rfl rfl rfl rfl rfl rfl
@[simp] theorem within_updLsq (l : LaneId) (f : Lsq → Lsq) : Within rs s (updLsq l f t) ↔ Within rs s t :=
  within_congr rfl rfl rfl rfl rfl rfl
@[simp] theorem within_updMsc (f : Msc → Msc) : Within rs s (updMsc f t) ↔ Within rs s t :=
  within_congr rfl rfl rfl rfl rfl rfl
@[simp] theorem within_updPmc (f : Pmc → Pmc) : Within rs s (updPmc f t) ↔ Within rs s t :=
  within_congr rfl rfl rfl rfl rfl rfl
@[simp] theorem within_updJrn (f : Journal → Journal) : Within rs s (updJrn f t) ↔ Within rs s t :=
  within_congr rfl rfl rfl rfl rfl rfl
@[simp] theorem within_updHmu (f : Hmu → Hmu) : Within rs s (updHmu f t) ↔ Within rs s t :=
  within_congr rfl rfl rfl rfl rfl rfl
@[simp] theorem within_updAttr (l : LaneId) (a : AttrId) (f : AttrRec → AttrRec) :
    Within rs s (updAttr l a f t) ↔ Within rs s t :=
  within_congr rfl rfl rfl rfl rfl rfl
@[simp] theorem within_raise (a : Attn) : Within rs s (raise a t) ↔ Within rs s t :=
  within_iff (by apply raise_only (h := only_refl _ _); simp [elsewhere])
@[simp] theorem within_setHold (l : LaneId) (r : HoldReason) (on : Bool) :
    Within rs s (setHold l r on t) ↔ Within rs s t :=
  within_iff (by apply setHold_only (h := only_refl _ _) <;> simp [elsewhere])
@[simp] theorem within_countUp (l : LaneId) (c : Tally) : Within rs s (countUp l c t) ↔ Within rs s t :=
  within_iff (by apply countUp_only (h := only_refl _ _); simp [elsewhere])
@[simp] theorem within_takePage  : Within rs s (takePage t) ↔ Within rs s t :=
  within_iff (by apply takePage_only (h := only_refl _ _) <;> simp [elsewhere])
@[simp] theorem within_closePage (why : FillReason) : Within rs s (closePage why t) ↔ Within rs s t :=
  within_iff (by apply closePage_only (h := only_refl _ _) <;> simp [elsewhere])
@[simp] theorem within_emit (code : EventCode) (lane : Option LaneId) (subject serial arg1 arg2 : Nat) :
    Within rs s (emit code lane subject serial arg1 arg2 t) ↔ Within rs s t :=
  within_iff (by apply emit_only (h := only_refl _ _) <;> simp [elsewhere])
@[simp] theorem within_windowFault (lane : Option LaneId) (k : Access) (a : Nat) :
    Within rs s (windowFault lane k a t) ↔ Within rs s t :=
  within_iff (by apply windowFault_only (h := only_refl _ _) <;> simp [elsewhere])
@[simp] theorem within_setLane (l : LaneId) (new : LaneMode) : Within rs s (setLane l new t) ↔ Within rs s t :=
  within_iff (by apply setLane_only (h := only_refl _ _) <;> simp [elsewhere])
@[simp] theorem within_laneEvent (l : LaneId) (old new : LaneMode) (cause : LaneCause) :
    Within rs s (laneEvent l old new cause t) ↔ Within rs s t :=
  within_iff (by apply laneEvent_only (h := only_refl _ _) <;> simp [elsewhere])
@[simp] theorem within_changeLane (l : LaneId) (new : LaneMode) (cause : LaneCause) :
    Within rs s (changeLane l new cause t) ↔ Within rs s t :=
  within_iff (by apply changeLane_only (h := only_refl _ _) <;> simp [elsewhere])
@[simp] theorem within_lampTo (l : LaneId) (level : LampPower) : Within rs s (lampTo l level t) ↔ Within rs s t :=
  within_iff (by apply lampTo_only (h := only_refl _ _) <;> simp [elsewhere])
@[simp] theorem within_laneEndClose  : Within rs s (laneEndClose t) ↔ Within rs s t :=
  within_iff (by apply laneEndClose_only (h := only_refl _ _) <;> simp [elsewhere])
@[simp] theorem within_startRunning (l : LaneId) : Within rs s (startRunning l t) ↔ Within rs s t :=
  within_iff (by apply startRunning_only (h := only_refl _ _) <;> simp [elsewhere])
@[simp] theorem within_enterRunning (l : LaneId) (cause : LaneCause) :
    Within rs s (enterRunning l cause t) ↔ Within rs s t :=
  within_iff (by apply enterRunning_only (h := only_refl _ _) <;> simp [elsewhere])
@[simp] theorem within_startWarming (l : LaneId) : Within rs s (startWarming l t) ↔ Within rs s t :=
  within_iff (by apply startWarming_only (h := only_refl _ _) <;> simp [elsewhere])
@[simp] theorem within_healthHold (l : LaneId) : Within rs s (healthHold l t) ↔ Within rs s t :=
  within_iff (by apply healthHold_only (h := only_refl _ _) <;> simp [elsewhere])
@[simp] theorem within_blockEvent (l : LaneId) (a : AttrId) : Within rs s (blockEvent l a t) ↔ Within rs s t :=
  within_iff (by apply blockEvent_only (h := only_refl _ _); simp [elsewhere])
@[simp] theorem within_writeLog (entry : LogEntry) : Within rs s (writeLog entry t) ↔ Within rs s t :=
  within_iff (by apply writeLog_only (h := only_refl _ _); simp [elsewhere])
@[simp] theorem within_withdrawIdle (r : IdleRequest) : Within rs s (withdrawIdle r t) ↔ Within rs s t :=
  within_iff (by apply withdrawIdle_only (h := only_refl _ _); simp [elsewhere])
@[simp] theorem within_auditRecords (a : Audit) (r : TestResult) : Within rs s (auditRecords a r t) ↔ Within rs s t :=
  within_iff (by apply auditRecords_only (h := only_refl _ _) <;> simp [elsewhere])
@[simp] theorem within_setPocketState (l : LaneId) (p : Pocket) (st : PocketState) :
    Within rs s (setPocketState l p st t) ↔ Within rs s t :=
  within_iff (by apply setPocketState_only (h := only_refl _ _) <;> simp [elsewhere])
@[simp] theorem within_fullTest (l : LaneId) (p : Pocket) : Within rs s (fullTest l p t) ↔ Within rs s t :=
  within_iff (by apply fullTest_only (h := only_refl _ _) <;> simp [elsewhere])
@[simp] theorem within_pocketArrival (l : LaneId) (p : Pocket) (serial : Nat) :
    Within rs s (pocketArrival l p serial t) ↔ Within rs s t :=
  within_iff (by apply pocketArrival_only (h := only_refl _ _) <;> simp [elsewhere])
@[simp] theorem within_setCapacity (l : LaneId) (p : Pocket) (capacity : Nat) :
    Within rs s (setCapacity l p capacity t) ↔ Within rs s t :=
  within_iff (by apply setCapacity_only (h := only_refl _ _); simp [elsewhere])
@[simp] theorem within_followCapacity (l : LaneId) (p : Pocket) (was : Bool) :
    Within rs s (followCapacity l p was t) ↔ Within rs s t :=
  within_iff (by apply followCapacity_only (h := only_refl _ _) <;> simp [elsewhere])
@[simp] theorem within_updEntry (l : LaneId) (serial : Nat) (f : Entry → Entry) :
    Within rs s (updEntry l serial f t) ↔ Within rs s t :=
  within_iff (by apply updEntry_only (h := only_refl _ _); simp [elsewhere])
@[simp] theorem within_gateWork (l : LaneId) (ws : List GateWork) : Within rs s (gateWork l ws t) ↔ Within rs s t :=
  within_iff (by apply gateWork_only (h := only_refl _ _) <;> simp [elsewhere])
@[simp] theorem within_rerouteAtEye (l : LaneId) (serial : Nat) (cause : RerouteCause) (eye : Eye) :
    Within rs s (rerouteAtEye l serial cause eye t) ↔ Within rs s t :=
  within_iff (by apply rerouteAtEye_only (h := only_refl _ _) <;> simp [elsewhere])
@[simp] theorem within_dropItem (l : LaneId) (e : Entry) : Within rs s (dropItem l e t) ↔ Within rs s t :=
  within_iff (by apply dropItem_only (h := only_refl _ _) <;> simp [elsewhere])
@[simp] theorem within_gatesOff (l : LaneId) : Within rs s (gatesOff l t) ↔ Within rs s t :=
  within_iff (by apply gatesOff_only (h := only_refl _ _); simp [elsewhere])
@[simp] theorem within_planVerdict (l : LaneId) (e : Entry) (v : Verdict) :
    Within rs s (planVerdict l e v t).1 ↔ Within rs s t :=
  within_iff (by apply planVerdict_only (h := only_refl _ _) <;> simp [elsewhere])
@[simp] theorem within_countVerdict (l : LaneId) (v : Verdict) : Within rs s (countVerdict l v t) ↔ Within rs s t :=
  within_iff (by apply countVerdict_only (h := only_refl _ _); simp [elsewhere])
@[simp] theorem within_discardTrace (l : LaneId) (serial : Nat) :
    Within rs s (discardTrace l serial t) ↔ Within rs s t :=
  within_iff (by apply discardTrace_only (h := only_refl _ _); simp [elsewhere])
@[simp] theorem within_giveVerdict (l : LaneId) (serial : Nat) (v : Verdict) :
    Within rs s (giveVerdict l serial v t) ↔ Within rs s t :=
  within_iff (by apply giveVerdict_only (h := only_refl _ _) <;> simp [elsewhere])
@[simp] theorem within_phantom (l : LaneId) (y : Eye) (p : Pos) : Within rs s (phantom l y p t) ↔ Within rs s t :=
  within_iff (by apply phantom_only (h := only_refl _ _) <;> simp [elsewhere])
@[simp] theorem within_verifyMiss (l : LaneId) : Within rs s (verifyMiss l t) ↔ Within rs s t :=
  within_iff (by apply verifyMiss_only (h := only_refl _ _); simp [elsewhere])
@[simp] theorem within_clipPrint (l : LaneId) (d : Side) : Within rs s (clipPrint l d t) ↔ Within rs s t :=
  within_iff (by apply clipPrint_only (h := only_refl _ _) <;> simp [elsewhere])
@[simp] theorem within_followGapSpit (l : LaneId) : Within rs s (followGapSpit l t) ↔ Within rs s t :=
  within_iff (by apply followGapSpit_only (h := only_refl _ _) <;> simp [elsewhere])
@[simp] theorem within_restartSpitTimer (l : LaneId) (d : Side) :
    Within rs s (restartSpitTimer l d t) ↔ Within rs s t :=
  within_iff (by apply restartSpitTimer_only (h := only_refl _ _); simp [elsewhere])
@[simp] theorem within_gapRequestTest (l : LaneId) (d : Side) : Within rs s (gapRequestTest l d t) ↔ Within rs s t :=
  within_iff (by apply gapRequestTest_only (h := only_refl _ _) <;> simp [elsewhere])
@[simp] theorem within_dryTest (l : LaneId) (d : Side) : Within rs s (dryTest l d t) ↔ Within rs s t :=
  within_iff (by apply dryTest_only (h := only_refl _ _) <;> simp [elsewhere])
@[simp] theorem within_wetTest (l : LaneId) (d : Side) : Within rs s (wetTest l d t) ↔ Within rs s t :=
  within_iff (by apply wetTest_only (h := only_refl _ _) <;> simp [elsewhere])
@[simp] theorem within_coldHeads (l : LaneId) : Within rs s (coldHeads l t) ↔ Within rs s t :=
  within_iff (by apply coldHeads_only (h := only_refl _ _) <;> simp [elsewhere])
@[simp] theorem within_clearTrims (l : LaneId) : Within rs s (clearTrims l t) ↔ Within rs s t :=
  within_iff (by apply clearTrims_only (h := only_refl _ _); simp [elsewhere])
@[simp] theorem within_leaveQueue (l : LaneId) (serial : Nat) (o : ItemOutcome) :
    Within rs s (leaveQueue l serial o t) ↔ Within rs s t :=
  within_iff (by apply leaveQueue_only (h := only_refl _ _) <;> simp [elsewhere])
@[simp] theorem within_purgeLane (l : LaneId) : Within rs s (purgeLane l t) ↔ Within rs s t :=
  within_iff (by apply purgeLane_only (h := only_refl _ _) <;> simp [elsewhere])
@[simp] theorem within_dropWarming (l : LaneId) : Within rs s (dropWarming l t) ↔ Within rs s t :=
  within_iff (by apply dropWarming_only (h := only_refl _ _) <;> simp [elsewhere])
@[simp] theorem within_updJam (l : LaneId) (j : JamEye) (f : Nat → Nat) :
    Within rs s (updJam l j f t) ↔ Within rs s t :=
  within_iff (by apply updJam_only (h := only_refl _ _); simp [elsewhere])
@[simp] theorem within_addSample (l : LaneId) (serial : Nat) (row : List Nat) :
    Within rs s (addSample l serial row t) ↔ Within rs s t :=
  within_iff (by apply addSample_only (h := only_refl _ _); simp [elsewhere])
@[simp] theorem within_missSample (l : LaneId) (e : Entry) : Within rs s (missSample l e t) ↔ Within rs s t :=
  within_iff (by apply missSample_only (h := only_refl _ _) <;> simp [elsewhere])
@[simp] theorem within_calFinished (l : LaneId) : Within rs s (calFinished l t) ↔ Within rs s t :=
  within_iff (by apply calFinished_only (h := only_refl _ _); simp [elsewhere])
@[simp] theorem within_gapCalTest (l : LaneId) : Within rs s (gapCalTest l t) ↔ Within rs s t :=
  within_iff (by apply gapCalTest_only (h := only_refl _ _) <;> simp [elsewhere])
@[simp] theorem within_abortScan (l : LaneId) : Within rs s (abortScan l t) ↔ Within rs s t :=
  within_iff (by apply abortScan_only (h := only_refl _ _) <;> simp [elsewhere])
@[simp] theorem within_creationVerdicts (l : LaneId) (serial : Nat) (previous : Option Nat) (gap : Option Nat) :
    Within rs s (creationVerdicts l serial previous gap t) ↔ Within rs s t :=
  within_iff (by apply creationVerdicts_only (h := only_refl _ _) <;> simp [elsewhere])
@[simp] theorem within_untrackedArrival (l : LaneId) (p : Pos) : Within rs s (untrackedArrival l p t) ↔ Within rs s t :=
  within_iff (by apply untrackedArrival_only (h := only_refl _ _) <;> simp [elsewhere])
@[simp] theorem within_lengthCheck (l : LaneId) (e : Entry) (p : Pos) :
    Within rs s (lengthCheck l e p t) ↔ Within rs s t :=
  within_iff (by apply lengthCheck_only (h := only_refl _ _) <;> simp [elsewhere])
@[simp] theorem within_clearEndJam (l : LaneId) (q : Pocket) : Within rs s (clearEndJam l q t) ↔ Within rs s t :=
  within_iff (by apply clearEndJam_only (h := only_refl _ _); simp [elsewhere])
@[simp] theorem within_roll (c : RollCause) : Within rs s (roll c t) ↔ Within rs s t :=
  within_iff (by apply roll_only (h := only_refl _ _) <;> simp [elsewhere])
@[simp] theorem within_clearLane (l : LaneId) : Within rs s (clearLane l t) ↔ Within rs s t :=
  within_iff (by apply clearLane_only (h := only_refl _ _) <;> simp [elsewhere])
@[simp] theorem within_countLost (p : Page) : Within rs s (countLost p t) ↔ Within rs s t :=
  within_iff (by apply countLost_only (h := only_refl _ _) <;> simp [elsewhere])
@[simp] theorem within_countFilled  : Within rs s (countFilled t) ↔ Within rs s t :=
  within_iff (by apply countFilled_only (h := only_refl _ _); simp [elsewhere])
@[simp] theorem within_redecideFast  : Within rs s (redecideFast t) ↔ Within rs s t :=
  within_iff (by apply redecideFast_only (h := only_refl _ _); simp [elsewhere])
@[simp] theorem within_emptyBars  : Within rs s (emptyBars t) ↔ Within rs s t :=
  within_iff (by apply emptyBars_only (h := only_refl _ _); simp [elsewhere])
@[simp] theorem within_applyThreshold (e : ThresholdEntry) : Within rs s (applyThreshold e t) ↔ Within rs s t :=
  within_iff (by apply applyThreshold_only (h := only_refl _ _) <;> simp [elsewhere])
@[simp] theorem within_freeLane (l : LaneId) : Within rs s (freeLane l t) ↔ Within rs s t :=
  within_iff (by apply freeLane_only (h := only_refl _ _) <;> simp [elsewhere])
@[simp] theorem within_pageChecked (a : Nat) : Within rs s (pageChecked a t) ↔ Within rs s t :=
  within_iff (by apply pageChecked_only (h := only_refl _ _) <;> simp [elsewhere])
@[simp] theorem within_zeroTally (l : LaneId) : Within rs s (zeroTally l t) ↔ Within rs s t :=
  within_iff (by apply zeroTally_only (h := only_refl _ _); simp [elsewhere])
@[simp] theorem within_askIdle (r : IdleRequest) : Within rs s (askIdle r t) ↔ Within rs s t :=
  within_iff (by apply askIdle_only (h := only_refl _ _); simp [elsewhere])
@[simp] theorem within_toStep (l : LaneId) (n : Nat) : Within rs s (toStep l n t) ↔ Within rs s t :=
  within_iff (by apply toStep_only (h := only_refl _ _); simp [elsewhere])
@[simp] theorem within_nextItem (l : LaneId) (step : Nat) : Within rs s (nextItem l step t) ↔ Within rs s t :=
  within_iff (by apply nextItem_only (h := only_refl _ _) <;> simp [elsewhere])
@[simp] theorem within_idleDone  : Within rs s (idleDone t) ↔ Within rs s t :=
  within_iff (by apply idleDone_only (h := only_refl _ _); simp [elsewhere])
@[simp] theorem within_updEye (l : LaneId) (y : Eye) (f : EyeState → EyeState) :
    Within rs s (updEye l y f t) ↔ Within rs s t :=
  within_congr rfl rfl rfl rfl rfl rfl
@[simp] theorem within_acceptEdge (l : LaneId) (y : Eye) (toDark : Bool) :
    Within rs s (acceptEdge l y toDark t) ↔ Within rs s t :=
  within_iff (by apply acceptEdge_only (h := only_refl _ _); simp [elsewhere])
@[simp] theorem within_detailValue (detail : Option Nat) : Within rs s (detailValue detail t).2 ↔ Within rs s t :=
  within_iff (by apply detailValue_only (h := only_refl _ _); simp [elsewhere])
@[simp] theorem within_drawFree : Within rs s (drawFree t).2 ↔ Within rs s t :=
  within_iff (by apply drawFree_only (h := only_refl _ _); simp [elsewhere])

/-! ### Memory and the chain -/

section
variable (h : Within rs s t)
include h

/-- A store inside one of the records. -/
theorem within_store {a : Nat} {bs : List Byte} {r : Nat × Nat} (hr : r ∈ rs) (hlow : r.1 ≤ a)
    (hhigh : a + bs.length ≤ r.1 + r.2) : Within rs s (writeBytes a bs t) :=
  ⟨h.attn, h.waiting, h.sent, h.enable, h.blocks, fun c hc =>
    (memRead_writeN_other bs (by have hout := hc r hr; omega)).trans (h.mem c hc)⟩

theorem within_writeBytes {a : Nat} {bs : List Byte} (hr : (a, bs.length) ∈ rs) : Within rs s (writeBytes a bs t) :=
  within_store h hr (Nat.le_refl _) (Nat.le_refl _)

/-- A change of the chain that names no further order. -/
theorem within_updOcu {f : Ocu → Ocu} (hf : ∀ a ∈ orderAddrs (updOcu f t), (a + 12, 8) ∈ rs) :
    Within rs s (updOcu f t) :=
  ⟨h.attn, h.waiting, h.sent, h.enable, hf, h.mem⟩

theorem within_chainFault (cause : FaultCause) (a : Nat) : Within rs s (chainFault cause a t) :=
  ⟨h.attn, h.waiting, h.sent, h.enable, h.blocks, h.mem⟩

theorem within_chainWait : Within rs s (chainWait t) := within_updOcu h h.blocks

theorem within_orderCompleted (a : Nat) (notify : Bool) : Within rs s (orderCompleted a notify t) := by
  have hdone : Within rs s (updOcu (fun o => { o with completed := satAdd32 o.completed 1, lastOrder := a }) t) :=
    within_updOcu h h.blocks
  cases notify
  · exact hdone
  · exact (within_raise _).mpr hdone

theorem within_orderWriteRefused (lane : Option LaneId) (a : Nat) : Within rs s (orderWriteRefused lane a t) :=
  within_chainFault ((within_windowFault _ _ _).mpr h) _ _

theorem within_orderReadRefused : Within rs s (orderReadRefused t) :=
  within_chainFault ((within_windowFault _ _ _).mpr h) _ _

theorem within_stopIfHalted : Within rs s (stopIfHalted t) := by
  unfold stopIfHalted
  split
  · exact within_updOcu h h.blocks
  · exact h

/-- The block just finished is left: its order is final. -/
theorem within_leaveBlock (written : Bool) : Within rs s (leaveBlock written t) :=
  within_updOcu h fun a ha => h.blocks a (List.mem_append_right _ ha)

/-- R180: the final state write of a block whose state bytes are in the records, with what IDENTIFY writes beside. -/
theorem within_finalWrite (lane : Option LaneId) {addr : Nat} (notify : Bool) (st : BlockState) (code : ResultCode)
    (detail : Option Nat) {extra : List Byte} (ha : (addr + 12, 8) ∈ rs)
    (he : extra.isEmpty = false → (addr + 24, extra.length) ∈ rs) :
    Within rs s (finalWrite lane addr notify st code detail extra t) := by
  have hd : Within rs s (detailValue detail t).2 := (within_detailValue _).mpr h
  have hrefused := within_orderWriteRefused h lane (addr + 12)
  unfold finalWrite
  dsimp only
  split
  · split
    · exact within_orderCompleted (within_writeBytes hd ha) _ _
    · exact hrefused
  next hx =>
    split
    · exact within_orderCompleted (within_writeBytes (within_writeBytes hd ha) (he (eq_false_of_ne_true hx))) _ _
    · exact hrefused

/-- R180: the end of the order in progress. -/
theorem within_finishWith (st : BlockState) (code : ResultCode) (detail : Option Nat) {extra : List Byte}
    (he : ∀ b, t.ocu.current = some b → extra.isEmpty = false → (b.addr + 24, extra.length) ∈ rs) :
    Within rs s (finishWith st code detail extra t) := by
  unfold finishWith
  split
  · exact h
  next b hb =>
    have ha : (b.addr + 12, 8) ∈ rs := h.blocks _ (by simp [orderAddrs, hb])
    exact within_stopIfHalted (within_leaveBlock (within_finalWrite h _ _ _ _ _ ha (he b hb)) _)

theorem within_orderDone (detail : Option Nat) : Within rs s (orderDone detail t) :=
  within_finishWith h _ _ _ fun _ _ hx => by cases hx

theorem within_orderRefused (code : ResultCode) (detail : Option Nat) : Within rs s (orderRefused code detail t) :=
  within_finishWith h _ _ _ fun _ _ hx => by cases hx

theorem within_orderNothing : Within rs s (orderNothing t) := within_orderDone h _

theorem within_orderFaulted (k : Access) (a : Nat) : Within rs s (orderFaulted k a t) :=
  within_orderRefused ((within_windowFault _ _ _).mpr h) _ _

/-- R182: a long order TAKEN keeps its block among those to be finished. -/
theorem within_orderTaken (key : LongKey) : Within rs s (orderTaken key t) := by
  unfold orderTaken
  split
  · exact h
  next b hb =>
    have ha : (b.addr + 12, 8) ∈ rs := h.blocks _ (by simp [orderAddrs, hb])
    have hjoin : ∀ {v : State}, Within rs s v → Within rs s (updOcu (fun o =>
        { o with longList := o.longList ++ [{ key := key, addr := b.addr, kind := b.kind, notify := b.notify }] }) v) :=
      fun hv => within_updOcu hv fun x hx => by
        simp only [orderAddrs, updOcu, List.map_append, List.map_cons, List.map_nil, ← List.append_assoc] at hx
        rcases List.mem_append.mp hx with hx | hx
        · exact hv.blocks x hx
        · rw [List.mem_singleton.mp hx]
          exact ha
    refine within_stopIfHalted (within_leaveBlock (hjoin ?_) _)
    dsimp only
    split
    · exact within_writeBytes ((within_drawFree).mpr h) ha
    · exact within_orderWriteRefused h _ _

/-- R182: the end of a long order. -/
theorem within_endLong (key : LongKey) (st : BlockState) (code : ResultCode) (detail : Option Nat) :
    Within rs s (endLong key st code detail t) := by
  unfold endLong
  split
  · exact h
  next o ho =>
    have ha : (o.addr + 12, 8) ∈ rs := h.blocks _
      (List.mem_append_right _ (List.mem_map_of_mem (List.mem_of_find?_eq_some ho)))
    refine within_finalWrite (within_updOcu h fun a hx => h.blocks a ?_) _ _ _ _ _ ha (fun hx => by cases hx)
    rcases List.mem_append.mp hx with hx | hx
    · exact List.mem_append_left _ hx
    · exact List.mem_append_right _ ((List.filter_sublist.map _).subset hx)

theorem within_endPending (l : LaneId) (st : BlockState) (code : ResultCode) (detail : Option Nat) :
    Within rs s (endPending l st code detail t) := by
  unfold endPending
  split
  · exact within_endLong ((within_updLsq _ _).mpr h) _ _ _ _
  · exact h

end

end
end Sys2Proof.Machine
end

