-- ==== Sys2Proof/Proofs/BlocksWithin.lean ====
section
/-! The work of the lanes within the records of an event (`Within`): what the ends of entries, tests, calibrations and
health records store is the state of the orders they finish. -/

namespace Sys2Proof.Machine

section
variable {rs : List (Nat × Nat)} {s t : State} (h : Within rs s t)
include h

/-! ### The lane -/

theorem within_drainTest (l : LaneId) : Within rs s (drainTest l t) := by
  unfold drainTest
  split
  · exact within_endPending (by simpa using h) _ _ _ _
  · exact h

theorem within_retireLane (l : LaneId) : Within rs s (retireLane l t) := by
  unfold retireLane
  split
  · exact h
  dsimp only
  split
  · exact within_drainTest (by simpa using h) l
  · exact within_endPending (by simpa using h) _ _ _ _
  · simpa using h

theorem within_warmTest (l : LaneId) : Within rs s (warmTest l t) := by
  unfold warmTest
  split
  · dsimp only
    split
    · simpa using h
    · exact (within_laneEvent _ _ _ _).mpr (within_endPending (by simpa using h) _ _ _ _)
  · exact h

theorem within_warmHeads (l : LaneId) : Within rs s (warmHeads l t) := within_warmTest (by simpa using h) l

/-! ### Health records -/

theorem within_retireElement (l : LaneId) (a : AttrId) : Within rs s (retireElement l a t) := by
  unfold retireElement
  split
  case h_1 | h_2 => exact within_retireLane h l
  all_goals simpa using h

theorem within_retireRecord (l : LaneId) (a : AttrId) : Within rs s (retireRecord l a t) :=
  within_retireElement (by simpa using h) l a

theorem within_enterFailing (l : LaneId) (a : AttrId) : Within rs s (enterFailing l a t) := by
  unfold enterFailing
  dsimp only
  split
  case h_3 => exact within_retireRecord (by simpa using h) l a
  all_goals simpa using h

theorem within_failingTest (l : LaneId) (a : AttrId) : Within rs s (failingTest l a t) := by
  unfold failingTest
  split
  · exact within_enterFailing h l a
  all_goals simpa using h

theorem within_evaluate (l : LaneId) (a : AttrId) (raw normal : Int) : Within rs s (evaluate l a raw normal t) :=
  within_failingTest (by simpa using h) l a

theorem within_countBlock (l : LaneId) (a : AttrId) : Within rs s (countBlock l a t) := by
  unfold countBlock
  dsimp only
  split
  · simpa using h
  · exact (within_updAttr _ _ _).mpr (within_evaluate h _ _ _ _)

/-! ### Tests -/

theorem within_endLaneTest (l : LaneId) (r : TestResult) (how : TestExit) : Within rs s (endLaneTest l r how t) := by
  unfold endLaneTest
  split
  · exact h
  dsimp only
  rw [within_raise]
  split
  all_goals
    refine within_endLong ?_ _ _ _ _
    rw [within_updHmu, within_setHold]
    exact within_ite (by simpa using h) (by simpa using h)

theorem within_endAudit (r : TestResult) : Within rs s (endAudit r t) := by
  unfold endAudit
  split
  · exact h
  dsimp only
  rw [within_raise]
  split <;> exact within_endLong (by simpa using h) _ _ _ _

/-! ### Deliveries and the ends of entries -/

theorem within_deliver (l : LaneId) (e : Entry) (v : Verdict) : Within rs s (deliver l e v t) := by
  unfold deliver
  dsimp only
  rw [within_gateWork]
  exact within_countBlock (within_countBlock (by simpa using h) _ _) _ _

theorem within_deliverRun (l : LaneId) (n : Nat) : Within rs s (deliverRun l n t) := by
  induction n generalizing t with
  | zero => exact h
  | succ n ih =>
    unfold deliverRun
    split
    · exact h
    · split
      · exact h
      · exact ih (within_deliver h l _ _)

theorem within_deliverAll (l : LaneId) : Within rs s (deliverAll l t) := within_deliverRun h l _

theorem within_finalise (l : LaneId) (serial : Nat) (o : ItemOutcome) : Within rs s (finalise l serial o t) := by
  unfold finalise
  split
  · exact h
  · refine within_drainTest ((within_leaveQueue _ _ _).mpr ?_) l
    split <;> simpa using h

theorem within_stopLane (l : LaneId) : Within rs s (stopLane l t) := by
  unfold stopLane
  dsimp only
  rw [within_laneEvent, within_raise]
  refine within_endLaneTest ?_ l _ _
  rw [within_dropWarming]
  exact within_endPending (by simpa using h) _ _ _ _

theorem within_jam (l : LaneId) (y : Eye) (cause : Nat) : Within rs s (jam l y cause t) := by
  unfold jam
  dsimp only
  split
  · exact within_stopLane (by simpa using h) l
  · simpa using h

theorem within_countLoss (l : LaneId) (j : JamEye) : Within rs s (countLoss l j t) := by
  unfold countLoss
  dsimp only
  split
  · exact within_jam (by simpa using h) l _ _
  · simpa using h

theorem within_loseEntry (l : LaneId) (serial : Nat) (j : JamEye) : Within rs s (loseEntry l serial j t) :=
  within_countLoss (by simpa using within_finalise h l serial .lost) l j

theorem within_forceDelivery (l : LaneId) (e : Entry) : Within rs s (forceDelivery l e t) := by
  have hgiven : Within rs s (giveVerdict l e.serial (plainVerdict .late) t) := by simpa using h
  unfold forceDelivery
  dsimp only
  split
  · exact hgiven
  · split
    · exact hgiven
    · exact within_deliverAll (within_deliver hgiven l _ _) l

theorem within_loseScanning (l : LaneId) : Within rs s (loseScanning l t) := by
  unfold loseScanning
  split
  · exact within_deliverAll (within_foldl (fun u e hu => by simpa using hu) _ t h) l
  · exact h

/-! ### Verdicts and the scorer -/

theorem within_reportVerdict (l : LaneId) (k : VerdictKind) : Within rs s (reportVerdict l k t) := by
  unfold reportVerdict
  refine within_countBlock ?_ _ _
  split <;> simpa using h

theorem within_returnVerdict (l : LaneId) (serial : Nat) (v : Verdict) : Within rs s (returnVerdict l serial v t) :=
  within_reportVerdict (within_deliverAll (by simpa using h) l) l v.kind

theorem within_takeJobs (n : Nat) : Within rs s (takeJobs n t) := by
  induction n generalizing t with
  | zero => exact h
  | succ n ih =>
    unfold takeJobs
    split
    · split
      · exact ih (within_returnVerdict (by simpa using h) _ _ _)
      · simpa using h
    · exact h

theorem within_takeJob : Within rs s (takeJob t) := within_takeJobs h _

theorem within_postJob (l : LaneId) (e : Entry) (trace : List (List Nat)) : Within rs s (postJob l e trace t) := by
  unfold postJob
  split
  · exact within_takeJob (by simpa using h)
  · exact within_returnVerdict h _ _ _

theorem within_completeJob : Within rs s (completeJob t) := by
  unfold completeJob
  split
  · exact within_takeJob (within_returnVerdict (by simpa using h) _ _ _)
  · exact h

theorem within_keepSample (l : LaneId) (e : Entry) (readings : List (BitVec 12)) :
    Within rs s (keepSample l e readings t) := by
  unfold keepSample
  dsimp only
  split
  · exact within_postJob (by simpa using h) _ _ _
  · simpa using h

theorem within_takeSample (l : LaneId) (e : Entry) (readings : List (BitVec 12)) :
    Within rs s (takeSample l e readings t) := by
  unfold takeSample
  split
  · simpa using h
  · exact within_keepSample h l e readings

/-! ### Edges -/

theorem within_createEntry (l : LaneId) (c : BeltSample) : Within rs s (createEntry l c t) := by
  unfold createEntry
  dsimp only
  refine within_deliverAll ?_ l
  rw [within_creationVerdicts]
  exact within_countBlock (by simpa using h) _ _

theorem within_entryArrival (l : LaneId) (c : BeltSample) : Within rs s (entryArrival l c t) := by
  unfold entryArrival
  dsimp only
  refine within_ite (within_endLaneTest ?_ l _ _) ?_ <;>
    exact within_ite (within_createEntry h l c) (by simpa using h)

theorem within_entryDeparture (l : LaneId) (c : BeltSample) : Within rs s (entryDeparture l c t) := by
  unfold entryDeparture
  dsimp only
  refine within_deliverAll ?_ l
  rw [within_updTrack]
  split
  · exact h
  · split <;> simpa using h

theorem within_arrivePocket (l : LaneId) (q : Pocket) (p : Pos) : Within rs s (arrivePocket l q p t) := by
  unfold arrivePocket
  dsimp only
  split
  · simpa using h
  · refine within_finalise ?_ l _ _
    rw [within_pocketArrival]
    have hseen : ∀ u, Within rs s u → Within rs s (countBlock l .pocketAccuracy u) := fun u hu =>
      within_countBlock hu _ _
    split
    · rw [within_rerouteAtEye]
      exact hseen _ (by simpa using h)
    · exact hseen _ (by simpa using h)

theorem within_trimTest (l : LaneId) (d : Side) : Within rs s (trimTest l d t) := by
  unfold trimTest
  dsimp only
  split
  · exact h
  · exact within_evaluate (by simpa using h) _ _ _ _

theorem within_compareVerify (l : LaneId) (d : Side) (seen : Pos) : Within rs s (compareVerify l d seen t) := by
  unfold compareVerify
  split
  · simpa using h
  · dsimp only
    split
    · exact within_trimTest (by simpa using h) l d
    · simpa using h

/-! ### Heads -/

theorem within_spitExpiry (l : LaneId) (d : Side) : Within rs s (spitExpiry l d t) := by
  unfold spitExpiry
  dsimp only
  rw [within_dryTest, within_gapRequestTest]
  exact within_evaluate (by simpa using h) _ _ _ _

theorem within_completeSpit (l : LaneId) (d : Side) : Within rs s (completeSpit l d t) := by
  unfold completeSpit
  dsimp only
  refine within_warmTest ?_ l
  rw [within_wetTest]
  exact within_evaluate (by simpa using h) _ _ _ _

/-! ### Calibrations -/

theorem within_finishCalibration (l : LaneId) (kind : Nat) (pairs : List CalPair) (clamped : Nat) :
    Within rs s (finishCalibration l kind pairs clamped t) := by
  have hmeasured : ∀ {u} (raw normal : Int), Within rs s u → Within rs s (setHold l .gapCal false
      (evaluate l .calCurrency 0 (calCurrencyValue 0) (calFinished l (evaluate l .lampReserve raw normal u)))) :=
    fun raw normal hu => by
      rw [within_setHold]
      refine within_evaluate ?_ _ _ _ _
      rw [within_calFinished]
      exact within_evaluate hu _ _ _ _
  unfold finishCalibration
  dsimp only
  refine within_ite ((within_setHold _ _ _).mpr (hmeasured _ _ ?_)) (hmeasured _ _ ?_) <;>
    exact within_ite (by simpa using h) (by simpa using h)

theorem within_tellRequester (l : LaneId) (r : Option CalRequester) (clamped : Nat) :
    Within rs s (tellRequester l r clamped t) := by
  unfold tellRequester
  split
  · exact h
  · split
    · exact within_warmHeads h l
    · exact h
  · exact within_endLaneTest h l _ _

theorem within_completeLongCal (l : LaneId) (x y : List (List (BitVec 12))) : Within rs s (completeLongCal l x y t) :=
  within_tellRequester (within_finishCalibration (by simpa using h) _ _ _ _) l _ _

theorem within_completeShortCal (l : LaneId) (x y : List (List (BitVec 12))) : Within rs s (completeShortCal l x y t) :=
  within_finishCalibration (by simpa using h) _ _ _ _

theorem within_calExpiry (l : LaneId) : Within rs s (calExpiry l t) := by
  unfold calExpiry
  dsimp only
  rw [within_gapCalTest]
  exact within_evaluate (by simpa using h) _ _ _ _

/-! ### Self-tests -/

theorem within_completeCalCheck (l : LaneId) (readings : List (List (BitVec 12))) :
    Within rs s (completeCalCheck l readings t) := by
  unfold completeCalCheck
  dsimp only
  split
  · simpa using h
  · exact within_endLaneTest (by simpa using h) l _ _

theorem within_judgeStep (l : LaneId) (step : Nat) : Within rs s (judgeStep l step t) := by
  have hend : ∀ r how, Within rs s (endLaneTest l r how t) := fun r how => within_endLaneTest h l r how
  unfold judgeStep
  dsimp only
  split
  · exact hend _ _
  · split
    · exact hend _ _
    · split
      · exact hend _ _
      · simpa using h

/-- R63: an audit evaluation stores its entry at the next place of the result area. -/
theorem within_completeAudit {a : Audit} (ha : (a.nextAddr, 4) ∈ rs) : Within rs s (completeAudit a t) := by
  have hlength : ∀ k w, (auditEntry k w).length = 4 := fun k w => by
    unfold auditEntry
    split
    · rfl
    · split <;> rfl
  unfold completeAudit
  dsimp only
  have hwritten : Within rs s (updHmu (fun m => { m with audit := some (auditStep a) })
      (writeBytes a.nextAddr (auditEntry (a.left.headD 0) (auditResult (a.left.headD 0) (idleDone t))) (idleDone t))) :=
    (within_updHmu _).mpr (within_writeBytes (by simpa using h) (by rw [hlength]; exact ha))
  split
  · split
    · exact within_endAudit hwritten _
    · exact (within_askIdle _).mpr hwritten
  · exact within_endAudit (by simpa using h) _

end

end Sys2Proof.Machine
end

