-- ==== Sys2Proof/Proofs/OrdersWithin.lean ====
section
/-! The orders and the reads of the chain within the records of an event (`Within`): table reads, snapshots, pages,
lane, pocket and test orders store the state of their order and the record that they name. -/

namespace Sys2Proof.Machine

/-! ### The lengths of the records -/

theorem identifyBody_length (s : State) : (identifyBody s).length = 40 := by
  simp only [identifyBody, List.length_append, le_length, List.length_cons, List.length_nil]

theorem length_sealRecord (off : Nat) (bs : List Byte) (h : off + 2 ≤ bs.length) :
    (sealRecord off bs).length = bs.length := by
  simp [sealRecord]
  omega

theorem pageHeader_length (c : ClosedPage) : (pageHeader c).length = 32 := by
  unfold pageHeader
  dsimp only
  rw [length_sealRecord] <;> simp only [List.length_append, le_length, List.length_cons, List.length_nil]; decide

theorem length_flatMap_const {α : Type} {f : α → List Byte} {n : Nat} (hf : ∀ x, (f x).length = n) (xs : List α) :
    (xs.flatMap f).length = n * xs.length := by
  induction xs with
  | nil => rfl
  | cons x xs ih =>
    rw [List.flatMap_cons, List.length_append, hf, ih, List.length_cons]
    ring

theorem tallyImage_length (l : LaneId) (zf : Nat) (s : State) :
    (tallyImage l zf s).length = 16 + 4 * (s.tally.get l).length := by
  have hcounts := length_flatMap_const (f := le 4) (fun x => le_length 4 x) (s.tally.get l)
  simp only [tallyImage, List.length_append, hcounts, le_length, List.length_cons, List.length_nil]

theorem attrBytes_length (l : LaneId) (a : AttrId) (s : State) : (attrBytes l a s).length = 24 := by
  simp [attrBytes, leInt]

theorem logBytes_length (e : Option LogEntry) : (logBytes e).length = 16 := by
  cases e <;> simp [logBytes]

theorem healthImage_length (s : State) : (healthImage s).length = 792 := by
  have h0 := length_flatMap_const (f := fun a => attrBytes .lane0 a s) (attrBytes_length .lane0 · s) allAttrs
  have h1 := length_flatMap_const (f := fun a => attrBytes .lane1 a s) (attrBytes_length .lane1 · s) allAttrs
  have hlog := length_flatMap_const logBytes_length s.hmu.log.toList
  have hattrs : allAttrs.length = 11 := rfl
  simp only [healthImage, List.length_append, h0, h1, hlog, hattrs, le_length, List.length_cons, List.length_nil,
    Vector.length_toList]

theorem pocketBytes_length (r : PocketRec) : (pocketBytes r).length = 4 := by simp [pocketBytes]

theorem laneStatus_length (l : LaneId) (s : State) : (laneStatus l s).length = 40 := by
  have hpockets := length_flatMap_const (f := fun p => pocketBytes (pocketRec l p s)) (fun _ => pocketBytes_length _)
    allPockets
  have hcount : allPockets.length = 8 := rfl
  simp only [laneStatus, List.length_append, hpockets, hcount, List.length_cons, List.length_nil]

theorem testProgress_length (l : LaneId) (s : State) : (testProgress l s).length = 2 := by
  unfold testProgress
  split
  · rfl
  · split <;> rfl

theorem auditProgress_length (s : State) : (auditProgress s).length = 2 := by
  unfold auditProgress
  split <;> rfl

theorem statusContents_length (s : State) : (statusContents s).length = 148 := by
  unfold statusContents
  simp only [List.length_append, le_length, testProgress_length, auditProgress_length, laneStatus_length,
    List.length_cons, List.length_nil]

theorem statusBlock_length (n : BitVec 32) (s : State) : (statusBlock n s).length = 160 := by
  unfold statusBlock
  rw [List.length_append, List.length_append, List.length_append, statusContents_length, le_length, le_length]

section
variable {rs : List (Nat × Nat)} {s t : State} (h : Within rs s t)
include h

theorem Within.only {u : State} (ho : Only elsewhere t u) : Within rs s u := (within_iff ho).mpr h

/-! ### Reads of the chain -/

/-- R180: a block taken, or refused at once, whose state bytes are in the records. -/
theorem within_takeBlock {b : OrderBlock} (hb : (b.addr + 12, 8) ∈ rs) : Within rs s (takeBlock b t) := by
  have htaken : Within rs s (updOcu (fun o => { o with current := some b, waiting := false }) t) := by
    refine within_updOcu h fun a ha => ?_
    rcases List.mem_cons.mp ha with rfl | ha
    · exact hb
    · exact h.blocks a (List.mem_append_right _ ha)
  unfold takeBlock
  dsimp only
  split
  case h_2 | h_3 => exact htaken
  case h_1 => exact within_orderRefused htaken _ _
  case h_4 => exact within_ite (within_orderRefused htaken _ _) (within_orderRefused htaken _ _)
  case h_5 => exact within_ite htaken (within_orderRefused htaken _ _)

theorem within_readBlock (hb : (chainAddr t + 12, 8) ∈ rs) : Within rs s (readBlock t) := by
  unfold readBlock
  dsimp only
  split
  · split
    · exact within_takeBlock h hb
    · exact within_chainWait h
    all_goals exact within_chainFault h _ _
  · exact within_orderReadRefused h

theorem within_readLink (hb : (linkOf t + 12, 8) ∈ rs) : Within rs s (readLink t) := by
  have haddrs : orderAddrs (atLink t) = orderAddrs t := by dsimp only [orderAddrs, atLink, updOcu]
  have hlink : Within rs s (atLink t) := within_updOcu h fun a ha => h.blocks a (haddrs ▸ ha)
  have hblock : Within rs s (readBlock (atLink t)) := within_readBlock hlink (by rw [chainAddr_atLink]; exact hb)
  by_cases ha : allowed .orderRead (chainAddr t) 8 t = true
  · rw [readLink_allowed ha]
    exact within_ite (within_chainWait h) (within_ite hblock (within_chainFault h _ _))
  · unfold readLink
    dsimp only
    rw [if_neg ha]
    exact within_orderReadRefused h

theorem within_chainRead (hb : (chainAddr t + 12, 8) ∈ rs) (hl : (linkOf t + 12, 8) ∈ rs) :
    Within rs s (chainRead t) := by
  unfold chainRead
  split
  · exact within_readBlock h hb
  · exact within_readLink h hl

theorem within_startChain (hb : (chainAddr t + 12, 8) ∈ rs) (hl : (linkOf t + 12, 8) ∈ rs) :
    Within rs s (startChain t) := by
  have hstarted : Within rs s (chainStarted t) := ⟨h.attn, h.waiting, h.sent, h.enable, h.blocks, h.mem⟩
  unfold startChain
  dsimp only
  split
  · exact hstarted
  · split
    · exact within_readLink hstarted hl
    · exact within_ite (within_chainFault hstarted _ _) (within_readBlock hstarted hb)

theorem within_stopChain : Within rs s (stopChain t) := ⟨h.attn, h.waiting, h.sent, h.enable, h.blocks, h.mem⟩

theorem within_writeChain (p : BitVec 64 → BitVec 64) : Within rs s (writeChain p t) := by
  unfold writeChain
  dsimp only
  split <;> exact ⟨h.attn, h.waiting, h.sent, h.enable, h.blocks, h.mem⟩

/-! ### Port and tables -/

theorem within_configurePort (a : Nat) (m : BitVec 16) (poll low : Nat) : Within rs s (configurePort a m poll low t) :=
  within_orderDone (t := portConfigured a m poll low t) ⟨h.attn, h.waiting, h.sent, h.enable, h.blocks, h.mem⟩ none

theorem within_tableCurrent (k : ClassTable) : Within rs s (tableCurrent k t) := within_endAudit (by simpa using h) _

theorem within_acceptTable (n mode : Nat) (b : List Byte) : Within rs s (acceptTable n mode b t) :=
  within_ite (within_orderDone (within_tableCurrent (by simpa using h) _) _) (within_orderTaken (by simpa using h) _)

theorem within_loadClasses (a n mode : Nat) : Within rs s (loadClasses a n mode t) := by
  unfold loadClasses
  split
  · exact within_orderFaulted h _ _
  · refine within_ite (within_orderRefused h _ _) (within_ite (within_orderRefused h _ _) ?_)
    split
    · exact within_orderRefused h _ _
    · exact within_ite (within_orderRefused h _ _) (within_ite (within_orderRefused h _ _) (within_acceptTable h _ _ _))

theorem within_applyStaged (k : ClassTable) : Within rs s (applyStaged k t) :=
  within_endLong (within_tableCurrent (by simpa using h) _) _ _ _ _

theorem within_acceptGeometry (l : LaneId) (g : Geometry) : Within rs s (acceptGeometry l g t) := by
  have hgeom : Within rs s { t with geom := t.geom.upd l (fun _ => g) } :=
    ⟨h.attn, h.waiting, h.sent, h.enable, h.blocks, h.mem⟩
  unfold acceptGeometry
  refine within_orderDone (within_foldl (fun u p hu => by simpa using hu) _ _ ?_) none
  refine within_foldl (fun u p hu => by simpa using hu) _ _ ?_
  exact within_foldl (fun u p hu => by simpa using hu) _ _ hgeom

theorem within_loadGeometry (a lane : Nat) : Within rs s (loadGeometry a lane t) := by
  unfold loadGeometry
  split
  · exact within_orderRefused h _ _
  · split
    · exact within_orderFaulted h _ _
    · refine within_ite (within_orderRefused h _ _) (within_ite (within_orderRefused h _ _) ?_)
      split
      · exact within_orderRefused h _ _
      · exact within_acceptGeometry h _ _

theorem within_loadStyles (a : Nat) : Within rs s (loadStyles a t) := by
  unfold loadStyles
  split
  · exact within_orderFaulted h _ _
  · dsimp only
    split
    · exact within_orderFaulted h _ _
    · refine within_ite (within_orderRefused h _ _) ?_
      split
      · exact within_orderRefused h _ _
      · split
        · exact within_orderRefused h _ _
        · exact within_orderDone (by simpa using h) none

theorem within_setClock (year month day seconds period : Nat) :
    Within rs s (setClock year month day seconds period t) :=
  within_ite (within_orderDone (by simpa using h) none) (within_orderRefused h _ _)

theorem within_testThreshold (e : ThresholdEntry) : Within rs s (testThreshold e t) := by
  unfold testThreshold
  split
  · exact within_ite (within_retireRecord h _ _) (within_failingTest h _ _)
  · exact h

theorem within_acceptThresholds (es : List ThresholdEntry) : Within rs s (acceptThresholds es t) := by
  have happlied : Within rs s (es.foldl (fun u e => applyThreshold e u) t) :=
    within_foldl (fun u e hu => by simpa using hu) es t h
  have htested := within_foldl (f := fun u e => testThreshold e u) (fun u e hu => within_testThreshold hu e) es
    (freeLane .lane1 (freeLane .lane0 (es.foldl (fun u e => applyThreshold e u) t))) (by simpa using happlied)
  exact within_orderDone (by simpa using htested) none

theorem within_loadThresholds (a : Nat) : Within rs s (loadThresholds a t) := by
  unfold loadThresholds
  split
  · exact within_orderFaulted h _ _
  · dsimp only
    split
    · exact within_orderFaulted h _ _
    · refine within_ite (within_orderRefused h _ _) (within_ite (within_orderRefused h _ _) ?_)
      split
      · exact within_orderRefused h _ _
      · exact within_acceptThresholds h _

/-! ### Pages and snapshots -/

theorem within_givePages (a n : Nat) : Within rs s (givePages a n t) := by
  unfold givePages
  refine within_ite (within_orderRefused h _ _) ?_
  split
  · exact within_orderFaulted h _ _
  · dsimp only
    split
    · exact within_orderRefused (by simpa using h) _ _
    · exact within_ite (within_orderRefused h _ _) (within_orderDone (by simpa using h) none)

theorem within_flushJournal : Within rs s (flushJournal t) := by
  unfold flushJournal
  split
  · exact within_orderDone h _
  · refine within_ite (within_orderDone h _) ?_
    rw [within_closePage]
    exact within_updOcu h h.blocks

theorem within_finishFlush (seq : Nat) : Within rs s (finishFlush seq t) := within_ite (within_orderDone h none) h

/-- R149: a page that is written out is stored whole. -/
theorem within_writeOutPage {c : ClosedPage} (hc : (c.page.addr, 32 + (pageBody c.page).length) ∈ rs) :
    Within rs s (writeOutPage c t) := by
  have hheader := pageHeader_length c
  rw [writeOutPage_eq]
  refine within_finishFlush ?_ _
  unfold pageOut pageWritten pageFaulted pageLost
  refine within_ite ?_ (by simpa using h)
  rw [within_takePage, within_raise, within_countFilled]
  refine within_store (within_store h hc ?_ ?_) hc ?_ ?_ <;> dsimp only <;> omega

theorem within_tallySnapshot {a lane : Nat} (zf : Nat)
    (hr : ∀ l, laneOfIndex lane = some l → (a, 16 + 4 * (t.tally.get l).length) ∈ rs) :
    Within rs s (tallySnapshot a lane zf t) := by
  unfold tallySnapshot
  split
  · exact within_orderRefused h _ _
  next l hl =>
    have hwritten : Within rs s (writeBytes a (tallyImage l zf t) t) :=
      within_writeBytes h (by rw [tallyImage_length]; exact hr l hl)
    refine within_ite (within_orderRefused h _ _) (within_ite ?_ (within_orderFaulted h _ _))
    exact within_orderDone (within_ite (by simpa using hwritten) hwritten) none

theorem within_healthSnapshot {a : Nat} (hr : (a, 792) ∈ rs) : Within rs s (healthSnapshot a t) :=
  within_ite (within_orderDone (within_writeBytes h (by rw [healthImage_length]; exact hr)) none)
    (within_orderFaulted h _ _)

/-! ### Lane, pocket and test orders -/

theorem within_pendOrder (l : LaneId) (p : PendingLane) : Within rs s (pendOrder l p t) :=
  within_orderTaken (by simpa using h) _

theorem within_runWarming (l : LaneId) : Within rs s (runWarming l t) := within_pendOrder (by simpa using h) l _

theorem within_runLane (l : LaneId) : Within rs s (runLane l t) := by
  unfold runLane
  refine within_ite (within_orderRefused h _ _) (within_ite (within_orderRefused h _ _) ?_)
  split
  case h_1 => exact within_runWarming h l
  case h_2 | h_3 => exact within_ite (within_orderDone (by simpa using h) none) (within_runWarming h l)
  case h_4 => exact within_orderNothing h
  all_goals exact within_orderRefused h _ _

theorem within_drainRunning (l : LaneId) : Within rs s (drainRunning l t) := by
  have hdraining : Within rs s (changeLane l .draining .order t) := by simpa using h
  exact within_ite (within_orderDone (within_drainTest hdraining l) none) (within_pendOrder hdraining l _)

theorem within_drainLane (l : LaneId) : Within rs s (drainLane l t) := by
  unfold drainLane
  split
  case h_1 | h_2 | h_3 => exact within_orderNothing h
  case h_4 => exact within_drainRunning h l
  case h_5 => exact within_ite (within_pendOrder h l _) (within_orderRefused h _ _)
  all_goals exact within_orderRefused h _ _

theorem within_standbyLane (l : LaneId) : Within rs s (standbyLane l t) := by
  simpa [standbyLane] using within_loseScanning h l

theorem within_offLane (l : LaneId) : Within rs s (offLane l t) := by
  simpa [offLane] using within_loseScanning h l

theorem within_standby (l : LaneId) : Within rs s (standby l t) := by
  unfold standby
  split
  case h_1 => exact within_orderNothing h
  case h_2 => exact within_ite (within_orderDone (within_standbyLane h l) none) (within_orderRefused h _ _)
  all_goals exact within_orderRefused h _ _

theorem within_switchOff (l : LaneId) : Within rs s (switchOff l t) := by
  unfold switchOff
  split
  case h_1 => exact within_orderNothing h
  case h_2 | h_3 => exact within_ite (within_orderDone (within_offLane h l) none) (within_orderRefused h _ _)
  all_goals exact within_orderRefused h _ _

theorem within_clearStopped (l : LaneId) : Within rs s (clearStopped l t) := by
  unfold clearStopped
  split
  case h_1 => exact within_orderDone (by simpa using h) none
  all_goals exact within_orderRefused h _ _

theorem within_abortLane (l : LaneId) : Within rs s (abortLane l t) := by
  unfold abortLane
  dsimp only
  rw [within_laneEvent]
  refine within_endPending ?_ _ _ _ _
  rw [within_setHold, within_updLsq, within_dropWarming]
  exact within_endLaneTest (by simpa using h) l _ _

theorem within_disablePocket (l : LaneId) (p : Pocket) : Within rs s (disablePocket l p t) := by
  unfold disablePocket
  split
  case h_3 => exact within_orderNothing h
  all_goals exact within_orderDone (by simpa using h) none

theorem within_enablePocket (l : LaneId) (p : Pocket) : Within rs s (enablePocket l p t) := by
  unfold enablePocket
  split
  case h_1 | h_2 => exact within_orderNothing h
  case h_3 => exact within_orderDone (by simpa using h) none
  all_goals exact within_ite (within_orderDone (by simpa using h) none) (within_orderNothing h)

theorem within_startLaneTest (lane : Nat) {start : LaneId → State → State} (hstart : ∀ l, Within rs s (start l t)) :
    Within rs s (startLaneTest lane start t) := by
  unfold startLaneTest
  split
  · exact within_orderRefused h _ _
  · have hrefused := within_orderRefused h .busy none
    exact within_ite hrefused (within_ite (within_orderTaken (hstart _) _) hrefused)

theorem within_startAudit (n : Nat) (spans : List (Nat × Nat)) (area : Nat) :
    Within rs s (startAudit n spans area t) := by
  unfold startAudit
  refine within_ite (within_orderRefused h _ _) (within_ite (within_orderRefused h _ _) ?_)
  split
  · exact within_orderRefused h _ _
  · refine within_ite (within_orderRefused h _ _) (within_ite ?_ (within_orderTaken (by simpa using h) _))
    exact (within_raise _).mpr (within_orderDone (by simpa using h) _)

theorem within_abortLaneTest (k : LaneTestKind) (lane : Nat) : Within rs s (abortLaneTest k lane t) := by
  unfold abortLaneTest
  split
  · exact within_orderRefused h _ _
  · split
    · exact within_orderNothing h
    · exact within_ite (within_orderDone (within_endLaneTest h _ _ _) none) (within_orderNothing h)

theorem within_abortTest (k : TestKind) (lane : Nat) : Within rs s (abortTest k lane t) := by
  unfold abortTest
  split
  · exact within_abortLaneTest h _ lane
  · exact within_abortLaneTest h _ lane
  · exact within_ite (within_orderDone (within_endAudit h _) none) (within_orderNothing h)

end

end Sys2Proof.Machine
end

