-- ==== Sys2Proof/Proofs/EventsWithin.lean ====
section
/-! Every command's event within the records that `storesOf` names for it. -/

namespace Sys2Proof.Machine

/-- A command left the state as it was, or its event came about: what `Within` allows, and then the end of the event. -/
def EndsWithin (rs : List (Nat × Nat)) (s t : State) : Prop := t = s ∨ ∃ u, t = settle s u ∧ Within rs s u

section
variable {rs : List (Nat × Nat)} {s t : State}

/-! ### The shapes of a meaning -/

theorem event_endsWithin {comes : Bool} {body : State → State} (h : event comes body s = .next t)
    (hb : Within rs s (body s)) : EndsWithin rs s t := by
  rcases event_next h with ⟨-, ht⟩ | ⟨-, ht⟩
  · exact Or.inr ⟨_, ht, hb⟩
  · exact Or.inl ht

theorem eventWithin_endsWithin {ok comes : Bool} {body : State → State} (h : eventWithin ok comes body s = .next t)
    (hb : Within rs s (body s)) : EndsWithin rs s t :=
  event_endsWithin (eventWithin_next h) hb

theorem next_endsWithin (h : Host.Outcome.next s = (.next t : Host.Outcome State Fault Refusal)) :
    EndsWithin rs s t := by
  cases h
  exact Or.inl rfl

theorem entryEvent_endsWithin {l : LaneId} {n : Nat} {comes : Entry → Bool} {body : Entry → State → State}
    (h : entryEvent l n comes body s = .next t) (hb : ∀ e, Within rs s (body e s)) : EndsWithin rs s t := by
  unfold entryEvent at h
  split at h
  · exact next_endsWithin h
  · exact event_endsWithin h (hb _)

section
variable (hs : Within rs s s)
include hs

theorem arrivalEvent_endsWithin {l : LaneId} {y : Eye} {n : Nat} {body : Pos → State → State}
    (h : arrivalEvent l y n body s = .next t) (hb : ∀ p u, Within rs s u → Within rs s (body p u)) :
    EndsWithin rs s t := by
  have hedge : Within rs s (acceptEdge l y true s) := by simpa using hs
  exact event_endsWithin h (within_ite (hb _ _ hedge) hedge)

theorem laneControl_endsWithin {a : LaneAction} {act : LaneId → State → State} (h : laneControl a act s = .next t)
    (hb : ∀ l, Within rs s (act l s)) : EndsWithin rs s t := by
  unfold laneControl at h
  split at h
  · split at h
    · refine event_endsWithin h ?_
      split
      · exact within_orderRefused hs _ _
      · exact hb _
    · exact next_endsWithin h
  · exact next_endsWithin h

theorem pocketControl_endsWithin {a : PocketAction} {act : LaneId → Pocket → Nat → State → State}
    (h : pocketControl a act s = .next t) (hb : ∀ l p n, Within rs s (act l p n s)) : EndsWithin rs s t := by
  unfold pocketControl at h
  split at h
  · split at h
    · refine event_endsWithin h ?_
      split
      · exact within_ite (within_orderRefused hs _ _) (hb _ _ _)
      · exact within_orderRefused hs _ _
    · exact next_endsWithin h
  · exact next_endsWithin h

/-! ### Belt, eyes and track entries -/

theorem encoderCount_endsWithin {l : LaneId} {f : Bool} (h : execEncoderCount l f s = .next t) : EndsWithin rs s t :=
  event_endsWithin h (hs.only (by apply countBelt_only (h := only_refl _ _) <;> simp [elsewhere]))

theorem speedInterval_endsWithin {l : LaneId} (h : execSpeedInterval l s = .next t) : EndsWithin rs s t :=
  event_endsWithin h (hs.only (updBelt_only l _ (only_refl _ _) (by simp [elsewhere])))

theorem eLeadingEdge_endsWithin {l : LaneId} {n : Nat} (h : execELeadingEdge l n s = .next t) : EndsWithin rs s t :=
  event_endsWithin h (within_ite (within_entryArrival (by simpa using hs) l _) (by simpa using hs))

theorem eTrailingEdge_endsWithin {l : LaneId} {n : Nat} (h : execETrailingEdge l n s = .next t) : EndsWithin rs s t :=
  event_endsWithin h (within_ite (within_entryDeparture (by simpa using hs) l _) (by simpa using hs))

theorem eyeTrailingEdge_endsWithin {l : LaneId} {y : Eye} {n : Nat} (h : execEyeTrailingEdge l y n s = .next t) :
    EndsWithin rs s t :=
  eventWithin_endsWithin h (by simpa using hs)

theorem longTimeout_endsWithin {l : LaneId} {n : Nat} (h : execLongTimeout l n s = .next t) : EndsWithin rs s t :=
  entryEvent_endsWithin h fun _ => within_deliverAll (by simpa using hs) l

theorem blockedEye_endsWithin {l : LaneId} {y : Eye} (h : execBlockedEye l y s = .next t) : EndsWithin rs s t := by
  unfold execBlockedEye at h
  exact event_endsWithin h (within_jam (by simpa using hs) l y 0)

theorem nearPointReached_endsWithin {l : LaneId} (h : execNearPointReached l s = .next t) : EndsWithin rs s t := by
  unfold execNearPointReached at h
  split at h
  · exact next_endsWithin h
  · exact event_endsWithin h (((within_updSfe l _).mpr hs).only
      (by apply comeNear_only (h := only_refl _ _) <;> simp [elsewhere]))

theorem clearPointReached_endsWithin {l : LaneId} (h : execClearPointReached l s = .next t) : EndsWithin rs s t := by
  unfold execClearPointReached at h
  split at h
  · exact next_endsWithin h
  · exact event_endsWithin h (by simpa using hs)

theorem sampleTaken_endsWithin {l : LaneId} {n : Nat} {r : List (BitVec 12)} (h : execSampleTaken l n r s = .next t) :
    EndsWithin rs s t := by
  unfold execSampleTaken at h
  split at h
  · split at h
    · exact next_endsWithin h
    · exact event_endsWithin h (within_takeSample hs l _ r)
  · cases h

theorem scoringComplete_endsWithin (h : execScoringComplete s = .next t) : EndsWithin rs s t :=
  event_endsWithin h (within_completeJob hs)

theorem forcedDelivery_endsWithin {l : LaneId} {n : Nat} (h : execForcedDelivery l n s = .next t) : EndsWithin rs s t :=
  entryEvent_endsWithin h fun e => within_forceDelivery hs l e

theorem bankPositionReached_endsWithin {l : LaneId} {n : Nat} (h : execBankPositionReached l n s = .next t) :
    EndsWithin rs s t :=
  entryEvent_endsWithin h fun _ => by simpa using hs

theorem tWindowPassed_endsWithin {l : LaneId} {n : Nat} (h : execTWindowPassed l n s = .next t) : EndsWithin rs s t :=
  entryEvent_endsWithin h fun _ => by simpa using hs

theorem cancelWindowPassed_endsWithin {l : LaneId} {n : Nat} {d : Side} (h : execCancelWindowPassed l n d s = .next t) :
    EndsWithin rs s t :=
  entryEvent_endsWithin h fun _ => hs.only (by apply passCancelWindow_only (h := only_refl _ _) <;> simp [elsewhere])

theorem arrivalT_endsWithin {l : LaneId} {n : Nat} (h : execArrivalT l n s = .next t) : EndsWithin rs s t :=
  arrivalEvent_endsWithin hs h fun _ _ hu =>
    hu.only (by apply arriveT_only (h := only_refl _ _) <;> simp [elsewhere])

theorem arrivalCancelEye_endsWithin {l : LaneId} {d : Side} {n : Nat} (h : execArrivalCancelEye l d n s = .next t) :
    EndsWithin rs s t :=
  arrivalEvent_endsWithin hs h fun _ _ hu =>
    hu.only (by apply arriveCancel_only (h := only_refl _ _) <;> simp [elsewhere])

theorem arrivalPocketEye_endsWithin {l : LaneId} {q : Pocket} {n : Nat} (h : execArrivalPocketEye l q n s = .next t) :
    EndsWithin rs s t :=
  arrivalEvent_endsWithin hs h fun p _ hu => within_arrivePocket hu l q p

theorem lostAtCancelEye_endsWithin {l : LaneId} {n : Nat} (h : execLostAtCancelEye l n s = .next t) :
    EndsWithin rs s t :=
  entryEvent_endsWithin h fun _ => within_loseEntry hs l _ _

theorem lostAtEndEye_endsWithin {l : LaneId} {n : Nat} (h : execLostAtEndEye l n s = .next t) : EndsWithin rs s t :=
  entryEvent_endsWithin h fun _ => within_loseEntry hs l _ _

/-! ### Gates, prints and heads -/

theorem verifyEdge_endsWithin {l : LaneId} {d : Side} {n : Nat} (h : execVerifyEdge l d n s = .next t) :
    EndsWithin rs s t :=
  event_endsWithin h (within_ite (within_compareVerify (by simpa using hs) l d _) (by simpa using hs))

theorem verifyEntryExpiry_endsWithin {l : LaneId} {d : Side} (h : execVerifyEntryExpiry l d s = .next t) :
    EndsWithin rs s t := by
  unfold execVerifyEntryExpiry at h
  split at h
  · exact next_endsWithin h
  · exact event_endsWithin h (by simpa using hs)

theorem gateOnEvent_endsWithin {l : LaneId} {g : Gate} (h : execGateOnEvent l g s = .next t) : EndsWithin rs s t := by
  unfold execGateOnEvent at h
  split at h
  · exact next_endsWithin h
  · refine event_endsWithin h ((within_gateWork l _).mpr (hs.only ?_))
    apply onEvent_only (h := only_refl _ _) <;> simp [elsewhere]

theorem gateWindowClose_endsWithin {l : LaneId} {g : Gate} (h : execGateWindowClose l g s = .next t) :
    EndsWithin rs s t := by
  unfold execGateWindowClose at h
  split at h
  · exact next_endsWithin h
  · exact event_endsWithin h (hs.only (by apply closeHead_only (h := only_refl _ _) <;> simp [elsewhere]))

theorem gateHoldExpiry_endsWithin {l : LaneId} {g : Gate} (h : execGateHoldExpiry l g s = .next t) :
    EndsWithin rs s t := by
  unfold execGateHoldExpiry at h
  split at h
  · exact event_endsWithin h (hs.only (by apply closeHead_only (h := only_refl _ _) <;> simp [elsewhere]))
  · exact next_endsWithin h

theorem printStart_endsWithin {l : LaneId} {d : Side} (h : execPrintStart l d s = .next t) : EndsWithin rs s t := by
  unfold execPrintStart at h
  split at h
  · exact next_endsWithin h
  · exact event_endsWithin h (hs.only (by apply startPrint_only (h := only_refl _ _) <;> simp [elsewhere]))

theorem printEnd_endsWithin {l : LaneId} {d : Side} (h : execPrintEnd l d s = .next t) : EndsWithin rs s t := by
  unfold execPrintEnd at h
  split at h
  · exact next_endsWithin h
  · exact event_endsWithin h (hs.only (by apply endPrint_only (h := only_refl _ _) <;> simp [elsewhere]))

theorem rasterLoadStart_endsWithin {l : LaneId} {d : Side} (h : execRasterLoadStart l d s = .next t) :
    EndsWithin rs s t :=
  event_endsWithin h (hs.only (startLoad_only l d (only_refl _ _) (by simp [elsewhere])))

theorem rasterLoadComplete_endsWithin {l : LaneId} {d : Side} (h : execRasterLoadComplete l d s = .next t) :
    EndsWithin rs s t :=
  event_endsWithin h (hs.only (finishLoad_only l d (only_refl _ _) (by simp [elsewhere])))

theorem spitTimerExpiry_endsWithin {l : LaneId} {d : Side} (h : execSpitTimerExpiry l d s = .next t) :
    EndsWithin rs s t :=
  event_endsWithin h (within_spitExpiry hs l d)

theorem spitGapTimeout_endsWithin {l : LaneId} {d : Side} (h : execSpitGapTimeout l d s = .next t) :
    EndsWithin rs s t :=
  event_endsWithin h (by simpa using hs)

theorem spitStart_endsWithin {l : LaneId} {d : Side} (h : execSpitStart l d s = .next t) : EndsWithin rs s t :=
  event_endsWithin h (by simpa using hs)

theorem spitComplete_endsWithin {l : LaneId} {d : Side} (h : execSpitComplete l d s = .next t) : EndsWithin rs s t :=
  event_endsWithin h (within_completeSpit hs l d)

theorem headTempReading_endsWithin {l : LaneId} {d : Side} {n : Nat} (h : execHeadTempReading l d n s = .next t) :
    EndsWithin rs s t :=
  eventWithin_endsWithin h (by simpa using hs)

/-! ### Lamps and calibrations -/

theorem lampWarmComplete_endsWithin {l : LaneId} (h : execLampWarmComplete l s = .next t) : EndsWithin rs s t :=
  event_endsWithin h (((within_updLsq l _).mpr hs).only
    (by apply warmCalibration_only (h := only_refl _ _) <;> simp [elsewhere]))

theorem lampRiseComplete_endsWithin {l : LaneId} (h : execLampRiseComplete l s = .next t) : EndsWithin rs s t := by
  unfold execLampRiseComplete at h
  split at h
  · exact next_endsWithin h
  · exact event_endsWithin h (hs.only (by apply finishRise_only (h := only_refl _ _) <;> simp [elsewhere]))

theorem idleTimerExpiry_endsWithin {l : LaneId} (h : execIdleTimerExpiry l s = .next t) : EndsWithin rs s t :=
  event_endsWithin h (by simpa using within_loseScanning hs l)

theorem feedReqChange_endsWithin {l : LaneId} {b : Bool} {n : Nat} (h : execFeedReqChange l b n s = .next t) :
    EndsWithin rs s t := by
  have hlevel : Within rs s (updLsq l (fun q => { q with feedReq := b }) s) := by simpa using hs
  refine event_endsWithin h (within_ite (hlevel.only ?_) hlevel)
  apply beginRise_only (h := only_refl _ _) <;> simp [elsewhere]

theorem longCalStart_endsWithin {l : LaneId} (h : execLongCalStart l s = .next t) : EndsWithin rs s t :=
  event_endsWithin h (by simpa using hs)

theorem longCalComplete_endsWithin {l : LaneId} {x y : List (List (BitVec 12))}
    (h : execLongCalComplete l x y s = .next t) : EndsWithin rs s t :=
  eventWithin_endsWithin h (within_completeLongCal hs l x y)

theorem calIntervalExpiry_endsWithin {l : LaneId} (h : execCalIntervalExpiry l s = .next t) : EndsWithin rs s t :=
  event_endsWithin h (within_calExpiry hs l)

theorem gapCalHoldExpiry_endsWithin {l : LaneId} (h : execGapCalHoldExpiry l s = .next t) : EndsWithin rs s t :=
  event_endsWithin h (by simpa using hs)

theorem shortCalStart_endsWithin {l : LaneId} (h : execShortCalStart l s = .next t) : EndsWithin rs s t :=
  event_endsWithin h (by simpa using hs)

theorem shortCalComplete_endsWithin {l : LaneId} {x y : List (List (BitVec 12))}
    (h : execShortCalComplete l x y s = .next t) : EndsWithin rs s t :=
  eventWithin_endsWithin h (within_completeShortCal hs l x y)

/-! ### Clock, scorer and tests -/

theorem clockSecond_endsWithin (h : execClockSecond s = .next t) : EndsWithin rs s t :=
  event_endsWithin h (hs.only (by apply clockSecond_only (h := only_refl _ _) <;> simp [elsewhere]))

theorem compositionComplete_endsWithin (h : execCompositionComplete s = .next t) : EndsWithin rs s t :=
  event_endsWithin h (hs.only (by apply finishComposition_only (h := only_refl _ _) <;> simp [elsewhere]))

theorem stagedTableApply_endsWithin (h : execStagedTableApply s = .next t) : EndsWithin rs s t := by
  unfold execStagedTableApply at h
  split at h
  · exact next_endsWithin h
  · exact event_endsWithin h (within_applyStaged hs _)

theorem idleWorkStart_endsWithin (h : execIdleWorkStart s = .next t) : EndsWithin rs s t :=
  event_endsWithin h (hs.only (by apply startIdle_only (h := only_refl _ _) <;> simp [elsewhere]))

theorem auditEvalComplete_endsWithin (ha : ∀ a, s.hmu.audit = some a → (a.nextAddr, 4) ∈ rs)
    (h : execAuditEvalComplete s = .next t) : EndsWithin rs s t := by
  unfold execAuditEvalComplete at h
  split at h
  · exact next_endsWithin h
  next a hn => exact event_endsWithin h (within_completeAudit hs (ha a hn))

theorem refCalCheckComplete_endsWithin {l : LaneId} {r : List (List (BitVec 12))}
    (h : execRefCalCheckComplete l r s = .next t) : EndsWithin rs s t :=
  eventWithin_endsWithin h (within_completeCalCheck hs l r)

theorem syntheticTraceDone_endsWithin {l : LaneId} (h : execSyntheticTraceDone l s = .next t) : EndsWithin rs s t :=
  event_endsWithin h (by simpa using hs)

theorem syntheticItemScored_endsWithin {l : LaneId} (h : execSyntheticItemScored l s = .next t) :
    EndsWithin rs s t := by
  unfold execSyntheticItemScored at h
  split at h
  · exact next_endsWithin h
  · exact event_endsWithin h (within_judgeStep (by simpa using hs) l _)

/-! ### Pockets -/

theorem swapRequest_endsWithin {l : LaneId} {p : Pocket} {b : Bool} {n : Nat}
    (h : execSwapRequest l p b n s = .next t) :
    EndsWithin rs s t := by
  have hpressed : Within rs s (updPocket l p (fun r => { r with button := b }) s) := by simpa using hs
  refine eventWithin_endsWithin h (within_ite (hpressed.only ?_) hpressed)
  apply swapPocket_only (h := only_refl _ _) <;> simp [elsewhere]

theorem trayOut_endsWithin {l : LaneId} {p : Pocket} {n : Nat} (h : execTrayOut l p n s = .next t) :
    EndsWithin rs s t :=
  event_endsWithin h (hs.only (by apply trayOut_only (h := only_refl _ _) <;> simp [elsewhere]))

theorem trayIn_endsWithin {l : LaneId} {p : Pocket} {n : Nat} (h : execTrayIn l p n s = .next t) : EndsWithin rs s t :=
  event_endsWithin h (hs.only (by apply trayIn_only (h := only_refl _ _) <;> simp [elsewhere]))

/-! ### The chain, pages and registers -/

theorem pageWriteOut_endsWithin
    (hp : ∀ c, s.jrn.closing.head? = some c → (c.page.addr, 32 + (pageBody c.page).length) ∈ rs)
    (h : execPageWriteOut s = .next t) : EndsWithin rs s t := by
  unfold execPageWriteOut at h
  split at h
  · exact next_endsWithin h
  next c _ hc => exact event_endsWithin h (within_writeOutPage hs (hp c (by rw [hc]; rfl)))

section
variable (hb : (chainAddr s + 12, 8) ∈ rs) (hl : (linkOf s + 12, 8) ∈ rs)
include hb hl

theorem pollTimerExpiry_endsWithin (h : execPollTimerExpiry s = .next t) : EndsWithin rs s t :=
  event_endsWithin h (within_chainRead hs hb hl)

theorem look_endsWithin (h : execLook s = .next t) : EndsWithin rs s t := event_endsWithin h (within_chainRead hs hb hl)

theorem runChainStart_endsWithin (h : execRunChainStart s = .next t) : EndsWithin rs s t :=
  event_endsWithin h (within_startChain hs hb hl)

end

theorem chainLinkRead_endsWithin (hl : (linkOf s + 12, 8) ∈ rs) (h : execChainLinkRead s = .next t) :
    EndsWithin rs s t :=
  event_endsWithin h (within_readLink hs hl)

theorem runChainStop_endsWithin (h : execRunChainStop s = .next t) : EndsWithin rs s t :=
  event_endsWithin h (within_stopChain hs)

theorem irqEnable_endsWithin (h : execIrqEnable s = .next t) : EndsWithin rs s t :=
  event_endsWithin h ⟨hs.attn, hs.waiting, hs.sent, hs.enable, hs.blocks, hs.mem⟩

theorem irqDisable_endsWithin (h : execIrqDisable s = .next t) : EndsWithin rs s t :=
  event_endsWithin h ⟨hs.attn, hs.waiting, hs.sent, hs.enable, hs.blocks, hs.mem⟩

theorem chainLoWrite_endsWithin {v : BitVec 32} (h : execChainLoWrite v s = .next t) : EndsWithin rs s t :=
  event_endsWithin h (within_writeChain hs _)

theorem chainHiWrite_endsWithin {v : BitVec 32} (h : execChainHiWrite v s = .next t) : EndsWithin rs s t :=
  event_endsWithin h (within_writeChain hs _)

theorem chainLoRead_endsWithin {b : ByteSel} (h : execChainLoRead b s = .next t) : EndsWithin rs s t :=
  eventWithin_endsWithin h ⟨hs.attn, hs.waiting, hs.sent, hs.enable, hs.blocks, hs.mem⟩

theorem chainHiRead_endsWithin {b : ByteSel} (h : execChainHiRead b s = .next t) : EndsWithin rs s t :=
  eventWithin_endsWithin h ⟨hs.attn, hs.waiting, hs.sent, hs.enable, hs.blocks, hs.mem⟩

theorem registerWriteIgnored_endsWithin {o w : Nat} {v : BitVec 32} (h : execRegisterWriteIgnored o w v s = .next t) :
    EndsWithin rs s t :=
  eventWithin_endsWithin h hs

/-! ### Orders of the shared blocks -/

theorem configurePort_endsWithin (h : execConfigurePort s = .next t) : EndsWithin rs s t := by
  unfold execConfigurePort at h
  split at h
  · refine event_endsWithin h ?_
    split
    · exact within_orderRefused hs _ _
    · exact within_ite (within_orderFaulted hs _ _) (within_configurePort hs _ _ _ _)
  · exact next_endsWithin h

theorem setWindows_endsWithin (h : execSetWindows s = .next t) : EndsWithin rs s t := by
  unfold execSetWindows at h
  split at h
  next ds _ =>
    have htaken : Within rs s (windowsTaken ds s) := ⟨hs.attn, hs.waiting, hs.sent, hs.enable, hs.blocks, hs.mem⟩
    refine event_endsWithin h ?_
    split
    · exact within_orderRefused hs _ _
    · exact within_orderDone htaken none
  · exact next_endsWithin h

theorem identify_endsWithin (hi : ∀ b, s.ocu.current = some b → (b.addr + 24, 40) ∈ rs) (h : execIdentify s = .next t) :
    EndsWithin rs s t := by
  unfold execIdentify at h
  split at h
  · refine event_endsWithin h (within_finishWith hs _ _ _ fun b hb _ => ?_)
    rw [identifyBody_length]
    exact hi b hb
  · exact next_endsWithin h

theorem loadClasses_endsWithin (h : execLoadClasses s = .next t) : EndsWithin rs s t := by
  unfold execLoadClasses at h
  split at h
  · exact event_endsWithin h (within_loadClasses hs _ _ _)
  · exact next_endsWithin h

theorem loadGeometry_endsWithin (h : execLoadGeometry s = .next t) : EndsWithin rs s t := by
  unfold execLoadGeometry at h
  split at h
  · exact event_endsWithin h (within_loadGeometry hs _ _)
  · exact next_endsWithin h

theorem loadStyles_endsWithin (h : execLoadStyles s = .next t) : EndsWithin rs s t := by
  unfold execLoadStyles at h
  split at h
  · exact event_endsWithin h (within_loadStyles hs _)
  · exact next_endsWithin h

theorem setClock_endsWithin (h : execSetClock s = .next t) : EndsWithin rs s t := by
  unfold execSetClock at h
  split at h
  · exact event_endsWithin h (within_setClock hs _ _ _ _ _)
  · exact next_endsWithin h

theorem loadThresholds_endsWithin (h : execLoadThresholds s = .next t) : EndsWithin rs s t := by
  unfold execLoadThresholds at h
  split at h
  · exact event_endsWithin h (within_loadThresholds hs _)
  · exact next_endsWithin h

theorem givePages_endsWithin (h : execGivePages s = .next t) : EndsWithin rs s t := by
  unfold execGivePages at h
  split at h
  · exact event_endsWithin h (within_givePages hs _ _)
  · exact next_endsWithin h

theorem flushJournal_endsWithin (h : execFlushJournal s = .next t) : EndsWithin rs s t := by
  unfold execFlushJournal at h
  split at h
  · exact event_endsWithin h (within_flushJournal hs)
  · exact next_endsWithin h

theorem tallySnapshot_endsWithin (hr : ∀ a i z l, currentBody s = some (.tallySnapshot a i z) → laneOfIndex i = some l →
      (a, 16 + 4 * (s.tally.get l).length) ∈ rs) (h : execTallySnapshot s = .next t) : EndsWithin rs s t := by
  unfold execTallySnapshot at h
  split at h
  next a i z hb => exact event_endsWithin h (within_tallySnapshot hs z (hr a i z · hb))
  · exact next_endsWithin h

theorem healthSnapshot_endsWithin (hr : ∀ a, currentBody s = some (.healthSnapshot a) → (a, 792) ∈ rs)
    (h : execHealthSnapshot s = .next t) : EndsWithin rs s t := by
  unfold execHealthSnapshot at h
  split at h
  next a hb => exact event_endsWithin h (within_healthSnapshot hs (hr a hb))
  · exact next_endsWithin h

/-! ### Orders of a lane, a pocket or a test -/

theorem laneControlRun_endsWithin (h : execLaneControlRun s = .next t) : EndsWithin rs s t :=
  laneControl_endsWithin hs h (within_runLane hs)

theorem laneControlDrain_endsWithin (h : execLaneControlDrain s = .next t) : EndsWithin rs s t :=
  laneControl_endsWithin hs h (within_drainLane hs)

theorem laneControlStandby_endsWithin (h : execLaneControlStandby s = .next t) : EndsWithin rs s t :=
  laneControl_endsWithin hs h (within_standby hs)

theorem laneControlOff_endsWithin (h : execLaneControlOff s = .next t) : EndsWithin rs s t :=
  laneControl_endsWithin hs h (within_switchOff hs)

theorem laneControlClear_endsWithin (h : execLaneControlClear s = .next t) : EndsWithin rs s t :=
  laneControl_endsWithin hs h (within_clearStopped hs)

theorem laneControlAbort_endsWithin (h : execLaneControlAbort s = .next t) : EndsWithin rs s t :=
  laneControl_endsWithin hs h fun l => within_orderDone (within_abortLane hs l) none

theorem laneControlHold_endsWithin (h : execLaneControlHold s = .next t) : EndsWithin rs s t :=
  laneControl_endsWithin hs h fun _ => within_ite (within_orderNothing hs) (within_orderDone (by simpa using hs) none)

theorem laneControlRelease_endsWithin (h : execLaneControlRelease s = .next t) : EndsWithin rs s t :=
  laneControl_endsWithin hs h fun _ => within_ite (within_orderDone (by simpa using hs) none) (within_orderNothing hs)

theorem pocketControlDisable_endsWithin (h : execPocketControlDisable s = .next t) : EndsWithin rs s t :=
  pocketControl_endsWithin hs h fun l p _ => within_disablePocket hs l p

theorem pocketControlEnable_endsWithin (h : execPocketControlEnable s = .next t) : EndsWithin rs s t :=
  pocketControl_endsWithin hs h fun l p _ => within_enablePocket hs l p

theorem pocketControlSwap_endsWithin (h : execPocketControlSwap s = .next t) : EndsWithin rs s t :=
  pocketControl_endsWithin hs h fun _ _ _ => within_ite
    (within_orderDone (hs.only (by apply swapPocket_only (h := only_refl _ _) <;> simp [elsewhere])) none)
    (within_orderNothing hs)

theorem pocketControlSetCapacity_endsWithin (h : execPocketControlSetCapacity s = .next t) : EndsWithin rs s t :=
  pocketControl_endsWithin hs h fun _ _ _ => within_ite
    (within_orderDone (hs.only (by apply applyCapacity_only (h := only_refl _ _) <;> simp [elsewhere])) none)
    (within_orderRefused hs _ _)

theorem selfTestReference_endsWithin (h : execSelfTestReference s = .next t) : EndsWithin rs s t := by
  unfold execSelfTestReference at h
  split at h
  · exact event_endsWithin h (within_startLaneTest hs _ fun l =>
      hs.only (by apply startReference_only (h := only_refl _ _) <;> simp [elsewhere]))
  · exact next_endsWithin h

theorem selfTestCalibrate_endsWithin (h : execSelfTestCalibrate s = .next t) : EndsWithin rs s t := by
  unfold execSelfTestCalibrate at h
  split at h
  · exact event_endsWithin h (within_startLaneTest hs _ fun l =>
      hs.only (by apply startCalibrate_only (h := only_refl _ _) <;> simp [elsewhere]))
  · exact next_endsWithin h

theorem selfTestClassAudit_endsWithin (h : execSelfTestClassAudit s = .next t) : EndsWithin rs s t := by
  unfold execSelfTestClassAudit at h
  split at h
  · exact event_endsWithin h (within_startAudit hs _ _ _)
  · exact next_endsWithin h

theorem selfTestAbort_endsWithin (h : execSelfTestAbort s = .next t) : EndsWithin rs s t := by
  unfold execSelfTestAbort at h
  split at h
  · exact event_endsWithin h (within_abortTest hs _ _)
  · exact next_endsWithin h

end

end

end Sys2Proof.Machine
end

