-- ==== Sys2Proof/Proofs/MessagesAndStores.lean ====
section
/-! Where a command stores (R179, R180, R182, R185), the message of an event (R178) and the reasons it keeps (R177): the
three statements that `EndsWithin` and the end of an event settle. -/

namespace Sys2Proof.Machine

/-! ### The records that a command names -/

section
variable {c : Instr} {s t : State}

theorem blocksOf_eq (c : Instr) (s : State) : ∃ xs, blocksOf c s = orderAddrs s ++ xs := by
  unfold blocksOf orderAddrs
  cases s.ocu.current <;> exact ⟨_, rfl⟩

theorem mem_storesOf_block {a : Nat} (h : a ∈ blocksOf c s) : (a + 12, 8) ∈ storesOf c s :=
  List.mem_append_left _ (List.mem_map_of_mem h)

theorem mem_storesOf_record {r : Nat × Nat} (h : r ∈ recordStores c s) : r ∈ storesOf c s := List.mem_append_right _ h

theorem mem_recordStores_page {q : ClosedPage} (h : s.jrn.closing.head? = some q) :
    (q.page.addr, 32 + (pageBody q.page).length) ∈ recordStores .pageWriteOut s := by
  unfold recordStores
  cases hc : s.jrn.closing with
  | nil => simp [hc] at h
  | cons x xs =>
    rw [hc] at h
    cases h
    exact List.mem_singleton.mpr rfl

/-- The orders not yet final at the start of an event are among those that its command may finish. -/
theorem within_start (c : Instr) (s : State) : Within (storesOf c s) s s := by
  refine Within.refl fun a ha => mem_storesOf_block ?_
  obtain ⟨xs, hxs⟩ := blocksOf_eq c s
  rw [hxs]
  exact List.mem_append_left _ ha

theorem mem_storesOf_position (hc : c = .runChainStart ∨ c = .look ∨ c = .pollTimerExpiry ∨ c = .chainLinkRead) :
    (chainAddr s + 12, 8) ∈ storesOf c s ∧ (linkOf s + 12, 8) ∈ storesOf c s := by
  rcases hc with rfl | rfl | rfl | rfl <;>
    exact ⟨mem_storesOf_block (List.mem_append_right _ (List.mem_cons_self ..)),
      mem_storesOf_block (List.mem_append_right _ (List.mem_cons_of_mem _ (List.mem_cons_self ..)))⟩

/-- Every command but a device reset, a write of ATTN and the status write ends within its records, with the reasons and
the messages left to the end of its event. -/
theorem exec_endsWithin (h : exec c s = .next t) (h1 : c ≠ .deviceReset) (h2 : c ≠ .reset) (h3 : ∀ v, c ≠ .attnWrite v)
    (h4 : c ≠ .statusWrite) : EndsWithin (storesOf c s) s t := by
  have hs := within_start c s
  cases c with
  | deviceReset => exact absurd rfl h1
  | reset => exact absurd rfl h2
  | attnWrite v => exact absurd rfl (h3 v)
  | statusWrite => exact absurd rfl h4
  | encoderCount _ _ => exact encoderCount_endsWithin hs h
  | speedInterval _ => exact speedInterval_endsWithin hs h
  | eLeadingEdge _ _ => exact eLeadingEdge_endsWithin hs h
  | eTrailingEdge _ _ => exact eTrailingEdge_endsWithin hs h
  | longTimeout _ _ => exact longTimeout_endsWithin hs h
  | blockedEye _ _ => exact blockedEye_endsWithin hs h
  | nearPointReached _ => exact nearPointReached_endsWithin hs h
  | clearPointReached _ => exact clearPointReached_endsWithin hs h
  | sampleTaken _ _ _ => exact sampleTaken_endsWithin hs h
  | scoringComplete => exact scoringComplete_endsWithin hs h
  | forcedDelivery _ _ => exact forcedDelivery_endsWithin hs h
  | bankPositionReached _ _ => exact bankPositionReached_endsWithin hs h
  | arrivalT _ _ => exact arrivalT_endsWithin hs h
  | tWindowPassed _ _ => exact tWindowPassed_endsWithin hs h
  | arrivalCancelEye _ _ _ => exact arrivalCancelEye_endsWithin hs h
  | cancelWindowPassed _ _ _ => exact cancelWindowPassed_endsWithin hs h
  | lostAtCancelEye _ _ => exact lostAtCancelEye_endsWithin hs h
  | lostAtEndEye _ _ => exact lostAtEndEye_endsWithin hs h
  | arrivalPocketEye _ _ _ => exact arrivalPocketEye_endsWithin hs h
  | verifyEdge _ _ _ => exact verifyEdge_endsWithin hs h
  | verifyEntryExpiry _ _ => exact verifyEntryExpiry_endsWithin hs h
  | gateOnEvent _ _ => exact gateOnEvent_endsWithin hs h
  | gateWindowClose _ _ => exact gateWindowClose_endsWithin hs h
  | gateHoldExpiry _ _ => exact gateHoldExpiry_endsWithin hs h
  | printStart _ _ => exact printStart_endsWithin hs h
  | printEnd _ _ => exact printEnd_endsWithin hs h
  | rasterLoadStart _ _ => exact rasterLoadStart_endsWithin hs h
  | rasterLoadComplete _ _ => exact rasterLoadComplete_endsWithin hs h
  | spitTimerExpiry _ _ => exact spitTimerExpiry_endsWithin hs h
  | spitGapTimeout _ _ => exact spitGapTimeout_endsWithin hs h
  | spitStart _ _ => exact spitStart_endsWithin hs h
  | spitComplete _ _ => exact spitComplete_endsWithin hs h
  | headTempReading _ _ _ => exact headTempReading_endsWithin hs h
  | lampWarmComplete _ => exact lampWarmComplete_endsWithin hs h
  | lampRiseComplete _ => exact lampRiseComplete_endsWithin hs h
  | idleTimerExpiry _ => exact idleTimerExpiry_endsWithin hs h
  | feedReqChange _ _ _ => exact feedReqChange_endsWithin hs h
  | longCalStart _ => exact longCalStart_endsWithin hs h
  | longCalComplete _ _ => exact longCalComplete_endsWithin hs h
  | calIntervalExpiry _ => exact calIntervalExpiry_endsWithin hs h
  | gapCalHoldExpiry _ => exact gapCalHoldExpiry_endsWithin hs h
  | shortCalStart _ => exact shortCalStart_endsWithin hs h
  | shortCalComplete _ _ => exact shortCalComplete_endsWithin hs h
  | clockSecond => exact clockSecond_endsWithin hs h
  | compositionComplete => exact compositionComplete_endsWithin hs h
  | stagedTableApply => exact stagedTableApply_endsWithin hs h
  | idleWorkStart => exact idleWorkStart_endsWithin hs h
  | auditEvalComplete => exact auditEvalComplete_endsWithin hs (fun a ha =>
      mem_storesOf_record (by simp [recordStores, ha])) h
  | refCalCheckComplete _ _ => exact refCalCheckComplete_endsWithin hs h
  | syntheticTraceDone _ => exact syntheticTraceDone_endsWithin hs h
  | syntheticItemScored _ => exact syntheticItemScored_endsWithin hs h
  | swapRequest _ _ _ _ => exact swapRequest_endsWithin hs h
  | trayOut _ _ _ => exact trayOut_endsWithin hs h
  | trayIn _ _ _ => exact trayIn_endsWithin hs h
  | pollTimerExpiry =>
    obtain ⟨hposition, hlink⟩ := mem_storesOf_position (s := s) (.inr (.inr (.inl rfl)))
    exact pollTimerExpiry_endsWithin hs hposition hlink h
  | chainLinkRead => exact chainLinkRead_endsWithin hs (mem_storesOf_position (.inr (.inr (.inr rfl)))).2 h
  | pageWriteOut => exact pageWriteOut_endsWithin hs (fun c hc => mem_storesOf_record (mem_recordStores_page hc)) h
  | runChainStart =>
    obtain ⟨hposition, hlink⟩ := mem_storesOf_position (s := s) (.inl rfl)
    exact runChainStart_endsWithin hs hposition hlink h
  | runChainStop => exact runChainStop_endsWithin hs h
  | irqEnable => exact irqEnable_endsWithin hs h
  | irqDisable => exact irqDisable_endsWithin hs h
  | look =>
    obtain ⟨hposition, hlink⟩ := mem_storesOf_position (s := s) (.inr (.inl rfl))
    exact look_endsWithin hs hposition hlink h
  | chainLoWrite _ => exact chainLoWrite_endsWithin hs h
  | chainHiWrite _ => exact chainHiWrite_endsWithin hs h
  | chainLoRead _ => exact chainLoRead_endsWithin hs h
  | chainHiRead _ => exact chainHiRead_endsWithin hs h
  | registerWriteIgnored _ _ v => exact registerWriteIgnored_endsWithin (v := v) hs h
  | configurePort => exact configurePort_endsWithin hs h
  | setWindows => exact setWindows_endsWithin hs h
  | identify => exact identify_endsWithin hs (fun b hb => mem_storesOf_record (by simp [recordStores, hb])) h
  | loadClasses => exact loadClasses_endsWithin hs h
  | loadGeometry => exact loadGeometry_endsWithin hs h
  | loadStyles => exact loadStyles_endsWithin hs h
  | setClock => exact setClock_endsWithin hs h
  | loadThresholds => exact loadThresholds_endsWithin hs h
  | givePages => exact givePages_endsWithin hs h
  | flushJournal => exact flushJournal_endsWithin hs h
  | laneControlRun => exact laneControlRun_endsWithin hs h
  | laneControlDrain => exact laneControlDrain_endsWithin hs h
  | laneControlStandby => exact laneControlStandby_endsWithin hs h
  | laneControlOff => exact laneControlOff_endsWithin hs h
  | laneControlClear => exact laneControlClear_endsWithin hs h
  | laneControlAbort => exact laneControlAbort_endsWithin hs h
  | laneControlHold => exact laneControlHold_endsWithin hs h
  | laneControlRelease => exact laneControlRelease_endsWithin hs h
  | pocketControlDisable => exact pocketControlDisable_endsWithin hs h
  | pocketControlEnable => exact pocketControlEnable_endsWithin hs h
  | pocketControlSwap => exact pocketControlSwap_endsWithin hs h
  | pocketControlSetCapacity => exact pocketControlSetCapacity_endsWithin hs h
  | tallySnapshot => exact tallySnapshot_endsWithin hs (fun a i z l hb hl =>
      mem_storesOf_record (by simp [recordStores, hb, hl])) h
  | healthSnapshot => exact healthSnapshot_endsWithin hs (fun a hb =>
      mem_storesOf_record (by simp [recordStores, hb])) h
  | selfTestReference => exact selfTestReference_endsWithin hs h
  | selfTestCalibrate => exact selfTestCalibrate_endsWithin hs h
  | selfTestClassAudit => exact selfTestClassAudit_endsWithin hs h
  | selfTestAbort => exact selfTestAbort_endsWithin hs h
  | eyeTrailingEdge _ _ _ => exact eyeTrailingEdge_endsWithin hs h

/-! ### The status write -/

/-- A status write comes about at the block's address, or leaves the state. -/
theorem statusWrite_next (h : exec .statusWrite s = .next t) :
    t = s ∨ ∃ a, s.stat.addr = some a ∧ t = settle s (writeStatus a s) := by
  replace h : execStatusWrite s = .next t := h
  unfold execStatusWrite at h
  split at h
  · cases h
    exact Or.inl rfl
  next a ha =>
    rcases event_next h with ⟨-, ht⟩ | ⟨-, ht⟩
    · exact Or.inr ⟨a, ha, ht⟩
    · exact Or.inl ht

/-- R187: written or refused, the write sets the reasons that waited and leaves the messages. -/
theorem writeStatus_registers (a : Nat) (s : State) : (writeStatus a s).stat.waiting = 0 ∧
    (writeStatus a s).pif = { s.pif with attn := s.pif.attn ||| s.stat.waiting } := by
  cases hw : allowed .statusWrite a 160 s with
  | true =>
    rw [writeStatus_allowed hw]
    exact ⟨rfl, rfl⟩
  | false =>
    rw [writeStatus_refused hw]
    exact ⟨rfl, rfl⟩

theorem writeStatus_mem_outside {a x : Nat} (hx : x < a ∨ a + 160 ≤ x) :
    memRead (writeStatus a s).mem x = memRead s.mem x := by
  cases hw : allowed .statusWrite a 160 s with
  | true =>
    have hlength : x < a ∨ a + (statusBlock (s.stat.updateCount + 1) s).length ≤ x := by
      rw [statusBlock_length]
      exact hx
    rw [writeStatus_allowed hw]
    dsimp only
    rw [memRead_writeN_other _ hlength]
  | false =>
    have hmem : (windowFault none .statusWrite a s).mem = s.mem :=
      windowFault_changes none .statusWrite a s .mem (by simp)
    rw [writeStatus_refused hw, ← hmem]

/-! ### What the end of an event makes of the body -/

/-- R178: an event whose body sends nothing and leaves the enable sends one message when it brings up a line. -/
theorem settle_msiSent {u : State} (hsent : u.pif.msiSent = s.pif.msiSent)
    (henable : u.pif.msiEnable = s.pif.msiEnable) :
    (settle s u).pif.msiSent = s.pif.msiSent +
      (if s.pif.msiEnable = true ∧ irqLines (settle s u) &&& ~~~(irqLines s) ≠ 0 then 1 else 0) := by
  have hsends : sends s (settle s u) ↔
      s.pif.msiEnable = true ∧ irqLines (settle s u) &&& ~~~(irqLines s) ≠ 0 := by
    unfold sends
    rw [settle_pif_msiEnable, henable]
    exact And.comm
  by_cases h : sends s (settle s u)
  · rw [if_pos (hsends.mp h), settle_pif_sends h, ← hsent]
  · rw [if_neg (fun hc => h (hsends.mpr hc)), settle_pif_silent h, ← hsent]
    rfl

/-- No flag of `x` is missing in `y`. -/
theorem and_not_eq_zero_iff (x y : BitVec 10) :
    x &&& ~~~y = 0 ↔ ∀ i, x.getLsbD i = true → y.getLsbD i = true := by
  constructor
  · intro h i hx
    have hi : i < 10 := BitVec.lt_of_getLsbD hx
    have hbit : (x &&& ~~~y).getLsbD i = false := by rw [h]; exact BitVec.getLsbD_zero
    simpa [hx, hi] using hbit
  · intro h
    refine BitVec.eq_of_getLsbD_eq fun i hi => ?_
    cases hx : x.getLsbD i with
    | false => simp [hx]
    | true => simp [h i hx]

/-- R177: an event whose body keeps the flags and the reasons keeps them to its end. -/
theorem settle_keeps_reasons {u : State} (hattn : s.pif.attn &&& ~~~(u.pif.attn) = 0)
    (hreasons : reasons s &&& ~~~(reasons u) = 0) :
    s.pif.attn &&& ~~~((settle s u).pif.attn) = 0 ∧ reasons s &&& ~~~(reasons (settle s u)) = 0 := by
  rw [and_not_eq_zero_iff] at hattn hreasons ⊢
  rw [and_not_eq_zero_iff]
  refine ⟨fun i hi => ?_, fun i hi => ?_⟩
  · rw [settle_attn]
    split
    · exact hattn i hi
    · simp [hattn i hi]
  · have hall : reasons (settle s u) = reasons u ||| u.raised := settle_reasons s u
    rw [hall]
    simp [hreasons i hi]

theorem and_not_self_eq_zero (x : BitVec 10) : x &&& ~~~x = 0 := (and_not_eq_zero_iff x x).mpr fun _ h => h

/-- What a body leaves of the messages in every event. -/
theorem exec_msi (h : exec c s = .next t) :
    t = s ∨ ∃ u, t = settle s u ∧ u.pif.msiSent = s.pif.msiSent ∧ u.pif.msiEnable = s.pif.msiEnable := by
  by_cases hr : c = .deviceReset ∨ c = .reset
  · exact Or.inr ⟨_, exec_reset hr h, rfl, rfl⟩
  by_cases hv : ∃ v, c = .attnWrite v
  · obtain ⟨v, rfl⟩ := hv
    cases h
    exact Or.inr ⟨_, rfl, rfl, rfl⟩
  by_cases hw : c = .statusWrite
  · subst hw
    rcases statusWrite_next h with ht | ⟨a, -, ht⟩
    · exact Or.inl ht
    · have hpif := (writeStatus_registers a s).2
      exact Or.inr ⟨_, ht, by rw [hpif], by rw [hpif]⟩
  · rcases exec_endsWithin h (fun e => hr (.inl e)) (fun e => hr (.inr e)) (fun v e => hv ⟨v, e⟩) hw with
      ht | ⟨u, ht, hu⟩
    · exact Or.inl ht
    · exact Or.inr ⟨u, ht, hu.sent, hu.enable⟩

end

end Sys2Proof.Machine

open Sys2Proof Sys2Proof.Machine

/-- Settles O5: the body of every event stores within the records of `storesOf`, and the end of the event stores
nothing. -/
theorem commandsStoreOnlyWhereNamed : Obligations.CommandsStoreOnlyWhereNamed := by
  intro c s t h x hx
  by_cases hr : c = .deviceReset ∨ c = .reset
  · rw [exec_reset hr h, settle_mem]
    rfl
  by_cases hv : ∃ v, c = .attnWrite v
  · obtain ⟨v, rfl⟩ := hv
    cases h
    rw [settle_mem]
    rfl
  by_cases hw : c = .statusWrite
  · subst hw
    rcases statusWrite_next h with rfl | ⟨a, ha, rfl⟩
    · rfl
    · rw [settle_mem]
      exact writeStatus_mem_outside (hx (a, 160) (mem_storesOf_record (by simp [recordStores, ha])))
  · rcases exec_endsWithin h (fun e => hr (.inl e)) (fun e => hr (.inr e)) (fun v e => hv ⟨v, e⟩) hw with
      rfl | ⟨u, rfl, hu⟩
    · rfl
    · rw [settle_mem]
      exact hu.mem x hx

/-- Settles O12: no body sends a message or loses a reason, and the end of the event does what the rules say. -/
theorem messagesAndReasons : Obligations.MessagesAndReasons := by
  refine ⟨fun c s t h => ?_, fun c s t h h1 h2 h3 => ?_⟩
  · rcases exec_msi h with rfl | ⟨u, rfl, hsent, henable⟩
    · simp
    · exact settle_msiSent hsent henable
  · have hsame := and_not_self_eq_zero
    by_cases hw : c = .statusWrite
    · subst hw
      rcases statusWrite_next h with rfl | ⟨a, -, rfl⟩
      · exact ⟨hsame _, hsame _⟩
      · obtain ⟨hwaiting, hpif⟩ := writeStatus_registers a s
        refine settle_keeps_reasons ?_ ?_
        · rw [hpif, and_not_eq_zero_iff]
          intro i hi
          simp [hi]
        · have hall : reasons (writeStatus a s) = reasons s := by
            unfold reasons
            rw [hpif, hwaiting]
            exact BitVec.or_zero
          rw [hall]
          exact hsame _
    · rcases exec_endsWithin h h1 h2 h3 hw with rfl | ⟨u, rfl, hu⟩
      · exact ⟨hsame _, hsame _⟩
      · refine settle_keeps_reasons ?_ ?_
        · rw [hu.attn]
          exact hsame _
        · have hall : reasons u = reasons s := by rw [reasons, hu.attn, hu.waiting]; rfl
          rw [hall]
          exact hsame _
end

