-- ==== Sys2Proof/Proofs/CompleteCommands.lean ====
section
/-! The step takes the command at the front of its queue; every well-formed command completes, and every other is refused
by name (log entries 5, 16 and 52). -/

namespace Sys2Proof.Machine

/-- A meaning that answers a next state. -/
def Completes (o : Host.Outcome State Fault Refusal) : Prop := ∃ t, o = .next t

section
variable {s : State}

@[simp] theorem next_completes (s : State) : Completes (.next s) := ⟨s, rfl⟩

/-- An event that does not come about completes too, with nothing changed. -/
@[simp] theorem event_completes (comes : Bool) (body : State → State) (s : State) : Completes (event comes body s) := by
  cases comes <;> exact ⟨_, rfl⟩

theorem eventWithin_completes {ok : Bool} (comes : Bool) (body : State → State) (hok : ok = true) :
    Completes (eventWithin ok comes body s) := by
  subst hok
  exact event_completes comes body s

/-- Operands outside the ranges of the inputs are refused (log entry 16). -/
theorem eventWithin_refused {ok : Bool} (comes : Bool) (body : State → State) (hok : ok = false) :
    eventWithin ok comes body s = .refused .operandOutOfRange := by
  subst hok
  rfl

theorem entryEvent_completes (l : LaneId) (n : Nat) (comes : Entry → Bool) (body : Entry → State → State) :
    Completes (entryEvent l n comes body s) := by
  unfold entryEvent
  split <;> simp

theorem arrivalEvent_completes (l : LaneId) (y : Eye) (n : Nat) (body : Pos → State → State) :
    Completes (arrivalEvent l y n body s) := event_completes _ _ s

theorem laneControl_completes (a : LaneAction) (act : LaneId → State → State) : Completes (laneControl a act s) := by
  unfold laneControl
  split
  · split <;> simp
  · simp

theorem pocketControl_completes (a : PocketAction) (act : LaneId → Pocket → Nat → State → State) :
    Completes (pocketControl a act s) := by
  unfold pocketControl
  split
  · split <;> simp
  · simp

theorem sampleTaken_completes {r : List (BitVec 12)} (l : LaneId) (n : Nat) (hr : readingsOk r = true) :
    Completes (execSampleTaken l n r s) := by
  unfold execSampleTaken
  rw [if_pos hr]
  split <;> simp

theorem sampleTaken_refused {r : List (BitVec 12)} (l : LaneId) (n : Nat) (hr : readingsOk r = false) :
    execSampleTaken l n r s = .refused .operandOutOfRange := by
  unfold execSampleTaken
  rw [hr]
  rfl

/-- Every well-formed command completes (log entries 5 and 52): an event comes about or leaves the state, whether or not
the record that its command looks up is there. -/
theorem exec_completes {c : Instr} (hc : c.wellFormed = true) : Completes (exec c s) := by
  cases c with
  | sampleTaken l n r => exact sampleTaken_completes l n hc
  | longCalComplete _ _ _ | shortCalComplete _ _ _ | refCalCheckComplete _ _ | headTempReading _ _ _
  | swapRequest _ _ _ _ | eyeTrailingEdge _ _ _ | chainLoRead _ | chainHiRead _ | registerWriteIgnored _ _ _ =>
    exact eventWithin_completes _ _ hc
  | longTimeout l n | forcedDelivery l n | bankPositionReached l n | tWindowPassed l n | cancelWindowPassed l n _
  | lostAtCancelEye l n | lostAtEndEye l n => exact entryEvent_completes l n _ _
  | laneControlRun | laneControlDrain | laneControlStandby | laneControlOff | laneControlClear | laneControlAbort
  | laneControlHold | laneControlRelease => exact laneControl_completes _ _
  | pocketControlDisable | pocketControlEnable | pocketControlSwap | pocketControlSetCapacity =>
    exact pocketControl_completes _ _
  | gateOnEvent _ _ | gateWindowClose _ _ | gateHoldExpiry _ _ | printStart _ _ | printEnd _ _ | verifyEntryExpiry _ _
  | nearPointReached _ | clearPointReached _ | lampRiseComplete _ =>
    simp only [exec, execGateOnEvent, execGateWindowClose, execGateHoldExpiry, execPrintStart, execPrintEnd,
      execVerifyEntryExpiry, execNearPointReached, execClearPointReached, execLampRiseComplete]
    split <;> simp
  | stagedTableApply | auditEvalComplete | syntheticItemScored _ | statusWrite | pageWriteOut =>
    simp only [exec, execStagedTableApply, execAuditEvalComplete, execSyntheticItemScored, execStatusWrite,
      execPageWriteOut]
    split <;> simp
  | configurePort | setWindows | identify | loadClasses | loadGeometry | loadStyles | setClock | loadThresholds
  | givePages | flushJournal | tallySnapshot | healthSnapshot | selfTestReference | selfTestCalibrate
  | selfTestClassAudit | selfTestAbort =>
    simp only [exec, execConfigurePort, execSetWindows, execIdentify, execLoadClasses, execLoadGeometry, execLoadStyles,
      execSetClock, execLoadThresholds, execGivePages, execFlushJournal, execTallySnapshot, execHealthSnapshot,
      execSelfTestReference, execSelfTestCalibrate, execSelfTestClassAudit, execSelfTestAbort]
    split <;> simp
  | arrivalT l n | arrivalCancelEye l _ n | arrivalPocketEye l _ n => exact arrivalEvent_completes l _ n _
  | deviceReset | reset | encoderCount _ _ | speedInterval _ | eLeadingEdge _ _ | eTrailingEdge _ _ | blockedEye _ _
  | verifyEdge _ _ _ | scoringComplete | idleWorkStart | syntheticTraceDone _ | rasterLoadStart _ _
  | rasterLoadComplete _ _ | spitTimerExpiry _ _ | spitGapTimeout _ _ | spitStart _ _ | spitComplete _ _
  | lampWarmComplete _ | idleTimerExpiry _ | feedReqChange _ _ _ | longCalStart _ | shortCalStart _
  | calIntervalExpiry _ | gapCalHoldExpiry _ | clockSecond | compositionComplete | trayOut _ _ _ | trayIn _ _ _
  | pollTimerExpiry | look | chainLinkRead | runChainStart | runChainStop | irqEnable | irqDisable | chainLoWrite _
  | chainHiWrite _ | attnWrite _ =>
    simp only [exec, execDeviceReset, execReset, execEncoderCount, execSpeedInterval, execELeadingEdge,
      execETrailingEdge, execBlockedEye, execVerifyEdge, execScoringComplete, execIdleWorkStart,
      execSyntheticTraceDone, execRasterLoadStart, execRasterLoadComplete, execSpitTimerExpiry, execSpitGapTimeout,
      execSpitStart, execSpitComplete, execLampWarmComplete, execIdleTimerExpiry, execFeedReqChange,
      execLongCalStart, execShortCalStart, execCalIntervalExpiry, execGapCalHoldExpiry, execClockSecond,
      execCompositionComplete, execTrayOut, execTrayIn, execPollTimerExpiry, execLook, execChainLinkRead,
      execRunChainStart, execRunChainStop, execIrqEnable, execIrqDisable, execChainLoWrite, execChainHiWrite,
      execAttnWrite, event_completes]

/-- Only the commands that carry operands with a range can be out of it, and each refuses them by name. -/
theorem exec_refuses {c : Instr} (hc : c.wellFormed = false) : exec c s = .refused .operandOutOfRange := by
  cases c with
  | sampleTaken l n r => exact sampleTaken_refused l n hc
  | longCalComplete _ _ _ | shortCalComplete _ _ _ | refCalCheckComplete _ _ | headTempReading _ _ _
  | swapRequest _ _ _ _ | eyeTrailingEdge _ _ _ | chainLoRead _ | chainHiRead _ | registerWriteIgnored _ _ _ =>
    exact eventWithin_refused _ _ hc
  | _ => cases hc

end

end Sys2Proof.Machine

open Sys2Proof Sys2Proof.Machine

/-- Settles O1. -/
theorem stepRunsTheFrontCommand : Obligations.StepRunsTheFrontCommand := by
  intro c rest s hs
  unfold step
  rw [hs]

/-- Settles O3. -/
theorem wellFormedCommandsComplete : Obligations.WellFormedCommandsComplete :=
  fun _ _ => ⟨exec_completes, exec_refuses⟩
end

