-- ==== Sys2Proof/Proofs/MemoryStores.lean ====
section
/-! What changes host memory: nothing but the writing of bytes. Most operations leave it; the final state of an order, a
long order TAKEN and the records the part writes are stores (R63, R143, R149, R174, R180, R182, R186). -/

namespace Sys2Proof.Machine

/-- Host memory that writes of bytes make of another. -/
inductive Written (m : List Host.Cell) : List Host.Cell → Prop where
  | same : Written m m
  | store {n : List Host.Cell} (a : Nat) (bs : List Byte) : Written m n → Written m (memWriteN n a bs)

/-- Writes of bytes keep the canonical form (log entry 4). -/
theorem Written.wf {m n : List Host.Cell} (h : Written m n) (hm : memWf m = true) : memWf n = true := by
  induction h with
  | same => exact hm
  | store a bs _ ih => exact memWriteN_wf a bs ih

/-- The memory of a state is made of `m` by writes of bytes. -/
def Stored (m : List Host.Cell) (t : State) : Prop := Written m t.mem

section
variable {m : List Host.Cell} {s t u : State}

/-! ### How the relation composes -/

@[simp] theorem stored_self (s : State) : Stored s.mem s := .same

theorem stored_congr (h : u.mem = t.mem) : Stored m u ↔ Stored m t := by rw [Stored, Stored, h]

theorem stored_of_only (h : Only (fun p => p ≠ .mem) t u) : Stored m u ↔ Stored m t := stored_congr (h .mem (by simp))

@[simp] theorem stored_ite {c : Prop} {_ : Decidable c} :
    Stored m (if c then t else u) ↔ if c then Stored m t else Stored m u := by
  split <;> rfl

theorem stored_foldl {α : Type} {f : State → α → State} (hf : ∀ t x, Stored m t → Stored m (f t x))
    (xs : List α) (h : Stored m t) : Stored m (xs.foldl f t) := by
  induction xs generalizing t with
  | nil => exact h
  | cons x xs ih => exact ih (hf t x h)

/-! ### Operations that leave host memory -/

@[simp] theorem stored_updTrack (l : LaneId) (f : Track → Track) : Stored m (updTrack l f t) ↔ Stored m t := Iff.rfl
@[simp] theorem stored_updSfe (l : LaneId) (f : Sfe → Sfe) : Stored m (updSfe l f t) ↔ Stored m t := Iff.rfl
@[simp] theorem stored_updGsq (l : LaneId) (f : Gsq → Gsq) : Stored m (updGsq l f t) ↔ Stored m t := Iff.rfl
@[simp] theorem stored_updChannel (l : LaneId) (g : Gate) (f : Channel → Channel) :
    Stored m (updChannel l g f t) ↔ Stored m t := Iff.rfl
@[simp] theorem stored_updHead (l : LaneId) (d : Side) (f : Head → Head) :
    Stored m (updHead l d f t) ↔ Stored m t := Iff.rfl
@[simp] theorem stored_updPocket (l : LaneId) (q : Pocket) (f : PocketRec → PocketRec) :
    Stored m (updPocket l q f t) ↔ Stored m t := Iff.rfl
@[simp] theorem stored_updLsq (l : LaneId) (f : Lsq → Lsq) : Stored m (updLsq l f t) ↔ Stored m t := Iff.rfl
@[simp] theorem stored_updMsc (f : Msc → Msc) : Stored m (updMsc f t) ↔ Stored m t := Iff.rfl
@[simp] theorem stored_updPmc (f : Pmc → Pmc) : Stored m (updPmc f t) ↔ Stored m t := Iff.rfl
@[simp] theorem stored_updJrn (f : Journal → Journal) : Stored m (updJrn f t) ↔ Stored m t := Iff.rfl
@[simp] theorem stored_updHmu (f : Hmu → Hmu) : Stored m (updHmu f t) ↔ Stored m t := Iff.rfl
@[simp] theorem stored_updAttr (l : LaneId) (a : AttrId) (f : AttrRec → AttrRec) :
    Stored m (updAttr l a f t) ↔ Stored m t := Iff.rfl
@[simp] theorem stored_raise (a : Attn) : Stored m (raise a t) ↔ Stored m t :=
  stored_of_only (by apply raise_only (h := only_refl _ _); simp)
@[simp] theorem stored_setHold (l : LaneId) (r : HoldReason) (on : Bool) : Stored m (setHold l r on t) ↔ Stored m t :=
  stored_of_only (by apply setHold_only (h := only_refl _ _) <;> simp)
@[simp] theorem stored_countUp (l : LaneId) (c : Tally) : Stored m (countUp l c t) ↔ Stored m t :=
  stored_of_only (by apply countUp_only (h := only_refl _ _); simp)
@[simp] theorem stored_takePage : Stored m (takePage t) ↔ Stored m t :=
  stored_of_only (by apply takePage_only (h := only_refl _ _) <;> simp)
@[simp] theorem stored_closePage (why : FillReason) : Stored m (closePage why t) ↔ Stored m t :=
  stored_of_only (by apply closePage_only (h := only_refl _ _) <;> simp)
@[simp] theorem stored_emit (code : EventCode) (lane : Option LaneId) (subject serial arg1 arg2 : Nat) :
    Stored m (emit code lane subject serial arg1 arg2 t) ↔ Stored m t :=
  stored_of_only (by apply emit_only (h := only_refl _ _) <;> simp)
@[simp] theorem stored_windowFault (lane : Option LaneId) (k : Access) (a : Nat) :
    Stored m (windowFault lane k a t) ↔ Stored m t :=
  stored_of_only (by apply windowFault_only (h := only_refl _ _) <;> simp)
@[simp] theorem stored_setLane (l : LaneId) (new : LaneMode) : Stored m (setLane l new t) ↔ Stored m t :=
  stored_of_only (by apply setLane_only (h := only_refl _ _) <;> simp)
@[simp] theorem stored_laneEvent (l : LaneId) (old new : LaneMode) (cause : LaneCause) :
    Stored m (laneEvent l old new cause t) ↔ Stored m t :=
  stored_of_only (by apply laneEvent_only (h := only_refl _ _) <;> simp)
@[simp] theorem stored_changeLane (l : LaneId) (new : LaneMode) (cause : LaneCause) :
    Stored m (changeLane l new cause t) ↔ Stored m t :=
  stored_of_only (by apply changeLane_only (h := only_refl _ _) <;> simp)
@[simp] theorem stored_lampTo (l : LaneId) (level : LampPower) : Stored m (lampTo l level t) ↔ Stored m t :=
  stored_of_only (by apply lampTo_only (h := only_refl _ _) <;> simp)
@[simp] theorem stored_laneEndClose : Stored m (laneEndClose t) ↔ Stored m t :=
  stored_of_only (by apply laneEndClose_only (h := only_refl _ _) <;> simp)
@[simp] theorem stored_startRunning (l : LaneId) : Stored m (startRunning l t) ↔ Stored m t :=
  stored_of_only (by apply startRunning_only (h := only_refl _ _) <;> simp)
@[simp] theorem stored_enterRunning (l : LaneId) (cause : LaneCause) :
    Stored m (enterRunning l cause t) ↔ Stored m t :=
  stored_of_only (by apply enterRunning_only (h := only_refl _ _) <;> simp)
@[simp] theorem stored_startWarming (l : LaneId) : Stored m (startWarming l t) ↔ Stored m t :=
  stored_of_only (by apply startWarming_only (h := only_refl _ _) <;> simp)
@[simp] theorem stored_healthHold (l : LaneId) : Stored m (healthHold l t) ↔ Stored m t :=
  stored_of_only (by apply healthHold_only (h := only_refl _ _) <;> simp)
@[simp] theorem stored_blockEvent (l : LaneId) (a : AttrId) : Stored m (blockEvent l a t) ↔ Stored m t :=
  stored_of_only (by apply blockEvent_only (h := only_refl _ _); simp)
@[simp] theorem stored_writeLog (entry : LogEntry) : Stored m (writeLog entry t) ↔ Stored m t :=
  stored_of_only (by apply writeLog_only (h := only_refl _ _); simp)
@[simp] theorem stored_withdrawIdle (r : IdleRequest) : Stored m (withdrawIdle r t) ↔ Stored m t :=
  stored_of_only (by apply withdrawIdle_only (h := only_refl _ _); simp)
@[simp] theorem stored_auditRecords (a : Audit) (r : TestResult) : Stored m (auditRecords a r t) ↔ Stored m t :=
  stored_of_only (by apply auditRecords_only (h := only_refl _ _) <;> simp)
@[simp] theorem stored_setPocketState (l : LaneId) (p : Pocket) (st : PocketState) :
    Stored m (setPocketState l p st t) ↔ Stored m t :=
  stored_of_only (by apply setPocketState_only (h := only_refl _ _) <;> simp)
@[simp] theorem stored_fullTest (l : LaneId) (p : Pocket) : Stored m (fullTest l p t) ↔ Stored m t :=
  stored_of_only (by apply fullTest_only (h := only_refl _ _) <;> simp)
@[simp] theorem stored_pocketArrival (l : LaneId) (p : Pocket) (serial : Nat) :
    Stored m (pocketArrival l p serial t) ↔ Stored m t :=
  stored_of_only (by apply pocketArrival_only (h := only_refl _ _) <;> simp)
@[simp] theorem stored_setCapacity (l : LaneId) (p : Pocket) (capacity : Nat) :
    Stored m (setCapacity l p capacity t) ↔ Stored m t :=
  stored_of_only (by apply setCapacity_only (h := only_refl _ _); simp)
@[simp] theorem stored_followCapacity (l : LaneId) (p : Pocket) (was : Bool) :
    Stored m (followCapacity l p was t) ↔ Stored m t :=
  stored_of_only (by apply followCapacity_only (h := only_refl _ _) <;> simp)
@[simp] theorem stored_updEntry (l : LaneId) (serial : Nat) (f : Entry → Entry) :
    Stored m (updEntry l serial f t) ↔ Stored m t :=
  stored_of_only (by apply updEntry_only (h := only_refl _ _); simp)
@[simp] theorem stored_gateWork (l : LaneId) (ws : List GateWork) : Stored m (gateWork l ws t) ↔ Stored m t :=
  stored_of_only (by apply gateWork_only (h := only_refl _ _) <;> simp)
@[simp] theorem stored_rerouteAtEye (l : LaneId) (serial : Nat) (cause : RerouteCause) (eye : Eye) :
    Stored m (rerouteAtEye l serial cause eye t) ↔ Stored m t :=
  stored_of_only (by apply rerouteAtEye_only (h := only_refl _ _) <;> simp)
@[simp] theorem stored_dropItem (l : LaneId) (e : Entry) : Stored m (dropItem l e t) ↔ Stored m t :=
  stored_of_only (by apply dropItem_only (h := only_refl _ _) <;> simp)
@[simp] theorem stored_gatesOff (l : LaneId) : Stored m (gatesOff l t) ↔ Stored m t :=
  stored_of_only (by apply gatesOff_only (h := only_refl _ _); simp)
@[simp] theorem stored_planVerdict (l : LaneId) (e : Entry) (v : Verdict) :
    Stored m ((planVerdict l e v t).1) ↔ Stored m t :=
  stored_of_only (by apply planVerdict_only (h := only_refl _ _) <;> simp)
@[simp] theorem stored_countVerdict (l : LaneId) (v : Verdict) : Stored m (countVerdict l v t) ↔ Stored m t :=
  stored_of_only (by apply countVerdict_only (h := only_refl _ _); simp)
@[simp] theorem stored_discardTrace (l : LaneId) (serial : Nat) : Stored m (discardTrace l serial t) ↔ Stored m t :=
  stored_of_only (by apply discardTrace_only (h := only_refl _ _); simp)
@[simp] theorem stored_giveVerdict (l : LaneId) (serial : Nat) (v : Verdict) :
    Stored m (giveVerdict l serial v t) ↔ Stored m t :=
  stored_of_only (by apply giveVerdict_only (h := only_refl _ _) <;> simp)
@[simp] theorem stored_phantom (l : LaneId) (y : Eye) (p : Pos) : Stored m (phantom l y p t) ↔ Stored m t :=
  stored_of_only (by apply phantom_only (h := only_refl _ _) <;> simp)
@[simp] theorem stored_verifyMiss (l : LaneId) : Stored m (verifyMiss l t) ↔ Stored m t :=
  stored_of_only (by apply verifyMiss_only (h := only_refl _ _); simp)
@[simp] theorem stored_clipPrint (l : LaneId) (d : Side) : Stored m (clipPrint l d t) ↔ Stored m t :=
  stored_of_only (by apply clipPrint_only (h := only_refl _ _) <;> simp)
@[simp] theorem stored_followGapSpit (l : LaneId) : Stored m (followGapSpit l t) ↔ Stored m t :=
  stored_of_only (by apply followGapSpit_only (h := only_refl _ _) <;> simp)
@[simp] theorem stored_restartSpitTimer (l : LaneId) (d : Side) : Stored m (restartSpitTimer l d t) ↔ Stored m t :=
  stored_of_only (by apply restartSpitTimer_only (h := only_refl _ _); simp)
@[simp] theorem stored_gapRequestTest (l : LaneId) (d : Side) : Stored m (gapRequestTest l d t) ↔ Stored m t :=
  stored_of_only (by apply gapRequestTest_only (h := only_refl _ _) <;> simp)
@[simp] theorem stored_dryTest (l : LaneId) (d : Side) : Stored m (dryTest l d t) ↔ Stored m t :=
  stored_of_only (by apply dryTest_only (h := only_refl _ _) <;> simp)
@[simp] theorem stored_wetTest (l : LaneId) (d : Side) : Stored m (wetTest l d t) ↔ Stored m t :=
  stored_of_only (by apply wetTest_only (h := only_refl _ _) <;> simp)
@[simp] theorem stored_coldHeads (l : LaneId) : Stored m (coldHeads l t) ↔ Stored m t :=
  stored_of_only (by apply coldHeads_only (h := only_refl _ _) <;> simp)
@[simp] theorem stored_clearTrims (l : LaneId) : Stored m (clearTrims l t) ↔ Stored m t :=
  stored_of_only (by apply clearTrims_only (h := only_refl _ _); simp)
@[simp] theorem stored_leaveQueue (l : LaneId) (serial : Nat) (o : ItemOutcome) :
    Stored m (leaveQueue l serial o t) ↔ Stored m t :=
  stored_of_only (by apply leaveQueue_only (h := only_refl _ _) <;> simp)
@[simp] theorem stored_purgeLane (l : LaneId) : Stored m (purgeLane l t) ↔ Stored m t :=
  stored_of_only (by apply purgeLane_only (h := only_refl _ _) <;> simp)
@[simp] theorem stored_dropWarming (l : LaneId) : Stored m (dropWarming l t) ↔ Stored m t :=
  stored_of_only (by apply dropWarming_only (h := only_refl _ _) <;> simp)
@[simp] theorem stored_updJam (l : LaneId) (j : JamEye) (f : Nat → Nat) : Stored m (updJam l j f t) ↔ Stored m t :=
  stored_of_only (by apply updJam_only (h := only_refl _ _); simp)
@[simp] theorem stored_addSample (l : LaneId) (serial : Nat) (row : List Nat) :
    Stored m (addSample l serial row t) ↔ Stored m t :=
  stored_of_only (by apply addSample_only (h := only_refl _ _); simp)
@[simp] theorem stored_missSample (l : LaneId) (e : Entry) : Stored m (missSample l e t) ↔ Stored m t :=
  stored_of_only (by apply missSample_only (h := only_refl _ _) <;> simp)
@[simp] theorem stored_calFinished (l : LaneId) : Stored m (calFinished l t) ↔ Stored m t :=
  stored_of_only (by apply calFinished_only (h := only_refl _ _); simp)
@[simp] theorem stored_gapCalTest (l : LaneId) : Stored m (gapCalTest l t) ↔ Stored m t :=
  stored_of_only (by apply gapCalTest_only (h := only_refl _ _) <;> simp)
@[simp] theorem stored_abortScan (l : LaneId) : Stored m (abortScan l t) ↔ Stored m t :=
  stored_of_only (by apply abortScan_only (h := only_refl _ _) <;> simp)
@[simp] theorem stored_creationVerdicts (l : LaneId) (serial : Nat) (previous : Option Nat) (gap : Option Nat) :
    Stored m (creationVerdicts l serial previous gap t) ↔ Stored m t :=
  stored_of_only (by apply creationVerdicts_only (h := only_refl _ _) <;> simp)
@[simp] theorem stored_untrackedArrival (l : LaneId) (p : Pos) : Stored m (untrackedArrival l p t) ↔ Stored m t :=
  stored_of_only (by apply untrackedArrival_only (h := only_refl _ _) <;> simp)
@[simp] theorem stored_lengthCheck (l : LaneId) (e : Entry) (p : Pos) : Stored m (lengthCheck l e p t) ↔ Stored m t :=
  stored_of_only (by apply lengthCheck_only (h := only_refl _ _) <;> simp)
@[simp] theorem stored_clearEndJam (l : LaneId) (q : Pocket) : Stored m (clearEndJam l q t) ↔ Stored m t :=
  stored_of_only (by apply clearEndJam_only (h := only_refl _ _); simp)
@[simp] theorem stored_roll (c : RollCause) : Stored m (roll c t) ↔ Stored m t :=
  stored_of_only (by apply roll_only (h := only_refl _ _) <;> simp)
@[simp] theorem stored_clearLane (l : LaneId) : Stored m (clearLane l t) ↔ Stored m t :=
  stored_of_only (by apply clearLane_only (h := only_refl _ _) <;> simp)
@[simp] theorem stored_countLost (p : Page) : Stored m (countLost p t) ↔ Stored m t :=
  stored_of_only (by apply countLost_only (h := only_refl _ _) <;> simp)
@[simp] theorem stored_countFilled : Stored m (countFilled t) ↔ Stored m t :=
  stored_of_only (by apply countFilled_only (h := only_refl _ _); simp)
@[simp] theorem stored_redecideFast : Stored m (redecideFast t) ↔ Stored m t :=
  stored_of_only (by apply redecideFast_only (h := only_refl _ _); simp)
@[simp] theorem stored_emptyBars : Stored m (emptyBars t) ↔ Stored m t :=
  stored_of_only (by apply emptyBars_only (h := only_refl _ _); simp)
@[simp] theorem stored_applyThreshold (e : ThresholdEntry) : Stored m (applyThreshold e t) ↔ Stored m t :=
  stored_of_only (by apply applyThreshold_only (h := only_refl _ _) <;> simp)
@[simp] theorem stored_freeLane (l : LaneId) : Stored m (freeLane l t) ↔ Stored m t :=
  stored_of_only (by apply freeLane_only (h := only_refl _ _) <;> simp)
@[simp] theorem stored_pageChecked (a : Nat) : Stored m (pageChecked a t) ↔ Stored m t :=
  stored_of_only (by apply pageChecked_only (h := only_refl _ _) <;> simp)
@[simp] theorem stored_zeroTally (l : LaneId) : Stored m (zeroTally l t) ↔ Stored m t := Iff.rfl
@[simp] theorem stored_askIdle (r : IdleRequest) : Stored m (askIdle r t) ↔ Stored m t :=
  stored_of_only (by apply askIdle_only (h := only_refl _ _); simp)
@[simp] theorem stored_toStep (l : LaneId) (n : Nat) : Stored m (toStep l n t) ↔ Stored m t :=
  stored_of_only (by apply toStep_only (h := only_refl _ _); simp)
@[simp] theorem stored_nextItem (l : LaneId) (step : Nat) : Stored m (nextItem l step t) ↔ Stored m t :=
  stored_of_only (by apply nextItem_only (h := only_refl _ _) <;> simp)
@[simp] theorem stored_idleDone : Stored m (idleDone t) ↔ Stored m t :=
  stored_of_only (by apply idleDone_only (h := only_refl _ _); simp)
@[simp] theorem stored_updEye (l : LaneId) (y : Eye) (f : EyeState → EyeState) :
    Stored m (updEye l y f t) ↔ Stored m t := Iff.rfl
@[simp] theorem stored_acceptEdge (l : LaneId) (y : Eye) (toDark : Bool) :
    Stored m (acceptEdge l y toDark t) ↔ Stored m t :=
  stored_of_only (by apply acceptEdge_only (h := only_refl _ _); simp)
@[simp] theorem stored_detailValue (detail : Option Nat) : Stored m ((detailValue detail t).2) ↔ Stored m t :=
  stored_of_only (by apply detailValue_only (h := only_refl _ _); simp)
@[simp] theorem stored_drawFree : Stored m ((drawFree t).2) ↔ Stored m t := Iff.rfl
@[simp] theorem stored_chainFault (cause : FaultCause) (a : Nat) : Stored m (chainFault cause a t) ↔ Stored m t :=
  stored_of_only (by apply chainFault_only (h := only_refl _ _) <;> simp)
@[simp] theorem stored_orderCompleted (a : Nat) (notify : Bool) : Stored m (orderCompleted a notify t) ↔ Stored m t :=
  stored_of_only (by apply orderCompleted_only (h := only_refl _ _) <;> simp)
@[simp] theorem stored_orderWriteRefused (lane : Option LaneId) (a : Nat) :
    Stored m (orderWriteRefused lane a t) ↔ Stored m t :=
  stored_of_only (by apply orderWriteRefused_only (h := only_refl _ _) <;> simp)
@[simp] theorem stored_orderReadRefused : Stored m (orderReadRefused t) ↔ Stored m t :=
  stored_of_only (by apply orderReadRefused_only (h := only_refl _ _) <;> simp)
@[simp] theorem stored_stopIfHalted : Stored m (stopIfHalted t) ↔ Stored m t :=
  stored_of_only (by apply stopIfHalted_only (h := only_refl _ _); simp)
@[simp] theorem stored_leaveBlock (written : Bool) : Stored m (leaveBlock written t) ↔ Stored m t := Iff.rfl
@[simp] theorem stored_chainWait : Stored m (chainWait t) ↔ Stored m t := Iff.rfl
@[simp] theorem stored_updOcu (f : Ocu → Ocu) : Stored m (updOcu f t) ↔ Stored m t := Iff.rfl
@[simp] theorem stored_updStat (f : StatusUnit → StatusUnit) : Stored m (updStat f t) ↔ Stored m t := Iff.rfl
@[simp] theorem stored_updPif (f : Pif → Pif) : Stored m (updPif f t) ↔ Stored m t := Iff.rfl

/-! ### The state bytes of orders -/

section
variable (h : Stored m t)
include h

@[simp] theorem stored_writeBytes (a : Nat) (bs : List Byte) : Stored m (writeBytes a bs t) := Written.store a bs h

@[simp] theorem stored_finalWrite (lane : Option LaneId) (a : Nat) (notify : Bool) (st : BlockState)
    (code : ResultCode) (detail : Option Nat) (extra : List Byte) :
    Stored m (finalWrite lane a notify st code detail extra t) := by
  unfold finalWrite
  dsimp only
  split <;> split <;> simp [h]

@[simp] theorem stored_finishWith (st : BlockState) (code : ResultCode) (detail : Option Nat) (extra : List Byte) :
    Stored m (finishWith st code detail extra t) := by
  unfold finishWith
  split <;> simp [h]

@[simp] theorem stored_orderDone (detail : Option Nat) : Stored m (orderDone detail t) := by simp [orderDone, h]

@[simp] theorem stored_orderRefused (code : ResultCode) (detail : Option Nat) :
    Stored m (orderRefused code detail t) := by
  simp [orderRefused, h]

@[simp] theorem stored_orderNothing : Stored m (orderNothing t) := by simp [orderNothing, h]

@[simp] theorem stored_orderFaulted (k : Access) (a : Nat) : Stored m (orderFaulted k a t) := by simp [orderFaulted, h]

@[simp] theorem stored_orderTaken (key : LongKey) : Stored m (orderTaken key t) := by
  unfold orderTaken
  split
  · exact h
  · dsimp only
    split <;> simp [h]

@[simp] theorem stored_endLong (key : LongKey) (st : BlockState) (code : ResultCode) (detail : Option Nat) :
    Stored m (endLong key st code detail t) := by
  unfold endLong
  split <;> simp [h]

@[simp] theorem stored_endPending (l : LaneId) (st : BlockState) (code : ResultCode) (detail : Option Nat) :
    Stored m (endPending l st code detail t) := by
  unfold endPending
  split <;> simp [h]

end

end

end Sys2Proof.Machine
end

