-- ==== Sys2Proof/Proofs/LaneStores.lean ====
section
/-! The work of the lanes, the scorer and the tests stores nothing but the state bytes of the orders that it ends and an
audit's results (R63, R121, R139, R172). A chain of operations follows from the lemmas about its parts; where an operation
branches, each branch does. -/

namespace Sys2Proof.Machine

section
variable {m : List Host.Cell} {t : State} (h : Stored m t)
include h

/-! ### The lane -/

@[simp] theorem stored_drainTest (l : LaneId) : Stored m (drainTest l t) := by
  unfold drainTest
  split <;> simp [h]

@[simp] theorem stored_retireLane (l : LaneId) : Stored m (retireLane l t) := by
  unfold retireLane
  split
  · exact h
  · dsimp only
    split <;> simp [h]

@[simp] theorem stored_warmTest (l : LaneId) : Stored m (warmTest l t) := by
  unfold warmTest
  split <;> simp [h]

@[simp] theorem stored_warmHeads (l : LaneId) : Stored m (warmHeads l t) := by simp [warmHeads, h]

/-! ### Health records -/

@[simp] theorem stored_retireElement (l : LaneId) (a : AttrId) : Stored m (retireElement l a t) := by
  unfold retireElement
  split <;> simp [h]

@[simp] theorem stored_retireRecord (l : LaneId) (a : AttrId) : Stored m (retireRecord l a t) := by
  simp [retireRecord, h]

@[simp] theorem stored_enterFailing (l : LaneId) (a : AttrId) : Stored m (enterFailing l a t) := by
  unfold enterFailing
  split <;> simp [h]

@[simp] theorem stored_failingTest (l : LaneId) (a : AttrId) : Stored m (failingTest l a t) := by
  unfold failingTest
  split <;> simp [h]

@[simp] theorem stored_evaluate (l : LaneId) (a : AttrId) (raw normal : Int) :
    Stored m (evaluate l a raw normal t) := by simp [evaluate, h]

@[simp] theorem stored_countBlock (l : LaneId) (a : AttrId) : Stored m (countBlock l a t) := by
  unfold countBlock
  dsimp only
  split <;> simp [h]

/-! ### Tests -/

@[simp] theorem stored_endLaneTest (l : LaneId) (r : TestResult) (how : TestExit) :
    Stored m (endLaneTest l r how t) := by
  unfold endLaneTest
  split <;> simp [h]

@[simp] theorem stored_endAudit (r : TestResult) : Stored m (endAudit r t) := by
  unfold endAudit
  split <;> simp [h]

/-! ### Deliveries and the ends of entries -/

@[simp] theorem stored_deliver (l : LaneId) (e : Entry) (v : Verdict) : Stored m (deliver l e v t) := by
  simp [deliver, h]

@[simp] theorem stored_deliverRun (l : LaneId) (n : Nat) : Stored m (deliverRun l n t) := by
  induction n generalizing t with
  | zero => exact h
  | succ n ih =>
    unfold deliverRun
    split
    · exact h
    · split
      · exact h
      · exact ih (stored_deliver h l _ _)

@[simp] theorem stored_deliverAll (l : LaneId) : Stored m (deliverAll l t) := by simp [deliverAll, h]

@[simp] theorem stored_finalise (l : LaneId) (serial : Nat) (o : ItemOutcome) :
    Stored m (finalise l serial o t) := by
  unfold finalise
  split <;> simp [h]

@[simp] theorem stored_stopLane (l : LaneId) : Stored m (stopLane l t) := by simp [stopLane, h]

@[simp] theorem stored_jam (l : LaneId) (y : Eye) (cause : Nat) : Stored m (jam l y cause t) := by
  unfold jam
  dsimp only
  split <;> simp [h]

@[simp] theorem stored_countLoss (l : LaneId) (j : JamEye) : Stored m (countLoss l j t) := by
  unfold countLoss
  dsimp only
  split <;> simp [h]

@[simp] theorem stored_loseEntry (l : LaneId) (serial : Nat) (j : JamEye) : Stored m (loseEntry l serial j t) := by
  simp [loseEntry, h]

@[simp] theorem stored_forceDelivery (l : LaneId) (e : Entry) : Stored m (forceDelivery l e t) := by
  unfold forceDelivery
  dsimp only
  split
  · simpa using h
  · split <;> simp [h]

@[simp] theorem stored_loseScanning (l : LaneId) : Stored m (loseScanning l t) := by
  have hgiven := stored_foldl (f := fun u e => giveVerdict l e.serial (plainVerdict .notScanned) u)
    (fun u e hu => by simpa using hu) ((t.track.get l).queue.filter (fun e => e.stage == .scanning)) h
  unfold loseScanning
  split <;> simp [h, hgiven]

/-! ### Verdicts and the scorer -/

@[simp] theorem stored_reportVerdict (l : LaneId) (k : VerdictKind) : Stored m (reportVerdict l k t) := by
  unfold reportVerdict
  split <;> simp [h]

@[simp] theorem stored_returnVerdict (l : LaneId) (serial : Nat) (v : Verdict) :
    Stored m (returnVerdict l serial v t) := by simp [returnVerdict, h]

@[simp] theorem stored_takeJobs (n : Nat) : Stored m (takeJobs n t) := by
  induction n generalizing t with
  | zero => exact h
  | succ n ih =>
    unfold takeJobs
    split
    · split
      · exact ih (by simp [h])
      · simpa using h
    · exact h

@[simp] theorem stored_takeJob : Stored m (takeJob t) := by simp [takeJob, h]

@[simp] theorem stored_postJob (l : LaneId) (e : Entry) (trace : List (List Nat)) :
    Stored m (postJob l e trace t) := by
  unfold postJob
  split <;> simp [h]

@[simp] theorem stored_completeJob : Stored m (completeJob t) := by
  unfold completeJob
  split <;> simp [h]

@[simp] theorem stored_keepSample (l : LaneId) (e : Entry) (readings : List (BitVec 12)) :
    Stored m (keepSample l e readings t) := by
  unfold keepSample
  dsimp only
  split <;> simp [h]

@[simp] theorem stored_takeSample (l : LaneId) (e : Entry) (readings : List (BitVec 12)) :
    Stored m (takeSample l e readings t) := by
  unfold takeSample
  split <;> simp [h]

/-! ### Edges -/

@[simp] theorem stored_createEntry (l : LaneId) (c : BeltSample) : Stored m (createEntry l c t) := by
  simp [createEntry, h]

@[simp] theorem stored_entryArrival (l : LaneId) (c : BeltSample) : Stored m (entryArrival l c t) := by
  simp [entryArrival, h]

@[simp] theorem stored_entryDeparture (l : LaneId) (c : BeltSample) : Stored m (entryDeparture l c t) := by
  unfold entryDeparture
  split <;> simp [h]

@[simp] theorem stored_arrivePocket (l : LaneId) (q : Pocket) (p : Pos) : Stored m (arrivePocket l q p t) := by
  unfold arrivePocket
  dsimp only
  split <;> simp [h]

@[simp] theorem stored_trimTest (l : LaneId) (d : Side) : Stored m (trimTest l d t) := by
  unfold trimTest
  dsimp only
  split <;> simp [h]

@[simp] theorem stored_compareVerify (l : LaneId) (d : Side) (seen : Pos) : Stored m (compareVerify l d seen t) := by
  unfold compareVerify
  split <;> simp [h]

/-! ### Heads -/

@[simp] theorem stored_spitExpiry (l : LaneId) (d : Side) : Stored m (spitExpiry l d t) := by simp [spitExpiry, h]

@[simp] theorem stored_completeSpit (l : LaneId) (d : Side) : Stored m (completeSpit l d t) := by
  simp [completeSpit, h]

/-! ### Calibrations -/

@[simp] theorem stored_finishCalibration (l : LaneId) (kind : Nat) (pairs : List CalPair) (clamped : Nat) :
    Stored m (finishCalibration l kind pairs clamped t) := by simp [finishCalibration, h]

@[simp] theorem stored_tellRequester (l : LaneId) (r : Option CalRequester) (clamped : Nat) :
    Stored m (tellRequester l r clamped t) := by
  unfold tellRequester
  split <;> simp [h]

@[simp] theorem stored_completeLongCal (l : LaneId) (x y : List (List (BitVec 12))) :
    Stored m (completeLongCal l x y t) := by simp [completeLongCal, h]

@[simp] theorem stored_completeShortCal (l : LaneId) (x y : List (List (BitVec 12))) :
    Stored m (completeShortCal l x y t) := by simp [completeShortCal, h]

@[simp] theorem stored_calExpiry (l : LaneId) : Stored m (calExpiry l t) := by simp [calExpiry, h]

@[simp] theorem stored_completeCalCheck (l : LaneId) (readings : List (List (BitVec 12))) :
    Stored m (completeCalCheck l readings t) := by
  unfold completeCalCheck
  split <;> simp [h]

/-! ### Self-tests -/

@[simp] theorem stored_judgeStep (l : LaneId) (step : Nat) : Stored m (judgeStep l step t) := by simp [judgeStep, h]

/-- R63: an audit evaluation stores its entry at the next place of the result area. -/
@[simp] theorem stored_completeAudit (a : Audit) : Stored m (completeAudit a t) := by
  unfold completeAudit
  dsimp only
  split <;> simp [h]

end

end Sys2Proof.Machine
end

