-- ==== Sys2Proof/Proofs/OrderStores.lean ====
section
/-! The reads of the chain and the orders store bytes alone: each is a case split over its refusals and what it does when
it is taken. -/

namespace Sys2Proof.Machine

section
variable {m : List Host.Cell} {t : State} (h : Stored m t)
include h

/-! ### Reads of the chain -/

/-- R180: a block is taken, or refused at once. -/
@[simp] theorem stored_takeBlock (b : OrderBlock) : Stored m (takeBlock b t) := by
  unfold takeBlock
  split <;> simp [h]

@[simp] theorem stored_readBlock : Stored m (readBlock t) := by
  unfold readBlock
  dsimp only
  split
  · split <;> simp [h]
  · simpa using h

@[simp] theorem stored_readLink : Stored m (readLink t) := by
  unfold readLink
  dsimp only
  split <;> simp [h]

@[simp] theorem stored_chainRead : Stored m (chainRead t) := by
  unfold chainRead
  split <;> simp [h]

@[simp] theorem stored_startChain : Stored m (startChain t) := by
  unfold startChain
  dsimp only
  split
  · simpa using h
  · split <;> simp [h]

/-! ### Port, tables and the clock -/

@[simp] theorem stored_configurePort (a : Nat) (mask : BitVec 16) (poll low : Nat) :
    Stored m (configurePort a mask poll low t) := by simp [configurePort, h]

@[simp] theorem stored_tableCurrent (k : ClassTable) : Stored m (tableCurrent k t) := by simp [tableCurrent, h]

@[simp] theorem stored_acceptTable (n mode : Nat) (b : List Byte) : Stored m (acceptTable n mode b t) := by
  unfold acceptTable
  split <;> simp [h]

@[simp] theorem stored_loadClasses (a n mode : Nat) : Stored m (loadClasses a n mode t) := by
  unfold loadClasses
  repeat' split
  all_goals simp [h]

@[simp] theorem stored_applyStaged (k : ClassTable) : Stored m (applyStaged k t) := by simp [applyStaged, h]

@[simp] theorem stored_acceptGeometry (l : LaneId) (g : Geometry) : Stored m (acceptGeometry l g t) := by
  have hgeom : Stored m { t with geom := t.geom.upd l (fun _ => g) } := h
  have hgates := stored_foldl (f := fun u x => updChannel l x (fun c => { c with history := [] }) u)
    (fun u x hu => by simpa using hu) allGates hgeom
  have hcapacities := stored_foldl (f := fun u q => setCapacity l q.1 q.2 u) (fun u q hu => by simpa using hu)
    (allPockets.zip g.capacities) hgates
  exact stored_orderDone (stored_foldl (fun u p hu => by simpa using hu) allPockets hcapacities) none

@[simp] theorem stored_loadGeometry (a lane : Nat) : Stored m (loadGeometry a lane t) := by
  unfold loadGeometry
  repeat' split
  all_goals simp [h]

@[simp] theorem stored_acceptStyles (b : List Byte) : Stored m (acceptStyles b t) := by simp [acceptStyles, h]

@[simp] theorem stored_loadStyles (a : Nat) : Stored m (loadStyles a t) := by
  unfold loadStyles
  split
  · simp [h]
  · dsimp only
    repeat' split
    all_goals simp [h]

@[simp] theorem stored_setClock (year month day seconds period : Nat) :
    Stored m (setClock year month day seconds period t) := by
  unfold setClock
  split <;> simp [h]

@[simp] theorem stored_testThreshold (e : ThresholdEntry) : Stored m (testThreshold e t) := by
  unfold testThreshold
  split <;> simp [h]

@[simp] theorem stored_acceptThresholds (es : List ThresholdEntry) : Stored m (acceptThresholds es t) := by
  have happlied := stored_foldl (f := fun u e => applyThreshold e u) (fun u e hu => by simpa using hu) es h
  have htested := stored_foldl (f := fun u e => testThreshold e u) (fun u e hu => by simp [hu]) es
    (t := freeLane .lane1 (freeLane .lane0 (es.foldl (fun u e => applyThreshold e u) t))) (by simpa using happlied)
  exact stored_orderDone (by simpa using htested) none

@[simp] theorem stored_loadThresholds (a : Nat) : Stored m (loadThresholds a t) := by
  unfold loadThresholds
  split
  · simp [h]
  · dsimp only
    repeat' split
    all_goals simp [h]

/-! ### Pages and snapshots -/

@[simp] theorem stored_acceptPages (pages : List Nat) : Stored m (acceptPages pages t) := by simp [acceptPages, h]

@[simp] theorem stored_givePages (a n : Nat) : Stored m (givePages a n t) := by
  unfold givePages
  split
  · simp [h]
  · split
    · simp [h]
    · dsimp only
      repeat' split
      all_goals simp [h]

@[simp] theorem stored_flushJournal : Stored m (flushJournal t) := by
  unfold flushJournal
  split <;> simp [h]

@[simp] theorem stored_finishFlush (seq : Nat) : Stored m (finishFlush seq t) := by
  unfold finishFlush
  split <;> simp [h]

/-- R149: a page that is written out is stored whole. -/
@[simp] theorem stored_writeOutPage (c : ClosedPage) : Stored m (writeOutPage c t) := by
  refine stored_finishFlush ((stored_takePage).mpr ?_) c.page.seq
  split <;> simp [h]

@[simp] theorem stored_tallySnapshot (a lane zf : Nat) : Stored m (tallySnapshot a lane zf t) := by
  unfold tallySnapshot
  split <;> simp [h]

@[simp] theorem stored_healthSnapshot (a : Nat) : Stored m (healthSnapshot a t) := by
  unfold healthSnapshot
  split <;> simp [h]

/-! ### Lane and pocket orders -/

@[simp] theorem stored_pendOrder (l : LaneId) (p : PendingLane) : Stored m (pendOrder l p t) := by simp [pendOrder, h]

@[simp] theorem stored_runWarming (l : LaneId) : Stored m (runWarming l t) := by simp [runWarming, h]

@[simp] theorem stored_runReady (l : LaneId) : Stored m (runReady l t) := by
  unfold runReady
  split <;> simp [h]

@[simp] theorem stored_runLane (l : LaneId) : Stored m (runLane l t) := by
  unfold runLane
  repeat' split
  all_goals simp [h]

@[simp] theorem stored_drainRunning (l : LaneId) : Stored m (drainRunning l t) := by
  unfold drainRunning
  split <;> simp [h]

@[simp] theorem stored_drainLane (l : LaneId) : Stored m (drainLane l t) := by
  unfold drainLane
  split <;> simp [h]

@[simp] theorem stored_standbyLane (l : LaneId) : Stored m (standbyLane l t) := by simp [standbyLane, h]

@[simp] theorem stored_offLane (l : LaneId) : Stored m (offLane l t) := by simp [offLane, h]

@[simp] theorem stored_standby (l : LaneId) : Stored m (standby l t) := by
  unfold standby
  split <;> simp [h]

@[simp] theorem stored_switchOff (l : LaneId) : Stored m (switchOff l t) := by
  unfold switchOff
  split <;> simp [h]

@[simp] theorem stored_clearStopped (l : LaneId) : Stored m (clearStopped l t) := by
  unfold clearStopped
  split <;> simp [h]

@[simp] theorem stored_abortLane (l : LaneId) : Stored m (abortLane l t) := by simp [abortLane, h]

@[simp] theorem stored_disablePocket (l : LaneId) (p : Pocket) : Stored m (disablePocket l p t) := by
  unfold disablePocket
  split <;> simp [h]

@[simp] theorem stored_enablePocket (l : LaneId) (p : Pocket) : Stored m (enablePocket l p t) := by
  unfold enablePocket
  split <;> simp [h]

/-! ### Test orders -/

@[simp] theorem stored_startLaneTest (lane : Nat) {start : LaneId → State → State} (hstart : ∀ l, Stored m (start l t)) :
    Stored m (startLaneTest lane start t) := by
  unfold startLaneTest
  repeat' split
  all_goals simp [h, hstart]

@[simp] theorem stored_emptyAudit (a : Audit) : Stored m (emptyAudit a t) := by simp [emptyAudit, h]

@[simp] theorem stored_startAudit (n : Nat) (spans : List (Nat × Nat)) (area : Nat) :
    Stored m (startAudit n spans area t) := by
  unfold startAudit
  repeat' split
  all_goals simp [h]

@[simp] theorem stored_abortLaneTest (k : LaneTestKind) (lane : Nat) : Stored m (abortLaneTest k lane t) := by
  unfold abortLaneTest
  repeat' split
  all_goals simp [h]

@[simp] theorem stored_abortTest (k : TestKind) (lane : Nat) : Stored m (abortTest k lane t) := by
  unfold abortTest
  split <;> simp [h]

end

end Sys2Proof.Machine
end

