-- ==== Sys2Proof/Proofs/CanonicalMemory.lean ====
section
/-! Every command makes host memory of what it was by writes of bytes alone, so every step keeps its canonical form. -/

namespace Sys2Proof.Machine

section
variable {m : List Host.Cell} {c : Instr} {s t : State}

/-! ### What the rows themselves do -/

@[simp] theorem stored_swapPocket (l : LaneId) (p : Pocket) : Stored m (swapPocket l p t) ↔ Stored m t :=
  stored_of_only (by apply swapPocket_only (h := only_refl _ _) <;> simp)
@[simp] theorem stored_applyCapacity (l : LaneId) (p : Pocket) (n : Nat) :
    Stored m (applyCapacity l p n t) ↔ Stored m t :=
  stored_of_only (by apply applyCapacity_only (h := only_refl _ _) <;> simp)
@[simp] theorem stored_startReference (l : LaneId) : Stored m (startReference l t) ↔ Stored m t :=
  stored_of_only (by apply startReference_only (h := only_refl _ _) <;> simp)
@[simp] theorem stored_startCalibrate (l : LaneId) : Stored m (startCalibrate l t) ↔ Stored m t :=
  stored_of_only (by apply startCalibrate_only (h := only_refl _ _) <;> simp)

theorem stored_windowsTaken (ds : List WindowDesc) : Stored m (windowsTaken ds t) ↔ Stored m t := Iff.rfl

/-- R186: the status block is stored whole, or refused. -/
@[simp] theorem stored_writeStatus (h : Stored m t) (a : Nat) : Stored m (writeStatus a t) := by
  cases hw : allowed .statusWrite a 160 t with
  | true =>
    rw [writeStatus_allowed hw]
    exact stored_writeBytes h a (statusBlock (t.stat.updateCount + 1) t)
  | false =>
    rw [writeStatus_refused hw]
    exact (stored_windowFault none .statusWrite a).mpr h

/-! ### The shapes of a meaning -/

/-- The end of an event stores nothing. -/
theorem event_stored {comes : Bool} {body : State → State} (h : event comes body s = .next t)
    (hb : Stored s.mem (body s)) : Stored s.mem t :=
  event_carries h (stored_self s) ((stored_congr (settle_mem s (body s))).mpr hb)

theorem next_stored (h : Host.Outcome.next s = (.next t : Host.Outcome State Fault Refusal)) : Stored s.mem t := by
  cases h
  exact stored_self s

theorem entryEvent_stored {l : LaneId} {n : Nat} {comes : Entry → Bool} {body : Entry → State → State}
    (h : entryEvent l n comes body s = .next t) (hb : ∀ e, Stored s.mem (body e s)) : Stored s.mem t :=
  entryEvent_carries h (stored_self s) fun e => (stored_congr (settle_mem s (body e s))).mpr (hb e)

theorem laneControl_stored {a : LaneAction} {act : LaneId → State → State} (h : laneControl a act s = .next t)
    (hb : ∀ l, Stored s.mem (act l s)) : Stored s.mem t := by
  unfold laneControl at h
  split at h
  · split at h
    · refine event_stored h ?_
      split <;> simp [hb]
    · exact next_stored h
  · exact next_stored h

theorem pocketControl_stored {a : PocketAction} {act : LaneId → Pocket → Nat → State → State}
    (h : pocketControl a act s = .next t) (hb : ∀ l p n, Stored s.mem (act l p n s)) : Stored s.mem t := by
  unfold pocketControl at h
  split at h
  · split at h
    · refine event_stored h ?_
      split <;> simp [hb]
    · exact next_stored h
  · exact next_stored h

/-! ### Rows of a shape of their own -/

theorem sampleTaken_stored {l : LaneId} {n : Nat} {r : List (BitVec 12)} (h : execSampleTaken l n r s = .next t) :
    Stored s.mem t := by
  unfold execSampleTaken at h
  split at h
  · split at h
    · exact next_stored h
    · exact event_stored h (by simp)
  · cases h

theorem configurePort_stored (h : execConfigurePort s = .next t) : Stored s.mem t := by
  unfold execConfigurePort at h
  split at h
  · refine event_stored h ?_
    split <;> simp
  · exact next_stored h

theorem setWindows_stored (h : execSetWindows s = .next t) : Stored s.mem t := by
  unfold execSetWindows at h
  split at h
  next ds _ =>
    refine event_stored h ?_
    split
    · simp
    · exact stored_orderDone ((stored_windowsTaken ds).mpr (stored_self s)) none
  · exact next_stored h

/-! ### Every command -/

/-- A command whose frame leaves host memory stores nothing, and every other stores bytes alone. -/
theorem exec_stored (h : exec c s = .next t) : Stored s.mem t := by
  by_cases hmem : Part.mem ∈ partsOf c
  case neg => exact (stored_congr (exec_touches h .mem (by simp [touches, eventEnd, hmem]))).mpr (stored_self s)
  cases c with
  | sampleTaken _ _ _ => exact sampleTaken_stored h
  | configurePort => exact configurePort_stored h
  | setWindows => exact setWindows_stored h
  | longTimeout _ _ | forcedDelivery _ _ | lostAtCancelEye _ _ | lostAtEndEye _ _ =>
    exact entryEvent_stored h (by simp)
  | longCalComplete _ _ _ | shortCalComplete _ _ _ | refCalCheckComplete _ _ =>
    exact event_stored (eventWithin_next h) (by simp)
  | eLeadingEdge _ _ | eTrailingEdge _ _ | blockedEye _ _ | arrivalPocketEye _ _ _ | verifyEdge _ _ _
  | scoringComplete | spitTimerExpiry _ _ | spitComplete _ _ | idleTimerExpiry _ | calIntervalExpiry _
  | pollTimerExpiry | look | chainLinkRead | runChainStart =>
    simp only [exec, execELeadingEdge, execETrailingEdge, execBlockedEye, execArrivalPocketEye, arrivalEvent,
      execVerifyEdge, execScoringComplete, execSpitTimerExpiry, execSpitComplete, execIdleTimerExpiry,
      execCalIntervalExpiry, execPollTimerExpiry, execLook, execChainLinkRead, execRunChainStart] at h
    exact event_stored h (by simp)
  | stagedTableApply | auditEvalComplete | syntheticItemScored _ | statusWrite | pageWriteOut =>
    simp only [exec, execStagedTableApply, execAuditEvalComplete, execSyntheticItemScored, execStatusWrite,
      execPageWriteOut] at h
    split at h
    · exact next_stored h
    · exact event_stored h (by simp)
  | identify | loadClasses | loadGeometry | loadStyles | setClock | loadThresholds | givePages | flushJournal
  | tallySnapshot | healthSnapshot | selfTestReference | selfTestCalibrate | selfTestClassAudit | selfTestAbort =>
    simp only [exec, execIdentify, execLoadClasses, execLoadGeometry, execLoadStyles, execSetClock, execLoadThresholds,
      execGivePages, execFlushJournal, execTallySnapshot, execHealthSnapshot, execSelfTestReference,
      execSelfTestCalibrate, execSelfTestClassAudit, execSelfTestAbort] at h
    split at h
    · exact event_stored h (by simp)
    · exact next_stored h
  | laneControlRun | laneControlDrain | laneControlStandby | laneControlOff | laneControlClear | laneControlAbort
  | laneControlHold | laneControlRelease => exact laneControl_stored h (by simp)
  | pocketControlDisable | pocketControlEnable | pocketControlSwap | pocketControlSetCapacity =>
    exact pocketControl_stored h (by simp)
  | _ => simp [partsOf, itemParts] at hmem

end

end Sys2Proof.Machine

open Sys2Proof Sys2Proof.Machine

/-- Settles O6: a tick leaves host memory, and the command at the front of the queue makes it of what it was by writes of
bytes, each of which keeps the form. -/
theorem stepKeepsMemoryForm : Obligations.StepKeepsMemoryForm := by
  intro s t hs h
  unfold step at h
  split at h
  · cases h
    exact hs
  · exact (exec_stored h).wf hs
end
